-- ==== Sys2Proof/Word.lean ====
section
/-! DEFINITION. The word types of the package (00 R9: bit 0 is the least significant bit, multi-byte values are little-endian)
and the sorted finite map that sparse state is kept in. -/

namespace Sys2Proof

/-- A control-space register word, a descriptor word, a flag (01 R35, 02 R48, 02 R56). -/
abbrev Word := BitVec 32

/-- One byte of device or host memory. -/
abbrev Byte := BitVec 8

/-- A 64-byte command, drain record or submission entry read as one unit (02 R43, 02 R48). -/
abbrev Block64 := BitVec 512

/-- Sparse data by key, the keys rising strictly. -/
abbrev NMap (α : Type) := List (Nat × α)

end Sys2Proof
end

