-- ==== Sys2Proof/Syntax.lean ====
section
/-! DEFINITION. The commands of the block: one constructor of `Instr` for each row of spec/opcode_table.json, with the operands
its event carries. A row that a stream runs names the stream and the accession number of the issued command (02 R47, R48); a row
that another package causes carries what that package sent. -/

namespace Sys2Proof

/-- The package-wide status codes (13 R395 Table 7): every status field holds one of these and no other value. -/
inductive Status where
  | ok | descriptorFault | addressFault | sizeFault | sequenceFault | shapeFault | flagFault | timeout | ownerFault | authFault
  | arrayFault | layerFault | numericFail | placementFault | beaterFault | notConverged | deadlineMiss | factorAbandoned
  | deadTarget | unknown | staleAccession | checkFault | tainted | stepDiscarded | memoryFault | integrityFault | unitFault
  deriving DecidableEq, Repr

/-- Who makes a control-space access (01 R34 Table 7, 13 R376 Table 1). -/
inductive Agent where
  | window0 | window1 | registrar
  | core (n : Nat)
  deriving DecidableEq, Repr

/-- The columns of 01 R34 Table 7: who makes a memory access. -/
inductive Requester where
  | core (n : Nat)
  | engine (sid : Nat)
  | host
  | registrar
  | remote (pkg : Nat)
  deriving DecidableEq, Repr

/-- What a flag records as the last operation applied to it (16 R448), and what a START names. -/
inductive Signaller where
  | none
  | stream (sid acc : Nat)
  | queue (q acc : Nat)
  | remote (pkg acc : Nat)
  | store
  | barrier (channel gen : Nat)
  deriving DecidableEq, Repr

/-- The path of a mailbox or I3C command (13 R380, R383; 16 R457). -/
inductive Via where
  | mailbox (m : Nat)
  | i3c (tag : Nat) (req : List Byte)
  deriving DecidableEq, Repr

/-- The waits whose late arrivals 01 R26 counts, each with its own counter. -/
inductive LateUnit where
  | stream (sid : Nat)
  | group (g : Nat)
  | curator
  | coherence (d : Nat)
  | response
  | order
  | liveness
  deriving DecidableEq, Repr

/-- Packet types (10 R291 Table 3). -/
inductive PktType where
  | read | write | atomic | flag | readData | ack | atomicData | nak | refuse | coh | col | ctl
  | unassigned (code : Nat)
  deriving DecidableEq, Repr

/-- A packet header and payload (10 R291 Table 3); `src` and `dst` are global indices, `group`, `rank` and `chunk` the fields of COL. -/
structure Packet where
  type     : PktType
  cls      : Nat
  vc       : Bool
  flagged  : Bool
  ordered  : Bool
  retry    : Bool
  src      : Nat
  dst      : Nat
  length   : Nat
  acc      : Nat
  ordSeq   : Nat
  lpa      : Nat
  atomicOp : Nat
  size8    : Bool
  fop      : Nat
  status   : Status
  v        : Nat
  c        : Nat
  group    : Nat
  rank     : Nat
  chunk    : Nat
  tag      : Nat
  payload  : List Byte
  deriving DecidableEq, Repr

/-- A stage signature (09 R270). -/
structure StageSig where
  grp    : Word
  opcode : Nat
  dtype  : Nat
  rop    : Nat
  root   : Nat
  count  : Nat
  anchor : Nat
  deriving DecidableEq, Repr

/-- One copy entry of a token header (06 R174 Table 8). -/
structure CopyEntry where
  core   : Nat
  slot   : Nat
  rank   : Nat
  row    : Nat
  weight : Word
  deriving DecidableEq, Repr

/-- The checks of a key exchange (15 R434 step 3): the peer's chain, its debug lock, its firmware, its signature. -/
inductive KeyCheck where
  | chain | debugLocked | firmware | signature
  deriving DecidableEq, Repr

/-- What a training state of a port found when it completed its action (10 R288 Table 2, R289); in CREDIT_INIT the cells the peer grants, by
class and VC (key 2c + vc). -/
inductive TrainResult where
  | done
  | noFarEnd
  | lanes (goodMask : Nat)
  | peer (index port : Nat)
  | keysFailed (check : KeyCheck)
  | credits (cells : List Nat)
  deriving DecidableEq, Repr

/-- The requests of quire coherence (07 R209 Table 4). -/
inductive CohKind where
  | read | write | upgrade
  deriving DecidableEq, Repr

/-- The messages a home sends a member that caches its line (07 R209). -/
inductive CohRecall where
  | invalidate
  | recallKeepShared
  | recallInvalidate
  deriving DecidableEq, Repr

/-- The clocks that throttle (14 R404 Table 3). -/
inductive ClockDom where
  | core (d : Nat)
  | vault (d : Nat)
  | hbm (k : Nat)
  | beater (k : Nat)
  deriving DecidableEq, Repr

/-- An access on the debug lands (15 R437). -/
inductive DebugAccess where
  | identify
  | scan
  | haltCore (i : Nat)
  | stepCore (i : Nat)
  | readMem (lpa len : Nat)
  | writeMem (lpa : Nat) (data : List Byte)
  deriving DecidableEq, Repr

/-- What the all-reduces of the Watermark comparison tell of another replica (08 R255): the leaf digests of its stored working copies, in
the block order of a Beater's table. -/
structure WmPeer where
  beater : Nat
  pkg    : Nat
  leaves : List Nat
  deriving DecidableEq, Repr

/-- A layer whose placement is due for revision (06 R185): its layer record and the summed SERVED figure of each expert. -/
structure Revision where
  layer  : Nat
  served : List Nat
  deriving DecidableEq, Repr

/-- How the work of a step boundary went (11 R341): whether the read and clear of the histograms that revisions summed succeeded, and whether
a checkpoint is due. -/
structure BoundaryWork where
  histOk     : Bool
  checkpoint : Bool
  deriving DecidableEq, Repr

/-- Why a package's rails fault (14 R400). -/
inductive RailCause where
  | groupOrder (g : Nat)
  | pwrokFell
  | outOfTolerance (rail : Nat)
  deriving DecidableEq, Repr

/-- The commands. -/
inductive Instr where
  -- control space, streams (01, 02)
  | registerWrite (ag : Agent) (off size value : Nat)
  | debugPortAccess (a : DebugAccess)
  | doorbell (sid tail : Nat)
  | streamEnable (sid : Nat)
  | streamDisable (sid : Nat)
  | resumeSkip (sid : Nat)
  | resumeRetry (sid : Nat)
  | streamReset (sid : Nat)
  | commandFetch (sid : Nat)
  | commandIssue (sid : Nat)
  | waitTimeout (sid acc : Nat)
  | lateArrival (u : LateUnit)
  | flagSet (core flag value : Nat) (by_ : Signaller)
  | flagAdd (core flag value : Nat) (by_ : Signaller)
  | flagMax (core flag value : Nat) (by_ : Signaller)
  | watchPoll (sid : Nat)
  | coreGate (n : Nat)
  | nop (sid acc : Nat)
  | barrierArrive (sid acc : Nat)
  | arriveWait (sid acc : Nat)
  | rgsBarClear (c : Nat)
  | syncDoorbell (sid acc : Nat)
  | taskBegin (sid acc : Nat)
  | taskEnd (sid acc : Nat)
  | shapeWrite (sid acc : Nat)
  | copy (sid acc : Nat)
  | atomic (sid acc : Nat)
  | flagStore (sid acc : Nat)
  | fence (sid acc : Nat)
  -- arrays and vector unit (03, 04, 05)
  | gemm (sid acc : Nat)
  | eltwise (sid acc : Nat)
  | grouped (sid acc : Nat)
  | wgrad (sid acc : Nat)
  | wgradRagged (sid acc : Nat)
  | vecAdd (sid acc : Nat)
  | vecSub (sid acc : Nat)
  | vecMul (sid acc : Nat)
  | vecFma (sid acc : Nat)
  | vecMax (sid acc : Nat)
  | vecMin (sid acc : Nat)
  | vecScale (sid acc : Nat)
  | vecConvert (sid acc : Nat)
  | vecExp (sid acc : Nat)
  | vecLog (sid acc : Nat)
  | vecRecip (sid acc : Nat)
  | vecRsqrt (sid acc : Nat)
  | vecSqrt (sid acc : Nat)
  | vecTanh (sid acc : Nat)
  | vecSigmoid (sid acc : Nat)
  | vecErf (sid acc : Nat)
  | rowSum (sid acc : Nat)
  | rowMax (sid acc : Nat)
  | rowSumsq (sid acc : Nat)
  | rowSoftmax (sid acc : Nat)
  | rampGroupUp (n g : Nat)
  | rampGroupDown (n g : Nat)
  | arrCntClear (n : Nat)
  | deferStarve (sid acc : Nat)
  | arraySpareMap (n a : Nat)
  -- the Curator (06)
  | route (sid acc : Nat)
  | grant (sid acc : Nat)
  | dispatch (sid acc : Nat)
  | tokenArrival (g seq srcRank token : Nat) (copies : List CopyEntry) (row : List Byte)
  | returnRows (sid acc : Nat)
  | sum (sid acc : Nat)
  | curCntClear
  -- the Vault and HBM (07)
  | vaultRead (r : Requester) (addr len : Nat)
  | vaultWrite (r : Requester) (addr : Nat) (data : List Byte)
  | sliceArbitration (d slice readMask writeMask : Nat)
  | add (r : Requester) (addr : Nat) (size8 : Bool) (v : Nat)
  | maxU (r : Requester) (addr : Nat) (size8 : Bool) (v : Nat)
  | minU (r : Requester) (addr : Nat) (size8 : Bool) (v : Nat)
  | maxS (r : Requester) (addr : Nat) (size8 : Bool) (v : Nat)
  | minS (r : Requester) (addr : Nat) (size8 : Bool) (v : Nat)
  | and (r : Requester) (addr : Nat) (size8 : Bool) (v : Nat)
  | or (r : Requester) (addr : Nat) (size8 : Bool) (v : Nat)
  | xor (r : Requester) (addr : Nat) (size8 : Bool) (v : Nat)
  | fmax (r : Requester) (addr : Nat) (size8 : Bool) (v : Nat)
  | fmin (r : Requester) (addr : Nat) (size8 : Bool) (v : Nat)
  | swap (r : Requester) (addr : Nat) (size8 : Bool) (v : Nat)
  | cas (r : Requester) (addr : Nat) (size8 : Bool) (v c : Nat)
  | exactAdd (r : Requester) (addr mask : Nat) (addends : List Word)
  | exactRead (r : Requester) (addr : Nat)
  | exactClear (r : Requester) (addr : Nat)
  | partitionChange (d gib : Nat)
  | partitionChangeDone (d : Nat)
  | vltFlush (d : Nat)
  | vltInvalidate (d : Nat)
  | flushDone (d : Nat)
  | pageAttrWrite (d w value : Nat)
  | pageScrubDone (pair : Nat)
  | vltAttrLock
  | vltLfsrSeed (d slice seed : Nat)
  | hbmCntClear (k : Nat)
  | cohRemoteRequest (kind : CohKind) (member die line : Nat)
  | cohReply (line member die : Nat) (data : Option (List Byte))
  | cohTimeout (line : Nat)
  | thermalSample (d : Nat) (slices hbms : List Nat)
  | clockStep (dom : ClockDom)
  -- Beaters (08)
  | update (sid acc : Nat)
  | regen (sid acc : Nat)
  | digest (sid acc : Nat)
  | accumulate (sid acc : Nat)
  | clearBuf (sid acc : Nat)
  | btrCntClear (k : Nat)
  -- collectives (09)
  | groupCreate (g : Nat)
  | groupRelease (g : Nat)
  | colGrpNextSeqWrite (g value : Nat)
  | allReduce (sid acc : Nat)
  | reduceScatter (sid acc : Nat)
  | allGather (sid acc : Nat)
  | allToAllV (sid acc : Nat)
  | broadcast (sid acc : Nat)
  | barrier (sid acc : Nat)
  | commit (sid acc : Nat)
  | stageAdmission (g seq rank : Nat) (sig : StageSig) (refusal : Option Status) (counts : List Nat)
  | stageGo (g seq : Nat) (info : List Nat)
  | stageFail (g seq : Nat) (st : Status)
  | stageTaint (g seq : Nat) (st : Status)
  | stageTimeout (g seq : Nat)
  | chunkArrival (g seq srcRank chunk : Nat) (payload : List Byte) (check : BitVec 64)
  | chunkRetransmit (g seq dstRank chunk : Nat)
  | chunkAck (g seq dstRank chunk : Nat)
  | creditGrant (g seq receiver source : Nat)
  | stageCompletionReport (g seq rank : Nat) (st : Status)
  | commitDecision (g seq : Nat) (commit : Bool) (epoch : Nat)
  | commitTimeout (g seq : Nat)
  | colStepOkWrite (value : Nat)
  -- the Chener fabric (10)
  | portEnable (p value : Nat)
  | chnPortRetrain (p : Nat)
  | trainStateDone (p : Nat) (r : TrainResult)
  | trainStateTimeout (p : Nat)
  | frameReceive (p seq lastSeen : Nat) (credits : List Nat) (fecFixed : Nat) (crcOk tagOk : Bool) (pkts : List Packet)
  | frameReplay (p seq : Nat) (ok : Bool)
  | laneSerCheck (p : Nat) (errs : List Nat) (lockMask : Nat)
  | portDown (p : Nat)
  | linkRekey (p : Nat) (ok : Bool)
  | packetForward (pkt : Packet) (queued : List Nat)
  | read (pkt : Packet)
  | write (pkt : Packet)
  | remoteAtomic (pkt : Packet)
  | remoteFlag (pkt : Packet)
  | responseArrival (pkt : Packet)
  | requestRetry (acc : Nat)
  | requestBudgetExpiry (acc : Nat)
  | orderTimeout (src acc : Nat)
  | chnResyncGo (dest : Nat)
  | resyncAck (dest : Nat)
  | chnRiGo
  | livenessProbe
  | liveTimeout (pkg : Nat)
  | reachDeclaration (gen : Nat) (mask : Nat)
  | chnFabricEn (value : Nat)
  -- the job (11)
  | stepAttempt
  | stepTimeout
  | commitRelease
  | stepBoundaryWork (peers : List WmPeer) (revisions : List Revision) (work : BoundaryWork)
  -- the Press (12)
  | solve (sid acc asmCycles : Nat)
  | backward (sid acc : Nat)
  | pressDeadlineCheck (sid acc cycles iter : Nat)
  | prsCntClear (d : Nat)
  -- mailbox commands (13)
  | getIdentity (via : Via)
  | getVersion (via : Via)
  | loadFirmware (via : Via)
  | ownClaim (via : Via)
  | ownRelease (via : Via)
  | htxOwnBreak (ag : Agent)
  | repairApply (via : Via)
  | repairRead (via : Via)
  | jobLoad (via : Via)
  | jobStart (via : Via)
  | jobStopBoundary (via : Via)
  | jobStopNow (via : Via)
  | jobUnload (via : Via)
  | jobStatus (via : Via)
  | setEpoch (via : Via)
  | ledgerQueryCommand (via : Via)
  | ledgerQueryRemote (via : Via)
  | ledgerQueryCommit (via : Via)
  | ledgerQueryRead (via : Via)
  | ledgerFwdQuery (src : Nat) (req : List Byte)
  | ledgerFwdTimeout (m : Nat)
  | health (via : Via)
  | debugUnlockChallenge (via : Via)
  | debugUnlockSubmit (via : Via)
  | debugUnlockCancel (via : Via)
  | spdmGetVersion (via : Via)
  | spdmGetCapabilities (via : Via)
  | spdmNegotiateAlgorithms (via : Via)
  | spdmGetDigests (via : Via)
  | spdmGetCertificate (via : Via)
  | spdmChallenge (via : Via)
  | spdmGetMeasurements (via : Via)
  | spdmUnsupported (via : Via)
  | custIdentity (via : Via)
  | custQuote (via : Via)
  | custHealth (via : Via)
  | custLedgerTail (via : Via)
  | custReset (via : Via)
  | custResetKeepHbm (via : Via)
  | custPowerDown (via : Via) (flushOk : Bool)
  | custInjectOff (via : Via)
  | custTime (via : Via)
  | i3cEntdaa (address : Nat)
  | i3cRequestDiscard
  -- submission queues (13)
  | htxSqTail (q value : Nat)
  | htxCqHead (q value : Nat)
  | htxSqEnable (q value : Nat)
  | htxSqResume (q : Nat)
  | htxSqReset (q : Nat)
  | sqNop (q acc : Nat)
  | sqCopyIn (q acc : Nat)
  | sqCopyOut (q acc : Nat)
  | sqRing (q acc : Nat)
  | sqFlag (q acc : Nat)
  | htxImEnable (v : Nat)
  | heartbeatAdvance
  | heartbeatStall
  -- power, clocks, reset (14)
  | coldPowerUp
  | mainRailPowerUp
  | pkgReset
  | pkgResetRelease
  | pkgPwrokRise (inTolerance : Bool)
  | railFault (cause : RailCause)
  | referenceFault
  | custRefclkLoss
  | mainRailRemoval
  | bootStageEnd
  | bootHalt (st : Status) (die item : Nat)
  | powerSample (watts : Nat)
  | powerLimitStep
  | pwrDutyStep
  | edcEvent (d : Nat)
  | rampWindow (d : Nat) (requests : List Nat)
  | thermalTrip
  | thermTripRelease (hottest : Nat)
  -- reliability (16)
  | correctableError (det die unit item : Nat)
  | uncorrectableError (det die unit item : Nat)
  | csvInjArm
  | csvReplaceGo (n : Nat)
  | coreReplace (n : Nat)
  | controlCoreSpare (index : Nat)
  | ucieModuleRemove (die module_ : Nat)
  | vaultBankSpare (d slice bank : Nat)
  | hbmRowRepair (k addr resource : Nat)
  | beaterLaneSpare (k lane : Nat)
  | readClear (ag : Agent) (off size : Nat)
  | custodianRailLoss
  | cohRecall (line : Nat) (kind : CohRecall) (die : Nat)
  | resyncAtTarget (src ordSeq : Nat)
  | mailboxGoUnassigned (m : Nat) (ag : Agent)
  | submissionEntryFetch (q : Nat)
  | ledgerFwdReply (m : Nat) (reply : List Byte)
  deriving DecidableEq, Repr

end Sys2Proof
end

