-- ==== Sys2Proof/Config.lean ====
section
/-! DEFINITION. What one package fixes and the spec leaves open: free constants, none with a body, so that no proof can rest on
a value of theirs. Each is named in an entry of the assumption log. -/

namespace Sys2Proof.Config

/-- The fused register words (14 R421, 15 R441, 16 R466, R467 and others), by control-space offset (log 3). -/
opaque fusedWord : Nat → BitVec 32

/-- The grade of the package: true for ET960-LB (00 R5, log 3). -/
opaque gradeLB : Bool

/-- Factory repair of cores: the logical core of die `d` that spare `k` serves; 128 or more when the spare is unused (01 R30, log 3). -/
opaque factoryCore : Nat → Nat → Nat

/-- Factory repair of arrays: the logical array that physical array 24 serves on physical core `c`, counted 136 to a die; 24 or more when
none (03 R98, log 3). -/
opaque factoryArray : Nat → Nat

/-- Factory repair of control cores: the one of cores 0–2 that the spare replaces; 3 or more when none (13 R396, log 3). -/
opaque factoryControl : Nat

/-- What an event counter at `off` reads once it has passed its width, for the `n`th free value (log 8). -/
opaque counterOverflow : Nat → Nat → Nat

/-- By how many cycles the counter of busy, stalled or deferred cycles at `off` grows, for the `n`th free value (log 12). -/
opaque cycles : Nat → Nat → Nat

/-- The `n`th free value, where the spec states none (log 1). -/
opaque free : Nat → Nat

/-- The `i`th value of the `n`th family of free values (log 1). -/
opaque freeAt : Nat → Nat → Nat

/-- Byte `i` of what a COPY reads where it also writes, for its source and destination and what stands at the source, as one number (02, DMA;
log 1). -/
opaque overlapByte : Nat → Nat → Nat → Nat → Nat

/-- Tiles of staging in use, for the `n`th free value (04 R115, log 12). -/
opaque staged : Nat → Nat

/-- The step, in units in the last place, by which the device's approximation of vector function `f` at input `a` differs from the
rounded exact value; it counts only where the result keeps the function's error bound (03 R94, log 9). -/
opaque vecUlp : Nat → Nat → Int

/-- Which form the lottery's shift register has: the spec gives its polynomial and no direction (07 R215, log 13). -/
opaque lfsrForm : Nat

/-- By how many units in the last place the Press's value at place `site` of its algorithms differs from the model's grouping of the same
expression, whose value is `v` (12 R358–R361, log 40). -/
opaque pressUlp : Nat → Nat → Int

/-- The fused 256-bit unique device secret (15 R424, log 3). -/
opaque uds : Nat

/-- Measurements 1 and 2: the digests of the Custodian ROM and of the Registrar boot ROM, as 384-bit numbers (15 R428, log 3). -/
opaque romDigest : Nat → Nat

/-- The bytes of the fused factory repair list, which measurement 3 covers (15 R428, log 3). -/
opaque factoryList : List (BitVec 8)

/-- The host die's IOMMU (13 R392), outside the device: for the `n`th free value, the page that an access of page `p` reaches, none for a
translation or permission fault (log 17). -/
opaque iommu : Nat → Nat → Bool → Option Nat

/-- Words of an event's 64 bytes whose value this model does not keep: DOMAIN and CYCLES of event `seq` of power-on `boot`, word `w` (16 R447,
log 12). -/
opaque eventWord : Nat → Nat → Nat → Nat

/-- The words of an event's DETAIL: from its type and what 16 R447 Table 3 has it tell, word `w`; the spec gives DETAIL no layout (log 12). -/
opaque detailWord : Nat → List Nat → Nat → Nat

/-- The stream table of a loaded job, whose layout the spec leaves to the firmware (11 R322, log 19): for the job known by free value `j`
and a parity, each stream with its ring's address, its log2 size and the tail to ring. -/
opaque streamTable : Nat → Nat → List (Nat × Nat × Nat × Nat)

/-- Address and log2 size of the ring in which the firmware writes COMMIT (11 R337, log 19). -/
opaque commitRing : Nat → Nat × Nat

/-- The optimiser records of the job, by address (11 R338, log 19). -/
opaque optRecords : Nat → List Nat

/-- The learning rate that the schedule gives an optimiser record for a step count (08 R239, log 19). -/
opaque learningRate : Nat → Nat → Nat → Nat

/-- BC1 and BC2 as the firmware computes them (08 R239 Table 5): from the bits of BETA and the step count, 1 / (1 − BETA^t) in FP32, whose
rounding the spec does not give (log 19). -/
opaque biasCorrection : Nat → Nat → Nat

/-- The CLEAR_BUF commands in the rings of a parity variant, by address (11 R328, log 19). -/
opaque clearList : Nat → Nat → List Nat

/-- The census records of the job, by address (11 R328, log 19). -/
opaque censusList : Nat → List Nat

/-- The anchor that the firmware derives from the census records of the last committed step for a CLEAR_BUF of the next (11 R328, log 19). -/
opaque anchorOf : Nat → List (BitVec 8) → Nat → Nat

/-- The block entries of one Beater that the firmware compares and saves: their address, their number and the rounding of the job's optimiser
records (08 R255, 11 R342, log 19). -/
structure BlockTable where
  beater : Nat
  addr   : Nat
  count  : Nat
  stochastic : Bool
  deriving DecidableEq, Repr

/-- The block tables of the job (log 19). -/
opaque blockTables : Nat → List BlockTable

/-- The layer records of the job (log 19). -/
opaque layers : Nat → List Nat

/-- The blocks of this package that hold the parameters of an expert of a layer: Beater, entry and rounding (06 R185 step 4, log 19). -/
opaque expertBlocks : Nat → Nat → Nat → List (Nat × Nat × Bool)

/-- The Vault partition of a die, and the page-pair attributes of a word of VLT_PAGE_ATTR, that the mapping of a job asks for; none where it
leaves them as they stand (11 R332, log 76). -/
opaque mapPartition : Nat → Nat → Option Nat
opaque mapPages : Nat → Nat → Option Nat

/-- The barrier commands of a parity variant, listed in the stream table (11 R339): address of the command, channel and offset in the step
(log 19). -/
opaque barrierList : Nat → Nat → List (Nat × Nat × Nat)

/-- The fallback lists that the rack master's firmware writes (10 R299, log 70): from the ACTIVE ports each package has told, for a package and
an entry, 0–63 for the rack's packages and 64–127 for the racks. -/
opaque fallbackList : List (Nat × Nat) → Nat → Nat → Nat

/-- Children of a member in the distribution tree of a BROADCAST, by members and root: the spec gives the tree no shape, and the model takes
one in which every member has at most this many, at least one (09 R278, log 66). -/
opaque treeArity : Nat → Nat → Nat

/-- The leaf digest of a block that has no committed slot, by its entry and the Watermark key (08 R254, log 1). -/
opaque noSlotDigest : BitVec 512 → Nat → Nat

/-- The row of an HBM stack address within its channel (16 R458, log 18): the spec gives the channel and no row. -/
opaque hbmRow : Nat → Nat

/-- Where the firmware writes the new placement table of a layer record (06 R185, log 19). -/
opaque tablePlace : Nat → Nat → Nat

/-- The certificate chain of SPDM slot 0 (15 R423, R429), by the free value of its Alias certificate: the spec gives no encoding (log 20). -/
opaque certChain : Nat → List (BitVec 8)

end Sys2Proof.Config
end

