-- ==== Sys2Proof/Machine/Float.lean ====
section
/-! DEFINITION. Arithmetic on floating-point values (chapter 04): every operation is computed exactly and rounded once. The element
formats, round to nearest even and stochastic rounding, special values, and the vector functions within their error bounds. -/

namespace Sys2Proof.Machine

/-- A value: NaN, an infinity, or (−1)^neg × m × 2^e; m = 0 is a signed zero. -/
inductive FV where
  | nan
  | inf (neg : Bool)
  | fin (neg : Bool) (m : Nat) (e : Int)
  deriving DecidableEq, Repr

/-- The special codes of a format (04 R102 Table 1): infinities and NaNs, one NaN, or none. -/
inductive Specials where
  | ieee | oneNan | none
  deriving DecidableEq, Repr

/-- An element format (04 R102 Table 1): exponent and mantissa bits, bias, special codes, and whether a value out of range is written
as the largest finite value (04 R119) or as an infinity. -/
structure Fmt where
  eb   : Nat
  mb   : Nat
  bias : Nat
  spec : Specials
  sat  : Bool
  deriving DecidableEq, Repr

/-- Bits of an element. -/
def Fmt.width (f : Fmt) : Nat := 1 + f.eb + f.mb

def fp32 : Fmt := ⟨8, 23, 127, .ieee, false⟩
def bf16 : Fmt := ⟨8, 7, 127, .ieee, false⟩
def fp16 : Fmt := ⟨5, 10, 15, .ieee, false⟩
def e4m3 : Fmt := ⟨4, 3, 7, .oneNan, true⟩
def e5m2 : Fmt := ⟨5, 2, 15, .ieee, true⟩
def e3m2 : Fmt := ⟨3, 2, 3, .none, true⟩
def e2m3 : Fmt := ⟨2, 3, 1, .none, true⟩
def e2m1 : Fmt := ⟨2, 1, 1, .none, true⟩
/-- The Press computes in IEEE double precision (12). -/
def fp64 : Fmt := ⟨11, 52, 1023, .ieee, false⟩

/-- Magnitude code of the largest finite value. -/
def Fmt.maxCode (f : Fmt) : Nat :=
  match f.spec with
  | .ieee => (2 ^ f.eb - 1) * 2 ^ f.mb - 1
  | .oneNan => 2 ^ (f.eb + f.mb) - 2
  | .none => 2 ^ (f.eb + f.mb) - 1

/-- Code of +∞, for formats that have it. -/
def Fmt.infCode (f : Fmt) : Nat := (2 ^ f.eb - 1) * 2 ^ f.mb

/-- The canonical NaN (04 R102 Table 1). -/
def Fmt.nanCode (f : Fmt) : Nat :=
  match f.spec with
  | .ieee => if f.mb = 2 then 0x7E else f.infCode + 2 ^ (f.mb - 1)
  | .oneNan => 2 ^ (f.eb + f.mb) - 1
  | .none => 0

/-- The exponent of the grid below the smallest normal value. -/
def Fmt.qmin (f : Fmt) : Int := 1 - (f.bias : Int) - (f.mb : Int)

/-- The value of an element code (04 R103). -/
def Fmt.decode (f : Fmt) (code : Nat) : FV :=
  let neg := code / 2 ^ (f.eb + f.mb) % 2 == 1
  let ex := code / 2 ^ f.mb % 2 ^ f.eb
  let mt := code % 2 ^ f.mb
  if f.spec = .ieee ∧ ex = 2 ^ f.eb - 1 then (if mt = 0 then .inf neg else .nan)
  else if f.spec = .oneNan ∧ code % 2 ^ (f.eb + f.mb) = 2 ^ (f.eb + f.mb) - 1 then .nan
  else if ex = 0 then .fin neg mt f.qmin
  else .fin neg (2 ^ f.mb + mt) (f.qmin + (ex - 1 : Nat))

/-- A magnitude on the format's grid, continued without limit above its largest finite value (04 R117): nearest even, or up
with the stochastic draw `r`. The result is n × 2^q. -/
def roundMag (f : Fmt) (sr : Option Nat) (m : Nat) (e : Int) : Nat × Int :=
  if m = 0 then (0, f.qmin)
  else
    let q := max ((m.log2 : Int) + e - f.mb) f.qmin
    if q ≤ e then (m * 2 ^ (e - q).toNat, q)
    else
      let d := (q - e).toNat
      let n := m / 2 ^ d
      let r := m % 2 ^ d
      let up := match sr with
        | some draw => r != 0 && decide (2 ^ 23 ≤ 2 ^ 23 * r / 2 ^ d + draw % 2 ^ 23)
        | none => decide (2 ^ d < 2 * r) || (2 * r == 2 ^ d && n % 2 == 1)
      (if up then n + 1 else n, q)

/-- The magnitude code of n × 2^q on the continued grid. -/
def magCode (f : Fmt) (n : Nat) (q : Int) : Nat :=
  if n < 2 ^ f.mb then n
  else
    let sh := n.log2 - f.mb
    ((q - f.qmin).toNat + sh + 1) * 2 ^ f.mb + (n / 2 ^ sh - 2 ^ f.mb)

/-- The sign bit of a code. -/
def signBit (f : Fmt) (neg : Bool) : Nat := if neg then 2 ^ (f.eb + f.mb) else 0

/-- The magnitude m × 2^e lies below the tie between the largest finite value and the next power of two (04 R116). -/
def Fmt.belowTop (f : Fmt) (m : Nat) (e : Int) : Bool :=
  match f.decode f.maxCode with
  | .fin _ n q =>
    let k := min e (q - 1)
    decide (m * 2 ^ (e - k).toNat < (n + 2 ^ (f.mb + 1)) * 2 ^ (q - 1 - k).toNat)
  | _ => true

/-- A value rounded into a format: the code, and whether a finite value was out of range (04 R119). Above the largest finite value,
nearest even chooses between that value and the next power of two (R116); a stochastic result lies on the continued grid (R117). -/
def roundTo (f : Fmt) (sr : Option Nat) (v : FV) : Nat × Bool :=
  match v with
  | .nan => (f.nanCode, false)
  | .inf neg => (if f.spec = .ieee then signBit f neg + f.infCode else f.nanCode, false)
  | .fin neg m e =>
    let g := roundMag f sr m e
    let c := magCode f g.1 g.2
    if f.maxCode < c then
      (if sr.isNone && f.belowTop m e then (signBit f neg + f.maxCode, false)
       else (signBit f neg + (if f.sat then f.maxCode else f.infCode), true))
    else (signBit f neg + c, false)

/-- Code of a value rounded to nearest even. -/
def enc (f : Fmt) (v : FV) : Nat := (roundTo f none v).1

/-! Exact operations. -/

def FV.neg : FV → FV
  | .nan => .nan
  | .inf s => .inf (!s)
  | .fin s m e => .fin (!s) m e

def FV.abs : FV → FV
  | .nan => .nan
  | .inf _ => .inf false
  | .fin _ m e => .fin false m e

/-- The value is NaN. -/
def FV.isNan : FV → Bool
  | .nan => true
  | _ => false

/-- The value is finite. -/
def FV.isFin : FV → Bool
  | .fin _ _ _ => true
  | _ => false

/-- The value is a zero. -/
def FV.isZero : FV → Bool
  | .fin _ m _ => m == 0
  | _ => false

/-- Sign of the value. -/
def FV.isNeg : FV → Bool
  | .nan => false
  | .inf s => s
  | .fin s _ _ => s

/-- Exact product (04 R119). -/
def FV.mul (a b : FV) : FV :=
  match a, b with
  | .nan, _ => .nan
  | _, .nan => .nan
  | .inf s, .inf t => .inf (s != t)
  | .inf s, .fin t m _ => if m = 0 then .nan else .inf (s != t)
  | .fin s m _, .inf t => if m = 0 then .nan else .inf (s != t)
  | .fin s m e, .fin t n f => .fin (s != t) (m * n) (e + f)

/-- The signed integer of a finite value on the grid 2^q. -/
def sint (neg : Bool) (m : Nat) (e q : Int) : Int :=
  let n : Int := (m * 2 ^ (e - q).toNat : Nat)
  if neg then -n else n

/-- Exact sum; a sum of zero is −0 only when both are (04 R118, R119). -/
def FV.add (a b : FV) : FV :=
  match a, b with
  | .nan, _ => .nan
  | _, .nan => .nan
  | .inf s, .inf t => if s = t then .inf s else .nan
  | .inf s, .fin _ _ _ => .inf s
  | .fin _ _ _, .inf t => .inf t
  | .fin s m e, .fin t n f =>
    let q := min e f
    let x := sint s m e q + sint t n f q
    if x = 0 then .fin (s && t) 0 q else .fin (decide (x < 0)) x.natAbs q

/-- a × 2^k. -/
def FV.scale (a : FV) (k : Int) : FV :=
  match a with
  | .fin s m e => .fin s m (e + k)
  | v => v

/-- Exact comparison of finite or infinite values: a < b. False with a NaN. -/
def FV.lt (a b : FV) : Bool :=
  match a, b with
  | .nan, _ => false
  | _, .nan => false
  | .inf s, .inf t => s && !t
  | .inf s, _ => s
  | _, .inf t => !t
  | .fin s m e, .fin t n f => decide (sint s m e (min e f) < sint t n f (min e f))

/-- A quotient with a sticky bit below at least 70 quotient bits, so that one rounding of it is the rounding of the exact quotient. -/
def FV.div (a b : FV) : FV :=
  match a, b with
  | .nan, _ => .nan
  | _, .nan => .nan
  | .inf _, .inf _ => .nan
  | .inf s, .fin t _ _ => .inf (s != t)
  | .fin s _ _, .inf t => .fin (s != t) 0 0
  | .fin s m e, .fin t n f =>
    if n = 0 then (if m = 0 then .nan else .inf (s != t))
    else
      let k := n.log2 + 72 - m.log2
      let q := m * 2 ^ k / n
      let r := m * 2 ^ k % n
      .fin (s != t) (2 * q + (if r = 0 then 0 else 1)) (e - f - k - 1)

/-- The integer square root, by bits. -/
def isqrtFrom (x : Nat) : Nat → Nat → Nat
  | 0, r => r
  | k + 1, r => isqrtFrom x k (if (r + 2 ^ k) * (r + 2 ^ k) ≤ x then r + 2 ^ k else r)

/-- ⌊√x⌋. -/
def isqrt (x : Nat) : Nat := isqrtFrom x (x.log2 / 2 + 1) 0

/-- A square root with a sticky bit below at least 70 bits. -/
def FV.sqrt (a : FV) : FV :=
  match a with
  | .nan => .nan
  | .inf s => if s then .nan else .inf false
  | .fin s m e =>
    if m = 0 then .fin s 0 e
    else if s then .nan
    else
      let k0 := 150 - m.log2
      let k := if (e - k0) % 2 = 0 then k0 else k0 + 1
      let x := m * 2 ^ k
      let r := isqrt x
      .fin false (2 * r + (if r * r = x then 0 else 1)) ((e - k) / 2 - 1)

/-! Operations on codes of one format, rounded once to nearest even. -/

def fAdd (f : Fmt) (a b : Nat) : Nat := enc f ((f.decode a).add (f.decode b))
def fSub (f : Fmt) (a b : Nat) : Nat := enc f ((f.decode a).add (f.decode b).neg)
def fMul (f : Fmt) (a b : Nat) : Nat := enc f ((f.decode a).mul (f.decode b))
def fFma (f : Fmt) (a b c : Nat) : Nat := enc f (((f.decode a).mul (f.decode b)).add (f.decode c))
def fDiv (f : Fmt) (a b : Nat) : Nat := enc f ((f.decode a).div (f.decode b))
def fSqrt (f : Fmt) (a : Nat) : Nat := enc f (f.decode a).sqrt
def fNeg (f : Fmt) (a : Nat) : Nat := enc f (f.decode a).neg
def fAbs (f : Fmt) (a : Nat) : Nat := enc f (f.decode a).abs
def fLt (f : Fmt) (a b : Nat) : Bool := (f.decode a).lt (f.decode b)
def fLe (f : Fmt) (a b : Nat) : Bool := let x := f.decode a; let y := f.decode b; !x.isNan && !y.isNan && !y.lt x

/-- MAX (04 R119): NaN if either is; MAX(+0, −0) is +0. -/
def fMax (f : Fmt) (a b : Nat) : Nat :=
  let x := f.decode a; let y := f.decode b
  if x.isNan || y.isNan then f.nanCode
  else if x.lt y then enc f y else if y.lt x then enc f x else if x.isNeg then enc f y else enc f x

/-- MIN (04 R119): NaN if either is; MIN(+0, −0) is −0. -/
def fMin (f : Fmt) (a b : Nat) : Nat :=
  let x := f.decode a; let y := f.decode b
  if x.isNan || y.isNan then f.nanCode
  else if x.lt y then enc f x else if y.lt x then enc f y else if x.isNeg then enc f x else enc f y

/-- A finite code. -/
def fFinite (f : Fmt) (a : Nat) : Bool := (f.decode a).isFin

/-- An infinite code. -/
def fIsInf (f : Fmt) (a : Nat) : Bool := match f.decode a with | .inf _ => true | _ => false

/-- The code of an integer. -/
def fOfNat (f : Fmt) (n : Nat) : Nat := enc f (.fin false n 0)

/-- A positive, finite, normal FP32 code (04 R110, 05 R144). -/
def f32PosNormal (a : Nat) : Bool := decide (0x00800000 ≤ a) && decide (a ≤ 0x7F7FFFFF)

/-- ⌊log2 |v|⌋ of a nonzero finite value. -/
def FV.exponent (v : FV) : Int :=
  match v with
  | .fin _ m e => (m.log2 : Int) + e
  | _ => 0

/-! The vector functions (03 R93 Table 11, R94, 04 R120). Each is a fixed function of its input bits within an error bound: the model
computes the exact value to 300 binary places and lets a free constant choose among the FP32 values within the bound (log 9). -/

/-- Binary places of the fixed-point values below. -/
def fxP : Nat := 300

/-- ln 2 × 2^300. -/
def ln2Fx : Int := 1411965743695424507508857192728570223734551239724995589061361292466257174357546532574725854

/-- 2/√π × 2^300. -/
def twoOverSqrtPiFx : Int := 2298548958319901672615460685175353800383491471103661605170551642714553776506332151740828452

/-- Product of fixed-point values. -/
def fxMul (a b : Int) : Int := a * b / 2 ^ fxP

/-- Quotient of fixed-point values. -/
def fxDiv (a b : Int) : Int := a * 2 ^ fxP / b

/-- A finite value in fixed point. -/
def fxOf (v : FV) : Int :=
  match v with
  | .fin s m e =>
    let n : Int := if 0 ≤ e + fxP then (m * 2 ^ (e + fxP).toNat : Nat) else (m / 2 ^ (-(e + fxP)).toNat : Nat)
    if s then -n else n
  | _ => 0

/-- The value of a fixed-point number. -/
def ofFx (x : Int) : FV := .fin (decide (x < 0)) x.natAbs (-(fxP : Int))

/-- Σ terms of e^r: `t` is the current term, `k` its index. -/
def expSeries (r : Int) : Nat → Nat → Int → Int → Int
  | 0, _, _, sum => sum
  | n + 1, k, t, sum => let t' := fxMul t r / (k + 1); expSeries r n (k + 1) t' (sum + t')

/-- e^x in fixed point, for |x| below 256. -/
def fxExp (x : Int) : Int :=
  let n := (x + ln2Fx / 2) / ln2Fx
  let r := x - n * ln2Fx
  let y := expSeries r 72 0 (2 ^ fxP) (2 ^ fxP)
  if 0 ≤ n then y * 2 ^ n.toNat else y / 2 ^ (-n).toNat

/-- Σ z^(2k+1) / (2k+1). -/
def atanhSeries (z2 : Int) : Nat → Nat → Int → Int → Int
  | 0, _, _, sum => sum
  | n + 1, k, t, sum => let t' := fxMul t z2; atanhSeries z2 n (k + 1) t' (sum + t' / (2 * k + 3))

/-- ln of a positive finite value. -/
def fxLog (m : Nat) (e : Int) : Int :=
  let k := m.log2
  let f : Int := (m * 2 ^ fxP / 2 ^ k : Nat)
  let z := fxDiv (f - 2 ^ fxP) (f + 2 ^ fxP)
  ((k : Int) + e) * ln2Fx + 2 * atanhSeries (fxMul z z) 100 0 z z

/-- Σ (−1)^k x^(2k+1) / (k! (2k+1)). -/
def erfSeries (x2 : Int) : Nat → Nat → Int → Int → Int
  | 0, _, _, sum => sum
  | n + 1, k, t, sum => let t' := -(fxMul t x2 / (k + 1)); erfSeries x2 n (k + 1) t' (sum + t' / (2 * k + 3))

/-- erf x in fixed point. -/
def fxErf (x : Int) : Int :=
  if 6 * 2 ^ fxP ≤ x then 2 ^ fxP else if x ≤ -(6 * 2 ^ fxP) then -(2 ^ fxP)
  else fxMul twoOverSqrtPiFx (erfSeries (fxMul x x) 260 0 x x)

/-- The vector functions. -/
inductive VFn where
  | exp | log | recip | rsqrt | sqrt | tanh | sigmoid | erf
  deriving DecidableEq, Repr

/-- The number under which `Config.vecUlp` knows a function. -/
def VFn.code : VFn → Nat
  | .exp => 0x10 | .log => 0x11 | .recip => 0x12 | .rsqrt => 0x13 | .sqrt => 0x14 | .tanh => 0x15 | .sigmoid => 0x16 | .erf => 0x17

/-- The largest error in FP32 units in the last place (03 R93 Table 11). -/
def VFn.bound : VFn → Nat
  | .exp => 2 | .log => 2 | .recip => 1 | .rsqrt => 1 | .sqrt => 1 | .tanh => 3 | .sigmoid => 3 | .erf => 4

/-- The special results (04 R120 Table 7, R119); none where the function is approximated. -/
def VFn.special (f : VFn) (v : FV) : Option FV :=
  match v with
  | .nan => some .nan
  | .inf s => some <| match f with
    | .exp => if s then .fin false 0 0 else .inf false
    | .log => if s then .nan else .inf false
    | .recip => .fin s 0 0
    | .rsqrt => if s then .nan else .fin false 0 0
    | .sqrt => if s then .nan else .inf false
    | .tanh => .fin s 1 0
    | .sigmoid => if s then .fin false 0 0 else .fin false 1 0
    | .erf => .fin s 1 0
  | .fin s m _ => match f with
    | .log => if m = 0 then some (.inf true) else if s then some .nan else none
    | .recip => if m = 0 then some (.inf s) else none
    | .rsqrt => if m = 0 then some (.inf s) else if s then some .nan else none
    | .sqrt => if m = 0 then some (.fin s 0 0) else if s then some .nan else none
    | .tanh => if m = 0 then some (.fin s 0 0) else none
    | .erf => if m = 0 then some (.fin s 0 0) else none
    | _ => none

/-- The exact value of a function at a finite input, to 300 binary places (to 70 significant bits for the algebraic ones). -/
def VFn.exact (f : VFn) (v : FV) : FV :=
  let x := fxOf v
  let one : Int := 2 ^ fxP
  let lim : Int := 256 * one
  let cl := max (-lim) (min lim x)
  match f with
  | .exp => ofFx (fxExp cl)
  | .log => match v with
    | .fin _ m e => ofFx (fxLog m e)
    | _ => .nan
  | .recip => (FV.fin false 1 0).div v
  | .rsqrt => (FV.fin false 1 0).div v.sqrt
  | .sqrt => v.sqrt
  | .tanh => let t := fxExp (2 * max (-(64 * one)) (min (64 * one) x)); ofFx (fxDiv (t - one) (t + one))
  | .sigmoid => ofFx (fxDiv one (one + fxExp (-cl)))
  | .erf => ofFx (fxErf x)

/-- An FP32 code is within `b` units in the last place of a value: the units are those of the value's own binade. -/
def withinUlp (b : Nat) (code : Nat) (v : FV) : Bool :=
  match fp32.decode code with
  | .fin s m e =>
    let q := max (v.exponent - 23) fp32.qmin
    let d := ((FV.fin s m e).add v.neg).abs
    !(FV.fin false b q).lt d
  | .inf s => !(v.abs.lt (.fin false (2 ^ 24 - 1 - b) 104)) && s == v.isNeg
  | .nan => false

/-- A code `k` steps away along the magnitudes, keeping its sign. -/
def stepCode (c : Nat) (k : Int) : Nat :=
  let mag : Int := (c % 2 ^ 31 : Nat) + k
  (if mag < 0 then 0 else mag.toNat) + c / 2 ^ 31 * 2 ^ 31

/-- A vector function on FP32 codes: its special results, else the FP32 value that the free constant chooses, if it lies within the
bound of the exact value, and the rounded exact value otherwise (03 R94, log 9). -/
def VFn.eval (f : VFn) (a : Nat) : Nat :=
  let v := fp32.decode a
  match f.special v with
  | some r => enc fp32 r
  | none =>
    let x := f.exact v
    let c := enc fp32 x
    let c' := stepCode c (Config.vecUlp f.code a)
    if withinUlp f.bound c' x then c' else c

end Sys2Proof.Machine
end

