-- ==== Sys2Proof/Machine/Regs.lean ====
section
/-! DEFINITION. The control space: the block map (01 R36 Table 8), the fields of every register table of the spec with their
widths, access codes and reset values, and the named fields the meanings use. A register word is found by its offset in the
control space. -/

namespace Sys2Proof.Machine

/-- The access codes of 00 "Conventions used throughout". -/
inductive Access where
  | ro | rw | wo | w1c | w1s | rc
  deriving DecidableEq, Repr

/-- Where a field's reset value comes from: the table itself, the fuses (log 3), or a rule computed in `specialReset`. -/
inductive RegReset where
  | lit (n : Nat)
  | fused
  | special
  deriving DecidableEq, Repr

/-- One field of a register table: `count` copies `stride` bytes apart from `off` in the block, bits `lo` to `lo + w − 1`. -/
structure RegRow where
  off : Nat
  stride : Nat
  count : Nat
  lo : Nat
  w : Nat
  acc : Access
  reset : RegReset
  deriving DecidableEq, Repr

/-- A named field at an absolute control-space offset; a 64-bit field takes two words, low word first (01 R35). -/
structure Fld where
  off : Nat
  lo : Nat
  w : Nat
  deriving DecidableEq, Repr

/-- The unit blocks of 01 R36 Table 8. -/
inductive BlockKind where
  | ident | sec | pwr | clk | rgs | cst | ldg | csv | htx | mbox | db | im | cur | curStrm | col | grp | colStrm | vat | chn | port | dmaStrm | vlt | hbm | btr | prs | prsStrm | slice | core | arr | drn | rsv
  deriving DecidableEq, Repr

/-- D of Table 8 for compute die `d`. -/
def dieBase (d : Nat) : Nat := 0x100000 + d * 0x100000

/-- C of Table 8 for logical core `n`. -/
def coreBase (n : Nat) : Nat := 0x1000000 + n * 0x4000

/-- The HBM controller block of stack `k`. -/
def hbmBase (k : Nat) : Nat := dieBase (k / 4) + 0x1000 + k % 4 * 0x1000

/-- The Beater block of stack `k`. -/
def btrBase (k : Nat) : Nat := dieBase (k / 4) + 0x8000 + k % 4 * 0x1000

/-- The register set of stream `sid` (02 R39 Table 1, R40). -/
def strmBase (sid : Nat) : Nat :=
  if sid < 1024 then coreBase (sid / 4) + 0x100 + sid % 4 * 0x40
  else if sid < 1040 then 0x21000 + (sid - 1024) * 0x1000
  else if sid < 1056 then 0x42000 + (sid - 1040) * 0x1000
  else if sid < 1064 then btrBase (sid - 1056)
  else if sid < 1072 then dieBase ((sid - 1064) / 4) + 0x11000 + (sid - 1064) % 4 * 0x1000
  else 0xC0000 + (sid - 1072) * 0x1000

/-- 01 R36 Table 8: first offset, block size, number of blocks, unit. -/
def blockMap : List (Nat × Nat × Nat × BlockKind) :=
  [(0x0, 0x1000, 1, .ident), (0x1000, 0x1000, 1, .sec), (0x2000, 0x1000, 1, .pwr), (0x3000, 0x1000, 1, .clk),
   (0x4000, 0x1000, 1, .rgs), (0x5000, 0x1000, 1, .cst), (0x6000, 0x1000, 1, .ldg), (0x7000, 0x1000, 1, .csv),
   (0x10000, 0x1000, 1, .htx), (0x11000, 0x1000, 8, .mbox), (0x19000, 0x1000, 1, .db), (0x1A000, 0x1000, 1, .im),
   (0x20000, 0x1000, 1, .cur), (0x21000, 0x1000, 16, .curStrm), (0x40000, 0x1000, 1, .col), (0x41000, 0x1000, 1, .grp),
   (0x42000, 0x1000, 16, .colStrm), (0x60000, 0x4000, 1, .vat), (0x70000, 0x4000, 1, .chn), (0x80000, 0x1000, 36, .port),
   (0xC0000, 0x1000, 16, .dmaStrm),
   (0x100000, 0x1000, 1, .vlt), (0x101000, 0x1000, 4, .hbm), (0x108000, 0x1000, 4, .btr), (0x110000, 0x1000, 1, .prs),
   (0x111000, 0x1000, 4, .prsStrm), (0x180000, 0x1000, 64, .slice),
   (0x200000, 0x1000, 1, .vlt), (0x201000, 0x1000, 4, .hbm), (0x208000, 0x1000, 4, .btr), (0x210000, 0x1000, 1, .prs),
   (0x211000, 0x1000, 4, .prsStrm), (0x280000, 0x1000, 64, .slice)]

/-- The unit of block `k` of a core: CORE_, ARR_, DRN_ and the reserved block. -/
def coreBlockKind (k : Nat) : BlockKind :=
  if k = 0 then .core else if k = 1 then .arr else if k = 2 then .drn else .rsv

/-- The block an offset of the control space lies in, with the block's base; `none` outside every listed block (01 R36). -/
def blockOf (off : Nat) : Option (BlockKind × Nat) :=
  if off < 0x1000000 then
    blockMap.findSome? (fun b =>
      if b.1 ≤ off && (off - b.1) / b.2.1 < b.2.2.1 then some (b.2.2.2, b.1 + (off - b.1) / b.2.1 * b.2.1) else none)
  else if off < 0x1400000 then
    some (coreBlockKind (off / 0x1000 % 4), off / 0x1000 * 0x1000)
  else none

/-- Register rows. -/
def Rows.ident : List RegRow := [
  ⟨0x0, 1, 1, 0, 32, .ro, .special⟩,
  ⟨0x4, 1, 1, 0, 32, .ro, .special⟩,
  ⟨0x8, 1, 1, 0, 8, .ro, .special⟩,
  ⟨0x8, 1, 1, 8, 8, .ro, .special⟩,
  ⟨0x8, 1, 1, 16, 2, .ro, .special⟩,
  ⟨0xc, 1, 1, 0, 16, .ro, .fused⟩,
  ⟨0x10, 4, 4, 0, 32, .ro, .fused⟩,
  ⟨0x20, 1, 1, 0, 12, .ro, .special⟩,
  ⟨0x24, 1, 1, 0, 4, .ro, .fused⟩,
  ⟨0x40, 4, 12, 0, 32, .ro, .fused⟩,
  ⟨0x80, 4, 12, 0, 32, .ro, .fused⟩,
  ⟨0xb0, 4, 12, 0, 32, .ro, .fused⟩,
  ⟨0xe0, 4, 12, 0, 32, .ro, .fused⟩,
  ⟨0x110, 4, 12, 0, 32, .ro, .fused⟩,
  ⟨0x140, 4, 12, 0, 32, .ro, .fused⟩,
  ⟨0x170, 4, 12, 0, 32, .ro, .fused⟩,
  ⟨0x800, 4, 512, 0, 32, .ro, .fused⟩]

/-- Register rows. -/
def Rows.sec : List RegRow := [
  ⟨0x0, 1, 1, 0, 1, .ro, .lit 0x0⟩,
  ⟨0x0, 1, 1, 8, 1, .ro, .lit 0x0⟩,
  ⟨0x4, 1, 1, 0, 1, .ro, .lit 0x1⟩,
  ⟨0x8, 1, 1, 0, 1, .ro, .lit 0x0⟩,
  ⟨0x8, 1, 1, 1, 1, .ro, .lit 0x0⟩,
  ⟨0x8, 1, 1, 2, 1, .ro, .lit 0x0⟩,
  ⟨0x8, 1, 1, 3, 1, .ro, .lit 0x0⟩,
  ⟨0xc, 1, 1, 0, 1, .rw, .lit 0x0⟩,
  ⟨0xc, 1, 1, 1, 1, .rw, .lit 0x0⟩,
  ⟨0x10, 1, 1, 0, 12, .rw, .lit 0x800⟩,
  ⟨0x40, 4, 8, 0, 32, .wo, .lit 0x0⟩,
  ⟨0x80, 1, 1, 0, 32, .rc, .lit 0x0⟩,
  ⟨0x84, 1, 1, 0, 32, .rc, .lit 0x0⟩,
  ⟨0x88, 1, 1, 0, 32, .rc, .lit 0x0⟩,
  ⟨0x8c, 1, 1, 0, 3, .ro, .lit 0x0⟩,
  ⟨0x90, 1, 1, 0, 32, .rc, .lit 0x0⟩,
  ⟨0x200, 4, 12, 0, 32, .ro, .lit 0x0⟩,
  ⟨0x240, 4, 12, 0, 32, .ro, .lit 0x0⟩,
  ⟨0x280, 4, 12, 0, 32, .ro, .lit 0x0⟩,
  ⟨0x2c0, 4, 12, 0, 32, .ro, .lit 0x0⟩,
  ⟨0x300, 4, 12, 0, 32, .ro, .lit 0x0⟩,
  ⟨0x340, 4, 12, 0, 32, .ro, .lit 0x0⟩,
  ⟨0x380, 4, 12, 0, 32, .ro, .lit 0x0⟩]

/-- Register rows. -/
def Rows.pwr : List RegRow := [
  ⟨0x0, 1, 1, 0, 2, .ro, .special⟩,
  ⟨0x4, 1, 1, 0, 16, .ro, .special⟩,
  ⟨0x8, 1, 1, 0, 16, .rw, .special⟩,
  ⟨0xc, 1, 1, 0, 7, .rw, .lit 0xa⟩,
  ⟨0x10, 1, 1, 0, 16, .ro, .lit 0x0⟩,
  ⟨0x14, 1, 1, 0, 16, .rc, .lit 0x0⟩,
  ⟨0x18, 1, 1, 0, 11, .rw, .special⟩,
  ⟨0x1c, 1, 1, 0, 11, .rw, .special⟩,
  ⟨0x20, 1, 1, 0, 8, .rw, .lit 0x20⟩,
  ⟨0x24, 1, 1, 0, 6, .ro, .lit 0x0⟩,
  ⟨0x28, 1, 1, 0, 7, .ro, .lit 0x40⟩,
  ⟨0x2c, 1, 1, 0, 32, .rc, .lit 0x0⟩,
  ⟨0x30, 1, 1, 0, 32, .rc, .lit 0x0⟩,
  ⟨0x34, 1, 1, 0, 4, .ro, .lit 0x1⟩,
  ⟨0x34, 1, 1, 16, 16, .ro, .lit 0x0⟩,
  ⟨0x38, 1, 1, 0, 4, .ro, .lit 0x0⟩,
  ⟨0x38, 1, 1, 4, 8, .ro, .lit 0x0⟩,
  ⟨0x3c, 1, 1, 0, 4, .ro, .lit 0x0⟩,
  ⟨0x40, 1, 1, 0, 32, .ro, .lit 0x1⟩,
  ⟨0x44, 1, 1, 0, 1, .ro, .lit 0x0⟩,
  ⟨0x48, 1, 1, 0, 32, .rc, .lit 0x0⟩]

/-- Register rows. -/
def Rows.clk : List RegRow := [
  ⟨0x0, 1, 1, 0, 30, .ro, .lit 0x0⟩,
  ⟨0x4, 1, 1, 0, 11, .ro, .lit 0x578⟩,
  ⟨0x4, 1, 1, 16, 11, .ro, .lit 0x578⟩,
  ⟨0x8, 1, 1, 0, 11, .ro, .lit 0x640⟩,
  ⟨0x8, 1, 1, 16, 11, .ro, .lit 0x640⟩,
  ⟨0x10, 4, 8, 0, 11, .ro, .lit 0x4e2⟩,
  ⟨0x10, 4, 8, 16, 11, .ro, .lit 0x3e8⟩,
  ⟨0x30, 1, 1, 0, 32, .rc, .lit 0x0⟩,
  ⟨0x100, 8, 30, 0, 32, .ro, .lit 0x0⟩,
  ⟨0x104, 8, 30, 0, 32, .ro, .lit 0x0⟩]

/-- Register rows. -/
def Rows.rgs : List RegRow := [
  ⟨0x0, 1, 1, 0, 2, .ro, .lit 0x0⟩,
  ⟨0x4, 1, 1, 0, 32, .ro, .lit 0x0⟩,
  ⟨0x8, 1, 1, 0, 16, .ro, .lit 0x0⟩,
  ⟨0xc, 1, 1, 0, 16, .ro, .fused⟩,
  ⟨0x10, 1, 1, 0, 4, .ro, .special⟩,
  ⟨0x10, 1, 1, 8, 1, .ro, .special⟩,
  ⟨0x14, 1, 1, 0, 32, .ro, .lit 0x0⟩,
  ⟨0x18, 1, 1, 0, 3, .ro, .lit 0x0⟩,
  ⟨0x18, 1, 1, 16, 16, .ro, .lit 0x0⟩,
  ⟨0x1c, 1, 1, 0, 10, .rw, .lit 0x0⟩,
  ⟨0x1c, 1, 1, 16, 1, .rw, .lit 0x0⟩,
  ⟨0x20, 1, 1, 0, 5, .w1c, .lit 0x0⟩,
  ⟨0x40, 4, 12, 0, 32, .ro, .lit 0x0⟩,
  ⟨0x800, 128, 8, 0, 32, .rw, .lit 0x0⟩,
  ⟨0x804, 128, 8, 0, 32, .rw, .lit 0x0⟩,
  ⟨0x808, 128, 8, 0, 32, .rw, .lit 0x0⟩,
  ⟨0x80c, 128, 8, 0, 32, .rw, .lit 0x0⟩,
  ⟨0x810, 128, 8, 0, 32, .rw, .lit 0x0⟩,
  ⟨0x814, 128, 8, 0, 32, .rw, .lit 0x0⟩,
  ⟨0x818, 128, 8, 0, 32, .rw, .lit 0x0⟩,
  ⟨0x81c, 128, 8, 0, 32, .rw, .lit 0x0⟩,
  ⟨0x820, 128, 8, 0, 13, .rw, .lit 0x0⟩,
  ⟨0x824, 128, 8, 0, 32, .ro, .lit 0x0⟩,
  ⟨0x828, 128, 8, 0, 9, .ro, .lit 0x0⟩,
  ⟨0x82c, 128, 8, 0, 1, .rw, .lit 0x0⟩,
  ⟨0x82c, 128, 8, 1, 1, .wo, .lit 0x0⟩,
  ⟨0x830, 128, 8, 0, 16, .rc, .lit 0x0⟩]

/-- Register rows. -/
def Rows.cst : List RegRow := [
  ⟨0x0, 1, 1, 0, 1, .ro, .lit 0x0⟩,
  ⟨0x8, 1, 1, 0, 32, .ro, .lit 0x0⟩,
  ⟨0xc, 1, 1, 0, 32, .ro, .lit 0x0⟩,
  ⟨0x10, 1, 1, 0, 32, .rc, .lit 0x0⟩,
  ⟨0x14, 1, 1, 0, 4, .w1c, .lit 0x0⟩,
  ⟨0x18, 1, 1, 0, 32, .rc, .lit 0x0⟩,
  ⟨0x1c, 1, 1, 0, 32, .ro, .fused⟩,
  ⟨0x20, 1, 1, 0, 10, .rw, .lit 0x64⟩]

/-- Register rows. -/
def Rows.ldg : List RegRow := [
  ⟨0x0, 1, 1, 0, 32, .ro, .lit 0x0⟩,
  ⟨0x4, 1, 1, 0, 32, .ro, .lit 0x0⟩,
  ⟨0x8, 1, 1, 0, 32, .ro, .lit 0x0⟩,
  ⟨0xc, 1, 1, 0, 32, .ro, .lit 0x0⟩,
  ⟨0x10, 1, 1, 0, 32, .rc, .lit 0x0⟩,
  ⟨0x14, 1, 1, 0, 32, .rw, .lit 0x4000⟩,
  ⟨0x18, 1, 1, 0, 32, .rc, .lit 0x0⟩,
  ⟨0x1c, 1, 1, 0, 32, .rc, .lit 0x0⟩,
  ⟨0x20, 1, 1, 0, 16, .rc, .lit 0x0⟩]

/-- Register rows. -/
def Rows.csv : List RegRow := [
  ⟨0x0, 1, 1, 0, 4, .ro, .special⟩,
  ⟨0x0, 1, 1, 4, 4, .ro, .special⟩,
  ⟨0x4, 1, 1, 0, 8, .wo, .lit 0x0⟩,
  ⟨0x4, 1, 1, 8, 1, .wo, .lit 0x0⟩,
  ⟨0x8, 1, 1, 0, 16, .ro, .lit 0x0⟩,
  ⟨0xc, 1, 1, 0, 32, .ro, .lit 0x0⟩,
  ⟨0x10, 1, 1, 0, 16, .rw, .lit 0x40⟩,
  ⟨0x14, 1, 1, 0, 8, .rw, .lit 0x2⟩,
  ⟨0x18, 1, 1, 0, 32, .rc, .lit 0x0⟩,
  ⟨0x1c, 1, 1, 0, 32, .rc, .lit 0x0⟩,
  ⟨0x40, 4, 8, 0, 32, .ro, .lit 0x0⟩,
  ⟨0x60, 4, 8, 0, 32, .ro, .lit 0x0⟩,
  ⟨0x80, 1, 1, 0, 8, .rw, .lit 0x0⟩,
  ⟨0x84, 1, 1, 0, 16, .rw, .lit 0x0⟩,
  ⟨0x84, 1, 1, 16, 4, .rw, .lit 0x0⟩,
  ⟨0x88, 1, 1, 0, 1, .rw, .lit 0x0⟩,
  ⟨0x8c, 1, 1, 0, 8, .rw, .lit 0x1⟩,
  ⟨0x90, 1, 1, 0, 1, .wo, .lit 0x0⟩,
  ⟨0x94, 1, 1, 0, 1, .ro, .lit 0x0⟩,
  ⟨0x98, 1, 1, 0, 32, .rc, .lit 0x0⟩]

/-- Register rows. -/
def Rows.htx : List RegRow := [
  ⟨0x0, 1, 1, 0, 1, .ro, .lit 0x0⟩,
  ⟨0x0, 1, 1, 8, 7, .ro, .lit 0x0⟩,
  ⟨0x4, 1, 1, 0, 1, .wo, .lit 0x0⟩,
  ⟨0x8, 1, 1, 0, 32, .rc, .lit 0x0⟩,
  ⟨0xc, 1, 1, 0, 28, .ro, .lit 0x0⟩,
  ⟨0x10, 1, 1, 0, 4, .ro, .lit 0xf⟩,
  ⟨0x18, 1, 1, 0, 32, .ro, .lit 0x0⟩,
  ⟨0x1c, 1, 1, 0, 32, .ro, .lit 0x0⟩,
  ⟨0x20, 1, 1, 0, 32, .ro, .lit 0x0⟩,
  ⟨0x24, 1, 1, 0, 32, .ro, .lit 0x0⟩,
  ⟨0x400, 32, 64, 12, 20, .rw, .lit 0x0⟩,
  ⟨0x404, 32, 64, 0, 16, .rw, .lit 0x0⟩,
  ⟨0x408, 32, 64, 12, 20, .rw, .lit 0x0⟩,
  ⟨0x40c, 32, 64, 0, 16, .rw, .lit 0x0⟩,
  ⟨0x410, 32, 64, 0, 4, .rw, .lit 0x4⟩,
  ⟨0x410, 32, 64, 8, 1, .rw, .lit 0x0⟩,
  ⟨0x410, 32, 64, 9, 1, .wo, .lit 0x0⟩,
  ⟨0x410, 32, 64, 10, 1, .wo, .lit 0x0⟩,
  ⟨0x414, 32, 64, 0, 12, .ro, .lit 0x0⟩,
  ⟨0x414, 32, 64, 16, 12, .ro, .lit 0x0⟩,
  ⟨0x418, 32, 64, 0, 10, .rw, .lit 0x0⟩,
  ⟨0x41c, 32, 64, 0, 2, .ro, .lit 0x0⟩,
  ⟨0x41c, 32, 64, 16, 16, .ro, .lit 0x0⟩]

/-- Register rows. -/
def Rows.mbox : List RegRow := [
  ⟨0x0, 1, 1, 0, 16, .rw, .lit 0x0⟩,
  ⟨0x0, 1, 1, 16, 16, .rw, .lit 0x0⟩,
  ⟨0x4, 1, 1, 0, 12, .rw, .lit 0x0⟩,
  ⟨0x8, 1, 1, 0, 1, .wo, .lit 0x0⟩,
  ⟨0xc, 1, 1, 0, 2, .ro, .lit 0x0⟩,
  ⟨0xc, 1, 1, 8, 1, .ro, .lit 0x0⟩,
  ⟨0x10, 1, 1, 0, 16, .ro, .lit 0x0⟩,
  ⟨0x14, 1, 1, 0, 12, .ro, .lit 0x0⟩,
  ⟨0x18, 1, 1, 0, 32, .ro, .lit 0x0⟩,
  ⟨0x1c, 1, 1, 0, 16, .ro, .lit 0x0⟩,
  ⟨0x20, 1, 1, 0, 10, .rw, .lit 0x0⟩,
  ⟨0x20, 1, 1, 16, 1, .rw, .lit 0x0⟩,
  ⟨0x24, 1, 1, 0, 16, .rc, .lit 0x0⟩,
  ⟨0x28, 1, 1, 0, 32, .ro, .lit 0x0⟩,
  ⟨0x40, 4, 1008, 0, 32, .rw, .lit 0x0⟩]

/-- Register rows. -/
def Rows.db : List RegRow := [
  ⟨0x0, 8, 64, 0, 12, .rw, .lit 0x0⟩,
  ⟨0x4, 8, 64, 0, 12, .rw, .lit 0x0⟩]

/-- Register rows. -/
def Rows.im : List RegRow := [
  ⟨0x0, 4, 1024, 0, 1, .rw, .lit 0x0⟩,
  ⟨0x0, 4, 1024, 1, 5, .rw, .lit 0x0⟩,
  ⟨0x0, 4, 1024, 6, 11, .rw, .lit 0x1⟩,
  ⟨0x0, 4, 1024, 17, 1, .rw, .lit 0x0⟩,
  ⟨0x0, 4, 1024, 31, 1, .ro, .lit 0x0⟩]

/-- Register rows. -/
def Rows.cur : List RegRow := [
  ⟨0x0, 1, 1, 0, 32, .rw, .lit 0x4000⟩,
  ⟨0x4, 1, 1, 0, 32, .rc, .lit 0x0⟩,
  ⟨0x8, 1, 1, 0, 32, .ro, .lit 0x0⟩,
  ⟨0xc, 1, 1, 0, 32, .ro, .lit 0x0⟩,
  ⟨0x10, 1, 1, 0, 32, .ro, .lit 0x0⟩,
  ⟨0x14, 1, 1, 0, 32, .ro, .lit 0x0⟩,
  ⟨0x18, 1, 1, 0, 32, .ro, .lit 0x0⟩,
  ⟨0x1c, 1, 1, 0, 32, .ro, .lit 0x0⟩,
  ⟨0x20, 1, 1, 0, 32, .ro, .lit 0x0⟩,
  ⟨0x24, 1, 1, 0, 32, .ro, .lit 0x0⟩,
  ⟨0x28, 1, 1, 0, 32, .rc, .lit 0x0⟩,
  ⟨0x2c, 1, 1, 0, 32, .rc, .lit 0x0⟩,
  ⟨0x30, 1, 1, 0, 32, .rc, .lit 0x0⟩,
  ⟨0x34, 1, 1, 0, 1, .wo, .lit 0x0⟩,
  ⟨0x38, 1, 1, 0, 5, .ro, .lit 0x0⟩]

/-- Register rows. -/
def Rows.curStrm : List RegRow := [
  ⟨0x0, 1, 1, 12, 20, .rw, .lit 0x0⟩,
  ⟨0x4, 1, 1, 0, 12, .rw, .lit 0x0⟩,
  ⟨0x8, 1, 1, 0, 5, .rw, .lit 0x4⟩,
  ⟨0xc, 1, 1, 0, 16, .rw, .lit 0x0⟩,
  ⟨0x10, 1, 1, 0, 16, .ro, .lit 0x0⟩,
  ⟨0x14, 1, 1, 0, 1, .rw, .lit 0x0⟩,
  ⟨0x14, 1, 1, 1, 1, .wo, .lit 0x0⟩,
  ⟨0x14, 1, 1, 2, 1, .wo, .lit 0x0⟩,
  ⟨0x14, 1, 1, 3, 1, .wo, .lit 0x0⟩,
  ⟨0x18, 1, 1, 0, 3, .ro, .lit 0x0⟩,
  ⟨0x18, 1, 1, 16, 16, .ro, .lit 0x0⟩,
  ⟨0x1c, 1, 1, 0, 32, .ro, .lit 0x0⟩,
  ⟨0x20, 1, 1, 0, 16, .ro, .lit 0x0⟩,
  ⟨0x24, 1, 1, 0, 32, .ro, .lit 0x1⟩,
  ⟨0x28, 1, 1, 0, 16, .ro, .lit 0x0⟩,
  ⟨0x2c, 1, 1, 0, 10, .rw, .lit 0x0⟩,
  ⟨0x30, 1, 1, 0, 32, .rc, .lit 0x0⟩,
  ⟨0x34, 1, 1, 0, 32, .rc, .lit 0x0⟩,
  ⟨0x40, 1, 1, 0, 32, .ro, .lit 0x0⟩,
  ⟨0x44, 1, 1, 0, 12, .ro, .lit 0x0⟩,
  ⟨0x48, 1, 1, 0, 3, .ro, .lit 0x0⟩,
  ⟨0x48, 1, 1, 8, 6, .ro, .lit 0x0⟩,
  ⟨0x4c, 1, 1, 0, 32, .ro, .lit 0x0⟩]

/-- Register rows. -/
def Rows.col : List RegRow := [
  ⟨0x0, 1, 1, 0, 1, .rw, .lit 0x0⟩,
  ⟨0x4, 1, 1, 0, 5, .ro, .lit 0x1⟩,
  ⟨0x8, 1, 1, 0, 32, .rw, .lit 0x10000⟩,
  ⟨0xc, 1, 1, 0, 2, .rw, .lit 0x3⟩,
  ⟨0x10, 1, 1, 0, 32, .rc, .lit 0x0⟩,
  ⟨0x14, 1, 1, 0, 32, .rc, .lit 0x0⟩,
  ⟨0x18, 1, 1, 0, 32, .rc, .lit 0x0⟩,
  ⟨0x1c, 1, 1, 0, 32, .rc, .lit 0x0⟩,
  ⟨0x20, 1, 1, 0, 2, .ro, .lit 0x0⟩,
  ⟨0x24, 1, 1, 0, 32, .ro, .lit 0x0⟩,
  ⟨0x28, 1, 1, 0, 6, .ro, .lit 0x0⟩,
  ⟨0x2c, 1, 1, 0, 9, .ro, .lit 0x0⟩]

/-- Register rows. -/
def Rows.grp : List RegRow := [
  ⟨0x0, 64, 64, 0, 1, .rw, .lit 0x0⟩,
  ⟨0x0, 64, 64, 1, 3, .ro, .lit 0x0⟩,
  ⟨0x0, 64, 64, 16, 16, .ro, .lit 0x0⟩,
  ⟨0x4, 64, 64, 0, 13, .ro, .lit 0x0⟩,
  ⟨0x4, 64, 64, 16, 13, .ro, .lit 0x0⟩,
  ⟨0x8, 64, 64, 0, 4, .rw, .lit 0x0⟩,
  ⟨0x8, 64, 64, 4, 4, .rw, .lit 0x0⟩,
  ⟨0x8, 64, 64, 8, 4, .rw, .lit 0x0⟩,
  ⟨0x8, 64, 64, 12, 5, .rw, .lit 0x1⟩,
  ⟨0x8, 64, 64, 17, 5, .rw, .lit 0x1⟩,
  ⟨0x8, 64, 64, 22, 5, .rw, .lit 0x1⟩,
  ⟨0x8, 64, 64, 27, 3, .rw, .lit 0x0⟩,
  ⟨0xc, 64, 64, 0, 4, .rw, .lit 0x1⟩,
  ⟨0xc, 64, 64, 4, 4, .rw, .lit 0x1⟩,
  ⟨0xc, 64, 64, 8, 4, .rw, .lit 0x1⟩,
  ⟨0xc, 64, 64, 12, 3, .rw, .lit 0x0⟩,
  ⟨0x10, 64, 64, 0, 12, .rw, .lit 0x0⟩,
  ⟨0x10, 64, 64, 16, 12, .rw, .lit 0x0⟩,
  ⟨0x14, 64, 64, 0, 12, .rw, .lit 0x0⟩,
  ⟨0x14, 64, 64, 16, 12, .rw, .lit 0x0⟩,
  ⟨0x18, 64, 64, 0, 16, .rw, .lit 0x400⟩,
  ⟨0x1c, 64, 64, 0, 32, .rw, .lit 0x4000⟩,
  ⟨0x20, 64, 64, 0, 32, .rw, .lit 0x0⟩,
  ⟨0x24, 64, 64, 0, 3, .ro, .lit 0x0⟩,
  ⟨0x28, 64, 64, 0, 32, .ro, .lit 0x0⟩,
  ⟨0x2c, 64, 64, 0, 32, .rc, .lit 0x0⟩,
  ⟨0x30, 64, 64, 0, 32, .rc, .lit 0x0⟩]

/-- Register rows. -/
def Rows.colStrm : List RegRow := [
  ⟨0x0, 1, 1, 12, 20, .rw, .lit 0x0⟩,
  ⟨0x4, 1, 1, 0, 12, .rw, .lit 0x0⟩,
  ⟨0x8, 1, 1, 0, 5, .rw, .lit 0x4⟩,
  ⟨0xc, 1, 1, 0, 16, .rw, .lit 0x0⟩,
  ⟨0x10, 1, 1, 0, 16, .ro, .lit 0x0⟩,
  ⟨0x14, 1, 1, 0, 1, .rw, .lit 0x0⟩,
  ⟨0x14, 1, 1, 1, 1, .wo, .lit 0x0⟩,
  ⟨0x14, 1, 1, 2, 1, .wo, .lit 0x0⟩,
  ⟨0x14, 1, 1, 3, 1, .wo, .lit 0x0⟩,
  ⟨0x18, 1, 1, 0, 3, .ro, .lit 0x0⟩,
  ⟨0x18, 1, 1, 16, 16, .ro, .lit 0x0⟩,
  ⟨0x1c, 1, 1, 0, 32, .ro, .lit 0x0⟩,
  ⟨0x20, 1, 1, 0, 16, .ro, .lit 0x0⟩,
  ⟨0x24, 1, 1, 0, 32, .ro, .lit 0x1⟩,
  ⟨0x28, 1, 1, 0, 16, .ro, .lit 0x0⟩,
  ⟨0x2c, 1, 1, 0, 10, .rw, .lit 0x0⟩,
  ⟨0x30, 1, 1, 0, 32, .rc, .lit 0x0⟩,
  ⟨0x34, 1, 1, 0, 32, .rc, .lit 0x0⟩,
  ⟨0x40, 1, 1, 0, 6, .ro, .lit 0x0⟩,
  ⟨0x44, 1, 1, 0, 32, .ro, .lit 0x0⟩,
  ⟨0x48, 1, 1, 0, 2, .ro, .lit 0x0⟩]

/-- Register rows. -/
def Rows.vat : List RegRow := [
  ⟨0x0, 32, 5, 0, 18, .rw, .special⟩,
  ⟨0x4, 32, 5, 0, 18, .ro, .lit 0x0⟩,
  ⟨0x8, 32, 5, 0, 18, .rc, .lit 0x0⟩,
  ⟨0xc, 32, 5, 0, 2, .ro, .lit 0x0⟩,
  ⟨0x10, 32, 5, 0, 32, .rc, .lit 0x0⟩,
  ⟨0x14, 32, 5, 0, 32, .rc, .lit 0x0⟩,
  ⟨0x18, 32, 5, 0, 32, .rc, .lit 0x0⟩,
  ⟨0x100, 1, 1, 0, 10, .rw, .lit 0x0⟩,
  ⟨0x104, 1, 1, 0, 18, .ro, .lit 0x20000⟩]

/-- Register rows. -/
def Rows.chn : List RegRow := [
  ⟨0x0, 1, 1, 0, 4, .rw, .lit 0x0⟩,
  ⟨0x0, 1, 1, 4, 4, .rw, .lit 0x0⟩,
  ⟨0x0, 1, 1, 8, 4, .rw, .lit 0x0⟩,
  ⟨0x4, 1, 1, 0, 2, .rw, .lit 0x0⟩,
  ⟨0x4, 1, 1, 2, 2, .rw, .lit 0x0⟩,
  ⟨0x4, 1, 1, 4, 2, .rw, .lit 0x0⟩,
  ⟨0x8, 1, 1, 0, 1, .rw, .lit 0x0⟩,
  ⟨0xc, 1, 1, 0, 6, .rw, .lit 0x0⟩,
  ⟨0xc, 1, 1, 8, 6, .rw, .lit 0x0⟩,
  ⟨0xc, 1, 1, 16, 6, .ro, .lit 0x0⟩,
  ⟨0x10, 1, 1, 0, 16, .rw, .lit 0xc350⟩,
  ⟨0x14, 1, 1, 0, 16, .rw, .lit 0x3000⟩,
  ⟨0x18, 1, 1, 0, 32, .rw, .lit 0x10000⟩,
  ⟨0x1c, 1, 1, 0, 32, .rw, .lit 0x100000⟩,
  ⟨0x20, 1, 1, 0, 32, .rw, .lit 0x400000⟩,
  ⟨0x24, 1, 1, 0, 32, .ro, .lit 0x0⟩,
  ⟨0x28, 1, 1, 0, 32, .ro, .lit 0x1⟩,
  ⟨0x2c, 1, 1, 0, 16, .ro, .lit 0x0⟩,
  ⟨0x30, 1, 1, 0, 14, .ro, .lit 0x0⟩,
  ⟨0x34, 1, 1, 0, 32, .rc, .lit 0x0⟩,
  ⟨0x38, 1, 1, 0, 32, .rc, .lit 0x0⟩,
  ⟨0x3c, 1, 1, 0, 32, .rc, .lit 0x0⟩,
  ⟨0x40, 1, 1, 0, 32, .rc, .lit 0x0⟩,
  ⟨0x44, 1, 1, 0, 32, .rc, .lit 0x0⟩,
  ⟨0x48, 1, 1, 0, 32, .rc, .lit 0x0⟩,
  ⟨0x4c, 1, 1, 0, 16, .ro, .lit 0x0⟩,
  ⟨0x50, 1, 1, 0, 32, .rc, .lit 0x0⟩,
  ⟨0x54, 1, 1, 0, 32, .rc, .lit 0x0⟩,
  ⟨0x58, 1, 1, 0, 32, .ro, .lit 0x0⟩,
  ⟨0x5c, 1, 1, 0, 32, .ro, .lit 0x0⟩,
  ⟨0x60, 1, 1, 0, 6, .wo, .lit 0x0⟩,
  ⟨0x60, 1, 1, 8, 1, .wo, .lit 0x0⟩,
  ⟨0x64, 1, 1, 0, 1, .ro, .lit 0x0⟩,
  ⟨0x64, 1, 1, 16, 16, .ro, .lit 0x0⟩,
  ⟨0x68, 1, 1, 0, 32, .rc, .lit 0x0⟩,
  ⟨0x100, 1, 1, 0, 32, .rw, .lit 0x0⟩,
  ⟨0x104, 1, 1, 0, 18, .rw, .lit 0x0⟩,
  ⟨0x104, 1, 1, 18, 4, .rw, .lit 0x0⟩,
  ⟨0x104, 1, 1, 22, 1, .rw, .lit 0x0⟩,
  ⟨0x108, 1, 1, 0, 32, .rw, .lit 0x0⟩,
  ⟨0x10c, 1, 1, 0, 32, .rw, .lit 0x0⟩,
  ⟨0x110, 1, 1, 0, 32, .rw, .lit 0x0⟩,
  ⟨0x114, 1, 1, 0, 32, .rw, .lit 0x0⟩,
  ⟨0x118, 1, 1, 0, 32, .rw, .lit 0x0⟩,
  ⟨0x11c, 1, 1, 0, 16, .rw, .lit 0x0⟩,
  ⟨0x120, 1, 1, 0, 1, .wo, .lit 0x0⟩,
  ⟨0x124, 1, 1, 0, 1, .ro, .lit 0x0⟩,
  ⟨0x124, 1, 1, 16, 16, .ro, .lit 0x0⟩,
  ⟨0x128, 1, 1, 0, 32, .ro, .lit 0x0⟩,
  ⟨0x12c, 1, 1, 0, 32, .ro, .lit 0x0⟩,
  ⟨0x1000, 4, 128, 0, 32, .ro, .lit 0x0⟩,
  ⟨0x2000, 4, 64, 0, 18, .rw, .lit 0x3ffff⟩,
  ⟨0x2100, 4, 64, 0, 18, .rw, .lit 0x3ffff⟩]

/-- Register rows. -/
def Rows.port : List RegRow := [
  ⟨0x0, 1, 1, 0, 4, .ro, .lit 0x0⟩,
  ⟨0x0, 1, 1, 4, 4, .ro, .lit 0x0⟩,
  ⟨0x4, 1, 1, 0, 1, .rw, .lit 0x0⟩,
  ⟨0x4, 1, 1, 1, 1, .wo, .lit 0x0⟩,
  ⟨0x8, 1, 1, 0, 32, .ro, .lit 0x76543210⟩,
  ⟨0xc, 1, 1, 0, 1, .ro, .lit 0x0⟩,
  ⟨0xc, 1, 1, 4, 4, .ro, .lit 0x0⟩,
  ⟨0x10, 1, 1, 0, 12, .ro, .lit 0x0⟩,
  ⟨0x10, 1, 1, 16, 6, .ro, .lit 0x0⟩,
  ⟨0x14, 1, 1, 0, 4, .rw, .lit 0x3⟩,
  ⟨0x18, 1, 1, 0, 32, .rc, .lit 0x0⟩,
  ⟨0x1c, 1, 1, 0, 16, .rw, .lit 0x100⟩,
  ⟨0x20, 1, 1, 0, 32, .rc, .lit 0x0⟩,
  ⟨0x24, 1, 1, 0, 32, .rc, .lit 0x0⟩,
  ⟨0x28, 1, 1, 0, 32, .rc, .lit 0x0⟩,
  ⟨0x2c, 1, 1, 0, 32, .rc, .lit 0x0⟩,
  ⟨0x30, 1, 1, 0, 32, .ro, .lit 0x0⟩,
  ⟨0x34, 1, 1, 0, 32, .ro, .lit 0x0⟩,
  ⟨0x38, 1, 1, 0, 32, .ro, .lit 0x0⟩,
  ⟨0x3c, 1, 1, 0, 32, .ro, .lit 0x0⟩,
  ⟨0x40, 4, 5, 0, 16, .ro, .lit 0x0⟩]

/-- Register rows. -/
def Rows.dmaStrm : List RegRow := [
  ⟨0x0, 1, 1, 12, 20, .rw, .lit 0x0⟩,
  ⟨0x4, 1, 1, 0, 12, .rw, .lit 0x0⟩,
  ⟨0x8, 1, 1, 0, 5, .rw, .lit 0x4⟩,
  ⟨0xc, 1, 1, 0, 16, .rw, .lit 0x0⟩,
  ⟨0x10, 1, 1, 0, 16, .ro, .lit 0x0⟩,
  ⟨0x14, 1, 1, 0, 1, .rw, .lit 0x0⟩,
  ⟨0x14, 1, 1, 1, 1, .wo, .lit 0x0⟩,
  ⟨0x14, 1, 1, 2, 1, .wo, .lit 0x0⟩,
  ⟨0x14, 1, 1, 3, 1, .wo, .lit 0x0⟩,
  ⟨0x18, 1, 1, 0, 3, .ro, .lit 0x0⟩,
  ⟨0x18, 1, 1, 16, 16, .ro, .lit 0x0⟩,
  ⟨0x1c, 1, 1, 0, 32, .ro, .lit 0x0⟩,
  ⟨0x20, 1, 1, 0, 16, .ro, .lit 0x0⟩,
  ⟨0x24, 1, 1, 0, 32, .ro, .lit 0x1⟩,
  ⟨0x28, 1, 1, 0, 16, .ro, .lit 0x0⟩,
  ⟨0x2c, 1, 1, 0, 10, .rw, .lit 0x0⟩,
  ⟨0x30, 1, 1, 0, 32, .rc, .lit 0x0⟩,
  ⟨0x34, 1, 1, 0, 32, .rc, .lit 0x0⟩]

/-- Register rows. -/
def Rows.vlt : List RegRow := [
  ⟨0x0, 1, 1, 0, 6, .rw, .lit 0x0⟩,
  ⟨0x4, 1, 1, 0, 1, .ro, .lit 0x0⟩,
  ⟨0x8, 1, 1, 0, 1, .wo, .lit 0x0⟩,
  ⟨0x8, 1, 1, 1, 1, .wo, .lit 0x0⟩,
  ⟨0xc, 1, 1, 0, 1, .ro, .lit 0x0⟩,
  ⟨0x10, 1, 1, 0, 1, .rw, .lit 0x0⟩,
  ⟨0x14, 1, 1, 0, 32, .rw, .lit 0x200⟩,
  ⟨0x18, 1, 1, 0, 32, .rc, .lit 0x0⟩,
  ⟨0x1c, 1, 1, 0, 32, .rc, .lit 0x0⟩,
  ⟨0x20, 1, 1, 0, 32, .rc, .lit 0x0⟩,
  ⟨0x24, 1, 1, 0, 3, .ro, .lit 0x0⟩,
  ⟨0x24, 1, 1, 8, 3, .ro, .lit 0x0⟩,
  ⟨0x24, 1, 1, 16, 4, .ro, .lit 0x0⟩,
  ⟨0x24, 1, 1, 20, 1, .ro, .lit 0x0⟩,
  ⟨0x28, 1, 1, 0, 8, .ro, .lit 0x0⟩,
  ⟨0x2c, 1, 1, 0, 8, .rw, .lit 0x55⟩,
  ⟨0x2c, 1, 1, 8, 8, .rw, .lit 0x5c⟩,
  ⟨0x2c, 1, 1, 16, 8, .rw, .lit 0x62⟩,
  ⟨0x30, 1, 1, 0, 32, .rc, .lit 0x0⟩,
  ⟨0x34, 1, 1, 0, 1, .w1s, .lit 0x0⟩,
  ⟨0x38, 1, 1, 0, 16, .rc, .lit 0x0⟩,
  ⟨0x3c, 1, 1, 0, 1, .ro, .lit 0x0⟩,
  ⟨0x400, 4, 64, 0, 32, .rw, .lit 0x0⟩]

/-- Register rows. -/
def Rows.hbm : List RegRow := [
  ⟨0x0, 1, 1, 0, 8, .ro, .lit 0x0⟩,
  ⟨0x4, 1, 1, 0, 3, .ro, .lit 0x0⟩,
  ⟨0x4, 1, 1, 8, 2, .ro, .lit 0x0⟩,
  ⟨0x8, 1, 1, 0, 8, .rw, .lit 0x55⟩,
  ⟨0x8, 1, 1, 8, 8, .rw, .lit 0x5c⟩,
  ⟨0x8, 1, 1, 16, 8, .rw, .lit 0x62⟩,
  ⟨0x10, 1, 1, 0, 32, .ro, .lit 0x0⟩,
  ⟨0x14, 1, 1, 0, 32, .ro, .lit 0x0⟩,
  ⟨0x18, 1, 1, 0, 32, .ro, .lit 0x0⟩,
  ⟨0x1c, 1, 1, 0, 32, .ro, .lit 0x0⟩,
  ⟨0x20, 1, 1, 0, 32, .ro, .lit 0x0⟩,
  ⟨0x24, 1, 1, 0, 32, .ro, .lit 0x0⟩,
  ⟨0x28, 1, 1, 0, 32, .ro, .lit 0x0⟩,
  ⟨0x2c, 1, 1, 0, 32, .ro, .lit 0x0⟩,
  ⟨0x30, 1, 1, 0, 1, .wo, .lit 0x0⟩]

/-- Register rows. -/
def Rows.btr : List RegRow := [
  ⟨0x0, 1, 1, 12, 20, .rw, .lit 0x0⟩,
  ⟨0x4, 1, 1, 0, 12, .rw, .lit 0x0⟩,
  ⟨0x8, 1, 1, 0, 5, .rw, .lit 0x4⟩,
  ⟨0xc, 1, 1, 0, 16, .rw, .lit 0x0⟩,
  ⟨0x10, 1, 1, 0, 16, .ro, .lit 0x0⟩,
  ⟨0x14, 1, 1, 0, 1, .rw, .lit 0x0⟩,
  ⟨0x14, 1, 1, 1, 1, .wo, .lit 0x0⟩,
  ⟨0x14, 1, 1, 2, 1, .wo, .lit 0x0⟩,
  ⟨0x14, 1, 1, 3, 1, .wo, .lit 0x0⟩,
  ⟨0x18, 1, 1, 0, 3, .ro, .lit 0x0⟩,
  ⟨0x18, 1, 1, 16, 16, .ro, .lit 0x0⟩,
  ⟨0x1c, 1, 1, 0, 32, .ro, .lit 0x0⟩,
  ⟨0x20, 1, 1, 0, 16, .ro, .lit 0x0⟩,
  ⟨0x24, 1, 1, 0, 32, .ro, .lit 0x1⟩,
  ⟨0x28, 1, 1, 0, 16, .ro, .lit 0x0⟩,
  ⟨0x2c, 1, 1, 0, 10, .rw, .lit 0x0⟩,
  ⟨0x30, 1, 1, 0, 32, .rc, .lit 0x0⟩,
  ⟨0x34, 1, 1, 0, 32, .rc, .lit 0x0⟩,
  ⟨0x40, 1, 1, 0, 32, .ro, .lit 0x0⟩,
  ⟨0x44, 1, 1, 0, 32, .rw, .lit 0x0⟩,
  ⟨0x48, 1, 1, 0, 32, .rw, .lit 0x0⟩,
  ⟨0x4c, 1, 1, 0, 32, .wo, .lit 0x0⟩,
  ⟨0x50, 1, 1, 0, 32, .wo, .lit 0x0⟩,
  ⟨0x54, 1, 1, 0, 16, .rw, .lit 0xc8⟩,
  ⟨0x58, 1, 1, 0, 7, .ro, .lit 0x40⟩,
  ⟨0x58, 1, 1, 8, 3, .ro, .special⟩,
  ⟨0x5c, 1, 1, 0, 32, .rc, .lit 0x0⟩,
  ⟨0x60, 1, 1, 0, 32, .rc, .lit 0x0⟩,
  ⟨0x64, 1, 1, 0, 32, .rc, .lit 0x0⟩,
  ⟨0x68, 1, 1, 0, 32, .rc, .lit 0x0⟩,
  ⟨0x6c, 1, 1, 0, 32, .rc, .lit 0x0⟩,
  ⟨0x70, 1, 1, 0, 32, .ro, .lit 0x0⟩,
  ⟨0x74, 1, 1, 0, 32, .ro, .lit 0x0⟩,
  ⟨0x78, 1, 1, 0, 1, .ro, .lit 0x0⟩,
  ⟨0x78, 1, 1, 8, 6, .ro, .lit 0x0⟩,
  ⟨0x7c, 1, 1, 0, 1, .wo, .lit 0x0⟩]

/-- Register rows. -/
def Rows.prs : List RegRow := [
  ⟨0x0, 1, 1, 0, 8, .rw, .lit 0xd8⟩,
  ⟨0x4, 1, 1, 0, 32, .ro, .lit 0x3000000⟩,
  ⟨0x8, 1, 1, 0, 3, .ro, .lit 0x7⟩,
  ⟨0xc, 1, 1, 0, 32, .rc, .lit 0x0⟩,
  ⟨0x10, 1, 1, 0, 32, .rc, .lit 0x0⟩,
  ⟨0x14, 1, 1, 0, 32, .rc, .lit 0x0⟩,
  ⟨0x18, 1, 1, 0, 32, .rc, .lit 0x0⟩,
  ⟨0x1c, 1, 1, 0, 32, .rc, .lit 0x0⟩,
  ⟨0x20, 1, 1, 0, 32, .rc, .lit 0x0⟩,
  ⟨0x28, 1, 1, 0, 32, .ro, .lit 0x0⟩,
  ⟨0x2c, 1, 1, 0, 32, .ro, .lit 0x0⟩,
  ⟨0x30, 1, 1, 0, 1, .wo, .lit 0x0⟩]

/-- Register rows. -/
def Rows.prsStrm : List RegRow := [
  ⟨0x0, 1, 1, 12, 20, .rw, .lit 0x0⟩,
  ⟨0x4, 1, 1, 0, 12, .rw, .lit 0x0⟩,
  ⟨0x8, 1, 1, 0, 5, .rw, .lit 0x4⟩,
  ⟨0xc, 1, 1, 0, 16, .rw, .lit 0x0⟩,
  ⟨0x10, 1, 1, 0, 16, .ro, .lit 0x0⟩,
  ⟨0x14, 1, 1, 0, 1, .rw, .lit 0x0⟩,
  ⟨0x14, 1, 1, 1, 1, .wo, .lit 0x0⟩,
  ⟨0x14, 1, 1, 2, 1, .wo, .lit 0x0⟩,
  ⟨0x14, 1, 1, 3, 1, .wo, .lit 0x0⟩,
  ⟨0x18, 1, 1, 0, 3, .ro, .lit 0x0⟩,
  ⟨0x18, 1, 1, 16, 16, .ro, .lit 0x0⟩,
  ⟨0x1c, 1, 1, 0, 32, .ro, .lit 0x0⟩,
  ⟨0x20, 1, 1, 0, 16, .ro, .lit 0x0⟩,
  ⟨0x24, 1, 1, 0, 32, .ro, .lit 0x1⟩,
  ⟨0x28, 1, 1, 0, 16, .ro, .lit 0x0⟩,
  ⟨0x2c, 1, 1, 0, 10, .rw, .lit 0x0⟩,
  ⟨0x30, 1, 1, 0, 32, .rc, .lit 0x0⟩,
  ⟨0x34, 1, 1, 0, 32, .rc, .lit 0x0⟩,
  ⟨0x40, 1, 1, 0, 12, .ro, .lit 0x0⟩,
  ⟨0x44, 1, 1, 0, 16, .ro, .lit 0x0⟩,
  ⟨0x48, 1, 1, 0, 3, .ro, .lit 0x0⟩,
  ⟨0x4c, 1, 1, 0, 32, .ro, .lit 0x0⟩]

/-- Register rows. -/
def Rows.slice : List RegRow := [
  ⟨0x0, 1, 1, 0, 32, .rw, .lit 0x84442222⟩,
  ⟨0x4, 1, 1, 0, 32, .wo, .lit 0x0⟩,
  ⟨0x8, 1, 1, 0, 32, .ro, .lit 0x1⟩,
  ⟨0x10, 4, 8, 0, 32, .rc, .lit 0x0⟩,
  ⟨0x30, 4, 8, 0, 32, .rc, .lit 0x0⟩,
  ⟨0x50, 1, 1, 0, 32, .rc, .lit 0x0⟩,
  ⟨0x54, 1, 1, 0, 32, .rc, .lit 0x0⟩,
  ⟨0x58, 1, 1, 0, 10, .ro, .lit 0x0⟩,
  ⟨0x5c, 1, 1, 0, 8, .ro, .lit 0x0⟩,
  ⟨0x60, 1, 1, 0, 32, .rc, .lit 0x0⟩,
  ⟨0x64, 1, 1, 0, 32, .rc, .lit 0x0⟩,
  ⟨0x68, 1, 1, 0, 32, .rc, .lit 0x0⟩]

/-- Register rows. -/
def Rows.core : List RegRow := [
  ⟨0x0, 1, 1, 0, 8, .ro, .special⟩,
  ⟨0x0, 1, 1, 8, 8, .ro, .special⟩,
  ⟨0x0, 1, 1, 16, 1, .ro, .special⟩,
  ⟨0x4, 1, 1, 0, 32, .rc, .lit 0x0⟩,
  ⟨0x8, 1, 1, 0, 8, .rw, .lit 0x20⟩,
  ⟨0xc, 1, 1, 0, 3, .ro, .lit 0x0⟩,
  ⟨0xc, 1, 1, 4, 2, .ro, .lit 0x0⟩,
  ⟨0xc, 1, 1, 8, 3, .ro, .lit 0x0⟩,
  ⟨0x10, 1, 1, 0, 32, .rc, .lit 0x0⟩,
  ⟨0x14, 1, 1, 0, 32, .rc, .lit 0x0⟩,
  ⟨0x100, 64, 4, 12, 20, .rw, .lit 0x0⟩,
  ⟨0x104, 64, 4, 0, 12, .rw, .lit 0x0⟩,
  ⟨0x108, 64, 4, 0, 5, .rw, .lit 0x4⟩,
  ⟨0x10c, 64, 4, 0, 16, .rw, .lit 0x0⟩,
  ⟨0x110, 64, 4, 0, 16, .ro, .lit 0x0⟩,
  ⟨0x114, 64, 4, 0, 1, .rw, .lit 0x0⟩,
  ⟨0x114, 64, 4, 1, 1, .wo, .lit 0x0⟩,
  ⟨0x114, 64, 4, 2, 1, .wo, .lit 0x0⟩,
  ⟨0x114, 64, 4, 3, 1, .wo, .lit 0x0⟩,
  ⟨0x118, 64, 4, 0, 3, .ro, .lit 0x0⟩,
  ⟨0x118, 64, 4, 16, 16, .ro, .lit 0x0⟩,
  ⟨0x11c, 64, 4, 0, 32, .ro, .lit 0x0⟩,
  ⟨0x120, 64, 4, 0, 16, .ro, .lit 0x0⟩,
  ⟨0x124, 64, 4, 0, 32, .ro, .lit 0x1⟩,
  ⟨0x128, 64, 4, 0, 16, .ro, .lit 0x0⟩,
  ⟨0x12c, 64, 4, 0, 10, .rw, .lit 0x0⟩,
  ⟨0x130, 64, 4, 0, 32, .rc, .lit 0x0⟩,
  ⟨0x134, 64, 4, 0, 32, .rc, .lit 0x0⟩,
  ⟨0x200, 1, 1, 0, 16, .rw, .lit 0x40⟩,
  ⟨0x204, 1, 1, 0, 16, .rc, .lit 0x0⟩,
  ⟨0x208, 1, 1, 0, 1, .ro, .lit 0x0⟩,
  ⟨0x20c, 1, 1, 0, 32, .ro, .lit 0x0⟩,
  ⟨0x210, 1, 1, 0, 16, .ro, .lit 0x0⟩,
  ⟨0x214, 1, 1, 0, 1, .w1c, .lit 0x0⟩,
  ⟨0x218, 1, 1, 0, 16, .ro, .lit 0x0⟩,
  ⟨0x21c, 1, 1, 0, 32, .ro, .lit 0x0⟩]

/-- Register rows. -/
def Rows.arr : List RegRow := [
  ⟨0x0, 1, 1, 0, 24, .ro, .lit 0x0⟩,
  ⟨0x4, 1, 1, 0, 24, .ro, .lit 0x0⟩,
  ⟨0x8, 1, 1, 0, 1, .ro, .special⟩,
  ⟨0x8, 1, 1, 8, 5, .ro, .special⟩,
  ⟨0xc, 1, 1, 0, 16, .rw, .lit 0x100⟩,
  ⟨0x10, 1, 1, 0, 4, .rw, .lit 0x8⟩,
  ⟨0x14, 1, 1, 0, 16, .rw, .lit 0x800⟩,
  ⟨0x18, 1, 1, 0, 32, .ro, .lit 0x0⟩,
  ⟨0x1c, 1, 1, 0, 32, .ro, .lit 0x0⟩,
  ⟨0x20, 1, 1, 0, 32, .ro, .lit 0x0⟩,
  ⟨0x24, 1, 1, 0, 32, .ro, .lit 0x0⟩,
  ⟨0x28, 1, 1, 0, 32, .ro, .lit 0x0⟩,
  ⟨0x2c, 1, 1, 0, 32, .ro, .lit 0x0⟩,
  ⟨0x30, 1, 1, 0, 32, .ro, .lit 0x0⟩,
  ⟨0x34, 1, 1, 0, 32, .ro, .lit 0x0⟩,
  ⟨0x38, 1, 1, 0, 1, .wo, .lit 0x0⟩,
  ⟨0x40, 4, 24, 0, 5, .ro, .special⟩]

/-- Register rows. -/
def Rows.drn : List RegRow := [
  ⟨0x0, 1, 1, 0, 32, .rw, .lit 0x0⟩,
  ⟨0x4, 1, 1, 0, 32, .rw, .lit 0x0⟩,
  ⟨0x8, 1, 1, 12, 20, .rw, .lit 0x0⟩,
  ⟨0xc, 1, 1, 0, 12, .rw, .lit 0x0⟩,
  ⟨0x10, 1, 1, 0, 32, .rc, .lit 0x0⟩,
  ⟨0x14, 1, 1, 0, 32, .rc, .lit 0x0⟩,
  ⟨0x18, 1, 1, 0, 32, .rc, .lit 0x0⟩,
  ⟨0x1c, 1, 1, 0, 9, .rc, .lit 0x0⟩,
  ⟨0x20, 1, 1, 0, 32, .rc, .lit 0x0⟩]

/-- The register table of a block. -/
def blockRows : BlockKind → List RegRow
  | .ident => Rows.ident
  | .sec => Rows.sec
  | .pwr => Rows.pwr
  | .clk => Rows.clk
  | .rgs => Rows.rgs
  | .cst => Rows.cst
  | .ldg => Rows.ldg
  | .csv => Rows.csv
  | .htx => Rows.htx
  | .mbox => Rows.mbox
  | .db => Rows.db
  | .im => Rows.im
  | .cur => Rows.cur
  | .curStrm => Rows.curStrm
  | .col => Rows.col
  | .grp => Rows.grp
  | .colStrm => Rows.colStrm
  | .vat => Rows.vat
  | .chn => Rows.chn
  | .port => Rows.port
  | .dmaStrm => Rows.dmaStrm
  | .vlt => Rows.vlt
  | .hbm => Rows.hbm
  | .btr => Rows.btr
  | .prs => Rows.prs
  | .prsStrm => Rows.prsStrm
  | .slice => Rows.slice
  | .core => Rows.core
  | .arr => Rows.arr
  | .drn => Rows.drn
  | .rsv => []

/-- A row covers the word at `o` in its block. -/
def RegRow.covers (r : RegRow) (o : Nat) : Bool :=
  r.off ≤ o && (o - r.off) % r.stride == 0 && (o - r.off) / r.stride < r.count

/-- The fields of the word at `off`. -/
def wordRows (off : Nat) : List RegRow :=
  match blockOf off with
  | none => []
  | some (k, base) => (blockRows k).filter (·.covers (off - base))

/-- The physical core that serves logical core `n` of its die at reset (01 R30): `n mod 128`, or the spare that factory repair
put in its place (log 3). -/
def factoryPhys (n : Nat) : Nat :=
  let d := n / 128
  match (List.range 8).find? (fun k => Config.factoryCore d k == n % 128) with
  | some k => 128 + k
  | none => n % 128

/-- Spare cores of die `d` that factory repair left unused (log 3). -/
def factoryCoreSpares (d : Nat) : Nat :=
  ((List.range 8).filter (fun k => decide (128 ≤ Config.factoryCore d k))).length

/-- The logical array that the spare array of the core serving logical core `n` at reset serves; 24 or more when none (03 R98, log 3). -/
def factorySpare (n : Nat) : Nat := Config.factoryArray (136 * (n / 128) + factoryPhys n)

/-- The ARR_ words that show which physical array serves each logical one, on a core whose spare serves array `a` (03 R101). -/
def arrayMapWord (a o lo : Nat) : Nat :=
  if o = 0x008 then (if lo = 0 then (if a < 24 then 1 else 0) else (if a < 24 then a else 0))
  else if (o - 0x40) / 4 = a then 24 else (o - 0x40) / 4

/-- The identity words (15 R441): the ordering code in ASCII, ET960-LA or ET960-LB by the grade (00 R5 Table 4), the stepping's letter and
digit (00 R7) and the certificate's 1–2,048 bytes, as the fuses have them (log 3). -/
def identReset (o lo : Nat) : Nat :=
  if o = 0x000 then 0x36395445
  else if o = 0x004 then (if Config.gradeLB then 0x424C2D30 else 0x414C2D30)
  else if o = 0x020 then 1 + (Config.fusedWord o).toNat % 2048
  else if lo = 0 then 0x41 + (Config.fusedWord o).toNat % 26
  else if lo = 8 then 0x30 + (Config.fusedWord o).toNat / 2 ^ 8 % 10
  else if Config.gradeLB then 1 else 0

/-- Reset values that are no plain number of a table: the physical numbering (01 R30, 03 R101), the grade (14 R421, 15 R441),
the spare counts (08 R259, 16 R466, 13 R396) and the Vat pools (10 R293 Table 5). -/
def specialReset (k : BlockKind) (base o lo : Nat) : Nat :=
  match k with
  | .core =>
    let n := (base - 0x1000000) / 0x4000
    if lo = 0 then n else if lo = 8 then factoryPhys n else n / 128
  | .arr => arrayMapWord (factorySpare ((base - 0x1000000) / 0x4000)) o lo
  | .pwr =>
    if o = 0 then (if Config.gradeLB then 1 else 0)
    else if o = 0x018 ∨ o = 0x01C then (if Config.gradeLB then 900 else 1150)
    else if Config.gradeLB then 2200 else 2800
  | .ident => identReset o lo
  | .btr => min (Config.fusedWord (base + o)).toNat 4
  | .csv => factoryCoreSpares (if lo = 0 then 0 else 1)
  | .rgs =>
    let c := Config.factoryControl
    if lo = 0 then (if c < 3 then 15 - 2 ^ c else 7) else if c < 3 then 1 else 0
  | .vat =>
    let p := o / 0x20
    if p = 0 then 8192 else if p = 1 then 32768 else if p = 2 then 32768 else if p = 3 then 49152 else 8192
  | _ => 0

/-- The reset value of one field at `off`. -/
def RegRow.resetVal (r : RegRow) (k : BlockKind) (base o : Nat) : Nat :=
  match r.reset with
  | .lit n => n
  | .fused => (Config.fusedWord (base + o)).toNat / 2 ^ r.lo % 2 ^ r.w
  | .special => specialReset k base o r.lo

/-- What the word at `off` holds at reset: each field at its table's reset value, every other bit 0 (00 R10, 01 R36). -/
def resetWord (off : Nat) : Word :=
  match blockOf off with
  | none => 0
  | some (k, base) =>
    ((blockRows k).filter (·.covers (off - base))).foldl
      (fun w r => w ||| (BitVec.ofNat 32 (r.resetVal k base (off - base) % 2 ^ r.w) <<< r.lo)) 0

/-- The bits of the fields that satisfy `p` in a word. -/
def maskOf (p : RegRow → Bool) (off : Nat) : Word :=
  ((wordRows off).filter p).foldl (fun w r => w ||| (BitVec.ofNat 32 (2 ^ r.w - 1) <<< r.lo)) 0

/-- The bits that hold state; every other bit reads as zero and ignores writes (00 R10, 01 R36). -/
def wordMask (off : Nat) : Word := maskOf (fun _ => true) off

/-- The bits an access reads: all but the write-only ones (00 "Conventions used throughout"). -/
def readMask (off : Nat) : Word := maskOf (fun r => r.acc != .wo) off

/-- The bits of one access code. -/
def accMask (a : Access) (off : Nat) : Word := maskOf (fun r => r.acc == a) off

namespace Reg

/-- STRM_BASE_LO. -/
def strmBaseLo (sid : Nat) : Fld := ⟨strmBase sid + 0x0, 12, 20⟩

/-- STRM_BASE_HI. -/
def strmBaseHi (sid : Nat) : Fld := ⟨strmBase sid + 0x4, 0, 12⟩

/-- STRM_SIZE. -/
def strmSize (sid : Nat) : Fld := ⟨strmBase sid + 0x8, 0, 5⟩

/-- STRM_TAIL. -/
def strmTail (sid : Nat) : Fld := ⟨strmBase sid + 0xc, 0, 16⟩

/-- STRM_HEAD. -/
def strmHead (sid : Nat) : Fld := ⟨strmBase sid + 0x10, 0, 16⟩

/-- ENABLE. -/
def strmEnable (sid : Nat) : Fld := ⟨strmBase sid + 0x14, 0, 1⟩

/-- RESUME_SKIP. -/
def strmResumeSkip (sid : Nat) : Fld := ⟨strmBase sid + 0x14, 1, 1⟩

/-- RESUME_RETRY. -/
def strmResumeRetry (sid : Nat) : Fld := ⟨strmBase sid + 0x14, 2, 1⟩

/-- RESET. -/
def strmReset (sid : Nat) : Fld := ⟨strmBase sid + 0x14, 3, 1⟩

/-- STATE. -/
def strmState (sid : Nat) : Fld := ⟨strmBase sid + 0x18, 0, 3⟩

/-- LAST_STATUS. -/
def strmLastStatus (sid : Nat) : Fld := ⟨strmBase sid + 0x18, 16, 16⟩

/-- STRM_FAULT_ACC_LO. -/
def strmFaultAccLo (sid : Nat) : Fld := ⟨strmBase sid + 0x1c, 0, 32⟩

/-- STRM_FAULT_ACC_HI. -/
def strmFaultAccHi (sid : Nat) : Fld := ⟨strmBase sid + 0x20, 0, 16⟩

/-- STRM_ACC_NEXT_LO. -/
def strmAccNextLo (sid : Nat) : Fld := ⟨strmBase sid + 0x24, 0, 32⟩

/-- STRM_ACC_NEXT_HI. -/
def strmAccNextHi (sid : Nat) : Fld := ⟨strmBase sid + 0x28, 0, 16⟩

/-- STRM_IRQ_VEC. -/
def strmIrqVec (sid : Nat) : Fld := ⟨strmBase sid + 0x2c, 0, 10⟩

/-- STRM_LATE. -/
def strmLate (sid : Nat) : Fld := ⟨strmBase sid + 0x30, 0, 32⟩

/-- STRM_WAIT_TIMEOUTS. -/
def strmWaitTimeouts (sid : Nat) : Fld := ⟨strmBase sid + 0x34, 0, 32⟩

/-- CORE_GATE_DELAY. -/
def coreGateDelay (n : Nat) : Fld := ⟨coreBase n + 0x200, 0, 16⟩

/-- CORE_WATCH_OVERFLOW. -/
def coreWatchOverflow (n : Nat) : Fld := ⟨coreBase n + 0x204, 0, 16⟩

/-- CORE_TASK_OPEN. -/
def coreTaskOpen (n : Nat) : Fld := ⟨coreBase n + 0x208, 0, 1⟩

/-- CORE_TASK_MASK_LO. -/
def coreTaskMaskLo (n : Nat) : Fld := ⟨coreBase n + 0x20c, 0, 32⟩

/-- CORE_TASK_MASK_HI. -/
def coreTaskMaskHi (n : Nat) : Fld := ⟨coreBase n + 0x210, 0, 16⟩

/-- CORE_FLAG_FAULT. -/
def coreFlagFault (n : Nat) : Fld := ⟨coreBase n + 0x214, 0, 1⟩

/-- CORE_FLAG_RESIDUE_HI. -/
def coreFlagResidueHi (n : Nat) : Fld := ⟨coreBase n + 0x218, 0, 16⟩

/-- CORE_FLAG_RESIDUE_LO. -/
def coreFlagResidueLo (n : Nat) : Fld := ⟨coreBase n + 0x21c, 0, 32⟩

/-- RGS_BAR_CORES_w. -/
def rgsBarCores (c : Nat) (i : Nat) : Fld := ⟨0x4800 + c * 0x80 + 0x0 + i * 4, 0, 32⟩

/-- RGS_BAR_ENGINES. -/
def rgsBarEngines (c : Nat) : Fld := ⟨0x4800 + c * 0x80 + 0x20, 0, 13⟩

/-- RGS_BAR_GEN. -/
def rgsBarGen (c : Nat) : Fld := ⟨0x4800 + c * 0x80 + 0x24, 0, 32⟩

/-- RGS_BAR_ARRIVED. -/
def rgsBarArrived (c : Nat) : Fld := ⟨0x4800 + c * 0x80 + 0x28, 0, 9⟩

/-- RGS_BAR_ENABLE. -/
def rgsBarEnable (c : Nat) : Fld := ⟨0x4800 + c * 0x80 + 0x2c, 0, 1⟩

/-- RGS_BAR_CLEAR. -/
def rgsBarClear (c : Nat) : Fld := ⟨0x4800 + c * 0x80 + 0x2c, 1, 1⟩

/-- RGS_BAR_REFUSED. -/
def rgsBarRefused (c : Nat) : Fld := ⟨0x4800 + c * 0x80 + 0x30, 0, 16⟩

/-- CORE_LOGICAL. -/
def coreLogical (n : Nat) : Fld := ⟨coreBase n + 0x0, 0, 8⟩

/-- CORE_PHYSICAL. -/
def corePhysical (n : Nat) : Fld := ⟨coreBase n + 0x0, 8, 8⟩

/-- CORE_DIE. -/
def coreDie (n : Nat) : Fld := ⟨coreBase n + 0x0, 16, 1⟩

/-- CORE_LS_CONFLICTS. -/
def coreLsConflicts (n : Nat) : Fld := ⟨coreBase n + 0x4, 0, 32⟩

/-- CORE_MESH_STARVE. -/
def coreMeshStarve (n : Nat) : Fld := ⟨coreBase n + 0x8, 0, 8⟩

/-- CORE_ARR_HELD. -/
def coreArrHeld (n : Nat) : Fld := ⟨coreBase n + 0xc, 0, 3⟩

/-- CORE_VEC_HELD. -/
def coreVecHeld (n : Nat) : Fld := ⟨coreBase n + 0xc, 4, 2⟩

/-- CORE_DMA_ACTIVE. -/
def coreDmaActive (n : Nat) : Fld := ⟨coreBase n + 0xc, 8, 3⟩

/-- CORE_VEC_BUSY. -/
def coreVecBusy (n : Nat) : Fld := ⟨coreBase n + 0x10, 0, 32⟩

/-- CORE_DMA_BUSY. -/
def coreDmaBusy (n : Nat) : Fld := ⟨coreBase n + 0x14, 0, 32⟩

/-- ARR_UP. -/
def arrUp (n : Nat) : Fld := ⟨coreBase n + 0x1000 + 0x0, 0, 24⟩

/-- ARR_FAILED. -/
def arrFailed (n : Nat) : Fld := ⟨coreBase n + 0x1000 + 0x4, 0, 24⟩

/-- ARR_SPARE_USED. -/
def arrSpareUsed (n : Nat) : Fld := ⟨coreBase n + 0x1000 + 0x8, 0, 1⟩

/-- ARR_SPARE_FOR. -/
def arrSpareFor (n : Nat) : Fld := ⟨coreBase n + 0x1000 + 0x8, 8, 5⟩

/-- ARR_RAMP_HOLD. -/
def arrRampHold (n : Nat) : Fld := ⟨coreBase n + 0x1000 + 0xc, 0, 16⟩

/-- ARR_RAMP_STEP. -/
def arrRampStep (n : Nat) : Fld := ⟨coreBase n + 0x1000 + 0x10, 0, 4⟩

/-- ARR_TILES. -/
def arrTiles (n : Nat) : Fld := ⟨coreBase n + 0x1000 + 0x18, 0, 64⟩

/-- ARR_MAC_CYCLES. -/
def arrMacCycles (n : Nat) : Fld := ⟨coreBase n + 0x1000 + 0x20, 0, 64⟩

/-- ARR_BUSY_CYCLES. -/
def arrBusyCycles (n : Nat) : Fld := ⟨coreBase n + 0x1000 + 0x28, 0, 64⟩

/-- ARR_STALL_CYCLES. -/
def arrStallCycles (n : Nat) : Fld := ⟨coreBase n + 0x1000 + 0x30, 0, 64⟩

/-- ARR_CNT_CLEAR. -/
def arrCntClear (n : Nat) : Fld := ⟨coreBase n + 0x1000 + 0x38, 0, 1⟩

/-- ARR_PHYS_a. -/
def arrPhys (n : Nat) (i : Nat) : Fld := ⟨coreBase n + 0x1000 + 0x40 + i * 4, 0, 5⟩

/-- DRN_SEED_LO. -/
def drnSeedLo (n : Nat) : Fld := ⟨coreBase n + 0x2000 + 0x0, 0, 32⟩

/-- DRN_SEED_HI. -/
def drnSeedHi (n : Nat) : Fld := ⟨coreBase n + 0x2000 + 0x4, 0, 32⟩

/-- DRN_REPLAY_BASE_LO. -/
def drnReplayBaseLo (n : Nat) : Fld := ⟨coreBase n + 0x2000 + 0x8, 12, 20⟩

/-- DRN_REPLAY_BASE_HI. -/
def drnReplayBaseHi (n : Nat) : Fld := ⟨coreBase n + 0x2000 + 0xc, 0, 12⟩

/-- DRN_OVF_EVENTS. -/
def drnOvfEvents (n : Nat) : Fld := ⟨coreBase n + 0x2000 + 0x10, 0, 32⟩

/-- DRN_GATE_SKIPS. -/
def drnGateSkips (n : Nat) : Fld := ⟨coreBase n + 0x2000 + 0x14, 0, 32⟩

/-- DRN_LAYER_FAULTS. -/
def drnLayerFaults (n : Nat) : Fld := ⟨coreBase n + 0x2000 + 0x18, 0, 32⟩

/-- DRN_STAGE_PEAK. -/
def drnStagePeak (n : Nat) : Fld := ⟨coreBase n + 0x2000 + 0x1c, 0, 9⟩

/-- DRN_CENSUS_SAT. -/
def drnCensusSat (n : Nat) : Fld := ⟨coreBase n + 0x2000 + 0x20, 0, 32⟩

/-- ARR_DEFER_STARVE. -/
def arrDeferStarve (n : Nat) : Fld := ⟨coreBase n + 0x1000 + 0x14, 0, 16⟩

/-- CUR_XCHG_TIMEOUT. -/
def curXchgTimeout : Fld := ⟨0x20000 + 0x0, 0, 32⟩

/-- CUR_XCHG_LATE. -/
def curXchgLate : Fld := ⟨0x20000 + 0x4, 0, 32⟩

/-- CUR_ROUTES. -/
def curRoutes : Fld := ⟨0x20000 + 0x8, 0, 64⟩

/-- CUR_ROWS_SENT. -/
def curRowsSent : Fld := ⟨0x20000 + 0x10, 0, 64⟩

/-- CUR_COPIES. -/
def curCopies : Fld := ⟨0x20000 + 0x18, 0, 64⟩

/-- CUR_DROPPED. -/
def curDropped : Fld := ⟨0x20000 + 0x20, 0, 64⟩

/-- CUR_EXTRA_WAVES. -/
def curExtraWaves : Fld := ⟨0x20000 + 0x28, 0, 32⟩

/-- CUR_NONFINITE. -/
def curNonfinite : Fld := ⟨0x20000 + 0x2c, 0, 32⟩

/-- CUR_REFUSALS. -/
def curRefusals : Fld := ⟨0x20000 + 0x30, 0, 32⟩

/-- CUR_CNT_CLEAR. -/
def curCntClear : Fld := ⟨0x20000 + 0x34, 0, 1⟩

/-- CUR_ACTIVE. -/
def curActive : Fld := ⟨0x20000 + 0x38, 0, 5⟩

/-- CUR_STRM_LAYER_LO. -/
def curStrmLayerLo (sid : Nat) : Fld := ⟨strmBase sid + 0x40, 0, 32⟩

/-- CUR_STRM_LAYER_HI. -/
def curStrmLayerHi (sid : Nat) : Fld := ⟨strmBase sid + 0x44, 0, 12⟩

/-- CUR_STRM_OP. -/
def curStrmOp (sid : Nat) : Fld := ⟨strmBase sid + 0x48, 0, 3⟩

/-- CUR_STRM_WAVE. -/
def curStrmWave (sid : Nat) : Fld := ⟨strmBase sid + 0x48, 8, 6⟩

/-- CUR_STRM_SEQ. -/
def curStrmSeq (sid : Nat) : Fld := ⟨strmBase sid + 0x4c, 0, 32⟩

/-- VLT_SCRATCH_GIB. -/
def vltScratchGib (d : Nat) : Fld := ⟨dieBase d + 0x0, 0, 6⟩

/-- VLT_PART_BUSY. -/
def vltPartBusy (d : Nat) : Fld := ⟨dieBase d + 0x4, 0, 1⟩

/-- VLT_FLUSH. -/
def vltFlush (d : Nat) : Fld := ⟨dieBase d + 0x8, 0, 1⟩

/-- VLT_INVALIDATE. -/
def vltInvalidate (d : Nat) : Fld := ⟨dieBase d + 0x8, 1, 1⟩

/-- VLT_FLUSH_BUSY. -/
def vltFlushBusy (d : Nat) : Fld := ⟨dieBase d + 0xc, 0, 1⟩

/-- VLT_QUIRE_EN. -/
def vltQuireEn (d : Nat) : Fld := ⟨dieBase d + 0x10, 0, 1⟩

/-- VLT_COH_TIMEOUT. -/
def vltCohTimeout (d : Nat) : Fld := ⟨dieBase d + 0x14, 0, 32⟩

/-- VLT_COH_TIMEOUTS. -/
def vltCohTimeouts (d : Nat) : Fld := ⟨dieBase d + 0x18, 0, 32⟩

/-- VLT_COH_LATE. -/
def vltCohLate (d : Nat) : Fld := ⟨dieBase d + 0x1c, 0, 32⟩

/-- VLT_POISONED. -/
def vltPoisoned (d : Nat) : Fld := ⟨dieBase d + 0x20, 0, 32⟩

/-- VLT_THERM_STATE. -/
def vltThermState (d : Nat) : Fld := ⟨dieBase d + 0x24, 0, 3⟩

/-- VLT_VAULT_STATE. -/
def vltVaultState (d : Nat) : Fld := ⟨dieBase d + 0x24, 8, 3⟩

/-- VLT_THROTTLE_CAUSE. -/
def vltThrottleCause (d : Nat) : Fld := ⟨dieBase d + 0x24, 16, 4⟩

/-- VLT_THROTTLE_VAULT. -/
def vltThrottleVault (d : Nat) : Fld := ⟨dieBase d + 0x24, 20, 1⟩

/-- VLT_TEMP_MAX. -/
def vltTempMax (d : Nat) : Fld := ⟨dieBase d + 0x28, 0, 8⟩

/-- VLT_THERM_T1. -/
def vltThermT1 (d : Nat) : Fld := ⟨dieBase d + 0x2c, 0, 8⟩

/-- VLT_THERM_T2. -/
def vltThermT2 (d : Nat) : Fld := ⟨dieBase d + 0x2c, 8, 8⟩

/-- VLT_THERM_T3. -/
def vltThermT3 (d : Nat) : Fld := ⟨dieBase d + 0x2c, 16, 8⟩

/-- VLT_THERM_EVENTS. -/
def vltThermEvents (d : Nat) : Fld := ⟨dieBase d + 0x30, 0, 32⟩

/-- VLT_ATTR_LOCK. -/
def vltAttrLock (d : Nat) : Fld := ⟨dieBase d + 0x34, 0, 1⟩

/-- VLT_ATTR_REFUSED. -/
def vltAttrRefused (d : Nat) : Fld := ⟨dieBase d + 0x38, 0, 16⟩

/-- VLT_SCRUB_BUSY. -/
def vltScrubBusy (d : Nat) : Fld := ⟨dieBase d + 0x3c, 0, 1⟩

/-- VLT_PAGE_ATTR_w. -/
def vltPageAttr (d : Nat) (i : Nat) : Fld := ⟨dieBase d + 0x400 + i * 4, 0, 32⟩

/-- VLT_TICKETS. -/
def vltTickets (d s : Nat) : Fld := ⟨dieBase d + 0x80000 + s * 0x1000 + 0x0, 0, 32⟩

/-- VLT_LFSR_SEED. -/
def vltLfsrSeed (d s : Nat) : Fld := ⟨dieBase d + 0x80000 + s * 0x1000 + 0x4, 0, 32⟩

/-- VLT_LFSR. -/
def vltLfsr (d s : Nat) : Fld := ⟨dieBase d + 0x80000 + s * 0x1000 + 0x8, 0, 32⟩

/-- VLT_GRANTS_p. -/
def vltGrants (d s : Nat) (i : Nat) : Fld := ⟨dieBase d + 0x80000 + s * 0x1000 + 0x10 + i * 4, 0, 32⟩

/-- VLT_GUARD_GRANTS_p. -/
def vltGuardGrants (d s : Nat) (i : Nat) : Fld := ⟨dieBase d + 0x80000 + s * 0x1000 + 0x30 + i * 4, 0, 32⟩

/-- VLT_IDLE_DRAWS. -/
def vltIdleDraws (d s : Nat) : Fld := ⟨dieBase d + 0x80000 + s * 0x1000 + 0x50, 0, 32⟩

/-- VLT_COH_EVICTS. -/
def vltCohEvicts (d s : Nat) : Fld := ⟨dieBase d + 0x80000 + s * 0x1000 + 0x54, 0, 32⟩

/-- VLT_SLICE_SCRATCH_MIB. -/
def vltSliceScratchMib (d s : Nat) : Fld := ⟨dieBase d + 0x80000 + s * 0x1000 + 0x58, 0, 10⟩

/-- VLT_SLICE_TEMP. -/
def vltSliceTemp (d s : Nat) : Fld := ⟨dieBase d + 0x80000 + s * 0x1000 + 0x5c, 0, 8⟩

/-- VLT_ATOMICS. -/
def vltAtomics (d s : Nat) : Fld := ⟨dieBase d + 0x80000 + s * 0x1000 + 0x60, 0, 32⟩

/-- VLT_EXACT_OPS. -/
def vltExactOps (d s : Nat) : Fld := ⟨dieBase d + 0x80000 + s * 0x1000 + 0x64, 0, 32⟩

/-- VLT_MISSES. -/
def vltMisses (d s : Nat) : Fld := ⟨dieBase d + 0x80000 + s * 0x1000 + 0x68, 0, 32⟩

/-- HBM_TEMP. -/
def hbmTemp (k : Nat) : Fld := ⟨hbmBase k + 0x0, 0, 8⟩

/-- HBM_THERM_STATE. -/
def hbmThermState (k : Nat) : Fld := ⟨hbmBase k + 0x4, 0, 3⟩

/-- HBM_REFRESH_MULT. -/
def hbmRefreshMult (k : Nat) : Fld := ⟨hbmBase k + 0x4, 8, 2⟩

/-- HBM_THERM_T1. -/
def hbmThermT1 (k : Nat) : Fld := ⟨hbmBase k + 0x8, 0, 8⟩

/-- HBM_THERM_T2. -/
def hbmThermT2 (k : Nat) : Fld := ⟨hbmBase k + 0x8, 8, 8⟩

/-- HBM_THERM_T3. -/
def hbmThermT3 (k : Nat) : Fld := ⟨hbmBase k + 0x8, 16, 8⟩

/-- HBM_READ_BYTES. -/
def hbmReadBytes (k : Nat) : Fld := ⟨hbmBase k + 0x10, 0, 64⟩

/-- HBM_WRITE_BYTES. -/
def hbmWriteBytes (k : Nat) : Fld := ⟨hbmBase k + 0x18, 0, 64⟩

/-- HBM_FAR_BYTES. -/
def hbmFarBytes (k : Nat) : Fld := ⟨hbmBase k + 0x20, 0, 64⟩

/-- HBM_BEATER_BYTES. -/
def hbmBeaterBytes (k : Nat) : Fld := ⟨hbmBase k + 0x28, 0, 64⟩

/-- HBM_CNT_CLEAR. -/
def hbmCntClear (k : Nat) : Fld := ⟨hbmBase k + 0x30, 0, 1⟩

/-- BTR_EPOCH. -/
def btrEpoch (k : Nat) : Fld := ⟨btrBase k + 0x40, 0, 32⟩

/-- BTR_SEED_LO. -/
def btrSeedLo (k : Nat) : Fld := ⟨btrBase k + 0x44, 0, 32⟩

/-- BTR_SEED_HI. -/
def btrSeedHi (k : Nat) : Fld := ⟨btrBase k + 0x48, 0, 32⟩

/-- BTR_WM_KEY_LO. -/
def btrWmKeyLo (k : Nat) : Fld := ⟨btrBase k + 0x4c, 0, 32⟩

/-- BTR_WM_KEY_HI. -/
def btrWmKeyHi (k : Nat) : Fld := ⟨btrBase k + 0x50, 0, 32⟩

/-- BTR_WM_PERIOD. -/
def btrWmPeriod (k : Nat) : Fld := ⟨btrBase k + 0x54, 0, 16⟩

/-- BTR_LANES. -/
def btrLanes (k : Nat) : Fld := ⟨btrBase k + 0x58, 0, 7⟩

/-- BTR_SPARES. -/
def btrSpares (k : Nat) : Fld := ⟨btrBase k + 0x58, 8, 3⟩

/-- BTR_NONFINITE. -/
def btrNonfinite (k : Nat) : Fld := ⟨btrBase k + 0x5c, 0, 32⟩

/-- BTR_GRAD_UNDERFLOW. -/
def btrGradUnderflow (k : Nat) : Fld := ⟨btrBase k + 0x60, 0, 32⟩

/-- BTR_WM_MISMATCH. -/
def btrWmMismatch (k : Nat) : Fld := ⟨btrBase k + 0x64, 0, 32⟩

/-- BTR_INTEGRITY. -/
def btrIntegrity (k : Nat) : Fld := ⟨btrBase k + 0x68, 0, 32⟩

/-- BTR_REGENS. -/
def btrRegens (k : Nat) : Fld := ⟨btrBase k + 0x6c, 0, 32⟩

/-- BTR_BLOCKS_UPDATED. -/
def btrBlocksUpdated (k : Nat) : Fld := ⟨btrBase k + 0x70, 0, 64⟩

/-- BTR_LEND_MODE. -/
def btrLendMode (k : Nat) : Fld := ⟨btrBase k + 0x78, 0, 1⟩

/-- BTR_LEND_MASTER. -/
def btrLendMaster (k : Nat) : Fld := ⟨btrBase k + 0x78, 8, 6⟩

/-- BTR_CNT_CLEAR. -/
def btrCntClear (k : Nat) : Fld := ⟨btrBase k + 0x7c, 0, 1⟩

/-- COL_GRP_ENABLE. -/
def colGrpEnable (g : Nat) : Fld := ⟨0x41000 + g * 0x40 + 0x0, 0, 1⟩

/-- COL_GRP_STATE. -/
def colGrpState (g : Nat) : Fld := ⟨0x41000 + g * 0x40 + 0x0, 1, 3⟩

/-- COL_GRP_STATUS. -/
def colGrpStatus (g : Nat) : Fld := ⟨0x41000 + g * 0x40 + 0x0, 16, 16⟩

/-- COL_GRP_MEMBERS. -/
def colGrpMembers (g : Nat) : Fld := ⟨0x41000 + g * 0x40 + 0x4, 0, 13⟩

/-- COL_GRP_MY_RANK. -/
def colGrpMyRank (g : Nat) : Fld := ⟨0x41000 + g * 0x40 + 0x4, 16, 13⟩

/-- ORIGIN_X. -/
def grpOriginX (g : Nat) : Fld := ⟨0x41000 + g * 0x40 + 0x8, 0, 4⟩

/-- ORIGIN_Y. -/
def grpOriginY (g : Nat) : Fld := ⟨0x41000 + g * 0x40 + 0x8, 4, 4⟩

/-- ORIGIN_Z. -/
def grpOriginZ (g : Nat) : Fld := ⟨0x41000 + g * 0x40 + 0x8, 8, 4⟩

/-- EXT_X. -/
def grpExtX (g : Nat) : Fld := ⟨0x41000 + g * 0x40 + 0x8, 12, 5⟩

/-- EXT_Y. -/
def grpExtY (g : Nat) : Fld := ⟨0x41000 + g * 0x40 + 0x8, 17, 5⟩

/-- EXT_Z. -/
def grpExtZ (g : Nat) : Fld := ⟨0x41000 + g * 0x40 + 0x8, 22, 5⟩

/-- ORDER. -/
def grpOrder (g : Nat) : Fld := ⟨0x41000 + g * 0x40 + 0x8, 27, 3⟩

/-- STRIDE_X. -/
def grpStrideX (g : Nat) : Fld := ⟨0x41000 + g * 0x40 + 0xc, 0, 4⟩

/-- STRIDE_Y. -/
def grpStrideY (g : Nat) : Fld := ⟨0x41000 + g * 0x40 + 0xc, 4, 4⟩

/-- STRIDE_Z. -/
def grpStrideZ (g : Nat) : Fld := ⟨0x41000 + g * 0x40 + 0xc, 8, 4⟩

/-- EXTRA. -/
def grpExtra (g : Nat) : Fld := ⟨0x41000 + g * 0x40 + 0xc, 12, 3⟩

/-- EXTRA_0. -/
def grpExtra0 (g : Nat) : Fld := ⟨0x41000 + g * 0x40 + 0x10, 0, 12⟩

/-- EXTRA_1. -/
def grpExtra1 (g : Nat) : Fld := ⟨0x41000 + g * 0x40 + 0x10, 16, 12⟩

/-- EXTRA_2. -/
def grpExtra2 (g : Nat) : Fld := ⟨0x41000 + g * 0x40 + 0x14, 0, 12⟩

/-- EXTRA_3. -/
def grpExtra3 (g : Nat) : Fld := ⟨0x41000 + g * 0x40 + 0x14, 16, 12⟩

/-- COL_GRP_CELLS. -/
def colGrpCells (g : Nat) : Fld := ⟨0x41000 + g * 0x40 + 0x18, 0, 16⟩

/-- COL_GRP_TIMEOUT. -/
def colGrpTimeout (g : Nat) : Fld := ⟨0x41000 + g * 0x40 + 0x1c, 0, 32⟩

/-- COL_GRP_NEXT_SEQ. -/
def colGrpNextSeq (g : Nat) : Fld := ⟨0x41000 + g * 0x40 + 0x20, 0, 32⟩

/-- COL_GRP_INFLIGHT. -/
def colGrpInflight (g : Nat) : Fld := ⟨0x41000 + g * 0x40 + 0x24, 0, 3⟩

/-- COL_GRP_SIGNATURE. -/
def colGrpSignature (g : Nat) : Fld := ⟨0x41000 + g * 0x40 + 0x28, 0, 32⟩

/-- COL_GRP_LATE. -/
def colGrpLate (g : Nat) : Fld := ⟨0x41000 + g * 0x40 + 0x2c, 0, 32⟩

/-- COL_GRP_FAILS. -/
def colGrpFails (g : Nat) : Fld := ⟨0x41000 + g * 0x40 + 0x30, 0, 32⟩

/-- COL_STEP_OK. -/
def colStepOk : Fld := ⟨0x40000 + 0x0, 0, 1⟩

/-- COL_VETO. -/
def colVeto : Fld := ⟨0x40000 + 0x4, 0, 5⟩

/-- COL_COMMIT_TIMEOUT. -/
def colCommitTimeout : Fld := ⟨0x40000 + 0x8, 0, 32⟩

/-- COL_RETRY_LIMIT. -/
def colRetryLimit : Fld := ⟨0x40000 + 0xc, 0, 2⟩

/-- COL_CHECK_FAILS. -/
def colCheckFails : Fld := ⟨0x40000 + 0x10, 0, 32⟩

/-- COL_RETRANSMITS. -/
def colRetransmits : Fld := ⟨0x40000 + 0x14, 0, 32⟩

/-- COL_STAGE_FAILS. -/
def colStageFails : Fld := ⟨0x40000 + 0x18, 0, 32⟩

/-- COL_TAINT_EVENTS. -/
def colTaintEvents : Fld := ⟨0x40000 + 0x1c, 0, 32⟩

/-- COL_DECISION. -/
def colDecision : Fld := ⟨0x40000 + 0x20, 0, 2⟩

/-- COL_DECISION_SEQ. -/
def colDecisionSeq : Fld := ⟨0x40000 + 0x24, 0, 32⟩

/-- COL_DECISION_GROUP. -/
def colDecisionGroup : Fld := ⟨0x40000 + 0x28, 0, 6⟩

/-- COL_ACTIVE. -/
def colActive : Fld := ⟨0x40000 + 0x2c, 0, 9⟩

/-- COL_STRM_GROUP. -/
def colStrmGroup (sid : Nat) : Fld := ⟨strmBase sid + 0x40, 0, 6⟩

/-- COL_STRM_SEQ. -/
def colStrmSeq (sid : Nat) : Fld := ⟨strmBase sid + 0x44, 0, 32⟩

/-- COL_STRM_PART. -/
def colStrmPart (sid : Nat) : Fld := ⟨strmBase sid + 0x48, 0, 2⟩

/-- CHN_X. -/
def chnX : Fld := ⟨0x70000 + 0x0, 0, 4⟩

/-- CHN_Y. -/
def chnY : Fld := ⟨0x70000 + 0x0, 4, 4⟩

/-- CHN_Z. -/
def chnZ : Fld := ⟨0x70000 + 0x0, 8, 4⟩

/-- CHN_EXT_X. -/
def chnExtX : Fld := ⟨0x70000 + 0x4, 0, 2⟩

/-- CHN_EXT_Y. -/
def chnExtY : Fld := ⟨0x70000 + 0x4, 2, 2⟩

/-- CHN_EXT_Z. -/
def chnExtZ : Fld := ⟨0x70000 + 0x4, 4, 2⟩

/-- CHN_FABRIC_EN. -/
def chnFabricEn : Fld := ⟨0x70000 + 0x8, 0, 1⟩

/-- CHN_RACK_MASTER. -/
def chnRackMaster : Fld := ⟨0x70000 + 0xc, 0, 6⟩

/-- CHN_SYS_MASTER. -/
def chnSysMaster : Fld := ⟨0x70000 + 0xc, 8, 6⟩

/-- CHN_RACK_MASTER_ACT. -/
def chnRackMasterAct : Fld := ⟨0x70000 + 0xc, 16, 6⟩

/-- CHN_REQ_BUDGET. -/
def chnReqBudget : Fld := ⟨0x70000 + 0x10, 0, 16⟩

/-- CHN_RETRY_INTERVAL. -/
def chnRetryInterval : Fld := ⟨0x70000 + 0x14, 0, 16⟩

/-- CHN_ORDER_TIMEOUT. -/
def chnOrderTimeout : Fld := ⟨0x70000 + 0x18, 0, 32⟩

/-- CHN_LIVE_PERIOD. -/
def chnLivePeriod : Fld := ⟨0x70000 + 0x1c, 0, 32⟩

/-- CHN_LIVE_TIMEOUT. -/
def chnLiveTimeout : Fld := ⟨0x70000 + 0x20, 0, 32⟩

/-- CHN_REACH_GEN. -/
def chnReachGen : Fld := ⟨0x70000 + 0x24, 0, 32⟩

/-- CHN_ACC_NEXT_LO. -/
def chnAccNextLo : Fld := ⟨0x70000 + 0x28, 0, 32⟩

/-- CHN_ACC_NEXT_HI. -/
def chnAccNextHi : Fld := ⟨0x70000 + 0x2c, 0, 16⟩

/-- CHN_OUTSTANDING. -/
def chnOutstanding : Fld := ⟨0x70000 + 0x30, 0, 14⟩

/-- CHN_RETRIES. -/
def chnRetries : Fld := ⟨0x70000 + 0x34, 0, 32⟩

/-- CHN_LATE. -/
def chnLate : Fld := ⟨0x70000 + 0x38, 0, 32⟩

/-- CHN_DEAD. -/
def chnDead : Fld := ⟨0x70000 + 0x3c, 0, 32⟩

/-- CHN_UNKNOWN. -/
def chnUnknown : Fld := ⟨0x70000 + 0x40, 0, 32⟩

/-- CHN_DUP_HITS. -/
def chnDupHits : Fld := ⟨0x70000 + 0x44, 0, 32⟩

/-- CHN_STALE. -/
def chnStale : Fld := ⟨0x70000 + 0x48, 0, 32⟩

/-- CHN_ORDER_HELD. -/
def chnOrderHeld : Fld := ⟨0x70000 + 0x4c, 0, 16⟩

/-- CHN_ORDER_TIMEOUTS. -/
def chnOrderTimeouts : Fld := ⟨0x70000 + 0x50, 0, 32⟩

/-- CHN_ORDER_LATE. -/
def chnOrderLate : Fld := ⟨0x70000 + 0x54, 0, 32⟩

/-- CHN_BROKEN_LO. -/
def chnBrokenLo : Fld := ⟨0x70000 + 0x58, 0, 32⟩

/-- CHN_BROKEN_HI. -/
def chnBrokenHi : Fld := ⟨0x70000 + 0x5c, 0, 32⟩

/-- CHN_RESYNC_DEST. -/
def chnResyncDest : Fld := ⟨0x70000 + 0x60, 0, 6⟩

/-- CHN_RESYNC_GO. -/
def chnResyncGo : Fld := ⟨0x70000 + 0x60, 8, 1⟩

/-- CHN_RESYNC_BUSY. -/
def chnResyncBusy : Fld := ⟨0x70000 + 0x64, 0, 1⟩

/-- CHN_RESYNC_STATUS. -/
def chnResyncStatus : Fld := ⟨0x70000 + 0x64, 16, 16⟩

/-- CHN_LIVE_LATE. -/
def chnLiveLate : Fld := ⟨0x70000 + 0x68, 0, 32⟩

/-- CHN_RI_TGT_LO. -/
def chnRiTgtLo : Fld := ⟨0x70000 + 0x100, 0, 32⟩

/-- CHN_RI_TGT_HI. -/
def chnRiTgtHi : Fld := ⟨0x70000 + 0x104, 0, 18⟩

/-- CHN_RI_OP. -/
def chnRiOp : Fld := ⟨0x70000 + 0x104, 18, 4⟩

/-- CHN_RI_SIZE8. -/
def chnRiSize8 : Fld := ⟨0x70000 + 0x104, 22, 1⟩

/-- CHN_RI_V. -/
def chnRiV : Fld := ⟨0x70000 + 0x108, 0, 64⟩

/-- CHN_RI_C. -/
def chnRiC : Fld := ⟨0x70000 + 0x110, 0, 64⟩

/-- CHN_RI_ACC_LO. -/
def chnRiAccLo : Fld := ⟨0x70000 + 0x118, 0, 32⟩

/-- CHN_RI_ACC_HI. -/
def chnRiAccHi : Fld := ⟨0x70000 + 0x11c, 0, 16⟩

/-- CHN_RI_GO. -/
def chnRiGo : Fld := ⟨0x70000 + 0x120, 0, 1⟩

/-- CHN_RI_BUSY. -/
def chnRiBusy : Fld := ⟨0x70000 + 0x124, 0, 1⟩

/-- CHN_RI_STATUS. -/
def chnRiStatus : Fld := ⟨0x70000 + 0x124, 16, 16⟩

/-- CHN_RI_RESULT. -/
def chnRiResult : Fld := ⟨0x70000 + 0x128, 0, 64⟩

/-- CHN_REACH_w. -/
def chnReach (i : Nat) : Fld := ⟨0x70000 + 0x1000 + i * 4, 0, 32⟩

/-- CHN_ROUTE_i. -/
def chnRoute (i : Nat) : Fld := ⟨0x70000 + 0x2000 + i * 4, 0, 18⟩

/-- CHN_SYS_ROUTE_r. -/
def chnSysRoute (i : Nat) : Fld := ⟨0x70000 + 0x2100 + i * 4, 0, 18⟩

/-- CHN_PORT_STATE. -/
def chnPortState (p : Nat) : Fld := ⟨0x80000 + p * 0x1000 + 0x0, 0, 4⟩

/-- CHN_PORT_WIDTH. -/
def chnPortWidth (p : Nat) : Fld := ⟨0x80000 + p * 0x1000 + 0x0, 4, 4⟩

/-- CHN_PORT_ENABLE. -/
def chnPortEnable (p : Nat) : Fld := ⟨0x80000 + p * 0x1000 + 0x4, 0, 1⟩

/-- CHN_PORT_RETRAIN. -/
def chnPortRetrain (p : Nat) : Fld := ⟨0x80000 + p * 0x1000 + 0x4, 1, 1⟩

/-- CHN_LANE_MAP. -/
def chnLaneMap (p : Nat) : Fld := ⟨0x80000 + p * 0x1000 + 0x8, 0, 32⟩

/-- CHN_SPARE_USED. -/
def chnSpareUsed (p : Nat) : Fld := ⟨0x80000 + p * 0x1000 + 0xc, 0, 1⟩

/-- CHN_SPARE_FOR. -/
def chnSpareFor (p : Nat) : Fld := ⟨0x80000 + p * 0x1000 + 0xc, 4, 4⟩

/-- CHN_PEER_INDEX. -/
def chnPeerIndex (p : Nat) : Fld := ⟨0x80000 + p * 0x1000 + 0x10, 0, 12⟩

/-- CHN_PEER_PORT. -/
def chnPeerPort (p : Nat) : Fld := ⟨0x80000 + p * 0x1000 + 0x10, 16, 6⟩

/-- CHN_RETRAIN_LIMIT. -/
def chnRetrainLimit (p : Nat) : Fld := ⟨0x80000 + p * 0x1000 + 0x14, 0, 4⟩

/-- CHN_TRAIN_FAILS. -/
def chnTrainFails (p : Nat) : Fld := ⟨0x80000 + p * 0x1000 + 0x18, 0, 32⟩

/-- CHN_LANE_SER_LIMIT. -/
def chnLaneSerLimit (p : Nat) : Fld := ⟨0x80000 + p * 0x1000 + 0x1c, 0, 16⟩

/-- CHN_FEC_CORRECTED. -/
def chnFecCorrected (p : Nat) : Fld := ⟨0x80000 + p * 0x1000 + 0x20, 0, 32⟩

/-- CHN_FEC_UNCORRECTED. -/
def chnFecUncorrected (p : Nat) : Fld := ⟨0x80000 + p * 0x1000 + 0x24, 0, 32⟩

/-- CHN_REPLAYS. -/
def chnReplays (p : Nat) : Fld := ⟨0x80000 + p * 0x1000 + 0x28, 0, 32⟩

/-- CHN_BAD_PKT. -/
def chnBadPkt (p : Nat) : Fld := ⟨0x80000 + p * 0x1000 + 0x2c, 0, 32⟩

/-- CHN_TX_BYTES. -/
def chnTxBytes (p : Nat) : Fld := ⟨0x80000 + p * 0x1000 + 0x30, 0, 64⟩

/-- CHN_RX_BYTES. -/
def chnRxBytes (p : Nat) : Fld := ⟨0x80000 + p * 0x1000 + 0x38, 0, 64⟩

/-- CHN_CREDIT_c. -/
def chnCredit (p : Nat) (i : Nat) : Fld := ⟨0x80000 + p * 0x1000 + 0x40 + i * 4, 0, 16⟩

/-- VAT_CELLS_p. -/
def vatCells (p : Nat) : Fld := ⟨0x60000 + p * 0x20 + 0x0, 0, 18⟩

/-- VAT_USED_p. -/
def vatUsed (p : Nat) : Fld := ⟨0x60000 + p * 0x20 + 0x4, 0, 18⟩

/-- VAT_PEAK_p. -/
def vatPeak (p : Nat) : Fld := ⟨0x60000 + p * 0x20 + 0x8, 0, 18⟩

/-- VAT_LEVEL_p. -/
def vatLevel (p : Nat) : Fld := ⟨0x60000 + p * 0x20 + 0xc, 0, 2⟩

/-- VAT_WARNS_p. -/
def vatWarns (p : Nat) : Fld := ⟨0x60000 + p * 0x20 + 0x10, 0, 32⟩

/-- VAT_BP_p. -/
def vatBp (p : Nat) : Fld := ⟨0x60000 + p * 0x20 + 0x14, 0, 32⟩

/-- VAT_REFUSED_p. -/
def vatRefused (p : Nat) : Fld := ⟨0x60000 + p * 0x20 + 0x18, 0, 32⟩

/-- VAT_IRQ_VEC. -/
def vatIrqVec : Fld := ⟨0x60000 + 0x100, 0, 10⟩

/-- VAT_TOTAL. -/
def vatTotal : Fld := ⟨0x60000 + 0x104, 0, 18⟩

/-- PRS_TAU_EXP. -/
def prsTauExp (d : Nat) : Fld := ⟨dieBase d + 0x10000 + 0x0, 0, 8⟩

/-- PRS_STORE_BYTES. -/
def prsStoreBytes (d : Nat) : Fld := ⟨dieBase d + 0x10000 + 0x4, 0, 32⟩

/-- PRS_RUNNING. -/
def prsRunning (d : Nat) : Fld := ⟨dieBase d + 0x10000 + 0x8, 0, 3⟩

/-- PRS_FACTORS. -/
def prsFactors (d : Nat) : Fld := ⟨dieBase d + 0x10000 + 0xc, 0, 32⟩

/-- PRS_PIVOTS. -/
def prsPivots (d : Nat) : Fld := ⟨dieBase d + 0x10000 + 0x10, 0, 32⟩

/-- PRS_DEADLINE_MISSES. -/
def prsDeadlineMisses (d : Nat) : Fld := ⟨dieBase d + 0x10000 + 0x14, 0, 32⟩

/-- PRS_NUMERIC_FAILS. -/
def prsNumericFails (d : Nat) : Fld := ⟨dieBase d + 0x10000 + 0x18, 0, 32⟩

/-- PRS_NOT_CONVERGED. -/
def prsNotConverged (d : Nat) : Fld := ⟨dieBase d + 0x10000 + 0x1c, 0, 32⟩

/-- PRS_YIELDS. -/
def prsYields (d : Nat) : Fld := ⟨dieBase d + 0x10000 + 0x20, 0, 32⟩

/-- PRS_BUSY_CYCLES. -/
def prsBusyCycles (d : Nat) : Fld := ⟨dieBase d + 0x10000 + 0x28, 0, 64⟩

/-- PRS_CNT_CLEAR. -/
def prsCntClear (d : Nat) : Fld := ⟨dieBase d + 0x10000 + 0x30, 0, 1⟩

/-- PRS_STRM_PROBLEM. -/
def prsStrmProblem (sid : Nat) : Fld := ⟨strmBase sid + 0x40, 0, 12⟩

/-- PRS_STRM_ITER. -/
def prsStrmIter (sid : Nat) : Fld := ⟨strmBase sid + 0x44, 0, 16⟩

/-- PRS_STRM_PHASE. -/
def prsStrmPhase (sid : Nat) : Fld := ⟨strmBase sid + 0x48, 0, 3⟩

/-- PRS_STRM_CYCLES. -/
def prsStrmCycles (sid : Nat) : Fld := ⟨strmBase sid + 0x4c, 0, 32⟩

/-- HTX_MB_OPCODE. -/
def htxMbOpcode (m : Nat) : Fld := ⟨0x11000 + m * 0x1000 + 0x0, 0, 16⟩

/-- HTX_MB_TAG. -/
def htxMbTag (m : Nat) : Fld := ⟨0x11000 + m * 0x1000 + 0x0, 16, 16⟩

/-- HTX_MB_REQ_LEN. -/
def htxMbReqLen (m : Nat) : Fld := ⟨0x11000 + m * 0x1000 + 0x4, 0, 12⟩

/-- HTX_MB_GO. -/
def htxMbGo (m : Nat) : Fld := ⟨0x11000 + m * 0x1000 + 0x8, 0, 1⟩

/-- HTX_MB_STATE. -/
def htxMbState (m : Nat) : Fld := ⟨0x11000 + m * 0x1000 + 0xc, 0, 2⟩

/-- HTX_MB_BOUND. -/
def htxMbBound (m : Nat) : Fld := ⟨0x11000 + m * 0x1000 + 0xc, 8, 1⟩

/-- HTX_MB_STATUS. -/
def htxMbStatus (m : Nat) : Fld := ⟨0x11000 + m * 0x1000 + 0x10, 0, 16⟩

/-- HTX_MB_REPLY_LEN. -/
def htxMbReplyLen (m : Nat) : Fld := ⟨0x11000 + m * 0x1000 + 0x14, 0, 12⟩

/-- HTX_MB_ACC_LO. -/
def htxMbAccLo (m : Nat) : Fld := ⟨0x11000 + m * 0x1000 + 0x18, 0, 32⟩

/-- HTX_MB_ACC_HI. -/
def htxMbAccHi (m : Nat) : Fld := ⟨0x11000 + m * 0x1000 + 0x1c, 0, 16⟩

/-- HTX_MB_IRQ_VEC. -/
def htxMbIrqVec (m : Nat) : Fld := ⟨0x11000 + m * 0x1000 + 0x20, 0, 10⟩

/-- HTX_MB_IRQ_EN. -/
def htxMbIrqEn (m : Nat) : Fld := ⟨0x11000 + m * 0x1000 + 0x20, 16, 1⟩

/-- HTX_MB_IGNORED. -/
def htxMbIgnored (m : Nat) : Fld := ⟨0x11000 + m * 0x1000 + 0x24, 0, 16⟩

/-- HTX_MB_PROGRESS. -/
def htxMbProgress (m : Nat) : Fld := ⟨0x11000 + m * 0x1000 + 0x28, 0, 32⟩

/-- HTX_SQ_BASE_LO. -/
def htxSqBaseLo (q : Nat) : Fld := ⟨0x10400 + q * 0x20 + 0x0, 12, 20⟩

/-- HTX_SQ_BASE_HI. -/
def htxSqBaseHi (q : Nat) : Fld := ⟨0x10400 + q * 0x20 + 0x4, 0, 16⟩

/-- HTX_CQ_BASE_LO. -/
def htxCqBaseLo (q : Nat) : Fld := ⟨0x10400 + q * 0x20 + 0x8, 12, 20⟩

/-- HTX_CQ_BASE_HI. -/
def htxCqBaseHi (q : Nat) : Fld := ⟨0x10400 + q * 0x20 + 0xc, 0, 16⟩

/-- HTX_SQ_SIZE. -/
def htxSqSize (q : Nat) : Fld := ⟨0x10400 + q * 0x20 + 0x10, 0, 4⟩

/-- HTX_SQ_ENABLE. -/
def htxSqEnable (q : Nat) : Fld := ⟨0x10400 + q * 0x20 + 0x10, 8, 1⟩

/-- HTX_SQ_RESUME. -/
def htxSqResume (q : Nat) : Fld := ⟨0x10400 + q * 0x20 + 0x10, 9, 1⟩

/-- HTX_SQ_RESET. -/
def htxSqReset (q : Nat) : Fld := ⟨0x10400 + q * 0x20 + 0x10, 10, 1⟩

/-- HTX_SQ_HEAD. -/
def htxSqHead (q : Nat) : Fld := ⟨0x10400 + q * 0x20 + 0x14, 0, 12⟩

/-- HTX_CQ_TAIL. -/
def htxCqTail (q : Nat) : Fld := ⟨0x10400 + q * 0x20 + 0x14, 16, 12⟩

/-- HTX_SQ_IRQ_VEC. -/
def htxSqIrqVec (q : Nat) : Fld := ⟨0x10400 + q * 0x20 + 0x18, 0, 10⟩

/-- HTX_SQ_STATE. -/
def htxSqState (q : Nat) : Fld := ⟨0x10400 + q * 0x20 + 0x1c, 0, 2⟩

/-- HTX_SQ_LAST_STATUS. -/
def htxSqLastStatus (q : Nat) : Fld := ⟨0x10400 + q * 0x20 + 0x1c, 16, 16⟩

/-- HTX_IM_ENABLE. -/
def htxImEnable (v : Nat) : Fld := ⟨0x1A000 + v * 4 + 0x0, 0, 1⟩

/-- HTX_IM_HART. -/
def htxImHart (v : Nat) : Fld := ⟨0x1A000 + v * 4 + 0x0, 1, 5⟩

/-- HTX_IM_EIID. -/
def htxImEiid (v : Nat) : Fld := ⟨0x1A000 + v * 4 + 0x0, 6, 11⟩

/-- HTX_IM_MFILE. -/
def htxImMfile (v : Nat) : Fld := ⟨0x1A000 + v * 4 + 0x0, 17, 1⟩

/-- HTX_IM_PENDING. -/
def htxImPending (v : Nat) : Fld := ⟨0x1A000 + v * 4 + 0x0, 31, 1⟩

/-- RGS_FW_STATE. -/
def rgsFwState : Fld := ⟨0x4000 + 0x0, 0, 2⟩

/-- RGS_FW_VERSION. -/
def rgsFwVersion : Fld := ⟨0x4000 + 0x4, 0, 32⟩

/-- RGS_FW_SVN. -/
def rgsFwSvn : Fld := ⟨0x4000 + 0x8, 0, 16⟩

/-- RGS_ROM_VERSION. -/
def rgsRomVersion : Fld := ⟨0x4000 + 0xc, 0, 16⟩

/-- RGS_CORES. -/
def rgsCores : Fld := ⟨0x4000 + 0x10, 0, 4⟩

/-- RGS_SPARE_USED. -/
def rgsSpareUsed : Fld := ⟨0x4000 + 0x10, 8, 1⟩

/-- RGS_HEARTBEAT. -/
def rgsHeartbeat : Fld := ⟨0x4000 + 0x14, 0, 32⟩

/-- RGS_JOB_STATE. -/
def rgsJobState : Fld := ⟨0x4000 + 0x18, 0, 3⟩

/-- RGS_JOB_ID. -/
def rgsJobId : Fld := ⟨0x4000 + 0x18, 16, 16⟩

/-- RGS_EVENT_IRQ_VEC. -/
def rgsEventIrqVec : Fld := ⟨0x4000 + 0x1c, 0, 10⟩

/-- RGS_EVENT_IRQ_EN. -/
def rgsEventIrqEn : Fld := ⟨0x4000 + 0x1c, 16, 1⟩

/-- RGS_EVENTS. -/
def rgsEvents : Fld := ⟨0x4000 + 0x20, 0, 5⟩

/-- RGS_FW_DIGEST_w. -/
def rgsFwDigest (i : Nat) : Fld := ⟨0x4000 + 0x40 + i * 4, 0, 32⟩

/-- HTX_OWNED. -/
def htxOwned : Fld := ⟨0x10000 + 0x0, 0, 1⟩

/-- HTX_OWNER_MBOX. -/
def htxOwnerMbox : Fld := ⟨0x10000 + 0x0, 8, 7⟩

/-- HTX_OWN_BREAK. -/
def htxOwnBreak : Fld := ⟨0x10000 + 0x4, 0, 1⟩

/-- HTX_WIN_REFUSED. -/
def htxWinRefused : Fld := ⟨0x10000 + 0x8, 0, 32⟩

/-- HTX_WIN_REFUSED_OFFSET. -/
def htxWinRefusedOffset : Fld := ⟨0x10000 + 0xc, 0, 28⟩

/-- HTX_LINK_MODULES. -/
def htxLinkModules : Fld := ⟨0x10000 + 0x10, 0, 4⟩

/-- HTX_BYTES_IN. -/
def htxBytesIn : Fld := ⟨0x10000 + 0x18, 0, 64⟩

/-- HTX_BYTES_OUT. -/
def htxBytesOut : Fld := ⟨0x10000 + 0x20, 0, 64⟩

/-- PWR_GRADE. -/
def pwrGrade : Fld := ⟨0x2000 + 0x0, 0, 2⟩

/-- PWR_LIMIT_FUSED. -/
def pwrLimitFused : Fld := ⟨0x2000 + 0x4, 0, 16⟩

/-- PWR_LIMIT. -/
def pwrLimit : Fld := ⟨0x2000 + 0x8, 0, 16⟩

/-- PWR_WINDOW. -/
def pwrWindow : Fld := ⟨0x2000 + 0xc, 0, 7⟩

/-- PWR_NOW. -/
def pwrNow : Fld := ⟨0x2000 + 0x10, 0, 16⟩

/-- PWR_PEAK. -/
def pwrPeak : Fld := ⟨0x2000 + 0x14, 0, 16⟩

/-- PWR_EDC_0. -/
def pwrEdc0 : Fld := ⟨0x2000 + 0x18, 0, 11⟩

/-- PWR_EDC_1. -/
def pwrEdc1 : Fld := ⟨0x2000 + 0x1c, 0, 11⟩

/-- PWR_RAMP_BUDGET. -/
def pwrRampBudget : Fld := ⟨0x2000 + 0x20, 0, 8⟩

/-- PWR_CAP_CAUSE. -/
def pwrCapCause : Fld := ⟨0x2000 + 0x24, 0, 6⟩

/-- PWR_DUTY. -/
def pwrDuty : Fld := ⟨0x2000 + 0x28, 0, 7⟩

/-- PWR_LIMIT_EVENTS. -/
def pwrLimitEvents : Fld := ⟨0x2000 + 0x2c, 0, 32⟩

/-- PWR_EDC_EVENTS. -/
def pwrEdcEvents : Fld := ⟨0x2000 + 0x30, 0, 32⟩

/-- PWR_BOOT_STAGE. -/
def pwrBootStage : Fld := ⟨0x2000 + 0x34, 0, 4⟩

/-- PWR_BOOT_FAULT. -/
def pwrBootFault : Fld := ⟨0x2000 + 0x34, 16, 16⟩

/-- PWR_BOOT_UNIT_DIE. -/
def pwrBootUnitDie : Fld := ⟨0x2000 + 0x38, 0, 4⟩

/-- PWR_BOOT_UNIT_ITEM. -/
def pwrBootUnitItem : Fld := ⟨0x2000 + 0x38, 4, 8⟩

/-- PWR_RESET_CAUSE. -/
def pwrResetCause : Fld := ⟨0x2000 + 0x3c, 0, 4⟩

/-- PWR_BOOT_COUNT. -/
def pwrBootCount : Fld := ⟨0x2000 + 0x40, 0, 32⟩

/-- PWR_HBM_KEPT. -/
def pwrHbmKept : Fld := ⟨0x2000 + 0x44, 0, 1⟩

/-- PWR_RAMP_WAITS. -/
def pwrRampWaits : Fld := ⟨0x2000 + 0x48, 0, 32⟩

/-- CLK_LOCK. -/
def clkLock : Fld := ⟨0x3000 + 0x0, 0, 30⟩

/-- CLK_CORE_MHZ_0. -/
def clkCoreMhz0 : Fld := ⟨0x3000 + 0x4, 0, 11⟩

/-- CLK_CORE_MHZ_1. -/
def clkCoreMhz1 : Fld := ⟨0x3000 + 0x4, 16, 11⟩

/-- CLK_VAULT_MHZ_0. -/
def clkVaultMhz0 : Fld := ⟨0x3000 + 0x8, 0, 11⟩

/-- CLK_VAULT_MHZ_1. -/
def clkVaultMhz1 : Fld := ⟨0x3000 + 0x8, 16, 11⟩

/-- CLK_HBM_MHZ_k. -/
def clkHbmMhz (i : Nat) : Fld := ⟨0x3000 + 0x10 + i * 4, 0, 11⟩

/-- CLK_BTR_MHZ_k. -/
def clkBtrMhz (i : Nat) : Fld := ⟨0x3000 + 0x10 + i * 4, 16, 11⟩

/-- CLK_STEPS. -/
def clkSteps : Fld := ⟨0x3000 + 0x30, 0, 32⟩

/-- CLK_CNT_i. -/
def clkCnt (i : Nat) : Fld := ⟨0x3000 + 0x100 + i * 8, 0, 64⟩

/-- SEC_ID_CODE_0. -/
def secIdCode0 : Fld := ⟨0 + 0x0, 0, 32⟩

/-- SEC_ID_CODE_1. -/
def secIdCode1 : Fld := ⟨0 + 0x4, 0, 32⟩

/-- SEC_ID_STEP_LETTER. -/
def secIdStepLetter : Fld := ⟨0 + 0x8, 0, 8⟩

/-- SEC_ID_STEP_DIGIT. -/
def secIdStepDigit : Fld := ⟨0 + 0x8, 8, 8⟩

/-- SEC_ID_GRADE. -/
def secIdGrade : Fld := ⟨0 + 0x8, 16, 2⟩

/-- SEC_ID_SVN_FLOOR. -/
def secIdSvnFloor : Fld := ⟨0 + 0xc, 0, 16⟩

/-- SEC_ID_SERIAL_w. -/
def secIdSerial (i : Nat) : Fld := ⟨0 + 0x10 + i * 4, 0, 32⟩

/-- SEC_ID_CERT_LEN. -/
def secIdCertLen : Fld := ⟨0 + 0x20, 0, 12⟩

/-- SEC_ID_FWKEY_REVOKED. -/
def secIdFwkeyRevoked : Fld := ⟨0 + 0x24, 0, 4⟩

/-- SEC_ID_ROOT_HASH_w. -/
def secIdRootHash (i : Nat) : Fld := ⟨0 + 0x40 + i * 4, 0, 32⟩

/-- SEC_ID_FWKEY_HASH_s_w. -/
def secIdFwkeyHash (i w : Nat) : Fld := ⟨0 + 0x80 + i * 0x30 + w * 4, 0, 32⟩

/-- SEC_ID_DBG_HASH_w. -/
def secIdDbgHash (i : Nat) : Fld := ⟨0 + 0x140 + i * 4, 0, 32⟩

/-- SEC_ID_DEVID_HASH_w. -/
def secIdDevidHash (i : Nat) : Fld := ⟨0 + 0x170 + i * 4, 0, 32⟩

/-- SEC_ID_CERT_w. -/
def secIdCert (i : Nat) : Fld := ⟨0 + 0x800 + i * 4, 0, 32⟩

/-- SEC_DEBUG_STATE. -/
def secDebugState : Fld := ⟨0x1000 + 0x0, 0, 1⟩

/-- SEC_DEBUG_PENDING. -/
def secDebugPending : Fld := ⟨0x1000 + 0x0, 8, 1⟩

/-- SEC_MEM_ENC. -/
def secMemEnc : Fld := ⟨0x1000 + 0x4, 0, 1⟩

/-- SEC_KEY_HBM. -/
def secKeyHbm : Fld := ⟨0x1000 + 0x8, 0, 1⟩

/-- SEC_KEY_VAULT. -/
def secKeyVault : Fld := ⟨0x1000 + 0x8, 1, 1⟩

/-- SEC_KEY_HBM_KEPT. -/
def secKeyHbmKept : Fld := ⟨0x1000 + 0x8, 2, 1⟩

/-- SEC_KEY_ALIAS_FW. -/
def secKeyAliasFw : Fld := ⟨0x1000 + 0x8, 3, 1⟩

/-- SEC_LINK_ALLOW_DEBUG. -/
def secLinkAllowDebug : Fld := ⟨0x1000 + 0xc, 0, 1⟩

/-- SEC_LINK_SAME_FW. -/
def secLinkSameFw : Fld := ⟨0x1000 + 0xc, 1, 1⟩

/-- SEC_LINK_REKEY. -/
def secLinkRekey : Fld := ⟨0x1000 + 0x10, 0, 12⟩

/-- SEC_LINK_PSK_w. -/
def secLinkPsk (i : Nat) : Fld := ⟨0x1000 + 0x40 + i * 4, 0, 32⟩

/-- SEC_LINK_AUTH_FAILS. -/
def secLinkAuthFails : Fld := ⟨0x1000 + 0x80, 0, 32⟩

/-- SEC_LINK_REKEYS. -/
def secLinkRekeys : Fld := ⟨0x1000 + 0x84, 0, 32⟩

/-- SEC_FW_AUTH_FAILS. -/
def secFwAuthFails : Fld := ⟨0x1000 + 0x88, 0, 32⟩

/-- SEC_FW_AUTH_REASON. -/
def secFwAuthReason : Fld := ⟨0x1000 + 0x8c, 0, 3⟩

/-- SEC_SPDM_REQUESTS. -/
def secSpdmRequests : Fld := ⟨0x1000 + 0x90, 0, 32⟩

/-- SEC_MEAS_i_w. -/
def secMeas (i w : Nat) : Fld := ⟨0x1000 + 0x200 + i * 0x40 + w * 4, 0, 32⟩

/-- LDG_HEAD. -/
def ldgHead : Fld := ⟨0x6000 + 0x0, 0, 64⟩

/-- LDG_OLDEST. -/
def ldgOldest : Fld := ⟨0x6000 + 0x8, 0, 64⟩

/-- LDG_STALLS. -/
def ldgStalls : Fld := ⟨0x6000 + 0x10, 0, 32⟩

/-- LDG_FWD_TIMEOUT. -/
def ldgFwdTimeout : Fld := ⟨0x6000 + 0x14, 0, 32⟩

/-- LDG_QUERIES. -/
def ldgQueries : Fld := ⟨0x6000 + 0x18, 0, 32⟩

/-- LDG_TAINTED. -/
def ldgTainted : Fld := ⟨0x6000 + 0x1c, 0, 32⟩

/-- LDG_LOST. -/
def ldgLost : Fld := ⟨0x6000 + 0x20, 0, 16⟩

/-- CSV_CORE_SPARES_0. -/
def csvCoreSpares0 : Fld := ⟨0x7000 + 0x0, 0, 4⟩

/-- CSV_CORE_SPARES_1. -/
def csvCoreSpares1 : Fld := ⟨0x7000 + 0x0, 4, 4⟩

/-- CSV_REPLACE_CORE. -/
def csvReplaceCore : Fld := ⟨0x7000 + 0x4, 0, 8⟩

/-- CSV_REPLACE_GO. -/
def csvReplaceGo : Fld := ⟨0x7000 + 0x4, 8, 1⟩

/-- CSV_REPLACE_STATUS. -/
def csvReplaceStatus : Fld := ⟨0x7000 + 0x8, 0, 16⟩

/-- CSV_REPAIRS. -/
def csvRepairs : Fld := ⟨0x7000 + 0xc, 0, 32⟩

/-- CSV_CE_BANK_LIMIT. -/
def csvCeBankLimit : Fld := ⟨0x7000 + 0x10, 0, 16⟩

/-- CSV_CE_ROW_LIMIT. -/
def csvCeRowLimit : Fld := ⟨0x7000 + 0x14, 0, 8⟩

/-- CSV_CE_COUNT. -/
def csvCeCount : Fld := ⟨0x7000 + 0x18, 0, 32⟩

/-- CSV_UE_COUNT. -/
def csvUeCount : Fld := ⟨0x7000 + 0x1c, 0, 32⟩

/-- CSV_PENDING_w. -/
def csvPending (i : Nat) : Fld := ⟨0x7000 + 0x40 + i * 4, 0, 32⟩

/-- CSV_OUT_OF_SERVICE_w. -/
def csvOutOfService (i : Nat) : Fld := ⟨0x7000 + 0x60 + i * 4, 0, 32⟩

/-- CSV_INJ_TARGET. -/
def csvInjTarget : Fld := ⟨0x7000 + 0x80, 0, 8⟩

/-- CSV_INJ_UNIT. -/
def csvInjUnit : Fld := ⟨0x7000 + 0x84, 0, 16⟩

/-- CSV_INJ_DIE. -/
def csvInjDie : Fld := ⟨0x7000 + 0x84, 16, 4⟩

/-- CSV_INJ_KIND. -/
def csvInjKind : Fld := ⟨0x7000 + 0x88, 0, 1⟩

/-- CSV_INJ_COUNT. -/
def csvInjCount : Fld := ⟨0x7000 + 0x8c, 0, 8⟩

/-- CSV_INJ_ARM. -/
def csvInjArm : Fld := ⟨0x7000 + 0x90, 0, 1⟩

/-- CSV_INJ_LOCK. -/
def csvInjLock : Fld := ⟨0x7000 + 0x94, 0, 1⟩

/-- CSV_INJ_DONE. -/
def csvInjDone : Fld := ⟨0x7000 + 0x98, 0, 32⟩

/-- CST_BUSY. -/
def cstBusy : Fld := ⟨0x5000 + 0x0, 0, 1⟩

/-- CST_TIME. -/
def cstTime : Fld := ⟨0x5000 + 0x8, 0, 64⟩

/-- CST_OPS. -/
def cstOps : Fld := ⟨0x5000 + 0x10, 0, 32⟩

/-- CST_ALERT_CAUSE. -/
def cstAlertCause : Fld := ⟨0x5000 + 0x14, 0, 4⟩

/-- CST_I3C_DROPPED. -/
def cstI3cDropped : Fld := ⟨0x5000 + 0x18, 0, 32⟩

/-- CST_IANA_PEN. -/
def cstIanaPen : Fld := ⟨0x5000 + 0x1c, 0, 32⟩

/-- CST_HEARTBEAT_LIMIT. -/
def cstHeartbeatLimit : Fld := ⟨0x5000 + 0x20, 0, 10⟩

/-- HTX_SQ_TAIL_q. -/
def htxSqTail (q : Nat) : Fld := ⟨0x19000 + q * 8, 0, 12⟩

/-- HTX_CQ_HEAD_q. -/
def htxCqHead (q : Nat) : Fld := ⟨0x19004 + q * 8, 0, 12⟩

end Reg

end Sys2Proof.Machine
end

