-- ==== Sys2Proof/Machine/State.lean ====
section
/-! DEFINITION. The state of one ET960 package: every register, memory, buffer, queue, counter and mode the spec gives it, as
plain data. Control-space registers are held in `ctl` by their offset; a register not listed there reads its reset value
(`Sys2Proof.Machine.resetWord`). -/

namespace Sys2Proof.Machine

/-- The block never stops with a fault of its own: every operation ends with a status code, a clamp or no effect (00 R15). No command
raises a fault, and the type has no constructor. -/
inductive Fault where
  deriving DecidableEq, Repr

/-- Reasons not to run a command. -/
inductive Refusal where
  /-- Raised by `exec` for a command that has no meaning in this model yet. Safe. -/
  | notModelled (mnemonic : String)
  deriving DecidableEq, Repr

/-- Who produced a Ledger event (16 R447 Table 2, SRC_KIND and SRC_ID). -/
inductive Src where
  | stream (sid : Nat)
  | mailbox (m : Nat)
  | queue (q : Nat)
  | fabric (pkg : Nat)
  | unit (u : Nat)
  | custodian
  deriving DecidableEq, Repr

/-- A repair record (16 R462 Table 10). -/
structure RepairRec where
  kind  : Nat
  die   : Nat
  stack : Nat
  unit  : Nat
  item  : Nat
  spare : Nat
  cause : Nat
  boot  : Nat
  deriving DecidableEq, Repr

/-- What a Ledger event tells beside its header (16 R447 Table 3). -/
inductive EvBody where
  | issue (cls op : Nat) (restartable : Bool) (pred : Option Nat)
  | start (sig : Signaller)
  | progress (mark : Nat)
  | fin (skipped : Bool) (jobId : Nat) (reqs : Option (Nat × Nat))
  | abandon (mark : Nat)
  | taint (stageAcc : Nat)
  | detect (code die unit item count : Nat)
  | repair (r : RepairRec)
  | appliedRun (source base bitmap : Nat)
  | commit (g seq : Nat) (decision : Bool) (epoch : Nat)
  | late (u : LateUnit) (count : Nat)
  | lateReply (m count : Nat)
  | link (port old new : Nat)
  | keyCheck (port check : Nat)
  | power (cause item value : Nat)
  | lost (unit : Nat)
  | fresh (source : Nat)
  | numeric (tensor count fmt replay rung : Nat)
  | watermark (block replicas owner : Nat)
  | flag (core flag snap final : Nat)
  | coherence (line member : Nat)
  | orderTimeout (source first last discarded : Nat)
  deriving DecidableEq, Repr

/-- One Ledger event (16 R447 Table 2). CYCLES is a time and is left out. -/
structure Ev where
  seq      : Nat
  boot     : Nat
  src      : Src
  acc      : Nat
  status   : Status
  tag      : Nat
  injected : Bool
  taint    : Bool
  body     : EvBody
  deriving DecidableEq, Repr

/-- The Ledger (16 R446–R455): the events of the power-on, newest first, at most 1,048,576; the Custodian's 4,096 newest, kept
across resets; the commands marked TAINTED; those of them marked since the last COMMIT event; the next SEQ. -/
structure Ledger where
  events : List Ev
  tail   : List Ev
  taint  : List (Src × Nat)
  live   : List (Src × Nat)
  next   : Nat
  deriving DecidableEq, Repr

/-- A flag and the last operation applied to it (02 R56, 16 R448). -/
structure Flag where
  val : Word
  by_ : Signaller
  deriving DecidableEq, Repr

/-- How the oldest held command of a stream waits (02 R50, R58). -/
inductive Wait where
  | idle
  | watching
  | polling
  | woken (by_ : Signaller)
  deriving DecidableEq, Repr

/-- A fetched command (02 R44, R47): its accession number, descriptor, ring slot, the faulted number it was fetched again for, the
number its ring slot received when it was first fetched, which tells its place in ring order, the status its fetch ended with, who satisfied its wait, whether START is appended, its progress mark, its own step number where
it runs over several steps, the first and last fabric requests it made (10 R307), its turn in the order its core issued
commands in (03 R68, R86), and what a PRESS command keeps: its record, its count and the status codes of its problems (12 R350, R369). -/
structure Cmd where
  acc     : Nat
  desc    : Block64
  slot    : Nat
  pred    : Option Nat
  first   : Nat
  bad     : Option Status
  sig     : Signaller
  started : Bool
  mark    : Nat
  phase   : Nat
  reqs    : Option (Nat × Nat)
  turn    : Nat
  kept    : List Nat
  deriving DecidableEq, Repr

/-- A resume written while issued commands still run (02 R45). -/
inductive Resume where
  | none | skip | retry
  deriving DecidableEq, Repr

/-- One command stream (02 R44–R47). -/
structure Strm where
  ahead     : List Cmd
  issued    : List Cmd
  faulted   : List Cmd
  wait      : Wait
  halted    : Bool
  resetting : Bool
  resume    : Resume
  deriving DecidableEq, Repr

/-- State of a logical core that is no register: clocks gated (02 R60), the open task's snapshot (02 R65), the deferred commands
being served as DEFER 0 (05 R148), the array groups up (03 R96), arrays waiting for the spare (03 R98), the physical core that
serves it (01 R30), uncorrectable local-store errors of the power-on (16 R444), the cause of a replacement in progress (16 R459), the
stream that issued last and how many commands its streams have issued (03 R68). -/
structure CoreX where
  gated     : Bool
  snap      : List (Nat × Word)
  starved   : List Nat
  sparing   : List Nat
  phys      : Option Nat
  lsErrors  : Nat
  replacing : Option Nat
  last      : Nat
  turns     : Nat
  deriving DecidableEq, Repr

/-- A barrier channel (02 R62, 16 R449): the participants that have arrived, and the commands that made the arrivals of each
generation. -/
structure BarX where
  arrived : List Nat
  makers  : NMap (List (Nat × Nat))
  deriving DecidableEq, Repr

/-- A line of a Vault cache (07 R196). For a line of the package `data` is what HBM still holds while the line is dirty; for a
quire line it is the line itself and `excl` says whether this die holds it Exclusive (07 R207, R208). -/
structure CLine where
  die   : Nat
  way   : Nat
  use   : Bool
  dirty : Bool
  excl  : Bool
  data  : List Byte
  deriving DecidableEq, Repr

/-- A line's transition (07 R209): the members whose acknowledgements it waits for, or the owner it is recalled from, and the remote
request it is made for. -/
inductive DirTrans where
  | none
  | invalidating (waiting : List (Nat × Nat)) (next : Option (CohKind × Nat × Nat))
  | recalling (invalidate : Bool) (next : Option (CohKind × Nat × Nat))
  deriving DecidableEq, Repr

/-- The directory entry of a line of this package (07 R208): sharers as (member, die), the Exclusive holder, its way and use bit, the
transition in progress and the remote requests that wait behind it. -/
structure DirEnt where
  sharers : List (Nat × Nat)
  owner   : Option (Nat × Nat)
  way     : Nat
  use     : Bool
  trans   : DirTrans
  queue   : List (CohKind × Nat × Nat)
  deriving DecidableEq, Repr

/-- A Vault die: the requests held, oldest first, while a partition change, flush or scrub runs (07 R195, R200, R205), while another member's
copy is recalled or invalidated (R209) or until a directory entry is free (R210); and, on CD0, the page pairs being scrubbed. -/
structure VaultX where
  held     : List Instr
  scrubbed : List Nat
  deriving DecidableEq, Repr

/-- A Vault slice's arbiter (07 R212–R216): consecutive losses of each port in each direction, the last grants, the hints, and the
transfers its ports have still to be granted, as (port, write). -/
structure SliceX where
  rdLoss : List Nat
  wrLoss : List Nat
  rdWin  : Option Nat
  wrWin  : Option Nat
  hints  : List (Nat × Nat)
  asked  : List (Nat × Bool)
  deriving DecidableEq, Repr

/-- Damage of a line or bank word (16 R444, 07 R211). -/
structure Hurt where
  damaged  : Bool
  poisoned : Bool
  deriving DecidableEq, Repr

/-- An armed injection (16 R445, R479): detector, unit, die, kind, and the errors still to inject. -/
structure Armed where
  target : Nat
  unit   : Nat
  die    : Nat
  kind   : Nat
  left   : Nat
  deriving DecidableEq, Repr

/-- The Conservator (16 R444, R458–R464): armed injections; repairs of the power-on, newest first; UCIe modules removed (link, module);
correctable errors by Vault bank and HBM row; what each unit counted since its last DETECT event; faults that await their spare
(detector, place, unit); Vault banks on their spares (die, slice, bank); Beater lanes out of service (stack, lane). -/
structure ConsX where
  armed   : List Armed
  repairs : List RepairRec
  modules : List (Nat × Nat)
  counts  : NMap Nat
  since   : NMap Nat
  due     : List (Nat × Nat × Nat)
  banks   : List (Nat × Nat × Nat)
  lanes   : List (Nat × Nat)
  deriving DecidableEq, Repr

/-- What one member's admission brings to the coordinator (09 R270): its signature, its refusal, and for COMMIT its step-good bit and
epoch. -/
structure Adm where
  rank    : Nat
  sig     : StageSig
  refusal : Option Status
  counts  : List Nat
  deriving DecidableEq, Repr

/-- What members of a group send one another (09 R270–R280, 06 R171). -/
inductive StageMsg where
  | counts (l : List Nat)
  | numbers (l : List Nat)
  | admission (sig : StageSig) (refusal : Option Status) (good : List Nat)
  | go (info : List Nat)
  | fail (st : Status)
  | decision (commit : Bool) (epoch : Nat)
  | report (st : Status)
  | chunk (n src : Nat) (payload : List Byte) (check : BitVec 64)
  | retransmit (n : Nat)
  | ack (n : Nat)
  | credit
  | row (header row : List Byte)
  deriving DecidableEq, Repr

/-- A chunk held in the group's cells until every receiver has acknowledged it (09 R278): the receivers it is still to be sent to and those
whose acknowledgement is out, each with the number the chunk has for it; how many of its bytes the check value covers; and, for a chunk
that is forwarded, the member that sent it and waits for this member's acknowledgement, with its number. -/
structure Held where
  payload : List Byte
  checked : Nat
  due     : List (Nat × Nat)
  out     : List (Nat × Nat)
  up      : Option (Nat × Nat)
  deriving DecidableEq, Repr

/-- A stage of a group on this member (09 R270): its stream and command once issued here, its layer record, the route order it was
issued under, its count and the fault of its shape words, each read once; as coordinator the admissions heard, the reports, whether the
outcome was decided and FAIL sent; the counts received from each rank and those this member sends; whether its own admission went out, and
its refusal; GO and what came with it; whether the payload has begun; sources granted a credit and receivers whose credit came; the pieces
of the source read so far; receivers whose rows were sent; whether this member's own contribution is in; chunks accepted (source, number)
and failed checks; what arrived and waits to be used; the returned rows of a source not all there yet (source, number, bytes); chunks
held; whether its shard is settled; rows written; whether it reported a failure, whether it waits for acknowledgements alone; its result
on this member. -/
structure Stage where
  cmd      : Option (Nat × Nat)
  layer    : Nat
  route    : Nat × Nat
  count    : Nat
  shape    : Option Status
  adms     : List Adm
  reports  : List Nat
  decided  : Bool
  failSent : Bool
  counts   : NMap (List Nat)
  sends    : List Nat
  admitted : Bool
  refusal  : Option Status
  go       : Bool
  info     : List Nat
  begun    : Bool
  granted  : List Nat
  credits  : List Nat
  taken    : List Nat
  sentTo   : List Nat
  own      : Bool
  got      : List (Nat × Nat)
  fails    : List (Nat × Nat)
  early    : List (Nat × StageMsg)
  parts    : List (Nat × Nat × List Byte)
  held     : List Held
  settled  : Bool
  rows     : Nat
  reported : Bool
  acksOnly : Bool
  result   : Option Status
  deriving DecidableEq, Repr

/-- The stage order of a route record (06 R181): the ROUTE that began it (stream, accession), GRANT issued and completed, exchange stages issued and completed as
(direction and kind, wave), and the SUMs completed. -/
structure RouteOrder where
  route       : Nat × Nat
  grantIssued : Bool
  granted     : Bool
  issued      : List (Nat × Nat)
  done        : List (Nat × Nat)
  sums        : Nat
  deriving DecidableEq, Repr

/-- A fabric request of this package (10 R307, R315): the stream and command it belongs to, its packet, where its data goes, its
offset within the command, whether it is posted, its reserved cells, how it ended, whether its requester gave up on it, and the ring slot
of its command with the number first fetched there. -/
structure Req where
  sid    : Nat
  cmd    : Nat
  pkt    : Packet
  dest   : Option Nat
  off    : Nat
  posted : Bool
  cells  : Nat
  ended  : Option Status
  gaveUp : Bool
  slot   : Nat
  first  : Nat
  deriving DecidableEq, Repr

/-- The applied window that a Vault keeps for a source of its rack (10 R309, 16 R453): its entries by accession with result and old
value, the open run of evicted entries, the highest accession served, and the floor, 0 while the window is fresh (14 R410). -/
structure Target where
  window  : List (Nat × Status × Nat)
  run     : Option (Nat × Nat)
  highest : Nat
  floor   : Nat
  deriving DecidableEq, Repr

/-- The order state of a source at this target (10 R311–R313): the mark, the numbers served beyond it, the requests held, whether the
state is closed, and the closed ranges. -/
structure Order where
  mark   : Nat
  beyond : List Nat
  held   : List Packet
  closed : Bool
  ranges : List (Nat × Nat)
  deriving DecidableEq, Repr

/-- A packet in the Vat (10 R293): the port and the key of the credit it arrived under, none for one injected here, and the pool its chain
lies in with its cells, none where the cells were reserved beforehand. -/
structure Transit where
  pkt  : Packet
  hop  : Option (Nat × Nat)
  pool : Option (Nat × Nat)
  deriving DecidableEq, Repr

/-- The fabric unit (chapter 10): the requests by accession, the next ORD_SEQ to each destination, the broken marks with their status,
the applied windows, the order states, the FENCEs that wait, each with the requests it still covers and the failed one of lowest accession, the reissue outstanding and the resync in
progress (destination, ORD_SEQ); the port credits each live group holds: its ports and the credits on each (09 R266); the lines asked of
other members of the quire, as (die, FPA), each with what for (07 R207); the packets in the Vat; whether the reissue waits at injection, and
the reissues given up, as (accession, destination) (10 R316); as master, the ACTIVE ports of each package of the rack that has told them,
as a mask, and the fallback lists told to others, by 256 × package + entry (10 R300). -/
structure FabX where
  reqs    : NMap Req
  ordNext : NMap Nat
  broken  : NMap Status
  targets : NMap Target
  orders  : NMap Order
  fences  : List (Nat × Nat × List Nat × Option (Nat × Status))
  ri      : Option Packet
  resync  : Option (Nat × Nat)
  groups  : NMap (List Nat × Nat)
  asks    : List ((Nat × Nat) × CohKind)
  transit : List Transit
  riWaits : Bool
  riPast  : List (Nat × Nat)
  links   : NMap Nat
  routes  : NMap Nat
  deriving DecidableEq, Repr

/-- A port (10 R286–R290, R294): the next frame number to send and to receive; packet bytes that wait for a frame; the replay buffer: frames
by number, each its 256 bytes; failed replays in a row, by frame; failed training attempts in a row; the lanes mapped; by class and VC
(key 2c + vc) the credit held, what the peer granted, what this end has granted, and the cells freed whose credit is still to be returned;
the session keys' 72 bytes (15 R434, none before KEYS) and the packets sent under them (15 R435). -/
structure Port where
  nextSeq : Nat
  rxSeq   : Nat
  fill    : List Byte
  replay  : List (Nat × List Byte)
  fails   : NMap Nat
  tries   : Nat
  width   : Nat
  credit  : NMap Nat
  granted : NMap Nat
  given   : NMap Nat
  owed    : NMap Nat
  key     : List Byte
  packets : Nat
  deriving DecidableEq, Repr

/-- A layer's revision (06 R185, 11 R341), kept until the step that uses its table has committed: the summed SERVED figures, the new table, and
the experts and members of its new replicas. -/
structure Revised where
  layer  : Nat
  served : List Nat
  table  : List Byte
  news   : List (Nat × Nat)
  deriving DecidableEq, Repr

/-- Where the step loop of the Registrar's firmware stands (11 R338); while it asks other Ledgers for a decision, the members not yet asked
(09 R281). -/
inductive JobPhase where
  | idle
  | ready
  | restoring
  | waiting (acc seq : Nat)
  | asking (seq : Nat) (left : List Nat)
  | boundary
  deriving DecidableEq, Repr

/-- The loaded job (11 R322, R338, 13 R386, R387): its record's header words, its groups in entry order, the COMMIT group; the free value
its stream table is known by (log 19); the phase of the step loop, the attempts begun of the current step, the steps committed since
JOB_START; the sequence numbers and flags at the start of attempt 0; the Ledger position at the start of the attempt; whether COMMIT's
release waits for stages in flight; the revisions kept, and whether a step of the revision failed; the anchors chosen for the step, one for
each CLEAR_BUF of its streams (11 R328); the last discarded attempt's fault; and how a stop was asked for (now, or at the boundary). -/
structure JobX where
  hdr      : List Nat
  groups   : List Nat
  commit   : Nat
  table    : Nat
  phase    : JobPhase
  attempt  : Nat
  steps    : Nat
  seq0     : NMap Nat
  flags0   : NMap Flag
  mark     : Nat
  releasing : Bool
  revised  : List Revised
  histBad  : Bool
  anchors  : List Nat
  lastStatus : Status
  faultStream : Nat
  faultAcc : Nat
  stopping : Option Bool
  deriving DecidableEq, Repr

/-- The mailboxes (13 R381, R386, 16 R455): the last accession number each gave, the one whose job-state command has not ended, those
whose job-state commands wait behind it, and those waiting for a forwarded query; those whose forwarded query ended unanswered,
and how many replies have come late. -/
structure MboxX where
  last    : NMap Nat
  running : Option Nat
  waiting : List Nat
  fwd     : List Nat
  past    : List Nat
  late    : Nat
  deriving DecidableEq, Repr

/-- A submission entry in progress (13 R392): its accession number, ring index and 64 bytes. -/
structure SqEnt where
  acc   : Nat
  index : Nat
  desc  : Block64
  deriving DecidableEq, Repr

/-- A submission queue (13 R390–R392): the entries in progress in ring order, completions not yet freed, the PHASE bit, whether it is
halted, in a RESET or released by its owner, and its accession series. -/
structure SqX where
  entries : List SqEnt
  held    : Nat
  phase   : Bool
  halted  : Bool
  resetting : Bool
  next    : Nat
  deriving DecidableEq, Repr

/-- An SPDM connection (15 R430): how far it has come (0 before GET_VERSION, 1 version, 2 capabilities, 3 algorithms), and whether a key
derivation made it stale. -/
structure SpdmX where
  phase : Nat
  stale : Bool
  deriving DecidableEq, Repr

/-- The Custodian's secrets and sessions (15 R424, R425, R437, R438): the DeviceID, Alias and LinkID scalars; the free value that stands for
the certificates issued with the Alias; the HBM and Vault keys; the debug nonce; the control cores halted through the debug port; the
SPDM connections (0–7 the mailboxes, 8 I3C). -/
structure SecX where
  deviceId : Nat
  alias_   : Nat
  linkId   : Nat
  certs    : Nat
  hbmKey   : Nat
  vaultKey : Nat
  nonce    : Option Nat
  halted   : List Nat
  spdm     : NMap SpdmX
  deriving DecidableEq, Repr

/-- Power, references and reset (14, 17 R470–R473): the Custodian rails up; the main rails not all below 10 %; PKG_PWROK acted on;
PKG_RESET_N low; a rail fault standing; a thermal trip standing, and whether the main rails have been removed since; a reference or PLL
fault standing; POWER_OFF_REQ_N asserted; the cause the next main-rail power-up shows; whether that power-up ends the cold one; whether
this boot restores HBM; the host link up (boot stage 3 ended); every stream halted for want of a link (16 R458); the I3C address; the Custodian on its internal oscillator;
an uncorrectable memory error this power-on; the heartbeat stalled. -/
structure PowX where
  custUp   : Bool
  mainUp   : Bool
  pwrok    : Bool
  resetLow : Bool
  fault    : Bool
  trip     : Option Bool
  refFault : Bool
  off      : Bool
  cause    : Option Nat
  first    : Bool
  keepHbm  : Bool
  linksUp  : Bool
  linkLost : Bool
  i3c      : Option Nat
  internalOsc : Bool
  memFault : Bool
  stalled  : Bool
  deriving DecidableEq, Repr

/-- The throttled clocks and the ramp windows (14 R414–R418): the power samples of the averaging window, newest first; the point the
power and current limits hold each core clock to; the core served last in each die's ramp windows. -/
structure ClkX where
  samples : List Nat
  limit   : List Nat
  served  : List Nat
  deriving DecidableEq, Repr

/-- A checkpoint (11 R342 Table 8), as far as it comes from the device: the epoch and the firmware version; the committed slot of each block,
by its entry; the placement table of each layer; the histogram sums kept; the anchors of the next step. -/
structure Checkpoint where
  epoch   : Nat
  version : Nat
  blocks  : List (Nat × List Byte)
  tables  : List (Nat × List Byte)
  sums    : List (Nat × List Nat)
  anchors : List Nat
  deriving DecidableEq, Repr

/-- What the package sends out: interrupt messages, packets, stage messages, frames and replies. The model's own record of outputs. -/
inductive Msg where
  | irq (hart eiid : Nat) (machine : Bool)
  | packet (p : Packet)
  | coh (line die : Nat) (data : Option (List Byte))
  | cohAsk (kind : CohKind) (home die line : Nat)
  | cohRecall (line member die : Nat) (kind : CohRecall)
  | cohGrant (line member die : Nat) (excl : Bool) (data : List Byte)
  | cohRefuse (line member die : Nat) (st : Status)
  | memReply (who : Requester) (addr : Nat) (st : Status) (data : List Byte)
  | stage (g seq dst : Nat) (m : StageMsg)
  | probe (pkg : Nat)
  | reach (gen pkg : Nat)
  | resync (dest ordSeq : Nat)
  | resyncAck (dest : Nat)
  | frame (port : Nat) (bytes : List Byte)
  | remap (port : Nat) (lanes : List Nat)
  | credits (port : Nat) (cells : List Nat)
  | i3c (bytes : List Byte)
  | ledgerFwd (pkg : Nat) (bytes : List Byte)
  | workingCopy (dst entry : Nat) (bytes : List Byte)
  | checkpoint (c : Checkpoint)
  | firmware (what : String)
  deriving DecidableEq, Repr

/-- The state of the package. -/
structure State where
  pending : List Instr
  ctl     : NMap Word
  mem     : List Host.Cell
  hostMem : List Host.Cell
  flags   : NMap Flag
  strms   : NMap Strm
  cores   : NMap CoreX
  bars    : NMap BarX
  cache   : NMap CLine
  dir     : NMap DirEnt
  vaults  : NMap VaultX
  slices  : NMap SliceX
  hurt    : NMap Hurt
  cons    : ConsX
  ledger  : Ledger
  stages  : NMap Stage
  orders  : NMap RouteOrder
  fab     : FabX
  ports   : NMap Port
  job     : JobX
  mbox    : MboxX
  sqs     : NMap SqX
  sec     : SecX
  pow     : PowX
  clk     : ClkX
  sent    : List Msg
  free    : Nat
  deriving DecidableEq, Repr

/-- A stream at reset. -/
def Strm.reset : Strm := ⟨[], [], [], .idle, false, false, .none⟩

/-- A core at reset; its round robin starts at stream 0 (log 52). -/
def CoreX.reset : CoreX := ⟨false, [], [], [], none, 0, none, 3, 0⟩

/-- A barrier channel at reset. -/
def BarX.reset : BarX := ⟨[], []⟩

/-- A flag at reset (02 R56 Table 9). -/
def Flag.reset : Flag := ⟨0, .none⟩

/-- A Vault at reset. -/
def VaultX.reset : VaultX := ⟨[], []⟩

/-- A slice's arbiter at reset. -/
def SliceX.reset : SliceX := ⟨List.replicate 8 0, List.replicate 8 0, none, none, [], []⟩

/-- The Conservator at reset: nothing armed or repaired. -/
def ConsX.reset : ConsX := ⟨[], [], [], [], [], [], [], []⟩

/-- An empty Ledger. -/
def Ledger.reset : Ledger := ⟨[], [], [], [], 0⟩

/-- A stage nothing is known of. -/
def Stage.empty : Stage :=
  ⟨none, 0, (0, 0), 0, none, [], [], false, false, [], [], false, none, false, [], false, [], [], [], [], false, [], [], [], [], [], false, 0,
   false, false, none⟩

/-- The stage order that ROUTE `acc` of stream `sid` begins. -/
def RouteOrder.fresh (sid acc : Nat) : RouteOrder := ⟨(sid, acc), false, false, [], [], 0⟩

/-- A fresh applied window. -/
def Target.fresh : Target := ⟨[], none, 0, 0⟩

/-- A fresh order state. -/
def Order.fresh : Order := ⟨0, [], [], false, []⟩

/-- The fabric unit at reset. -/
def FabX.reset : FabX := ⟨[], [], [], [], [], [], none, none, [], [], [], false, [], [], []⟩

/-- A port at reset. -/
def Port.reset : Port := ⟨0, 0, [], [], [], 0, 0, [], [], [], [], [], 0⟩

/-- No job. -/
def JobX.none : JobX := ⟨[], [], 0, 0, .idle, 0, 0, [], [], 0, false, [], false, [], .ok, 0, 0, Option.none⟩

/-- The mailboxes at reset. -/
def MboxX.reset : MboxX := ⟨[], Option.none, [], [], [], 0⟩

/-- A submission queue at reset; its accession series starts at 1. -/
def SqX.reset : SqX := ⟨[], 0, true, false, false, 1⟩

/-- A connection before GET_VERSION. -/
def SpdmX.reset : SpdmX := ⟨0, false⟩

/-- The Custodian's secrets before boot stage 2. -/
def SecX.reset : SecX := ⟨0, 0, 0, 0, 0, 0, none, [], []⟩

/-- Rails up, the references good, PKG_RESET_N released (log 2). -/
def PowX.reset : PowX :=
  ⟨true, true, true, false, false, none, false, false, none, false, false, false, false, none, false, false, false⟩

/-- No sample, no limit holds a clock down; the ramp windows serve from core 0 (14 R418). -/
def ClkX.reset : ClkX := ⟨[], [1400, 1400], [135, 135]⟩

/-- The package right after a cold power-up, released into boot stage 1 (log 2). -/
def State.reset : State :=
  { pending := [], ctl := [], mem := [], hostMem := [], flags := [], strms := [], cores := [], bars := [], cache := [],
    dir := [], vaults := [], slices := [], hurt := [], cons := ConsX.reset, ledger := Ledger.reset,
    stages := [], orders := [], fab := FabX.reset, ports := [],
    job := JobX.none, mbox := MboxX.reset, sqs := [], sec := SecX.reset, pow := PowX.reset, clk := ClkX.reset, sent := [],
    free := 0 }

end Sys2Proof.Machine
end

