-- ==== Sys2Proof/Machine/Ops.lean ====
section
/-! DEFINITION. The named operations over the state. A command's effect is a program: a function from the state to the list of
elementary effects it makes, in order. Every change of the state goes through `Eff.apply`, so what no effect can do no command
can do. -/

namespace Sys2Proof.Machine

/-! Sparse maps. -/

/-- The entry of key `k`. -/
def nget {α : Type} (m : NMap α) (k : Nat) : Option α :=
  match m with
  | [] => none
  | e :: r => if e.1 = k then some e.2 else nget r k

/-- The map with key `k` holding `v`. -/
def nset {α : Type} (m : NMap α) (k : Nat) (v : α) : NMap α :=
  match m with
  | [] => [(k, v)]
  | e :: r => if k < e.1 then (k, v) :: e :: r else if e.1 = k then (k, v) :: r else e :: nset r k v

/-- The map without key `k`. -/
def ndel {α : Type} (m : NMap α) (k : Nat) : NMap α :=
  match m with
  | [] => []
  | e :: r => if e.1 = k then r else e :: ndel r k

/-- The map with key `k` holding `v`, or without it. -/
def nput {α : Type} (m : NMap α) (k : Nat) : Option α → NMap α
  | some v => nset m k v
  | none => ndel m k

/-! Byte memories: a byte not listed reads 0 (14 R407, log 6), and no listed byte is 0. -/

/-- The keys of a sparse map rise strictly. -/
abbrev NMap.Rising {α : Type} (m : NMap α) : Prop := m.Pairwise fun a b => a.1 < b.1

/-- The canonical form of a byte memory: its addresses rise strictly and no listed byte is 0, what an unlisted address reads as. -/
abbrev Memory.wf (m : List Host.Cell) : Prop := NMap.Rising m ∧ ∀ c ∈ m, c.2 ≠ 0

/-- The byte at `a`. -/
def byteAt (m : List Host.Cell) (a : Nat) : Byte := (nget m a).getD 0

/-- The memory with byte `b` at `a`, in canonical form. -/
def setByte (m : List Host.Cell) (a : Nat) (b : Byte) : List Host.Cell :=
  if b = 0 then ndel m a else nset m a b

/-- `n` bytes from `a`. -/
def bytesAt (m : List Host.Cell) (a n : Nat) : List Byte := (List.range n).map fun i => byteAt m (a + i)

/-- The number a little-endian byte string spells (00 R9). -/
def leNat : List Byte → Nat
  | [] => 0
  | b :: r => b.toNat + 256 * leNat r

/-- The `n` low bytes of a number, little-endian. -/
def leBytes : Nat → Nat → List Byte
  | 0, _ => []
  | n + 1, v => BitVec.ofNat 8 v :: leBytes n (v / 256)

/-- Bits `lo` to `lo + w − 1` of a number. -/
def bits (v lo w : Nat) : Nat := v / 2 ^ lo % 2 ^ w

/-- Bit `i` of a number. -/
def bit (v i : Nat) : Bool := v / 2 ^ i % 2 == 1

/-! Status codes (13 R395 Table 7). -/

/-- The code of a status. -/
def statusCode : Status → Nat
  | .ok => 0x0000 | .descriptorFault => 0x0001 | .addressFault => 0x0002 | .sizeFault => 0x0003 | .sequenceFault => 0x0004
  | .shapeFault => 0x0005 | .flagFault => 0x0006 | .timeout => 0x0007 | .ownerFault => 0x0008 | .authFault => 0x0009
  | .arrayFault => 0x0010 | .layerFault => 0x0011 | .numericFail => 0x0012 | .placementFault => 0x0013
  | .beaterFault => 0x0014 | .notConverged => 0x0018 | .deadlineMiss => 0x0019 | .factorAbandoned => 0x001A
  | .deadTarget => 0x0020 | .unknown => 0x0021 | .staleAccession => 0x0022 | .checkFault => 0x0023 | .tainted => 0x0024
  | .stepDiscarded => 0x0025 | .memoryFault => 0x0030 | .integrityFault => 0x0031 | .unitFault => 0x0032

/-- Every status. -/
def allStatus : List Status :=
  [.ok, .descriptorFault, .addressFault, .sizeFault, .sequenceFault, .shapeFault, .flagFault, .timeout, .ownerFault, .authFault,
   .arrayFault, .layerFault, .numericFail, .placementFault, .beaterFault, .notConverged, .deadlineMiss, .factorAbandoned,
   .deadTarget, .unknown, .staleAccession, .checkFault, .tainted, .stepDiscarded, .memoryFault, .integrityFault, .unitFault]

/-- The status a code names; the codes not assigned name none, and read as UNKNOWN. -/
def statusOf (c : Nat) : Status := (allStatus.find? (fun st => statusCode st == c)).getD .unknown

/-- The first check that fails decides the outcome. -/
def firstFault : List (Bool × Status) → Option Status
  | [] => none
  | c :: r => if c.1 then some c.2 else firstFault r

/-! Registers. -/

/-- The word at control-space offset `off`. -/
def State.word (s : State) (off : Nat) : Word := (nget s.ctl off).getD (resetWord off)

/-- The value of a field; a 64-bit field takes its low word first (01 R35). -/
def State.fld (s : State) (f : Fld) : Nat :=
  if f.w = 64 then (s.word f.off).toNat + 2 ^ 32 * (s.word (f.off + 4)).toNat
  else bits (s.word f.off).toNat f.lo f.w

/-- A one-bit field. -/
def State.flagBit (s : State) (f : Fld) : Bool := s.fld f == 1

/-- A word with one field replaced. -/
def putBits (w : Word) (lo n v : Nat) : Word :=
  let m := BitVec.ofNat 32 (2 ^ n - 1) <<< lo
  (w &&& ~~~ m) ||| ((BitVec.ofNat 32 v <<< lo) &&& m)

/-! Reading the state's sparse parts. -/

/-- Flag `f` of core `n`. -/
def State.flagAt (s : State) (n f : Nat) : Flag := (nget s.flags (64 * n + f)).getD Flag.reset

/-- Stream `sid`. -/
def State.strm (s : State) (sid : Nat) : Strm := (nget s.strms sid).getD Strm.reset

/-- Core `n`. -/
def State.core (s : State) (n : Nat) : CoreX := (nget s.cores n).getD CoreX.reset

/-- Barrier channel `c`. -/
def State.bar (s : State) (c : Nat) : BarX := (nget s.bars c).getD BarX.reset

/-- Vault `d`. -/
def State.vault (s : State) (d : Nat) : VaultX := (nget s.vaults d).getD VaultX.reset

/-- Slice `i` of die `d`. -/
def State.slice (s : State) (d i : Nat) : SliceX := (nget s.slices (64 * d + i)).getD SliceX.reset

/-- Submission queue `q`. -/
def State.sq (s : State) (q : Nat) : SqX := (nget s.sqs q).getD SqX.reset

/-- Port `p`. -/
def State.port (s : State) (p : Nat) : Port := (nget s.ports p).getD Port.reset

/-! Effects. -/

/-- The elementary effects. -/
inductive Eff where
  | reg (off : Nat) (v : Word)
  | regReset (off : Nat)
  | memB (a : Nat) (b : Byte)
  | hostB (a : Nat) (b : Byte)
  | flag (k : Nat) (f : Flag)
  | strm (sid : Nat) (x : Strm)
  | core (n : Nat) (x : CoreX)
  | bar (c : Nat) (x : BarX)
  | line (k : Nat) (x : Option CLine)
  | dir (k : Nat) (x : Option DirEnt)
  | vault (d : Nat) (x : VaultX)
  | slice (k : Nat) (x : SliceX)
  | hurt (k : Nat) (x : Option Hurt)
  | cons (x : ConsX)
  | stage (k : Nat) (x : Stage)
  | order (k : Nat) (x : Option RouteOrder)
  | fab (x : FabX)
  | port (p : Nat) (x : Port)
  | job (x : JobX)
  | mbox (x : MboxX)
  | sq (q : Nat) (x : SqX)
  | sec (x : SecX)
  | pow (x : PowX)
  | clk (x : ClkX)
  | restart (keepHbm : Bool)
  | cold
  | log (e : Ev)
  | mark (c : Src × Nat)
  | send (m : Msg)
  | draw
  deriving Repr

/-- The ring of the Ledger holds 1,048,576 events and the Custodian's tail 4,096 (16 R446); the Ledger follows a taint until the
next COMMIT event (16 R449). -/
def Ledger.push (l : Ledger) (e : Ev) : Ledger :=
  let e := { e with seq := l.next }
  let live := match e.body with
    | .commit _ _ _ _ => []
    | _ => l.live
  { l with events := (e :: l.events).take 1048576, tail := (e :: l.tail).take 4096, live := live, next := l.next + 1 }

/-- The control-space words the Custodian holds across every reset but a cold power-up: the debug state (15 R442), the cause, count and
kept-HBM words (14 R421), the reply of mailbox 7 (16 R456), and its window but for the heartbeat limit (16 R467). -/
def custodianWord (off : Nat) : Bool :=
  off == 0x1000 || off == 0x203C || off == 0x2040 || off == 0x2044 ||
  (0x5000 ≤ off && off < 0x6000 && off != 0x5020) ||
  off == 0x1800C || off == 0x18010 || off == 0x18014 || off == 0x18018 || off == 0x1801C || (0x18040 ≤ off && off < 0x19000)

/-- The page-pair attribute table and its view on CD1 (07 R204), which KEEP_HBM restores (14 R408). -/
def pageAttrWord (off : Nat) : Bool :=
  (dieBase 0 + 0x400 ≤ off && off < dieBase 0 + 0x500) || (dieBase 1 + 0x400 ≤ off && off < dieBase 1 + 0x500)

/-- HBM as KEEP_HBM keeps it: outside the Ledger region, and under a dirty cached line the older bytes (14 R408). -/
def State.keptHbm (s : State) : List Host.Cell :=
  let older := s.cache.foldl (fun m e =>
    if e.2.dirty ∧ e.1 < 2 ^ 45 then e.2.data.zipIdx.foldl (fun m b => setByte m (e.1 * 128 + b.2) b.1) m else m) s.mem
  older.filter fun c => decide (c.1 < 0x07FFC000000)

/-- A power-up clears what 14 R407 Table 4 clears; what the Custodian holds stays. -/
def State.restart (s : State) (keepHbm : Bool) : State :=
  { State.reset with
    pending := s.pending
    ctl := s.ctl.filter fun e => custodianWord e.1 || (keepHbm && pageAttrWord e.1)
    mem := if keepHbm then s.keptHbm else []
    hurt := if keepHbm then s.hurt.filter fun e => decide (e.1 < 0x07FFC000000) else []
    ledger := { Ledger.reset with tail := s.ledger.tail }
    sec := { s.sec with nonce := none, halted := [], vaultKey := 0, hbmKey := if keepHbm then s.sec.hbmKey else 0 }
    pow := { s.pow with linksUp := false, linkLost := false, memFault := false, stalled := false }
    sent := s.sent
    free := s.free }

/-- The Custodian's own state goes with its rails (14 R401, R407). -/
def State.cold (s : State) : State :=
  { State.reset with pending := s.pending, sent := s.sent, free := s.free }

/-- What an effect does. A register keeps only the bits its table gives it (00 R10); the Ledger alone numbers its events. -/
def Eff.apply (e : Eff) (s : State) : State :=
  match e with
  | .reg off v => { s with ctl := nset s.ctl off (v &&& wordMask off) }
  | .regReset off => { s with ctl := ndel s.ctl off }
  | .memB a b => { s with mem := setByte s.mem a b }
  | .hostB a b => { s with hostMem := setByte s.hostMem a b }
  | .flag k f => { s with flags := nset s.flags k f }
  | .strm sid x => { s with strms := nset s.strms sid x }
  | .core n x => { s with cores := nset s.cores n x }
  | .bar c x => { s with bars := nset s.bars c x }
  | .line k x => { s with cache := nput s.cache k x }
  | .dir k x => { s with dir := nput s.dir k x }
  | .vault d x => { s with vaults := nset s.vaults d x }
  | .slice k x => { s with slices := nset s.slices k x }
  | .hurt k x => { s with hurt := nput s.hurt k x }
  | .cons x => { s with cons := x }
  | .stage k x => { s with stages := nset s.stages k x }
  | .order k x => { s with orders := nput s.orders k x }
  | .fab x => { s with fab := x }
  | .port p x => { s with ports := nset s.ports p x }
  | .job x => { s with job := x }
  | .mbox x => { s with mbox := x }
  | .sq q x => { s with sqs := nset s.sqs q x }
  | .sec x => { s with sec := x }
  | .pow x => { s with pow := x }
  | .clk x => { s with clk := x }
  | .restart keep => s.restart keep
  | .cold => s.cold
  | .log e => { s with ledger := s.ledger.push e }
  | .mark c => { s with ledger := { s.ledger with taint := c :: s.ledger.taint, live := c :: s.ledger.live } }
  | .send m => { s with sent := s.sent ++ [m] }
  | .draw => { s with free := s.free + 1 }

/-- Effects in order. -/
def applyAll (l : List Eff) (s : State) : State := l.foldl (fun s e => e.apply s) s

/-- The answer of a command. -/
abbrev Out := Host.Outcome State Fault Refusal

/-- A command's program. -/
abbrev Prog := State → List Eff

/-- The state a program leaves. -/
def run (p : Prog) (s : State) : State := applyAll (p s) s

/-- No effect. -/
def skip : Prog := fun _ => []

/-- Given effects. -/
def emit (l : List Eff) : Prog := fun _ => l

/-- One program after another. -/
def seq (p q : Prog) : Prog := fun s => p s ++ q (run p s)

/-- Programs in order. -/
def seqs : List Prog → Prog
  | [] => skip
  | p :: r => seq p (seqs r)

/-- A program chosen by the state it starts in. -/
def withS (k : State → Prog) : Prog := fun s => k s s

/-- A program under a condition. -/
def onlyIf (c : Bool) (p : Prog) : Prog := if c then p else skip

/-- A program for each element, in order. -/
def forEach {α : Type} (l : List α) (f : α → Prog) : Prog := seqs (l.map f)

/-- A program given the element, or nothing. -/
def given {α : Type} (o : Option α) (f : α → Prog) : Prog :=
  match o with
  | some x => f x
  | none => skip

/-! Register programs. -/

/-- Field `f` becomes `v`. -/
def setF (f : Fld) (v : Nat) : Prog := fun s =>
  if f.w = 64 then [.reg f.off (BitVec.ofNat 32 v), .reg (f.off + 4) (BitVec.ofNat 32 (v / 2 ^ 32))]
  else [.reg f.off (putBits (s.word f.off) f.lo f.w v)]

/-- Bit `i` of a field becomes `v`. -/
def setBitF (f : Fld) (i : Nat) (v : Bool) : Prog := withS fun s =>
  let x := s.fld f
  setF f (if v then x ||| 2 ^ i else x - (if bit x i then 2 ^ i else 0))

/-- Event counter `f` grows by `k`; the spec gives no value for a counter that passes its width, which is free (log 8). -/
def incF (f : Fld) (k : Nat := 1) : Prog := fun s =>
  let v := s.fld f + k
  if k = 0 then [] else if v < 2 ^ f.w then setF f v s else setF f (Config.counterOverflow f.off s.free) s ++ [.draw]

/-- A free value drawn for `k` (log 1). -/
def drawFree (k : Nat → Prog) : Prog := fun s => .draw :: k s.free (Eff.draw.apply s)

/-- A counter of cycles grows; the model keeps no time, so by how much is free (log 12), as is its value past its width (log 8). -/
def timed (f : Fld) : Prog := drawFree fun k => withS fun s =>
  let v := s.fld f + Config.cycles f.off k
  setF f (if v < 2 ^ f.w then v else Config.counterOverflow f.off k)

/-- A 48-bit number held in a 32-bit field and a 16-bit field. -/
def State.fld48 (s : State) (lo hi : Fld) : Nat := s.fld lo + 2 ^ 32 * s.fld hi

/-- Both fields of a 48-bit number. -/
def setF48 (lo hi : Fld) (v : Nat) : Prog := seq (setF lo (v % 2 ^ 32)) (setF hi (v / 2 ^ 32 % 2 ^ 16))

/-! Interrupt messages (13 R394). -/

/-- A message to entry `v`: delivered when enabled, else pending. -/
def sendIrq (v : Nat) : Prog := fun s =>
  if s.flagBit (Reg.htxImEnable v) then
    [.send (.irq (s.fld (Reg.htxImHart v)) (s.fld (Reg.htxImEiid v)) (s.flagBit (Reg.htxImMfile v)))]
  else setF (Reg.htxImPending v) 1 s

/-! The Ledger (16 R446–R449). -/

/-- PWR_BOOT_COUNT. -/
def State.boot (s : State) : Nat := s.fld Reg.pwrBootCount

/-- A command is marked TAINTED. -/
def State.tainted (s : State) (c : Src × Nat) : Bool := s.ledger.taint.contains c

/-- An event is appended: it takes the next SEQ, and LDG_HEAD and LDG_OLDEST follow the ring. -/
def logEv (src : Src) (acc : Nat) (st : Status) (tag : Nat) (injected : Bool) (body : EvBody) : Prog :=
  seqs [fun s => [.log ⟨0, s.boot, src, acc, st, tag, injected, s.tainted (src, acc), body⟩],
        fun s => setF Reg.ldgHead s.ledger.next s,
        fun s => setF Reg.ldgOldest (s.ledger.next - s.ledger.events.length) s]

/-- The source a flag's record names (16 R448). -/
def signallerSrc : Signaller → Option (Src × Nat)
  | .stream sid acc => some (.stream sid, acc)
  | .queue q acc => some (.queue q, acc)
  | .remote p acc => some (.fabric p, acc)
  | _ => none

/-- The signaller is tainted: a command already marked, or a barrier generation in which a marked command arrived (16 R449). -/
def State.taintedBy (s : State) (g : Signaller) : Bool :=
  match g with
  | .barrier c gen => ((nget (s.bar c).makers gen).getD []).any fun m => s.ledger.live.contains (.stream m.1, m.2)
  | _ => match signallerSrc g with
    | some c => s.ledger.live.contains c
    | none => false

/-- A command is marked TAINTED, once: a TAINT event names the stage accession the taint descends from (16 R449). -/
def markTaint (c : Src × Nat) (stageAcc : Nat) : Prog := withS fun s =>
  if s.tainted c then skip
  else seqs [emit [.mark c], incF Reg.ldgTainted, logEv c.1 c.2 .tainted 0 false (.taint stageAcc)]

/-- The events since the job's last COMMIT event, oldest first. -/
def State.sinceCommit (s : State) : List Ev :=
  (s.ledger.events.takeWhile fun e => match e.body with | .commit _ _ _ _ => false | _ => true).reverse

/-- The Ledger follows a taint through the START events already appended, in their order (16 R449). -/
def spreadTaint (stageAcc : Nat) : Prog := withS fun s =>
  forEach s.sinceCommit fun e =>
    match e.body with
    | .start g => withS fun t => onlyIf (t.taintedBy g) (markTaint (e.src, e.acc) stageAcc)
    | _ => skip

/-- START: appended before the command moves data; a command whose signaller is tainted is marked (16 R448, R449). -/
def logStart (src : Src) (acc tag : Nat) (g : Signaller) : Prog :=
  seq (logEv src acc .ok tag false (.start g))
    (withS fun s => onlyIf (s.taintedBy g) (markTaint (src, acc) ((signallerSrc g).map (·.2) |>.getD 0)))

end Sys2Proof.Machine
end

