-- ==== Sys2Proof/Machine/Operands.lean ====
section
/-! DEFINITION. Where operands lie: the address map and who may reach what (01 R27–R36), HBM placement and the Vault cache's
tags (07 R194–R206), damaged lines (16 R444), and the reads and writes of device memory that every command uses. Also the fields
of a command's descriptor (02 R48). -/

namespace Sys2Proof.Machine

/-! Addresses. -/

/-- The ranges of the local physical address map (01 R27 Table 6). -/
inductive Range where
  | hbm
  | scratch (d : Nat)
  | ls
  | flags
  | control
  | ledger
  deriving DecidableEq, Repr

/-- The range an address lies in (01 R27): the top 64 MiB of HBM are not backed; a scratchpad half is backed up to its partition
(01 R28). -/
def State.rangeOf (s : State) (a : Nat) : Option Range :=
  if a < 0x07FFC000000 then some .hbm
  else if a < 0x08000000000 then none
  else if a < 0x09000000000 then
    let d := (a - 0x08000000000) / 0x800000000
    if (a - 0x08000000000) % 0x800000000 < s.fld (Reg.vltScratchGib d) * 0x40000000 then some (.scratch d) else none
  else if a < 0x09040000000 then some .ls
  else if 0x09100000000 ≤ a ∧ a < 0x09100010000 then some .flags
  else if 0x0A000000000 ≤ a ∧ a < 0x0A010000000 then some .control
  else if 0x0F000000000 ≤ a ∧ a < 0x0F004000000 then some .ledger
  else none

/-- The range a whole extent lies in; none when it leaves one range or its backed part (01 R29). -/
def State.extent (s : State) (a len : Nat) : Option Range :=
  match s.rangeOf a with
  | none => none
  | some r => if len = 0 then some r else if s.rangeOf (a + len - 1) = some r then some r else none

/-- The kinds of access of 01 R34 Table 7; a flag operation is an aligned 32-bit load or store of flag space (02 R56). -/
inductive AccKind where
  | read | write | atomic | exact | flagOp
  deriving DecidableEq, Repr

/-- The control-space offsets a core reaches: its own CORE_, ARR_ and DRN_ blocks (01 R34). -/
def coreReaches (n off : Nat) : Bool := coreBase n ≤ off && off < coreBase n + 0x3000

/-- Table 7 of 01 R34: what a requester may do to a range. Flag space takes flag operations only (01 R31). -/
def permitted (who : Requester) (k : AccKind) (r : Range) (a : Nat) : Bool :=
  match r with
  | .hbm => match k with
    | .read | .write => true
    | .atomic => who != .host
    | _ => false
  | .scratch _ => match k with
    | .read | .write => true
    | .atomic => who != .host
    | .exact => match who with
      | .engine _ => true
      | _ => false
    | .flagOp => false
  | .ls => match who with
    | .remote _ => false
    | _ => k == .read || k == .write
  | .flags => k == .flagOp
  | .control => match who with
    | .core n => (k == .read || k == .write) && coreReaches n (a - 0x0A000000000)
    | .host | .registrar => k == .read || k == .write
    | _ => false
  | .ledger => k == .read && (who == .host || who == .registrar)

/-- An extent is reached by `who`: it lies in one range of its own (01 R29) that Table 7 lets `who` access (01 R34). -/
def State.reach (s : State) (who : Requester) (k : AccKind) (a len : Nat) : Bool :=
  match s.extent a len with
  | some r => permitted who k r a
  | none => false

/-- The logical core whose local store or flags an address names. -/
def coreOfAddr (a : Nat) : Option Nat :=
  if 0x09000000000 ≤ a ∧ a < 0x09040000000 then some ((a - 0x09000000000) / 0x400000)
  else if 0x09100000000 ≤ a ∧ a < 0x09100010000 then some ((a - 0x09100000000) / 0x100)
  else none

/-- Logical core `n` is out of service (16 R460). -/
def State.outOfService (s : State) (n : Nat) : Bool := bit (s.fld (Reg.csvOutOfService (n / 32))) (n % 32)

/-- The LPA of byte `o` of core `n`'s local store (01 R27). -/
def lsAddr (n o : Nat) : Nat := 0x09000000000 + n * 0x400000 + o

/-- A local-store offset that a core's command names lies, with its extent, in that core's own 4 MiB. -/
def lsInside (o len : Nat) : Bool := o + len ≤ 0x400000

/-! HBM placement (07 R201, R202). -/

/-- The placement attribute of page pair `i`; pair 1,023 is always spread (07 R204, R205). -/
def State.pairAttr (s : State) (i : Nat) : Nat := s.fld (Reg.vltPageAttr 0 (i / 16)) / 2 ^ (2 * (i % 16)) % 4

/-- Exclusive-or of the `k`-bit groups of the 16-bit granule index (07 R202). -/
def foldGroups (k : Nat) (g : Nat) : Nat := ((List.range 8).map fun i => g / 2 ^ (k * i) % 2 ^ k).foldl Nat.xor 0

/-- The stack and the address within the stack of an HBM address (07 R202). -/
def State.placeOf (s : State) (a : Nat) : Nat × Nat :=
  let p := a / 2 ^ 28
  let i := p / 2
  let g := a / 4096 % 65536
  let b := a % 4096
  let at_ := s.pairAttr i
  if at_ = 0 ∨ at_ = 3 then (foldGroups 3 g, 0x4000000 * i + 0x2000000 * (p % 2) + 4096 * (g / 8) + b)
  else
    let d := if at_ = 1 then p % 2 else 1 - p % 2
    (4 * d + foldGroups 2 g, 0x4000000 * i + 4096 * (g / 4) + b)

/-- The die of an address's home Vault (07 R189). -/
def State.homeDie (s : State) (a : Nat) : Nat :=
  if a < 0x08000000000 then (s.placeOf a).1 / 4 else (a - 0x08000000000) / 0x800000000 % 2

/-- The slice of a cached line (07 R196): the folded line address. -/
def cacheSlice (line : Nat) : Nat :=
  ([7, 13, 19, 25, 31, 37, 43].map fun i => line / 2 ^ i % 64).foldl Nat.xor (line / 2 ^ 49 % 2)

/-- The set of a cached line within its slice (07 R196). -/
def cacheSet (line : Nat) : Nat := line / 8192 % 16384

/-- The slice of a scratchpad offset (07 R194). -/
def scratchSlice (o : Nat) : Nat :=
  let u := o / 512
  ([0, 6, 12, 18].map fun i => u / 2 ^ i % 64).foldl Nat.xor (u / 2 ^ 24 % 4)

/-- The offset of a scratchpad offset within its slice (07 R194). -/
def scratchOffset (o : Nat) : Nat := o / 512 / 64 * 512 + o % 512

/-- The channel of a stack address, of the stack's 32, and its pseudo-channel (07 R203). -/
def channelOf (a : Nat) : Nat × Nat := (Nat.xor (a / 2 ^ 8 % 32) (a / 2 ^ 13 % 32), a / 2 ^ 7 % 2)

/-- The home slice of an HBM or scratchpad address. -/
def State.sliceOf (s : State) (a : Nat) : Nat × Nat :=
  if a < 0x08000000000 then (s.homeDie a, cacheSlice (a / 128 * 128))
  else (s.homeDie a, scratchSlice ((a - 0x08000000000) % 0x800000000))

/-- The 128-byte lines an extent touches. -/
def linesOf (a len : Nat) : List Nat :=
  if len = 0 then [] else (List.range ((a + len - 1) / 128 - a / 128 + 1)).map fun i => (a / 128 + i) * 128

/-! The Vault cache's tags (07 R196–R198). -/

/-- The die a requester stands on, for HBM_FAR_BYTES (07 R229): cores and Presses have a die, others none. -/
def requesterDie : Requester → Option Nat
  | .core n => some (n / 128)
  | .engine sid => if sid < 1024 then some (sid / 512) else if 1064 ≤ sid ∧ sid < 1072 then some ((sid - 1064) / 4) else none
  | _ => none

/-- Bytes moved to or from a stack through the Vault are counted (07 R229). -/
def countHbm (write : Bool) (who : Requester) (line n : Nat) : Prog := withS fun s =>
  let k := (s.placeOf line).1
  seqs [incF (if write then Reg.hbmWriteBytes k else Reg.hbmReadBytes k) n,
        onlyIf (match requesterDie who with | some d => d != k / 4 | none => false) (incF (Reg.hbmFarBytes k) n)]

/-- The cached lines of one set of one slice. -/
def State.setLines (s : State) (die line : Nat) : List (Nat × CLine) :=
  s.cache.filter fun e =>
    let addr := e.1 % 2 ^ 45 * 128
    e.2.die == die && cacheSlice addr == cacheSlice line && cacheSet addr == cacheSet line

/-- The ways of a set: 256 − 8S (07 R196). -/
def State.ways (s : State) (die : Nat) : Nat := 256 - 8 * s.fld (Reg.vltScratchGib die)

/-- A message to a quire member about a cached line (07 R209, R210): the model's own spelling of a COH packet. -/
def cohNotice (line die : Nat) (data : Option (List Byte)) : Eff := .send (.coh line die data)

/-- A line leaves a cache: a dirty line of the package is written back to HBM, a quire line goes back to its home (07 R196, R210). -/
def dropLine (who : Requester) (e : Nat × CLine) : Prog :=
  seq (if e.1 < 2 ^ 45 then onlyIf e.2.dirty (countHbm true who (e.1 * 128) 128)
       else emit [cohNotice (e.1 % 2 ^ 45) e.2.die (if e.2.dirty then some e.2.data else none)])
    (emit [.line e.1 none])

/-- The way a new line of the set takes: the lowest whose use bit is clear; when every use bit is set, all are cleared first
(07 R196). Gives the way and the lines whose use bits are cleared. -/
def victim (ways : Nat) (ls : List (Nat × CLine)) : Nat × Bool :=
  match (List.range ways).find? (fun w => !(ls.any fun e => e.2.way == w && e.2.use)) with
  | some w => (w, false)
  | none => (0, true)

/-- A way is freed for a new line of the set, and `k` is told which. -/
def takeWay (die line : Nat) (who : Requester) (k : Nat → Prog) : Prog := withS fun s =>
  let ls := s.setLines die line
  let v := victim (s.ways die) ls
  seqs [onlyIf v.2 (forEach ls fun e => emit [.line e.1 (some { e.2 with use := false })]),
        forEach (ls.filter fun e => e.2.way == v.1) (dropLine who),
        k v.1]

/-- One HBM line is read or written through its home Vault: a hit sets its use bit; a miss fills it, unless a whole line is
written; with no ways the access goes straight to HBM, where a line written in part is read into the slice's buffer and back (07
R196–R198). -/
def touchLine (write whole : Bool) (who : Requester) (line : Nat) : Prog := withS fun s =>
  let die := s.homeDie line
  let key := line / 128
  let old := bytesAt s.mem line 128
  if s.ways die = 0 then seq (onlyIf (write && !whole) (countHbm false who line 128)) (countHbm write who line 128)
  else match nget s.cache key with
    | some c =>
      emit [.line key (some { c with use := true, dirty := c.dirty || write, data := if write && !c.dirty then old else c.data })]
    | none =>
      seq (onlyIf (!(write && whole))
            (seq (countHbm false who line 128) (incF (Reg.vltMisses die (cacheSlice line)))))
        (takeWay die line who fun w =>
          emit [.line key (some ⟨die, w, true, write, false, if write then old else []⟩)])

/-- A core's clocks run again (02 R60). -/
def ungate (n : Nat) : Prog := withS fun s =>
  onlyIf (s.core n).gated (emit [.core n { s.core n with gated := false }])

/-- Another requester's access of a core's local store, through its mesh port: the core's clocks run again (02 R60), and cycles in
which it was deferred are counted (03 R72). -/
def meshAccess (who : Requester) (a : Nat) : Prog :=
  let n := (a - 0x09000000000) / 0x400000
  if 0x09000000000 ≤ a ∧ a < 0x09040000000 then onlyIf (who != .core n) (seq (ungate n) (timed (Reg.coreLsConflicts n))) else skip

/-- Every line of an HBM extent is touched; other ranges have no tags. -/
def touch (write : Bool) (who : Requester) (a len : Nat) : Prog :=
  if a < 0x08000000000 then
    forEach (linesOf a len) fun l => touchLine write (a ≤ l && l + 128 ≤ a + len) who l
  else meshAccess who a

/-! Damaged and poisoned lines (16 R444, 07 R211). -/

/-- The unit of damage at an address: a 128-byte line, or a 64-byte bank word of a local store. -/
def hurtSize (a : Nat) : Nat := if 0x09000000000 ≤ a ∧ a < 0x09040000000 then 64 else 128

/-- The lines or bank words of an extent. -/
def hurtKeys (a len : Nat) : List Nat :=
  let g := hurtSize a
  if len = 0 then [] else (List.range ((a + len - 1) / g - a / g + 1)).map fun i => (a / g + i) * g

/-- What an access of a hurt line ends with: DEAD_TARGET for a poisoned one, MEMORY_FAULT for a damaged one. -/
def hurtStatus (h : Hurt) : Option Status :=
  if h.poisoned then some .deadTarget else if h.damaged then some .memoryFault else none

/-- The fault of reading an extent, if a line of it is hurt (16 R444). -/
def State.readHurt (s : State) (a len : Nat) : Option Status :=
  (hurtKeys a len).findSome? fun k => (nget s.hurt k).bind hurtStatus

/-- The fault of writing an extent: a line it covers in part is hurt (16 R444). -/
def State.writeHurt (s : State) (a len : Nat) : Option Status :=
  ((hurtKeys a len).filter fun k => !(a ≤ k && k + hurtSize a ≤ a + len)).findSome? fun k => (nget s.hurt k).bind hurtStatus

/-- A whole-line write clears the damage and the poison of the line. -/
def clearHurt (a len : Nat) : Prog := withS fun s =>
  forEach ((hurtKeys a len).filter fun k => a ≤ k && k + hurtSize a ≤ a + len && (nget s.hurt k).isSome) fun k =>
    emit [.hurt k none]

/-! Detectors and injection on writes (16 R443–R445, R479). -/

/-- The unit codes the model gives its units in DETECT events are the detector's own place: die and unit. -/
def logDetect (injected : Bool) (code die unit item count : Nat) (st : Status) : Prog :=
  logEv (.unit code) 0 st 0 injected (.detect code die unit item count)

/-- One armed error at a point is used up, and `k` is told its kind. -/
def useArmed (target unit die : Nat) (matchUnit matchDie : Bool) (k : Nat → Prog) : Prog := withS fun s =>
  match s.cons.armed.find? (fun x => x.target == target && (!matchUnit || x.unit == unit) && (!matchDie || x.die == die)) with
  | none => skip
  | some x =>
    let rest := s.cons.armed.filter (· != x)
    seqs [emit [.cons { s.cons with armed := if x.left ≤ 1 then rest else { x with left := x.left - 1 } :: rest }],
          incF Reg.csvInjDone, k x.kind]

/-- An uncorrectable memory error is counted, and the health summary remembers it for the power-on (16 R457 Table 8). -/
def uncorrectable : Prog := withS fun s => seq (incF Reg.csvUeCount) (emit [.pow { s.pow with memFault := true }])

/-- An injected memory error at a write: kind 0 is corrected and counted, kind 1 damages the line. -/
def injectAt (code die unit key kind : Nat) : Prog :=
  if kind = 0 then seq (incF Reg.csvCeCount) (logDetect true code die unit key 1 .ok)
  else seqs [emit [.hurt key (some ⟨true, false⟩)], uncorrectable, logDetect true code die unit key 1 .memoryFault]

/-- Injection on the lines or bank words a write covers. -/
def injectWrite (a len : Nat) : Prog := withS fun s =>
  if s.cons.armed.isEmpty then skip
  else forEach (hurtKeys a len) fun k => withS fun t =>
    if 0x09000000000 ≤ a ∧ a < 0x09040000000 then
      let n := (k - 0x09000000000) / 0x400000
      useArmed 0x01 n 0 true false (injectAt 0x01 (n / 128) n k)
    else
      let sl := t.sliceOf k
      seq (useArmed 0x06 sl.2 sl.1 true true (injectAt 0x06 sl.1 sl.2 k))
        (if k < 0x08000000000 then
          let st := (t.placeOf k).1
          useArmed 0x07 0 (8 + st) false true (injectAt 0x07 (st / 4) st k)
         else skip)

/-! The Conservator's reports (16 R458, R464). -/

/-- RGS_EVENTS bit `i` is set; when it was clear, its message is sent if enabled (13 R396 Table 8). -/
def raiseEvent (i : Nat) : Prog := withS fun s =>
  seq (setF Reg.rgsEvents (s.fld Reg.rgsEvents ||| 2 ^ i))
    (onlyIf (s.flagBit Reg.rgsEventIrqEn && !bit (s.fld Reg.rgsEvents) i) (sendIrq (s.fld Reg.rgsEventIrqVec)))

/-- A repair appends a REPAIR event, is recorded for REPAIR_READ and sets RGS_EVENTS[1]. -/
def recordRepair (r : RepairRec) : Prog := withS fun s =>
  seqs [emit [.cons { s.cons with repairs := r :: s.cons.repairs }], incF Reg.csvRepairs,
        logEv (.unit 0x170) 0 .ok 0 false (.repair r), raiseEvent 1]

/-- A core is placed on CSV_PENDING. -/
def pendCore (n : Nat) : Prog := withS fun s =>
  setF (Reg.csvPending (n / 32)) (s.fld (Reg.csvPending (n / 32)) ||| 2 ^ (n % 32))

/-! Reads and writes of memory. -/

/-- The flag word or barrier mirror at a flag-space address (02 R56 Table 9). -/
def State.flagWord (s : State) (a : Nat) : Nat :=
  let n := (a - 0x09100000000) / 0x100
  let o := a % 0x100
  if o < 0xC0 then (s.flagAt n (o / 4)).val.toNat else if o < 0xE0 then s.fld (Reg.rgsBarGen ((o - 0xC0) / 4)) else 0

/-- Bytes of device memory. Control space and the Ledger window are read elsewhere. -/
def State.read (s : State) (a len : Nat) : List Byte :=
  if 0x09100000000 ≤ a ∧ a < 0x09100010000 then leBytes len (s.flagWord a) else bytesAt s.mem a len

/-- A little-endian number read from device memory. -/
def State.readNat (s : State) (a len : Nat) : Nat := leNat (s.read a len)

/-- Bytes written to memory: the tags, the bytes, the damage they clear and the errors injected on them. -/
def writeBytes (who : Requester) (a : Nat) (bs : List Byte) : Prog :=
  seqs [touch true who a bs.length,
        emit (bs.zipIdx.map fun p => .memB (a + p.2) p.1),
        clearHurt a bs.length,
        injectWrite a bs.length]

/-- Bytes written to host memory. -/
def hostWrite (a : Nat) (bs : List Byte) : Prog := emit (bs.zipIdx.map fun p => .hostB (a + p.2) p.1)

/-! Descriptors (02 R48). -/

/-- Word `w` of a command. -/
def dword (d : Block64) (w : Nat) : Nat := (d.toNat / 2 ^ (32 * w)) % 2 ^ 32

/-- Bits `lo` to `lo + n − 1` of word `w` of a command. -/
def dfld (d : Block64) (w lo n : Nat) : Nat := bits (dword d w) lo n

/-- Two words as one address: `lo` whole and the low `n` bits of `hi`. -/
def daddr (d : Block64) (lo hi n : Nat) : Nat := dword d lo + 2 ^ 32 * dfld d hi 0 n

/-- CLASS. -/
def dClass (d : Block64) : Nat := dfld d 0 0 8
/-- OPCODE. -/
def dOp (d : Block64) : Nat := dfld d 0 8 8
/-- RESTARTABLE. -/
def dRestart (d : Block64) : Bool := dfld d 0 16 1 == 1
/-- ORDERED. -/
def dOrdered (d : Block64) : Bool := dfld d 0 17 1 == 1
/-- IRQ. -/
def dIrq (d : Block64) : Bool := dfld d 0 18 1 == 1
/-- SIG_EN. -/
def dSigEn (d : Block64) : Bool := dfld d 0 19 1 == 1
/-- SHAPE_EN. -/
def dShapeEn (d : Block64) : Bool := dfld d 0 20 1 == 1
/-- SHAPE_FIELD. -/
def dShapeField (d : Block64) : Nat := dfld d 0 21 3
/-- TAG. -/
def dTag (d : Block64) : Nat := dfld d 0 24 8
/-- WAIT_CORE. -/
def dWaitCore (d : Block64) : Nat := dfld d 1 0 8
/-- WAIT_FLAG. -/
def dWaitFlag (d : Block64) : Nat := dfld d 1 8 6
/-- WAIT_BAR. -/
def dWaitBar (d : Block64) : Bool := dfld d 1 14 1 == 1
/-- WAIT_COND. -/
def dWaitCond (d : Block64) : Nat := dfld d 1 16 3
/-- WAIT_VALUE. -/
def dWaitValue (d : Block64) : Nat := dword d 2
/-- SIG_CORE. -/
def dSigCore (d : Block64) : Nat := dfld d 3 0 8
/-- SIG_FLAG. -/
def dSigFlag (d : Block64) : Nat := dfld d 3 8 6
/-- SIG_OP. -/
def dSigOp (d : Block64) : Nat := dfld d 3 16 2
/-- SIG_VALUE. -/
def dSigValue (d : Block64) : Nat := dword d 4
/-- WAIT_TIMEOUT. -/
def dTimeout (d : Block64) : Nat := dword d 5
/-- SHAPE_ADDR, LPA[43:3] in words 6 and 7. -/
def dShapeAddr (d : Block64) : Nat := (dword d 6 + 2 ^ 32 * dfld d 7 0 9) * 8
/-- SHAPE_GEN. -/
def dShapeGen (d : Block64) : Nat := dfld d 7 16 8

/-- The requester a stream is in Table 7 of 01 R34: a core stream is its core, any other stream an engine. -/
def requesterOf (sid : Nat) : Requester := if sid < 1024 then .core (sid / 4) else .engine sid

end Sys2Proof.Machine
end

