-- ==== Sys2Proof/Machine/Streams.lean ====
section
/-! DEFINITION. Command streams, flags, barriers and tasks (chapter 02): doorbells, fetching and issue, waits and watches, how a
command ends, halts and resumes, and the SYNC class. -/

namespace Sys2Proof.Machine

/-- Stream ids in use: 0–1,087 (02 R39). -/
def strmCount : Nat := 1088

/-- The logical core of a core stream. -/
def coreOfSid (sid : Nat) : Option Nat := if sid < 1024 then some (sid / 4) else none

/-- The streams of logical core `n`. -/
def sidsOfCore (n : Nat) : List Nat := [4 * n, 4 * n + 1, 4 * n + 2, 4 * n + 3]

/-- Entries of a stream's ring. -/
def State.ringSize (s : State) (sid : Nat) : Nat := 2 ^ s.fld (Reg.strmSize sid)

/-- Base of a stream's ring. -/
def State.ringBase (s : State) (sid : Nat) : Nat :=
  s.fld (Reg.strmBaseLo sid) * 4096 + s.fld (Reg.strmBaseHi sid) * 2 ^ 32

/-! The units of a core (03 R67, R68). -/

/-- The class runs on the array scheduler: MATMUL, RAGGED, GRAD. -/
def isArrayClass (c : Nat) : Bool := c == 0x03 || c == 0x04 || c == 0x06

/-- Issued commands of core `n` whose class satisfies `p`. -/
def State.issuedOf (s : State) (n : Nat) (p : Nat → Bool) : Nat :=
  ((sidsOfCore n).map fun sid => ((s.strm sid).issued.filter fun c => p (dClass c.desc)).length).foldl (· + ·) 0

/-- DEFER of a GRAD command (05 R148, word 10 bit 28). -/
def dDefer (d : Block64) : Bool := dClass d == 0x06 && dfld d 10 28 1 == 1

/-- Deferred commands issued on core `n`. -/
def State.deferIssued (s : State) (n : Nat) : Nat :=
  ((sidsOfCore n).map fun sid => ((s.strm sid).issued.filter fun c => dDefer c.desc).length).foldl (· + ·) 0

/-- The registers that show a core's units follow the issued commands (03 R100). -/
def syncCore (n : Nat) : Prog := withS fun s =>
  seqs [setF (Reg.coreArrHeld n) (s.issuedOf n isArrayClass), setF (Reg.coreVecHeld n) (s.issuedOf n (· == 0x05)),
        setF (Reg.coreDmaActive n) (s.issuedOf n (· == 0x02))]

/-- The command issues only once the stream's earlier commands have ended: ORDERED, and TASK_END (02 R44, R66). -/
def isOrdered (d : Block64) : Bool := dOrdered d || (dClass d == 0x01 && dOp d == 5)

/-- The oldest held command waits for a flag, a barrier or room in its unit (02 R44, 03 R68, 09 R264). -/
def Strm.waits (x : Strm) : Bool :=
  match x.ahead, x.wait with
  | _, .idle => false
  | c :: _, .woken _ => !(isOrdered c.desc && !x.issued.isEmpty)
  | l, _ => !l.isEmpty

/-- STATE of a stream (02 R40 Table 2): halted; disabled once its issued commands have ended (R46); waiting while its oldest held
command waits (03 R68, 09 R264); running while a command runs or can be fetched; idle. -/
def State.strmStateOf (s : State) (sid : Nat) : Nat :=
  let x := s.strm sid
  if x.halted then 4
  else if !s.flagBit (Reg.strmEnable sid) then (if x.issued.isEmpty then 0 else 2)
  else if x.waits then 3
  else if !x.issued.isEmpty || !x.ahead.isEmpty || s.fld (Reg.strmHead sid) != s.fld (Reg.strmTail sid) then 2 else 1

/-- STATE and the unit registers are brought up to date. -/
def syncStrm (sid : Nat) : Prog :=
  seq (withS fun s => setF (Reg.strmState sid) (s.strmStateOf sid)) (given (coreOfSid sid) syncCore)

/-- A stream record is replaced. -/
def setStrm (sid : Nat) (x : Strm) : Prog := emit [.strm sid x]

/-- The core of a core stream runs again. -/
def ungateSid (sid : Nat) : Prog := given (coreOfSid sid) ungate

/-! Flags and watches (02 R57, R58). -/

/-- The wait condition (02 R50). -/
def condHolds (cond f v : Nat) : Bool :=
  if cond = 1 then decide ((f + 2 ^ 32 - v) % 2 ^ 32 < 2 ^ 31)
  else if cond = 2 then f == v
  else if cond = 3 then f != v
  else cond == 0

/-- What a command's wait reads now: a flag or a barrier generation. -/
def State.waitVal (s : State) (d : Block64) : Nat :=
  if dWaitBar d then s.fld (Reg.rgsBarGen (dWaitFlag d)) else (s.flagAt (dWaitCore d) (dWaitFlag d)).val.toNat

/-- Who made the value a wait reads: the flag's last signaller, or the generation that completed last (16 R448). -/
def State.waitSig (s : State) (d : Block64) : Signaller :=
  if dWaitBar d then .barrier (dWaitFlag d) ((s.fld (Reg.rgsBarGen (dWaitFlag d)) + 2 ^ 32 - 1) % 2 ^ 32)
  else (s.flagAt (dWaitCore d) (dWaitFlag d)).by_

/-- A command's wait condition holds now. -/
def State.waitHolds (s : State) (d : Block64) : Bool := condHolds (dWaitCond d) (s.waitVal d) (dWaitValue d)

/-- The streams whose oldest held command watches what `p` accepts. -/
def State.watchers (s : State) (p : Block64 → Bool) : List (Nat × Cmd) :=
  s.strms.filterMap fun e =>
    match e.2.ahead with
    | c :: _ => if e.2.wait = .watching && p c.desc then some (e.1, c) else none
    | [] => none

/-- The watches that `p` accepts are evaluated; those that hold are woken, and stay woken (02 R57). -/
def wakeWatchers (p : Block64 → Bool) : Prog := withS fun s =>
  forEach (s.watchers p) fun w =>
    if s.waitHolds w.2.desc then
      seq (setStrm w.1 { s.strm w.1 with wait := .woken (s.waitSig w.2.desc) }) (ungateSid w.1)
    else skip

/-- The flag operations (02 R57, SIG_OP coding): 0 SET, 1 ADD modulo 2^32, 2 MAX unsigned. -/
def flagResult (op : Nat) (f v : Word) : Word :=
  if op = 0 then v else if op = 1 then f + v else if f.toNat < v.toNat then v else f

/-- A flag operation is applied at its home core: the value, the record of who applied it, and the watches on the flag. A flag of a
core out of service takes none (16 R460). -/
def flagOp (core f op v : Nat) (by_ : Signaller) : Prog := withS fun s =>
  if 256 ≤ core ∨ 48 ≤ f ∨ s.outOfService core then skip
  else seq (emit [.flag (64 * core + f) ⟨flagResult op (s.flagAt core f).val (BitVec.ofNat 32 v), by_⟩])
    (wakeWatchers fun d => !dWaitBar d && dWaitCore d == core && dWaitFlag d == f)

/-! Doorbells (02 R42, R53). -/

/-- A tail write: bits at and above STRM_SIZE are ignored. -/
def doorbellProg (sid tail : Nat) : Prog := withS fun s =>
  if strmCount ≤ sid then skip
  else seqs [setF (Reg.strmTail sid) (tail % s.ringSize sid), ungateSid sid, syncStrm sid]

/-- A SYNC DOORBELL or a queue RING adds to the target's tail modulo its entry count (02 R53). -/
def ringBy (sid advance : Nat) : Prog := withS fun s => doorbellProg sid (s.fld (Reg.strmTail sid) + advance)

/-! Ends, halts and resumes (02 R45–R47). -/

/-- Commands without the one of accession `a`. -/
def dropAcc (a : Nat) (l : List Cmd) : List Cmd := l.filter (·.acc != a)

/-- Commands in ring order: the order in which their slots were first fetched. -/
def inRingOrder (l : List Cmd) : List Cmd :=
  l.foldl (fun r c => (r.takeWhile (·.first < c.first)) ++ c :: r.dropWhile (·.first < c.first)) []

/-- The next accession number of a stream. -/
def State.accNext (s : State) (sid : Nat) : Nat := s.fld48 (Reg.strmAccNextLo sid) (Reg.strmAccNextHi sid)

/-- One command is read from its ring slot as one 64-byte unit and takes the next accession number (02 R43, R47). A slot that
cannot be read ends the command. A command fetched again for `old` names it as its predecessor and keeps its place in ring order. -/
def fetchSlot (sid slot : Nat) (old : Option Cmd) (k : Cmd → Prog) : Prog := withS fun s =>
  let a := s.ringBase sid + 64 * slot
  let bad := if s.reach (requesterOf sid) .read a 64 then s.readHurt a 64 else some .addressFault
  let acc := s.accNext sid
  seqs [touch false (requesterOf sid) a 64,
        setF48 (Reg.strmAccNextLo sid) (Reg.strmAccNextHi sid) (acc + 1),
        k ⟨acc, BitVec.ofNat 512 (s.readNat a 64), slot, old.map (·.acc), (old.map (·.first)).getD acc, bad, .none, false, 0, 0, none, 0, []⟩]

/-- A resume takes effect: the faulted commands are dropped, or fetched again in ring order ahead of those held (02 R45, R47). Where the
first command to end in error is not the earliest of them in the ring, R45's `in ring order` and `beginning with the one
STRM_FAULT_ACC names` disagree: ring order is taken (DESIGN CHOICE, log 50). A skip leaves the oldest held command's wait as it is. -/
def resumeNow (sid : Nat) (retry : Bool) : Prog := withS fun s =>
  let x := s.strm sid
  seqs [setStrm sid { x with halted := false, faulted := [], resume := .none, wait := if retry then .idle else x.wait },
        onlyIf retry (forEach (inRingOrder x.faulted).zipIdx fun c =>
          fetchSlot sid c.1.slot (some c.1) fun n => withS fun t =>
            let y := t.strm sid
            setStrm sid { y with ahead := y.ahead.take c.2 ++ n :: y.ahead.drop c.2 })]

/-- A RESET ends once the issued commands have: head and tail become 0 and ENABLE clears (02 R40, R45). -/
def finishReset (sid : Nat) : Prog :=
  seqs [setStrm sid Strm.reset, setF (Reg.strmHead sid) 0, setF (Reg.strmTail sid) 0, setF (Reg.strmEnable sid) 0]

/-- What waits for the issued commands of a stream to end: a RESET or a resume. -/
def settle (sid : Nat) : Prog :=
  seq (withS fun s =>
    let x := s.strm sid
    if !x.issued.isEmpty then skip
    else if x.resetting then finishReset sid
    else match x.resume with
      | .none => skip
      | .skip => onlyIf x.halted (resumeNow sid false)
      | .retry => onlyIf x.halted (resumeNow sid true))
  (syncStrm sid)

/-- JOB_ID of the loaded job (13 R396). -/
def State.jobId (s : State) : Nat := s.fld Reg.rgsJobId

/-- A reason of COL_VETO is set and COL_STEP_OK clears (09 R282, R283). -/
def vetoStep (reason : Nat) : Prog :=
  seq (setF Reg.colStepOk 0) (withS fun s => setF Reg.colVeto (s.fld Reg.colVeto ||| 2 ^ reason))

/-- A command ends (02 R45, R51, 16 R448): with OK it applies its signal, and sends the stream's interrupt message if it has IRQ;
with any other status it halts its stream. END is appended after every effect of the command. -/
def endCmd (sid : Nat) (c : Cmd) (st : Status) (skipped : Bool := false) : Prog := withS fun s =>
  let x := s.strm sid
  let wasHead := match x.ahead with | h :: _ => h.acc == c.acc | [] => false
  let y := { x with issued := dropAcc c.acc x.issued, ahead := dropAcc c.acc x.ahead,
                    wait := if wasHead then .idle else x.wait }
  let fin := logEv (.stream sid) c.acc st (dTag c.desc) false (.fin skipped s.jobId ((s.strm sid).issued.find? (·.acc == c.acc) |>.bind (·.reqs)))
  if st = .ok then
    seqs [setStrm sid y,
          onlyIf (dSigEn c.desc)
            (flagOp (dSigCore c.desc) (dSigFlag c.desc) (dSigOp c.desc) (dSigValue c.desc) (.stream sid c.acc)),
          fin,
          settle sid,
          onlyIf (dIrq c.desc) (withS fun t => sendIrq (t.fld (Reg.strmIrqVec sid)))]
  else
    seqs [setStrm sid { y with halted := true, faulted := y.faulted ++ [c] },
          setF (Reg.strmLastStatus sid) (statusCode st),
          onlyIf (!x.halted) (seq (setF48 (Reg.strmFaultAccLo sid) (Reg.strmFaultAccHi sid) c.acc) (vetoStep 1)),
          fin,
          settle sid,
          withS fun t => sendIrq (t.fld (Reg.strmIrqVec sid))]

/-- START is appended for a command that passes its checks, once. -/
def startCmd (sid : Nat) (c : Cmd) : Prog := withS fun s =>
  if c.started then skip
  else
    let x := s.strm sid
    seq (setStrm sid { x with issued := x.issued.map fun d => if d.acc = c.acc then { d with started := true } else d })
      (logStart (.stream sid) c.acc (dTag c.desc) c.sig)

/-- The issued command of a stream is changed. -/
def updCmd (sid acc : Nat) (f : Cmd → Cmd) : Prog := withS fun s =>
  let x := s.strm sid
  setStrm sid { x with issued := x.issued.map fun c => if c.acc = acc then f c else c }

/-- A progress mark (16 R451 Table 5). -/
def markCmd (sid : Nat) (c : Cmd) (mark : Nat) : Prog :=
  seq (updCmd sid c.acc fun d => { d with mark := mark })
    (logEv (.stream sid) c.acc .ok (dTag c.desc) false (.progress mark))

/-- A command that passes its checks, does its work and ends with OK. -/
def runOk (sid : Nat) (c : Cmd) (work : Prog) : Prog := seqs [startCmd sid c, work, endCmd sid c .ok]

/-- The issued command that a row names: its stream, accession number, class and opcode; nothing when there is none. -/
def State.issuedCmd (s : State) (sid acc cls op : Nat) : Option Cmd :=
  (s.strm sid).issued.find? fun c => c.acc == acc && dClass c.desc == cls && dOp c.desc == op

/-- The program of an issued command. A row that names no such command does nothing (00 R15). -/
def onIssued (sid acc cls op : Nat) (k : Cmd → Prog) : Prog := withS fun s => given (s.issuedCmd sid acc cls op) k

/-- Checks, then work: the first failing check ends the command, before START. -/
def checked (sid : Nat) (c : Cmd) (f : Option Status) (work : Prog) : Prog :=
  match f with
  | some st => endCmd sid c st
  | none => work

/-! Shape words (02 R54, R55). -/

/-- The ranges a shape word may lie in (02 R54). -/
def shapeRange (r : Option Range) : Bool :=
  match r with
  | some .hbm => true
  | some (.scratch _) => true
  | some .ls => true
  | _ => false

/-- COUNT of the shape word at `a`, or the fault of R55: out of range, damaged, or of another generation. -/
def State.shapeCount (s : State) (who : Requester) (a gen : Nat) : Nat × Option Status :=
  if a % 8 ≠ 0 ∨ !shapeRange (s.extent a 8) ∨ !s.reach who .read a 8 then (0, some .addressFault)
  else match s.readHurt a 8 with
    | some st => (0, some st)
    | none =>
      let w := s.readNat a 8
      if bits w 32 8 ≠ gen then (0, some .shapeFault) else (bits w 0 32, none)

/-- A count field: from the descriptor, or from the shape word that drives it. -/
def State.countOf (s : State) (sid : Nat) (d : Block64) (field own : Nat) : Nat :=
  if dShapeEn d && dShapeField d == field then (s.shapeCount (requesterOf sid) (dShapeAddr d) (dShapeGen d)).1 else own

/-- The fault of a command's own shape word, if it has one. -/
def State.shapeFault (s : State) (sid : Nat) (d : Block64) : Option Status :=
  if dShapeEn d then (s.shapeCount (requesterOf sid) (dShapeAddr d) (dShapeGen d)).2 else none

/-- A shape word (02 R54 Table 7). -/
def shapeWordBytes (count tag sid : Nat) : List Byte := leBytes 8 (count % 2 ^ 32 + tag % 256 * 2 ^ 32 + sid % 2048 * 2 ^ 40)

/-! Issue (02 R39, R44, R49, R50). -/

/-- The classes each stream kind accepts (02 R39 Table 1). -/
def classAccepted (sid cls : Nat) : Bool :=
  if sid < 1024 then [0x01, 0x02, 0x03, 0x04, 0x05, 0x06].contains cls
  else if sid < 1040 then [0x01, 0x10].contains cls
  else if sid < 1056 then [0x01, 0x11].contains cls
  else if sid < 1064 then [0x01, 0x12].contains cls
  else if sid < 1072 then [0x01, 0x13].contains cls
  else [0x01, 0x02].contains cls

/-- The opcodes of each class. -/
def opAssigned (cls op : Nat) : Bool :=
  if cls = 0x01 then op ≤ 6
  else if cls = 0x02 then op ≤ 3
  else if cls = 0x03 then op ≤ 1
  else if cls = 0x04 then op == 0
  else if cls = 0x05 then op ≤ 7 || (0x10 ≤ op && op ≤ 0x17) || (0x20 ≤ op && op ≤ 0x23)
  else if cls = 0x06 then op ≤ 1
  else if cls = 0x10 then op ≤ 4
  else if cls = 0x11 then op ≤ 6
  else if cls = 0x12 then op ≤ 4
  else if cls = 0x13 then op ≤ 1
  else false

/-- SHAPE_FIELD names a count field of the opcode. -/
def shapeFieldOk (cls op f : Nat) : Bool :=
  if cls = 0x02 then op == 0 && f == 0
  else if cls = 0x03 then (if op = 0 then f ≤ 2 else f == 0)
  else if cls = 0x04 then f == 0
  else if cls = 0x05 then f == 0
  else if cls = 0x06 then (if op = 0 then f ≤ 2 else f == 0)
  else if cls = 0x10 then op == 0 && f == 0
  else if cls = 0x11 then op ≤ 4 && f == 0
  else if cls = 0x12 then op ≤ 4 && f == 0
  else if cls = 0x13 then f == 0
  else false

/-- What ends a command before it waits or moves data: a fetch that could not be read, a class its stream does not take (R39), the
header rules of R49, TASK_BEGIN and TASK_END off a core stream (R65), a DMA shape without UNIT_BYTES, or a core out of service that
its wait or signal names (16 R460). -/
def State.earlyFault (s : State) (sid : Nat) (c : Cmd) : Option Status :=
  let d := c.desc
  let cls := dClass d
  match c.bad with
  | some st => some st
  | none => firstFault
    [(!classAccepted sid cls || !opAssigned cls (dOp d), .descriptorFault),
     (decide (3 < dWaitCond d) || dSigOp d == 3, .descriptorFault),
     (if dWaitBar d then decide (7 < dWaitFlag d) else decide (47 < dWaitFlag d), .descriptorFault),
     (dSigEn d && decide (47 < dSigFlag d), .descriptorFault),
     (dShapeEn d && !shapeFieldOk cls (dOp d) (dShapeField d), .descriptorFault),
     (cls == 0x01 && (dOp d == 4 || dOp d == 5) && decide (1024 ≤ sid), .descriptorFault),
     (cls == 0x02 && dShapeEn d && dfld d 14 0 16 == 0, .descriptorFault),
     ((dWaitCond d != 0 && !dWaitBar d && s.outOfService (dWaitCore d)) || (dSigEn d && s.outOfService (dSigCore d)), .unitFault)]

/-- The group a stage command names: in its own fields, or in the layer record of a Curator command (06 Table 2). -/
def State.groupOf (s : State) (d : Block64) : Option Nat :=
  if dClass d = 0x11 then some (dfld d 8 0 6)
  else if dClass d = 0x10 && decide (1 ≤ dOp d) && decide (dOp d ≤ 3) then some (leNat (bytesAt s.mem (daddr d 8 9 12 + 80) 4) / 2 ^ 17 % 64)
  else none

/-- The group has room for one more stage: at most 4 in flight, those issued and not yet begun among them (09 R264). -/
def State.groupHasRoom (s : State) (d : Block64) : Bool :=
  match s.groupOf d with
  | none => true
  | some g =>
    let waiting := ((List.range 32).map fun i =>
      ((s.strm (1024 + i)).issued.filter fun c => c.phase == 0 && s.groupOf c.desc == some g).length).foldl (· + ·) 0
    s.fld (Reg.colGrpInflight g) + waiting < 4

/-- The unit of a command has room for one more (03 R68, 05 R148, 09 R264). -/
def State.unitHasRoom (s : State) (sid : Nat) (d : Block64) : Bool :=
  match coreOfSid sid with
  | none => s.groupHasRoom d
  | some n =>
    let cls := dClass d
    if isArrayClass cls then s.issuedOf n isArrayClass < 4 && !(dDefer d && decide (2 ≤ s.deferIssued n))
    else if cls = 0x05 then s.issuedOf n (· == 0x05) < 2
    else if cls = 0x02 then s.issuedOf n (· == 0x02) < 4
    else true

/-- The watches that core `n` holds for waiters on its flags. -/
def State.watchCount (s : State) (n : Nat) : Nat := (s.watchers fun d => !dWaitBar d && dWaitCore d == n).length

/-- The stream may issue: enabled, not halted, not in a RESET. -/
def State.mayIssue (s : State) (sid : Nat) : Bool :=
  s.flagBit (Reg.strmEnable sid) && !(s.strm sid).halted && !(s.strm sid).resetting

/-- A wait begins: a watch in the home core's table of 64, or polling when it is full (02 R58). Barrier waits take no watch. -/
def beginWait (sid : Nat) (c : Cmd) : Prog := withS fun s =>
  let x := s.strm sid
  let home := dWaitCore c.desc
  if !dWaitBar c.desc && decide (64 ≤ s.watchCount home) then
    seqs [setStrm sid { x with wait := .polling }, incF (Reg.coreWatchOverflow home), syncStrm sid]
  else seq (setStrm sid { x with wait := .watching }) (syncStrm sid)

/-- The stream's oldest held command could issue now. -/
def State.eligible (s : State) (sid : Nat) : Bool :=
  let x := s.strm sid
  s.mayIssue sid && match x.ahead with
    | [] => false
    | c :: _ => (s.earlyFault sid c).isNone && !(isOrdered c.desc && !x.issued.isEmpty) && s.unitHasRoom sid c.desc &&
        (match x.wait with
        | .woken _ => true
        | .idle => dWaitCond c.desc == 0 || s.waitHolds c.desc
        | _ => false)

/-- A core's sequencer takes its eligible streams in round robin, starting after the one that issued last (03 R68): no stream before
this one in that order could issue. -/
def State.hasTurn (s : State) (sid : Nat) : Bool :=
  match coreOfSid sid with
  | none => true
  | some n =>
    let place := fun t => (t % 4 + 3 - (s.core n).last % 4) % 4
    (sidsOfCore n).all fun t => !(decide (place t < place sid) && s.eligible t)

/-- A core notes that one of its streams issued (03 R68). -/
def noteIssue (sid : Nat) : Prog := given (coreOfSid sid) fun n => withS fun s =>
  emit [.core n { s.core n with last := sid % 4, turns := (s.core n).turns + 1 }]

/-- The oldest held command of a stream issues, if it is eligible (02 R44) and it is the stream's turn (03 R68). -/
def issueNow (sid : Nat) (c : Cmd) (g : Signaller) : Prog := withS fun s =>
  let x := s.strm sid
  if (isOrdered c.desc && !x.issued.isEmpty) || !s.unitHasRoom sid c.desc then
    seq (setStrm sid { x with wait := .woken g }) (syncStrm sid)
  else if !s.hasTurn sid then skip
  else seqs
    [setStrm sid { x with ahead := x.ahead.tail, issued := x.issued ++ [{ c with sig := g, turn := (s.core (sid / 4)).turns }], wait := .idle },
     noteIssue sid,
     logEv (.stream sid) c.acc .ok (dTag c.desc) false (.issue (dClass c.desc) (dOp c.desc) (dRestart c.desc) c.pred),
     syncStrm sid]

/-- COMMAND_ISSUE: the early faults, then the wait condition, then issue. -/
def issueProg (sid : Nat) : Prog := withS fun s =>
  let x := s.strm sid
  if !s.mayIssue sid then skip
  else match x.ahead with
    | [] => skip
    | c :: _ =>
      match s.earlyFault sid c with
      | some st => endCmd sid c st
      | none =>
        match x.wait with
        | .woken g => issueNow sid c g
        | .idle =>
          if dWaitCond c.desc = 0 then issueNow sid c .none
          else if s.waitHolds c.desc then issueNow sid c (s.waitSig c.desc)
          else beginWait sid c
        | .watching => skip
        | .polling => skip

/-- COMMAND_FETCH: up to 8 commands are held ahead (02 R44). -/
def fetchProg (sid : Nat) : Prog := withS fun s =>
  let x := s.strm sid
  let head := s.fld (Reg.strmHead sid)
  if strmCount ≤ sid ∨ !s.mayIssue sid ∨ head = s.fld (Reg.strmTail sid) ∨ 8 ≤ x.ahead.length then skip
  else fetchSlot sid head none fun c =>
    seqs [setStrm sid { x with ahead := x.ahead ++ [c] },
          setF (Reg.strmHead sid) ((head + 1) % s.ringSize sid), syncStrm sid]

/-- WATCH_POLL: a polling waiter reads the flag (02 R58). -/
def pollProg (sid : Nat) : Prog := withS fun s =>
  let x := s.strm sid
  match x.ahead with
  | c :: _ => onlyIf (x.wait = .polling && s.waitHolds c.desc)
      (seq (setStrm sid { x with wait := .woken (s.waitSig c.desc) }) (ungateSid sid))
  | [] => skip

/-! Enable, disable, resume, reset (02 R41, R45, R46, R478). -/

/-- The ring lies wholly in HBM or in one backed scratchpad half (02 R41). -/
def State.ringOk (s : State) (sid : Nat) : Bool :=
  match s.extent (s.ringBase sid) (64 * s.ringSize sid) with
  | some .hbm => true
  | some (.scratch _) => true
  | _ => false

/-- The stream is one of a core out of service. -/
def State.sidAway (s : State) (sid : Nat) : Bool := decide (sid < 1024) && s.outOfService (sid / 4)

/-- A write of 1 to ENABLE: refused for a ring elsewhere, on a core out of service (16 R460), and on a core of a
lender (08 R257). -/
def enableProg (sid : Nat) : Prog := withS fun s =>
  if strmCount ≤ sid then skip
  else
    if s.sidAway sid then seqs [setF (Reg.strmEnable sid) 0, setF (Reg.strmLastStatus sid) (statusCode .unitFault), syncStrm sid]
    else if sid < 1024 && s.flagBit (Reg.btrLendMode 0) then
      seqs [setF (Reg.strmEnable sid) 0, setF (Reg.strmLastStatus sid) (statusCode .sequenceFault), syncStrm sid]
    else if !s.ringOk sid then
      seqs [setF (Reg.strmEnable sid) 0, setF (Reg.strmLastStatus sid) (statusCode .addressFault), syncStrm sid]
    else seqs [setF (Reg.strmEnable sid) 1, ungateSid sid, syncStrm sid]

/-- What a disabled stream keeps of a wait: one in progress is abandoned, one whose condition has held stays woken (02 R46, R57). -/
def Wait.kept : Wait → Wait
  | .woken g => .woken g
  | _ => .idle

/-- A write of 0 to ENABLE: nothing is lost, and a wait in progress is abandoned (02 R46). -/
def disableProg (sid : Nat) : Prog := withS fun s =>
  if strmCount ≤ sid then skip
  else seqs [setF (Reg.strmEnable sid) 0, setStrm sid { s.strm sid with wait := (s.strm sid).wait.kept }, ungateSid sid, syncStrm sid]

/-- A resume: ignored on a stream that is not halted; it waits for the issued commands (02 R45). -/
def resumeProg (sid : Nat) (retry : Bool) : Prog := withS fun s =>
  let x := s.strm sid
  if strmCount ≤ sid ∨ !x.halted then skip
  else seqs [ungateSid sid, setStrm sid { x with resume := if retry then .retry else .skip }, settle sid]

/-- A RESET: fetching stops, the held commands are discarded with SEQUENCE_FAULT and no START, and the rest follows once the issued
commands have ended (02 R46). -/
def resetProg (sid : Nat) : Prog := withS fun s =>
  let x := s.strm sid
  if strmCount ≤ sid then skip
  else seqs
    [ungateSid sid,
     setStrm sid { x with ahead := [], wait := .idle, resetting := true, resume := .none },
     forEach x.ahead fun c => logEv (.stream sid) c.acc .sequenceFault (dTag c.desc) false (.fin false s.jobId none),
     settle sid]

/-! Timeouts and late arrivals (01 R26, 02 R50). -/

/-- The command, held or issued, that is `acc`. -/
def State.cmdOf (s : State) (sid acc : Nat) : Option Cmd := ((s.strm sid).ahead ++ (s.strm sid).issued).find? (·.acc == acc)

/-- WAIT_TIMEOUT: the wait of the oldest held command, or of an ARRIVE_WAIT, ends with TIMEOUT unless what it waits for is readable
(01 R26). A timeout of 0 waits without limit. -/
def timeoutProg (sid acc : Nat) : Prog := withS fun s =>
  let x := s.strm sid
  let expire (c : Cmd) : Prog := seq (incF (Reg.strmWaitTimeouts sid)) (endCmd sid c .timeout)
  match x.ahead with
  | c :: _ =>
    if c.acc = acc ∧ dTimeout c.desc ≠ 0 ∧ (x.wait = .watching ∨ x.wait = .polling) then
      (if s.waitHolds c.desc then setStrm sid { x with wait := .woken (s.waitSig c.desc) } else expire c)
    else
      given (x.issued.find? fun c => c.acc == acc && dClass c.desc == 1 && dOp c.desc == 2 && c.phase == 1 && dTimeout c.desc != 0) expire
  | [] => given (x.issued.find? fun c => c.acc == acc && dClass c.desc == 1 && dOp c.desc == 2 && c.phase == 1 && dTimeout c.desc != 0) expire

/-- The late-arrival counter of each waiting unit. -/
def lateFld : LateUnit → Fld
  | .stream sid => Reg.strmLate sid
  | .group g => Reg.colGrpLate g
  | .curator => Reg.curXchgLate
  | .coherence d => Reg.vltCohLate d
  | .response => Reg.chnLate
  | .order => Reg.chnOrderLate
  | .liveness => Reg.chnLiveLate

/-- The source a late arrival is logged under. -/
def lateSrc : LateUnit → Src
  | .stream sid => .stream sid
  | .group g => .unit (0x100 + g)
  | .curator => .unit 0x140
  | .coherence d => .unit (0x150 + d)
  | .response => .unit 0x160
  | .order => .unit 0x161
  | .liveness => .unit 0x162

/-- A late arrival is counted, discarded and logged (01 R26). -/
def lateProg (u : LateUnit) : Prog :=
  seq (incF (lateFld u)) (withS fun s => logEv (lateSrc u) 0 .timeout 0 false (.late u (s.fld (lateFld u))))

/-! Clock gating (02 R60). -/

/-- The core's streams are idle or waiting and its units idle, and gating is not disabled. -/
def State.mayGate (s : State) (n : Nat) : Bool :=
  s.fld (Reg.coreGateDelay n) != 0 &&
  (sidsOfCore n).all fun sid => (s.strm sid).issued.isEmpty && (s.strmStateOf sid == 1 || s.strmStateOf sid == 3)

/-- CORE_GATE: the clocks of a core that has been idle for CORE_GATE_DELAY core cycles stop. -/
def gateProg (n : Nat) : Prog := withS fun s =>
  onlyIf (decide (n < 256) && s.mayGate n) (emit [.core n { s.core n with gated := true }])

/-! Barrier channels (02 R61–R63). -/

/-- The participant a stream arrives for: its core, or 256 + the bit of its engine in RGS_BAR_ENGINES. -/
def participantOf (sid : Nat) : Nat :=
  if sid < 1024 then sid / 4
  else if sid < 1040 then 256
  else if sid < 1056 then 257
  else if sid < 1064 then 258 + (sid - 1056)
  else if sid < 1072 then 266 + (sid - 1064) / 4
  else 268

/-- The participants of channel `c`. -/
def State.participants (s : State) (c : Nat) : List Nat :=
  ((List.range 256).filter fun n => bit (s.fld (Reg.rgsBarCores c (n / 32))) (n % 32)) ++
  (((List.range 13).filter fun i => bit (s.fld (Reg.rgsBarEngines c)) i).map (256 + ·))

/-- What an arrival comes to (02 R62), in the order of its rules. -/
inductive Arrival where
  | refused (st : Status)
  | empty
  | counted
  deriving DecidableEq, Repr

/-- An arrival is judged. -/
def State.judgeArrival (s : State) (c who gen : Nat) : Arrival :=
  let ps := s.participants c
  if !s.flagBit (Reg.rgsBarEnable c) then .refused .flagFault
  else if ps.isEmpty then .empty
  else if !ps.contains who then .refused .flagFault
  else if gen ≠ s.fld (Reg.rgsBarGen c) then .refused .sequenceFault
  else if (s.bar c).arrived.contains who then .refused .sequenceFault
  else .counted

/-- The commands of ARRIVE_WAIT that wait at channel `c`, with their streams. -/
def State.barrierWaiters (s : State) (c : Nat) : List (Nat × Cmd) :=
  s.strms.flatMap fun e =>
    (e.2.issued.filter fun d => dClass d.desc == 1 && dOp d.desc == 2 && d.phase == 1 && dfld d.desc 8 0 3 == c).map fun d => (e.1, d)

/-- An ARRIVE_WAIT is released: START names the channel and the generation that released it (16 R448). -/
def releaseArriver (sid : Nat) (d : Cmd) : Prog :=
  let g := Signaller.barrier (dfld d.desc 8 0 3) (dword d.desc 9)
  seq (startCmd sid { d with sig := g }) (endCmd sid d .ok)

/-- The generation of channel `c` advances: arrivals clear, the mirrors follow, waiters wake. -/
def advanceGen (c : Nat) : Prog := withS fun s =>
  let gen := s.fld (Reg.rgsBarGen c)
  seqs [setF (Reg.rgsBarGen c) ((gen + 1) % 2 ^ 32), setF (Reg.rgsBarArrived c) 0,
        emit [.bar c { s.bar c with arrived := [] }],
        wakeWatchers fun d => dWaitBar d && dWaitFlag d == c,
        withS fun t => forEach (t.barrierWaiters c) fun w =>
          onlyIf (condHolds 1 (t.fld (Reg.rgsBarGen c)) ((dword w.2.desc 9 + 1) % 2 ^ 32)) (releaseArriver w.1 w.2)]

/-- An arrival is counted; the last one of its generation advances it. -/
def countArrival (c who sid acc : Nat) : Prog := withS fun s =>
  let x := s.bar c
  let gen := s.fld (Reg.rgsBarGen c)
  let arrived := x.arrived ++ [who]
  seqs [emit [.bar c { arrived := arrived, makers := nset x.makers gen ((nget x.makers gen).getD [] ++ [(sid, acc)]) }],
        setF (Reg.rgsBarArrived c) arrived.length,
        onlyIf ((s.participants c).all arrived.contains) (advanceGen c)]

/-- BARRIER_ARRIVE completes as soon as its arrival is counted; ARRIVE_WAIT once the generation passes GEN (02 R63). -/
def arriveProg (sid : Nat) (c : Cmd) (wait : Bool) : Prog := withS fun s =>
  let ch := dfld c.desc 8 0 3
  let gen := dword c.desc 9
  if c.phase = 1 then
    onlyIf (condHolds 1 (s.fld (Reg.rgsBarGen ch)) ((gen + 1) % 2 ^ 32)) (releaseArriver sid c)
  else match s.judgeArrival ch (participantOf sid) gen with
    | .refused st => seq (incF (Reg.rgsBarRefused ch)) (endCmd sid c st)
    | .empty => runOk sid c skip
    | .counted =>
      if wait then
        seq (updCmd sid c.acc fun d => { d with phase := 1 }) (countArrival ch (participantOf sid) sid c.acc)
      else runOk sid c (countArrival ch (participantOf sid) sid c.acc)

/-- RGS_BAR_CLEAR discards the arrivals of the current generation. -/
def barClearProg (c : Nat) : Prog := withS fun s =>
  onlyIf (decide (c < 8)) (seq (emit [.bar c ⟨[], ndel (s.bar c).makers (s.fld (Reg.rgsBarGen c))⟩]) (setF (Reg.rgsBarArrived c) 0))

/-! Tasks (02 R64–R66). -/

/-- The flags of a 48-bit mask. -/
def maskFlags (m : Nat) : List Nat := (List.range 48).filter fun i => bit m i

/-- TASK_BEGIN. -/
def taskBeginProg (sid : Nat) (c : Cmd) : Prog := withS fun s =>
  let n := sid / 4
  let m := dword c.desc 8 + 2 ^ 32 * dfld c.desc 9 0 16
  checked sid c (firstFault [(s.flagBit (Reg.coreTaskOpen n), .sequenceFault), (s.flagBit (Reg.coreFlagFault n), .flagFault)])
    (runOk sid c (seqs
      [setF (Reg.coreTaskMaskLo n) (dword c.desc 8), setF (Reg.coreTaskMaskHi n) (dfld c.desc 9 0 16),
       setF (Reg.coreTaskOpen n) 1,
       emit [.core n { s.core n with snap := (maskFlags m).map fun f => (f, (s.flagAt n f).val) }]]))

/-- The commands of the package that wait on a masked flag of core `n` and have not issued (02 R66): the waits in progress. -/
def State.waitersOn (s : State) (n : Nat) (fs : List Nat) : List (Nat × Cmd) :=
  s.strms.filterMap fun e =>
    match e.2.ahead with
    | c :: _ => if e.2.wait ≠ .idle && !dWaitBar c.desc && dWaitCond c.desc != 0 && dWaitCore c.desc == n && fs.contains (dWaitFlag c.desc)
        then some (e.1, c) else none
    | [] => none

/-- The open task of core `n` is closed (02 R66); `fin` is told its status. CORE_TASK_MASK names the flags of the open task; what it reads once the task has closed the spec does not say, and the
model leaves the closed task's mask there (DESIGN CHOICE, log 51). -/
def closeTask (n : Nat) (src : Src) (acc tag : Nat) (fin : Status → Prog) : Prog := withS fun s =>
  let snap := (s.core n).snap
  let diff := snap.filter fun p => (s.flagAt n p.1).val != p.2
  let residue := (diff.map fun p => 2 ^ p.1).foldl (· + ·) 0
  seqs
    [setF (Reg.coreTaskOpen n) 0,
     emit [.core n { s.core n with snap := [] }],
     if diff.isEmpty then fin .ok
     else seqs
       [setF (Reg.coreFlagFault n) 1, setF (Reg.coreFlagResidueHi n) (residue / 2 ^ 32), setF (Reg.coreFlagResidueLo n) (residue % 2 ^ 32),
        forEach diff fun p => logEv src acc .flagFault tag false (.flag n p.1 p.2.toNat (s.flagAt n p.1).val.toNat),
        fin .flagFault,
        forEach (s.waitersOn n (snap.map (·.1))) fun w => endCmd w.1 w.2 .flagFault]]

/-- TASK_END. -/
def taskEndProg (sid : Nat) (c : Cmd) : Prog := withS fun s =>
  if !s.flagBit (Reg.coreTaskOpen (sid / 4)) then endCmd sid c .sequenceFault
  else seq (startCmd sid c) (closeTask (sid / 4) (.stream sid) c.acc (dTag c.desc) (endCmd sid c))

/-- SYNC DOORBELL. -/
def syncDoorbellProg (sid : Nat) (c : Cmd) : Prog :=
  let target := dfld c.desc 8 0 11
  let advance := dfld c.desc 9 0 16
  if strmCount ≤ target then endCmd sid c .descriptorFault
  else if advance = 0 then endCmd sid c .ok
  else runOk sid c (ringBy target advance)

/-- SHAPE_WRITE. -/
def shapeWriteProg (sid : Nat) (c : Cmd) : Prog := withS fun s =>
  let a := daddr c.desc 10 11 12
  let who := requesterOf sid
  let lsOut := match coreOfAddr a with | some n => s.outOfService n | none => false
  checked sid c
    (firstFault [(a % 8 != 0 || !shapeRange (s.extent a 8) || !s.reach who .write a 8, .addressFault), (lsOut, .unitFault)] |>.or
      (s.writeHurt a 8))
    (runOk sid c (writeBytes who a (shapeWordBytes (dword c.desc 8) (dTag c.desc) sid)))

/-! The commands. -/

/-- DOORBELL (02 R42). -/
def execDoorbell (sid tail : Nat) (s : State) : Out := .next (run (doorbellProg sid tail) s)

/-- STREAM_ENABLE (02 R41). -/
def execStreamEnable (sid : Nat) (s : State) : Out := .next (run (enableProg sid) s)

/-- STREAM_DISABLE (02 R46). -/
def execStreamDisable (sid : Nat) (s : State) : Out := .next (run (disableProg sid) s)

/-- RESUME_SKIP (02 R45). -/
def execResumeSkip (sid : Nat) (s : State) : Out := .next (run (resumeProg sid false) s)

/-- RESUME_RETRY (02 R45). -/
def execResumeRetry (sid : Nat) (s : State) : Out := .next (run (resumeProg sid true) s)

/-- STREAM_RESET (02 R46). -/
def execStreamReset (sid : Nat) (s : State) : Out := .next (run (resetProg sid) s)

/-- COMMAND_FETCH (02 R44). -/
def execCommandFetch (sid : Nat) (s : State) : Out := .next (run (fetchProg sid) s)

/-- COMMAND_ISSUE (02 R44). -/
def execCommandIssue (sid : Nat) (s : State) : Out := .next (run (issueProg sid) s)

/-- WAIT_TIMEOUT (02 R50). -/
def execWaitTimeout (sid acc : Nat) (s : State) : Out := .next (run (timeoutProg sid acc) s)

/-- LATE_ARRIVAL (01 R26). -/
def execLateArrival (u : LateUnit) (s : State) : Out := .next (run (lateProg u) s)

/-- FLAG_SET (02 R57). -/
def execFlagSet (core flag value : Nat) (by_ : Signaller) (s : State) : Out := .next (run (flagOp core flag 0 value by_) s)

/-- FLAG_ADD (02 R57). -/
def execFlagAdd (core flag value : Nat) (by_ : Signaller) (s : State) : Out := .next (run (flagOp core flag 1 value by_) s)

/-- FLAG_MAX (02 R57). -/
def execFlagMax (core flag value : Nat) (by_ : Signaller) (s : State) : Out := .next (run (flagOp core flag 2 value by_) s)

/-- WATCH_POLL (02 R58). -/
def execWatchPoll (sid : Nat) (s : State) : Out := .next (run (pollProg sid) s)

/-- CORE_GATE (02 R60). -/
def execCoreGate (n : Nat) (s : State) : Out := .next (run (gateProg n) s)

/-- NOP (02 R48). -/
def execNop (sid acc : Nat) (s : State) : Out :=
  .next (run (onIssued sid acc 0x01 0 fun c => runOk sid c skip) s)

/-- BARRIER_ARRIVE (02 R62). -/
def execBarrierArrive (sid acc : Nat) (s : State) : Out :=
  .next (run (onIssued sid acc 0x01 1 fun c => arriveProg sid c false) s)

/-- ARRIVE_WAIT (02 R63). -/
def execArriveWait (sid acc : Nat) (s : State) : Out :=
  .next (run (onIssued sid acc 0x01 2 fun c => arriveProg sid c true) s)

/-- RGS_BAR_CLEAR (02 R61). -/
def execRgsBarClear (c : Nat) (s : State) : Out := .next (run (barClearProg c) s)

/-- SYNC_DOORBELL (02 R53). -/
def execSyncDoorbell (sid acc : Nat) (s : State) : Out :=
  .next (run (onIssued sid acc 0x01 3 (syncDoorbellProg sid)) s)

/-- TASK_BEGIN (02 R65). -/
def execTaskBegin (sid acc : Nat) (s : State) : Out := .next (run (onIssued sid acc 0x01 4 (taskBeginProg sid)) s)

/-- TASK_END (02 R66). -/
def execTaskEnd (sid acc : Nat) (s : State) : Out := .next (run (onIssued sid acc 0x01 5 (taskEndProg sid)) s)

/-- SHAPE_WRITE (02 R54). -/
def execShapeWrite (sid acc : Nat) (s : State) : Out := .next (run (onIssued sid acc 0x01 6 (shapeWriteProg sid)) s)

end Sys2Proof.Machine
end

