-- ==== Sys2Proof/Machine/Tensors.lean ====
section
/-! DEFINITION. Tensors in memory (03 R78–R82, 04 R104–R107): format codes, tile-major matrices and linear tensors with their block
scales and per-tensor scale, their extents, and the packing of elements into bytes. -/

namespace Sys2Proof.Machine

/-- The element format of a format code (03 R82 Table 5, 04 Table 2). -/
def elemFmt (code : Nat) : Fmt :=
  if code = 0x0 then bf16 else if code = 0x1 then fp16 else if code = 0x2 then e4m3 else if code = 0x3 then e5m2
  else if code = 0x4 then e4m3 else if code = 0x5 then e5m2 else if code = 0x6 then e3m2 else if code = 0x7 then e2m3
  else if code = 0x8 then e2m1 else if code = 0x9 then e4m3 else if code = 0xA then e2m3 else if code = 0xB then e2m1
  else fp32

/-- The code is assigned. -/
def fmtAssigned (code : Nat) : Bool := code ≤ 0xB || code == 0xF

/-- The format may be an array operand. -/
def fmtOperand (code : Nat) : Bool := code ≤ 0xB

/-- The format is block-scaled. -/
def fmtScaled (code : Nat) : Bool := decide (4 ≤ code) && decide (code ≤ 0xB)

/-- An MX format. -/
def fmtMx (code : Nat) : Bool := decide (4 ≤ code) && decide (code ≤ 8)

/-- A Deckle format. -/
def fmtDeckle (code : Nat) : Bool := decide (9 ≤ code) && decide (code ≤ 0xB)

/-- The format class of 03 R76 Table 3, its two 8-bit rows counted as one (R81): 1, 2 or 4 elements a step. -/
def fmtStep (code : Nat) : Nat := if code ≤ 1 then 1 else if code = 8 ∨ code = 0xB then 4 else 2

/-- Block size of a BLOCK field. -/
def blockSize (b : Nat) : Nat := 16 * 2 ^ b

/-- Bits of one element. -/
def fmtBits (code : Nat) : Nat := (elemFmt code).width

/-- ⌈a / b⌉. -/
def cdiv (a b : Nat) : Nat := (a + b - 1) / b

/-- The next multiple of `b`. -/
def roundUp (a b : Nat) : Nat := cdiv a b * b

/-- A stored tile-major matrix (03 R78, 04 R106): base LPA, format code, block size, per-tensor scale, block orientation, and its stored
rows and columns. -/
structure Mat where
  base   : Nat
  fmt    : Nat
  block  : Nat
  tscale : Bool
  colBlk : Bool
  rows   : Nat
  cols   : Nat
  deriving DecidableEq, Repr

/-- Element tiles. -/
def Mat.tiles (m : Mat) : Nat := cdiv m.rows 16 * cdiv m.cols 16

/-- Bytes of the element tiles. -/
def Mat.tileBytes (m : Mat) : Nat := m.tiles * (32 * fmtBits m.fmt)

/-- Scale bytes, counted over whole tile rows (log 10). -/
def Mat.scales (m : Mat) : Nat :=
  if !fmtScaled m.fmt then 0
  else if m.colBlk then cdiv (roundUp m.rows 16) m.block * roundUp m.cols 16
  else roundUp m.rows 16 * cdiv (roundUp m.cols 16) m.block

/-- The extent: element tiles, scale bytes up to 64, the per-tensor scale word. -/
def Mat.extent (m : Mat) : Nat := m.tileBytes + roundUp m.scales 64 + (if m.tscale then 64 else 0)

/-- Number of an element within the tiles. -/
def Mat.index (m : Mat) (r c : Nat) : Nat := (r / 16 * cdiv m.cols 16 + c / 16) * 256 + r % 16 * 16 + c % 16

/-- Number of an element's scale byte. -/
def Mat.scaleIndex (m : Mat) (r c : Nat) : Nat :=
  if m.colBlk then r / m.block * roundUp m.cols 16 + c else r * cdiv (roundUp m.cols 16) m.block + c / m.block

/-- `w` bits at bit `b` of a byte string in memory, little-endian (04 R105). -/
def State.bitsAt (s : State) (base b w : Nat) : Nat :=
  let n := (b % 8 + w + 7) / 8
  leNat (bytesAt s.mem (base + b / 8) n) / 2 ^ (b % 8) % 2 ^ w

/-- The element's value without its block scale, and the scale's exponent; NaN under scale byte 0xFF (04 R104). -/
def State.matElem (s : State) (m : Mat) (r c : Nat) : FV × Int :=
  let v := (elemFmt m.fmt).decode (s.bitsAt m.base (m.index r c * fmtBits m.fmt) (fmtBits m.fmt))
  if !fmtScaled m.fmt then (v, 0)
  else
    let x := (byteAt s.mem (m.base + m.tileBytes + m.scaleIndex r c)).toNat
    if x = 0xFF then (.nan, 0) else (v, (x : Int) - 127)

/-- The per-tensor scale, an FP32 code; 1 when the tensor carries none. -/
def State.matTscale (s : State) (m : Mat) : Nat :=
  if m.tscale then leNat (bytesAt s.mem (m.base + m.tileBytes + roundUp m.scales 64) 4) else 0x3F800000

/-- The element's whole value, rounded once to FP32 (04 R104, 05 R142). -/
def State.matF32 (s : State) (m : Mat) (r c : Nat) : Nat :=
  let e := s.matElem m r c
  enc fp32 ((e.1.scale e.2).mul (fp32.decode (s.matTscale m)))

/-- A linear tensor (04 R107). -/
structure Lin where
  base   : Nat
  fmt    : Nat
  block  : Nat
  tscale : Bool
  count  : Nat
  deriving DecidableEq, Repr

/-- Element bytes: exact when unscaled, up to 64 when block-scaled. -/
def Lin.elemBytes (l : Lin) : Nat :=
  let n := cdiv (l.count * fmtBits l.fmt) 8
  if fmtScaled l.fmt then roundUp n 64 else n

/-- Scale bytes. -/
def Lin.scales (l : Lin) : Nat := if fmtScaled l.fmt then cdiv l.count l.block else 0

/-- The extent. -/
def Lin.extent (l : Lin) : Nat := l.elemBytes + roundUp l.scales 64 + (if l.tscale then 64 else 0)

/-- The element's value rounded once to FP32. -/
def State.linF32 (s : State) (l : Lin) (i : Nat) : Nat :=
  let v := (elemFmt l.fmt).decode (s.bitsAt l.base (i * fmtBits l.fmt) (fmtBits l.fmt))
  let x := if fmtScaled l.fmt then (byteAt s.mem (l.base + l.elemBytes + i / l.block)).toNat else 127
  let t := if l.tscale then leNat (bytesAt s.mem (l.base + l.elemBytes + roundUp l.scales 64) 4) else 0x3F800000
  if x = 0xFF then fp32.nanCode else enc fp32 ((v.scale ((x : Int) - 127)).mul (fp32.decode t))

/-- Codes packed little-endian, `w` bits each (04 R105). -/
def packCodes (w : Nat) (codes : List Nat) : List Byte :=
  leBytes (cdiv (codes.length * w) 8) (codes.foldr (fun c acc => c % 2 ^ w + 2 ^ w * acc) 0)

/-- A local-store extent that a command of core `n` names: 64-byte aligned, wholly within the store (03 R70). -/
def lsExtent (o len : Nat) : Bool := o % 64 == 0 && decide (o + len ≤ 0x400000)

/-! Stochastic rounding's generator (04 R117). -/

/-- The 32-bit draw of (seed, tensor id, index). -/
def srDraw (seed tensor index : Nat) : Nat :=
  let x := BitVec.ofNat 64 (seed + tensor * 0x9E3779B97F4A7C15 + index * 0xD1B54A32D192ED03)
  let x := (x ^^^ (x >>> 30)) * 0xBF58476D1CE4E5B9
  let x := (x ^^^ (x >>> 27)) * 0x94D049BB133111EB
  let x := x ^^^ (x >>> 31)
  x.toNat % 2 ^ 32

/-! Exact-sum blocks (04 R128–R130). -/

/-- Two's complement of `w` bits. -/
def toSigned (w v : Nat) : Int := if v % 2 ^ w < 2 ^ (w - 1) then (v % 2 ^ w : Nat) else (v % 2 ^ w : Nat) - (2 ^ w : Nat)

/-- A signed number in `w` bits. -/
def ofSigned (w : Nat) (x : Int) : Nat := (x % (2 ^ w : Nat)).toNat

/-- An exact-sum block, read from its 512 bytes. -/
structure ExBlock where
  slots   : List Nat
  anchor  : Nat
  mask    : Nat
  flags   : Nat
  addends : Nat
  deriving DecidableEq, Repr

/-- The block in 512 bytes (04 R128 Table 12). -/
def ExBlock.ofBytes (bs : List Byte) : ExBlock :=
  let v := leNat bs
  ⟨(List.range 32).map fun j => v / 2 ^ (96 * j) % 2 ^ 96, v / 2 ^ 3072 % 2 ^ 16, v / 2 ^ 3104 % 2 ^ 32, v / 2 ^ 3136 % 4,
   v / 2 ^ 3168 % 2 ^ 32⟩

/-- The bytes of a block; its reserved bytes are zero. -/
def ExBlock.toBytes (b : ExBlock) : List Byte :=
  let slots := b.slots.foldr (fun c acc => c % 2 ^ 96 + 2 ^ 96 * acc) 0
  leBytes 512 (slots % 2 ^ 3072 + 2 ^ 3072 * (b.anchor % 2 ^ 16) + 2 ^ 3104 * (b.mask % 2 ^ 32) + 2 ^ 3136 * (b.flags % 4) +
    2 ^ 3168 * (b.addends % 2 ^ 32))

/-- The anchor used: outside −126…127 the nearer bound. -/
def ExBlock.a (b : ExBlock) : Int := max (-126) (min 127 (toSigned 16 b.anchor))

/-- The integer nearest to m × 2^e, ties to even. -/
def nearInt (m : Nat) (e : Int) : Nat :=
  if 0 ≤ e then m * 2 ^ e.toNat
  else
    let d := (-e).toNat
    let n := m / 2 ^ d
    let r := m % 2 ^ d
    if 2 ^ d < 2 * r ∨ (2 * r = 2 ^ d ∧ n % 2 = 1) then n + 1 else n

/-- One addend to slot `j` (04 R129). A NaN or infinite addend counts in ADDENDS too (log 11). -/
def ExBlock.add1 (b : ExBlock) (j : Nat) (x : Nat) : ExBlock :=
  let b := { b with addends := (b.addends + 1) % 2 ^ 32 }
  match fp32.decode x with
  | .fin neg m e =>
    let q0 := nearInt m (e + 64 - b.a)
    let excess := !((FV.fin false m e).lt (.fin false 1 b.a))
    let q := if excess then 2 ^ 64 - 1 else q0
    let fl := (if excess then 1 else 0) ||| (if m ≠ 0 ∧ q = 0 then 2 else 0)
    { b with slots := b.slots.set j ((b.slots.getD j 0 + ofSigned 96 (if neg then -(q : Int) else q)) % 2 ^ 96),
             flags := b.flags ||| fl }
  | _ => { b with mask := b.mask ||| 2 ^ j }

/-- Addends to the slots of a mask, packed in ascending slot order (07 R220). -/
def ExBlock.addAll (b : ExBlock) (slots : List Nat) (xs : List Nat) : ExBlock :=
  (slots.zip xs).foldl (fun b p => b.add1 p.1 p.2) b

/-- Slot `j` converted to FP32 (04 R130). -/
def ExBlock.conv (b : ExBlock) (j : Nat) : Nat :=
  if bit b.mask j then fp32.nanCode
  else
    let x := toSigned 96 (b.slots.getD j 0)
    enc fp32 (.fin (decide (x < 0)) x.natAbs (b.a - 64))

/-- EXACT_CLEAR keeps the anchor. -/
def ExBlock.cleared (b : ExBlock) : ExBlock := ⟨List.replicate 32 0, b.anchor, 0, 0, 0⟩

end Sys2Proof.Machine
end

