-- ==== Sys2Proof/Machine/Drain.lean ====
section
/-! DEFINITION. The drain unit (04 R108–R131, 05 R140–R147): the drain record and its checks, the path of a value, activations and
derivatives, block scales, the census, overflow and the replay ladder. -/

namespace Sys2Proof.Machine

/-! Values with a count of the infinities that rounding finite values made (04 R123). -/

/-- An FP32 code and the overflows counted on the way to it. -/
abbrev Cnt := Nat × Nat

/-- A result rounded from finite operands to an infinity counts one. -/
def cnt1 (fin : Bool) (r : Nat) : Nat := if fin && fIsInf fp32 r then 1 else 0

/-- Sum. -/
def cAdd (a b : Cnt) : Cnt :=
  let r := fAdd fp32 a.1 b.1
  (r, a.2 + b.2 + cnt1 (fFinite fp32 a.1 && fFinite fp32 b.1) r)

/-- Product. -/
def cMul (a b : Cnt) : Cnt :=
  let r := fMul fp32 a.1 b.1
  (r, a.2 + b.2 + cnt1 (fFinite fp32 a.1 && fFinite fp32 b.1) r)

/-- Fused multiply-add. -/
def cFma (a b c : Cnt) : Cnt :=
  let r := fFma fp32 a.1 b.1 c.1
  (r, a.2 + b.2 + c.2 + cnt1 (fFinite fp32 a.1 && fFinite fp32 b.1 && fFinite fp32 c.1) r)

/-- A vector function. -/
def cFn (f : VFn) (a : Cnt) : Cnt := (f.eval a.1, a.2)

/-- The value alone, when it is used again. -/
def again (a : Cnt) : Cnt := (a.1, 0)

/-- An FP32 constant. -/
def k32 (c : Nat) : Cnt := (c, 0)

/-! The constants of 04 R109 and 05 R143: the FP32 values nearest to the decimals shown. -/

/-- The FP32 code nearest to n / 10^d. -/
def f32Dec (n d : Nat) : Nat := enc fp32 ((FV.fin false n 0).div (.fin false (10 ^ d) 0))

def one32 : Nat := 0x3F800000
def half32 : Nat := 0x3F000000
def two32 : Nat := 0x40000000

/-- The activations (04 R109 Table 5). -/
def act (a : Nat) (x : Cnt) : Cnt :=
  let x0 := again x
  if a = 0 then x
  else if a = 1 then (fMax fp32 x.1 0, x.2)
  else if a = 2 then
    let u := cMul (cMul x x0) x0
    let u := cFma (k32 (f32Dec 44715 6)) u x0
    let u := cFn .tanh (cMul u (k32 (f32Dec 7978846 7)))
    cMul (cMul x0 (k32 half32)) (cAdd u (k32 one32))
  else if a = 3 then
    let u := cFn .erf (cMul x (k32 (f32Dec 70710677 8)))
    cMul (cMul x0 (k32 half32)) (cAdd u (k32 one32))
  else if a = 4 then cMul x (cFn .sigmoid x0)
  else if a = 5 then cFn .sigmoid x
  else if a = 6 then cFn .tanh x
  else
    let r : Cnt := (fMax fp32 x.1 0, x.2)
    cMul r (again r)

/-- s > 0. -/
def pos32 (s : Nat) : Bool := fLt fp32 0 s

/-- The derivatives applied in the drain (05 R143 Table 4); `z` says that the saved tensor holds pre-activations. R143 gives a NaN
element the canonical NaN and DERIV_ACT 0 the derivative 1: the model takes the NaN first (DESIGN CHOICE, log 56). -/
def deriv (a : Nat) (z : Bool) (s : Nat) : Nat :=
  let m := fMul fp32
  let ad := fAdd fp32
  let fma := fFma fp32
  let c := fun n d => f32Dec n d
  let oneMinus := fun y => fSub fp32 one32 y
  if (fp32.decode s).isNan then fp32.nanCode
  else if a = 0 then one32
  else if a = 1 then (if pos32 s then one32 else 0)
  else if a = 2 then
    let u := m (m s s) s
    let u := fma (c 44715 6) u s
    let t := VFn.tanh.eval (m u (c 7978846 7))
    let w := fma (c 134145 6) (m s s) one32
    let g := m (oneMinus (m t t)) (m w (c 7978846 7))
    fma (m s half32) g (m (ad t one32) half32)
  else if a = 3 then
    let p := m (VFn.exp.eval (m (m s s) (0x80000000 + half32))) (c 3989423 7)
    fma s p (m (ad (VFn.erf.eval (m s (c 70710677 8))) one32) half32)
  else if a = 4 then
    let g := VFn.sigmoid.eval s
    fma (m s g) (oneMinus g) g
  else if a = 5 then
    let y := if z then VFn.sigmoid.eval s else s
    m y (oneMinus y)
  else if a = 6 then
    let y := if z then VFn.tanh.eval s else s
    fma (fNeg fp32 y) y one32
  else m two32 (if z then fMax fp32 s 0 else VFn.sqrt.eval s)

/-! What a command's results are to the drain. -/

/-- The shape of a command's output: a tile-major matrix, of whose rows some are written and some hold live elements; or a linear
tensor. -/
inductive OutShape where
  | tiles (rows cols capRows : Nat) (live padded : List Nat)
  | linear (count : Nat)
  deriving DecidableEq, Repr

/-- What one array or vector command asks of the drain: its core, output, drain record, class facts, and the COUNT of a VECTOR or
ELTWISE command. -/
structure DrainJob where
  core     : Nat
  outAddr  : Nat
  outFmt   : Nat
  accMode  : Bool
  capacity : Nat
  shape    : OutShape
  drec     : Block64
  isGrad   : Bool
  isVector : Bool
  capFault : Bool
  sources  : Nat
  deriving DecidableEq, Repr

namespace DrainJob

def biasEn (j : DrainJob) : Bool := dfld j.drec 0 22 1 == 1
def actCode (j : DrainJob) : Nat := dfld j.drec 0 24 4
def colBlk (j : DrainJob) : Bool := dfld j.drec 1 1 1 == 1 && !(match j.shape with | .linear _ => true | _ => false)
def block (j : DrainJob) : Nat := blockSize (dfld j.drec 1 2 2)
def outTscale (j : DrainJob) : Bool := dfld j.drec 1 4 1 == 1
def censusEn (j : DrainJob) : Bool := dfld j.drec 1 5 1 == 1
def ovfAction (j : DrainJob) : Nat := dfld j.drec 1 7 2
def gateEn (j : DrainJob) : Bool := dfld j.drec 1 9 1 == 1
def gateRung (j : DrainJob) : Nat := dfld j.drec 1 10 2
def tscale (j : DrainJob) : Nat := dword j.drec 2
def tensorId (j : DrainJob) : Nat := dword j.drec 3
def censusAddr (j : DrainJob) : Nat := dfld j.drec 4 0 22
def replayUnit (j : DrainJob) : Nat := dfld j.drec 5 0 12
def derivEn (j : DrainJob) : Bool := dfld j.drec 8 0 1 == 1
def maskMode (j : DrainJob) : Nat := dfld j.drec 10 22 2
def saveEn (j : DrainJob) : Bool := dfld j.drec 12 26 1 == 1

/-- The output as a matrix. -/
def mat (j : DrainJob) : Mat :=
  match j.shape with
  | .tiles _ cols cap _ _ => ⟨lsAddr j.core j.outAddr, j.outFmt, j.block, j.outTscale, j.colBlk, cap, cols⟩
  | .linear _ => ⟨0, 0, 16, false, false, 0, 0⟩

/-- The output as a linear tensor. -/
def lin (j : DrainJob) : Lin :=
  match j.shape with
  | .linear n => ⟨lsAddr j.core j.outAddr, j.outFmt, j.block, j.outTscale, n⟩
  | .tiles _ _ _ _ _ => ⟨0, 0, 16, false, 0⟩

/-- The whole extent of the output (04 R110). -/
def extent (j : DrainJob) : Nat :=
  match j.shape with
  | .tiles _ _ _ _ _ => j.mat.extent
  | .linear _ => j.lin.extent

/-- Bytes of the output's element tiles, or of its elements (03 R84 step 4). -/
def elemExtent (j : DrainJob) : Nat :=
  match j.shape with
  | .tiles _ _ _ _ _ => j.mat.tileBytes
  | .linear _ => j.lin.elemBytes

/-- Output columns, one bias element each (04 R111). A linear output has no columns in the spec: the model takes the element's number
for its column and COUNT for their number (DESIGN CHOICE, log 54). -/
def cols (j : DrainJob) : Nat :=
  match j.shape with
  | .tiles _ c _ _ _ => c
  | .linear n => n

/-- The saved tensor's extent: the output's, counted in DSRC_FMT (05 R142). -/
def savedMat (j : DrainJob) : Mat :=
  { j.mat with base := lsAddr j.core (dfld j.drec 9 0 22), fmt := dfld j.drec 8 5 4, block := blockSize (dfld j.drec 8 9 2),
               colBlk := dfld j.drec 8 11 1 == 1, tscale := dfld j.drec 8 12 1 == 1 }

/-- The saved tensor of a linear output. -/
def savedLin (j : DrainJob) : Lin :=
  { j.lin with base := lsAddr j.core (dfld j.drec 9 0 22), fmt := dfld j.drec 8 5 4, block := blockSize (dfld j.drec 8 9 2),
               tscale := dfld j.drec 8 12 1 == 1 }

/-- Bytes of the saved tensor. An unassigned DSRC_FMT has no extent in the spec, and R144 judges the extent before the format: the
model counts its elements as FP32 (DESIGN CHOICE, log 53). -/
def savedExtent (j : DrainJob) : Nat :=
  match j.shape with
  | .tiles _ _ _ _ _ => j.savedMat.extent
  | .linear _ => j.savedLin.extent

/-- Bytes of the save output (05 R141). A SAVE_FMT that R144 does not allow is judged for its extent first, at its own element size
(DESIGN CHOICE, log 53). -/
def saveExtent (j : DrainJob) : Nat :=
  let fmt := dfld j.drec 12 22 4
  match j.shape with
  | .tiles _ _ _ _ _ => { j.mat with fmt := fmt, tscale := false }.extent
  | .linear _ => { j.lin with fmt := fmt, tscale := false }.extent

/-- Bytes of the mask (05 R145, R147): for VECTOR, one bit for each of its COUNT source elements. MASK_MODE 1 or 2 outside GRAD gives
no rows to count: the model judges an extent of no bytes there (DESIGN CHOICE, log 53). -/
def maskExtent (j : DrainJob) (gradRows : Nat) : Nat :=
  if j.maskMode = 1 then cdiv gradRows 8
  else if j.maskMode = 2 then cdiv (cdiv gradRows 128) 8
  else match j.shape with
    | .tiles _ _ _ _ _ => 32 * j.mat.tiles
    | .linear _ => cdiv j.sources 8

/-- Tiles of staging a column-blocked output needs (04 R115). -/
def staging (j : DrainJob) : Nat := if fmtScaled j.outFmt && j.colBlk then j.block / 16 * cdiv j.cols 16 else 0

/-- The LPA of the command's replay word (04 R131). -/
def replayAddr (j : DrainJob) (s : State) : Nat :=
  s.fld (Reg.drnReplayBaseLo j.core) * 4096 + s.fld (Reg.drnReplayBaseHi j.core) * 2 ^ 32 + 8 * j.replayUnit

/-- The replay table lies in HBM or in one backed scratchpad half (04 R110). -/
def replayOk (j : DrainJob) (s : State) : Bool :=
  match s.extent (j.replayAddr s - 8 * j.replayUnit) 32768 with
  | some .hbm => true
  | some (.scratch _) => true
  | _ => false

/-- The checks of the drain record (04 R110), then those of its derivative and mask fields (05 R144). `gradRows` are the rows of dW
in a GRAD command; SAVE fields are judged only when enabled. -/
def faults (j : DrainJob) (s : State) (gradRows : Nat) : Option Status :=
  let biasBytes := j.cols * (if dfld j.drec 0 23 1 = 1 then 4 else 2)
  let replay := j.ovfAction == 1 || j.gateEn
  let dfmt := dfld j.drec 8 5 4
  firstFault
    [(j.censusEn && !lsExtent j.censusAddr 64, .addressFault),
     (j.biasEn && !lsInside (dfld j.drec 0 0 22) biasBytes, .addressFault),
     (decide (8 ≤ j.actCode) || j.ovfAction == 3 || (replay && j.replayUnit == 0) ||
        (fmtMx j.outFmt && dfld j.drec 1 2 2 != 1) || (j.outTscale && !fmtDeckle j.outFmt) ||
        (j.outTscale && !f32PosNormal j.tscale) || (j.biasEn && j.isVector) || decide (256 < j.staging) ||
        (j.isGrad && (j.biasEn || j.actCode != 0)), .descriptorFault),
     (replay && !j.replayOk s, .addressFault),
     (fmtScaled j.outFmt && j.capFault && decide (j.capacity < j.extent), .sizeFault),
     (fmtScaled j.outFmt && !lsExtent j.outAddr j.extent, .addressFault),
     (j.derivEn && !lsExtent (dfld j.drec 9 0 22) j.savedExtent, .addressFault),
     (j.maskMode != 0 && !lsExtent (dfld j.drec 10 0 22) (j.maskExtent gradRows), .addressFault),
     (j.saveEn && !lsExtent (dfld j.drec 12 0 22) j.saveExtent, .addressFault),
     ((j.derivEn && ((dfld j.drec 8 4 1 == 0 && [2, 3, 4].contains (dfld j.drec 8 1 3)) || !fmtAssigned dfmt ||
          (fmtMx dfmt && dfld j.drec 8 9 2 != 1) || (dfld j.drec 8 12 1 == 1 && !fmtDeckle dfmt))) ||
        ((j.maskMode == 1 || j.maskMode == 2) && !j.isGrad) ||
        (j.maskMode == 3 && (j.isGrad || !f32PosNormal (dword j.drec 11))) ||
        (j.saveEn && !([0x0, 0x1, 0xF].contains (dfld j.drec 12 22 4))) ||
        ((j.derivEn || j.maskMode == 3 || j.saveEn) && (j.isGrad || j.accMode)), .descriptorFault),
     (j.saveEn && decide (dfld j.drec 13 0 23 < j.saveExtent), .sizeFault)]

/-- The element's index for stochastic rounding (04 R117): row and column of a matrix, number of a linear element. R117 writes the
modulus 2^48 for the first alone; the model takes it for both (DESIGN CHOICE, log 55). -/
def srIndex (j : DrainJob) (r c : Nat) : Nat :=
  let base := dword j.drec 6 + 2 ^ 32 * dfld j.drec 7 0 16
  match j.shape with
  | .tiles _ cols _ _ _ =>
    let pitch := if dfld j.drec 7 16 16 = 0 then roundUp cols 16 else 16 * dfld j.drec 7 16 16
    (base + r * pitch + c) % 2 ^ 48
  | .linear _ => (base + c) % 2 ^ 48

/-- The rounding of step 8 (04 R108 ROUND). -/
def round (j : DrainJob) (s : State) (r c : Nat) : Option Nat :=
  if dfld j.drec 1 0 1 = 1 then
    some (srDraw (s.fld (Reg.drnSeedLo j.core) + 2 ^ 32 * s.fld (Reg.drnSeedHi j.core)) j.tensorId (j.srIndex r c))
  else none

/-- bias[column], a BF16 bias widened exactly. -/
def bias (j : DrainJob) (s : State) (c : Nat) : Nat :=
  let a := lsAddr j.core (dfld j.drec 0 0 22)
  if dfld j.drec 0 23 1 = 1 then leNat (bytesAt s.mem (a + 4 * c) 4) else leNat (bytesAt s.mem (a + 2 * c) 2) * 65536

/-- The mask bit of element `i` of the output's element order. -/
def maskBit (j : DrainJob) (s : State) (i : Nat) : Bool :=
  bit (byteAt s.mem (lsAddr j.core (dfld j.drec 10 0 22) + i / 8)).toNat (i % 8)

/-- The number of an element in the output's element order. -/
def order (j : DrainJob) (r c : Nat) : Nat :=
  match j.shape with
  | .tiles _ _ _ _ _ => j.mat.index r c
  | .linear _ => c

/-- The saved element (05 R142). -/
def saved (j : DrainJob) (s : State) (r c : Nat) : Nat :=
  match j.shape with
  | .tiles _ _ _ _ _ => s.matF32 j.savedMat r c
  | .linear _ => s.linF32 j.savedLin c

/-- Row `r` of dW is masked (05 R145). -/
def rowMasked (j : DrainJob) (s : State) (r : Nat) : Bool :=
  if j.maskMode = 1 then !j.maskBit s r else if j.maskMode = 2 then !j.maskBit s (r / 128) else false

end DrainJob

/-- A live element on its way: where it is, z after step 3, v at step 6, v after step 7, and the overflows counted. -/
structure El where
  r   : Nat
  c   : Nat
  z   : Nat
  v   : Nat
  w   : Nat
  ovf : Nat
  deriving DecidableEq, Repr

/-- Steps 1 to 7 of 04 R111 for one element. `t` is tA × tB when an operand carries a per-tensor scale. Under ACC_MODE 1 the stored
value is added and nothing further runs (03 R85); the census then counts the sum stored, since no value at step 6 exists (DESIGN
CHOICE, log 57). -/
def drainEl (j : DrainJob) (s : State) (t : Option Nat) (r c : Nat) (v0 : Cnt) : El :=
  let v := match t with
    | some x => cMul v0 (k32 x)
    | none => v0
  if j.accMode then
    let old := s.bitsAt (lsAddr j.core j.outAddr) (j.mat.index r c * 32) 32
    let a := cAdd v (k32 old)
    ⟨r, c, a.1, a.1, a.1, a.2⟩
  else
    let v := if j.biasEn then cAdd v (k32 (j.bias s c)) else v
    let z := v.1
    let v := act j.actCode v
    let d := if j.derivEn then fMul fp32 v.1 (deriv (dfld j.drec 8 1 3) (dfld j.drec 8 4 1 == 1) (j.saved s r c)) else v.1
    let m := if j.maskMode = 3 then (if j.maskBit s (j.order r c) then fMul fp32 d (dword j.drec 11) else 0) else d
    ⟨r, c, z, m, if j.outTscale then fDiv fp32 m j.tscale else m, v.2⟩

/-- A written element: its code and what the census counts of it (04 R121). -/
structure Wr where
  code  : Nat
  zero  : Bool
  oor   : Bool
  nonf  : Bool
  under : Bool
  deriving DecidableEq, Repr

/-- An element written alone, in an unscaled format. -/
def writeEl (j : DrainJob) (s : State) (e : El) : Wr :=
  let f := elemFmt j.outFmt
  let g := roundTo f (j.round s e.r e.c) (fp32.decode e.w)
  let d := f.decode g.1
  let v := fp32.decode e.v
  ⟨g.1, d.isZero, g.2, !d.isFin, v.isFin && !v.isZero && d.isZero⟩

/-- The scale exponent of a block of values in an element format and whether it was clamped at 127; `bump` is the second choice of
04 R112, which R113 does not have. -/
def scaleFor (f : Fmt) (bump : Bool) (ws : List FV) : Int × Bool :=
  let amax := ws.foldl (fun a w => if a.lt w.abs then w.abs else a) (.fin false 0 0)
  let top : FV := f.decode f.maxCode
  if amax.isZero then (0, false)
  else
    let s0 := amax.exponent - top.exponent
    let s := if bump && top.lt (amax.scale (-s0)) then s0 + 1 else s0
    (max (-127) (min 127 s), bump && decide (127 < s))

/-- The scale exponent of a block of an output (04 R112, R113). -/
def blockScale (fmt : Nat) (ws : List FV) : Int × Bool := scaleFor (elemFmt fmt) (fmtDeckle fmt) ws

/-- A block written whole: its scale byte, its elements, and 1 for a clamped block. -/
def writeBlock (j : DrainJob) (s : State) (es : List El) : Nat × List Wr × Nat :=
  let f := elemFmt j.outFmt
  let ws := es.map fun e => fp32.decode e.w
  if ws.any (fun w => !w.isFin) then (0xFF, es.map fun _ => ⟨0, false, false, true, false⟩, 0)
  else
    let sc := blockScale j.outFmt ws
    ((sc.1 + 127).toNat,
     es.map fun e =>
       let g := roundTo f (j.round s e.r e.c) ((fp32.decode e.w).scale (-sc.1))
       let d := f.decode g.1
       let v := fp32.decode e.v
       ⟨g.1, d.isZero, g.2, false, v.isFin && !v.isZero && d.isZero⟩,
     if sc.2 then 1 else 0)

/-- What a command writes: bytes at addresses, the census of its live elements, the clamped blocks. -/
structure DrainOut where
  bytes   : List (Nat × List Byte)
  wrs     : List (El × Wr)
  clamped : Nat
  deriving DecidableEq, Repr

/-- The live elements of one row, by column. -/
def rowEls (es : List El) (r : Nat) : List El := es.filter (·.r == r)

/-- Codes of a written row of tiles: 16 codes for each tile column; positions without a live element are zero. -/
def rowBytes (m : Mat) (r : Nat) (codes : Nat → Nat) : List (Nat × List Byte) :=
  (List.range (cdiv m.cols 16)).map fun t =>
    (m.base + m.index r (16 * t) * fmtBits m.fmt / 8, packCodes (fmtBits m.fmt) ((List.range 16).map fun i => codes (16 * t + i)))

/-- The per-tensor scale word (04 R106). -/
def tscaleWord (a t : Nat) : List (Nat × List Byte) := [(a, leBytes 64 t)]

/-- What a matrix output writes (03 R85, R89, 04 R106, R112–R115). -/
def drainTiles (j : DrainJob) (s : State) (es : List El) (live padded : List Nat) : DrainOut :=
  let m := j.mat
  let rows := live ++ padded
  if !fmtScaled j.outFmt then
    let ws := es.map fun e => (e, writeEl j s e)
    let code := fun r c => ((ws.find? fun p => p.1.r == r && p.1.c == c).map (·.2.code)).getD 0
    if j.accMode then ⟨ws.map fun p => (m.base + m.index p.1.r p.1.c * 4, leBytes 4 p.2.code), ws, 0⟩
    else ⟨rows.flatMap fun r => rowBytes m r (code r), ws, 0⟩
  else
    let keys := if m.colBlk
      then (rows.map (· / m.block)).eraseDups.flatMap fun b => (List.range (roundUp m.cols 16)).map fun c => (b, c)
      else rows.flatMap fun r => (List.range (cdiv (roundUp m.cols 16) m.block)).map fun b => (r, b)
    let blocks := keys.map fun k =>
      let mine := if m.colBlk then es.filter fun e => e.r / m.block == k.1 && e.c == k.2
        else es.filter fun e => e.r == k.1 && e.c / m.block == k.2
      let w := writeBlock j s mine
      (if m.colBlk then k.1 * roundUp m.cols 16 + k.2 else k.1 * cdiv (roundUp m.cols 16) m.block + k.2, mine.zip w.2.1, w.1, w.2.2)
    let ws := blocks.flatMap (·.2.1)
    let code := fun r c => ((ws.find? fun p => p.1.r == r && p.1.c == c).map (·.2.code)).getD 0
    let sc := m.base + m.tileBytes
    ⟨(rows.flatMap fun r => rowBytes m r (code r)) ++ (blocks.map fun b => (sc + b.1, leBytes 1 b.2.2.1)) ++
       [(sc + m.scales, leBytes (roundUp m.scales 64 - m.scales) 0)] ++
       (if m.tscale then tscaleWord (sc + roundUp m.scales 64) j.tscale else []),
     ws, (blocks.map (·.2.2.2)).foldl (· + ·) 0⟩

/-- What a linear output writes (04 R107). -/
def drainLinear (j : DrainJob) (s : State) (es : List El) : DrainOut :=
  let l := j.lin
  if !fmtScaled j.outFmt then
    let ws := es.map fun e => (e, writeEl j s e)
    ⟨[(l.base, packCodes (fmtBits l.fmt) (ws.map (·.2.code)))], ws, 0⟩
  else
    let blocks := (List.range (cdiv l.count l.block)).map fun b =>
      let mine := es.filter fun e => e.c / l.block == b
      let w := writeBlock j s mine
      (mine.zip w.2.1, w.1, w.2.2)
    let ws := blocks.flatMap (·.1)
    let eb := packCodes (fmtBits l.fmt) (ws.map (·.2.code))
    ⟨[(l.base, eb ++ leBytes (l.elemBytes - eb.length) 0),
      (l.base + l.elemBytes, (blocks.map fun b => BitVec.ofNat 8 b.2.1) ++ leBytes (roundUp l.scales 64 - l.scales) 0)] ++
       (if l.tscale then tscaleWord (l.base + l.elemBytes + roundUp l.scales 64) j.tscale else []),
     ws, (blocks.map (·.2.2)).foldl (· + ·) 0⟩

/-- The saved pre-activation (05 R141 stage 1). -/
def saveBytes (j : DrainJob) (es : List El) (rows : List Nat) : List (Nat × List Byte) :=
  let fmt := dfld j.drec 12 22 4
  let f := elemFmt fmt
  let code := fun (e : El) => enc f (fp32.decode e.z)
  let base := lsAddr j.core (dfld j.drec 12 0 22)
  if !j.saveEn then []
  else match j.shape with
    | .linear _ => [(base, packCodes f.width (es.map code))]
    | .tiles _ _ _ _ _ =>
      let m := { j.mat with base := base, fmt := fmt, tscale := false }
      rows.flatMap fun r => rowBytes m r fun c => ((es.find? fun e => e.r == r && e.c == c).map code).getD 0

/-! The census (04 R121, R122). -/

/-- A census record. -/
structure Census where
  elements : Nat
  zeros    : Nat
  oor      : Nat
  nonf     : Nat
  under    : Nat
  maxE     : Int
  minE     : Int
  fmt      : Nat
  rung     : Nat
  ovf      : Bool
  histRst  : Bool
  histBase : Nat
  histW    : Nat
  tensor   : Nat
  hist     : List Nat
  deriving DecidableEq, Repr

/-- The bin of an exponent (04 R121 Table 8). -/
def histBin (base : Int) (w : Nat) (e : Int) : Nat :=
  if e < base then 0 else min 7 (1 + ((e - base) / (w : Int)).toNat)

/-- The census of a command's live elements. -/
def censusOf (j : DrainJob) (ws : List (El × Wr)) (ovf : Bool) : Census :=
  let n := fun (p : Wr → Bool) => (ws.filter fun x => p x.2).length
  let exps := (ws.map fun x => fp32.decode x.1.v).filterMap fun v => if v.isFin && !v.isZero then some v.exponent else none
  let hw := dfld j.drec 1 12 2
  let base := dfld j.drec 1 24 8
  { elements := ws.length, zeros := n (·.zero), oor := n (·.oor), nonf := n (·.nonf), under := n (·.under),
    maxE := exps.foldl max (-32768), minE := exps.foldl min 32767,
    fmt := j.outFmt, rung := if j.gateEn then j.gateRung else 0, ovf := ovf, histRst := false,
    histBase := base, histW := hw, tensor := j.tensorId,
    hist := (List.range 8).map fun b => (exps.filter fun e => histBin (toSigned 8 base) (2 ^ hw) e == b).length }

/-- The record in memory (04 R121 Table 8). -/
def Census.ofBytes (bs : List Byte) : Census :=
  let v := leNat bs
  let w := fun i => v / 2 ^ (32 * i) % 2 ^ 32
  { elements := w 0, zeros := w 1, oor := w 2, nonf := w 3, under := w 4, maxE := toSigned 16 (w 5), minE := toSigned 16 (w 5 / 65536),
    fmt := bits (w 6) 0 4, rung := bits (w 6) 4 2, ovf := bit (w 6) 6, histRst := bit (w 6) 7, histBase := bits (w 6) 8 8,
    histW := bits (w 6) 16 2, tensor := w 7, hist := (List.range 8).map fun i => w (8 + i) }

/-- A count that saturates. -/
def sat32 (n : Nat) : Nat := min n 0xFFFFFFFF

/-- The 64 bytes of a record. -/
def Census.toBytes (c : Census) : List Byte :=
  let b := fun (x : Bool) => if x then 1 else 0
  [c.elements, c.zeros, c.oor, c.nonf, c.under].flatMap (fun n => leBytes 4 (sat32 n)) ++
  leBytes 2 (ofSigned 16 c.maxE) ++ leBytes 2 (ofSigned 16 c.minE) ++
  leBytes 4 (c.fmt + 16 * c.rung + 64 * b c.ovf + 128 * b c.histRst + 256 * c.histBase + 65536 * c.histW) ++
  leBytes 4 c.tensor ++ c.hist.flatMap fun n => leBytes 4 (sat32 n)

/-- Counts that saturate in a record. -/
def Census.saturated (c : Census) : Nat :=
  (([c.elements, c.zeros, c.oor, c.nonf, c.under] ++ c.hist).filter fun n => decide (0xFFFFFFFF < n)).length

/-- A command's record merged into the one held (04 R122). -/
def Census.merge (old new : Census) : Census :=
  let same := old.histBase == new.histBase && old.histW == new.histW
  { new with elements := old.elements + new.elements, zeros := old.zeros + new.zeros, oor := old.oor + new.oor,
             nonf := old.nonf + new.nonf, under := old.under + new.under, maxE := max old.maxE new.maxE,
             minE := min old.minE new.minE, ovf := old.ovf || new.ovf,
             histRst := if same then old.histRst else true,
             hist := if same then (old.hist.zip new.hist).map fun p => p.1 + p.2 else new.hist }

/-- The census record is written, once per command (04 R122). -/
def writeCensus (j : DrainJob) (c : Census) : Prog := withS fun s =>
  let a := lsAddr j.core j.censusAddr
  let c' := if dfld j.drec 1 6 1 = 1 then (Census.ofBytes (bytesAt s.mem a 64)).merge c else c
  onlyIf j.censusEn (seq (incF (Reg.drnCensusSat j.core) c'.saturated) (writeBytes (.core j.core) a c'.toBytes))

/-- Bytes written one piece at a time. -/
def writePieces (who : Requester) (ps : List (Nat × List Byte)) : Prog := forEach ps fun p => writeBytes who p.1 p.2

/-- A write into a hurt line that it covers in part stops the command (16 R444). -/
def State.piecesHurt (s : State) (ps : List (Nat × List Byte)) : Option Status :=
  ps.findSome? fun p => s.writeHurt p.1 p.2.length

/-- RUNG of a replay word after MAX_U with g + 1 (04 R126). -/
def DrainJob.newRung (j : DrainJob) (s : State) (g : Nat) : Nat := max (s.readNat (j.replayAddr s) 4) (g + 1)

/-- The two atomics on a replay word (04 R126): MAX_U of the rung, then ADD of one event. -/
def replayAtomics (j : DrainJob) (g : Nat) : Prog := withS fun s =>
  let a := j.replayAddr s
  let v := s.readNat a 8
  let rung := j.newRung s g
  let ev := (v / 2 ^ 32 + 1) % 2 ^ 32
  let sl := s.sliceOf a
  seq (writeBytes (.core j.core) a (leBytes 8 (rung + 2 ^ 32 * ev))) (incF (Reg.vltAtomics sl.1 sl.2) 2)

/-- The values of a command's output that count toward its overflow threshold (04 R123). -/
def DrainOut.overflows (o : DrainOut) : Nat :=
  (o.wrs.filter (·.2.oor)).length + o.clamped + (o.wrs.map (·.1.ovf)).foldl (· + ·) 0

/-- The output is an overflow event: its count exceeds the threshold of the drain record. -/
def DrainJob.event (j : DrainJob) (o : DrainOut) : Bool := decide (dfld j.drec 5 16 16 < o.overflows)

/-- The event ends the command with LAYER_FAULT: by its action, or because no wider rung is left. -/
def DrainJob.layer (j : DrainJob) (o : DrainOut) : Bool :=
  j.event o && (j.ovfAction == 2 || (j.ovfAction == 1 && (j.outFmt == 0x0 || j.outFmt == 0xF || (if j.gateEn then j.gateRung else 0) == 3)))

/-- The event applies the atomics of 04 R126. -/
def DrainJob.replays (j : DrainJob) (o : DrainOut) : Bool := j.event o && j.ovfAction == 1 && !j.layer o

/-- What the drain does once a command's elements are known (04 R111–R126): the writes, the census, the overflow event, and the
command's end. A damaged replay word refuses its atomics (07 R219), and the census is then left as it was (R122). -/
def drainEnd (j : DrainJob) (sid : Nat) (c : Cmd) (out : DrainOut) (save : List (Nat × List Byte)) (marks : List Nat) : Prog :=
  withS fun s =>
  let n := j.core
  let count := out.overflows
  let event := j.event out
  let g := if j.gateEn then j.gateRung else 0
  let layer := j.layer out
  let replays := j.replays out
  let unit := if j.ovfAction = 1 then j.replayUnit else 0
  let event1 := fun (rung : Nat) => seq (incF (Reg.drnOvfEvents n))
    (logEv (.stream sid) c.acc (if layer then .layerFault else .ok) (dTag c.desc) false (.numeric j.tensorId count j.outFmt unit rung))
  match s.piecesHurt (out.bytes ++ save) with
  | some st => endCmd sid c st
  | none => seqs
    [writePieces (.core n) save,
     writePieces (.core n) out.bytes,
     forEach marks fun m => markCmd sid c m,
     match if replays then s.readHurt (j.replayAddr s) 8 else none with
     | some st => seq (event1 g) (endCmd sid c st)
     | none => seqs
       [writeCensus j (censusOf j out.wrs event),
        onlyIf event (seq (onlyIf replays (replayAtomics j g)) (event1 (if replays then j.newRung s g % 8 else g))),
        if layer then seq (incF (Reg.drnLayerFaults n)) (endCmd sid c .layerFault) else endCmd sid c .ok]]

end Sys2Proof.Machine
end

