-- ==== Sys2Proof/Machine/Memory.lean ====
section
/-! DEFINITION. The Vault and HBM (chapter 07): requests at their home slice, atomics and exact-sum operations, the quire directory,
partition changes, flushes, page attributes, the slice arbiter and the thermal states. -/

namespace Sys2Proof.Machine

/-- One extent of a command's data: written or not, address, length. -/
abbrev Ext := Bool × Nat × Nat

/-- Extents that the Vault serves. -/
def vaultExt (write : Bool) (a len : Nat) : List Ext := if a < 0x09000000000 ∧ 0 < len then [(write, a, len)] else []

/-- The extent of a request at a Vault, for the rows that make one. -/
def reqExt : Instr → Option Ext
  | .vaultRead _ a n => some (false, a, n)
  | .vaultWrite _ a bs => some (true, a, bs.length)
  | .add _ a _ _ => some (true, a, 4)
  | .maxU _ a _ _ => some (true, a, 4)
  | .minU _ a _ _ => some (true, a, 4)
  | .maxS _ a _ _ => some (true, a, 4)
  | .minS _ a _ _ => some (true, a, 4)
  | .and _ a _ _ => some (true, a, 4)
  | .or _ a _ _ => some (true, a, 4)
  | .xor _ a _ _ => some (true, a, 4)
  | .fmax _ a _ _ => some (true, a, 4)
  | .fmin _ a _ _ => some (true, a, 4)
  | .swap _ a _ _ => some (true, a, 4)
  | .cas _ a _ _ _ => some (true, a, 4)
  | .exactAdd _ a _ _ => some (true, a, 512)
  | .exactRead _ a => some (true, a, 512)
  | .exactClear _ a => some (true, a, 512)
  | _ => none

/-- The extents a fabric request touches at its home. -/
def packetExts (p : Packet) : List Ext :=
  match p.type with
  | .flag => []
  | .atomic => [(true, p.lpa, 4)]
  | .write => if p.length = 0 then [] else [(true, p.lpa, p.length)]
  | _ => if p.length = 0 then [] else [(false, p.lpa, p.length)]

/-- The extents of a row that waits at a Vault. -/
def heldExts : Instr → List Ext
  | .cohRemoteRequest kind _ _ line => [(kind != .read, line / 128 * 128, 128)]
  | .read p | .write p | .remoteAtomic p => packetExts p
  | .debugPortAccess (.readMem a n) => vaultExt false a n
  | .debugPortAccess (.writeMem a bs) => vaultExt true a bs.length
  | i => (reqExt i).toList

/-! What holds a request (07 R195, R199, R200, R205). -/

/-- The die's Vault holds new requests. -/
def State.vaultBusy (s : State) (d : Nat) : Bool := s.flagBit (Reg.vltPartBusy d) || s.flagBit (Reg.vltFlushBusy d)

/-- An access at `a` is held: its home Vault is busy, or its page pair is being scrubbed. -/
def State.heldAt (s : State) (a : Nat) : Bool :=
  decide (a < 0x09000000000) &&
  (s.vaultBusy (s.homeDie a) || (decide (a < 0x08000000000) && (s.vault 0).scrubbed.contains (a / 2 ^ 29)))

/-- A line of the extent waits for an older request that is held, so that requests to one line keep their order (07 R199). -/
def State.behind (s : State) (e : Ext) : Bool :=
  ((s.vault 0).held ++ (s.vault 1).held).any fun i => (heldExts i).any fun h =>
    (linesOf h.2.1 h.2.2).any fun l => (linesOf e.2.1 e.2.2).contains l

/-- An access of an extent waits for its Vault: busy, scrubbing, or an older request held. -/
def State.waitsFor (s : State) (e : Ext) : Bool := (linesOf e.2.1 e.2.2).any s.heldAt || s.behind e

/-- A request that its Vault holds. -/
def holdReq (d : Nat) (i : Instr) : Prog := withS fun s => emit [.vault d { s.vault d with held := (s.vault d).held ++ [i] }]

/-! The quire directory (07 R207–R211). -/

/-- The quire index of this package (07 R207). -/
def State.quireIndex (s : State) : Nat := s.fld Reg.chnX % 2 + 2 * (s.fld Reg.chnY % 2)

/-- The set of a directory entry: 2,048 sets of 16 ways in a slice (log 14). -/
def dirSet (line : Nat) : Nat := line / 8192 % 2048

/-- The entries of the set of a line. -/
def State.dirPeers (s : State) (line : Nat) : List (Nat × DirEnt) :=
  s.dir.filter fun e => s.sliceOf e.1 == s.sliceOf line && dirSet e.1 == dirSet line

/-- An entry is replaced. -/
def setDir (line : Nat) (e : Option DirEnt) : Prog := emit [.dir line e]

/-- An entry without holders. -/
def DirEnt.empty : DirEnt := ⟨[], none, 0, true, .none, []⟩

/-- The invalidations of sharers. -/
def sendInvalidates (line : Nat) (ms : List (Nat × Nat)) : Prog :=
  forEach ms fun m => emit [.send (.cohRecall line m.1 m.2 .invalidate)]

/-- A local access that the directory must clear first begins its transition (07 R209 Table 4). -/
def beginLocal (line : Nat) (e : DirEnt) (write : Bool) : Prog :=
  match e.trans, e.owner with
  | .none, some m =>
    seq (setDir line (some { e with trans := .recalling write none }))
      (emit [.send (.cohRecall line m.1 m.2 (if write then .recallInvalidate else .recallKeepShared))])
  | .none, none => seq (setDir line (some { e with trans := .invalidating e.sharers none })) (sendInvalidates line e.sharers)
  | _, _ => skip

/-- A line of an extent that another member's copy blocks: Exclusive elsewhere, Shared for a write, or in transition. -/
def DirEnt.blocks (e : DirEnt) (write : Bool) : Bool :=
  e.trans != .none || e.owner.isSome || (write && !e.sharers.isEmpty)

/-- Directory entries that block an extent. -/
def State.blockers (s : State) (write : Bool) (a len : Nat) : List (Nat × DirEnt) :=
  s.dir.filter fun e => decide (0 < len) && decide (e.1 < a + len) && decide (a < e.1 + 128) && e.2.blocks write

/-- Nothing holds up accesses to these extents: no busy Vault, no scrub, no older request, no other member's copy (07 R195, R199, R200,
R209). -/
def State.ready (s : State) (exts : List Ext) : Bool := exts.all fun e => !s.waitsFor e && (s.blockers e.1 e.2.1 e.2.2).isEmpty

/-- Other members' copies that block some extents begin to be recalled or invalidated, unless the extents wait for their Vault. -/
def beginClear (exts : List Ext) : Prog := withS fun s =>
  onlyIf (!exts.any s.waitsFor) (forEach (exts.flatMap fun e => (s.blockers e.1 e.2.1 e.2.2).map fun b => (b, e.1)) fun b => withS fun t =>
    given (nget t.dir b.1.1) fun e => beginLocal b.1.1 e b.2)

/-- A command's data accesses, once nothing holds them. -/
def whenReady (exts : List Ext) (k : Prog) : Prog := withS fun s => if s.ready exts then k else beginClear exts

/-- A row's accesses: made, or the row is held at the Vault of die `d` until nothing holds them. -/
def orHeld (d : Nat) (i : Instr) (exts : List Ext) (k : Prog) : Prog := withS fun s =>
  if s.ready exts then k else seq (beginClear exts) (holdReq d i)

/-- A request that the home refuses; an entry without a holder is not kept (07 R208). -/
def dirRefuse (line member die : Nat) (st : Status) : Prog := withS fun s =>
  seq (emit [.send (.cohRefuse line member die st)])
    (given (nget s.dir line) fun e =>
      onlyIf (e.sharers.isEmpty && e.owner.isNone && e.trans == .none && e.queue.isEmpty) (setDir line none))

/-- A remote request at the home (07 R209 Table 4). -/
def dirServe (kind : CohKind) (member die line : Nat) : Prog := withS fun s =>
  let who := (member, die)
  let e : DirEnt := { (nget s.dir line).getD DirEnt.empty with use := true }
  let data := bytesAt s.mem line 128
  if e.trans ≠ .none then setDir line (some { e with queue := e.queue ++ [(kind, member, die)] })
  else match s.readHurt line 128 with
    | some st => dirRefuse line member die st
    | none =>
      match e.owner with
      | some m =>
        seq (setDir line (some { e with trans := .recalling (kind != .read) (some (kind, member, die)) }))
          (emit [.send (.cohRecall line m.1 m.2 (if kind = .read then .recallKeepShared else .recallInvalidate))])
      | none =>
        let others := e.sharers.filter (· != who)
        if kind = .read then
          seqs [touch false (.remote member) line 128,
                setDir line (some { e with sharers := others ++ [who] }),
                emit [.send (.cohGrant line member die false data)]]
        else if others.isEmpty then
          seqs [touch false (.remote member) line 128,
                setDir line (some { e with sharers := [], owner := some who }),
                emit [.send (.cohGrant line member die true data)]]
        else
          seq (setDir line (some { e with trans := .invalidating others (some (kind, member, die)) }))
            (sendInvalidates line others)

/-- The transition ends in the entry's going: a local write, or an eviction, has begun it. -/
def DirTrans.frees : DirTrans → Bool
  | .invalidating _ Option.none => true
  | .recalling true Option.none => true
  | _ => false

/-- The way whose entry a full set gives up, chosen as in 07 R196 (R210): the lowest whose use bit is clear, all cleared first when all are
set. -/
def dirVictim (peers : List (Nat × DirEnt)) : Nat × Bool :=
  match (List.range 16).find? fun w => !(peers.any fun e => e.2.way == w && e.2.use) with
  | some w => (w, false)
  | none => (0, true)

/-- An entry is taken for a line that has none. In a full set the home frees one; `wait` holds the request until every reply has arrived
(07 R210). -/
def dirAlloc (line : Nat) (wait k : Prog) : Prog := withS fun s =>
  let peers := s.dirPeers line
  let sl := s.sliceOf line
  let v := dirVictim peers
  if (nget s.dir line).isSome then k
  else match (List.range 16).find? fun w => !(peers.any fun e => e.2.way == w) with
    | some w => seq (setDir line (some { DirEnt.empty with way := w })) k
    | none =>
      if peers.any (fun e => e.2.trans.frees) then wait
      else seqs
        [onlyIf v.2 (forEach peers fun p => setDir p.1 (some { p.2 with use := false })),
         forEach (peers.filter (·.2.way == v.1)) fun p => withS fun t => given (nget t.dir p.1) fun e =>
           onlyIf (e.trans == .none) (seq (incF (Reg.vltCohEvicts sl.1 sl.2)) (beginLocal p.1 e true)),
         wait]

/-- The Vault serves HBM and scratchpad. -/
def State.atVault (s : State) (a len : Nat) : Bool :=
  match s.extent a len with
  | some .hbm => true
  | some (.scratch _) => true
  | _ => false

/-- COH_REMOTE_REQUEST, of another member: the home's own caches need no entry (07 R208). A busy Vault holds it. -/
def cohRequest (kind : CohKind) (member die line : Nat) : Prog := withS fun s =>
  let l := line / 128 * 128
  let hold := holdReq (s.homeDie l) (.cohRemoteRequest kind member die line)
  if member = s.quireIndex then skip
  else if !s.atVault l 128 then emit [.send (.cohRefuse l member die .addressFault)]
  else if s.waitsFor (kind != .read, l, 128) then hold
  else if (nget s.dir l).isSome then dirServe kind member die l
  else match s.readHurt l 128 with
    | some st => emit [.send (.cohRefuse l member die st)]
    | none => dirAlloc l hold (dirServe kind member die l)

/-- The transition of a line ends: a remote requester gets the line. What waited behind is served; behind a transition that a local access or
an eviction began, it waits at the Vault, after the request that began it. An entry without holders goes. -/
def endTrans (line : Nat) (e : DirEnt) (next : Option (CohKind × Nat × Nat)) : Prog := withS fun s =>
  let rest := { e with trans := .none, queue := [] }
  match next with
  | some r => seqs [setDir line (some rest), dirServe r.1 r.2.1 r.2.2 line, forEach e.queue fun q => dirServe q.1 q.2.1 q.2.2 line]
  | none => seq (setDir line (if rest.sharers.isEmpty && rest.owner.isNone then none else some rest))
      (forEach e.queue fun q => holdReq (s.homeDie line) (.cohRemoteRequest q.1 q.2.1 q.2.2 line))

/-- COH_REPLY: an acknowledgement, a write-back or an eviction notice (07 R209, R210). A reply that nothing waits for is late. -/
def cohReplyProg (line member die : Nat) (data : Option (List Byte)) : Prog := withS fun s =>
  let who := (member, die)
  let write := given data fun bs => writeBytes (.remote member) line (bs.take 128)
  let late := lateProg (.coherence (s.homeDie line))
  match nget s.dir line with
  | none => late
  | some e =>
    match e.trans with
    | .invalidating waiting next =>
      if waiting.contains who then
        let w := waiting.filter (· != who)
        let e' := { e with sharers := e.sharers.filter (· != who) }
        if w.isEmpty then endTrans line e' next else setDir line (some { e' with trans := .invalidating w next })
      else late
    | .recalling inval next =>
      if e.owner = some who then
        seq write (endTrans line { e with owner := none, sharers := if inval then [] else [who] } next)
      else late
    | .none =>
      if e.owner = some who then
        seq write (setDir line none)
      else if e.sharers.contains who then
        let sh := e.sharers.filter (· != who)
        setDir line (if sh.isEmpty then none else some { e with sharers := sh })
      else late

/-- COH_TIMEOUT: the members that have not replied are dead for the line; an Exclusive line is poisoned (07 R211). -/
def cohTimeoutProg (line : Nat) : Prog := withS fun s =>
  let d := s.homeDie line
  let note (m : Nat × Nat) : Prog :=
    seq (incF (Reg.vltCohTimeouts d)) (logEv (.unit (0x150 + d)) 0 .timeout 0 false (.coherence line (2 * m.1 + m.2)))
  if s.fld (Reg.vltCohTimeout d) = 0 then skip
  else match nget s.dir line with
    | none => skip
    | some e =>
      match e.trans with
      | .none => skip
      | .invalidating waiting next =>
        seq (forEach waiting note) (endTrans line { e with sharers := e.sharers.filter fun m => !waiting.contains m } next)
      | .recalling _ next =>
        let h := (nget s.hurt line).getD ⟨false, false⟩
        seqs [given e.owner note, incF (Reg.vltPoisoned d), emit [.hurt line (some { h with poisoned := true })],
              endTrans line { e with owner := none, sharers := [] } next]

/-- The key of a quire line of another member in the Vault of die `d`. -/
def remoteKey (d line : Nat) : Nat := (1 + d) * 2 ^ 45 + line / 128

/-- COH_RECALL: this package, as a member, answers a home (07 R209). -/
def cohRecallProg (line : Nat) (kind : CohRecall) (die : Nat) : Prog := withS fun s =>
  let k := remoteKey die line
  match nget s.cache k with
  | none => emit [cohNotice (line / 128) die none]
  | some c =>
    let data := if c.dirty then some c.data else none
    match kind with
    | .invalidate => emit [.line k none, cohNotice (line / 128) die data]
    | .recallInvalidate => emit [.line k none, cohNotice (line / 128) die data]
    | .recallKeepShared => emit [.line k (some { c with dirty := false, excl := false }), cohNotice (line / 128) die data]

/-! Requests at the home slice (07 R198, R199). -/

/-- The answer to a requester. -/
def reply (who : Requester) (a : Nat) (st : Status) (data : List Byte) : Prog := emit [.send (.memReply who a st data)]

/-- VAULT_READ. -/
def vaultReadProg (who : Requester) (a len : Nat) : Prog := withS fun s =>
  if len = 0 then reply who a .ok []
  else if !s.atVault a len || !s.reach who .read a len then reply who a .addressFault []
  else match s.readHurt a len with
    | some st => reply who a st []
    | none => seq (touch false who a len) (reply who a .ok (s.read a len))

/-- VAULT_WRITE. -/
def vaultWriteProg (who : Requester) (a : Nat) (data : List Byte) : Prog := withS fun s =>
  let len := data.length
  if len = 0 then reply who a .ok []
  else if !s.atVault a len || !s.reach who .write a len then reply who a .addressFault []
  else match s.writeHurt a len with
    | some st => reply who a st []
    | none => seq (writeBytes who a data) (reply who a .ok [])

/-- The value an atomic leaves (07 R218 Table 7): `w` bits, old value, operand, compare value. -/
def atomicResult (op w m v c : Nat) : Nat :=
  let u := m % 2 ^ w
  let x := v % 2 ^ w
  if op = 0x0 then (u + x) % 2 ^ w
  else if op = 0x1 then max u x
  else if op = 0x2 then min u x
  else if op = 0x3 then (if toSigned w u < toSigned w x then x else u)
  else if op = 0x4 then (if toSigned w x < toSigned w u then x else u)
  else if op = 0x5 then Nat.land u x
  else if op = 0x6 then Nat.lor u x
  else if op = 0x7 then Nat.xor u x
  else if op = 0x8 then fMax fp32 u x
  else if op = 0x9 then fMin fp32 u x
  else if op = 0xA then x
  else if u = c % 2 ^ w then x else u

/-- The checks of an atomic, in order (07 R219). -/
def State.atomicFault (s : State) (who : Requester) (op a : Nat) (size8 : Bool) : Option Status :=
  let n := if size8 then 8 else 4
  let exact := decide (0xC ≤ op) && decide (op ≤ 0xE)
  let engine := match who with | .engine _ => true | _ => false
  (firstFault [(exact && !engine, .addressFault), (!s.atVault a n || !s.reach who .atomic a n, .addressFault), (a % n != 0, .addressFault),
     (decide (0xB < op) || (size8 && (op == 0x8 || op == 0x9)), .descriptorFault)]).or (s.readHurt a n)

/-- An atomic at its home, its checks passed; `k` is told the old value. -/
def atomicApply (who : Requester) (op a : Nat) (size8 : Bool) (v c : Nat) (k : Nat → Prog) : Prog := withS fun s =>
  let n := if size8 then 8 else 4
  let m := s.readNat a n
  let sl := s.sliceOf a
  seqs [writeBytes who a (leBytes n (atomicResult op (8 * n) m v c)), incF (Reg.vltAtomics sl.1 sl.2), k m]

/-- A Vault atomic of a requester. -/
def atomicProg (who : Requester) (op a : Nat) (size8 : Bool) (v c : Nat) : Prog := withS fun s =>
  match s.atomicFault who op a size8 with
  | some st => reply who a st []
  | none => atomicApply who op a size8 v c fun m => reply who a .ok (leBytes (if size8 then 8 else 4) m)

/-- The checks of an exact-sum operation, in order (07 R219). -/
def State.exactFault (s : State) (who : Requester) (a : Nat) : Option Status :=
  firstFault [(match who with | .engine _ => false | _ => true, .addressFault),
    (a % 512 != 0 || !s.reach who .exact a 512, .addressFault)]

/-- The exact-sum block at `a`. -/
def State.exBlock (s : State) (a : Nat) : ExBlock := ExBlock.ofBytes (bytesAt s.mem a 512)

/-- The slots of a mask, ascending. -/
def maskSlots (m : Nat) : List Nat := (List.range 32).filter fun j => bit m j

/-- A block is written back and the operation counted at its slice. -/
def putBlock (who : Requester) (a : Nat) (b : ExBlock) : Prog := withS fun s =>
  let sl := s.sliceOf a
  seq (writeBytes who a b.toBytes) (incF (Reg.vltExactOps sl.1 sl.2))

/-- EXACT_ADD. -/
def exactAddProg (who : Requester) (a mask : Nat) (xs : List Word) : Prog := withS fun s =>
  match s.exactFault who a with
  | some st => reply who a st []
  | none =>
    if mask % 2 ^ 32 = 0 then reply who a .ok []
    else match s.readHurt a 512 with
      | some st => reply who a st []
      | none => seq (putBlock who a ((s.exBlock a).addAll (maskSlots mask) (xs.map (·.toNat)))) (reply who a .ok [])

/-- The answer of EXACT_READ: 32 FP32 values, then FLAGS and ADDENDS (04 R130, 07 Table 7). -/
def exactReadBytes (b : ExBlock) : List Byte :=
  (List.range 32).flatMap (fun j => leBytes 4 (b.conv j)) ++ leBytes 4 b.flags ++ leBytes 4 b.addends

/-- EXACT_READ. -/
def exactReadProg (who : Requester) (a : Nat) : Prog := withS fun s =>
  let sl := s.sliceOf a
  match (s.exactFault who a).or (s.readHurt a 512) with
  | some st => reply who a st []
  | none => seq (incF (Reg.vltExactOps sl.1 sl.2)) (reply who a .ok (exactReadBytes (s.exBlock a)))

/-- EXACT_CLEAR. -/
def exactClearProg (who : Requester) (a : Nat) : Prog := withS fun s =>
  match (s.exactFault who a).or (s.readHurt a 512) with
  | some st => reply who a st []
  | none => seq (putBlock who a (s.exBlock a).cleared) (reply who a .ok [])

/-- A request at its home slice. -/
def serveReq : Instr → Prog
  | .vaultRead r a n => vaultReadProg r a n
  | .vaultWrite r a bs => vaultWriteProg r a bs
  | .add r a z v => atomicProg r 0x0 a z v 0
  | .maxU r a z v => atomicProg r 0x1 a z v 0
  | .minU r a z v => atomicProg r 0x2 a z v 0
  | .maxS r a z v => atomicProg r 0x3 a z v 0
  | .minS r a z v => atomicProg r 0x4 a z v 0
  | .and r a z v => atomicProg r 0x5 a z v 0
  | .or r a z v => atomicProg r 0x6 a z v 0
  | .xor r a z v => atomicProg r 0x7 a z v 0
  | .fmax r a z v => atomicProg r 0x8 a z v 0
  | .fmin r a z v => atomicProg r 0x9 a z v 0
  | .swap r a z v => atomicProg r 0xA a z v 0
  | .cas r a z v c => atomicProg r 0xB a z v c
  | .exactAdd r a m xs => exactAddProg r a m xs
  | .exactRead r a => exactReadProg r a
  | .exactClear r a => exactClearProg r a
  | _ => skip

/-! The ports of the slice arbiter (07 R212, R213). -/

/-- The port of slice `i` of die `d` that a requester's transfers use (07 R212 Table 5): a core's own port where its physical core stands in
the slice's quad, else the mesh port; Beaters the return path; the Presses, as units of a die, the mesh port; every other requester the
exchange port. -/
def State.portOf (s : State) (d i : Nat) (who : Requester) : Nat :=
  let core := fun (n : Nat) =>
    let p := s.fld (Reg.corePhysical n)
    if n / 128 = d ∧ p / 4 = i / 2 then p % 4 else 4
  match who with
  | .core n => core n
  | .engine sid =>
    if sid < 1024 then core (sid / 4) else if 1056 ≤ sid ∧ sid < 1064 then 6 else if 1064 ≤ sid ∧ sid < 1072 then 4 else 5
  | _ => 5

/-- The requester of a Vault request. -/
def reqWho : Instr → Requester
  | .vaultRead r _ _ | .vaultWrite r _ _ | .add r _ _ _ | .maxU r _ _ _ | .minU r _ _ _ | .maxS r _ _ _ | .minS r _ _ _
  | .and r _ _ _ | .or r _ _ _ | .xor r _ _ _ | .fmax r _ _ _ | .fmin r _ _ _ | .swap r _ _ _ | .cas r _ _ _ _
  | .exactAdd r _ _ _ | .exactRead r _ | .exactClear r _ => r
  | _ => .registrar

/-- The grants a request takes, each one 128-byte transfer, as (write, count) (07 R213): a read for the data of a read; a write for the data
of a write and for the operands of an atomic or exact-sum operation; a read for the result that an atomic or EXACT_READ returns. -/
def grantsOf : Instr → List (Bool × Nat)
  | .vaultRead _ a n => [(false, (linesOf a n).length)]
  | .vaultWrite _ a bs => [(true, (linesOf a bs.length).length)]
  | .exactAdd .. | .exactClear .. => [(true, 1)]
  | .exactRead .. => [(true, 1), (false, cdiv 136 128)]
  | i => if (reqExt i).isSome then [(true, 1), (false, 1)] else []

/-- A request asks the arbiter of its home slice for its grants, on its requester's port. -/
def askGrants (i : Instr) : Prog := withS fun s =>
  given (reqExt i) fun e =>
    let sl := s.sliceOf e.2.1
    let x := s.slice sl.1 sl.2
    let p := s.portOf sl.1 sl.2 (reqWho i)
    onlyIf (decide (e.2.1 < 0x09000000000))
      (emit [.slice (64 * sl.1 + sl.2) { x with asked := x.asked ++ (grantsOf i).flatMap fun g => List.replicate g.2 (p, g.1) }])

/-- A request: held, or served. -/
def vaultReq (i : Instr) : Prog := withS fun s =>
  given (reqExt i) fun e => orHeld (s.homeDie e.2.1) i [e] (seq (askGrants i) (serveReq i))

/-! Partition changes (07 R193–R195). -/

/-- Bytes of a range of addresses read 0 from here on. -/
def wipe (lo hi : Nat) : Prog := withS fun s =>
  seq (emit ((s.mem.filter fun c => decide (lo ≤ c.1) && decide (c.1 < hi)).map fun c => .memB c.1 0))
    (emit ((s.hurt.filter fun h => decide (lo ≤ h.1) && decide (h.1 < hi)).map fun h => .hurt h.1 none))

/-- VLT_SLICE_SCRATCH_MIB of every slice of a die. -/
def showSlices (d gib : Nat) : Prog := forEach (List.range 64) fun i => setF (Reg.vltSliceScratchMib d i) (16 * gib)

/-- PARTITION_CHANGE. The ways the scratchpad takes are the highest-numbered ones (log 15). -/
def partitionProg (d gib : Nat) : Prog := withS fun s =>
  let old := s.fld (Reg.vltScratchGib d)
  let new := min gib 32
  let base := 0x08000000000 + d * 0x800000000
  if 2 ≤ d ∨ new = old ∨ s.flagBit (Reg.vltPartBusy d) then skip
  else seqs
    [setF (Reg.vltScratchGib d) new, setF (Reg.vltPartBusy d) 1, showSlices d new,
     forEach (s.cache.filter fun e => e.2.die == d && decide (256 - 8 * new ≤ e.2.way)) fun e => dropLine .registrar e,
     onlyIf (decide (new < old)) (wipe (base + new * 0x40000000) (base + old * 0x40000000))]

/-- PARTITION_CHANGE_DONE. -/
def partitionDoneProg (d : Nat) : Prog := withS fun s =>
  onlyIf (s.flagBit (Reg.vltPartBusy d)) (setF (Reg.vltPartBusy d) 0)

/-! Flush and invalidate (07 R200). -/

/-- A dirty line is written back and stays valid. -/
def cleanLine (e : Nat × CLine) : Prog :=
  onlyIf e.2.dirty (seq
    (if e.1 < 2 ^ 45 then countHbm true .registrar (e.1 * 128) 128 else emit [cohNotice (e.1 % 2 ^ 45) e.2.die (some e.2.data)])
    (emit [.line e.1 (some { e.2 with dirty := false, data := if e.1 < 2 ^ 45 then [] else e.2.data })]))

/-- VLT_FLUSH and VLT_INVALIDATE. -/
def flushProg (d : Nat) (invalidate : Bool) : Prog := withS fun s =>
  if 2 ≤ d ∨ s.vaultBusy d then skip
  else seq (setF (Reg.vltFlushBusy d) 1)
    (forEach (s.cache.filter (·.2.die == d)) fun e => if invalidate then dropLine .registrar e else cleanLine e)

/-- FLUSH_DONE. -/
def flushDoneProg (d : Nat) : Prog := withS fun s =>
  onlyIf (s.flagBit (Reg.vltFlushBusy d)) (setF (Reg.vltFlushBusy d) 0)

/-! Page attributes (07 R204, R205). -/

/-- A page pair is scrubbed to zero: its bytes, its cached lines and its damage go. -/
def scrubPair (i : Nat) : Prog := withS fun s =>
  let lo := i * 2 ^ 29
  let hi := lo + 2 ^ 29
  seqs [wipe lo hi,
        forEach (s.cache.filter fun e => decide (e.1 < 2 ^ 45) && decide (lo ≤ e.1 * 128) && decide (e.1 * 128 < hi)) fun e =>
          emit [.line e.1 none],
        setF (Reg.vltScrubBusy 0) 1,
        withS fun t => emit [.vault 0 { t.vault 0 with scrubbed := (t.vault 0).scrubbed ++ [i] }]]

/-- PAGE_ATTR_WRITE: word `w` of the table, on CD0 only. A refused write counts once (log 16). -/
def pageAttrProg (d w value : Nat) : Prog := withS fun s =>
  let field := fun j => value / 2 ^ (2 * j) % 4
  let fixed := fun j => w == 63 && j == 15
  let refused := fun j => field j == 3 || (fixed j && field j != 0)
  let idx := List.range 16
  let new := (idx.map fun j => (if refused j || fixed j then s.pairAttr (16 * w + j) else field j) * 2 ^ (2 * j)).foldl (· + ·) 0
  let changed := idx.filter fun j => !refused j && !fixed j && field j != s.pairAttr (16 * w + j)
  if d ≠ 0 ∨ 64 ≤ w then skip
  else if s.flagBit (Reg.vltAttrLock 0) then incF (Reg.vltAttrRefused 0)
  else seqs [onlyIf (idx.any refused) (incF (Reg.vltAttrRefused 0)),
             setF (Reg.vltPageAttr 0 w) new, setF (Reg.vltPageAttr 1 w) new,
             forEach changed fun j => scrubPair (16 * w + j)]

/-- PAGE_SCRUB_DONE. -/
def scrubDoneProg (i : Nat) : Prog := withS fun s =>
  let rest := (s.vault 0).scrubbed.filter (· != i)
  onlyIf ((s.vault 0).scrubbed.contains i) (seqs
    [emit [.vault 0 { s.vault 0 with scrubbed := rest }],
     onlyIf rest.isEmpty (setF (Reg.vltScrubBusy 0) 0)])

/-! The slice arbiter (07 R212–R216). -/

/-- One step of the lottery's shift register, x^32 + x^22 + x^2 + x + 1, in the form the package has (log 13). -/
def lfsrStep (form : Nat) (x : Word) : Word :=
  let b := fun i => x.toNat / 2 ^ i % 2
  if form % 4 = 0 then BitVec.ofNat 32 (2 * x.toNat + (b 31 + b 21 + b 1 + b 0) % 2)
  else if form % 4 = 1 then BitVec.ofNat 32 (x.toNat / 2 + (b 0 + b 10 + b 30 + b 31) % 2 * 2 ^ 31)
  else if form % 4 = 2 then (x <<< 1) ^^^ (if b 31 = 1 then 0x00400007 else 0)
  else (x >>> 1) ^^^ (if b 0 = 1 then 0xE0000200 else 0)

/-- Tickets of port `p`. -/
def State.tickets (s : State) (d i p : Nat) : Nat := bits (s.fld (Reg.vltTickets d i)) (4 * p) 4

/-- What one direction's arbitration comes to (07 R214). -/
inductive Grant where
  | guard (p : Nat)
  | win (p : Nat)
  | idle
  | nobody
  deriving DecidableEq, Repr

/-- The port whose ticket range holds `w`. -/
def ticketWinner (ts : List (Nat × Nat)) (w : Nat) : Nat :=
  match ts with
  | [] => 0
  | [x] => x.1
  | x :: r => if w < x.2 then x.1 else ticketWinner r (w - x.2)

/-- The grant among the present ports: the guard, a sole requester, the lottery. -/
def arbitrate (present : List Nat) (tickets : Nat → Nat) (loss : List Nat) (draw : Nat) : Grant :=
  match present with
  | [] => .nobody
  | p0 :: _ =>
    match present.find? (fun p => decide (64 ≤ loss.getD p 0)) with
    | some p => .guard p
    | none =>
      if present.length = 1 then .win p0
      else
        let ts := (present.filter fun p => decide (0 < tickets p)).map fun p => (p, tickets p)
        let total := (ts.map (·.2)).foldl (· + ·) 0
        if ts.isEmpty then .idle else .win (ticketWinner ts (draw * total / 65536))

/-- The port granted. -/
def Grant.port : Grant → Option Nat
  | .guard p => some p
  | .win p => some p
  | _ => none

/-- Losses after a grant: a present port that does not win counts one, a win resets. -/
def newLoss (present : List Nat) (win : Option Nat) (loss : List Nat) : List Nat :=
  (List.range 8).map fun p =>
    if win = some p then 0 else if present.contains p then loss.getD p 0 + 1 else loss.getD p 0

/-- The wait hints of the losers (07 R216). -/
def waitHints (present : List Nat) (tickets : Nat → Nat) (win : Option Nat) (loss : List Nat) : List (Nat × Nat) :=
  let total := ((present.map tickets)).foldl (· + ·) 0
  (present.filter fun p => win != some p).map fun p =>
    let l := 64 - loss.getD p 0
    (p, min 63 (if tickets p = 0 then l else min (cdiv total (tickets p)) l))

/-- SLICE_ARBITRATION: one Vault cycle of a slice's arbiter. -/
def arbitrationProg (d i rd wr : Nat) : Prog := withS fun s =>
  let x := s.slice d i
  let lfsr := s.word (Reg.vltLfsr d i).off
  let ports := fun m => (List.range 8).filter fun p => bit m p
  let t := s.tickets d i
  let gr := arbitrate (ports rd) t x.rdLoss (lfsr.toNat % 65536)
  let gw := arbitrate (ports wr) t x.wrLoss (lfsr.toNat / 65536)
  let rl := newLoss (ports rd) gr.port x.rdLoss
  let wl := newLoss (ports wr) gw.port x.wrLoss
  let count (g : Grant) : Prog :=
    match g with
    | .guard p => seq (incF (Reg.vltGrants d i p)) (incF (Reg.vltGuardGrants d i p))
    | .win p => incF (Reg.vltGrants d i p)
    | .idle => incF (Reg.vltIdleDraws d i)
    | .nobody => skip
  let took := fun (g : Grant) (w : Bool) (l : List (Nat × Bool)) => match g.port with | some p => l.erase (p, w) | none => l
  if 2 ≤ d ∨ 64 ≤ i then skip
  else seqs [count gr, count gw,
    setF (Reg.vltLfsr d i) (lfsrStep Config.lfsrForm lfsr).toNat,
    emit [.slice (64 * d + i) ⟨rl, wl, gr.port, gw.port,
      waitHints (ports rd) t gr.port rl ++ waitHints (ports wr) t gw.port wl, took gw true (took gr false x.asked)⟩]]

/-- VLT_LFSR_SEED: a seed of zero loads as 1 (07 R215). -/
def lfsrSeedProg (d i seed : Nat) : Prog :=
  if 2 ≤ d ∨ 64 ≤ i then skip else setF (Reg.vltLfsr d i) (if seed % 2 ^ 32 = 0 then 1 else seed % 2 ^ 32)

/-- HBM_CNT_CLEAR. -/
def hbmClearProg (k : Nat) : Prog :=
  if 8 ≤ k then skip
  else seqs [setF (Reg.hbmReadBytes k) 0, setF (Reg.hbmWriteBytes k) 0, setF (Reg.hbmFarBytes k) 0, setF (Reg.hbmBeaterBytes k) 0]

/-! Thermal states (07 R223–R225). -/

/-- The next state of a sensor group: it enters a state at its threshold and leaves it 3 °C below (07 R223). -/
def thermNext (cur temp t1 t2 t3 : Nat) : Nat :=
  let th := fun k => if k = 1 then t1 else if k = 2 then t2 else t3
  let up := if t3 ≤ temp then 3 else if t2 ≤ temp then 2 else if t1 ≤ temp then 1 else 0
  let stays := fun k => k ≤ cur && decide (th k < temp + 3)
  let hold := if stays 3 then 3 else if stays 2 then 2 else if stays 1 then 1 else 0
  max up hold

/-- HBM_REFRESH_MULT of a state (07 R223 Table 8): 0 for 1×, 1 for 2×, 2 for 4×. -/
def refreshOf (st : Nat) : Nat := if st = 0 then 0 else if st = 3 then 2 else 1

/-- THERMAL_SAMPLE: the slices and stacks of one compute die. -/
def thermalProg (d : Nat) (slices hbms : List Nat) : Prog := withS fun s =>
  let hot := (slices.take 64).foldl max 0
  let v0 := s.fld (Reg.vltVaultState d)
  let v1 := thermNext v0 hot (s.fld (Reg.vltThermT1 d)) (s.fld (Reg.vltThermT2 d)) (s.fld (Reg.vltThermT3 d))
  let hs := (List.range 4).map fun i =>
    let k := 4 * d + i
    let t := hbms.getD i 0
    (k, t, s.fld (Reg.hbmThermState k), thermNext (s.fld (Reg.hbmThermState k)) t (s.fld (Reg.hbmThermT1 k)) (s.fld (Reg.hbmThermT2 k))
      (s.fld (Reg.hbmThermT3 k)))
  let entries := (if v0 < v1 then 1 else 0) + (hs.filter fun h => decide (h.2.2.1 < h.2.2.2)).length
  if 2 ≤ d then skip
  else seqs
    [forEach ((slices.take 64).zipIdx) fun p => setF (Reg.vltSliceTemp d p.2) (p.1 % 256),
     setF (Reg.vltTempMax d) (hot % 256),
     forEach hs fun h => seqs [setF (Reg.hbmTemp h.1) (h.2.1 % 256), setF (Reg.hbmThermState h.1) h.2.2.2,
       setF (Reg.hbmRefreshMult h.1) (refreshOf h.2.2.2)],
     setF (Reg.vltVaultState d) v1,
     setF (Reg.vltThermState d) ((hs.map (·.2.2.2)).foldl max v1),
     setF (Reg.vltThrottleVault d) (if v1 = 0 then 0 else 1),
     setF (Reg.vltThrottleCause d) ((hs.map fun h => if h.2.2.2 = 0 then 0 else 2 ^ (h.1 % 4)).foldl (· + ·) 0),
     setBitF Reg.pwrCapCause (3 + d) (decide (0 < (hs.map (·.2.2.2)).foldl max v1)),
     incF (Reg.vltThermEvents d) entries]

/-! The commands. -/

/-- VAULT_READ (07 R199). -/
def execVaultRead (r : Requester) (addr len : Nat) (s : State) : Out := .next (run (vaultReq (.vaultRead r addr len)) s)

/-- VAULT_WRITE (07 R198). -/
def execVaultWrite (r : Requester) (addr : Nat) (data : List Byte) (s : State) : Out := .next (run (vaultReq (.vaultWrite r addr data)) s)

/-- SLICE_ARBITRATION (07 R214). -/
def execSliceArbitration (d slice readMask writeMask : Nat) (s : State) : Out := .next (run (arbitrationProg d slice readMask writeMask) s)

/-- ADD (07 R218). -/
def execAdd (r : Requester) (addr : Nat) (size8 : Bool) (v : Nat) (s : State) : Out := .next (run (vaultReq (.add r addr size8 v)) s)

/-- MAX_U (07 R218). -/
def execMaxU (r : Requester) (addr : Nat) (size8 : Bool) (v : Nat) (s : State) : Out := .next (run (vaultReq (.maxU r addr size8 v)) s)

/-- MIN_U (07 R218). -/
def execMinU (r : Requester) (addr : Nat) (size8 : Bool) (v : Nat) (s : State) : Out := .next (run (vaultReq (.minU r addr size8 v)) s)

/-- MAX_S (07 R218). -/
def execMaxS (r : Requester) (addr : Nat) (size8 : Bool) (v : Nat) (s : State) : Out := .next (run (vaultReq (.maxS r addr size8 v)) s)

/-- MIN_S (07 R218). -/
def execMinS (r : Requester) (addr : Nat) (size8 : Bool) (v : Nat) (s : State) : Out := .next (run (vaultReq (.minS r addr size8 v)) s)

/-- AND (07 R218). -/
def execAnd (r : Requester) (addr : Nat) (size8 : Bool) (v : Nat) (s : State) : Out := .next (run (vaultReq (.and r addr size8 v)) s)

/-- OR (07 R218). -/
def execOr (r : Requester) (addr : Nat) (size8 : Bool) (v : Nat) (s : State) : Out := .next (run (vaultReq (.or r addr size8 v)) s)

/-- XOR (07 R218). -/
def execXor (r : Requester) (addr : Nat) (size8 : Bool) (v : Nat) (s : State) : Out := .next (run (vaultReq (.xor r addr size8 v)) s)

/-- FMAX (07 R218). -/
def execFmax (r : Requester) (addr : Nat) (size8 : Bool) (v : Nat) (s : State) : Out := .next (run (vaultReq (.fmax r addr size8 v)) s)

/-- FMIN (07 R218). -/
def execFmin (r : Requester) (addr : Nat) (size8 : Bool) (v : Nat) (s : State) : Out := .next (run (vaultReq (.fmin r addr size8 v)) s)

/-- SWAP (07 R218). -/
def execSwap (r : Requester) (addr : Nat) (size8 : Bool) (v : Nat) (s : State) : Out := .next (run (vaultReq (.swap r addr size8 v)) s)

/-- CAS (07 R218). -/
def execCas (r : Requester) (addr : Nat) (size8 : Bool) (v c : Nat) (s : State) : Out := .next (run (vaultReq (.cas r addr size8 v c)) s)

/-- EXACT_ADD (04 R129). -/
def execExactAdd (r : Requester) (addr mask : Nat) (addends : List Word) (s : State) : Out := .next (run (vaultReq (.exactAdd r addr mask addends)) s)

/-- EXACT_READ (04 R130). -/
def execExactRead (r : Requester) (addr : Nat) (s : State) : Out := .next (run (vaultReq (.exactRead r addr)) s)

/-- EXACT_CLEAR (07 R218). -/
def execExactClear (r : Requester) (addr : Nat) (s : State) : Out := .next (run (vaultReq (.exactClear r addr)) s)

/-- PARTITION_CHANGE (07 R195). -/
def execPartitionChange (d gib : Nat) (s : State) : Out := .next (run (partitionProg d gib) s)

/-- VLT_FLUSH (07 R200). -/
def execVltFlush (d : Nat) (s : State) : Out := .next (run (flushProg d false) s)

/-- VLT_INVALIDATE (07 R200). -/
def execVltInvalidate (d : Nat) (s : State) : Out := .next (run (flushProg d true) s)

/-- PAGE_ATTR_WRITE (07 R205). -/
def execPageAttrWrite (d w value : Nat) (s : State) : Out := .next (run (pageAttrProg d w value) s)

/-- VLT_ATTR_LOCK (07 R205). -/
def execVltAttrLock (s : State) : Out := .next (run (setF (Reg.vltAttrLock 0) 1) s)

/-- VLT_LFSR_SEED (07 R215). -/
def execVltLfsrSeed (d slice seed : Nat) (s : State) : Out := .next (run (lfsrSeedProg d slice seed) s)

/-- HBM_CNT_CLEAR (07 R229). -/
def execHbmCntClear (k : Nat) (s : State) : Out := .next (run (hbmClearProg k) s)

/-- COH_REMOTE_REQUEST (07 R209). -/
def execCohRemoteRequest (kind : CohKind) (member die line : Nat) (s : State) : Out := .next (run (cohRequest kind member die line) s)

/-- THERMAL_SAMPLE (07 R223). -/
def execThermalSample (d : Nat) (slices hbms : List Nat) (s : State) : Out := .next (run (thermalProg d slices hbms) s)

/-- COH_RECALL (07 R209). -/
def execCohRecall (line : Nat) (kind : CohRecall) (die : Nat) (s : State) : Out := .next (run (cohRecallProg line kind die) s)

end Sys2Proof.Machine
end

