-- ==== Sys2Proof/Machine/Arrays.lean ====
section
/-! DEFINITION. The array commands (03 R73–R92, 05 R135–R152): MATMUL, RAGGED and GRAD, current ramp, deferral and array sparing. -/

namespace Sys2Proof.Machine

/-! The cells (03 R74). -/

/-- One streaming step: the exact sum of products, scaled, added to the accumulator with one rounding. -/
def macStep (acc : Cnt) (p : FV) : Cnt :=
  let r := enc fp32 ((fp32.decode acc.1).add p)
  (r, acc.2 + cnt1 (fFinite fp32 acc.1 && p.isFin) r)

/-- The sum of products of step `k`; lanes beyond the contraction are fed zero. -/
def stepSum (e len : Nat) (a b : Nat → FV × Int) (k : Nat) : FV :=
  let zero : FV := .fin false 0 0
  let lane := fun i => if i < len then (a i).1.mul (b i).1 else zero
  let sum := ((List.range (e - 1)).map fun j => lane (k * e + 1 + j)).foldl FV.add (lane (k * e))
  sum.scale ((a (k * e)).2 + (b (k * e)).2)

/-- A whole contraction, from an accumulator of +0, in ascending steps. -/
def contract (e len : Nat) (a b : Nat → FV × Int) : Cnt :=
  (List.range (cdiv len e)).foldl (fun acc k => macStep acc (stepSum e len a b k)) (0, 0)

/-! The shared course of an array command. -/

/-- What one class asks of the shared course: its fault at steps 1 and 2 of R84, whether it has nothing to do, whether its output
exceeds its capacity, the local-store extents it names, its drain record and output, its array mask, its output tiles and streaming
steps, the operand bytes it reads, the stored output it accumulates into, and what it writes. -/
structure ArrayJob where
  cls      : Option Status
  shapes   : Option Status
  empty    : Bool
  big      : Bool
  exts     : List (Nat × Nat)
  drainOff : Nat
  drain    : Block64 → DrainJob
  gradRows : Nat
  mask     : Nat
  tiles    : DrainJob → State → Nat
  macs     : DrainJob → State → Option Nat
  reads    : List (Nat × Nat)
  accs     : DrainJob → State → List (Nat × Nat)
  out      : DrainJob → State → DrainOut × List (Nat × List Byte)

/-- Logical arrays of a mask, ascending. -/
def arraysOf (mask : Nat) : List Nat := (List.range 24).filter fun a => bit mask a

/-- The arrays that run tiles: tile q runs on the (q mod c)-th set bit (03 R86). -/
def arraysUsed (mask tiles : Nat) : List Nat := (arraysOf mask).take tiles

/-- The mask of the ramp groups of some arrays (03 R96). -/
def groupMask (as : List Nat) : Nat := (as.map fun a => 7 * 2 ^ (3 * (a / 3))).foldl Nat.lor 0

/-- The local-store extents the drain reads: bias, saved tensor, mask (04 R111, 05 R141). -/
def drainReads (j : DrainJob) (gradRows : Nat) : List (Nat × Nat) :=
  let n := j.core
  (if j.biasEn then [(lsAddr n (dfld j.drec 0 0 22), j.cols * (if dfld j.drec 0 23 1 = 1 then 4 else 2))] else []) ++
  (if j.derivEn then [(lsAddr n (dfld j.drec 9 0 22), j.savedExtent)] else []) ++
  (if j.maskMode = 0 then [] else [(lsAddr n (dfld j.drec 10 0 22), j.maskExtent gradRows)])

/-- A hurt line or word among some extents (16 R444). -/
def State.anyHurt (s : State) (exts : List (Nat × Nat)) : Option Status := exts.findSome? fun e => s.readHurt e.1 e.2

/-- An injection is armed at a point (16 R479). -/
def State.isArmed (s : State) (target unit : Nat) : Bool := s.cons.armed.any fun x => x.target == target && x.unit == unit

/-- The outcome of the gate of a command (04 R125): skipped, held by a busy Vault, faulted, or open. -/
inductive Gate where
  | open_ | skip_ | busy
  | fault (st : Status)
  deriving DecidableEq, Repr

/-- What a command does with its replay word: the atomics of 04 R126, or the gate's read alone. -/
def DrainJob.replayExt (j : DrainJob) (s : State) : Ext := (j.ovfAction == 1, j.replayAddr s, 8)

/-- The gate reads the replay word once and compares RUNG, its bits [2:0]. A command that may use its replay word waits while something
holds up accesses to it (07 R195, R209). -/
def State.gate (s : State) (j : DrainJob) : Gate :=
  let a := j.replayAddr s
  if !j.gateEn && j.ovfAction != 1 then .open_
  else if !s.ready [j.replayExt s] then .busy
  else if !j.gateEn then .open_
  else match s.readHurt a 4 with
    | some st => .fault st
    | none => if s.readNat a 4 % 8 = j.gateRung then .open_ else .skip_

/-! Operands (03 R83). -/

/-- An operand word: offset, format, block size code, per-tensor scale, transposed. -/
structure Opd where
  addr  : Nat
  fmt   : Nat
  block : Nat
  ts    : Bool
  trans : Bool
  deriving DecidableEq, Repr

/-- The operand of a GEMM-shaped word. -/
def opd (d : Block64) (w : Nat) : Opd := ⟨dfld d w 0 22, dfld d w 22 4, dfld d w 26 2, dfld d w 28 1 == 1, dfld d w 29 1 == 1⟩

/-- What R82 and R83 refuse in an operand. -/
def Opd.bad (o : Opd) : Bool := !fmtOperand o.fmt || (fmtMx o.fmt && o.block != 1) || (o.ts && !fmtDeckle o.fmt)

/-- The stored matrix of an operand whose contraction runs along its stored columns, or along its rows. -/
def Opd.mat (o : Opd) (base rows cols : Nat) (colBlk : Bool) : Mat := ⟨base, o.fmt, blockSize o.block, o.ts, colBlk, rows, cols⟩

/-- tA × tB, when an operand carries a per-tensor scale (04 R111 step 1), and its overflow. -/
def State.tScale (s : State) (a b : Mat) : Option Cnt :=
  if a.tscale || b.tscale then some (cMul (k32 (s.matTscale a)) (k32 (s.matTscale b))) else none

/-- An overflow of tA × tB counts once for the elements it scales (04 R123). -/
def countScale (t : Option Cnt) : List El → List El
  | [] => []
  | e :: r => { e with ovf := e.ovf + ((t.map (·.2)).getD 0) } :: r

/-- The two formats lie in different classes (03 R81). -/
def classMix (a b : Nat) : Bool := fmtStep a != fmtStep b

/-- Streaming steps of a contraction. -/
def kSteps (fa len : Nat) : Nat := cdiv len (fmtStep fa)

/-- The elements of a matrix product over some rows. -/
def productEls (j : DrainJob) (s : State) (rows : List Nat) (cols : Nat) (dead : Nat → Bool) (t : Option Cnt)
    (dot : Nat → Nat → Cnt) : List El :=
  countScale t (rows.flatMap fun r => (List.range cols).filterMap fun c =>
    if dead r then (if j.accMode then none else some ⟨r, c, 0, 0, 0, 0⟩) else some (drainEl j s (t.map (·.1)) r c (dot r c)))

/-- What a single-matrix output writes. -/
def productOut (j : DrainJob) (s : State) (es : List El) : DrainOut × List (Nat × List Byte) :=
  match j.shape with
  | .tiles _ _ _ live padded => (drainTiles j s es live padded, saveBytes j es (live ++ padded))
  | .linear _ => (drainLinear j s es, saveBytes j es [])

/-- The rows of an output of `m` rows; more than a local store has bytes would fail the checks. -/
def upTo (m : Nat) : List Nat := List.range (min m 0x400000)

/-- Rows from `m` to the end of its last tile. -/
def edgeRows (m : Nat) : List Nat := (List.range (roundUp m 16 - m)).map (m + ·)

/-- The runs of a matrix's rows that a command reads, with their row-block scales. -/
def Mat.rowReads (m : Mat) (rows : List Nat) : List (Nat × Nat) :=
  let nb := cdiv (roundUp m.cols 16) m.block
  rows.flatMap fun r =>
    ((List.range (cdiv m.cols 16)).map fun t =>
      (m.base + m.index r (16 * t) * fmtBits m.fmt / 8, cdiv (min 16 (m.cols - 16 * t) * fmtBits m.fmt) 8)) ++
    (if fmtScaled m.fmt then [(m.base + m.tileBytes + r * nb, nb)] else [])

/-- The stored output that ACC_MODE 1 reads: the rows it adds to (03 R85, 05 R146). -/
def accReads (j : DrainJob) (rows : List Nat) : List (Nat × Nat) := if j.accMode then j.mat.rowReads rows else []

/-- Output tiles that take array time: those whose rows are not all masked (05 R146). The rows of an edge tile that lie at or beyond K
have no mask bit; the model counts them as masked (DESIGN CHOICE, log 59). -/
def liveTiles (j : DrainJob) (s : State) (rows cols : Nat) : Nat :=
  ((List.range (cdiv rows 16)).filter fun t =>
    !((List.range 16).all fun i => decide (rows ≤ 16 * t + i) || j.rowMasked s (16 * t + i))).length * cdiv cols 16

/-! GEMM (03 R82–R86). -/

/-- GEMM. -/
def gemmJob (s : State) (sid : Nat) (d : Block64) : ArrayJob :=
  let n := sid / 4
  let oa := opd d 8
  let ob := opd d 9
  let m := s.countOf sid d 0 (dfld d 11 0 16)
  let nn := s.countOf sid d 1 (dfld d 11 16 16)
  let k := s.countOf sid d 2 (dfld d 12 0 16)
  let outFmt := dfld d 10 22 4
  let accMode := dfld d 10 26 2
  let mask := dfld d 13 0 24
  let ma := if oa.trans then oa.mat (lsAddr n oa.addr) k m true else oa.mat (lsAddr n oa.addr) m k false
  let mb := if ob.trans then ob.mat (lsAddr n ob.addr) nn k false else ob.mat (lsAddr n ob.addr) k nn true
  let drain := fun r => (⟨n, dfld d 10 0 22, outFmt, accMode == 1, dfld d 15 0 23,
    .tiles m nn m (upTo m) (edgeRows m), r, false, false, true, 0⟩ : DrainJob)
  let tiles := cdiv m 16 * cdiv nn 16
  { cls := firstFault [(oa.bad || ob.bad || !fmtAssigned outFmt || classMix oa.fmt ob.fmt || decide (2 ≤ accMode) ||
      (accMode == 1 && outFmt != 0xF) || mask == 0, .descriptorFault)],
    shapes := s.shapeFault sid d,
    empty := m == 0 || nn == 0 || k == 0,
    big := decide (dfld d 15 0 23 < (drain 0).elemExtent),
    exts := [(oa.addr, ma.extent), (ob.addr, mb.extent), (dfld d 10 0 22, (drain 0).elemExtent)],
    drainOff := dfld d 14 0 16, drain := drain, gradRows := 0, mask := mask,
    tiles := fun _ _ => tiles, macs := fun _ _ => some (tiles * kSteps oa.fmt k),
    reads := [(ma.base, ma.extent), (mb.base, mb.extent)], accs := fun j _ => accReads j (List.range m),
    out := fun j s =>
      let a := fun r i => if oa.trans then s.matElem ma i r else s.matElem ma r i
      let b := fun i c => if ob.trans then s.matElem mb c i else s.matElem mb i c
      productOut j s (productEls j s (List.range m) nn (fun _ => false) (s.tScale ma mb)
        fun r c => contract (fmtStep oa.fmt) k (a r) (fun i => b i c)) }

/-! ELTWISE (03 R92). -/

/-- The result of an element-wise operation, rounded once to FP32, and its overflow. -/
def eltResult (eop : Nat) (x y : FV) : Cnt :=
  let v := if eop = 1 then x.add y else if eop = 2 then x.add y.neg else x.mul y
  let r := enc fp32 v
  (r, cnt1 (x.isFin && y.isFin) r)

/-- A linear element's value, unscaled. -/
def State.linElem (s : State) (base fmt i : Nat) : FV :=
  (elemFmt fmt).decode (s.bitsAt base (i * fmtBits fmt) (fmtBits fmt))

/-- ELTWISE: its elements run on the arrays in runs of 256. -/
def eltwiseJob (s : State) (sid : Nat) (d : Block64) : ArrayJob :=
  let n := sid / 4
  let fa := dfld d 8 22 4
  let fb := dfld d 9 22 4
  let eop := dfld d 11 24 2
  let outFmt := dfld d 10 22 4
  let count := s.countOf sid d 0 (dfld d 11 0 24)
  let mask := dfld d 13 0 24
  let ea : Lin := ⟨lsAddr n (dfld d 8 0 22), fa, 16, false, count⟩
  let eb : Lin := ⟨lsAddr n (dfld d 9 0 22), fb, 16, false, count⟩
  let drain := fun r => (⟨n, dfld d 10 0 22, outFmt, false, dfld d 15 0 23, .linear count, r, false, false, true, count⟩ : DrainJob)
  { cls := firstFault [(decide (4 ≤ fa) || (eop != 3 && (decide (4 ≤ fb) || classMix fa fb)) || !fmtAssigned outFmt || mask == 0,
      .descriptorFault)],
    shapes := s.shapeFault sid d,
    empty := count == 0,
    big := decide (dfld d 15 0 23 < (drain 0).elemExtent),
    exts := [(dfld d 8 0 22, ea.extent), (dfld d 10 0 22, (drain 0).elemExtent)] ++
      (if eop = 3 then [] else [(dfld d 9 0 22, eb.extent)]),
    drainOff := dfld d 14 0 16, drain := drain, gradRows := 0, mask := mask,
    tiles := fun _ _ => cdiv count 256, macs := fun _ _ => none,
    reads := [(ea.base, ea.extent)] ++ (if eop = 3 then [] else [(eb.base, eb.extent)]), accs := fun _ _ => [],
    out := fun j s =>
      productOut j s ((List.range count).map fun i =>
        let x := s.linElem ea.base fa i
        let y := if eop = 3 then fp32.decode (dword d 12) else s.linElem eb.base fb i
        drainEl j s none 0 i (eltResult eop x y)) }

/-! RAGGED (03 R88–R91). -/

/-- Entry `i` of a shape-word table. -/
def State.tableCount (s : State) (sid : Nat) (d : Block64) (base i : Nat) : Nat × Option Status :=
  s.shapeCount (requesterOf sid) (base + 8 * i) (dShapeGen d)

/-- The fault of a shape-word table that lies among the local stores: its base aligned to 64 bytes, it lies wholly in its own core's
store (03 R70). Tables in HBM and scratchpad are judged entry by entry (02 R55; DEDUCED, log 60). -/
def tableFault (sid : Nat) (base entries : Nat) : Option Status :=
  let n := sid / 4
  let own := decide (lsAddr n 0 ≤ base) && lsExtent (base - lsAddr n 0) (8 * entries)
  if 0x09000000000 ≤ base ∧ base < 0x09040000000 ∧ !own then some .addressFault else none

/-- First rows of the experts of a ragged row layout, and its length (03 R88). -/
def raggedBases : Nat → List Nat → List Nat × Nat
  | p, [] => ([], p)
  | p, m :: r => let x := raggedBases (p + roundUp m 4) r; (p :: x.1, x.2)

/-- The experts of a layout: number, first row, live rows. -/
def raggedExperts (counts : List Nat) : List (Nat × Nat × Nat) :=
  ((raggedBases 0 counts).1.zip counts).zipIdx.map fun e => (e.2, e.1.1, e.1.2)

/-- GROUPED. -/
def groupedJob (s : State) (sid : Nat) (d : Block64) : ArrayJob :=
  let n := sid / 4
  let oa : Opd := ⟨dfld d 8 0 22, dfld d 8 22 4, dfld d 8 26 2, dfld d 8 28 1 == 1, false⟩
  let ob := opd d 10
  let outAddr := dfld d 9 0 22
  let outFmt := dfld d 9 22 4
  let band := dfld d 9 26 2
  let nn := dfld d 12 0 16
  let k := dfld d 12 16 16
  let g := dfld d 13 0 12
  let g0 := dfld d 13 12 12
  let mask := dfld d 14 0 24
  let cap := dfld d 15 0 16
  let entries := (List.range g).map fun i => s.tableCount sid d (dShapeAddr d) (g0 + i)
  let counts := entries.map (·.1)
  let lay := raggedBases 0 counts
  let experts := if cap < lay.2 then [] else (raggedExperts counts).filter fun e => e.2.2 != 0
  let live := experts.flatMap fun e => (List.range e.2.2).map (e.2.1 + ·)
  let padded := experts.flatMap fun e => (List.range (roundUp e.2.2 4 - e.2.2)).map (e.2.1 + e.2.2 + ·)
  let ma := oa.mat (lsAddr n oa.addr) cap k false
  let stride := 64 * dfld d 11 0 16
  let mb := fun i => if ob.trans then ob.mat (lsAddr n (ob.addr + i * stride)) nn k false
    else ob.mat (lsAddr n (ob.addr + i * stride)) k nn true
  let drain := fun r => (⟨n, outAddr, outFmt, false, 0, .tiles cap nn cap live padded, r, false, false, false, 0⟩ : DrainJob)
  let h := 16 / 2 ^ band
  let tiles := cdiv ((counts.map fun m => cdiv m h).foldl (· + ·) 0) (16 / h) * cdiv nn 16
  { cls := firstFault [(oa.bad || ob.bad || !fmtAssigned outFmt || classMix oa.fmt ob.fmt || mask == 0 || band == 3 || !dShapeEn d ||
      dShapeField d != 0 || decide (4096 < g0 + g), .descriptorFault)],
    shapes := (tableFault sid (dShapeAddr d) (g0 + g)).or (entries.findSome? (·.2)),
    empty := nn == 0 || k == 0 || g == 0 || counts.all (· == 0),
    big := decide (cap < lay.2),
    exts := [(oa.addr, ma.extent), (ob.addr, (g - 1) * stride + (mb 0).extent), (outAddr, (drain 0).elemExtent)],
    drainOff := dfld d 11 16 16, drain := drain, gradRows := 0, mask := mask,
    tiles := fun _ _ => tiles, macs := fun _ _ => some (tiles * kSteps oa.fmt k),
    reads := ma.rowReads live ++ (if ma.tscale then [(ma.base + ma.extent - 64, 64)] else []) ++
      experts.map fun e => ((mb e.1).base, (mb e.1).extent),
    accs := fun _ _ => [],
    out := fun j s =>
      productOut j s (experts.flatMap fun e =>
        let b := mb e.1
        productEls j s ((List.range e.2.2).map (e.2.1 + ·)) nn (fun _ => false) (s.tScale ma b) fun r c =>
          contract (fmtStep oa.fmt) k (s.matElem ma r) fun i => if ob.trans then s.matElem b c i else s.matElem b i c) }

/-! GRAD (05 R137–R139, R145–R152). -/

/-- WGRAD: dW = Xᵀ · dZ. -/
def wgradJob (s : State) (sid : Nat) (d : Block64) : ArrayJob :=
  let n := sid / 4
  let oa := opd d 8
  let ob := opd d 9
  let t := s.countOf sid d 0 (dfld d 11 0 16)
  let nn := s.countOf sid d 1 (dfld d 11 16 16)
  let k := s.countOf sid d 2 (dfld d 12 0 16)
  let outFmt := dfld d 10 22 4
  let accMode := dfld d 10 26 2
  let mask := dfld d 13 0 24
  let ma := oa.mat (lsAddr n oa.addr) t k true
  let mb := ob.mat (lsAddr n ob.addr) t nn true
  let drain := fun r => (⟨n, dfld d 10 0 22, outFmt, accMode == 1, dfld d 15 0 23,
    .tiles k nn k (upTo k) (edgeRows k), r, true, false, true, 0⟩ : DrainJob)
  { cls := firstFault [(oa.bad || ob.bad || outFmt != 0xF || classMix oa.fmt ob.fmt || decide (2 ≤ accMode) || mask == 0,
      .descriptorFault)],
    shapes := s.shapeFault sid d,
    empty := t == 0 || nn == 0 || k == 0,
    big := decide (dfld d 15 0 23 < (drain 0).elemExtent),
    exts := [(oa.addr, ma.extent), (ob.addr, mb.extent), (dfld d 10 0 22, (drain 0).elemExtent)],
    drainOff := dfld d 14 0 16, drain := drain, gradRows := k, mask := mask,
    tiles := fun j s => liveTiles j s k nn, macs := fun j s => some (liveTiles j s k nn * kSteps oa.fmt t),
    reads := [(ma.base, ma.extent), (mb.base, mb.extent)],
    accs := fun j s => accReads j ((List.range k).filter fun r => !j.rowMasked s r),
    out := fun j s =>
      productOut j s (productEls j s (List.range k) nn (j.rowMasked s) (s.tScale ma mb) fun r c =>
        contract (fmtStep oa.fmt) t (fun i => s.matElem ma i r) (fun i => s.matElem mb i c)) }

/-- WGRAD_RAGGED: each expert's tokens of up to four layouts in one contraction. -/
def wgradRaggedJob (s : State) (sid : Nat) (d : Block64) : ArrayJob :=
  let n := sid / 4
  let fa := dfld d 8 22 4
  let fb := dfld d 9 22 4
  let outAddr := dfld d 10 0 22
  let accMode := dfld d 10 26 2
  let pool := dfld d 8 26 2 + 1
  let stride := 64 * dfld d 11 0 16
  let nn := dfld d 12 0 16
  let k := dfld d 12 16 16
  let g := dfld d 13 0 12
  let g0 := dfld d 13 12 12
  let mask := dfld d 14 0 24
  let cap := dfld d 15 0 16
  let lstride := 64 * dfld d 15 16 16
  let tables := (List.range pool).map fun u => (List.range g).map fun i => s.tableCount sid d (dShapeAddr d + 32768 * u) (g0 + i)
  let layouts := tables.map fun t => raggedBases 0 (t.map (·.1))
  let big := layouts.any fun l => decide (cap < l.2)
  let rowsOf := fun i => if big then [] else (tables.zip layouts).zipIdx.flatMap fun x =>
    (List.range ((x.1.1.getD i (0, none)).1)).map fun r => (x.2, x.1.2.1.getD i 0 + r)
  let mx := fun u => (⟨lsAddr n (dfld d 8 0 22 + u * lstride), fa, 16, false, true, cap, k⟩ : Mat)
  let mz := fun u => (⟨lsAddr n (dfld d 9 0 22 + u * lstride), fb, 16, false, true, cap, nn⟩ : Mat)
  let dwBytes := cdiv k 16 * cdiv nn 16 * 1024
  let drain := fun r => (⟨n, outAddr, 0xF, accMode == 1, 0, .tiles k nn k (upTo k) (edgeRows k), r, true, false, false, 0⟩ : DrainJob)
  let live := (List.range g).filter fun i => tables.any fun t => (t.getD i (0, none)).1 != 0
  { cls := firstFault [(decide (4 ≤ fa) || decide (4 ≤ fb) || classMix fa fb || dfld d 10 22 4 != 0xF || !dShapeEn d ||
      dShapeField d != 0 || decide (4096 < g0 + g) || decide (2 ≤ accMode) || mask == 0, .descriptorFault)],
    shapes := ((List.range pool).findSome? fun u => tableFault sid (dShapeAddr d + 32768 * u) (g0 + g)).or
      (tables.findSome? fun t => t.findSome? (·.2)),
    empty := g == 0 || nn == 0 || k == 0 || live.isEmpty,
    big := big || decide (stride < dwBytes),
    exts := ((List.range pool).flatMap fun u =>
        [(dfld d 8 0 22 + u * lstride, (mx 0).extent), (dfld d 9 0 22 + u * lstride, (mz 0).extent)]) ++
      [(outAddr, (g - 1) * stride + dwBytes)],
    drainOff := dfld d 11 16 16, drain := drain, gradRows := k, mask := mask,
    tiles := fun j s => live.length * liveTiles j s k nn,
    macs := fun j s => some ((live.map fun i => liveTiles j s k nn * kSteps fa (rowsOf i).length).foldl (· + ·) 0),
    reads := live.flatMap fun i => (rowsOf i).flatMap fun x => (mx x.1).rowReads [x.2] ++ (mz x.1).rowReads [x.2],
    accs := fun j s => live.flatMap fun i =>
      accReads { j with outAddr := outAddr + i * stride } ((List.range k).filter fun r => !j.rowMasked s r),
    out := fun j s =>
      let outs := live.map fun i =>
        let ji := { j with outAddr := outAddr + i * stride }
        let rs := rowsOf i
        let at_ := fun x => rs.getD x (0, 0)
        (productOut ji s (productEls ji s (List.range k) nn (ji.rowMasked s) none fun r c =>
          contract (fmtStep fa) rs.length (fun x => s.matElem (mx (at_ x).1) (at_ x).2 r)
            (fun x => s.matElem (mz (at_ x).1) (at_ x).2 c))).1
      (⟨outs.flatMap (·.bytes), outs.flatMap (·.wrs), (outs.map (·.clamped)).foldl (· + ·) 0⟩, []) }

/-- Where the drain record of an array command lies. -/
def ArrayJob.recAddr (a : ArrayJob) (sid : Nat) : Nat := lsAddr (sid / 4) (64 * a.drainOff)

/-- The drain job of an array command, from the record read. -/
def ArrayJob.drainOf (a : ArrayJob) (sid : Nat) (s : State) : DrainJob := a.drain (BitVec.ofNat 512 (s.readNat (a.recAddr sid) 64))

/-! Which commands an array serves first (03 R86, 05 R148). -/

/-- The job of an array command. -/
def jobOf (s : State) (sid : Nat) (d : Block64) : Option ArrayJob :=
  if dClass d = 0x03 then some (if dOp d = 0 then gemmJob s sid d else eltwiseJob s sid d)
  else if dClass d = 0x04 then some (groupedJob s sid d)
  else if dClass d = 0x06 then some (if dOp d = 0 then wgradJob s sid d else wgradRaggedJob s sid d)
  else none

/-- The array commands that core `n` holds, with their streams. -/
def State.heldArray (s : State) (n : Nat) : List (Nat × Cmd) :=
  (sidsOfCore n).flatMap fun t => ((s.strm t).issued.filter fun c => isArrayClass (dClass c.desc)).map fun c => (t, c)

/-- The arrays on which a held command has tiles: none where a check or its gate keeps it from running. -/
def State.arraysOfCmd (s : State) (sid : Nat) (c : Cmd) : List Nat :=
  match jobOf s sid c.desc with
  | none => []
  | some a =>
    let j := a.drainOf sid s
    let closed := match s.gate j with
      | .skip_ => true
      | .fault _ => true
      | _ => false
    if (a.cls.or a.shapes).isSome || a.empty || a.big || (a.exts ++ [(64 * a.drainOff, 64)]).any (fun e => !lsExtent e.1 e.2) ||
      (s.readHurt (a.recAddr sid) 64).isSome || (j.faults s a.gradRows).isSome || closed then []
    else arraysUsed a.mask (a.tiles j s)

/-- The command is served as DEFER 0. -/
def State.servedFirst (s : State) (n : Nat) (x : Nat × Cmd) : Bool :=
  !dDefer x.2.desc || s.fld (Reg.arrDeferStarve n) == 0 || (s.core n).starved.contains (x.1 + 2048 * x.2.acc)

/-- An array gives `x` its tiles before `y`: DEFER 0 before DEFER 1, and within each set the oldest first. -/
def State.servedBefore (s : State) (n : Nat) (x y : Nat × Cmd) : Bool :=
  (s.servedFirst n x && !s.servedFirst n y) || (s.servedFirst n x == s.servedFirst n y && decide (x.2.turn < y.2.turn))

/-- A command has no turn while one served before it has tiles on an array it uses. -/
def State.yields (s : State) (sid : Nat) (c : Cmd) (used : List Nat) : Bool :=
  (s.heldArray (sid / 4)).any fun x => s.servedBefore (sid / 4) x (sid, c) && (s.arraysOfCmd x.1 x.2).any used.contains

/-! The course. -/

/-- DRN_STAGE_PEAK after a command (04 R115): a column-blocked output stages what R115 gives, other outputs an amount the spec
leaves open, within the buffer (log 12). -/
def stagePeak (j : DrainJob) : Prog := withS fun s =>
  let old := s.fld (Reg.drnStagePeak j.core)
  if 0 < j.staging then setF (Reg.drnStagePeak j.core) (max old j.staging)
  else drawFree fun k => setF (Reg.drnStagePeak j.core) (max old (min 256 (Config.staged k)))

/-- The counters of a command that ran (03 R101). -/
def countArrays (n tiles : Nat) (macs : Option Nat) : Prog :=
  seqs [incF (Reg.arrTiles n) tiles,
        match macs with
        | some m => incF (Reg.arrMacCycles n) m
        | none => timed (Reg.arrMacCycles n),
        timed (Reg.arrBusyCycles n), timed (Reg.arrStallCycles n), timed (Reg.coreLsConflicts n)]

/-- A command no longer served as DEFER 0. -/
def unstarve (sid acc : Nat) : Prog := withS fun s =>
  let x := s.core (sid / 4)
  onlyIf (x.starved.contains (sid + 2048 * acc)) (emit [.core (sid / 4) { x with starved := x.starved.filter (· != sid + 2048 * acc) }])

/-- The work of an array command that has passed its checks. -/
def arrayWork (sid : Nat) (c : Cmd) (a : ArrayJob) (j : DrainJob) : Prog := withS fun s =>
  let n := sid / 4
  let tiles := a.tiles j s
  let used := arraysUsed a.mask tiles
  let o := a.out j s
  let up := setF (Reg.arrUp n) (s.fld (Reg.arrUp n) ||| groupMask used)
  seq (startCmd sid c)
    (match s.anyHurt (a.reads ++ a.accs j s ++ drainReads j a.gradRows) with
    | some st => endCmd sid c st
    | none =>
      match used.find? (fun x => s.isArmed 0x02 (32 * n + x)) with
      | some x => seqs [up, useArmed 0x02 (32 * n + x) 0 true false (fun _ => logDetect true 0x02 (n / 128) n x 1 .arrayFault),
          endCmd sid c .arrayFault]
      | none =>
        if s.isArmed 0x03 n then
          seq (useArmed 0x03 n 0 true false fun _ => logDetect true 0x03 (n / 128) n 0 1 .unitFault) (endCmd sid c .unitFault)
        else seqs [up, countArrays n tiles (a.macs j s), stagePeak j, unstarve sid c.acc,
          drainEnd j sid c o.1 o.2 ((List.range (tiles / 64)).map fun i => 64 * (i + 1))])

/-- An array command whose operands and drain record are read: its mask and gate, then its work (03 R84, R99, 04 R129). -/
def arrayGated (sid : Nat) (c : Cmd) (a : ArrayJob) (j : DrainJob) : Prog := withS fun s =>
  match (j.faults s a.gradRows).or (if Nat.land a.mask (s.fld (Reg.arrFailed (sid / 4))) ≠ 0 then some .arrayFault else none) with
  | some st => endCmd sid c st
  | none =>
    let used := arraysUsed a.mask (a.tiles j s)
    if used.any (s.core (sid / 4)).sparing.contains || s.yields sid c used then skip
    else match s.gate j with
      | .busy => beginClear [j.replayExt s]
      | .fault st => endCmd sid c st
      | .skip_ => seq (incF (Reg.drnGateSkips (sid / 4))) (endCmd sid c .ok true)
      | .open_ => arrayWork sid c a j

/-- An array command (03 R84): the six checks, the drain record's between the fifth and the sixth, the gate, then the work. It stays
issued while an array it needs waits for the spare (R98) or belongs to a command served before it (R86, 05 R148). -/
def arrayProg (sid : Nat) (c : Cmd) (a : ArrayJob) : Prog := withS fun s =>
  match a.cls.or a.shapes with
  | some st => endCmd sid c st
  | none =>
    if a.empty then endCmd sid c .ok
    else if a.big then endCmd sid c .sizeFault
    else if (a.exts ++ [(64 * a.drainOff, 64)]).any (fun e => !lsExtent e.1 e.2) then endCmd sid c .addressFault
    else match s.readHurt (a.recAddr sid) 64 with
      | some st => endCmd sid c st
      | none => arrayGated sid c a (a.drainOf sid s)

/-! Ramp, deferral and sparing. -/

/-- A held command of core `n` needs an array of ramp group `g` (03 R96). -/
def State.needsGroup (s : State) (n g : Nat) : Bool :=
  (s.heldArray n).any fun x => (s.arraysOfCmd x.1 x.2).any fun a => a / 3 == g

/-- Ramp group `g` of core `n` is up. -/
def State.groupUp (s : State) (n g : Nat) : Bool := s.fld (Reg.arrUp n) / 2 ^ (3 * g) % 8 == 7

/-- Group `g` may come up: it is needed, and every lower group that is needed is up (03 R96). -/
def State.mayRise (s : State) (n g : Nat) : Bool :=
  decide (n < 256) && decide (g < 8) && s.needsGroup n g && (List.range g).all fun x => !s.needsGroup n x || s.groupUp n x

/-- Group `g` may go down: it is up and idle, and no higher group is up and idle (03 R97). -/
def State.mayFall (s : State) (n g : Nat) : Bool :=
  let idle := fun x => s.groupUp n x && !s.needsGroup n x
  decide (n < 256) && decide (g < 8) && idle g && (List.range 8).all fun x => decide (x ≤ g) || !idle x

/-- RAMP_GROUP_UP: a group that a held command needs comes up, after the lower groups it needs (03 R96). -/
def rampUpProg (n g : Nat) : Prog := withS fun s =>
  onlyIf (s.mayRise n g) (setF (Reg.arrUp n) (s.fld (Reg.arrUp n) ||| 7 * 2 ^ (3 * g)))

/-- RAMP_GROUP_DOWN: the highest idle group that is up goes down (03 R97). -/
def rampDownProg (n g : Nat) : Prog := withS fun s =>
  onlyIf (s.mayFall n g) (setF (Reg.arrUp n) (s.fld (Reg.arrUp n) - 7 * 2 ^ (3 * g)))

/-- ARR_CNT_CLEAR (03 R101). -/
def arrCntClearProg (n : Nat) : Prog :=
  if 256 ≤ n then skip
  else seqs [ungate n, setF (Reg.arrTiles n) 0, setF (Reg.arrMacCycles n) 0, setF (Reg.arrBusyCycles n) 0, setF (Reg.arrStallCycles n) 0]

/-- DEFER_STARVE: an issued deferred command is served as DEFER 0 until it next gets a tile (05 R148). -/
def deferStarveProg (sid acc : Nat) : Prog := withS fun s =>
  let n := sid / 4
  let x := s.core n
  onlyIf (decide (sid < 1024) && s.fld (Reg.arrDeferStarve n) != 0 && (s.strm sid).issued.any fun c => c.acc == acc && dDefer c.desc)
    (emit [.core n { x with starved := (sid + 2048 * acc) :: x.starved.filter (· != sid + 2048 * acc) }])

/-- ARRAY_SPARE_MAP: the faulted array gets the spare, or is marked failed and its core waits for replacement (03 R98, R99, 16 R458). -/
def arraySpareProg (n a : Nat) : Prog := withS fun s =>
  let x := s.core n
  let old := s.fld (Reg.arrPhys n a)
  onlyIf (decide (n < 256) && x.sparing.contains a) (seq
    (emit [.core n { x with sparing := x.sparing.filter (· != a) }])
    (if s.flagBit (Reg.arrSpareUsed n) then
      seq (setF (Reg.arrFailed n) (s.fld (Reg.arrFailed n) ||| 2 ^ a)) (pendCore n)
     else seqs
      [setF (Reg.arrSpareUsed n) 1, setF (Reg.arrSpareFor n) a, setF (Reg.arrPhys n a) 24,
       recordRepair ⟨2, n / 128, 0, s.fld (Reg.corePhysical n), old, 24, 2, s.boot⟩]))

/-- An array command of a core stream. -/
def onArray (sid acc cls op : Nat) (job : State → Nat → Block64 → ArrayJob) : Prog :=
  onIssued sid acc cls op fun c => withS fun s => arrayProg sid c (job s sid c.desc)

/-! The commands. -/

/-- GEMM (03 R84). -/
def execGemm (sid acc : Nat) (s : State) : Out := .next (run (onArray sid acc 0x03 0 gemmJob) s)

/-- ELTWISE (03 R92). -/
def execEltwise (sid acc : Nat) (s : State) : Out := .next (run (onArray sid acc 0x03 1 eltwiseJob) s)

/-- GROUPED (03 R89). -/
def execGrouped (sid acc : Nat) (s : State) : Out := .next (run (onArray sid acc 0x04 0 groupedJob) s)

/-- WGRAD (05 R138). -/
def execWgrad (sid acc : Nat) (s : State) : Out := .next (run (onArray sid acc 0x06 0 wgradJob) s)

/-- WGRAD_RAGGED (05 R151). -/
def execWgradRagged (sid acc : Nat) (s : State) : Out := .next (run (onArray sid acc 0x06 1 wgradRaggedJob) s)

/-- RAMP_GROUP_UP (03 R96). -/
def execRampGroupUp (n g : Nat) (s : State) : Out := .next (run (rampUpProg n g) s)

/-- RAMP_GROUP_DOWN (03 R97). -/
def execRampGroupDown (n g : Nat) (s : State) : Out := .next (run (rampDownProg n g) s)

/-- ARR_CNT_CLEAR (03 R101). -/
def execArrCntClear (n : Nat) (s : State) : Out := .next (run (arrCntClearProg n) s)

/-- DEFER_STARVE (05 R148). -/
def execDeferStarve (sid acc : Nat) (s : State) : Out := .next (run (deferStarveProg sid acc) s)

/-- ARRAY_SPARE_MAP (03 R98). -/
def execArraySpareMap (n a : Nat) (s : State) : Out := .next (run (arraySpareProg n a) s)

end Sys2Proof.Machine
end

