-- ==== Sys2Proof/Machine/Beaters.lean ====
section
/-! DEFINITION. The Beaters (chapter 08): stack addresses, block entries and state slots, UPDATE, working copies, REGEN, Watermark
digests, ACCUMULATE and CLEAR_BUF. -/

namespace Sys2Proof.Machine

/-! Stack addresses (08 R232). -/

/-- Bytes of a state slot (08 R233). -/
def slotBytes : Nat := 0x181000

/-- A stack address lies in a page pair a Beater may use. -/
def State.stackOk (s : State) (a : Nat) : Bool :=
  let i := a / 2 ^ 26
  decide (a < 2 ^ 36) && i != 1023 && (s.pairAttr i == 1 || s.pairAttr i == 2)

/-- A whole extent of stack addresses may be used. -/
def State.stackExtent (s : State) (a len : Nat) : Bool :=
  len == 0 || (List.range ((a + len - 1) / 2 ^ 26 - a / 2 ^ 26 + 1)).all fun i =>
    s.stackOk (if i = 0 then a else (a / 2 ^ 26 + i) * 2 ^ 26)

/-- The LPA alias of stack address `a` of stack `k`. -/
def State.alias_ (s : State) (k a : Nat) : Nat :=
  let i := a / 2 ^ 26
  let j := a / 4096 % 2 ^ 14
  let at_ := s.pairAttr i
  let p := if (at_ = 1 ∧ k / 4 = 0) ∨ (at_ = 2 ∧ k / 4 = 1) then 2 * i else 2 * i + 1
  let f := ((List.range 7).map fun x => j / 4 ^ x % 4).foldl Nat.xor 0
  p * 2 ^ 28 + (4 * j + Nat.xor (k % 4) f) * 4096 + a % 4096

/-- A run of bytes cut where its address crosses 4 KiB. -/
def cut4k : Nat → Nat → List Byte → List (Nat × List Byte)
  | 0, _, _ => []
  | n + 1, a, bs =>
    if bs.isEmpty then []
    else
      let m := 4096 - a % 4096
      (a, bs.take m) :: cut4k n (a + m) (bs.drop m)

/-- Bytes of stack `k`. -/
def State.stackRead (s : State) (k a n : Nat) : List Byte := (List.range n).map fun i => byteAt s.mem (s.alias_ k (a + i))

/-- The LPAs of an extent of stack `k`, by 4 KiB granule: address and length. -/
def State.stackParts (s : State) (k a n : Nat) : List (Nat × Nat) :=
  (cut4k (n / 4096 + 2) a (List.replicate n 0)).map fun p => (s.alias_ k p.1, p.2.length)

/-- Bytes a Beater moves are counted at its stack (07 R229). -/
def countBeater (k n : Nat) : Prog := incF (Reg.hbmBeaterBytes k) n

/-- A Beater reads its stack: a dirty line of the home Vault is written back first (07 R206). -/
def stackTouchRead (k a n : Nat) : Prog := withS fun s =>
  seq (forEach ((s.stackParts k a n).flatMap fun p => linesOf p.1 p.2) fun l => withS fun t =>
      given (nget t.cache (l / 128)) fun c => cleanLine (l / 128, c))
    (countBeater k n)

/-- A Beater writes its stack: each line is invalidated in the home Vault first (07 R206). -/
def stackWrite (k a : Nat) (bs : List Byte) : Prog := withS fun s =>
  seq (forEach (cut4k (bs.length / 4096 + 2) a bs) fun p =>
      let l := s.alias_ k p.1
      seqs [forEach (linesOf l p.2.length) fun x => withS fun t =>
              given (nget t.cache (x / 128)) fun c => dropLine .registrar (x / 128, c),
            emit (p.2.zipIdx.map fun b => .memB (l + b.2) b.1),
            clearHurt l p.2.length, injectWrite l p.2.length])
    (countBeater k bs.length)

/-- Damage on an extent of a stack. -/
def State.stackHurt (s : State) (k a n : Nat) : Option Status := (s.stackParts k a n).findSome? fun p => s.readHurt p.1 p.2

/-! Block entries (08 R234). -/

/-- A block entry: its address and its 64 bytes. -/
structure BEntry where
  addr : Nat
  d    : Block64
  deriving DecidableEq, Repr

namespace BEntry

def slotBase (e : BEntry) : Nat := dword e.d 0 + 2 ^ 32 * dfld e.d 1 0 4
def valid (e : BEntry) (h : Nat) : Bool := dfld e.d 1 (8 + h) 1 == 1
def epoch (e : BEntry) (h : Nat) : Nat := dword e.d (2 + h)
def tiles (e : BEntry) : Nat := dfld e.d 4 0 11
def exact (e : BEntry) : Bool := dfld e.d 4 12 1 == 1
def form (e : BEntry) : Nat := dfld e.d 4 13 3
def block (e : BEntry) : Nat := blockSize (dfld e.d 4 16 2)
def grad (e : BEntry) : Nat := daddr e.d 5 6 12
def tensor (e : BEntry) : Nat := dword e.d 7
def first (e : BEntry) : Nat := dfld e.d 8 0 24
def trows (e : BEntry) : Nat := dfld e.d 9 0 16
def tcols (e : BEntry) : Nat := dfld e.d 9 16 16
/-- Matrix base of the working copy of a parity, with the bits above it, and its space. -/
def wc (e : BEntry) (parity : Nat) : Nat := daddr e.d (10 + 2 * parity) (11 + 2 * parity) 12
def wcLpa (e : BEntry) (parity : Nat) : Bool := dfld e.d (11 + 2 * parity) 31 1 == 1
def colOffset (e : BEntry) : Nat := 64 * dword e.d 14
def slot (e : BEntry) (h : Nat) : Nat := e.slotBase + h * slotBytes
/-- Parameters of the block. -/
def params (e : BEntry) : Nat := 256 * e.tiles

/-- The committed slot under an epoch (08 R246). -/
def committed (e : BEntry) (n : Nat) : Option Nat :=
  let ok := fun h => e.valid h && decide (e.epoch h ≤ n)
  if ok 0 && ok 1 then some (if e.epoch 0 < e.epoch 1 then 1 else 0)
  else if ok 0 then some 0 else if ok 1 then some 1 else none

/-- The entry with VALID and SLOT_EPOCH of slot `h` changed. -/
def setSlot (e : BEntry) (h : Nat) (valid : Bool) (epoch : Nat) : BEntry :=
  let ws := (List.range 16).map fun i =>
    if i = 1 then dword e.d 1 / 2 ^ (9 + h) * 2 ^ (9 + h) + (if valid then 2 ^ (8 + h) else 0) + dword e.d 1 % 2 ^ (8 + h)
    else if i = 2 + h then epoch else dword e.d i
  { e with d := BitVec.ofNat 512 (ws.foldr (fun w acc => w % 2 ^ 32 + 2 ^ 32 * acc) 0) }

/-- The orientations WC_FORM writes: offset from the matrix base, format code, and the matrix with its scale blocks. -/
def copies (e : BEntry) : List (Nat × Mat) :=
  let m := fun fmt col => (⟨0, fmt, e.block, false, col, 16 * e.trows, 16 * e.tcols⟩ : Mat)
  if e.form = 0 then [(0, { m 0x0 false with block := 16 })]
  else if e.form = 1 then [(0, m 0x9 false)]
  else if e.form = 2 then [(0, m 0x9 true)]
  else [(0, m 0x9 false), (e.colOffset, m 0x9 true)]

/-- Row and column of parameter `i` in the matrix. -/
def place (e : BEntry) (i : Nat) : Nat × Nat :=
  let t := e.first + i / 256
  (16 * (t / e.tcols) + i % 256 / 16, 16 * (t % e.tcols) + i % 16)

/-- Bytes of the working-copy buffer, from its matrix base. -/
def wcExtent (e : BEntry) : Nat := ((e.copies.map fun c => c.1 + c.2.extent)).foldl max 0

/-- What 08 R230 asks of a block. -/
def shapeOk (e : BEntry) : Bool :=
  let last := e.first + e.tiles
  let edge := fun t => t % e.tcols % 8 == 0
  let whole := e.first % e.tcols == 0 && e.tiles % e.tcols == 0
  let b := e.block / 16
  edge e.first && edge last &&
  (e.form != 2 && e.form != 3 || last == e.trows * e.tcols ||
    (whole && e.first / e.tcols % b == 0 && e.tiles / e.tcols % b == 0))

/-- The checks of one entry (08 R240 step 8). -/
def fault (e : BEntry) (s : State) (needsSlot : Bool) (k : Nat) : Option Status :=
  let scratch := fun a n => match s.extent a n with | some (.scratch _) => true | _ => false
  let wcOk := fun p =>
    if e.wcLpa p then scratch (e.wc p) e.wcExtent
    else decide (e.wc p < 2 ^ 36) && s.stackExtent (e.wc p) e.wcExtent
  if e.tiles = 0 then none
  else firstFault
    [(decide (1024 < e.tiles) || decide (4 ≤ e.form) || decide (e.trows * e.tcols < e.first + e.tiles) || !e.shapeOk, .descriptorFault),
     (e.slotBase % 4096 != 0 || !s.stackExtent e.slotBase (2 * slotBytes) ||
       !scratch e.grad (if e.exact then 4096 * e.tiles else 1024 * e.tiles) || (e.exact && e.grad % 512 != 0) || !wcOk 0 || !wcOk 1,
       .addressFault),
     (needsSlot && (e.committed (s.fld (Reg.btrEpoch k))).isNone, .sequenceFault)]

end BEntry

/-- The entry at an address. -/
def State.bEntry (s : State) (a : Nat) : BEntry := ⟨a, BitVec.ofNat 512 (leNat (bytesAt s.mem a 64))⟩

/-- An entry is written as one unit. -/
def putEntry (sid : Nat) (e : BEntry) : Prog := writeBytes (.engine sid) e.addr (leBytes 64 e.d.toNat)

/-! State slots (08 R233). -/

/-- Master of parameter `i` of a slot. -/
def State.master (s : State) (k slot i : Nat) : Nat := leNat (s.stackRead k (slot + 4 * i) 4)

/-- A stored moment decoded to FP32 (08 R241): elements at `el`, scales at `sc`. -/
def State.moment (s : State) (k slot el sc : Nat) (f : Fmt) (i : Nat) : Nat :=
  let x := (leNat (s.stackRead k (slot + sc + i / 128) 1) : Nat)
  if x = 0xFF then fp32.nanCode
  else enc fp32 ((f.decode (leNat (s.stackRead k (slot + el + i) 1))).scale ((x : Int) - 127))

/-- Moments packed: element bytes and scale bytes, in blocks of 128 (08 R242). -/
def packMoments (f : Fmt) (vals : List Nat) : List Byte × List Byte :=
  let blocks := (List.range (cdiv vals.length 128)).map fun j => (vals.drop (128 * j)).take 128
  let done := blocks.map fun b =>
    let sc := scaleFor f true (b.map fp32.decode)
    (b.map fun v => BitVec.ofNat 8 (enc f ((fp32.decode v).scale (-sc.1))), BitVec.ofNat 8 (sc.1 + 127).toNat)
  (done.flatMap (·.1), done.map (·.2))

/-! Working copies (08 R244). -/

/-- One orientation of a block's working copy: the offset of its element bytes, the bytes, and its scale bytes by offset, ascending. -/
abbrev WCopy := Nat × List Byte × List (Nat × Byte)

/-- Rounding of parameter `i` of epoch `ep`. -/
def wcDraw (s : State) (k : Nat) (e : BEntry) (ep : Nat) (stochastic : Bool) (i : Nat) : Option Nat :=
  if stochastic then
    some (srDraw (s.fld (Reg.btrSeedLo k) + 2 ^ 32 * s.fld (Reg.btrSeedHi k)) e.tensor (ep * 2 ^ 32 + e.first * 256 + i))
  else none

/-- The scale offsets of a block in one orientation, ascending. -/
def scaleOffsets (e : BEntry) (m : Mat) : List Nat :=
  if fmtScaled m.fmt then
    (((List.range e.params).map fun i => let p := e.place i; m.scaleIndex p.1 p.2).eraseDups.mergeSort (· ≤ ·)).map (m.tileBytes + ·)
  else []

/-- The working copy of a block from its masters. -/
def workingCopy (s : State) (k : Nat) (e : BEntry) (ep : Nat) (stochastic : Bool) (masters : List Nat) : List WCopy :=
  e.copies.map fun c =>
    let m := c.2
    let f := elemFmt m.fmt
    let off := c.1 + m.base + e.first * (32 * fmtBits m.fmt)
    if !fmtScaled m.fmt then
      (off, packCodes 16 (masters.zipIdx.map fun x => (roundTo f (wcDraw s k e ep stochastic x.2) (fp32.decode x.1)).1), [])
    else
      let idx := fun i => let p := e.place i; m.scaleIndex p.1 p.2
      let scales := (scaleOffsets e m).map fun o =>
        let mine := (masters.zipIdx.filter fun x => m.tileBytes + idx x.2 == o).map fun x => fp32.decode x.1
        (o, if mine.any (fun v => !v.isFin) then none else some (scaleFor f true mine).1)
      let codes := masters.zipIdx.map fun x =>
        match (scales.find? fun y => y.1 == m.tileBytes + idx x.2).bind (·.2) with
        | some sc => (roundTo f (wcDraw s k e ep stochastic x.2) ((fp32.decode x.1).scale (-sc))).1
        | none => 0
      (off, packCodes 8 codes, scales.map fun y => (c.1 + y.1, match y.2 with
        | some sc => BitVec.ofNat 8 (sc + 127).toNat
        | none => 0xFF))

/-- The bytes of a working copy where the block keeps that parity. -/
def putWc (sid k : Nat) (e : BEntry) (parity : Nat) (cs : List WCopy) : Prog :=
  let put := fun off bs => if e.wcLpa parity then writeBytes (.engine sid) (e.wc parity + off) bs else stackWrite k (e.wc parity + off) bs
  forEach cs fun c => seq (put c.1 c.2.1) (forEach c.2.2 fun x => put x.1 [x.2])

/-- The bytes a digest covers (08 R253). -/
def wcBytes (cs : List WCopy) : List Byte := cs.flatMap fun c => c.2.1 ++ c.2.2.map (·.2)

/-- The stored bytes of a block's working copy. -/
def State.storedWc (s : State) (k : Nat) (e : BEntry) (parity : Nat) : List Byte :=
  let get := fun off n => if e.wcLpa parity then bytesAt s.mem (e.wc parity + off) n else s.stackRead k (e.wc parity + off) n
  e.copies.flatMap fun c =>
    get (c.1 + e.first * (32 * fmtBits c.2.fmt)) (e.tiles * (32 * fmtBits c.2.fmt)) ++
      (scaleOffsets e c.2).flatMap fun o => get (c.1 + o) 1

/-- The masters of a slot. -/
def State.masters (s : State) (k slot n : Nat) : List Nat := (List.range n).map (s.master k slot)

/-! Digests (08 R253–R255). -/

/-- mix. -/
def wmMix (x : BitVec 64) : BitVec 64 :=
  let x := (x ^^^ (x >>> 30)) * 0xBF58476D1CE4E5B9
  let x := (x ^^^ (x >>> 27)) * 0x94D049BB133111EB
  x ^^^ (x >>> 31)

/-- p = 2^61 − 1. -/
def wmP : Nat := 2 ^ 61 - 1

/-- key(j). -/
def wmKey (k j : Nat) : Nat := (wmMix (BitVec.ofNat 64 (k + (j + 1) * 0x9E3779B97F4A7C15))).toNat % wmP

/-- digest of words. -/
def wmDigest (k : Nat) (ws : List Nat) : Nat := ws.zipIdx.foldl (fun h x => (h + wmKey k (x.2 + 1) * x.1) % wmP) (wmKey k 0)

/-- Bytes as 32-bit words, the last one padded. -/
def wordsOf (bs : List Byte) : List Nat := (List.range (cdiv bs.length 4)).map fun i => leNat ((bs.drop (4 * i)).take 4)

/-- The levels above one of the digest table. -/
def wmLevels (k : Nat) : Nat → List Nat → List (List Nat)
  | 0, l => [l]
  | n + 1, l =>
    if l.length ≤ 1 then [l]
    else l :: wmLevels k n ((List.range (cdiv l.length 16)).map fun q =>
      wmDigest k (((l.drop (16 * q)).take 16).flatMap fun d => [d % 2 ^ 32, d / 2 ^ 32]))

/-- Nodes of each level of a table of `count` leaves. -/
def wmSizes : Nat → Nat → List Nat
  | 0, c => [c]
  | n + 1, c => if c ≤ 1 then [c] else c :: wmSizes n (cdiv c 16)

/-- Bytes of a digest table (08 R255). -/
def wmExtent (count : Nat) : Nat := ((wmSizes 10 count).map fun n => roundUp (8 * n) 64).foldl (· + ·) 0

/-- The bytes of a digest table. -/
def wmTable (k : Nat) (leaves : List Nat) : List Byte :=
  (wmLevels k 10 leaves).flatMap fun l => l.flatMap (leBytes 8) ++ leBytes (roundUp (8 * l.length) 64 - 8 * l.length) 0

/-! UPDATE (08 R241–R243, R247). -/

/-- The optimiser record (08 R239). -/
structure OptRec where
  w : List Nat
  opt : Nat
  nesterov : Bool
  stochastic : Bool
  deriving DecidableEq, Repr

/-- The record at an address. -/
def State.optRec (s : State) (a : Nat) : OptRec :=
  let d := BitVec.ofNat 512 (leNat (bytesAt s.mem a 64))
  ⟨(List.range 9).map (dword d), dfld d 9 0 2, dfld d 9 2 1 == 1, dfld d 9 3 1 == 1⟩

/-- A field of the record. -/
def OptRec.f (o : OptRec) (i : Nat) : Nat := o.w.getD i 0

/-- The fields an optimiser uses are finite (08 R240 step 6). -/
def OptRec.bad (o : OptRec) : Bool :=
  let used := if o.opt = 0 then [0, 1, 2, 3, 4, 5, 6, 7] else if o.opt = 1 then [0, 1, 2, 4, 7] else [0, 1, 4, 7, 8]
  o.opt == 3 || used.any fun i => !fFinite fp32 (o.f i)

/-- New master, first and second moment of one parameter from gradient, master and moments (08 R241). -/
def OptRec.apply (o : OptRec) (gRaw wOld mOld vOld : Nat) : Nat × Nat × Nat × Nat :=
  let mul := fMul fp32
  let fma := fFma fp32
  let one := fun x => fSub fp32 one32 x
  let lr := o.f 0
  let b1 := o.f 1
  let b2 := o.f 2
  let wD := mul wOld (one (mul lr (o.f 4)))
  let a1 := one b1
  let a2 := one b2
  let g := mul gRaw (o.f 7)
  let negLr := fNeg fp32 lr
  if o.opt = 0 then
    let m := fma b1 mOld (mul a1 g)
    let v := fma b2 vOld (mul (mul a2 g) g)
    let u := fDiv fp32 (mul m (o.f 5)) (fAdd fp32 (fSqrt fp32 (mul v (o.f 6))) (o.f 3))
    (g, fma negLr u wD, m, v)
  else if o.opt = 1 then
    let c := fma b1 mOld (mul a1 g)
    let x := fp32.decode c
    let sg := if x.isNan then fp32.nanCode else if x.isZero then 0 else if x.isNeg then 0xBF800000 else one32
    (g, fma negLr sg wD, fma b2 mOld (mul a2 g), vOld)
  else
    let m := fma b1 mOld (mul (one (o.f 8)) g)
    let sx := if o.nesterov then fma b1 m g else m
    (g, fma negLr sx wD, m, vOld)

/-- The gradient of parameter `i` (08 R235, R241). -/
def State.gradAt (s : State) (e : BEntry) (i : Nat) : Nat :=
  if e.exact then (s.exBlock (e.grad + 512 * (i / 32))).conv (i % 32) else leNat (bytesAt s.mem (e.grad + 4 * i) 4)

/-- The pieces of a block's slot that an optimiser reads and writes, as (offset, length): the masters, the first moment with its scales, and
for AdamW the second moment with its own (08 R233, R241). -/
def slotPieces (e : BEntry) (opt : Nat) : List (Nat × Nat) :=
  [(0, 4 * e.params), (0x100000, e.params), (0x180000, cdiv e.params 128)] ++
  if opt = 0 then [(0x140000, e.params), (0x180800, cdiv e.params 128)] else []

/-- The pieces a command reads of a block's committed slot: an UPDATE what its optimiser uses, any other the masters alone. -/
def readPieces (e : BEntry) (opt : Option Nat) : List (Nat × Nat) :=
  match opt with
  | some o => slotPieces e o
  | none => [(0, 4 * e.params)]

/-- The bytes of a block's gradient region. -/
def BEntry.gradBytes (e : BEntry) : Nat := if e.exact then 4096 * e.tiles else 1024 * e.tiles

/-- Reading a block's inputs ends the command on a hurt line: an UPDATE its gradients and what its optimiser reads of slot `c`, any other
command the masters. -/
def State.blockHurt (s : State) (k : Nat) (e : BEntry) (c : Nat) (opt : Option Nat) : Option Status :=
  (if opt.isSome then s.readHurt e.grad e.gradBytes else none).or
    ((readPieces e opt).findSome? fun p => s.stackHurt k (e.slot c + p.1) p.2)

/-- A Beater reads pieces of a slot. -/
def readSlot (k slot : Nat) (ps : List (Nat × Nat)) : Prog := forEach ps fun p => stackTouchRead k (slot + p.1) p.2

/-- The extents of a stack's bytes, by their LPAs. -/
def State.stackExts (s : State) (write : Bool) (k a n : Nat) : List Ext := (s.stackParts k a n).map fun p => (write, p.1, p.2)

/-- The pieces of a block's working copy, as (offset, length): in each orientation its element bytes and its scale bytes. -/
def wcPieces (e : BEntry) : List (Nat × Nat) :=
  e.copies.flatMap fun c => (c.1 + e.first * (32 * fmtBits c.2.fmt), e.tiles * (32 * fmtBits c.2.fmt)) ::
    (scaleOffsets e c.2).map fun o => (c.1 + o, 1)

/-- The extents of a block's working copy of a parity. -/
def State.wcExts (s : State) (write : Bool) (k : Nat) (e : BEntry) (parity : Nat) : List Ext :=
  (wcPieces e).flatMap fun p =>
    if e.wcLpa parity then [(write, e.wc parity + p.1, p.2)] else s.stackExts write k (e.wc parity + p.1) p.2

/-- Writing an extent of a stack ends the command on a hurt line that it covers in part (16 R444). -/
def State.stackWriteHurt (s : State) (k a n : Nat) : Option Status := (s.stackParts k a n).findSome? fun p => s.writeHurt p.1 p.2

/-- Writing a block's working copy of a parity, likewise. -/
def State.wcWriteHurt (s : State) (k : Nat) (e : BEntry) (parity : Nat) : Option Status :=
  (wcPieces e).findSome? fun p =>
    if e.wcLpa parity then s.writeHurt (e.wc parity + p.1) p.2 else s.stackWriteHurt k (e.wc parity + p.1) p.2

/-- What an UPDATE of a block writes, likewise: the shadow slot `h` and the working copy. Damage is found before a byte is written (log 83). -/
def State.shadowHurt (s : State) (k : Nat) (e : BEntry) (h opt parity : Nat) : Option Status :=
  ((slotPieces e opt).findSome? fun p => s.stackWriteHurt k (e.slot h + p.1) p.2).or (s.wcWriteHurt k e parity)

/-- A Beater reads a block's stored working copy. -/
def readWc (sid k : Nat) (e : BEntry) (parity : Nat) : Prog :=
  forEach (wcPieces e) fun p =>
    if e.wcLpa parity then touch false (.engine sid) (e.wc parity + p.1) p.2 else stackTouchRead k (e.wc parity + p.1) p.2

/-- One block of an UPDATE; `next` continues with the later blocks. -/
def updateBlock (sid k : Nat) (c : Cmd) (o : OptRec) (ep : Nat) (a : Nat) (done : Nat) (next : Prog) : Prog := withS fun s =>
  let e := s.bEntry a
  if e.tiles = 0 then seq (markCmd sid c (done + 1)) next
  else
    let cs := (e.committed (s.fld (Reg.btrEpoch k))).getD 0
    let h := 1 - cs
    let open_ := putEntry sid (e.setSlot h false (e.epoch h))
    match (s.blockHurt k e cs (some o.opt)).or (s.shadowHurt k e h o.opt (ep % 2)) with
    | some st => seq open_ (endCmd sid c st)
    | none =>
      let idx := List.range e.params
      let res := idx.map fun i => o.apply (s.gradAt e i) (s.master k (e.slot cs) i) (s.moment k (e.slot cs) 0x100000 0x180000 e4m3 i)
        (s.moment k (e.slot cs) 0x140000 0x180800 e5m2 i)
      let blocks := if e.exact then (List.range (8 * e.tiles)).map fun j => s.exBlock (e.grad + 512 * j) else []
      let under := (blocks.filter fun b => bit b.flags 1).length
      let badBlock := blocks.findIdx? fun b => bit b.flags 0 || b.mask != 0
      let fin := fFinite fp32
      let badParam := res.findIdx? fun r => !(fin r.1 && fin r.2.1 && fin r.2.2.1 && (o.opt != 0 || fin r.2.2.2))
      let reads := seqs [touch false (.engine sid) e.grad e.gradBytes, readSlot k (e.slot cs) (slotPieces e o.opt),
        incF (Reg.btrGradUnderflow k) under]
      if badBlock.isSome || badParam.isSome then
        let element := fun j => (((blocks[j]?).bind fun b => (maskSlots b.mask).head?)).getD 0
        let firstP := min ((badBlock.map fun j => 32 * j + element j).getD e.params) (badParam.getD e.params)
        seqs [open_, reads, incF (Reg.btrNonfinite k),
          logEv (.stream sid) c.acc .numericFail (dTag c.desc) false (.numeric ((a - daddr c.desc 8 9 12) / 64) firstP 0xF 0 0),
          endCmd sid c .numericFail]
      else
        let pm := packMoments e4m3 (res.map (·.2.2.1))
        let pv := packMoments e5m2 (res.map (·.2.2.2))
        let masters := res.map (·.2.1)
        seqs [open_, reads,
          stackWrite k (e.slot h + 0x100000) pm.1, stackWrite k (e.slot h + 0x180000) pm.2,
          onlyIf (o.opt == 0) (seq (stackWrite k (e.slot h + 0x140000) pv.1) (stackWrite k (e.slot h + 0x180800) pv.2)),
          stackWrite k (e.slot h) (masters.flatMap (leBytes 4)),
          putWc sid k e (ep % 2) (workingCopy s k e ep o.stochastic masters),
          putEntry sid (e.setSlot h true ep),
          incF (Reg.btrBlocksUpdated k), markCmd sid c (done + 1), next]

/-- Blocks of an UPDATE in ascending entry order. -/
def updateBlocks (sid k : Nat) (c : Cmd) (o : OptRec) (ep : Nat) : List (Nat × Nat) → Prog
  | [] => endCmd sid c .ok
  | x :: r => updateBlock sid k c o ep x.1 x.2 (updateBlocks sid k c o ep r)

/-- One block of a REGEN (08 R252). -/
def regenBlock (sid k : Nat) (c : Cmd) (a done : Nat) (next : Prog) : Prog := withS fun s =>
  let e := s.bEntry a
  if e.tiles = 0 then seq (markCmd sid c (done + 1)) next
  else
    let cs := (e.committed (s.fld (Reg.btrEpoch k))).getD 0
    let ep := e.epoch cs
    match (s.blockHurt k e cs none).or (s.wcWriteHurt k e (ep % 2)) with
    | some st => endCmd sid c st
    | none => seqs [readSlot k (e.slot cs) (readPieces e none),
        putWc sid k e (ep % 2) (workingCopy s k e ep (dfld c.desc 14 0 1 == 1) (s.masters k (e.slot cs) e.params)),
        incF (Reg.btrRegens k), markCmd sid c (done + 1), next]

/-- Blocks of a REGEN. -/
def regenBlocks (sid k : Nat) (c : Cmd) : List (Nat × Nat) → Prog
  | [] => endCmd sid c .ok
  | x :: r => regenBlock sid k c x.1 x.2 (regenBlocks sid k c r)

/-- The leaf digest of one entry (08 R253, R254); with MODE 1 and no committed slot the spec states none, and it is a free function of the
entry and the key (04 R132, log 1). -/
def leafDigest (s : State) (k : Nat) (d : Block64) (e : BEntry) : Nat :=
  let key := s.fld (Reg.btrWmKeyLo k) + 2 ^ 32 * s.fld (Reg.btrWmKeyHi k)
  let n := s.fld (Reg.btrEpoch k)
  if e.tiles = 0 then wmKey key 0
  else if dfld d 14 0 1 = 0 then wmDigest key (wordsOf (s.storedWc k e (n % 2)))
  else match e.committed n with
    | some cs => wmDigest key (wordsOf (wcBytes (workingCopy s k e (e.epoch cs) (dfld d 14 1 1 == 1) (s.masters k (e.slot cs) e.params))))
    | none => Config.noSlotDigest e.d key % wmP

/-! The command class (08 R238–R240). -/

/-- The Beater of a stream. -/
def beaterOf (sid : Nat) : Nat := sid - 1056

/-- The LPAs of the entries a command names, each with its number within the command. -/
def entryAddrs (d : Block64) (count : Nat) : List (Nat × Nat) :=
  (List.range count).map fun i => (daddr d 8 9 12 + 64 * (dfld d 10 0 20 + i), i)

/-- An extent lies in one backed scratchpad half. -/
def State.inScratch (s : State) (a len : Nat) : Bool :=
  match s.extent a len with
  | some (.scratch _) => true
  | _ => false

/-- A lane injection is armed at Beater `k` (16 R479). -/
def State.laneArmed (s : State) (k : Nat) : Option Nat :=
  (s.cons.armed.find? fun x => x.target == 0x0C && x.die == 8 + k).map (·.unit)

/-- A Beater command: too few lanes (16 R458 Table 9), the checks of R240, then the work. A lane fault ends it with BEATER_FAULT. -/
def beaterProg (sid : Nat) (c : Cmd) (count : Nat) (shape : Option Status) (sizeBad : Bool) (addrBad : Option Status)
    (late : Option Status) (exts : List Ext) (work : Prog) : Prog := withS fun s =>
  let k := beaterOf sid
  if s.fld (Reg.btrLanes k) < 48 then endCmd sid c .unitFault
  else match shape with
    | some st => endCmd sid c st
    | none =>
      if count = 0 then endCmd sid c .ok
      else if sizeBad then endCmd sid c .sizeFault
      else match addrBad.or late with
        | some st => endCmd sid c st
        | none => whenReady exts (seq (startCmd sid c)
          (match s.laneArmed k with
          | some u => seqs [useArmed 0x0C u (8 + k) true true (fun _ => logDetect true 0x0C (k / 4) k u 1 .beaterFault),
              endCmd sid c .beaterFault]
          | none => work))

/-- The first fault among a command's entries, in ascending order; a damaged entry ends it too. -/
def State.entriesFault (s : State) (k : Nat) (needsSlot : Bool) (as : List (Nat × Nat)) : Option Status :=
  as.findSome? fun a => (s.readHurt a.1 64).or ((s.bEntry a.1).fault s needsSlot k)

/-- Damage among what DIGEST reads of a block. -/
def State.digestHurt (s : State) (k : Nat) (d : Block64) (e : BEntry) : Option Status :=
  let n := s.fld (Reg.btrEpoch k)
  if e.tiles = 0 then none
  else if dfld d 14 0 1 = 0 then (wcPieces e).findSome? fun p =>
    if e.wcLpa (n % 2) then s.readHurt (e.wc (n % 2) + p.1) p.2 else s.stackHurt k (e.wc (n % 2) + p.1) p.2
  else (e.committed n).bind fun cs => s.blockHurt k e cs none

/-- What DIGEST reads of a block: its stored working copy, or the masters it is made from (08 R254). -/
def digestRead (sid k : Nat) (d : Block64) (e : BEntry) : Prog := withS fun s =>
  let n := s.fld (Reg.btrEpoch k)
  if e.tiles = 0 then skip
  else if dfld d 14 0 1 = 0 then readWc sid k e (n % 2)
  else given (e.committed n) fun cs => readSlot k (e.slot cs) (readPieces e none)

/-- The accesses that a command makes for one block, of its stack as of the Vault: a Beater's are checked against the home Vault and its
directory as any requester's (07 R206, R209 Table 4). -/
def State.blockExts (s : State) (k op : Nat) (d : Block64) (o : OptRec) (e : BEntry) : List Ext :=
  let n := s.fld (Reg.btrEpoch k)
  let slot := fun (write : Bool) (h : Nat) (ps : List (Nat × Nat)) => ps.flatMap fun p => s.stackExts write k (e.slot h + p.1) p.2
  if e.tiles = 0 then []
  else match op, e.committed n with
    | 0, some cs =>
      (e.exact, e.grad, e.gradBytes) :: slot false cs (slotPieces e o.opt) ++ slot true (1 - cs) (slotPieces e o.opt) ++
        s.wcExts true k e (dword d 14 % 2)
    | 1, some cs => slot false cs (readPieces e none) ++ s.wcExts true k e (e.epoch cs % 2)
    | 2, cs =>
      if dfld d 14 0 1 = 0 then s.wcExts false k e (n % 2)
      else (cs.toList.flatMap fun c => slot false c (readPieces e none))
    | _, _ => []

/-- UPDATE, REGEN and DIGEST: what they share. -/
def tableProg (sid : Nat) (c : Cmd) (op : Nat) : Prog := withS fun s =>
  let d := c.desc
  let k := beaterOf sid
  let count := s.countOf sid d 0 (dword d 11)
  let as := entryAddrs d count
  let tbl := daddr d 8 9 12
  let aux := daddr d 12 13 12
  let span := 64 * (dfld d 10 0 20 + count)
  let o := s.optRec aux
  let auxBad := if op = 0 then aux % 64 != 0 || !s.inScratch aux 64
    else if op = 2 then aux % 64 != 0 || !s.inScratch aux (wmExtent count) else false
  let late := (if op = 0 then (s.readHurt aux 64).or (firstFault
      [(o.bad, .descriptorFault), (dword d 14 != (s.fld (Reg.btrEpoch k) + 1) % 2 ^ 32, .sequenceFault)]) else none).or
    (s.entriesFault k (op != 2) as)
  let work := if op = 0 then updateBlocks sid k c o (dword d 14) as
    else if op = 1 then regenBlocks sid k c as
    else withS fun t =>
      match (as.findSome? fun a => t.digestHurt k d (t.bEntry a.1)).or (t.writeHurt aux (wmExtent count)) with
      | some st => endCmd sid c st
      | none =>
        let key := t.fld (Reg.btrWmKeyLo k) + 2 ^ 32 * t.fld (Reg.btrWmKeyHi k)
        seqs [forEach as fun a => digestRead sid k d (t.bEntry a.1),
          writeBytes (.engine sid) aux (wmTable key (as.map fun a => leafDigest t k d (t.bEntry a.1))),
          forEach as fun a => markCmd sid c (a.2 + 1), endCmd sid c .ok]
  beaterProg sid c count (s.shapeFault sid d)
    (decide (dword d 15 < span) || (op == 2 && decide (64 * dfld d 14 2 30 < wmExtent count)))
    (if tbl % 64 != 0 || !s.inScratch tbl span || auxBad then some .addressFault else none) late
    ((op == 0, tbl, span) :: (if op = 0 then [(false, aux, 64)] else if op = 2 then [(true, aux, wmExtent count)] else []) ++
      as.flatMap fun a => s.blockExts k op d o (s.bEntry a.1)) work

/-- ACCUMULATE (08 R235). -/
def accumulateProg (sid : Nat) (c : Cmd) : Prog := withS fun s =>
  let d := c.desc
  let src := daddr d 8 9 12
  let dst := daddr d 10 11 12
  let tiles := s.countOf sid d 0 (dword d 12)
  let len := 1024 * tiles
  let srcBad := src % 64 != 0 || s.extent src len != some .ls || coreOfAddr src != coreOfAddr (src + len - 1)
  let out := match coreOfAddr src with | some n => s.outOfService n | none => false
  beaterProg sid c tiles (s.shapeFault sid d) (decide (dword d 13 < tiles))
    (firstFault [(srcBad || dst % 512 != 0 || !s.inScratch dst (4096 * tiles), .addressFault), (out, .unitFault)])
    none [(true, dst, 4096 * tiles)]
    (match (s.readHurt src len).or (s.readHurt dst (4096 * tiles)) with
    | some st => endCmd sid c st
    | none => seq
      (forEach (List.range (8 * tiles)) fun j => withS fun t =>
        putBlock (.engine sid) (dst + 512 * j) ((t.exBlock (dst + 512 * j)).addAll (List.range 32)
          ((List.range 32).map fun x => leNat (bytesAt t.mem (src + 128 * j + 4 * x) 4))))
      (endCmd sid c .ok))

/-- CLEAR_BUF (08 R236). -/
def clearBufProg (sid : Nat) (c : Cmd) : Prog := withS fun s =>
  let d := c.desc
  let dst := daddr d 10 11 12
  let blocks := s.countOf sid d 0 (dword d 12)
  beaterProg sid c blocks (s.shapeFault sid d) (decide (4096 * dword d 13 < 512 * blocks))
    (if dst % 512 != 0 || !s.inScratch dst (512 * blocks) then some .addressFault else none) none [(true, dst, 512 * blocks)]
    (seq (forEach (List.range blocks) fun j =>
        writeBytes (.engine sid) (dst + 512 * j) (ExBlock.toBytes ⟨List.replicate 32 0, dfld d 14 0 16, 0, 0, 0⟩))
      (endCmd sid c .ok))

/-- BTR_CNT_CLEAR (08 R259). -/
def btrCntClearProg (k : Nat) : Prog := if 8 ≤ k then skip else setF (Reg.btrBlocksUpdated k) 0

/-- A Beater's streams run one command at a time, in issue order (08 R238). -/
def onBeater (sid acc op : Nat) (k : Cmd → Prog) : Prog := withS fun s =>
  match (s.strm sid).issued with
  | c :: _ => onlyIf (c.acc == acc) (onIssued sid acc 0x12 op k)
  | [] => skip

/-- An UPDATE that has not completed with OK, or a halt, on a Beater stream (08 R249). -/
def State.updateOpen (s : State) : Bool :=
  (List.range 8).any fun k =>
    let x := s.strm (1056 + k)
    x.halted || (x.ahead ++ x.issued).any fun c => dClass c.desc == 0x12 && dOp c.desc == 0

/-! The commands. -/

/-- UPDATE (08 R247). -/
def execUpdate (sid acc : Nat) (s : State) : Out :=
  .next (run (onBeater sid acc 0 fun c => tableProg sid c 0) s)

/-- REGEN (08 R252). -/
def execRegen (sid acc : Nat) (s : State) : Out :=
  .next (run (onBeater sid acc 1 fun c => tableProg sid c 1) s)

/-- DIGEST (08 R254). -/
def execDigest (sid acc : Nat) (s : State) : Out :=
  .next (run (onBeater sid acc 2 fun c => tableProg sid c 2) s)

/-- ACCUMULATE (08 R235). -/
def execAccumulate (sid acc : Nat) (s : State) : Out := .next (run (onBeater sid acc 3 (accumulateProg sid)) s)

/-- CLEAR_BUF (08 R236). -/
def execClearBuf (sid acc : Nat) (s : State) : Out := .next (run (onBeater sid acc 4 (clearBufProg sid)) s)

/-- BTR_CNT_CLEAR (08 R259). -/
def execBtrCntClear (k : Nat) (s : State) : Out := .next (run (btrCntClearProg k) s)

end Sys2Proof.Machine
end

