-- ==== Sys2Proof/Machine/Crypto.lean ====
section
/-! DEFINITION. The cryptography of chapter 15: SHA-384, HMAC, HKDF, and ECDSA P-384 verification (FIPS 180-4, FIPS 186-5, RFC 5869, by
the names the spec gives them). Key, digest and signature values are byte strings, most significant byte first (15 R423). -/

namespace Sys2Proof.Machine

/-- The number a byte string spells, most significant byte first (15 R423). -/
def beNat (bs : List Byte) : Nat := bs.foldl (fun n b => 256 * n + b.toNat) 0

/-- The `n` low bytes of a number, most significant first. -/
def beBytes (n v : Nat) : List Byte := (leBytes n v).reverse

/-! SHA-384. -/

/-- The round constants. -/
def shaK : List (BitVec 64) :=
  [0x428A2F98D728AE22, 0x7137449123EF65CD, 0xB5C0FBCFEC4D3B2F, 0xE9B5DBA58189DBBC, 0x3956C25BF348B538] ++
  [0x59F111F1B605D019, 0x923F82A4AF194F9B, 0xAB1C5ED5DA6D8118, 0xD807AA98A3030242, 0x12835B0145706FBE] ++
  [0x243185BE4EE4B28C, 0x550C7DC3D5FFB4E2, 0x72BE5D74F27B896F, 0x80DEB1FE3B1696B1, 0x9BDC06A725C71235] ++
  [0xC19BF174CF692694, 0xE49B69C19EF14AD2, 0xEFBE4786384F25E3, 0xFC19DC68B8CD5B5, 0x240CA1CC77AC9C65] ++
  [0x2DE92C6F592B0275, 0x4A7484AA6EA6E483, 0x5CB0A9DCBD41FBD4, 0x76F988DA831153B5, 0x983E5152EE66DFAB] ++
  [0xA831C66D2DB43210, 0xB00327C898FB213F, 0xBF597FC7BEEF0EE4, 0xC6E00BF33DA88FC2, 0xD5A79147930AA725] ++
  [0x6CA6351E003826F, 0x142929670A0E6E70, 0x27B70A8546D22FFC, 0x2E1B21385C26C926, 0x4D2C6DFC5AC42AED] ++
  [0x53380D139D95B3DF, 0x650A73548BAF63DE, 0x766A0ABB3C77B2A8, 0x81C2C92E47EDAEE6, 0x92722C851482353B] ++
  [0xA2BFE8A14CF10364, 0xA81A664BBC423001, 0xC24B8B70D0F89791, 0xC76C51A30654BE30, 0xD192E819D6EF5218] ++
  [0xD69906245565A910, 0xF40E35855771202A, 0x106AA07032BBD1B8, 0x19A4C116B8D2D0C8, 0x1E376C085141AB53] ++
  [0x2748774CDF8EEB99, 0x34B0BCB5E19B48A8, 0x391C0CB3C5C95A63, 0x4ED8AA4AE3418ACB, 0x5B9CCA4F7763E373] ++
  [0x682E6FF3D6B2B8A3, 0x748F82EE5DEFB2FC, 0x78A5636F43172F60, 0x84C87814A1F0AB72, 0x8CC702081A6439EC] ++
  [0x90BEFFFA23631E28, 0xA4506CEBDE82BDE9, 0xBEF9A3F7B2C67915, 0xC67178F2E372532B, 0xCA273ECEEA26619C] ++
  [0xD186B8C721C0C207, 0xEADA7DD6CDE0EB1E, 0xF57D4F7FEE6ED178, 0x6F067AA72176FBA, 0xA637DC5A2C898A6] ++
  [0x113F9804BEF90DAE, 0x1B710B35131C471B, 0x28DB77F523047D84, 0x32CAAB7B40C72493, 0x3C9EBE0A15C9BEBC] ++
  [0x431D67C49C100D4C, 0x4CC5D4BECB3E42B6, 0x597F299CFC657E2A, 0x5FCB6FAB3AD6FAEC, 0x6C44198C4A475817]

/-- The initial hash value. -/
def shaInit : List (BitVec 64) :=
  [0xCBBB9D5DC1059ED8, 0x629A292A367CD507, 0x9159015A3070DD17, 0x152FECD8F70E5939, 0x67332667FFC00B31, 0x8EB44A8768581511, 0xDB0C2E0D64F98FA7, 0x47B5481DBEFA4FA4]

/-- Message schedule word from the sixteen before it, newest first. -/
def shaNext (w : List (BitVec 64)) : BitVec 64 :=
  let s0 := fun (x : BitVec 64) => x.rotateRight 1 ^^^ x.rotateRight 8 ^^^ (x >>> 7)
  let s1 := fun (x : BitVec 64) => x.rotateRight 19 ^^^ x.rotateRight 61 ^^^ (x >>> 6)
  s1 (w.getD 1 0) + w.getD 6 0 + s0 (w.getD 14 0) + w.getD 15 0

/-- One round. -/
def shaRound (v : List (BitVec 64)) (k w : BitVec 64) : List (BitVec 64) :=
  match v with
  | [a, b, c, d, e, f, g, h] =>
    let t1 := h + (e.rotateRight 14 ^^^ e.rotateRight 18 ^^^ e.rotateRight 41) + ((e &&& f) ^^^ (~~~e &&& g)) + k + w
    let t2 := (a.rotateRight 28 ^^^ a.rotateRight 34 ^^^ a.rotateRight 39) + ((a &&& b) ^^^ (a &&& c) ^^^ (b &&& c))
    [t1 + t2, a, b, c, d + t1, e, f, g]
  | _ => v

/-- One 128-byte block: the schedule's newest sixteen words run along with the rounds. -/
def shaBlock (h : List (BitVec 64)) (words : List (BitVec 64)) : List (BitVec 64) :=
  let step := fun (acc : List (BitVec 64) × List (BitVec 64) × Nat) k =>
    let w := if acc.2.2 < 16 then words.getD acc.2.2 0 else shaNext acc.2.1
    (shaRound acc.1 k w, (w :: acc.2.1).take 16, acc.2.2 + 1)
  let r := shaK.foldl step (h, [], 0)
  (h.zip r.1).map fun p => p.1 + p.2

/-- The words of a block. -/
def shaWords (bs : List Byte) : List (BitVec 64) :=
  (List.range 16).map fun i => BitVec.ofNat 64 (beNat ((bs.drop (8 * i)).take 8))

/-- The blocks of a padded message, `n` of them. -/
def shaBlocks (h : List (BitVec 64)) (bs : List Byte) : Nat → List (BitVec 64)
  | 0 => h
  | n + 1 => shaBlocks (shaBlock h (shaWords bs)) (bs.drop 128) n

/-- SHA-384: 48 bytes. -/
def sha384 (msg : List Byte) : List Byte :=
  let len := msg.length
  let zeros := (128 - (len + 17) % 128) % 128
  let padded := msg ++ 0x80 :: List.replicate zeros 0 ++ beBytes 16 (8 * len)
  ((shaBlocks shaInit padded (padded.length / 128)).take 6).flatMap fun w => beBytes 8 w.toNat

/-! HMAC and HKDF. -/

/-- HMAC-SHA-384. -/
def hmac384 (key msg : List Byte) : List Byte :=
  let k := if 128 < key.length then sha384 key else key
  let k := k ++ List.replicate (128 - k.length) 0
  sha384 (k.map (· ^^^ 0x5C) ++ sha384 (k.map (· ^^^ 0x36) ++ msg))

/-- HKDF-SHA-384's expansion, block `i` after the one before it. -/
def hkdfBlocks (prk info prev : List Byte) : Nat → Nat → List Byte
  | 0, _ => []
  | n + 1, i => let t := hmac384 prk (prev ++ info ++ [BitVec.ofNat 8 i]); t ++ hkdfBlocks prk info t n (i + 1)

/-- HKDF-SHA-384 from input key material without salt: `len` bytes. -/
def hkdf384 (ikm info : List Byte) (len : Nat) : List Byte :=
  (hkdfBlocks (hmac384 (List.replicate 48 0) ikm) info [] ((len + 47) / 48) 1).take len

/-! P-384. -/

/-- The field prime. -/
def ecP : Nat := 0xFFFFFFFFFFFFFFFFFFFFFFFFFFFFFFFFFFFFFFFFFFFFFFFFFFFFFFFFFFFFFFFEFFFFFFFF0000000000000000FFFFFFFF
/-- The group order. -/
def ecN : Nat := 0xFFFFFFFFFFFFFFFFFFFFFFFFFFFFFFFFFFFFFFFFFFFFFFFFC7634D81F4372DDF581A0DB248B0A77AECEC196ACCC52973
/-- The curve's b. -/
def ecB : Nat := 0xB3312FA7E23EE7E4988E056BE3F82D19181D9C6EFE8141120314088F5013875AC656398D8A2ED19D2A85C8EDD3EC2AEF
/-- The base point. -/
def ecG : Nat × Nat :=
  (0xAA87CA22BE8B05378EB1C71EF320AD746E1D3B628BA79B9859F741E082542A385502F25DBF55296C3A545E3872760AB7,
   0x3617DE4A96262C6F5D9E98BF9292DC29F8F41DBD289A147CE9DA3113B5F0B8C00A60B1CE1D7E819D7A431D7C90EA0E5F)

/-- `a` to the power of the `n` low bits of `e`, modulo `m`. -/
def powMod (m a e : Nat) : Nat → Nat
  | 0 => 1
  | n + 1 => let h := powMod m (a * a % m) (e / 2) n; if e % 2 = 1 then a * h % m else h

/-- The inverse modulo a prime. -/
def invMod (m a : Nat) : Nat := powMod m (a % m) (m - 2) 384

/-- A sum of points; none is the point at infinity. -/
def ecAdd (p q : Option (Nat × Nat)) : Option (Nat × Nat) :=
  match p, q with
  | none, _ => q
  | _, none => p
  | some a, some b =>
    if a.1 = b.1 ∧ (a.2 + b.2) % ecP = 0 then none
    else
      let l := if a.1 = b.1 then (3 * a.1 * a.1 + ecP - 3) * invMod ecP (2 * a.2) % ecP
               else (b.2 + ecP - a.2) * invMod ecP (b.1 + ecP - a.1) % ecP
      let x := (l * l + 2 * ecP - a.1 - b.1) % ecP
      some (x, (l * (a.1 + ecP - x) + ecP - a.2) % ecP)

/-- A multiple of a point by the `n` low bits of `k`. -/
def ecMul (k : Nat) (p : Option (Nat × Nat)) : Nat → Option (Nat × Nat)
  | 0 => none
  | n + 1 => let h := ecMul (k / 2) (ecAdd p p) n; if k % 2 = 1 then ecAdd p h else h

/-- ECDSA P-384 verification of a signature (r then s) under a public key (x then y) on a digest. -/
def ecdsaOk (pub sig digest : List Byte) : Bool :=
  let x := beNat (pub.take 48)
  let y := beNat ((pub.drop 48).take 48)
  let r := beNat (sig.take 48)
  let s := beNat ((sig.drop 48).take 48)
  let e := beNat digest
  let w := invMod ecN s
  decide (x < ecP) && decide (y < ecP) && (y * y) % ecP == (x * x * x + (ecP - 3) * x + ecB) % ecP &&
  decide (0 < r) && decide (r < ecN) && decide (0 < s) && decide (s < ecN) &&
  match ecAdd (ecMul (e * w % ecN) (some ecG) 384) (ecMul (r * w % ecN) (some (x, y)) 384) with
  | some p => p.1 % ecN == r
  | none => false

/-- A private scalar from 448 bits, by the extra-random-bits method (15 R424). -/
def scalarOf (bs : List Byte) : Nat := beNat bs % (ecN - 1) + 1

/-- The bytes of a text. -/
def ascii (t : String) : List Byte := t.toList.map fun c => BitVec.ofNat 8 c.toNat

end Sys2Proof.Machine
end

