-- ==== Sys2Proof/Machine/Cipher.lean ====
section
/-! DEFINITION. The ciphers of chapter 15: AES-256 (FIPS 197), its XTS form over the data units of HBM and the Vault (R432, R433) and its
GCM form over the packets of a link (R434, R435). -/

namespace Sys2Proof.Machine

/-! AES-256. -/

/-- Multiplication by x among the bytes of AES. -/
def aesX (a : Nat) : Nat := if a < 128 then 2 * a else Nat.xor (2 * a % 256) 0x1B

/-- The product of two bytes, by the `n` low bits of the second. -/
def aesMul (a b : Nat) : Nat → Nat
  | 0 => 0
  | n + 1 => Nat.xor (if b % 2 = 1 then a else 0) (aesMul (aesX a) (b / 2) n)

/-- The inverse of a byte, its 254th power; 0 for 0. -/
def aesInv (a : Nat) : Nat :=
  ((List.range 7).foldl (fun acc _ => let sq := aesMul acc.1 acc.1 8; (sq, aesMul acc.2 sq 8)) (a, 1)).2

/-- The substitution of a byte. -/
def aesSub (a : Nat) : Nat :=
  let b := aesInv a
  (List.range 4).foldl (fun acc i => Nat.xor acc (b * 2 ^ (i + 1) % 256 + b / 2 ^ (7 - i))) (Nat.xor b 0x63)

/-- Two lists of bytes, added byte by byte. -/
def xorBytes (a b : List Nat) : List Nat := (a.zip b).map fun p => Nat.xor p.1 p.2

/-- The 60 words of the key schedule: `i` words are there, newest first. -/
def aesSchedule : Nat → Nat → List (List Nat) → List (List Nat)
  | 0, _, ws => ws.reverse
  | n + 1, i, ws =>
    let prev := ws.headD []
    let t := if i % 8 = 0 then
        let r := (prev.drop 1 ++ prev.take 1).map aesSub
        xorBytes r [(List.range (i / 8 - 1)).foldl (fun x _ => aesX x) 1, 0, 0, 0]
      else if i % 8 = 4 then prev.map aesSub else prev
    aesSchedule n (i + 1) (xorBytes (ws.getD 7 []) t :: ws)

/-- The round keys of a 32-byte key, 16 bytes each. -/
def aesRoundKeys (key : List Byte) : List (List Nat) :=
  let ks := key.map (·.toNat)
  let ws := aesSchedule 52 8 ((List.range 8).map fun i => (ks.drop (4 * i)).take 4).reverse
  (List.range 15).map fun r => ((ws.drop (4 * r)).take 4).flatten

/-- Substitution and row shift of a block held column by column. -/
def aesShift (b : List Nat) : List Nat := (List.range 16).map fun i => aesSub (b.getD ((i + 4 * (i % 4)) % 16) 0)

/-- The column mix. -/
def aesMix (b : List Nat) : List Nat :=
  (List.range 16).map fun i =>
    let c := fun j => b.getD (i / 4 * 4 + (i + j) % 4) 0
    Nat.xor (Nat.xor (aesX (c 0)) (Nat.xor (aesX (c 1)) (c 1))) (Nat.xor (c 2) (c 3))

/-- One block under the round keys. -/
def aesBlock (rk : List (List Nat)) (b : List Byte) : List Byte :=
  let start := xorBytes (b.map (·.toNat)) (rk.headD [])
  let mid := ((rk.drop 1).take 13).foldl (fun x k => xorBytes (aesMix (aesShift x)) k) start
  (xorBytes (aesShift mid) (rk.getD 14 [])).map (BitVec.ofNat 8)

/-! XTS over memory (15 R432, R433). -/

/-- The blocks of a data unit, with the tweak multiplied by α from each to the next. -/
def xtsBlocks (rk : List (List Nat)) : Nat → Nat → List Byte → List Byte
  | 0, _, _ => []
  | n + 1, t, bs =>
    let mask := fun (x : List Byte) => (x.zip (leBytes 16 t)).map fun p => p.1 ^^^ p.2
    mask (aesBlock rk (mask (bs.take 16))) ++
      xtsBlocks rk n (Nat.xor (2 * t % 2 ^ 128) (if t < 2 ^ 127 then 0 else 0x87)) (bs.drop 16)

/-- A data unit of 128 bytes under a 64-byte key and its tweak. -/
def xtsUnit (key : List Byte) (tweak : Nat) (bs : List Byte) : List Byte :=
  xtsBlocks (aesRoundKeys (key.take 32)) 8 (leNat (aesBlock (aesRoundKeys (key.drop 32)) (leBytes 16 tweak))) bs

/-- The tweak of an HBM data unit: stack address, stack (15 R433). -/
def hbmTweak (k a : Nat) : Nat := a / 128 % 2 ^ 29 + 2 ^ 29 * (k % 8)

/-- The tweak of a Vault data unit: slice offset, slice, die (15 R433). -/
def vaultTweak (d i o : Nat) : Nat := o / 128 % 2 ^ 22 + 2 ^ 22 * (i % 64) + 2 ^ 28 * (d % 2) + 2 ^ 32

/-- The tweak of the data unit at an HBM or scratchpad address. -/
def State.tweakOf (s : State) (a : Nat) : Nat :=
  if a < 0x08000000000 then hbmTweak (s.placeOf a).1 (s.placeOf a).2
  else vaultTweak (s.sliceOf a).1 (s.sliceOf a).2 (scratchOffset ((a - 0x08000000000) % 0x800000000))

/-- The bytes that stand in HBM or the Vault for the data unit of an address: its plaintext under the memory key in force. -/
def State.cipherUnit (s : State) (a : Nat) : List Byte :=
  xtsUnit (leBytes 64 (if a < 0x08000000000 then s.sec.hbmKey else s.sec.vaultKey)) (s.tweakOf a) (bytesAt s.mem (a / 128 * 128) 128)

/-! GCM over a link (15 R434, R435). -/

/-- The product of two field elements of GHASH, by the `n` high bits of the first. -/
def ghashMul (v : Nat) : Nat → Nat → Nat
  | _, 0 => 0
  | x, n + 1 =>
    Nat.xor (if 2 ^ 127 ≤ x then v else 0)
      (ghashMul (Nat.xor (v / 2) (if v % 2 = 1 then 0xE1 * 2 ^ 120 else 0)) (2 * x % 2 ^ 128) n)

/-- Bytes padded with zeros to whole blocks. -/
def padBlock (bs : List Byte) : List Byte := bs ++ List.replicate ((16 - bs.length % 16) % 16) 0

/-- GHASH of whole blocks. -/
def ghash (h : Nat) (bs : List Byte) : Nat :=
  (List.range (bs.length / 16)).foldl (fun y i => ghashMul h (Nat.xor y (beNat ((bs.drop (16 * i)).take 16))) 128) 0

/-- Bytes under the counter stream that starts at counter `c`. -/
def gcmStream (rk : List (List Nat)) (iv : List Byte) (c : Nat) (bs : List Byte) : List Byte :=
  (bs.zip ((List.range (cdiv bs.length 16)).flatMap fun i => aesBlock rk (iv ++ beBytes 4 (c + i)))).map fun p => p.1 ^^^ p.2

/-- AES-256-GCM: the ciphertext and the 16-byte tag of a payload and what is authenticated with it. -/
def gcmSeal (key iv aad text : List Byte) : List Byte × List Byte :=
  let rk := aesRoundKeys key
  let h := beNat (aesBlock rk (List.replicate 16 0))
  let ct := gcmStream rk iv 2 text
  let y := ghash h (padBlock aad ++ padBlock ct ++ beBytes 8 (8 * aad.length) ++ beBytes 8 (8 * ct.length))
  (ct, gcmStream rk iv 1 (beBytes 16 y))

/-- HKDF-SHA-384 with a salt. -/
def hkdfSalt (salt ikm info : List Byte) (len : Nat) : List Byte := (hkdfBlocks (hmac384 salt ikm) info [] ((len + 47) / 48) 1).take len

/-- The session keys of a link, 72 bytes, from the ECDH shared value, the pre-shared key and its ends as (index, port), the lower index first
(15 R434): for each direction a 32-byte key and a 4-byte nonce salt, the lower index's direction first. The spec gives the bytes of the info
no encoding and the two directions no order in the output: indices are taken as two bytes and ports as one (log 69). -/
def linkKeys (psk shared : List Byte) (lo hi : Nat × Nat) : List Byte :=
  hkdfSalt psk shared (ascii "chener" ++ beBytes 2 lo.1 ++ beBytes 2 hi.1 ++ beBytes 1 lo.2 ++ beBytes 1 hi.2) 72

end Sys2Proof.Machine
end

