-- ==== Sys2Proof/Machine/Vat.lean ====
section
/-! DEFINITION. The Vat's pools and levels, coordinates, reachability and the routing of packets (10 R293–R301). -/

namespace Sys2Proof.Machine

/-! Coordinates (10 R297). -/

/-- An axis extent from its code. -/
def extentOf (c : Nat) : Nat := 4 * (c + 1)

/-- The system extents. -/
def State.ext3 (s : State) : Nat × Nat × Nat :=
  (extentOf (s.fld Reg.chnExtX), extentOf (s.fld Reg.chnExtY), extentOf (s.fld Reg.chnExtZ))

/-- The global index of a package: x + 16y + 256z. -/
def globalIndex (x y z : Nat) : Nat := x + 16 * y + 256 * z

/-- The coordinates of a global index. -/
def coords (i : Nat) : Nat × Nat × Nat := (i % 16, i / 16 % 16, i / 256 % 16)

/-- This package's global index. -/
def State.me (s : State) : Nat := globalIndex (s.fld Reg.chnX) (s.fld Reg.chnY) (s.fld Reg.chnZ)

/-- The in-rack index of a global index. -/
def inRack (i : Nat) : Nat := let c := coords i; c.1 % 4 + 4 * (c.2.1 % 4) + 16 * (c.2.2 % 4)

/-- The rack of a global index. -/
def rackOf (i : Nat) : Nat × Nat × Nat := let c := coords i; (c.1 / 4, c.2.1 / 4, c.2.2 / 4)

/-- The rack index. -/
def rackIndex (i : Nat) : Nat := let r := rackOf i; r.1 + 4 * r.2.1 + 16 * r.2.2

/-- The global index of in-rack index `i` in this package's rack. -/
def State.inMyRack (s : State) (i : Nat) : Nat :=
  let r := rackOf s.me
  globalIndex (4 * r.1 + i % 4) (4 * r.2.1 + i / 4 % 4) (4 * r.2.2 + i / 16 % 4)

/-- This package's in-rack index. -/
def State.myIndex (s : State) : Nat := inRack s.me

/-- The reachability bit of a global index (10 R301). -/
def State.reachable (s : State) (i : Nat) : Bool := bit (s.fld (Reg.chnReach (i / 32))) (i % 32)

/-- A reachability bit is written. -/
def setReach (i : Nat) (v : Bool) : Prog := withS fun s =>
  let w := s.fld (Reg.chnReach (i / 32))
  setF (Reg.chnReach (i / 32)) (if v then w ||| 2 ^ (i % 32) else w - (if bit w (i % 32) then 2 ^ (i % 32) else 0))

/-! Pools (10 R293, R296). -/

/-- Cells of a chain: one header cell and the payload's. -/
def chainCells (len : Nat) : Nat := 1 + cdiv len 256

/-- The level of a pool from its level, count and size: it leaves a level once the count is P/32 cells below the threshold. -/
def levelNext (cur used p : Nat) : Nat :=
  let th := fun k => if k = 1 then 3 * p / 4 else if k = 2 then 7 * p / 8 else 97 * p / 100
  let up := if th 3 ≤ used then 3 else if th 2 ≤ used then 2 else if th 1 ≤ used then 1 else 0
  let stays := fun k => k ≤ cur && decide (32 * th k < 32 * used + p)
  let hold := if stays 3 then 3 else if stays 2 then 2 else if stays 1 then 1 else 0
  max up hold

/-- The pool of a packet in transit (10 R293 Table 5); COL traffic lies in its group's reservation. -/
def poolOf : PktType → Option Nat
  | .read | .write | .atomic | .flag => some 1
  | .readData | .atomicData | .refuse => some 2
  | .col => none
  | _ => some 0

/-- The class of a packet (10 R292 Table 4). -/
def classOf : PktType → Nat
  | .read | .write | .atomic | .flag => 0
  | .readData | .ack | .atomicData | .nak | .refuse => 1
  | .coh => 2
  | .col => 3
  | _ => 4

/-- Payload bytes a packet carries: the LENGTH of a READ is what it asks for (10 R291). -/
def carriedBytes (p : Packet) : Nat := if p.type = .read then 0 else p.length

/-- The cells of a packet's chain; CONTROL holds only single cells (10 R293). -/
def packetCells (p : Packet) : Nat := if poolOf p.type = some 0 then 1 else chainCells (carriedBytes p)

/-- The fabric unit is replaced. -/
def setFab (x : FabX) : Prog := emit [.fab x]

/-- The fabric unit is changed. -/
def updFab (f : FabX → FabX) : Prog := withS fun s => setFab (f s.fab)

/-- A port is replaced. -/
def setPort (p : Nat) (x : Port) : Prog := emit [.port p x]

/-! Credits (10 R294, R296). -/

/-- What a receiving port grants now for each class and VC: ⌊P/72⌋ cells of the class's pool, at least 17; REQ 17 while REQUEST is at its
refusal level. -/
def State.grants (s : State) : NMap Nat :=
  (List.range 10).map fun k =>
    let pool := match k / 2 with | 0 => 1 | 1 => 2 | 3 => 3 | _ => 0
    let g := max 17 (s.fld (Reg.vatCells pool) / 72)
    (k, if k / 2 = 0 ∧ s.fld (Reg.vatLevel 1) = 3 then 17 else g)

/-- An entry of a credit table. -/
def creditAt (m : NMap Nat) (k : Nat) : Nat := (nget m k).getD 0

/-- Cells that a port's traffic held are free: their credit is owed to the peer, but for what a fallen grant takes back. -/
def returnCredit (hop : Nat × Nat) (n : Nat) : Prog := withS fun s =>
  let x := s.port hop.1
  let given := creditAt x.given hop.2
  let keep := min n (given - creditAt s.grants hop.2)
  setPort hop.1 { x with given := nset x.given hop.2 (given - keep), owed := nset x.owed hop.2 (creditAt x.owed hop.2 + n - keep) }

/-- The REQ grants of the ACTIVE ports rise again to what the pool grants. -/
def raiseGrants : Prog := withS fun s =>
  forEach ((List.range 36).filter fun p => s.fld (Reg.chnPortState p) == 7) fun p => forEach [0, 1] fun k => withS fun t =>
    let x := t.port p
    let more := creditAt t.grants k - creditAt x.given k
    setPort p { x with given := nset x.given k (creditAt x.given k + more), owed := nset x.owed k (creditAt x.owed k + more) }

/-! Cells (10 R293, R296). -/

/-- A pool's count becomes `n`: its peak, its level, and what entering or leaving a level does. -/
def setUsed (p n : Nat) : Prog := withS fun s =>
  let cur := s.fld (Reg.vatLevel p)
  let new := levelNext cur n (s.fld (Reg.vatCells p))
  seqs [setF (Reg.vatUsed p) n, setF (Reg.vatPeak p) (max (s.fld (Reg.vatPeak p)) n), setF (Reg.vatLevel p) new,
        onlyIf (decide (cur < 1) && decide (1 ≤ new)) (seq (incF (Reg.vatWarns p)) (sendIrq (s.fld Reg.vatIrqVec))),
        onlyIf (decide (cur < 2) && decide (2 ≤ new)) (incF (Reg.vatBp p)),
        onlyIf (p == 1 && cur == 3 && decide (new < 3)) raiseGrants]

/-- Cells are taken. -/
def takeCells (p n : Nat) : Prog := withS fun s => setUsed p (s.fld (Reg.vatUsed p) + n)

/-- Cells are returned. -/
def freeCells (p n : Nat) : Prog := withS fun s => setUsed p (s.fld (Reg.vatUsed p) - n)

/-- A packet enters the Vat. -/
def enterVat (pkt : Packet) (hop pool : Option (Nat × Nat)) : Prog :=
  seq (given pool fun x => takeCells x.1 x.2) (updFab fun x => { x with transit := x.transit ++ [⟨pkt, hop, pool⟩] })

/-- A packet leaves the Vat: its cells are free, and the credit of the port it arrived on returns. One whose arrival no command has shown
holds its cells for the moment. -/
def leaveVat (pkt : Packet) : Prog := withS fun s =>
  let pool := (poolOf pkt.type).map fun x => (x, packetCells pkt)
  match s.fab.transit.find? (·.pkt == pkt) with
  | some t => seqs
      [updFab fun x => { x with transit := x.transit.erase t }, given t.pool fun x => freeCells x.1 x.2,
       given t.hop fun h => returnCredit h (packetCells pkt)]
  | none => given pool fun x => seq (takeCells x.1 x.2) (freeCells x.1 x.2)

/-! Routing (10 R298, R299). -/

/-- Directions 0–5: +X, −X, +Y, −Y, +Z, −Z; port 6d + i faces direction d. -/
def portDir (p : Nat) : Nat := p / 6

/-- The direction along one axis of extent `n` from `a` to `b`: the shorter way round, + on a tie; along the rack's line where the
axis is cascaded and the packet stays in the rack. -/
def axisDir (axis n a b : Nat) (local_ : Bool) : Option Nat :=
  if a = b then none
  else if local_ && n != 4 then some (2 * axis + if a < b then 0 else 1)
  else if (b + n - a) % n * 2 ≤ n then some (2 * axis) else some (2 * axis + 1)

/-- The first direction a packet takes, in the order X, Y, Z. -/
def State.firstDir (s : State) (dst : Nat) (local_ : Bool) : Option Nat :=
  let e := s.ext3
  let a := coords s.me
  let b := coords dst
  ((axisDir 0 e.1 a.1 b.1 local_).or (axisDir 1 e.2.1 a.2.1 b.2.1 local_)).or (axisDir 2 e.2.2 a.2.2 b.2.2 local_)

/-- ACTIVE ports of a direction. -/
def State.activePorts (s : State) (d : Nat) : List Nat := ((List.range 6).map (6 * d + ·)).filter fun p => s.fld (Reg.chnPortState p) == 7

/-- The fallback list of a destination. -/
def State.fallback (s : State) (dst : Nat) : List Nat :=
  let w := if rackOf dst = rackOf s.me then s.fld (Reg.chnRoute (inRack dst)) else s.fld (Reg.chnSysRoute (rackIndex dst))
  ((List.range 6).map fun i => w / 2 ^ (3 * i) % 8).takeWhile fun c => decide (c < 6)

/-- The port a packet leaves by: of the ACTIVE ports of its direction the one with the fewest frames queued, the lower number on a
tie; else the first direction of the fallback list that has an ACTIVE port. -/
def State.exitPort (s : State) (dst : Nat) (local_ : Bool) (queued : List Nat) : Option Nat :=
  let best := fun (ps : List Nat) => ps.foldl (fun b p => match b with
    | none => some p
    | some x => if queued.getD p 0 < queued.getD x 0 then some p else some x) none
  match s.firstDir dst local_ with
  | none => none
  | some d =>
    if !(s.activePorts d).isEmpty then best (s.activePorts d)
    else ((s.fallback dst).find? fun x => !(s.activePorts x).isEmpty).bind fun x => best (s.activePorts x)

/-- A packet whose Vat cells take an injected error (16 R479, code 0x08): corrected and counted, or the packet is discarded. -/
def vatCell (k : Prog) : Prog := withS fun s =>
  match s.cons.armed.find? (·.target == 0x08) with
  | none => k
  | some x =>
    seq (useArmed 0x08 0 0 false false fun kind =>
          if kind = 0 then seq (incF Reg.csvCeCount) (logDetect true 0x08 2 0 0 1 .ok)
          else seq uncorrectable (logDetect true 0x08 2 0 0 1 .memoryFault))
      (onlyIf (x.kind == 0) k)

/-- A packet of this package is handed to the fabric: it waits in the Vat for its hop. -/
def sendPacket (p : Packet) : Prog :=
  vatCell (seq (enterVat p none ((poolOf p.type).map fun x => (x, packetCells p))) (emit [.send (.packet p)]))

end Sys2Proof.Machine
end

