-- ==== Sys2Proof/Machine/Vector.lean ====
section
/-! DEFINITION. The vector unit (03 R93–R95): one meaning of an element per opcode, the row reductions in their fixed order, and the
shared course of a VECTOR command. -/

namespace Sys2Proof.Machine

/-- A result and the overflow it counts: 1 when finite inputs round to an infinity (04 R123). -/
def vecCnt (ins : List Nat) (r : Nat) : Cnt := (r, cnt1 (ins.all (fFinite fp32)) r)

/-- The element operations of 03 R93 Table 11 on FP32 codes: sources a, b, c and scalars S, T. -/
inductive VecOp where
  | add | sub | mul | fma | max | min | scale | convert
  | fn (f : VFn)
  | rowSum | rowMax | rowSumsq | rowSoftmax
  deriving DecidableEq, Repr

/-- Sources an operation reads. -/
def VecOp.sources : VecOp → Nat
  | .add => 2 | .sub => 2 | .mul => 2 | .max => 2 | .min => 2 | .fma => 3 | _ => 1

/-- A row operation. -/
def VecOp.isRow : VecOp → Bool
  | .rowSum => true | .rowMax => true | .rowSumsq => true | .rowSoftmax => true | _ => false

/-- A row operation with one result a row. -/
def VecOp.reduces : VecOp → Bool
  | .rowSum => true | .rowMax => true | .rowSumsq => true | _ => false

/-- The result of an element operation. -/
def VecOp.element (o : VecOp) (a b c s t : Nat) : Cnt :=
  match o with
  | .add => vecCnt [a, b] (fAdd fp32 a b)
  | .sub => vecCnt [a, b] (fSub fp32 a b)
  | .mul => vecCnt [a, b] (fMul fp32 a b)
  | .fma => vecCnt [a, b, c] (fFma fp32 a b c)
  | .max => (fMax fp32 a b, 0)
  | .min => (fMin fp32 a b, 0)
  | .scale => vecCnt [a, s, t] (fFma fp32 a s t)
  | .fn f =>
    let r := f.eval a
    match f with
    | .exp => vecCnt [a] r
    | .recip => if a % 2 ^ 31 = 0 then (r, 0) else vecCnt [a] r
    | _ => (r, 0)
  | _ => (a, 0)

/-! Row reductions (03 R95). -/

/-- Lane `l` of a row: its elements in ascending order, accumulated by `f` from +0. -/
def laneSum (f : Cnt → Cnt → Cnt) (row : List Cnt) (l : Nat) : Cnt :=
  ((row.zipIdx.filter fun p => p.2 % 64 == l).map (·.1)).foldl f (0, 0)

/-- Adjacent pairs added. -/
def pairUp : List Cnt → List Cnt
  | a :: b :: r => cAdd a b :: pairUp r
  | r => r

/-- The fixed pairwise tree over 64 lanes. -/
def lanesSum (ls : List Cnt) : Cnt := (pairUp (pairUp (pairUp (pairUp (pairUp (pairUp ls)))))).headD (0, 0)

/-- ROW_SUM, with every infinity that its additions made (04 R123). -/
def rowSumOf (row : List Cnt) : Cnt := lanesSum ((List.range 64).map (laneSum cAdd row))

/-- ROW_SUMSQ, likewise. -/
def rowSumsqOf (row : List Cnt) : Cnt := lanesSum ((List.range 64).map (laneSum (fun acc a => cFma a (again a) acc) row))

/-- ROW_MAX. -/
def rowMaxOf (row : List Nat) : Nat :=
  match row with
  | [] => 0
  | a :: r => r.foldl (fMax fp32) (fMax fp32 a a)

/-- ROW_SOFTMAX: three passes. -/
def rowSoftmaxOf (row : List Nat) : List Cnt :=
  let m := fNeg fp32 (rowMaxOf row)
  let es := row.map fun a => cFn .exp (cAdd (k32 a) (k32 m))
  let k := k32 (VFn.recip.eval (rowSumOf (es.map again)).1)
  es.map fun e => cMul e k

/-- A list cut into rows of `n`. -/
def cutRows (n : Nat) (l : List Nat) : List (List Nat) :=
  (List.range (cdiv l.length n)).map fun i => (l.drop (n * i)).take n

/-- The results of a row operation. -/
def VecOp.rows (o : VecOp) (rs : List (List Nat)) : List Cnt :=
  match o with
  | .rowSum => rs.map fun r => rowSumOf (r.map k32)
  | .rowMax => rs.map fun r => (rowMaxOf r, 0)
  | .rowSumsq => rs.map fun r => rowSumsqOf (r.map k32)
  | .rowSoftmax => rs.flatMap rowSoftmaxOf
  | _ => []

/-! The command. -/

/-- The linear source at word `w`, of format `fmt`. -/
def vecSrc (n addr fmt count : Nat) (block : Nat) (ts : Bool) : Lin := ⟨lsAddr n addr, fmt, blockSize block, ts, count⟩

/-- What a VECTOR command asks: its faults at steps 1 and 2 of R84, its elements and results, its sources with their offsets in the
local store, its output offset, format and room, the offset of its drain record and its values. -/
structure VecJob where
  cls     : Option Status
  shapes  : Option Status
  count   : Nat
  results : Nat
  srcs    : List (Nat × Lin)
  out     : Nat
  fmt     : Nat
  room    : Nat
  recOff  : Nat
  vals    : State → List Cnt

/-- The checks of the class, with the changes of R93. Of a source that is not a block-scaled CONVERT one, R93 step 1 refuses SRC0_TSCALE
and Table 10 ignores it: the model ignores it (DESIGN CHOICE, log 58). -/
def VecOp.cls (o : VecOp) (d : Block64) : Option Status :=
  let f0 := dfld d 8 22 4
  let f1 := dfld d 9 22 4
  firstFault
    [(!fmtAssigned f0 || (1 < o.sources && !fmtAssigned f1) || !fmtAssigned (dfld d 10 22 4), .descriptorFault),
     (o.isRow && (dfld d 14 0 16 == 0 || dword d 11 % dfld d 14 0 16 != 0), .descriptorFault),
     ((fmtScaled f0 && o != .convert) || (1 < o.sources && fmtScaled f1), .descriptorFault),
     (o == .convert && fmtScaled f0 && ((fmtMx f0 && dfld d 8 26 2 != 1) || (dfld d 8 28 1 == 1 && !fmtDeckle f0)), .descriptorFault)]

/-- The job of a VECTOR command (03 R93). -/
def VecOp.job (o : VecOp) (s : State) (sid : Nat) (d : Block64) : VecJob :=
  let n := sid / 4
  let f0 := dfld d 8 22 4
  let f1 := dfld d 9 22 4
  let len := dfld d 14 0 16
  let scaled := o == .convert && fmtScaled f0
  let count := s.countOf sid d 0 (dword d 11)
  let a := vecSrc n (dfld d 8 0 22) f0 count (if scaled then dfld d 8 26 2 else 1) (scaled && dfld d 8 28 1 == 1)
  let b := vecSrc n (dfld d 9 0 22) f1 count 1 false
  let e := vecSrc n (dfld d 13 0 22) f0 count 1 false
  { cls := o.cls d,
    shapes := (s.shapeFault sid d).or (if o.isRow && count % len != 0 then some .descriptorFault else none),
    count := count,
    results := if o.reduces then count / len else count,
    srcs := (dfld d 8 0 22, a) :: ((if 1 < o.sources then [(dfld d 9 0 22, b)] else []) ++
      (if o.sources = 3 then [(dfld d 13 0 22, e)] else [])),
    out := dfld d 10 0 22, fmt := dfld d 10 22 4, room := dfld d 15 0 23, recOff := 64 * dfld d 14 16 16,
    vals := fun t => if o.isRow then o.rows (cutRows len ((List.range count).map (t.linF32 a)))
      else (List.range count).map fun i => o.element (t.linF32 a i) (t.linF32 b i) (t.linF32 e i) (dword d 12) (dword d 13) }

/-- The drain of a VECTOR command with its drain record. -/
def VecJob.drain (v : VecJob) (sid : Nat) (r : Block64) : DrainJob :=
  ⟨sid / 4, v.out, v.fmt, false, v.room, .linear v.results, r, false, true, true, v.count⟩

/-- Where its drain record lies. -/
def VecJob.recAddr (v : VecJob) (sid : Nat) : Nat := lsAddr (sid / 4) v.recOff

/-- The drain of a VECTOR command, from the record read. -/
def VecJob.drainOf (v : VecJob) (sid : Nat) (s : State) : DrainJob := v.drain sid (BitVec.ofNat 512 (s.readNat (v.recAddr sid) 64))

/-- What a VECTOR command writes. -/
def VecJob.output (v : VecJob) (j : DrainJob) (s : State) : DrainOut × List (Nat × List Byte) :=
  productOut j s ((v.vals s).zipIdx.map fun p => drainEl j s none 0 p.2 p.1)

/-- Its progress marks: one every 65,536 results (16 R451 Table 5). -/
def VecJob.marks (v : VecJob) : List Nat := (List.range (v.results / 65536)).map fun i => 65536 * (i + 1)

/-- The work of a VECTOR command that has passed its checks. -/
def vectorWork (sid : Nat) (c : Cmd) (v : VecJob) (j : DrainJob) : Prog := withS fun s =>
  let n := sid / 4
  let o := v.output j s
  seq (startCmd sid c)
    (match s.anyHurt ((v.srcs.map fun x => (x.2.base, x.2.extent)) ++ drainReads j 0) with
    | some st => endCmd sid c st
    | none =>
      if s.isArmed 0x03 n then
        seq (useArmed 0x03 n 0 true false fun _ => logDetect true 0x03 (n / 128) n 0 1 .unitFault) (endCmd sid c .unitFault)
      else seqs [timed (Reg.coreVecBusy n), timed (Reg.coreLsConflicts n), stagePeak j,
        drainEnd j sid c o.1 o.2 v.marks])

/-- A VECTOR command whose drain record is read: the record's faults, then its gate. -/
def vectorGated (sid : Nat) (c : Cmd) (v : VecJob) (j : DrainJob) : Prog := withS fun s =>
  match j.faults s 0 with
  | some st => endCmd sid c st
  | none => match s.gate j with
    | .busy => beginClear [j.replayExt s]
    | .fault st => endCmd sid c st
    | .skip_ => seq (incF (Reg.drnGateSkips (sid / 4))) (endCmd sid c .ok true)
    | .open_ => vectorWork sid c v j

/-- The extents a VECTOR command names in the local store. -/
def VecJob.exts (v : VecJob) (sid : Nat) : List (Nat × Nat) :=
  (v.srcs.map fun x => (x.1, x.2.extent)) ++ [(v.out, (v.drain sid 0).elemExtent), (v.recOff, 64)]

/-- A VECTOR command, its checks in the order of R84. -/
def vectorProg (v : VecJob) (sid : Nat) (c : Cmd) : Prog := withS fun s =>
  match v.cls.or v.shapes with
  | some st => endCmd sid c st
  | none =>
    if v.count = 0 then endCmd sid c .ok
    else if v.room < (v.drain sid 0).elemExtent then endCmd sid c .sizeFault
    else if (v.exts sid).any (fun x => !lsExtent x.1 x.2) then endCmd sid c .addressFault
    else match s.readHurt (v.recAddr sid) 64 with
      | some st => endCmd sid c st
      | none => vectorGated sid c v (v.drainOf sid s)

/-- The vector unit executes its commands one at a time in issue order (03 R68): none of the core's issued before this one is left. -/
def State.vectorTurn (s : State) (sid : Nat) (c : Cmd) : Bool :=
  (sidsOfCore (sid / 4)).all fun t => (s.strm t).issued.all fun d => !(dClass d.desc == 0x05 && decide (d.turn < c.turn))

/-- The row of an issued VECTOR command. -/
def onVector (sid acc op : Nat) (o : VecOp) : Prog := onIssued sid acc 0x05 op fun c => withS fun s =>
  onlyIf (s.vectorTurn sid c) (vectorProg (o.job s sid c.desc) sid c)

/-! The commands. -/

/-- VEC_ADD (03 R93). -/
def execVecAdd (sid acc : Nat) (s : State) : Out := .next (run (onVector sid acc 0x00 .add) s)

/-- VEC_SUB (03 R93). -/
def execVecSub (sid acc : Nat) (s : State) : Out := .next (run (onVector sid acc 0x01 .sub) s)

/-- VEC_MUL (03 R93). -/
def execVecMul (sid acc : Nat) (s : State) : Out := .next (run (onVector sid acc 0x02 .mul) s)

/-- VEC_FMA (03 R93). -/
def execVecFma (sid acc : Nat) (s : State) : Out := .next (run (onVector sid acc 0x03 .fma) s)

/-- VEC_MAX (03 R93). -/
def execVecMax (sid acc : Nat) (s : State) : Out := .next (run (onVector sid acc 0x04 .max) s)

/-- VEC_MIN (03 R93). -/
def execVecMin (sid acc : Nat) (s : State) : Out := .next (run (onVector sid acc 0x05 .min) s)

/-- VEC_SCALE (03 R93). -/
def execVecScale (sid acc : Nat) (s : State) : Out := .next (run (onVector sid acc 0x06 .scale) s)

/-- VEC_CONVERT (04 R104). -/
def execVecConvert (sid acc : Nat) (s : State) : Out := .next (run (onVector sid acc 0x07 .convert) s)

/-- VEC_EXP (03 R94). -/
def execVecExp (sid acc : Nat) (s : State) : Out := .next (run (onVector sid acc 0x10 (.fn .exp)) s)

/-- VEC_LOG (03 R94). -/
def execVecLog (sid acc : Nat) (s : State) : Out := .next (run (onVector sid acc 0x11 (.fn .log)) s)

/-- VEC_RECIP (03 R94). -/
def execVecRecip (sid acc : Nat) (s : State) : Out := .next (run (onVector sid acc 0x12 (.fn .recip)) s)

/-- VEC_RSQRT (03 R94). -/
def execVecRsqrt (sid acc : Nat) (s : State) : Out := .next (run (onVector sid acc 0x13 (.fn .rsqrt)) s)

/-- VEC_SQRT (03 R94). -/
def execVecSqrt (sid acc : Nat) (s : State) : Out := .next (run (onVector sid acc 0x14 (.fn .sqrt)) s)

/-- VEC_TANH (03 R94). -/
def execVecTanh (sid acc : Nat) (s : State) : Out := .next (run (onVector sid acc 0x15 (.fn .tanh)) s)

/-- VEC_SIGMOID (03 R94). -/
def execVecSigmoid (sid acc : Nat) (s : State) : Out := .next (run (onVector sid acc 0x16 (.fn .sigmoid)) s)

/-- VEC_ERF (03 R94). -/
def execVecErf (sid acc : Nat) (s : State) : Out := .next (run (onVector sid acc 0x17 (.fn .erf)) s)

/-- ROW_SUM (03 R95). -/
def execRowSum (sid acc : Nat) (s : State) : Out := .next (run (onVector sid acc 0x20 .rowSum) s)

/-- ROW_MAX (03 R95). -/
def execRowMax (sid acc : Nat) (s : State) : Out := .next (run (onVector sid acc 0x21 .rowMax) s)

/-- ROW_SUMSQ (03 R95). -/
def execRowSumsq (sid acc : Nat) (s : State) : Out := .next (run (onVector sid acc 0x22 .rowSumsq) s)

/-- ROW_SOFTMAX (03 R95). -/
def execRowSoftmax (sid acc : Nat) (s : State) : Out := .next (run (onVector sid acc 0x23 .rowSoftmax) s)

end Sys2Proof.Machine
end

