-- ==== Sys2Proof/Machine/Routes.lean ====
section
/-! DEFINITION. What the Curator computes on one member (chapter 06): the layer record, the placement table, scores and selection, the
route record, send lists, the counts of GRANT, layouts, copies and sums. -/

namespace Sys2Proof.Machine

/-! The layer record (06 R155). -/

/-- A layer record: its 128 bytes as a number. -/
abbrev Layer := Nat

/-- The layer record at an address. -/
def State.layer (s : State) (a : Nat) : Layer := leNat (bytesAt s.mem a 128)

/-- A field of word `w`. -/
def lfld (l : Layer) (w lo n : Nat) : Nat := l / 2 ^ (32 * w + lo) % 2 ^ n

/-- An address in words `w` and `w + 1`. -/
def laddr (l : Layer) (w : Nat) : Nat := lfld l w 0 44

namespace Layer

def logits (l : Layer) : Nat := laddr l 0
def logitFmt (l : Layer) : Nat := lfld l 1 12 4
def biasEn (l : Layer) : Bool := lfld l 3 12 1 == 1
def histEn (l : Layer) : Bool := lfld l 13 12 1 == 1
def experts (l : Layer) : Nat := lfld l 16 0 13
def k (l : Layer) : Nat := lfld l 16 13 4
def sigmoid (l : Layer) : Bool := lfld l 16 17 1 == 1
def renorm (l : Layer) : Bool := lfld l 16 18 1 == 1
def dropEn (l : Layer) : Bool := lfld l 16 19 1 == 1
def h (l : Layer) : Nat := lfld l 17 0 16
def tokFmt (l : Layer) : Nat := lfld l 17 16 4
def nominal (l : Layer) : Nat := lfld l 18 0 32
def capFactor (l : Layer) : Nat := lfld l 19 0 16
def waveLimit (l : Layer) : Nat := lfld l 19 16 7
def rank (l : Layer) : Nat := lfld l 20 0 8
def members (l : Layer) : Nat := lfld l 20 8 9
def group (l : Layer) : Nat := lfld l 20 17 6
def placeGen (l : Layer) : Nat := lfld l 21 0 32
def placeAddr (l : Layer) : Nat := laddr l 4
def routeAddr (l : Layer) : Nat := laddr l 6
def sendAddr (l : Layer) : Nat := laddr l 8
def recvAddr (l : Layer) : Nat := laddr l 10
def histAddr (l : Layer) : Nat := laddr l 12

/-- The capacity of a replica in one wave (06 R163). -/
def capacity (l : Layer) : Nat :=
  max 4 (roundUp (cdiv (l.capFactor * l.members * l.nominal * l.k) (256 * l.experts)) 4)

/-- Table 1 and the fields of 06 R162 step 3, apart from the group. -/
def bad (l : Layer) : Bool :=
  l.experts == 0 || decide (4096 < l.experts) || l.k == 0 || decide (8 < l.k) || decide (l.experts < l.k) || l.members == 0 ||
  decide (256 < l.members) || l.waveLimit == 0 || decide (64 < l.waveLimit) || l.h == 0 || (l.logitFmt != 0 && l.logitFmt != 0xF) ||
  decide (3 < l.tokFmt) || l.capFactor == 0

end Layer

/-! The placement table (06 R156, R157). -/

/-- A replica word in use. -/
structure Replica where
  expert : Nat
  index  : Nat
  member : Nat
  core   : Nat
  slot   : Nat
  deriving DecidableEq, Repr

/-- Replica word `r` of expert `e`. -/
def State.replicaWord (s : State) (l : Layer) (e r : Nat) : Nat := leNat (bytesAt s.mem (l.placeAddr + 64 + 64 * e + 4 * r) 4)

/-- Replicas of an expert: its valid words from word 0. -/
def State.replicas (s : State) (l : Layer) (e : Nat) : List Replica :=
  ((List.range 16).takeWhile fun r => bit (s.replicaWord l e r) 31).map fun r =>
    let w := s.replicaWord l e r
    ⟨e, r, bits w 0 8, bits w 8 8, bits w 16 12⟩

/-- Every replica of a layer, by expert and replica number. -/
def State.allReplicas (s : State) (l : Layer) : List Replica := (List.range l.experts).flatMap (s.replicas l)

/-- The first four conditions of 06 R157 and the generation. -/
def State.placeOk (s : State) (l : Layer) : Bool :=
  let hw := fun i => leNat (bytesAt s.mem (l.placeAddr + 4 * i) 4)
  let slots := hw 2 % 2 ^ 13
  hw 0 == l.placeGen && hw 1 % 2 ^ 13 == l.experts && decide (1 ≤ slots) && decide (slots ≤ 4096) &&
  (List.range l.experts).all fun e =>
    let rs := s.replicas l e
    !rs.isEmpty && ((List.range 16).drop rs.length).all (fun r => !bit (s.replicaWord l e r) 31) &&
    rs.all fun r => decide (r.member < l.members) && decide (r.slot < slots)

/-- Replicas placed on a member. -/
def State.placedOn (s : State) (l : Layer) (m : Nat) : List Replica := (s.allReplicas l).filter (·.member == m)

/-- The fifth condition of 06 R157 for the replicas of a member. -/
def distinctPlaces (rs : List Replica) : Bool :=
  ((rs.map fun r => (r.core, r.slot)).eraseDups).length == rs.length

/-! Scores and selection (06 R158–R161). -/

/-- The gate logits as a matrix. -/
def Layer.logitMat (l : Layer) (m : Nat) : Mat := ⟨l.logits, l.logitFmt, 16, false, false, m, l.experts⟩

/-- A token's logits, widened to FP32. -/
def State.logitRow (s : State) (l : Layer) (m t : Nat) : List Nat :=
  (List.range l.experts).map fun e => enc fp32 (s.matElem (l.logitMat m) t e).1

/-- A logit row that ends ROUTE: a NaN or +∞. -/
def badRow (row : List Nat) : Bool :=
  row.any fun x => match fp32.decode x with | .nan => true | .inf neg => !neg | _ => false

/-- Weight and score of each expert of a token. -/
def State.scores (s : State) (l : Layer) (row : List Nat) : List (Nat × Nat) :=
  let ws := if l.sigmoid then row.map VFn.sigmoid.eval else (rowSoftmaxOf row).map (·.1)
  let sc := if l.sigmoid then ws else row
  (ws.zip sc).zipIdx.map fun p =>
    (p.1.1, if l.biasEn then fAdd fp32 p.1.2 (leNat (bytesAt s.mem (laddr l 2 + 4 * p.2) 4)) else p.1.2)

/-- One expert offered to the kept list of at most `k`: it goes before the first kept score that it strictly exceeds. -/
def offer (k : Nat) (kept : List (Nat × Nat)) (e sc : Nat) : List (Nat × Nat) :=
  let before := kept.takeWhile fun x => !fLt fp32 x.2 sc
  if before.length < k then (before ++ (e, sc) :: kept.drop before.length).take k else kept

/-- The chosen experts by rank. -/
def choose (k : Nat) (scores : List Nat) : List Nat := ((scores.zipIdx).foldl (fun kept x => offer k kept x.2 x.1) []).map (·.1)

/-- Combine weights of the chosen experts. -/
def combineWeights (renorm : Bool) (ws : List Nat) : List Nat :=
  if renorm then
    let r := VFn.recip.eval (match ws with | [] => 0 | w :: t => t.foldl (fAdd fp32) w)
    ws.map fun w => fMul fp32 w r
  else ws

/-! The route record (06 R167, R168). -/

/-- A route slot. -/
structure Slot where
  expert  : Nat
  replica : Nat
  wave    : Nat
  dropped : Bool
  member  : Nat
  core    : Nat
  slot    : Nat
  row     : Nat
  weight  : Nat
  deriving DecidableEq, Repr

/-- The 16 bytes of a slot. -/
def Slot.bytes (x : Slot) : List Byte :=
  leBytes 4 (x.expert % 4096 + x.replica % 16 * 2 ^ 12 + x.wave % 64 * 2 ^ 16 + (if x.dropped then 2 ^ 22 else 0)) ++
  leBytes 4 (x.member % 256 + x.core % 256 * 2 ^ 8 + x.slot % 4096 * 2 ^ 16) ++ leBytes 4 (x.row % 2 ^ 24) ++ leBytes 4 x.weight

/-- A slot read back. -/
def Slot.ofNat (v : Nat) : Slot :=
  ⟨bits v 0 12, bits v 12 4, bits v 16 6, bit v 22, bits v 32 8, bits v 40 8, bits v 48 12, bits v 64 24, bits v 96 32⟩

/-- The address of slot `i` of token `t`. -/
def slotAddr (l : Layer) (t i : Nat) : Nat := l.routeAddr + 64 + 16 * (t * l.k + i)

/-- Slot `i` of token `t`. -/
def State.slotAt (s : State) (l : Layer) (t i : Nat) : Slot := Slot.ofNat (leNat (bytesAt s.mem (slotAddr l t i) 16))

/-- Tokens of the record, when its TAG is the one expected; otherwise the record is empty. -/
def State.recordTokens (s : State) (l : Layer) (tag : Nat) : Nat :=
  if leNat (bytesAt s.mem (l.routeAddr + 12) 1) = tag then leNat (bytesAt s.mem l.routeAddr 4) else 0

/-- Every slot of the record, in token and rank order: token, rank, slot. -/
def State.slots (s : State) (l : Layer) (m : Nat) : List (Nat × Nat × Slot) :=
  (List.range m).flatMap fun t => (List.range l.k).map fun i => (t, i, s.slotAt l t i)

/-- The K slots of token `t`, the routes of each expert so far being `counts` (06 R159, R161, R164); none when its row is bad. -/
def State.tokenSlots (s : State) (l : Layer) (m ρ : Nat) (counts : List Nat) (t : Nat) : Option (List Slot) :=
  let row := s.logitRow l m t
  if badRow row then none
  else
    let sc := s.scores l row
    let es := choose l.k (sc.map (·.2))
    let ws := combineWeights l.renorm (es.map fun e => (sc.getD e (0, 0)).1)
    some ((es.zip ws).map fun x =>
      let rs := s.replicas l x.1
      let ri := (counts.getD x.1 0 + ρ) % max 1 rs.length
      let p := rs.getD ri ⟨x.1, 0, 0, 0, 0⟩
      (⟨x.1, ri, 0, false, p.member, p.core, p.slot, 0, x.2⟩ : Slot))

/-- The routes of each expert after a token's slots. -/
def countRoutes (counts : List Nat) (slots : List Slot) : List Nat :=
  slots.foldl (fun c x => c.set x.expert (c.getD x.expert 0 + 1)) counts

/-- Send lists (06 R169): for each destination the tokens and their rank masks. -/
def sendLists (members : Nat) (ts : List (Nat × List Slot)) : List (List (Nat × Nat)) :=
  (List.range members).map fun d => ts.filterMap fun t =>
    let mask := (t.2.zipIdx.filter fun x => x.1.member == d).foldl (fun m x => m + 2 ^ x.2) 0
    if mask = 0 then none else some (t.1, mask)

/-- The bytes of the send lists: 256 directory double words, then the entries. -/
def sendBytes (lists : List (List (Nat × Nat))) : List Byte :=
  let dir := (List.range 256).map fun d =>
    let first := ((lists.take d).map List.length).foldl (· + ·) 0
    first + 2 ^ 32 * (lists.getD d []).length
  dir.flatMap (leBytes 8) ++ lists.flatten.flatMap fun e => leBytes 8 (e.1 + e.2 * 2 ^ 18)

/-- The header of a record (06 R167 Table 4). -/
def headerBytes (m k waves : Nat) (granted : Bool) (gen tag dropped : Nat) : List Byte :=
  leBytes 4 m ++ leBytes 4 (k + waves * 2 ^ 8 + (if granted then 2 ^ 16 else 0)) ++ leBytes 4 gen ++ leBytes 4 tag ++ leBytes 4 dropped ++
  leBytes 44 0

/-! GRANT (06 R165, R166, R171–R173). -/

/-- Routes of this member to each replica placed on `m`. -/
def State.routeCounts (s : State) (l : Layer) (tokens m : Nat) : List Nat :=
  let ss := s.slots l tokens
  (s.placedOn l m).map fun r => (ss.filter fun x => x.2.2.expert == r.expert && x.2.2.replica == r.index).length

/-- The counts message to a member. -/
def State.countsMsg (s : State) (l : Layer) (tokens m : Nat) : List Nat :=
  [l.placeGen, l.capacity, l.k] ++ s.routeCounts l tokens m

/-- A receive table entry: word `w`. -/
def State.recvWord (s : State) (l : Layer) (n w : Nat) : Nat := leNat (bytesAt s.mem (l.recvAddr + 64 * n + 4 * w) 4)

/-- An address of a receive table entry. -/
def State.recvAddrOf (s : State) (l : Layer) (n w : Nat) : Nat := s.recvWord l n w + 2 ^ 32 * (s.recvWord l n (w + 1) % 4096)

/-- ROW_CAP of a core. -/
def State.rowCap (s : State) (l : Layer) (n : Nat) : Nat := s.recvWord l n 12 % 65536

/-- The wave part of a region of a core. -/
def State.region (s : State) (l : Layer) (n w wave : Nat) : Nat := s.recvAddrOf l n w + 64 * s.recvWord l n 13 * wave

/-- A token region as a matrix. -/
def State.regionMat (s : State) (l : Layer) (n w wave fmt : Nat) : Mat :=
  ⟨s.region l n w wave, fmt, 16, false, false, roundUp (s.rowCap l n) 16, l.h⟩

/-- The shape table of a core and wave. -/
def State.shapeTable (s : State) (l : Layer) (n wave : Nat) : Nat := s.recvAddrOf l n 10 + 32768 * wave

/-- A region of a core lies in HBM, a backed scratchpad half or the core's own local store (06 R172). -/
def State.coreRegionOk (s : State) (n a len : Nat) : Bool :=
  match s.extent a len with
  | some .hbm => true
  | some (.scratch _) => true
  | some .ls => coreOfAddr a == some n && (len == 0 || coreOfAddr (a + len - 1) == some n)
  | _ => false

/-- Cores a member's replicas name, ascending. -/
def coresOf (rs : List Replica) : List Nat := (List.range 256).filter fun n => rs.any (·.core == n)

/-- Slots of a core's layout: 0 to the highest placed. -/
def slotsOf (rs : List Replica) (n : Nat) : Nat := ((rs.filter (·.core == n)).map fun r => r.slot + 1).foldl max 0

/-- The receive table's entry of a core may be read; where it lies is not restricted as its regions are. -/
def State.entryOk (s : State) (who : Requester) (l : Layer) (n : Nat) : Bool := s.reach who .read (l.recvAddr + 64 * n) 64

/-- The placement table may be read (06 R162 step 6). -/
def State.placeReach (s : State) (who : Requester) (l : Layer) : Bool := s.reach who .read l.placeAddr (64 + 64 * l.experts)

/-- The receive table passes the checks GRANT makes (06 R172); a shape word is 8-byte aligned (02 R54). -/
def State.recvOk (s : State) (who : Requester) (l : Layer) (rs : List Replica) : Bool :=
  (coresOf rs).all fun n =>
    s.entryOk who l n &&
    (List.range l.waveLimit).all fun w =>
      let tok := (s.regionMat l n 0 w l.tokFmt).tileBytes
      s.coreRegionOk n (s.region l n 0 w) tok && s.coreRegionOk n (s.region l n 4 w) tok &&
      s.coreRegionOk n (s.region l n 8 w) (8 * s.rowCap l n) && s.shapeTable l n w % 8 == 0 &&
      s.coreRegionOk n (s.shapeTable l n w) (8 * slotsOf rs n)

/-- Routes that reach each replica of this member: their sum over the sources. -/
def replicaTotals (rs : List Replica) (counts : List (List Nat)) : List (Replica × Nat) :=
  rs.zipIdx.map fun r => (r.1, (counts.map fun c => c.getD (3 + r.2) 0).foldl (· + ·) 0)

/-- Rows of a replica in a wave. -/
def waveRows (c n w : Nat) : Nat := min c (n - w * c)

/-- Counts of the slots of a core in a wave. -/
def slotCounts (tot : List (Replica × Nat)) (c n slots w : Nat) : List Nat :=
  (List.range slots).map fun sl => ((tot.find? fun x => x.1.core == n && x.1.slot == sl).map fun x => waveRows c x.2 w).getD 0

/-- This member's refusal of a GRANT (06 R171 step 2). -/
def State.grantRefusal (s : State) (who : Requester) (l : Layer) (counts : List (List Nat)) : Option Status :=
  let rs := s.placedOn l l.rank
  let c := l.capacity
  let tot := replicaTotals rs counts
  firstFault
    [(!distinctPlaces rs, .placementFault),
     (counts.any fun x => x.take 3 != [l.placeGen, c, l.k], .placementFault),
     (!s.recvOk who l rs, .addressFault),
     ((coresOf rs).any fun n => (List.range l.waveLimit).any fun w =>
        decide (s.rowCap l n < (raggedBases 0 (slotCounts tot c n (slotsOf rs n) w)).2), .sizeFault),
     (!l.dropEn && tot.any fun x => decide (l.waveLimit * c < x.2), .sizeFault)]

/-- The first route number of source `r` for each replica of this member. -/
def firstNumbers (rs : List Replica) (counts : List (List Nat)) (r : Nat) : List Nat :=
  rs.zipIdx.map fun x => ((counts.take r).map fun c => c.getD (3 + x.2) 0).foldl (· + ·) 0

/-- The slots a source writes at the end of GRANT: `firsts` are its first route numbers for every replica of the layer. WAVE and ROW
of a dropped slot are free (log 1). -/
def State.grantSlots (s : State) (l : Layer) (tokens free : Nat) (firsts : List Nat) : List (Nat × Nat × Slot) :=
  let reps := s.allReplicas l
  let c := l.capacity
  ((s.slots l tokens).foldl (fun acc x =>
    let ri := (reps.findIdx? fun r => r.expert == x.2.2.expert && r.index == x.2.2.replica).getD 0
    let n := firsts.getD ri 0 + acc.1.getD ri 0
    let drop := decide (l.waveLimit * c ≤ n)
    let y := if drop then { x.2.2 with wave := Config.freeAt free (2 * acc.2.length) % 64, row := Config.freeAt free (2 * acc.2.length + 1) % 2 ^ 24,
                                       dropped := true, weight := 0 }
      else { x.2.2 with wave := n / c, row := n % c, dropped := false }
    (acc.1.set ri (acc.1.getD ri 0 + 1), acc.2 ++ [(x.1, x.2.1, y)]))
    (List.replicate reps.length 0, [])).2

/-! Exchange (06 R174–R180). -/

/-- The codes of a row packed. -/
def rowPacked (fmt : Nat) (codes : List Nat) : List Byte := packCodes (fmtBits fmt) codes

/-- The codes of row `r` of a matrix. -/
def State.matRow (s : State) (m : Mat) (r : Nat) : List Nat :=
  (List.range m.cols).map fun c => s.bitsAt m.base (m.index r c * fmtBits m.fmt) (fmtBits m.fmt)

/-- A row as codes. -/
def rowCodes (fmt h : Nat) (bs : List Byte) : List Nat := (List.range h).map fun i => leNat bs / 2 ^ (i * fmtBits fmt) % 2 ^ fmtBits fmt

/-- The pieces that write a row of codes into a matrix, tile by tile; only live columns are written. -/
def rowPieces (m : Mat) (r : Nat) (codes : List Nat) : List (Nat × List Byte) :=
  (List.range (cdiv m.cols 16)).map fun t =>
    (m.base + m.index r (16 * t) * fmtBits m.fmt / 8, packCodes (fmtBits m.fmt) ((codes.drop (16 * t)).take 16))

/-- First rows of the slots of a core in a wave, from its shape table, and its live rows. -/
def State.layoutOf (s : State) (l : Layer) (n slots wave : Nat) : List Nat × List Nat :=
  let counts := (List.range slots).map fun sl => leNat (bytesAt s.mem (s.shapeTable l n wave + 8 * sl) 4)
  ((raggedBases 0 counts).1, counts)

/-- The directory double word of destination `d`: FIRST and COUNT (06 R169 Table 6). -/
def State.sendDir (s : State) (l : Layer) (d : Nat) : Nat × Nat :=
  let w := leNat (bytesAt s.mem (l.sendAddr + 8 * d) 8)
  (w % 2 ^ 32, w / 2 ^ 32)

/-- Bytes of the send lists as the directory tells them. -/
def State.sendExtent (s : State) (l : Layer) : Nat :=
  2048 + 8 * ((List.range l.members).map fun d => (s.sendDir l d).1 + (s.sendDir l d).2).foldl max 0

/-- What a send list owes a destination in a wave: token and copy entries (06 R174). -/
def State.owedTo (s : State) (l : Layer) (d wave : Nat) : List (Nat × List CopyEntry) :=
  let dir := s.sendDir l d
  (List.range dir.2).filterMap fun i =>
    let e := leNat (bytesAt s.mem (l.sendAddr + 2048 + 8 * (dir.1 + i)) 8)
    let t := bits e 0 18
    let copies := ((List.range l.k).filter fun r => bit e (18 + r)).filterMap fun r =>
      let x := s.slotAt l t r
      if x.wave = wave && !x.dropped then some (⟨x.core, x.slot, r, x.row, BitVec.ofNat 32 x.weight⟩ : CopyEntry) else none
    if copies.isEmpty then none else some (t, copies)

/-! The token header on the fabric (06 R174 Table 8). -/

/-- The 12 bytes of a copy entry. -/
def copyBytes (x : CopyEntry) : List Byte :=
  leBytes 4 (x.core % 2 ^ 8 + x.slot % 2 ^ 12 * 2 ^ 8 + x.rank % 2 ^ 3 * 2 ^ 20) ++ leBytes 4 (x.row % 2 ^ 24) ++ leBytes 4 x.weight.toNat

/-- A token header: its two words, its copy entries, and zeros up to a multiple of 16 bytes. -/
def tokenHeader (token : Nat) (copies : List CopyEntry) : List Byte :=
  let bs := leBytes 4 (token % 2 ^ 18 + copies.length % 2 ^ 4 * 2 ^ 18) ++ leBytes 4 0 ++ copies.flatMap copyBytes
  bs ++ List.replicate (roundUp bs.length 16 - bs.length) 0

/-- SRC_TOKEN of a header. -/
def headerToken (h : List Byte) : Nat := bits (leNat (h.take 4)) 0 18

/-- The copy entries of a header. -/
def headerCopies (h : List Byte) : List CopyEntry :=
  (List.range (bits (leNat (h.take 4)) 18 4)).map fun i =>
    let w := fun j => leNat ((h.drop (8 + 12 * i + 4 * j)).take 4)
    ⟨bits (w 0) 0 8, bits (w 0) 8 12, bits (w 0) 20 3, bits (w 1) 0 24, BitVec.ofNat 32 (w 2)⟩

/-- The arrival record entry (06 R175 Table 9). -/
def arrivalBytes (member token rank : Nat) : List Byte :=
  leBytes 8 (member % 256 + token % 2 ^ 18 * 2 ^ 8 + rank % 8 * 2 ^ 26 + 2 ^ 31)

/-- Rows that the shape tables of this member expect in a wave. -/
def State.expectedRows (s : State) (l : Layer) (wave : Nat) : Nat :=
  let rs := s.placedOn l l.rank
  ((coresOf rs).map fun n => ((s.layoutOf l n (slotsOf rs n) wave).2).foldl (· + ·) 0).foldl (· + ·) 0

/-- The fields of an arrival record entry: SRC_MEMBER, SRC_TOKEN, RANK. -/
def arrivalFields (v : Nat) : Nat × Nat × Nat := (bits v 0 8, bits v 8 18, bits v 26 3)

/-- What RETURN sends in a wave, in the order of core, slot and row: for each live row its source member, and the entry of its arrival
record followed by the row. The spec gives a returned row no header on the fabric; the model sends the 8 bytes of the entry, whose SRC_TOKEN
and RANK say where the row goes (log 30). -/
def State.returnRows (s : State) (l : Layer) (wave fmt : Nat) (reverse : Bool) : List (Nat × List Byte) :=
  let rs := s.placedOn l l.rank
  (coresOf rs).flatMap fun n =>
    let lay := s.layoutOf l n (slotsOf rs n) wave
    let m := s.regionMat l n (if reverse then 6 else 2) wave fmt
    (lay.1.zip lay.2).flatMap fun x => (List.range x.2).map fun i =>
      let r := x.1 + i
      let e := bytesAt s.mem (s.region l n 8 wave + 8 * r) 8
      ((arrivalFields (leNat e)).1, e ++ rowPacked fmt (s.matRow m r))

/-- The rows member `q` returns to this member in a wave: one for each slot of its record with that member and wave that is not dropped. -/
def State.owedRows (s : State) (l : Layer) (tokens wave q : Nat) : Nat :=
  ((s.slots l tokens).filter fun x => x.2.2.member == q && x.2.2.wave == wave && !x.2.2.dropped).length

/-- The per-route buffer (06 R177). -/
def routeBuffer (l : Layer) (base fmt tokens : Nat) : Mat := ⟨base, fmt, 16, false, false, tokens * l.k, l.h⟩

/-- One element of SUM (06 R178). -/
def State.sumElem (s : State) (l : Layer) (src : Mat) (weighted : Bool) (t c : Nat) : Nat :=
  (List.range l.k).foldl (fun a i =>
    let x := s.slotAt l t i
    if x.dropped then a
    else
      let r := enc fp32 (s.matElem src (t * l.k + i) c).1
      if weighted then fFma fp32 x.weight r a else fAdd fp32 a r) 0

end Sys2Proof.Machine
end

