-- ==== Sys2Proof/Machine/Stages.lean ====
section
/-! DEFINITION. Groups (09 R260–R266) and the stages that run over them (09 R267–R284, 06 R171–R181): how a stage begins, its
admission, GO and FAIL, its payload in chunks, its completion, and the commit. A stage advances by itself as soon as what it waits
for is there: every row about a stage ends by advancing it. -/

namespace Sys2Proof.Machine

/-! Check values (09 R277). -/

/-- One byte into the CRC-64/ECMA-182. -/
def crc64Byte (c : BitVec 64) (b : Byte) : BitVec 64 :=
  (List.range 8).foldl (fun c _ => if c.msb then (c <<< 1) ^^^ 0x42F0E1EBA9EA3693#64 else c <<< 1) (c ^^^ (b.setWidth 64 <<< 56))

/-- CRC-64/ECMA-182: initial value 0, no reflection, no final XOR. -/
def crc64 (bs : List Byte) : BitVec 64 := bs.foldl crc64Byte 0

/-! Groups (09 R260–R262). -/

/-- The axes of an ORDER code, fastest first (09 Table 2); codes 6 and 7 are unassigned. -/
def orderAxes : Nat → List Nat
  | 0 => [0, 1, 2] | 1 => [0, 2, 1] | 2 => [1, 0, 2] | 3 => [1, 2, 0] | 4 => [2, 0, 1] | 5 => [2, 1, 0] | _ => []

/-- Box origin, extent and step of a group along each axis. -/
def State.boxAxis (s : State) (g axis : Nat) : Nat × Nat × Nat :=
  if axis = 0 then (s.fld (Reg.grpOriginX g), s.fld (Reg.grpExtX g), s.fld (Reg.grpStrideX g))
  else if axis = 1 then (s.fld (Reg.grpOriginY g), s.fld (Reg.grpExtY g), s.fld (Reg.grpStrideY g))
  else (s.fld (Reg.grpOriginZ g), s.fld (Reg.grpExtZ g), s.fld (Reg.grpStrideZ g))

/-- The system extent along an axis. -/
def State.extAxis (s : State) (axis : Nat) : Nat :=
  if axis = 0 then s.ext3.1 else if axis = 1 then s.ext3.2.1 else s.ext3.2.2

/-- The places of one axis of a group's box, each as its part of a global index. -/
def State.boxPlaces (s : State) (g axis : Nat) : List Nat :=
  let b := s.boxAxis g axis
  (List.range b.2.1).map fun i => 16 ^ axis * ((b.1 + i * b.2.2) % s.extAxis axis)

/-- The extra members of a group. -/
def State.extraMembers (s : State) (g : Nat) : List Nat :=
  [s.fld (Reg.grpExtra0 g), s.fld (Reg.grpExtra1 g), s.fld (Reg.grpExtra2 g), s.fld (Reg.grpExtra3 g)].take (s.fld (Reg.grpExtra g))

/-- The members of group `g` by rank, as global indices (09 R261). -/
def State.members (s : State) (g : Nat) : List Nat :=
  match orderAxes (s.fld (Reg.grpOrder g)) with
  | [x, y, z] => ((s.boxPlaces g z).flatMap fun c => (s.boxPlaces g y).flatMap fun b => (s.boxPlaces g x).map fun a => a + b + c) ++
      s.extraMembers g
  | _ => []

/-- The ports that carry the traffic of group `g`: for each other member the ACTIVE ports of the first direction towards it, or of the first
direction of its fallback list that has one (10 R298, R299). -/
def State.groupPorts (s : State) (g : Nat) : List Nat :=
  (((s.members g).filter (· != s.me)).flatMap fun m =>
    match s.firstDir m false with
    | none => []
    | some d => if (s.activePorts d).isEmpty then (((s.fallback m).find? fun x => !(s.activePorts x).isEmpty).map s.activePorts).getD []
        else s.activePorts d).eraseDups

/-- Credits of class COL that port `p` was granted and no live group holds. -/
def State.colCredits (s : State) (p : Nat) : Nat :=
  let all := (nget (s.port p).granted 6).getD 0 + (nget (s.port p).granted 7).getD 0
  all - ((s.fab.groups.filter fun e => e.2.1.contains p).map (·.2.2)).foldl (· + ·) 0

/-- The credits a group of `cells` cells takes on each of its ports (09 R266): the spec says how many are needed only as those "needed to
keep those cells full"; the model divides the cells among the ports (log 67). -/
def portShare (cells : Nat) (ports : List Nat) : Nat := cdiv cells (max 1 ports.length)

/-- The status a creation of group `g` ends with (09 R262). -/
def State.groupStatus (s : State) (g cells : Nat) : Option Status :=
  let ms := s.members g
  let ax := [0, 1, 2]
  firstFault
    [((ax.any fun a => let b := s.boxAxis g a; b.2.1 == 0 || decide (16 < b.2.1) || b.2.2 == 0) ||
        (orderAxes (s.fld (Reg.grpOrder g))).isEmpty || decide (4 < s.fld (Reg.grpExtra g)) || ms.eraseDups.length != ms.length ||
        !ms.contains s.me, .descriptorFault),
     (ms.any fun m => let c := coords m
        decide (s.ext3.1 ≤ c.1) || decide (s.ext3.2.1 ≤ c.2.1) || decide (s.ext3.2.2 ≤ c.2.2) || !s.reachable m, .addressFault),
     (decide (97 * s.fld (Reg.vatCells 3) / 100 < s.fld (Reg.vatUsed 3) + cells) ||
        (s.groupPorts g).any fun p => decide (s.colCredits p < portShare cells (s.groupPorts g)), .sizeFault)]

/-- COL_GRP_CELLS in effect. -/
def State.groupCells (s : State) (g : Nat) : Nat := min 0x8000 (max (272 + 4 * (s.members g).length) (s.fld (Reg.colGrpCells g)))

/-- The group signature: the low half of the CRC-64 of bytes 0x08–0x17 of the entry. -/
def State.groupSignature (s : State) (g : Nat) : Nat :=
  let base := (Reg.colGrpEnable g).off
  (crc64 ([8, 12, 16, 20].flatMap fun o => leBytes 4 (s.word (base + o)).toNat)).toNat % 2 ^ 32

/-- A write of 1 to COL_GRP_ENABLE. A new group starts with COL_GRP_NEXT_SEQ at 0 (11 R343). -/
def groupCreateProg (g : Nat) : Prog := withS fun s =>
  let st := s.fld (Reg.colGrpState g)
  if 64 ≤ g ∨ (st ≠ 0 ∧ st ≠ 3) then skip
  else
    let cells := s.groupCells g
    match s.groupStatus g cells with
    | some x => seqs [setF (Reg.colGrpState g) 3, setF (Reg.colGrpStatus g) (statusCode x), setF (Reg.colGrpEnable g) 0,
        onlyIf (x == .sizeFault) (incF (Reg.vatRefused 3))]
    | none => seqs [setF (Reg.colGrpState g) 2, setF (Reg.colGrpStatus g) 0, setF (Reg.colGrpEnable g) 1,
        setF (Reg.colGrpMembers g) (s.members g).length, setF (Reg.colGrpMyRank g) ((s.members g).findIdx (· == s.me)),
        setF (Reg.colGrpNextSeq g) 0, setF (Reg.colGrpCells g) cells, setF (Reg.colGrpSignature g) (s.groupSignature g), takeCells 3 cells,
        emit [.fab { s.fab with groups := nset s.fab.groups g (s.groupPorts g, portShare cells (s.groupPorts g)) }]]

/-- A write of 0 to COL_GRP_ENABLE: ignored with a stage in flight. -/
def groupReleaseProg (g : Nat) : Prog := withS fun s =>
  if 64 ≤ g ∨ s.fld (Reg.colGrpState g) ≠ 2 ∨ 0 < s.fld (Reg.colGrpInflight g) then skip
  else seqs [setF (Reg.colGrpState g) 0, setF (Reg.colGrpEnable g) 0, freeCells 3 (s.fld (Reg.colGrpCells g)),
    emit [.fab { s.fab with groups := ndel s.fab.groups g }]]

/-- COL_GRP_NEXT_SEQ, written only while no stage is in flight (09 R264). -/
def nextSeqProg (g v : Nat) : Prog := withS fun s =>
  onlyIf (decide (g < 64) && s.fld (Reg.colGrpInflight g) == 0) (setF (Reg.colGrpNextSeq g) (v % 2 ^ 32))

/-- COL_STEP_OK written by firmware clears COL_VETO (09 R282) but for bit 0, the value written. Bit 4 is no stored reason: a read shows
whether an UPDATE is open or halted then (09 Table 6, `State.shownWord`). -/
def stepOkProg (v : Nat) : Prog :=
  seq (setF Reg.colStepOk (v % 2)) (setF Reg.colVeto (if v % 2 = 1 then 0 else 1))

/-! Stage records. -/

/-- The key of a stage. -/
def stageKey (g sn : Nat) : Nat := g * 2 ^ 32 + sn

/-- What this member holds of stage (g, seq). -/
def State.stage (s : State) (g sn : Nat) : Stage := (nget s.stages (stageKey g sn)).getD Stage.empty

/-- A stage record is changed. -/
def updStage (g sn : Nat) (f : Stage → Stage) : Prog := withS fun s => emit [.stage (stageKey g sn) (f (s.stage g sn))]

/-- A stage this member runs: its numbers, stream and command, its record, the members of its group and this member's rank. -/
structure Ctx where
  g   : Nat
  sn  : Nat
  sid : Nat
  c   : Cmd
  st  : Stage
  ms  : List Nat
  me  : Nat

/-- Members of the stage's group. -/
def Ctx.n (x : Ctx) : Nat := x.ms.length

/-- The stage (g, seq) that a command issued here runs, until it ends. -/
def State.ctx (s : State) (g sn : Nat) : Option Ctx :=
  let st := s.stage g sn
  match st.cmd, st.result with
  | some (sid, acc), none =>
    ((s.strm sid).issued.find? (·.acc == acc)).map fun c => ⟨g, sn, sid, c, st, s.members g, s.fld (Reg.colGrpMyRank g)⟩
  | _, _ => none

/-- A program about a running stage. -/
def onStage (g sn : Nat) (k : Ctx → Prog) : Prog := withS fun s => given (s.ctx g sn) k

/-- A message to the member of a rank. -/
def tell (x : Ctx) (r : Nat) (m : StageMsg) : Prog := emit [.send (.stage x.g x.sn r m)]

/-- A message to every other member. -/
def tellAll (x : Ctx) (m : StageMsg) : Prog := forEach ((List.range x.n).filter (· != x.me)) fun r => tell x r m

namespace Ctx

/-- The stage is a Curator's. -/
def isCur (x : Ctx) : Bool := dClass x.c.desc == 0x10
/-- Opcode. -/
def op (x : Ctx) : Nat := dOp x.c.desc
/-- A collective of opcode `o`. -/
def isCol (x : Ctx) (o : Nat) : Bool := !x.isCur && x.op == o
/-- A Curator stage of opcode `o`. -/
def isStage (x : Ctx) (o : Nat) : Bool := x.isCur && x.op == o
/-- COMMIT. -/
def isCommit (x : Ctx) : Bool := x.isCol 6
/-- Members first tell each other counts. -/
def counted (x : Ctx) : Bool := x.isCol 3 || x.isStage 1
def dtype (x : Ctx) : Nat := dfld x.c.desc 8 6 4
def rop (x : Ctx) : Nat := dfld x.c.desc 8 10 3
def root (x : Ctx) : Nat := dfld x.c.desc 8 13 13
def src (x : Ctx) : Nat := daddr x.c.desc 10 11 12
def anchor (x : Ctx) : Nat := dfld x.c.desc 11 16 16
def dst (x : Ctx) : Nat := daddr x.c.desc 12 13 12
def count (x : Ctx) : Nat := x.st.count
/-- RR_TAG, WAVE, REVERSE and FMT of a Curator stage (06 Table 10). -/
def rrTag (x : Ctx) : Nat := dfld x.c.desc 11 0 8
def wave (x : Ctx) : Nat := dfld x.c.desc 11 8 6
def reverse (x : Ctx) : Bool := dfld x.c.desc 11 16 1 == 1
def fmt (x : Ctx) : Nat := dfld x.c.desc 11 20 4
def layer (x : Ctx) : Layer := x.st.layer
def mat (x : Ctx) : Nat := daddr x.c.desc 12 13 12
/-- Who reads and writes for the stage. -/
def who (x : Ctx) : Requester := requesterOf x.sid
/-- A member's place in the distribution tree of a BROADCAST: its rank counted from the root. -/
def place (x : Ctx) (r : Nat) : Nat := (r + x.n - x.root) % x.n
/-- The member that sends rank `r` its chunks of a BROADCAST (09 R278). -/
def parent (x : Ctx) (r : Nat) : Nat := ((x.place r - 1) / max 1 (Config.treeArity x.n x.root) + x.root) % x.n
/-- The members to which this member forwards the chunks of a BROADCAST. -/
def children (x : Ctx) : List Nat := (List.range x.n).filter fun r => r != x.root && x.parent r == x.me

end Ctx

/-! Types, shards and extents (09 R268, R274). -/

/-- Bytes of an element in memory. -/
def dtBytes (dt : Nat) : Nat :=
  if dt = 1 then 2 else if dt = 2 then 16 else if dt = 5 ∨ dt = 6 then 8 else if dt = 7 then 1 else 4

/-- The reductions of Table 5: whether element type `dt` allows `rop`. -/
def dtAllows (dt rop : Nat) : Bool :=
  if dt = 0 then rop ≤ 2 else if dt ≤ 2 then rop == 0 else if dt ≤ 6 then rop ≤ 5 else false

/-- The Vault operation of a reduction that is not an exact sum (09 Table 5, 07 Table 7). -/
def reduceOp (dt rop : Nat) : Nat :=
  let sgn := dt == 4 || dt == 6
  if dt = 0 then (if rop = 1 then 0x8 else 0x9)
  else if rop = 0 then 0x0 else if rop = 1 then (if sgn then 0x3 else 0x1) else if rop = 2 then (if sgn then 0x4 else 0x2)
  else if rop = 3 then 0x5 else if rop = 4 then 0x6 else 0x7

/-- Elements of a shard. -/
def shardSize (count p : Nat) : Nat := roundUp (cdiv count p) 256

/-- Elements shard `q` holds. -/
def shardLen (count p q : Nat) : Nat := min (shardSize count p) (count - q * shardSize count p)

namespace Ctx

/-- The stage reduces. -/
def reduces (x : Ctx) : Bool := x.isCol 0 || x.isCol 1
/-- The stage sums into exact-sum blocks. -/
def exact (x : Ctx) : Bool := x.reduces && x.rop == 0 && decide (x.dtype ≤ 2)
/-- Elements of shard `q`. -/
def len (x : Ctx) (q : Nat) : Nat := shardLen x.count x.n q
/-- First element of shard `q`. -/
def first (x : Ctx) (q : Nat) : Nat := q * shardSize x.count x.n
/-- Bytes of an element. -/
def eb (x : Ctx) : Nat := dtBytes x.dtype
/-- Bytes of an element as a contribution: an EXACT slot travels as its conversion (09 R275). -/
def cb (x : Ctx) : Nat := if x.dtype = 2 then 4 else x.eb
/-- Where this member reduces its shard (09 R274). -/
def target (x : Ctx) : Nat :=
  if x.isCol 1 then x.dst
  else if x.exact && x.dtype != 2 then x.dst + roundUp (x.count * x.eb) 512
  else x.dst + x.first x.me * x.eb
/-- Elements received from rank `q` under ALL_TO_ALL_V. -/
def runLen (x : Ctx) (q : Nat) : Nat := ((nget x.st.counts q).getD []).headD 0
/-- Bytes of the destination (09 R274). -/
def dstBytes (x : Ctx) : Nat :=
  let blocks := 512 * cdiv (x.len x.me) 32
  if x.isCol 0 then
    (if x.exact && x.dtype == 2 then 16 * x.count else if x.exact then roundUp (x.count * x.eb) 512 + blocks else x.count * x.eb)
  else if x.isCol 1 then (if x.exact then blocks else x.len x.me * x.eb)
  else if x.isCol 2 then x.n * x.count * x.eb
  else if x.isCol 3 then ((List.range x.n).map x.runLen).foldl (· + ·) 0 * x.eb
  else if x.isCol 4 then x.count * x.eb
  else 0
/-- Bytes of the source. -/
def srcBytes (x : Ctx) : Nat :=
  if x.isCol 3 then x.st.sends.foldl (· + ·) 0 * x.eb else if x.op ≤ 4 then x.count * x.eb else 0
/-- The member has a source. -/
def hasSrc (x : Ctx) : Bool := !x.isCol 4 || x.me == x.root

end Ctx

/-! Refusals of a collective (09 R269 steps 1 and 3–5). -/

/-- Step 1: the class fields, judged only for the opcodes that use them. -/
def State.colFieldsBad (s : State) (d : Block64) : Bool :=
  let op := dOp d
  let dt := dfld d 8 6 4
  let rop := dfld d 8 10 3
  let red := op == 0 || op == 1
  (decide (op < 5) && (decide (7 < dt) || (dt == 2 && (!red || rop != 0 || dword d 14 % 32 != 0)))) ||
  (red && (decide (5 < rop) || !dtAllows dt rop)) ||
  (op == 4 && decide ((s.members (dfld d 8 0 6)).length ≤ dfld d 8 13 13)) ||
  (op == 3 && !dShapeEn d)

/-- Word `r` of an ALL_TO_ALL_V send table (09 R279). -/
def State.sendCount (s : State) (who : Requester) (d : Block64) (r : Nat) : Nat × Option Status :=
  s.shapeCount who (dShapeAddr d + 8 * r) (dShapeGen d)

/-- An extent of a collective may lie in HBM, in one backed scratchpad half, or, where `ls` says so, in one local store. -/
def State.stagePlace (s : State) (who : Requester) (k : AccKind) (ls : Bool) (a len : Nat) : Bool :=
  s.reach who k a len &&
  match s.extent a len with
  | some .hbm => true
  | some (.scratch _) => true
  | some .ls => ls && (len == 0 || coreOfAddr a == coreOfAddr (a + len - 1))
  | _ => false

/-- Steps 3–5: what this member refuses at admission. -/
def State.colRefusal (s : State) (x : Ctx) : Option Status :=
  let d := x.c.desc
  let empty := x.srcBytes == 0 && x.dstBytes == 0
  let out := fun (a len : Nat) => match coreOfAddr a with | some n => len != 0 && s.outOfService n | none => false
  match x.st.shape with
  | some st => some st
  | none =>
    if x.exact && x.dtype == 2 && x.count % 32 != 0 then some .descriptorFault
    else if empty then none
    else firstFault
      [(decide (64 * dword d 15 < x.dstBytes), .sizeFault),
       (x.hasSrc && !(if x.exact && x.dtype == 2 then x.src % 512 == 0 && s.inScratch x.src x.srcBytes
          else s.stagePlace x.who .read true x.src x.srcBytes), .addressFault),
       (decide (0 < x.dstBytes) && !(if x.exact then x.dst % 512 == 0 && s.inScratch x.dst x.dstBytes
          else s.stagePlace x.who .write (!x.reduces) x.dst x.dstBytes), .addressFault),
       (x.reduces && !x.exact && x.dst % x.eb != 0, .addressFault),
       (x.isCol 3 && (List.range x.n).any fun r => !s.reach x.who .write (dShapeAddr d + 32768 + 8 * r) 8, .addressFault),
       (x.hasSrc && decide (0 < x.srcBytes) && decide (0 < x.dstBytes) && decide (x.src < x.dst + x.dstBytes) &&
          decide (x.dst < x.src + x.srcBytes) && !(x.isCol 4 && x.src == x.dst), .addressFault),
       ((x.hasSrc && out x.src x.srcBytes) || out x.dst x.dstBytes, .unitFault)]

/-! Refusals of a Curator stage (06 R162 steps 5 and 6, R171, R172). -/

/-- Tokens of the stage's route record. -/
def State.tokens (s : State) (x : Ctx) : Nat := s.recordTokens x.layer x.rrTag

/-- The route record and, with HIST_EN, the histogram lie where 06 R162 and R184 say. -/
def State.recordOk (s : State) (x : Ctx) : Bool :=
  let l := x.layer
  s.reach x.who .read l.routeAddr 64 && s.reach x.who .write l.routeAddr (64 + 16 * s.tokens x * l.k)

/-- The counts messages, by rank. -/
def Ctx.countLists (x : Ctx) : List (List Nat) := (List.range x.n).map fun r => (nget x.st.counts r).getD []

/-- The words of a layer's histogram table, and what the Vault's atomics on them end with (06 R184, 07 R219). -/
def State.histFault (s : State) (who : Requester) (l : Layer) : Option Status :=
  if l.histEn then (List.range (4 * l.experts)).findSome? fun i => s.atomicFault who 0x0 (l.histAddr + 4 * i) false else none

/-- The histogram table among a command's accesses. -/
def Layer.histExts (l : Layer) : List Ext := if l.histEn then [(true, l.histAddr, 16 * l.experts)] else []

/-- Extents read, as accesses. -/
def readExts (es : List (Nat × Nat)) : List Ext := es.map fun e => (false, e.1, e.2)

/-- Extents are read through the Vault, each line once. -/
def touchAll (who : Requester) (es : List (Nat × Nat)) : Prog := forEach es fun e => touch false who e.1 e.2

/-- Word of the receive table entry that holds the region a stage works on: X_ADDR, Y_ADDR, DZ_ADDR or DX_ADDR. -/
def Ctx.regionWord (x : Ctx) : Nat := if x.op = 2 then (if x.reverse then 4 else 0) else if x.reverse then 6 else 2

/-- Format of the rows of the region: TOK_FMT, or RETURN's FMT. -/
def Ctx.rowFmt (x : Ctx) : Nat := if x.op = 2 then x.layer.tokFmt else x.fmt

/-- The region a stage works on at core `n`. -/
def State.stageRegion (s : State) (x : Ctx) (n : Nat) : Nat × Nat :=
  (s.region x.layer n x.regionWord x.wave, (s.regionMat x.layer n x.regionWord x.wave x.rowFmt).tileBytes)

/-- The shape table and arrival record of the stage's wave at core `n`. -/
def State.stageTables (s : State) (x : Ctx) (n : Nat) : List (Nat × Nat) :=
  let l := x.layer
  [(s.shapeTable l n x.wave, 8 * slotsOf (s.placedOn l l.rank) n), (s.region l n 8 x.wave, 8 * s.rowCap l n)]

/-- The tables a DISPATCH or RETURN reads of this member, and for each core its region, shape table and arrival record, lie where they may
(06 R162 step 6, R172). -/
def State.tablesOk (s : State) (x : Ctx) : Bool :=
  let l := x.layer
  s.placeReach x.who l && (coresOf (s.placedOn l l.rank)).all fun n =>
    s.entryOk x.who l n && (s.stageRegion x n :: s.stageTables x n).all fun e => s.coreRegionOk n e.1 e.2

/-- What this member refuses of a Curator stage at admission. -/
def State.curRefusal (s : State) (x : Ctx) : Option Status :=
  let l := x.layer
  let m := s.tokens x
  if x.op = 1 then
    (firstFault [(!s.recordOk x || !s.placeReach x.who l || (l.histEn && !(s.inScratch l.histAddr (16 * l.experts) && l.histAddr % 4 == 0)),
        .addressFault)]).or (s.grantRefusal x.who l x.countLists)
  else if x.op = 2 then
    firstFault [(!s.tablesOk x || (decide (0 < m) && (!s.recordOk x || !s.reach x.who .read l.sendAddr 2048 ||
      !s.reach x.who .read l.sendAddr (s.sendExtent l) ||
      !s.reach x.who .read x.mat (Mat.tileBytes ⟨x.mat, l.tokFmt, 16, false, false, m, l.h⟩))), .addressFault)]
  else
    let buf := (routeBuffer l x.mat x.fmt m).tileBytes
    firstFault
      [(decide (0 < m) && decide (4096 * dword x.c.desc 14 < buf), .sizeFault),
       ((decide (0 < m) && (!s.recordOk x || !s.reach x.who .write x.mat buf)) || !s.tablesOk x, .addressFault)]

/-- This member's refusal at admission. -/
def State.refusalOf (s : State) (x : Ctx) : Option Status := if x.isCur then s.curRefusal x else s.colRefusal x

/-- The stage signature (09 R270): COUNT is omitted for ALL_TO_ALL_V; a Curator stage carries its opcode above the collectives' (log
31). -/
def State.sigOf (s : State) (x : Ctx) : StageSig :=
  let grp := BitVec.ofNat 32 (s.fld (Reg.colGrpSignature x.g))
  if x.isCur then ⟨grp, 0x1000 + x.op, 0, 0, 0, 0, 0⟩
  else ⟨grp, x.op, x.dtype, x.rop, x.root, if x.op = 3 then 0 else x.count, x.anchor⟩

/-! Ends of a stage on this member (09 R270–R273). -/

/-- The stage order changes when a Curator stage ends with OK (06 R181): a stage counts in the order it was issued under, and in no later
one. -/
def orderDone (x : Ctx) : Prog := withS fun s =>
  onlyIf x.isCur (given (nget s.orders x.layer.routeAddr) fun o =>
    onlyIf (o.route == x.st.route) (emit [.order x.layer.routeAddr (some (if x.op = 1 then { o with granted := true }
      else { o with done := o.done ++ [(2 * (if x.reverse then 1 else 0) + (if x.op = 2 then 0 else 1), x.wave)] }))]))

/-- COL_STRM_PART follows the stage that GROUP and SEQ of the stream show, its most recent one (09 R284). -/
def showPart (x : Ctx) (part : Nat) : Prog := withS fun s =>
  onlyIf (!x.isCur && s.fld (Reg.colStrmGroup x.sid) == x.g && s.fld (Reg.colStrmSeq x.sid) == x.sn) (setF (Reg.colStrmPart x.sid) part)

/-- The stage ends here: the counts in flight, the part shown, and the command's end. -/
def endStage (x : Ctx) (st : Status) : Prog := withS fun s => seqs
  [updStage x.g x.sn fun y => { y with result := some st, early := [], parts := [], held := [] },
   setF (Reg.colGrpInflight x.g) (s.fld (Reg.colGrpInflight x.g) - 1),
   setF Reg.colActive (s.fld Reg.colActive - 1),
   if x.isCur then setF Reg.curActive (s.fld Reg.curActive - 1) else showPart x 0,
   onlyIf (st == .ok) (orderDone x),
   endCmd x.sid x.c st]

/-- A stage fails on this member. -/
def failStage (x : Ctx) (st : Status) : Prog :=
  seqs [incF (Reg.colGrpFails x.g), incF Reg.colStageFails, vetoStep 2, endStage x st]

/-- A completed stage is tainted (09 R273, 16 R449). A command the Ledger already marked through another stage gets this stage's event too. -/
def taintStage (sid acc : Nat) : Prog := withS fun s => seqs
  [if s.tainted (.stream sid, acc) then logEv (.stream sid) acc .tainted 0 false (.taint acc) else markTaint (.stream sid, acc) acc,
   incF Reg.colTaintEvents, vetoStep 3, sendIrq (s.fld (Reg.strmIrqVec sid)), spreadTaint acc]

/-- The stage ended here in failure: what still arrives for one of its waits is late (01 R26). -/
def Stage.overdue (y : Stage) : Bool :=
  match y.result with
  | none => false
  | some .ok => false
  | some .tainted => false
  | some _ => true

/-- A late arrival at a stage's wait (09 R271, 06 R171). -/
def lateStage (g sn : Nat) : Prog := withS fun s =>
  let cur := match (s.stage g sn).cmd with | some (sid, _) => decide (sid < 1040) | none => false
  lateProg (if cur then .curator else .group g)

/-- What arrives for a stage that ended here in failure is counted as late and discarded. -/
def ifOverdue (g sn : Nat) : Prog := withS fun s => onlyIf (s.stage g sn).overdue (lateStage g sn)

/-- FAIL reaches this member: a running stage fails, one completed with OK is tainted once, one that ended in failure stays so and the
arrival is late. -/
def failHere (g sn : Nat) (st : Status) : Prog := withS fun s =>
  match s.ctx g sn with
  | some x => failStage x st
  | none =>
    let y := s.stage g sn
    match y.cmd, y.result with
    | some (sid, acc), some .ok => seq (updStage g sn fun z => { z with result := some .tainted }) (taintStage sid acc)
    | _, _ => ifOverdue g sn

/-- This member coordinates its group. -/
def State.coordinates (s : State) (g : Nat) : Bool := s.fld (Reg.colGrpState g) == 2 && s.fld (Reg.colGrpMyRank g) == 0

/-- Every member has reported completion: the stage is closed. -/
def State.closed (s : State) (g sn : Nat) : Bool :=
  (List.range (s.members g).length).all ((s.stage g sn).reports.contains ·)

/-- The coordinator sends FAIL with the first status it received; no FAIL for a closed stage (09 R272, R273). -/
def coordFail (g sn : Nat) (st : Status) : Prog := withS fun s =>
  if (s.stage g sn).failSent || s.closed g sn then skip
  else seqs [updStage g sn fun y => { y with failSent := true },
    forEach ((List.range (s.members g).length).filter (· != 0)) fun r => emit [.send (.stage g sn r (.fail st))],
    failHere g sn st]

/-- This member reports a failure after GO. -/
def reportFail (x : Ctx) (st : Status) : Prog :=
  if x.st.reported then skip
  else seq (updStage x.g x.sn fun y => { y with reported := true })
    (if x.me = 0 then coordFail x.g x.sn st else tell x 0 (.report st))

/-- The stage's failure is reported, if it still runs. -/
def stageFault (x : Ctx) (st : Status) : Prog := onStage x.g x.sn fun y => reportFail y st

/-- The stage writes bytes; a write that covers a damaged line in part changes nothing and fails the stage (16 R444). -/
def storeBytes (x : Ctx) (a : Nat) (bs : List Byte) : Prog := withS fun s =>
  match s.writeHurt a bs.length with
  | some st => stageFault x st
  | none => writeBytes x.who a bs

/-! The payload (09 R275–R279, 06 R174–R178). -/

/-- Bytes of a returned row: the entry of its arrival record and its elements (log 30). -/
def Ctx.rowLen (x : Ctx) : Nat := 8 + cdiv (x.layer.h * fmtBits x.fmt) 8

/-- A piece of the source, read once (09 R279): the receivers of it with the number of the chunk for each, whether this member takes it for
itself too, where it lies and how many bytes it is, and its offset in the payload. -/
structure Piece where
  to_  : List (Nat × Nat)
  self : Bool
  addr : Nat
  len  : Nat
  off  : Nat
  deriving DecidableEq, Repr

namespace Ctx

/-- Bytes rank `q` owes this member in the first half: contributions, runs, rows. A BROADCAST comes from the member above in its tree. -/
def inLen (x : Ctx) (s : State) (q : Nat) : Nat :=
  if x.isCur then (if x.op = 3 then s.owedRows x.layer (s.tokens x) x.wave q * x.rowLen else 0)
  else if x.reduces then x.len x.me * x.cb
  else if x.op = 2 then x.count * x.eb
  else if x.op = 3 then x.runLen q * x.eb
  else if x.op = 4 then (if x.me != x.root && q == x.parent x.me then x.count * x.eb else 0)
  else 0

/-- Bytes rank `q` owes this member in the gather of ALL_REDUCE. -/
def inLen2 (x : Ctx) (q : Nat) : Nat := if x.isCol 0 then x.len q * x.eb else 0

/-- The extent a payload to rank `r` is read from, in the first half, apart from returned rows. -/
def outExt (x : Ctx) (r : Nat) : Nat × Nat :=
  if x.isCur then (0, 0)
  else if x.reduces then (x.src + x.first r * x.eb, x.len r * x.eb)
  else if x.op = 2 then (x.src, x.count * x.eb)
  else if x.op = 3 then (x.src + (x.st.sends.take r).foldl (· + ·) 0 * x.eb, x.st.sends.getD r 0 * x.eb)
  else if x.op = 4 then (if x.me = x.root then (x.src, x.count * x.eb) else (x.src, 0))
  else (0, 0)

/-- The other members. -/
def others (x : Ctx) : List Nat := (List.range x.n).filter (· != x.me)

/-- Chunks of `len` bytes. -/
def chunks (len : Nat) : Nat := cdiv len 65536

/-- The bytes of the rows this member returns to rank `r`. -/
def returned (x : Ctx) (s : State) (r : Nat) : List Byte :=
  ((s.returnRows x.layer x.wave x.fmt x.reverse).filter (·.1 == r)).flatMap (·.2)

/-- Bytes in memory behind one chunk: an EXACT slot takes 16 bytes there and 4 in a chunk. -/
def span (x : Ctx) : Nat := if x.exact && x.dtype == 2 then 4 * 65536 else 65536

/-- The pieces of an extent, in ascending offset (09 R277). -/
def pieces (x : Ctx) (e : Nat × Nat) (self : Bool) (to_ : Nat → List (Nat × Nat)) : List Piece :=
  (List.range (cdiv e.2 x.span)).map fun i => ⟨to_ i, self, e.1 + x.span * i, min x.span (e.2 - x.span * i), 65536 * i⟩

/-- What this member owes the others in the first half. ALL_GATHER and BROADCAST send every receiver the same bytes. -/
def firstPieces (x : Ctx) (s : State) : List Piece :=
  if x.isCur then
    (if x.op = 3 then x.others.flatMap fun r =>
      let len := (x.returned s r).length
      (List.range (chunks len)).map fun i => ⟨[(r, i)], false, 0, min 65536 (len - 65536 * i), 65536 * i⟩
     else [])
  else if x.isCol 2 then x.pieces (x.outExt x.me) true fun i => x.others.map (·, i)
  else if x.isCol 4 then x.pieces (x.outExt x.me) (x.src != x.dst) fun i => x.children.map (·, i)
  else x.others.flatMap fun r => x.pieces (x.outExt r) false fun i => [(r, i)]

/-- The gather of ALL_REDUCE: this member's shard to every other, numbered after the contributions they were sent (09 R276). -/
def secondPieces (x : Ctx) : List Piece :=
  if x.isCol 0 && !x.others.isEmpty then
    (List.range (chunks (x.len x.me * x.eb))).map fun i =>
      ⟨x.others.map fun r => (r, chunks (x.len r * x.cb) + i), false, x.dst + x.first x.me * x.eb + 65536 * i,
       min 65536 (x.len x.me * x.eb - 65536 * i), 65536 * i⟩
  else []

/-- The flag bits of the exact-sum blocks of an EXACT payload, two a block (09 R275). -/
def flagBytes (flags : List Nat) : List Byte := packCodes 2 flags

/-- The conversions and flags of exact-sum blocks (09 R275, 04 R130). -/
def exactBytes (s : State) (a len : Nat) : List Byte × List Byte :=
  let blks := (List.range (len / 512)).map fun b => s.exBlock (a + 512 * b)
  (blks.flatMap fun b => (List.range 32).flatMap fun j => leBytes 4 (b.conv j), flagBytes (blks.map (·.flags)))

/-- The chunk of a piece: the bytes its check value covers, and under EXACT the flags of its blocks, which travel in the header (log 32). -/
def chunkOf (x : Ctx) (s : State) (first : Bool) (p : Piece) : List Byte × List Byte :=
  if x.isCur then (((x.returned s ((p.to_.map (·.1)).headD 0)).drop p.off).take p.len, [])
  else if first && x.exact && x.dtype == 2 then exactBytes s p.addr p.len
  else (bytesAt s.mem p.addr p.len, [])

/-- The payload bytes of chunk `n` from rank `q`, and whether it is one of the gather. -/
def chunkLen (x : Ctx) (s : State) (q n : Nat) : Option (Bool × Nat × Nat) :=
  let a := x.inLen s q
  let b := x.inLen2 q
  if n < chunks a then some (false, 65536 * n, min 65536 (a - 65536 * n))
  else if n < chunks a + chunks b then
    let o := 65536 * (n - chunks a)
    some (true, o, min 65536 (b - o))
  else none

/-- Where a received chunk is written, for the accesses a directory must clear first. -/
def inExt (x : Ctx) (s : State) (gather : Bool) (q o len : Nat) : Nat × Nat :=
  if x.isCur then (x.mat, (routeBuffer x.layer x.mat x.fmt (s.tokens x)).tileBytes)
  else if gather then (x.dst + x.first q * x.eb + o, len)
  else if x.exact then (x.target + 512 * (o / x.cb / 32), 512 * cdiv (len / x.cb) 32)
  else if x.reduces then (x.target + o, len)
  else if x.isCol 2 then (x.dst + q * x.count * x.eb + o, len)
  else if x.isCol 3 then (x.dst + ((List.range q).map x.runLen).foldl (· + ·) 0 * x.eb + o, len)
  else if x.isCol 4 then (x.dst + o, len)
  else (0, 0)

end Ctx

/-- Elements of a byte string, `w` bytes each. -/
def elems (w : Nat) (bs : List Byte) : List Nat := (List.range (bs.length / w)).map fun i => leNat ((bs.drop (w * i)).take w)

/-- A contribution to an exact sum, at element `e0` of the shard (09 R275 step 1): BF16 is widened exactly, and an EXACT contribution
brings the flags of its blocks. -/
def addExact (x : Ctx) (e0 : Nat) (vals : List Nat) (flags : List Byte) : Prog :=
  forEach (List.range (cdiv vals.length 32)) fun b => withS fun s =>
    let a := x.target + 512 * (e0 / 32 + b)
    let part := (vals.drop (32 * b)).take 32
    let blk := (s.exBlock a).addAll (List.range part.length) (if x.dtype = 1 then part.map (· * 2 ^ 16) else part)
    let fl := leNat flags / 2 ^ (2 * b) % 4
    match s.readHurt a 512 with
    | some st => stageFault x st
    | none => putBlock x.who a { blk with flags := blk.flags ||| fl }

/-- A returned row goes to row SRC_TOKEN × K + RANK of the per-route buffer (06 R177); one outside the buffer goes nowhere. -/
def putReturned (x : Ctx) (bs : List Byte) : Prog := withS fun s =>
  let l := x.layer
  let m := routeBuffer l x.mat x.fmt (s.tokens x)
  let f := arrivalFields (leNat (bs.take 8))
  let r := f.2.1 * l.k + f.2.2
  onlyIf (decide (r < s.tokens x * l.k))
    (forEach (rowPieces m r (rowCodes x.fmt l.h (bs.drop 8))) fun w => storeBytes x w.1 w.2)

/-- The rows of a string of returned rows. -/
def putRows (x : Ctx) (bs : List Byte) : Prog :=
  forEach (List.range (bs.length / x.rowLen)) fun i => putReturned x ((bs.drop (x.rowLen * i)).take x.rowLen)

/-- A chunk of returned rows: the rows of a source are written once the last of its chunks is there, since a row may lie in two. -/
def useRows (x : Ctx) (q o : Nat) (bs : List Byte) : Prog := withS fun s =>
  let ps := (x.st.parts.filter (·.1 == q)) ++ [(q, o / 65536, bs)]
  let n := Ctx.chunks (x.inLen s q)
  if (List.range n).all fun i => ps.any (·.2.1 == i) then
    seq (updStage x.g x.sn fun y => { y with parts := y.parts.filter (·.1 != q) })
      (putRows x ((List.range n).flatMap fun i => ((ps.find? (·.2.1 == i)).map (·.2.2)).getD []))
  else updStage x.g x.sn fun y => { y with parts := y.parts ++ [(q, o / 65536, bs)] }

/-- A checked chunk is used: `flags` are those of the blocks of an EXACT one. -/
def useChunk (x : Ctx) (q : Nat) (gather : Bool) (o : Nat) (bs flags : List Byte) : Prog := withS fun s =>
  let e := x.inExt s gather q o bs.length
  if x.isCur then useRows x q o bs
  else if gather then storeBytes x e.1 bs
  else if x.exact then addExact x (o / x.cb) (elems x.cb bs) flags
  else if x.reduces then
    match s.readHurt e.1 e.2 with
    | some st => stageFault x st
    | none => forEach (elems x.eb bs).zipIdx fun v =>
      atomicApply x.who (reduceOp x.dtype x.rop) (e.1 + x.eb * v.2) (x.eb == 8) v.1 0 fun _ => skip
  else storeBytes x e.1 bs

/-- This member's own contribution to its shard or its own run, read once: the plain copy of a reduction (09 R275 step 2), the addends of an
exact sum, the run of ALL_TO_ALL_V to itself, the rows a RETURN owes itself. -/
def useOwn (x : Ctx) : Prog := withS fun s =>
  let e := x.outExt x.me
  if x.isCur then onlyIf (x.op == 3) (putRows x (x.returned s x.me))
  else if x.exact && x.dtype == 2 then (let p := Ctx.exactBytes s e.1 e.2; useChunk x x.me false 0 p.1 p.2)
  else if x.reduces && !x.exact then storeBytes x (x.inExt s false x.me 0 e.2).1 (bytesAt s.mem e.1 e.2)
  else if x.reduces || x.isCol 3 then useChunk x x.me false 0 (bytesAt s.mem e.1 e.2) []
  else skip

/-- The extents of this member's own contribution. -/
def ownExts (x : Ctx) (s : State) : List Ext :=
  let e := x.outExt x.me
  if x.isCur || x.isCol 2 || x.isCol 4 then []
  else [(false, e.1, e.2), (true, (x.inExt s false x.me 0 e.2).1, if x.exact then 512 * cdiv (x.len x.me) 32 else e.2)]

/-- A token row that arrived (06 R175, R179): each copy at its layout row, with its arrival record entry. -/
def putToken (x : Ctx) (q : Nat) (header row : List Byte) : Prog := withS fun s =>
  let l := x.layer
  let rs := s.placedOn l l.rank
  let codes := rowCodes l.tokFmt l.h row
  forEach (headerCopies header) fun cp =>
    let lay := s.layoutOf l cp.core (slotsOf rs cp.core) x.wave
    if !(coresOf rs).contains cp.core then skip
    else given lay.1[cp.slot]? fun p =>
      let r := p + cp.row
      let f := elemFmt l.tokFmt
      let vals := if x.reverse then codes.map fun v => enc f ((f.decode v).mul (fp32.decode cp.weight.toNat)) else codes
      seqs [forEach (rowPieces (s.regionMat l cp.core (if x.reverse then 4 else 0) x.wave l.tokFmt) r vals) fun w =>
              storeBytes x w.1 w.2,
            storeBytes x (s.region l cp.core 8 x.wave + 8 * r) (arrivalBytes q (headerToken header) cp.rank),
            incF Reg.curCopies,
            updStage x.g x.sn fun y => { y with rows := y.rows + 1 }]

/-- The rows this member owes rank `r` in the wave (06 R174, R179). -/
def State.rowsFor (s : State) (x : Ctx) (r : Nat) : List StageMsg :=
  let l := x.layer
  let m := s.tokens x
  if m = 0 then []
  else
    let mat : Mat := ⟨x.mat, l.tokFmt, 16, false, false, m, l.h⟩
    (s.owedTo l r x.wave).map fun e => .row (tokenHeader e.1 e.2) (rowPacked l.tokFmt (s.matRow mat e.1))

/-! GRANT at its end (06 R171 step 4, R173, R184). -/

/-- The first route number of this member for every replica of the layer: those of its own replicas from the counts it received, the others
as their members replied. -/
def State.firstsOf (s : State) (x : Ctx) : List Nat :=
  let l := x.layer
  let reps := s.allReplicas l
  reps.zipIdx.map fun p =>
    let r := p.1
    let i := ((s.placedOn l r.member).findIdx? (· == r)).getD 0
    if r.member = x.me then (firstNumbers (s.placedOn l x.me) x.countLists x.me).getD i 0
    else if x.me ≠ 0 then x.st.info.getD p.2 0
    else (((x.st.adms.find? (·.rank == r.member)).map (·.counts)).getD []).getD i 0

/-- Counts are added to a histogram word (06 R184). -/
def histAdd (x : Ctx) (op expert word v : Nat) : Prog :=
  onlyIf (v != 0) (atomicApply x.who op (x.layer.histAddr + 16 * expert + 4 * word) false v 0 fun _ => skip)

/-- GRANT completes: the route slots and header of a record that is not empty, the shape tables, the histogram, the counters. -/
def grantFinish (x : Ctx) : Prog := drawFree fun n => withS fun s =>
  let l := x.layer
  let m := s.tokens x
  let c := l.capacity
  let rs := s.placedOn l l.rank
  let tot := replicaTotals rs x.countLists
  let slots := s.grantSlots l m n (s.firstsOf x)
  let live := slots.filter fun y => !y.2.2.dropped
  let waves := (live.map fun y => y.2.2.wave + 1).foldl max 0
  let dropped := slots.length - live.length
  seqs
    [onlyIf (decide (0 < m)) (seqs
       [forEach slots fun y => storeBytes x (slotAddr l y.1 y.2.1) y.2.2.bytes,
        storeBytes x l.routeAddr (headerBytes m l.k waves true l.placeGen x.rrTag dropped),
        incF Reg.curDropped dropped, incF Reg.curExtraWaves (waves - 1)]),
     forEach (coresOf rs) fun k => forEach (List.range l.waveLimit) fun w =>
       forEach (slotCounts tot c k (slotsOf rs k) w).zipIdx fun v =>
         storeBytes x (s.shapeTable l k w + 8 * v.2) (shapeWordBytes v.1 (dTag x.c.desc) x.sid),
     onlyIf l.histEn (forEach tot fun t => seqs
       [histAdd x 0x0 t.1.expert 1 t.2, histAdd x 0x0 t.1.expert 2 (t.2 - l.waveLimit * c),
        histAdd x 0x1 t.1.expert 3 (min l.waveLimit (cdiv t.2 c))])]

/-! How a stage advances. -/

/-- The counts this member tells the others at issue (06 R171 step 1, 09 R270). -/
def State.countsTo (s : State) (x : Ctx) (r : Nat) : List Nat :=
  if x.isCur then s.countsMsg x.layer (s.tokens x) r else [x.st.sends.getD r 0]

/-- The admission: once every count is there, the refusal is judged and the coordinator hears it; a member that passes its own
checks starts (16 R448). Replies to GRANT give each source its first route numbers (06 R171 step 2). -/
def admitStage (g sn : Nat) : Prog := onStage g sn fun x => withS fun s =>
  if x.st.admitted || (x.counted && !(List.range x.n).all fun r => (nget x.st.counts r).isSome) then skip
  else
    let ref := s.refusalOf x
    let numbers := fun r => if x.isStage 1 then firstNumbers (s.placedOn x.layer x.me) x.countLists r else []
    let good := if x.isCommit then [if s.flagBit Reg.colStepOk && !s.updateOpen then 1 else 0, s.fld (Reg.btrEpoch 0)] else []
    let sig := s.sigOf x
    seqs [updStage g sn fun y => { y with admitted := true, refusal := ref },
      onlyIf (x.isStage 1 && ref.isSome) (incF Reg.curRefusals),
      onlyIf ref.isNone (startCmd x.sid x.c),
      onlyIf (x.isStage 1) (forEach ((List.range x.n).filter fun r => r != x.me && r != 0) fun r => tell x r (.numbers (numbers r))),
      if x.me = 0 then updStage g sn fun y => { y with adms := y.adms ++ [⟨0, sig, ref, if x.isCommit then good else numbers 0⟩] }
      else tell x 0 (.admission sig ref (if x.isCommit then good else numbers 0))]

/-- The outcome of admission (09 R270): GO, or FAIL with one status. -/
def outcome (adms : List Adm) : Option Status :=
  let byRank := (List.range 4101).filterMap fun r => (adms.find? (·.rank == r)).bind (·.refusal)
  if adms.any (·.refusal == some .sizeFault) then some .sizeFault
  else if (adms.map (·.sig)).eraseDups.length > 1 then some .descriptorFault
  else byRank.head?

/-- GO reaches this member. -/
def goHere (g sn : Nat) (info : List Nat) : Prog := onStage g sn fun x =>
  if x.st.go then skip
  else seqs [updStage g sn fun y => { y with go := true, info := info }, markCmd x.sid x.c 1,
    showPart x 2]

/-- The decision reaches this member (09 R280): it is recorded, and a commit raises the epoch of all eight Beaters. -/
def decisionHere (g sn : Nat) (commit : Bool) (epoch : Nat) : Prog := onStage g sn fun x =>
  if !x.isCommit then skip
  else seqs
    [logEv (.stream x.sid) x.c.acc .ok (dTag x.c.desc) false (.commit g sn commit epoch),
     setF Reg.colDecision (if commit then 1 else 2), setF Reg.colDecisionSeq sn, setF Reg.colDecisionGroup g,
     if commit then seqs
       [forEach (List.range 8) fun k => withS fun s => setF (Reg.btrEpoch k) ((s.fld (Reg.btrEpoch k) + 1) % 2 ^ 32),
        markCmd x.sid x.c 1, markCmd x.sid x.c 2, markCmd x.sid x.c 3, endStage x .ok]
     else endStage x .stepDiscarded]

/-- The coordinator decides once every member is heard, or at its own timeout, when a member not heard refuses with TIMEOUT (09 R270,
R271, R280). The decision of a COMMIT is recorded before any member learns it. -/
def decide_ (g sn : Nat) (atTimeout : Bool) : Prog := onStage g sn fun x => withS fun s =>
  let heard := fun r => x.st.adms.any (·.rank == r)
  if x.me ≠ 0 ∨ x.st.decided || !(atTimeout || (List.range x.n).all heard) then skip
  else
    let missing := (List.range x.n).filter fun r => !heard r
    let adms := x.st.adms ++ missing.map fun r => ⟨r, s.sigOf x, some .timeout, []⟩
    let epoch := s.fld (Reg.btrEpoch 0)
    if x.isCommit then
      let commit := adms.all fun a => a.refusal.isNone && a.counts == [1, epoch]
      seqs [updStage g sn fun y => { y with decided := true },
        logEv (.stream x.sid) x.c.acc .ok (dTag x.c.desc) false (.commit g sn commit epoch),
        tellAll x (.decision commit epoch), decisionHere g sn commit epoch]
    else match outcome adms with
      | none => seqs [updStage g sn fun y => { y with decided := true }, tellAll x (.go []), goHere g sn []]
      | some st => seqs [updStage g sn fun y => { y with decided := true, failSent := true }, tellAll x (.fail st), failHere g sn st]

/-- What a Curator stage reads: its route record, and the send lists and source matrix, or the regions and arrival records of its cores. -/
def State.curReads (s : State) (x : Ctx) : List (Nat × Nat) :=
  let l := x.layer
  let m := s.tokens x
  (l.placeAddr, 64 + 64 * l.experts) :: (if 0 < m then [(l.routeAddr, 64 + 16 * m * l.k)] else []) ++
  (if x.op = 3 then (coresOf (s.placedOn l l.rank)).flatMap fun n => s.stageRegion x n :: s.stageTables x n else []) ++
  (if x.op = 2 ∧ 0 < m then [(x.mat, Mat.tileBytes ⟨x.mat, l.tokFmt, 16, false, false, m, l.h⟩), (l.sendAddr, s.sendExtent l)] else [])

/-- A damaged line among what a Curator stage reads (16 R444), and for GRANT what the histogram's atomics end with. -/
def State.curHurt (s : State) (x : Ctx) : Option Status :=
  if x.isCur then (s.anyHurt (s.curReads x)).or (if x.op = 1 then s.histFault x.who x.layer else none) else none

/-- What GRANT writes: the route record, the shape tables, the histogram. -/
def State.grantExts (s : State) (x : Ctx) : List Ext :=
  let l := x.layer
  let rs := s.placedOn l l.rank
  (true, l.routeAddr, 64 + 16 * s.tokens x * l.k) :: l.histExts ++
    (coresOf rs).flatMap fun n => (List.range l.waveLimit).map fun w => (true, s.shapeTable l n w, 8 * slotsOf rs n)

/-- What happens at GO before any payload: the blocks of a sum are written as zero with ANCHOR (09 R275), the own contribution to any other
payload, the counts received (09 R279), the end of GRANT. Rows a member owes itself count among those it sends (06 R187, log 65). -/
def begin (g sn : Nat) : Prog := onStage g sn fun x => withS fun s =>
  if !x.st.go || x.st.begun || x.st.reported then skip
  else
    let done := updStage g sn fun y => { y with begun := true, own := !x.exact, sentTo := y.sentTo ++ [x.me] }
    let e := x.outExt x.me
    if let some st := s.curHurt x then reportFail x st
    else if x.isStage 1 then whenReady (readExts (s.curReads x) ++ s.grantExts x) (seqs [touchAll x.who (s.curReads x), grantFinish x, done])
    else if x.isStage 2 then
      whenReady (readExts (s.curReads x)) (withS fun t =>
        let rows := t.rowsFor x x.me
        seqs [touchAll x.who (t.curReads x), incF Reg.curRowsSent rows.length,
          updStage g sn fun y => { y with early := y.early ++ rows.map fun r => (x.me, r) }, done])
    else if x.isStage 3 then
      whenReady (readExts (s.curReads x) ++ [(true, x.mat, (routeBuffer x.layer x.mat x.fmt (s.tokens x)).tileBytes)])
        (seqs [touchAll x.who (s.curReads x), useOwn x, done])
    else if x.exact then
      whenReady [(true, x.target, 512 * cdiv (x.len x.me) 32)]
        (seq (forEach (List.range (cdiv (x.len x.me) 32)) fun b =>
            writeBytes x.who (x.target + 512 * b) (ExBlock.toBytes ⟨List.replicate 32 0, x.anchor, 0, 0, 0⟩)) done)
    else if x.isCol 2 || x.isCol 4 then done
    else whenReady (ownExts x s)
      (match s.readHurt e.1 e.2 with
       | some st => reportFail x st
       | none => seqs [touch false x.who e.1 e.2, useOwn x,
          onlyIf (x.isCol 3) (forEach (List.range x.n) fun r =>
            storeBytes x (dShapeAddr x.c.desc + 32768 + 8 * r) (shapeWordBytes (x.runLen r) (dTag x.c.desc) x.sid)), done])

/-! Chunks held in the group's cells (09 R266, R278, R279). -/

/-- Cells of a chunk: chains of one header cell and a packet of up to 4 KiB (09 R266: 272 for 64 KiB). -/
def chunkCells (len : Nat) : Nat := len / 4096 * 17 + (if len % 4096 = 0 then 0 else chainCells (len % 4096))

/-- The cells the chunks held by every stage of group `g` take. -/
def State.heldCells (s : State) (g : Nat) : Nat :=
  ((s.stages.filter fun e => e.1 / 2 ^ 32 == g).map fun e => (e.2.held.map fun h => chunkCells h.payload.length).foldl (· + ·) 0).foldl (· + ·) 0

/-- The group's reserved cells take one more chunk of `len` bytes, beside the four cells of each member for control messages (09 R266). -/
def State.chunkRoom (s : State) (g len : Nat) : Bool :=
  decide (s.heldCells g + chunkCells len + 4 * (s.members g).length ≤ s.fld (Reg.colGrpCells g))

/-- A chunk goes out with its check value, which an armed error corrupts (09 R277, 16 R479). -/
def sendChunk (x : Ctx) (r n : Nat) (h : Held) : Prog := withS fun s =>
  let check := crc64 (h.payload.take h.checked)
  if s.cons.armed.any (·.target == 0x0B) then
    seq (useArmed 0x0B 0 0 false false fun _ => skip) (tell x r (.chunk n x.me h.payload (check ^^^ 1)))
  else tell x r (.chunk n x.me h.payload check)

/-- Held chunks go to every receiver they are due to whose credit has come (09 R270). -/
def sendDue (g sn : Nat) : Prog := onStage g sn fun x =>
  if x.st.reported then skip
  else
    let ready := fun (d : Nat × Nat) => x.st.credits.contains d.1
    seq (forEach x.st.held fun h => forEach (h.due.filter ready) fun d => sendChunk x d.1 d.2 h)
      (updStage g sn fun y => { y with held := y.held.map fun h =>
        { h with due := h.due.filter fun d => !ready d, out := h.out ++ h.due.filter ready } })

/-- The next piece of the source is read, once a receiver of it has granted credit and the group's cells have room: this member's part of
the result is written from it, and the others' chunks are held (09 R278, R279). `k` is its number among the pieces of the stage. -/
def takePiece (g sn k : Nat) (first : Bool) (p : Piece) : Prog := onStage g sn fun x => withS fun s =>
  let b := x.chunkOf s first p
  if x.st.taken.contains k || x.st.reported || !(p.to_.isEmpty || p.to_.any fun d => x.st.credits.contains d.1) ||
      (!p.to_.isEmpty && !s.chunkRoom g b.1.length) then skip
  else whenReady ((if x.isCur then [] else [(false, p.addr, p.len)]) ++
      (if p.self then [(true, x.inExt s false x.me p.off p.len)] else []))
    (match (if x.isCur then none else s.readHurt p.addr p.len) with
     | some st => reportFail x st
     | none =>
       let more := if p.to_.isEmpty then [] else [⟨b.1 ++ b.2, b.1.length, p.to_, [], none⟩]
       seqs [onlyIf (!x.isCur) (touch false x.who p.addr p.len),
         onlyIf p.self (useChunk x x.me false p.off b.1 b.2),
         updStage g sn fun y => { y with taken := k :: y.taken, held := y.held ++ more }])

/-- The rows of a DISPATCH go to every receiver whose credit has come. -/
def sendRows (g sn : Nat) : Prog := onStage g sn fun x =>
  if !x.isStage 2 then skip
  else forEach x.others fun r => onStage g sn fun y => withS fun s =>
    let rows := s.rowsFor y r
    onlyIf (!y.st.sentTo.contains r && !y.st.reported && (y.st.credits.contains r || rows.isEmpty))
      (seqs [incF Reg.curRowsSent rows.length, forEach rows fun m => tell y r m,
        updStage g sn fun z => { z with sentTo := z.sentTo ++ [r] }])

/-- What this member owes in the first half is read and sent. -/
def sendFirst (g sn : Nat) : Prog := onStage g sn fun x => withS fun s =>
  if !x.st.begun || x.st.reported then skip
  else seqs [forEach (x.firstPieces s).zipIdx fun p => takePiece g sn p.2 true p.1, sendRows g sn, sendDue g sn]

/-- Rank `q`'s contribution to this member's shard has been applied whole. -/
def State.applied (s : State) (x : Ctx) (q : Nat) : Bool :=
  if q = x.me then x.st.own
  else (List.range (Ctx.chunks (x.inLen s q))).all fun i =>
    x.st.got.contains (q, i) && !x.st.early.any fun m => m.1 == q && (match m.2 with | .chunk n _ _ _ => n == i | _ => false)

/-- Contributions are applied in ascending source rank (09 R275): rank `q`'s turn has come when every lower rank's is applied. -/
def State.turnOf (s : State) (x : Ctx) (q : Nat) : Bool := (List.range q).all (s.applied x)

/-- This member's own addends of an exact sum, once it has granted itself a credit and its turn has come. -/
def applyOwn (g sn : Nat) : Prog := onStage g sn fun x => withS fun s =>
  let e := x.outExt x.me
  if x.st.own || !x.exact || x.st.reported || !(x.st.granted.contains x.me || x.len x.me == 0) || !s.turnOf x x.me then skip
  else whenReady (ownExts x s) (match s.readHurt e.1 e.2 with
    | some st => reportFail x st
    | none => seqs [touch false x.who e.1 e.2, useOwn x, updStage g sn fun y => { y with own := true }])

/-- What arrived from rank `q` is used once its lines are free and its turn has come. A used chunk is acknowledged to the member that sent it;
one that is forwarded is held, and acknowledged once every member it was forwarded to has acknowledged it (09 R278). -/
def useFrom (g sn q : Nat) : Prog := onStage g sn fun x =>
  forEach (x.st.early.filter (·.1 == q)) fun m => onStage g sn fun y => withS fun s =>
    let drop := updStage g sn fun z => { z with early := z.early.erase m }
    match m.2 with
    | .chunk n _ payload _ => given (y.chunkLen s q n) fun l =>
        let e := y.inExt s l.1 q l.2.1 l.2.2
        if y.reduces && !l.1 && !s.turnOf y q then skip
        else whenReady [(true, e.1, e.2)] (seqs [drop, useChunk y q l.1 l.2.1 (payload.take l.2.2) (payload.drop l.2.2),
          if y.isCol 4 && !y.children.isEmpty then
            updStage g sn fun z => { z with held := z.held ++ [⟨payload, l.2.2, y.children.map (·, n), [], some (q, n)⟩] }
          else tell y q (.ack n)])
    | .row header row =>
      let exts := (headerCopies header).map fun cp =>
        let r := s.regionMat y.layer cp.core (if y.reverse then 4 else 0) y.wave y.layer.tokFmt
        (true, r.base, r.tileBytes)
      whenReady exts (seq drop (putToken y q header row))
    | _ => drop

/-- What arrived is used, in ascending source rank, this member's own contribution to an exact sum in its place (09 R275). -/
def useEarly (g sn : Nat) : Prog := onStage g sn fun x =>
  if !x.st.begun then skip
  else forEach (List.range x.n) fun q => seq (if q = x.me then applyOwn g sn else skip) (useFrom g sn q)

/-- Every contribution to this member's shard is there and used. -/
def State.firstHalfIn (s : State) (x : Ctx) : Bool := x.st.early.isEmpty && (List.range x.n).all (s.applied x)

/-- An ALL_REDUCE is settled by the owner of the shard (09 R276). -/
def settleShard (g sn : Nat) : Prog := onStage g sn fun x => withS fun s =>
  if !x.isCol 0 || x.st.settled || !x.st.begun || !s.firstHalfIn x then skip
  else
    let n := x.len x.me
    let at_ := x.dst + x.first x.me * x.eb
    let done := updStage g sn fun y => { y with settled := true }
    if x.exact && x.dtype != 2 then
      let vals := (List.range n).map fun i => (s.exBlock (x.target + 512 * (i / 32))).conv (i % 32)
      let bs := vals.flatMap fun v => if x.dtype = 1 then leBytes 2 (enc bf16 (fp32.decode v)) else leBytes 4 v
      whenReady [(true, at_, bs.length)] (seq (storeBytes x at_ bs) done)
    else done

/-- The gather of ALL_REDUCE. -/
def sendSecond (g sn : Nat) : Prog := onStage g sn fun x => withS fun s =>
  if !x.st.settled || x.st.reported then skip
  else seq (forEach x.secondPieces.zipIdx fun p => takePiece g sn ((x.firstPieces s).length + p.2) false p.1) (sendDue g sn)

/-- Everything this member owes is sent and everything owed to it is written. -/
def State.payloadDone (s : State) (x : Ctx) : Bool :=
  x.st.go && x.st.begun && !x.st.reported && s.firstHalfIn x && x.st.held.all (·.due.isEmpty) &&
  (List.range ((x.firstPieces s).length + x.secondPieces.length)).all (x.st.taken.contains ·) &&
  (if x.isCol 0 then
     x.st.settled && x.others.all fun q =>
       (List.range (Ctx.chunks (x.inLen2 q))).all fun i => x.st.got.contains (q, Ctx.chunks (x.inLen s q) + i)
   else if x.isStage 2 then (List.range x.n).all (x.st.sentTo.contains ·) && decide (s.expectedRows x.layer x.wave ≤ x.st.rows)
   else true)

/-- Completion (09 R270): the stage ends with OK once its payload is done and no chunk it sent is held, and reports. -/
def complete (g sn : Nat) : Prog := seq
  (onStage g sn fun x => withS fun s =>
    onlyIf (s.payloadDone x && !x.st.acksOnly) (seqs [updStage g sn fun y => { y with acksOnly := true },
      showPart x 3, markCmd x.sid x.c 2]))
  (onStage g sn fun x =>
    onlyIf (x.st.acksOnly && x.st.held.isEmpty && !x.st.reported) (seqs [markCmd x.sid x.c 3, endStage x .ok,
      if x.me = 0 then updStage g sn fun y => { y with reports := y.reports ++ [0] } else tell x 0 (.report .ok)]))

/-- The stage advances. -/
def advance (g sn : Nat) : Prog :=
  seqs [admitStage g sn, decide_ g sn false, begin g sn, sendFirst g sn, useEarly g sn, settleShard g sn, sendSecond g sn,
    complete g sn]

/-! How a stage begins (09 R263, R264, 06 R162). -/

/-- A number is taken and the stage is in flight. What was heard of it before is kept; a record of an earlier attempt is not. -/
def takeStage (g sn sid : Nat) (c : Cmd) (layer : Nat) (route : Nat × Nat) (count : Nat) (shape : Option Status) (sends : List Nat) : Prog :=
  withS fun s => seqs
  [setF (Reg.colGrpNextSeq g) ((sn + 1) % 2 ^ 32),
   setF (Reg.colGrpInflight g) (s.fld (Reg.colGrpInflight g) + 1),
   setF Reg.colActive (s.fld Reg.colActive + 1),
   updCmd sid c.acc fun d => { d with phase := 1 },
   updStage g sn fun y => { (if y.cmd.isSome then Stage.empty else y) with
     cmd := some (sid, c.acc), layer := layer, route := route, count := count, shape := shape, sends := sends }]

/-- The counts go out, this member's own among them. -/
def sendCounts (g sn : Nat) : Prog := onStage g sn fun x => withS fun s =>
  onlyIf x.counted (seq
    (updStage g sn fun y => { y with counts := nset y.counts x.me (s.countsTo x x.me) })
    (forEach ((List.range x.n).filter (· != x.me)) fun r => tell x r (.counts (s.countsTo x r))))

/-- A COLLECTIVE command (09 R265, R269): its class fields, the group rules, then the stage. Its row, given again, advances a stage
that waits for its lines. -/
def collectiveProg (sid : Nat) (c : Cmd) : Prog := withS fun s =>
  let d := c.desc
  let g := dfld d 8 0 6
  let sn := dword d 9
  if c.phase = 1 then advance g sn
  else if s.colFieldsBad d then endCmd sid c .descriptorFault
  else if s.fld (Reg.colGrpState g) ≠ 2 then endCmd sid c .descriptorFault
  else if sn ≠ s.fld (Reg.colGrpNextSeq g) then endCmd sid c .sequenceFault
  else if 4 ≤ s.fld (Reg.colGrpInflight g) then skip
  else
    let count := if dOp d < 5 ∧ dOp d ≠ 3 then s.countOf sid d 0 (dword d 14) else 0
    let table := if dOp d = 3 then (List.range (s.members g).length).map fun r => s.sendCount (requesterOf sid) d r else []
    let shape := if dOp d = 3 then table.findSome? (·.2) else s.shapeFault sid d
    seqs [takeStage g sn sid c 0 (0, 0) count shape (table.map (·.1)),
      setF (Reg.colStrmGroup sid) g, setF (Reg.colStrmSeq sid) sn, setF (Reg.colStrmPart sid) 1,
      sendCounts g sn, advance g sn]

/-- Steps 2 and 3 of 06 R162: the layer record. -/
def State.layerFault (s : State) (a : Nat) : Option Status :=
  let l := s.layer a
  let place := match s.extent a 128 with | some .hbm => true | some (.scratch _) => true | _ => false
  if a % 128 ≠ 0 || !place then some .addressFault
  else match s.readHurt a 128 with
    | some st => some st
    | none =>
      if l.bad || s.fld (Reg.colGrpState l.group) != 2 || (s.members l.group).length != l.members ||
          s.fld (Reg.colGrpMyRank l.group) != l.rank then some .descriptorFault else none

/-- A Curator exchange stage is out of its record's order (06 R176, R181). -/
def State.outOfOrder (s : State) (l : Layer) (op wave : Nat) (reverse : Bool) : Bool :=
  match nget s.orders l.routeAddr with
  | none => true
  | some o =>
    let d := if reverse then 1 else 0
    let all := fun d => (List.range l.waveLimit).all fun w => o.done.contains (2 * d + 1, w)
    if op = 1 then o.grantIssued
    else if op = 2 then !o.granted || decide (l.waveLimit ≤ wave) || o.issued.contains (2 * d, wave) || (reverse && o.sums == 0)
    else if op = 3 then !o.done.contains (2 * d, wave) || o.issued.contains (2 * d + 1, wave)
    else !all (if o.sums == 0 then 0 else 1)

/-- The registers of a Curator stream show the command (06 R188). -/
def showCurator (sid a op wave sn : Nat) : Prog := seqs
  [setF (Reg.curStrmLayerLo sid) (a % 2 ^ 32), setF (Reg.curStrmLayerHi sid) (a / 2 ^ 32), setF (Reg.curStrmOp sid) op,
   setF (Reg.curStrmWave sid) wave, setF (Reg.curStrmSeq sid) sn]

/-- GRANT, DISPATCH or RETURN begins. -/
def exchangeProg (sid : Nat) (c : Cmd) : Prog := withS fun s =>
  let d := c.desc
  let op := dOp d
  let a := daddr d 8 9 12
  let l := s.layer a
  let g := l.group
  let sn := dword d 10
  let wave := dfld d 11 8 6
  let rev := dfld d 11 16 1 == 1
  if c.phase = 1 then
    match s.stages.find? fun e => e.2.cmd == some (sid, c.acc) && e.2.result.isNone with
    | some e => advance (e.1 / 2 ^ 32) (e.1 % 2 ^ 32)
    | none => skip
  else match (if op = 3 && decide (3 < dfld d 11 20 4) then some Status.descriptorFault else none).or (s.layerFault a) with
    | some st => endCmd sid c st
    | none =>
      if s.outOfOrder l op wave rev || sn != s.fld (Reg.colGrpNextSeq g) then endCmd sid c .sequenceFault
      else if 4 ≤ s.fld (Reg.colGrpInflight g) then skip
      else seqs
        [takeStage g sn sid c l (((nget s.orders l.routeAddr).map (·.route)).getD (0, 0)) 0 none [],
         setF Reg.curActive (s.fld Reg.curActive + 1), touch false (requesterOf sid) a 128,
         showCurator sid a op (if op = 1 then 0 else wave) sn,
         given (nget s.orders l.routeAddr) fun o => emit [.order l.routeAddr (some
           (if op = 1 then { o with grantIssued := true }
            else { o with issued := o.issued ++ [(2 * (if rev then 1 else 0) + (if op = 2 then 0 else 1), wave)] }))],
         sendCounts g sn, advance g sn]

/-! What reaches a stage from outside. -/

/-- The number has not been used since the group's next number was last set: what is heard of it belongs to an attempt to come. -/
def State.isFuture (s : State) (g sn : Nat) : Bool := decide ((sn + 2 ^ 32 - s.fld (Reg.colGrpNextSeq g)) % 2 ^ 32 < 2 ^ 31)

/-- A record of an earlier attempt of a number to come is dropped. -/
def freshen (g sn : Nat) : Prog := withS fun s =>
  onlyIf (s.isFuture g sn && (s.stage g sn).cmd.isSome) (emit [.stage (stageKey g sn) Stage.empty])

/-- STAGE_ADMISSION: the first message of a member that must be counted is its counts; the other is its admission, which the
coordinator alone hears (09 R270, 06 R171). -/
def admissionProg (g sn rank : Nat) (sig : StageSig) (ref : Option Status) (counts : List Nat) : Prog := withS fun s =>
  if 64 ≤ g ∨ s.fld (Reg.colGrpState g) ≠ 2 ∨ (s.members g).length ≤ rank ∨ rank = s.fld (Reg.colGrpMyRank g) then skip
  else seq (freshen g sn) (withS fun s =>
    let y := s.stage g sn
    let isCounts := (sig.opcode == 3 || sig.opcode == 0x1001) && (nget y.counts rank).isNone
    if isCounts && y.overdue then lateStage g sn
    else if isCounts then seq (updStage g sn fun z => { z with counts := nset z.counts rank counts }) (advance g sn)
    else if !s.coordinates g then skip
    else if y.decided then onlyIf (!y.adms.any (·.rank == rank)) (lateStage g sn)
    else if y.adms.any (·.rank == rank) then skip
    else seq (updStage g sn fun z => { z with adms := z.adms ++ [⟨rank, sig, ref, counts⟩] }) (advance g sn))

/-- STAGE_GO. -/
def goProg (g sn : Nat) (info : List Nat) : Prog := withS fun s =>
  match s.ctx g sn with
  | some x => if x.isCommit || !x.st.admitted || x.me == 0 then skip else seq (goHere g sn info) (advance g sn)
  | none => onlyIf (!(s.stage g sn).go) (ifOverdue g sn)

/-- STAGE_TIMEOUT (09 R271): the coordinator takes the members it has not heard as refusing; any other member, or any member after GO,
ends with TIMEOUT and reports it. A timeout of 0 waits without limit, and COMMIT has its own. -/
def stageTimeoutProg (g sn : Nat) : Prog := onStage g sn fun x => withS fun s =>
  let limit := if x.isCur then s.fld Reg.curXchgTimeout else s.fld (Reg.colGrpTimeout g)
  if limit = 0 || x.isCommit then skip
  else if x.me = 0 && !x.st.decided then
    seq (onlyIf (!x.st.admitted) (updStage g sn fun y => { y with adms := y.adms ++ [⟨0, s.sigOf x, some .timeout, []⟩] }))
      (decide_ g sn true)
  else if x.me = 0 then seqs [coordFail g sn .timeout]
  else seq (failStage x .timeout) (tell x 0 (.report .timeout))

/-- CHUNK_ARRIVAL (09 R278). -/
def chunkProg (g sn q n : Nat) (payload : List Byte) (check : BitVec 64) : Prog := withS fun s =>
  match s.ctx g sn with
  | none => onlyIf (s.stage g sn).result.isSome (lateStage g sn)
  | some x =>
    if !x.st.granted.contains q || q == x.me then skip
    else if x.st.got.contains (q, n) then lateStage g sn
    else given (x.chunkLen s q n) fun l =>
      let fl := if x.exact && x.dtype == 2 && !l.1 then cdiv (l.2.2 / 128) 4 else 0
      if payload.length ≠ l.2.2 + fl then skip
      else if crc64 (payload.take l.2.2) = check then
        seq (updStage g sn fun y => { y with got := y.got ++ [(q, n)], early := y.early ++ [(q, .chunk n q payload check)] }) (advance g sn)
      else
        let tries := (x.st.fails.filter (· == (q, n))).length
        seqs [incF Reg.colCheckFails, updStage g sn fun y => { y with fails := y.fails ++ [(q, n)] },
          logDetect false 0x0B g sn (q * 2 ^ 32 + n) 1 .checkFault,
          if s.fld Reg.colRetryLimit ≤ tries then reportFail x .checkFault
          else seq (tell x q (.retransmit n)) (incF Reg.colRetransmits)]

/-- After a port went down, chunks may be missing (10 R292): of each source granted a credit, every number below the highest accepted and the
one after it are asked for again. A source that has not sent one ignores the request (log 73). -/
def askMissing : Prog := withS fun s =>
  forEach s.stages fun e => onStage (e.1 / 2 ^ 32) (e.1 % 2 ^ 32) fun x =>
    onlyIf x.st.begun (forEach (x.st.granted.filter (· != x.me)) fun q =>
      let seen := (x.st.got.filter (·.1 == q)).map (·.2)
      forEach ((List.range (seen.foldl (fun m n => max m (n + 1)) 0 + 1)).filter fun n => !seen.contains n && (x.chunkLen s q n).isSome) fun n =>
        seq (tell x q (.retransmit n)) (incF Reg.colRetransmits))

/-- A row of port `p`: where it takes the port from ACTIVE, chunks that were lost with it are asked for again (10 R292). -/
def portRow (p : Nat) (k : Prog) : Prog := withS fun s =>
  seq k (withS fun t => onlyIf (decide (p < 36) && s.fld (Reg.chnPortState p) == 7 && t.fld (Reg.chnPortState p) != 7) askMissing)

/-- CHUNK_RETRANSMIT: the held copy is sent again (09 R278). -/
def retransmitProg (g sn r n : Nat) : Prog := onStage g sn fun x =>
  given (x.st.held.find? fun h => h.out.contains (r, n)) fun h => sendChunk x r n h

/-- CHUNK_ACK: a chunk that every receiver has acknowledged leaves its cells; one that was forwarded is then acknowledged to its sender. -/
def chunkAckProg (g sn r n : Nat) : Prog := seqs
  [ifOverdue g sn,
   onStage g sn fun x =>
     let held := x.st.held.map fun h => { h with out := h.out.filter (· != (r, n)) }
     seq (updStage g sn fun y => { y with held := held.filter fun h => !(h.due.isEmpty && h.out.isEmpty) })
       (forEach (held.filter fun h => h.due.isEmpty && h.out.isEmpty) fun h => given h.up fun u => tell x u.1 (.ack u.2)),
   advance g sn]

/-- CREDIT_GRANT (09 R266, R275): as receiver this member grants its sources credits in ascending rank, once it has issued the stage;
as source it may then send. A credit for a stage this member has not issued yet is kept for it. -/
def creditProg (g sn receiver source : Nat) : Prog := withS fun s =>
  let n := (s.members g).length
  let me := s.fld (Reg.colGrpMyRank g)
  if 64 ≤ g ∨ s.fld (Reg.colGrpState g) ≠ 2 ∨ n ≤ receiver ∨ n ≤ source then skip
  else if receiver = me then onStage g sn fun x =>
    onlyIf (!x.st.granted.contains source && (List.range source).all (x.st.granted.contains ·))
      (seqs [updStage g sn fun y => { y with granted := y.granted ++ [source] },
        onlyIf (source != x.me) (tell x source .credit), advance g sn])
  else if source ≠ me then skip
  else seqs [freshen g sn, ifOverdue g sn, withS fun s =>
    let y := s.stage g sn
    onlyIf (y.result.isNone && (y.cmd.isSome || s.isFuture g sn) && !y.credits.contains receiver)
      (seq (updStage g sn fun y => { y with credits := y.credits ++ [receiver] }) (advance g sn))]

/-- STAGE_COMPLETION_REPORT at the coordinator (09 R270–R272): a member's TIMEOUT before the outcome counts as its refusal. -/
def reportProg (g sn rank : Nat) (st : Status) : Prog := withS fun s =>
  let y := s.stage g sn
  if 64 ≤ g ∨ !s.coordinates g || rank == 0 || decide ((s.members g).length ≤ rank) then skip
  else if !y.decided then
    onlyIf (st != .ok) (seq (updStage g sn fun z => { z with
        adms := z.adms.filter (·.rank != rank) ++
          [⟨rank, ((z.adms.find? (·.rank == rank)).map (·.sig)).getD ((z.adms.head?.map (·.sig)).getD ⟨0, 0, 0, 0, 0, 0, 0⟩), some st, []⟩] })
      (advance g sn))
  else if st = .ok then onlyIf (!y.reports.contains rank) (updStage g sn fun z => { z with reports := z.reports ++ [rank] })
  else coordFail g sn st

/-- COMMIT_DECISION: a member that does not coordinate learns it; after its timeout the decision is late (01 R26, 09 R271). -/
def decisionProg (g sn : Nat) (commit : Bool) (epoch : Nat) : Prog := seq (ifOverdue g sn) (onStage g sn fun x =>
  onlyIf (x.me != 0) (decisionHere g sn commit epoch))

/-- COMMIT_TIMEOUT (09 R280, R281): the coordinator decides DISCARD for want of an admission; a member without a decision ends with
UNKNOWN and its epoch is unchanged. -/
def commitTimeoutProg (g sn : Nat) : Prog := onStage g sn fun x =>
  if !x.isCommit then skip
  else if x.me = 0 then decide_ g sn true
  else seqs [setF Reg.colDecision 3, setF Reg.colDecisionSeq sn, setF Reg.colDecisionGroup g, endStage x .unknown]

/-- A package is declared unreachable (09 R272): after GO each unfinished stage of a group it belongs to reports DEAD_TARGET. -/
def stageDead (pkg : Nat) : Prog := withS fun s =>
  forEach s.stages fun e => onStage (e.1 / 2 ^ 32) (e.1 % 2 ^ 32) fun x =>
    onlyIf (x.st.go && x.ms.contains pkg) (reportFail x .deadTarget)

/-- TOKEN_ARRIVAL: a row of a DISPATCH this member has issued, from a source it granted a credit (06 R175). -/
def tokenProg (g sn q token : Nat) (copies : List CopyEntry) (row : List Byte) : Prog := withS fun s =>
  match s.ctx g sn with
  | none => onlyIf (s.stage g sn).result.isSome (lateStage g sn)
  | some x => onlyIf (x.isStage 2 && x.st.granted.contains q && q != x.me)
      (seq (updStage g sn fun y => { y with early := y.early ++ [(q, .row (tokenHeader token copies) row)] }) (advance g sn))

/-! The commands. -/

/-- GROUP_CREATE (09 R262). -/
def execGroupCreate (g : Nat) (s : State) : Out := .next (run (groupCreateProg g) s)

/-- GROUP_RELEASE (09 R262). -/
def execGroupRelease (g : Nat) (s : State) : Out := .next (run (groupReleaseProg g) s)

/-- COL_GRP_NEXT_SEQ_WRITE (09 R264). -/
def execColGrpNextSeqWrite (g value : Nat) (s : State) : Out := .next (run (nextSeqProg g value) s)

/-- ALL_REDUCE (09 R276). -/
def execAllReduce (sid acc : Nat) (s : State) : Out := .next (run (onIssued sid acc 0x11 0 (collectiveProg sid)) s)

/-- REDUCE_SCATTER (09 R275). -/
def execReduceScatter (sid acc : Nat) (s : State) : Out := .next (run (onIssued sid acc 0x11 1 (collectiveProg sid)) s)

/-- ALL_GATHER (09 R267). -/
def execAllGather (sid acc : Nat) (s : State) : Out := .next (run (onIssued sid acc 0x11 2 (collectiveProg sid)) s)

/-- ALL_TO_ALL_V (09 R279). -/
def execAllToAllV (sid acc : Nat) (s : State) : Out := .next (run (onIssued sid acc 0x11 3 (collectiveProg sid)) s)

/-- BROADCAST (09 R267). -/
def execBroadcast (sid acc : Nat) (s : State) : Out := .next (run (onIssued sid acc 0x11 4 (collectiveProg sid)) s)

/-- BARRIER (09 R270). -/
def execBarrier (sid acc : Nat) (s : State) : Out := .next (run (onIssued sid acc 0x11 5 (collectiveProg sid)) s)

/-- COMMIT (09 R280). -/
def execCommit (sid acc : Nat) (s : State) : Out := .next (run (onIssued sid acc 0x11 6 (collectiveProg sid)) s)

/-- STAGE_ADMISSION (09 R270). -/
def execStageAdmission (g seq rank : Nat) (sig : StageSig) (refusal : Option Status) (counts : List Nat) (s : State) : Out := .next (run (admissionProg g seq rank sig refusal counts) s)

/-- STAGE_GO (09 R270). -/
def execStageGo (g seq : Nat) (info : List Nat) (s : State) : Out := .next (run (goProg g seq info) s)

/-- STAGE_FAIL (09 R272). -/
def execStageFail (g seq : Nat) (st : Status) (s : State) : Out := .next (run (failHere g seq st) s)

/-- STAGE_TAINT (09 R273). -/
def execStageTaint (g seq : Nat) (st : Status) (s : State) : Out := .next (run (failHere g seq st) s)

/-- STAGE_TIMEOUT (09 R271). -/
def execStageTimeout (g seq : Nat) (s : State) : Out := .next (run (stageTimeoutProg g seq) s)

/-- CHUNK_ARRIVAL (09 R278). -/
def execChunkArrival (g seq srcRank chunk : Nat) (payload : List Byte) (check : BitVec 64) (s : State) : Out := .next (run (chunkProg g seq srcRank chunk payload check) s)

/-- CHUNK_RETRANSMIT (09 R278). -/
def execChunkRetransmit (g seq dstRank chunk : Nat) (s : State) : Out := .next (run (retransmitProg g seq dstRank chunk) s)

/-- CHUNK_ACK (09 R278). -/
def execChunkAck (g seq dstRank chunk : Nat) (s : State) : Out := .next (run (chunkAckProg g seq dstRank chunk) s)

/-- CREDIT_GRANT (09 R266). -/
def execCreditGrant (g seq receiver source : Nat) (s : State) : Out := .next (run (creditProg g seq receiver source) s)

/-- STAGE_COMPLETION_REPORT (09 R270). -/
def execStageCompletionReport (g seq rank : Nat) (st : Status) (s : State) : Out := .next (run (reportProg g seq rank st) s)

/-- COMMIT_DECISION (09 R280). -/
def execCommitDecision (g seq : Nat) (commit : Bool) (epoch : Nat) (s : State) : Out := .next (run (decisionProg g seq commit epoch) s)

/-- COMMIT_TIMEOUT (09 R281). -/
def execCommitTimeout (g seq : Nat) (s : State) : Out := .next (run (commitTimeoutProg g seq) s)

/-- COL_STEP_OK_WRITE (09 R282). -/
def execColStepOkWrite (value : Nat) (s : State) : Out := .next (run (stepOkProg value) s)

end Sys2Proof.Machine
end

