-- ==== Sys2Proof/Machine/Curator.lean ====
section
/-! DEFINITION. The Curator's local commands, ROUTE and SUM (06 R158–R164, R167–R170, R178), and the rows of its stages. -/

namespace Sys2Proof.Machine

/-- A ROUTE that completes with OK begins a new stage order of its record; one that ends in error leaves none (06 R181). -/
def routeEnd (sid : Nat) (c : Cmd) (l : Layer) (st : Status) : Prog :=
  seq (emit [.order l.routeAddr (if st = .ok then some (RouteOrder.fresh sid c.acc) else none)]) (endCmd sid c st)

/-- The extents of ROUTE (06 R162 step 6): read ones, written ones, the histogram, whose words the Vault's atomics take 4-byte aligned
(07 R219). -/
def State.routeExtentsOk (s : State) (who : Requester) (l : Layer) (m : Nat) : Bool :=
  s.reach who .read l.logits (l.logitMat m).tileBytes &&
  (!l.biasEn || s.reach who .read (laddr l 2) (4 * l.experts)) &&
  s.placeReach who l &&
  s.reach who .write l.routeAddr (64 + 16 * m * l.k) &&
  s.reach who .write l.sendAddr (2048 + 8 * m * min l.k l.members) &&
  (!l.histEn || (s.inScratch l.histAddr (16 * l.experts) && l.histAddr % 4 == 0))

/-- What ROUTE reads: the logits, the bias, the placement table. -/
def routeReads (l : Layer) (m : Nat) : List (Nat × Nat) :=
  (l.logits, (l.logitMat m).tileBytes) :: (l.placeAddr, 64 + 64 * l.experts) :: if l.biasEn then [(laddr l 2, 4 * l.experts)] else []

/-- The tokens in ascending order: a token's row is read and its K slots are written before the next row is read; a row that is bad ends
them (06 R160). `k` is told the tokens written, in descending order, and the bad one. -/
def routeRows (who : Requester) (l : Layer) (m : Nat) (k : List (Nat × List Slot) → Option Nat → Prog) :
    List Nat → List Nat → List (Nat × List Slot) → Prog
  | [], _, acc => k acc none
  | t :: r, counts, acc => withS fun s =>
    match s.tokenSlots l m l.rank counts t with
    | none => k acc (some t)
    | some slots => seq (forEach slots.zipIdx fun x => writeBytes who (slotAddr l t x.2) x.1.bytes)
        (routeRows who l m k r (countRoutes counts slots) ((t, slots) :: acc))

/-- Progress marks of ROUTE: every 4,096 tokens (16 Table 5). -/
def routeMarks (sid : Nat) (c : Cmd) (tokens : Nat) : Prog :=
  forEach (List.range (tokens / 4096)) fun i => markCmd sid c (4096 * (i + 1))

/-- CHOSEN counts go to the histogram by Vault atomics (06 R184). -/
def addChosen (who : Requester) (l : Layer) (ts : List (Nat × List Slot)) : Prog :=
  let chosen := fun e => ((ts.map fun t => (t.2.filter (·.expert == e)).length)).foldl (· + ·) 0
  onlyIf l.histEn (forEach (List.range l.experts) fun e =>
    onlyIf (chosen e != 0) (atomicApply who 0x0 (l.histAddr + 16 * e) false (chosen e) 0 fun _ => skip))

/-- What ROUTE does once its checks have passed (06 R160, R167–R169, R184). Its slots are narrower than a line, so it has found the lines of
its record undamaged (16 R444). -/
def routeWork (sid : Nat) (c : Cmd) (l : Layer) (m : Nat) : Prog :=
  let who := requesterOf sid
  routeRows who l m (fun rev bad =>
    let ts := rev.reverse
    seqs
      [incF Reg.curRoutes ((ts.map fun t => t.2.length).foldl (· + ·) 0), routeMarks sid c ts.length,
       match bad with
       | some t => seqs [incF Reg.curNonfinite,
          logEv (.stream sid) c.acc .numericFail (dTag c.desc) false (.numeric t 0 l.logitFmt 0 0), routeEnd sid c l .numericFail]
       | none => withS fun s => match s.writeHurt l.sendAddr (sendBytes (sendLists l.members ts)).length with
        | some st => routeEnd sid c l st
        | none => seqs
          [writeBytes who l.sendAddr (sendBytes (sendLists l.members ts)),
           writeBytes who l.routeAddr (headerBytes m l.k 0 false l.placeGen (dTag c.desc) 0),
           addChosen who l ts, routeEnd sid c l .ok]])
    (List.range m) (List.replicate l.experts 0) []

/-- ROUTE. One that ends before its layer record can be read names no route record and leaves every stage order as it is (log 63). -/
def routeProg (sid : Nat) (c : Cmd) : Prog := withS fun s =>
  let d := c.desc
  let a := daddr d 8 9 12
  let l := s.layer a
  let who := requesterOf sid
  match s.layerFault a with
  | some st => if st = .descriptorFault then routeEnd sid c l st else endCmd sid c st
  | none => match s.shapeFault sid d with
    | some st => routeEnd sid c l st
    | none =>
      let m := s.countOf sid d 0 (dword d 10)
      if 262144 < m then routeEnd sid c l .descriptorFault
      else if m = 0 then routeEnd sid c l .ok
      else match firstFault
          [(decide (lfld l 14 0 32 < 64 + 16 * m * l.k) || decide (lfld l 15 0 32 < 2048 + 8 * m * min l.k l.members), .sizeFault),
           (!s.routeExtentsOk who l m, .addressFault)] with
        | some st => routeEnd sid c l st
        | none => match s.readHurt l.placeAddr (64 + 64 * l.experts) with
          | some st => routeEnd sid c l st
          | none =>
            if !s.placeOk l then routeEnd sid c l .placementFault
            else whenReady ([(true, l.routeAddr, 64 + 16 * m * l.k), (true, l.sendAddr, 2048 + 8 * m * min l.k l.members)] ++
                l.histExts ++ readExts (routeReads l m)) (seqs
              [startCmd sid c, touch false who a 128, showCurator sid a 0 0 0,
               match (s.anyHurt (routeReads l m ++ [(l.routeAddr, 64 + 16 * m * l.k)])).or (s.histFault who l) with
               | some st => routeEnd sid c l st
               | none => seq (touchAll who (routeReads l m)) (routeWork sid c l m)])

/-- SUM's completion counts in the stage order. -/
def sumEnd (sid : Nat) (c : Cmd) (l : Layer) : Prog := withS fun s =>
  seq (given (nget s.orders l.routeAddr) fun o => emit [.order l.routeAddr (some { o with sums := o.sums + 1 })]) (endCmd sid c .ok)

/-- SUM (06 R178, R180); its place in the stage order is told by the SUMs before it, not by WEIGHTED (06 R181, log 33). -/
def sumProg (sid : Nat) (c : Cmd) : Prog := withS fun s =>
  let d := c.desc
  let a := daddr d 8 9 12
  let l := s.layer a
  let who := requesterOf sid
  let weighted := dfld d 11 16 1 == 1
  let outFmt := dfld d 11 24 4
  let src := daddr d 12 13 12
  let out := daddr d 14 15 12
  match (if decide (3 < dfld d 11 20 4) || !(outFmt == 0 || outFmt == 1 || outFmt == 0xF) then some Status.descriptorFault
      else none).or (s.layerFault a) with
  | some st => endCmd sid c st
  | none =>
    if s.outOfOrder l 4 0 false then endCmd sid c .sequenceFault
    else
      let m := s.recordTokens l (dfld d 11 0 8)
      if m = 0 then sumEnd sid c l
      else
        let sm := routeBuffer l src (dfld d 11 20 4) m
        let om : Mat := ⟨out, outFmt, 16, false, false, m, l.h⟩
        match firstFault
          [(decide (4096 * dfld d 15 12 20 < om.tileBytes), .sizeFault),
           (!s.reach who .read src sm.tileBytes || !s.reach who .write out om.tileBytes || !s.reach who .read l.routeAddr (64 + 16 * m * l.k),
            .addressFault)] with
        | some st => endCmd sid c st
        | none =>
          let reads := [(src, sm.tileBytes), (l.routeAddr, 64 + 16 * m * l.k)]
          whenReady ((true, out, om.tileBytes) :: readExts reads) (seqs
            [startCmd sid c, touch false who a 128, showCurator sid a 4 0 0,
             match (s.anyHurt reads).or (s.piecesHurt ((List.range m).flatMap fun t => rowPieces om t (List.replicate l.h 0))) with
             | some st => endCmd sid c st
             | none => seqs [touchAll who reads,
                forEach (List.range m) fun t => withS fun u =>
                  forEach (rowPieces om t ((List.range l.h).map fun i => enc (elemFmt outFmt) (fp32.decode (u.sumElem l sm weighted t i))))
                    fun w => writeBytes who w.1 w.2,
                sumEnd sid c l]])

/-- CUR_CNT_CLEAR (06 R187). -/
def curClearProg : Prog := seqs [setF Reg.curRoutes 0, setF Reg.curRowsSent 0, setF Reg.curCopies 0, setF Reg.curDropped 0]

/-! The commands. -/

/-- ROUTE (06 R160). -/
def execRoute (sid acc : Nat) (s : State) : Out := .next (run (onIssued sid acc 0x10 0 (routeProg sid)) s)

/-- GRANT (06 R171). -/
def execGrant (sid acc : Nat) (s : State) : Out := .next (run (onIssued sid acc 0x10 1 (exchangeProg sid)) s)

/-- DISPATCH (06 R174). -/
def execDispatch (sid acc : Nat) (s : State) : Out := .next (run (onIssued sid acc 0x10 2 (exchangeProg sid)) s)

/-- TOKEN_ARRIVAL (06 R175). -/
def execTokenArrival (g seq srcRank token : Nat) (copies : List CopyEntry) (row : List Byte) (s : State) : Out := .next (run (tokenProg g seq srcRank token copies row) s)

/-- RETURN (06 R177). -/
def execReturnRows (sid acc : Nat) (s : State) : Out := .next (run (onIssued sid acc 0x10 3 (exchangeProg sid)) s)

/-- SUM (06 R178). -/
def execSum (sid acc : Nat) (s : State) : Out := .next (run (onIssued sid acc 0x10 4 (sumProg sid)) s)

/-- CUR_CNT_CLEAR (06 R187). -/
def execCurCntClear (s : State) : Out := .next (run (curClearProg) s)

end Sys2Proof.Machine
end

