-- ==== Sys2Proof/Machine/Fabric.lean ====
section
/-! DEFINITION. The Chener fabric (chapter 10) but for the DMA class: requests served as target, order states, resync, reachability of
this package, ports, training, frames and lanes. -/

namespace Sys2Proof.Machine

/-! Shared pieces. -/

/-- Effectful requests: writes, atomics and flag operations (10 R306). -/
def effectful : PktType → Bool
  | .write => true
  | .atomic => true
  | .flag => true
  | _ => false

/-- A packet with nothing set. -/
def Packet.blank : Packet :=
  ⟨.ctl, 4, false, false, false, false, 0, 0, 0, 0, 0, 0, 0, false, 0, .ok, 0, 0, 0, 0, 0, 0, []⟩

/-- `a` lies after `b` among 32-bit numbers compared modulo 2^32 (10 R308). -/
def after32 (a b : Nat) : Bool := let d := (a + 2 ^ 32 - b) % 2 ^ 32; d != 0 && decide (d < 2 ^ 31)

/-! The target of a request (10 R309–R313). -/

/-- The key of the applied window that the Vault of die `d` keeps for source `src`. -/
def targetKey (d src : Nat) : Nat := 4096 * d + src

/-- The applied window of a source in the Vault of die `d`. -/
def State.target (s : State) (d src : Nat) : Target := (nget s.fab.targets (targetKey d src)).getD Target.fresh

/-- The order state of a source. -/
def State.orderOf (s : State) (src : Nat) : Order := (nget s.fab.orders src).getD Order.fresh

/-- A window is replaced. -/
def setTarget (d src : Nat) (t : Target) : Prog := updFab fun x => { x with targets := nset x.targets (targetKey d src) t }

/-- An order state is replaced. -/
def setOrder (src : Nat) (o : Order) : Prog := updFab fun x => { x with orders := nset x.orders src o }

/-- The Ledger source of the Vault of die `d`. -/
def vaultSrc (d : Nat) : Src := .unit (0x150 + d)

/-- A run of evicted entries is appended as one APPLIED_RUN event (16 R453). -/
def logRun (d src : Nat) (run : Option (Nat × Nat)) : Prog :=
  given run fun r => logEv (vaultSrc d) 0 .ok 0 false (.appliedRun src r.1 r.2)

/-- An entry leaves a window for its run; a run ends when an eviction falls beyond it. An entry that a query inserted as refused was
not applied, and its bit stays clear (16 R453). -/
def evict (d src : Nat) (e : Nat × Status × Nat) (run : Option (Nat × Nat)) (k : Option (Nat × Nat) → Prog) : Prog :=
  let base := e.1 / 128 * 128
  let b := if e.2.1 = .staleAccession then 0 else 2 ^ (e.1 % 128)
  match run with
  | some r => if r.1 = base then k (some (base, r.2 ||| b)) else seq (logRun d src run) (k (some (base, b)))
  | none => k (some (base, b))

/-- An accession is entered in a window in its place. -/
def windowInsert (w : List (Nat × Status × Nat)) (e : Nat × Status × Nat) : List (Nat × Status × Nat) :=
  w.takeWhile (fun x => x.1 < e.1) ++ e :: w.dropWhile (fun x => x.1 < e.1)

/-- `insert` of 10 R309: the lowest entry leaves a full window; a fresh window takes the accession as its floor (14 R410). -/
def insertApplied (d src : Nat) (e : Nat × Status × Nat) : Prog := withS fun s =>
  let t := s.target d src
  let w := windowInsert t.window e
  let keep : Target := { t with highest := max t.highest e.1, floor := if t.floor = 0 then e.1 else t.floor }
  match w with
  | lowest :: rest =>
    if w.length ≤ 4096 then setTarget d src { keep with window := w }
    else evict d src lowest t.run fun run => setTarget d src { keep with window := rest, run := run }
  | [] => skip

/-- The reply to a request. -/
def respond (p : Packet) (type : PktType) (st : Status) (v : Nat) (data : List Byte) : Prog := withS fun s =>
  sendPacket { Packet.blank with type := type, cls := 1, src := s.me, dst := p.src, acc := p.acc, ordSeq := p.ordSeq, lpa := p.lpa,
                                 length := data.length, status := st, v := v, payload := data }

/-- The reply of an effectful request: the stored or new result. ATOMIC_DATA carries the old value in V. -/
def respondResult (p : Packet) (st : Status) (old : Nat) : Prog :=
  if st ≠ .ok then respond p .refuse st 0 [] else if p.type = .atomic then respond p .atomicData .ok old [] else respond p .ack .ok 0 []

/-- The die whose Vault serves a request: the home of its address, or of its flag (10 R309). Other addresses have none. -/
def State.dieOfPacket (s : State) (p : Packet) : Option Nat :=
  if p.type = .flag then (if 0x09100000000 ≤ p.lpa ∧ p.lpa < 0x09100010000 then some ((p.lpa - 0x09100000000) / 0x100 / 128) else none)
  else if p.lpa < 0x09000000000 then some (s.homeDie p.lpa) else none

/-- What a request that may not be made at the target ends with (01 R29, R34; 10 R302, R304). -/
def State.targetFault (s : State) (p : Packet) : Option Status :=
  match p.type with
  | .atomic => s.atomicFault (.remote p.src) p.atomicOp p.lpa p.size8
  | .flag =>
    let n := (p.lpa - 0x09100000000) / 0x100
    firstFault [(p.lpa % 4 != 0 || decide (0xC0 ≤ p.lpa % 0x100) || p.fop == 3, .addressFault), (s.outOfService n, .unitFault)]
  | .write => if s.atVault p.lpa p.length && s.reach (.remote p.src) .write p.lpa p.length then s.writeHurt p.lpa p.length else some .addressFault
  | _ => if s.atVault p.lpa p.length && s.reach (.remote p.src) .read p.lpa p.length then s.readHurt p.lpa p.length else some .addressFault

/-- `apply(request)`, and `k` is told the result. -/
def applyRequest (p : Packet) (k : Status → Nat → Prog) : Prog := withS fun s =>
  match s.targetFault p with
  | some st => k st 0
  | none =>
    match p.type with
    | .atomic => atomicApply (.remote p.src) p.atomicOp p.lpa p.size8 p.v p.c fun old => k .ok old
    | .flag => seq (flagOp ((p.lpa - 0x09100000000) / 0x100) (p.lpa % 0x100 / 4) p.fop p.v (.remote p.src p.acc)) (k .ok 0)
    | _ => seq (writeBytes (.remote p.src) p.lpa (p.payload.take p.length)) (k .ok 0)

/-- A number is applied or refused: the mark passes every number served without a gap (10 R311). -/
def Order.advance (o : Order) (n : Nat) : Order :=
  let beyond := if after32 n o.mark then n :: o.beyond else o.beyond
  let mark := (List.range (beyond.length + 1)).foldl
    (fun m _ => if beyond.contains ((m + 1) % 2 ^ 32) then (m + 1) % 2 ^ 32 else m) o.mark
  { o with mark := mark, beyond := beyond.filter fun b => after32 b mark }

/-- The row of a request packet. -/
def rowOf (p : Packet) : Instr :=
  match p.type with
  | .write => .write p
  | .atomic => .remoteAtomic p
  | .flag => .remoteFlag p
  | _ => .read p

/-- A request is refused as stale: below a full window or below its floor, or a copy that meets a fresh window (10 R309, 14 R410). -/
def Target.refuses (t : Target) (p : Packet) : Bool :=
  if t.floor = 0 then p.retry
  else decide (p.acc < t.floor) ||
    match t.window with
    | e :: _ => decide (4096 ≤ t.window.length) && decide (p.acc < e.1)
    | [] => false

/-- A request is served at its target Vault, as the text of 10 R309 has it; `done` follows once it is applied or refused. One whose line the
Vault holds up waits there (07 R195, R209), and is served from there. -/
def serveRequest (p : Packet) (done : Prog) : Prog := withS fun s =>
  match s.dieOfPacket p with
  | none => seq (respond p .refuse .addressFault 0 []) done
  | some d =>
    let t := s.target d p.src
    match t.window.find? (·.1 == p.acc) with
    | some e => seqs [respondResult p e.2.1 e.2.2, incF Reg.chnDupHits, done]
    | none =>
      if t.refuses p then seqs [respond p .refuse .staleAccession 0 [], incF Reg.chnStale, done]
      else orHeld d (rowOf p) (packetExts p)
        (applyRequest p fun st old => seqs [insertApplied d p.src (p.acc, st, old), respondResult p st old, done])

/-- CHN_ORDER_HELD follows the requests held. -/
def showHeld : Prog := withS fun s => setF Reg.chnOrderHeld ((s.fab.orders.map fun o => o.2.held.length).foldl (· + ·) 0)

/-- Held requests leave the ORDER pool. -/
def dropHeld (ps : List Packet) : Prog := seq (forEach ps fun p => freeCells 4 (chainCells p.length)) showHeld

/-- A request served moves the order mark of its source. -/
def markServed (p : Packet) : Prog := withS fun s => setOrder p.src ((s.orderOf p.src).advance p.ordSeq)

/-- Held requests whose turn has come are released to their Vault, oldest number first (10 R311). -/
def releaseHeldOrders : Nat → Nat → Prog
  | 0, _ => skip
  | n + 1, src => withS fun s =>
    let o := s.orderOf src
    match o.held.find? fun p => !after32 ((p.ordSeq + 2 ^ 32 - 1) % 2 ^ 32) o.mark with
    | none => skip
    | some p => seqs
        [setOrder src { o with held := o.held.filter (· != p) }, dropHeld [p],
         serveRequest p (markServed p), releaseHeldOrders n src]

/-- An effectful request is served, and what its order number makes way for. -/
def serveOrdered (p : Packet) : Prog :=
  serveRequest p (seq (markServed p)
    (withS fun t => releaseHeldOrders ((t.orderOf p.src).held.length + 1) p.src))

/-- An effectful request arrives at its target (10 R309, R311, R312). -/
def effectfulArrival (p : Packet) : Prog := withS fun s =>
  let o := s.orderOf p.src
  let ordered := p.flagged || p.ordered
  let closedOff := o.ranges.any fun r => !after32 r.1 p.ordSeq && !after32 p.ordSeq r.2
  if closedOff || (ordered && o.closed) then lateProg .order
  else if ordered && after32 ((p.ordSeq + 2 ^ 32 - 1) % 2 ^ 32) o.mark then
    if o.held.any (·.acc == p.acc) then skip
    else if 3 ≤ s.fld (Reg.vatLevel 4) then seq (respond p .nak .ok 0 []) (incF (Reg.vatRefused 4))
    else seqs [setOrder p.src { o with held := o.held ++ [p] }, takeCells 4 (chainCells p.length), showHeld]
  else serveOrdered p

/-- A packet of the rack reaches this package as its target: the fabric is enabled, the packet names it and its type is the row's. -/
def State.atTarget (s : State) (p : Packet) (type : PktType) : Bool :=
  s.flagBit Reg.chnFabricEn && p.type == type && p.dst == s.me && rackOf p.src == rackOf s.me && p.src != s.me && decide (p.length ≤ 4096)

/-- An effectful request, as its row names it. -/
def requestProg (type : PktType) (p : Packet) : Prog := withS fun s =>
  onlyIf (s.atTarget p type) (seq (leaveVat p) (effectfulArrival p))

/-- A READ is served from the target's memory. -/
def serveRead (p : Packet) : Prog := withS fun s =>
  match s.targetFault p with
  | some st => respond p .refuse st 0 []
  | none => orHeld (s.homeDie p.lpa) (.read p) (packetExts p)
      (seq (touch false (.remote p.src) p.lpa p.length) (withS fun t => respond p .readData .ok 0 (t.read p.lpa p.length)))

/-- READ: in no order with anything (10 R302, R311). -/
def readProg (p : Packet) : Prog := withS fun s => onlyIf (s.atTarget p .read) (seq (leaveVat p) (serveRead p))

/-- ORDER_TIMEOUT (10 R312). -/
def orderTimeoutProg (src acc : Nat) : Prog := withS fun s =>
  let o := s.orderOf src
  given (o.held.find? (·.acc == acc)) fun p => seqs
    [setOrder src { o with held := [], closed := true,
                           ranges := ((o.mark + 1) % 2 ^ 32, (p.ordSeq + 2 ^ 32 - 1) % 2 ^ 32) :: o.ranges },
     forEach o.held fun q => seq (respond q .refuse .timeout 0 []) (incF Reg.chnOrderTimeouts),
     dropHeld o.held,
     logEv (.fabric src) acc .timeout 0 false
       (.orderTimeout src ((o.mark + 1) % 2 ^ 32) ((p.ordSeq + 2 ^ 32 - 1) % 2 ^ 32) o.held.length)]

/-- RESYNC_AT_TARGET (10 R313). -/
def resyncAtTargetProg (src ordSeq : Nat) : Prog := withS fun s =>
  let o := s.orderOf src
  onlyIf (s.flagBit Reg.chnFabricEn) (seqs
    [setOrder src { mark := ordSeq % 2 ^ 32, beyond := [], held := [], closed := false, ranges := [] },
     incF Reg.chnOrderLate o.held.length, dropHeld o.held, emit [.send (.resyncAck src)]])

/-- What 14 R410 does for a source that a declaration removes: the window's entries go to the Ledger, the window is fresh, requests
held from it are discarded, and its numbers start anew. -/
def forgetSource (src : Nat) : Prog := seqs
  [forEach [0, 1] fun d => withS fun s =>
     let t := s.target d src
     seq ((t.window.foldr (fun e k run => evict d src e run k) (fun run => logRun d src run)) t.run) (setTarget d src Target.fresh),
   logEv (.fabric src) 0 .ok 0 false (.fresh src),
   withS fun s =>
     let o := s.orderOf src
     seqs [setOrder src Order.fresh, incF Reg.chnOrderLate o.held.length, dropHeld o.held]]

/-! Resync and reissue as requester (10 R313, R316). -/

/-- CHN_BROKEN shows the marks of the rack's destinations. -/
def showBroken : Prog := withS fun s =>
  let word := fun lo => ((List.range 32).map fun i => if (nget s.fab.broken (s.inMyRack (lo + i))).isSome then 2 ^ i else 0).foldl (· + ·) 0
  seq (setF Reg.chnBrokenLo (word 0)) (setF Reg.chnBrokenHi (word 32))

/-- A destination is marked broken; the first mark stands. -/
def markBroken (dst : Nat) (st : Status) : Prog :=
  seq (updFab fun x => if (nget x.broken dst).isSome then x else { x with broken := nset x.broken dst st }) showBroken

/-- A destination the fabric reaches: routing is enabled and the package is declared reachable. -/
def State.canReach (s : State) (dst : Nat) : Bool := s.flagBit Reg.chnFabricEn && s.reachable dst

/-- A resync ends. -/
def endResync (st : Status) : Prog :=
  seqs [updFab fun x => { x with resync := none }, setF Reg.chnResyncBusy 0, setF Reg.chnResyncStatus (statusCode st)]

/-- CHN_RESYNC_GO. -/
def resyncGoProg (dest : Nat) : Prog := withS fun s =>
  let g := s.inMyRack (dest % 64)
  let last := ((nget s.fab.ordNext g).getD 1 + 2 ^ 32 - 1) % 2 ^ 32
  if s.flagBit Reg.chnResyncBusy then skip
  else if !s.canReach g then endResync .deadTarget
  else seqs [updFab fun x => { x with resync := some (g, last) }, setF Reg.chnResyncBusy 1, emit [.send (.resync g last)]]

/-- RESYNC_ACK. -/
def resyncAckProg (dest : Nat) : Prog := withS fun s =>
  match s.fab.resync with
  | some r => onlyIf (r.1 == dest) (seqs [updFab fun x => { x with broken := ndel x.broken dest }, showBroken, endResync .ok])
  | none => skip

/-! Requests outstanding, and the FENCEs that wait for them (10 R295, R306, R314). -/

/-- Cells a request reserves for its response (10 R295): the data of a READ; one cell for any other, whose REFUSE or ATOMIC_DATA is a header. -/
def responseCells (p : Packet) : Nat := if p.type = .read then chainCells p.length else 1

/-- Requests outstanding. -/
def State.openReqs (s : State) : List (Nat × Req) := s.fab.reqs.filter fun e => e.2.ended.isNone

/-- The reissue that has been sent. -/
def State.reissued (s : State) : Option Packet := if s.fab.riWaits then none else s.fab.ri

/-- The fabric unit accepts a request now: both limits of 10 R306, the REQUEST level (10 R296) and the response's cells (10 R295). -/
def State.mayInject (s : State) (p : Packet) : Bool :=
  decide (s.fld Reg.chnOutstanding < 8192) &&
  (!effectful p.type || decide ((s.openReqs.filter fun e => effectful e.2.pkt.type && e.2.pkt.dst == p.dst).length +
    (if s.reissued.any fun q => q.dst == p.dst then 1 else 0) < 1024)) &&
  decide (s.fld (Reg.vatLevel 1) < 2) &&
  decide (s.fld (Reg.vatUsed 2) + responseCells p ≤ s.fld (Reg.vatCells 2))

/-- A FENCE that no longer waits ends, with the failure of lowest accession among the requests it counted. -/
def endFences : Prog := withS fun s =>
  forEach (s.fab.fences.filter fun f => f.2.2.1.isEmpty) fun f => seqs
    [updFab fun x => { x with fences := x.fences.filter fun g => !(g.1 == f.1 && g.2.1 == f.2.1) },
     withS fun t => given ((t.strm f.1).issued.find? (·.acc == f.2.1)) fun c => endCmd f.1 c ((f.2.2.2.map (·.2)).getD .ok)]

/-- A request has ended, as the FENCEs that cover it see it. -/
def tellFences (acc : Nat) (st : Status) : Prog :=
  seq (updFab fun x => { x with fences := x.fences.map fun f =>
        if (f.2.2.1.contains acc) = false then f
        else
          let bad := if st = .ok then f.2.2.2 else match f.2.2.2 with
            | some b => if acc < b.1 then some (acc, st) else some b
            | none => some (acc, st)
          (f.1, f.2.1, f.2.2.1.filter (· != acc), bad) })
    endFences

/-- A reissue ends: its status and, with OK, the old value; a destination that did not answer is broken (10 R313, R315). One given up is
remembered, so that its late response is known (10 R316). -/
def endReissue (dst : Nat) (st : Status) (old : Nat) (gave : Bool) : Prog := withS fun s =>
  seqs [given s.reissued fun p => seqs [setF Reg.chnOutstanding (s.fld Reg.chnOutstanding - 1), freeCells 2 (responseCells p), tellFences p.acc st],
        updFab fun x => { x with ri := none, riWaits := false, riPast := if gave then x.riPast ++ (x.ri.map fun p => (p.acc, p.dst)).toList else x.riPast },
        setF Reg.chnRiBusy 0, setF Reg.chnRiStatus (statusCode st),
        onlyIf (st == .ok) (setF Reg.chnRiResult old),
        onlyIf (st == .deadTarget) (incF Reg.chnDead), onlyIf (st == .unknown) (incF Reg.chnUnknown),
        onlyIf (st == .deadTarget || st == .unknown || st == .timeout) (markBroken dst st)]

/-- The reissue leaves: it is outstanding, with the cells of its response (10 R295, R306). -/
def sendReissue (p : Packet) : Prog := withS fun s =>
  seqs [updFab fun x => { x with ri := some p, riWaits := false }, setF Reg.chnOutstanding (s.fld Reg.chnOutstanding + 1),
        takeCells 2 (responseCells p), sendPacket p]

/-- The ORD_SEQ of a reissue, which is unordered (10 R316): that of the original request while this package keeps it, else one that every
mark has long passed (log 71). -/
def State.reissueSeq (s : State) (acc dst : Nat) : Nat :=
  match (nget s.fab.reqs acc).filter fun r => r.pkt.dst == dst with
  | some r => r.pkt.ordSeq
  | none => ((nget s.fab.ordNext dst).getD 1 + 2 ^ 32 - 1 - 2 ^ 30) % 2 ^ 32

/-- CHN_RI_GO: an atomic under its original accession number, unordered. It waits at injection as any request (10 R295, R306). -/
def reissueProg : Prog := withS fun s =>
  let acc := s.fld48 Reg.chnRiAccLo Reg.chnRiAccHi
  let fpa := s.fld Reg.chnRiTgtLo + 2 ^ 32 * s.fld Reg.chnRiTgtHi
  let dst := s.inMyRack (fpa / 2 ^ 44 % 64)
  let p : Packet :=
    { Packet.blank with
        type := .atomic, cls := 0, retry := true, src := s.me, dst := dst, acc := acc, ordSeq := s.reissueSeq acc dst, lpa := fpa % 2 ^ 44,
        atomicOp := s.fld Reg.chnRiOp, size8 := s.flagBit Reg.chnRiSize8, v := s.fld Reg.chnRiV, c := s.fld Reg.chnRiC }
  if s.flagBit Reg.chnRiBusy then skip
  else if s.fld48 Reg.chnAccNextLo Reg.chnAccNextHi ≤ acc ∨ 0xB < p.atomicOp then endReissue dst .descriptorFault 0 false
  else if dst = s.me then
    (match s.atomicFault .registrar p.atomicOp p.lpa p.size8 with
    | some st => endReissue dst st 0 false
    | none => orHeld (s.homeDie p.lpa) .chnRiGo [(true, p.lpa, 4)]
        (atomicApply .registrar p.atomicOp p.lpa p.size8 p.v p.c fun old => endReissue dst .ok old false))
  else if !s.canReach dst then endReissue dst .deadTarget 0 false
  else seq (setF Reg.chnRiBusy 1)
    (if s.mayInject p then sendReissue p else updFab fun x => { x with ri := some p, riWaits := true })

/-! Reachability of this package (10 R300, R301). -/

/-- The package acting as rack master: the one named, or the reachable package of lowest in-rack index when it is declared
unreachable. -/
def showMaster : Prog := withS fun s =>
  let m := s.fld Reg.chnRackMaster
  setF Reg.chnRackMasterAct
    (if s.reachable (s.inMyRack m) then m else ((List.range 64).find? fun i => s.reachable (s.inMyRack i)).getD m)

/-- This package acts as its rack's master. -/
def State.isMaster (s : State) : Bool := s.flagBit Reg.chnFabricEn && s.fld Reg.chnRackMasterAct == s.myIndex

/-- The package that heads the system: of the master rack, the one with the in-rack index that names rack masters (10 R300, log 70). -/
def State.systemMaster (s : State) : Nat :=
  let r := s.fld Reg.chnSysMaster
  let m := s.fld Reg.chnRackMaster
  globalIndex (4 * (r % 4) + m % 4) (4 * (r / 4 % 4) + m / 4 % 4) (4 * (r / 16 % 4) + m / 16 % 4)

/-- This package acts as the master of the master rack. -/
def State.heads (s : State) : Bool := s.isMaster && rackIndex s.me == s.fld Reg.chnSysMaster

/-- A CTL packet of the masters' work: its kind in V and its value in C, a layout that the spec leaves to the firmware (log 70). -/
def sendCtl (dst kind value : Nat) : Prog := withS fun s =>
  sendPacket { Packet.blank with src := s.me, dst := dst, v := kind, c := value }

/-- The ports of this package in ACTIVE, as a mask. -/
def State.activeMask (s : State) : Nat :=
  ((List.range 36).map fun p => if s.fld (Reg.chnPortState p) = 7 then 2 ^ p else 0).foldl (· + ·) 0

/-- This package's port states reach its rack's master (10 R300): kind 1. -/
def reportPorts : Prog := withS fun s =>
  let m := s.inMyRack (s.fld Reg.chnRackMasterAct)
  if !s.flagBit Reg.chnFabricEn then skip
  else if m = s.me then updFab fun x => { x with links := nset x.links s.myIndex s.activeMask }
  else sendCtl m 1 s.activeMask

/-- CHN_FABRIC_EN: at 1 the package sets its own bit only. -/
def fabricEnProg (v : Nat) : Prog := withS fun s =>
  if v % 2 = 1 then
    onlyIf (!s.flagBit Reg.chnFabricEn)
      (seqs [setF Reg.chnFabricEn 1, setReach s.me true, setF Reg.chnRackMasterAct (s.fld Reg.chnRackMaster), reportPorts])
  else setF Reg.chnFabricEn 0

/-! Ports (10 R285–R290). -/

/-- A port's training state changes; a LINK event tells it, and the rack's master hears of a port that enters or leaves ACTIVE. -/
def portTo (p new : Nat) : Prog := withS fun s =>
  let old := s.fld (Reg.chnPortState p)
  onlyIf (old != new) (seqs
    [setF (Reg.chnPortState p) new, setF (Reg.chnPortWidth p) (if new = 7 then (s.port p).width else 0),
     logEv (.unit 0x163) 0 .ok 0 false (.link p old new), onlyIf (old == 7 || new == 7) reportPorts])

/-- What a port leaves behind when it stops carrying traffic: its replay buffer, frame numbers, credits and keys. -/
def Port.cleared (x : Port) : Port :=
  { x with nextSeq := 0, rxSeq := 0, fill := [], replay := [], fails := [], credit := [], granted := [], given := [], owed := [], key := [],
           packets := 0 }

/-- CHN_CREDIT_c shows the credit of a class, of both virtual channels. -/
def showCredit (p : Nat) : Prog := withS fun s =>
  forEach (List.range 5) fun c =>
    setF (Reg.chnCredit p c) ((nget (s.port p).credit (2 * c)).getD 0 + (nget (s.port p).credit (2 * c + 1)).getD 0)

/-- A port stops: DOWN, DISABLED or back to DETECT. Packets that arrived on it owe it no more credit. -/
def stopPort (p new : Nat) : Prog := withS fun s => seqs
  [setPort p (s.port p).cleared, showCredit p,
   updFab fun x => { x with transit := x.transit.map fun t => if t.hop.any (·.1 == p) then { t with hop := none } else t }, portTo p new]

/-- An ACTIVE port goes DOWN and retrains at once (10 R290). -/
def downProg (p : Nat) : Prog := withS fun s =>
  onlyIf (decide (p < 36) && s.fld (Reg.chnPortState p) == 7)
    (seqs [stopPort p 8, withS fun t => setPort p { t.port p with tries := 0 }, portTo p 1])

/-- PORT_ENABLE. -/
def portEnableProg (p v : Nat) : Prog := withS fun s =>
  if 36 ≤ p then skip
  else if v % 2 = 0 then seqs [setF (Reg.chnPortEnable p) 0, stopPort p 0]
  else onlyIf (!s.flagBit (Reg.chnPortEnable p))
    (seqs [setF (Reg.chnPortEnable p) 1, setPort p Port.reset, portTo p 1])

/-- CHN_PORT_RETRAIN. -/
def retrainProg (p : Nat) : Prog := withS fun s =>
  if 36 ≤ p ∨ !s.flagBit (Reg.chnPortEnable p) then skip
  else seqs [stopPort p 1, withS fun t => setPort p { t.port p with tries := 0 }]

/-- A failed training attempt: back to DETECT, or DOWN after the limit (10 R288). -/
def attemptFailed (p : Nat) : Prog := withS fun s =>
  let x := s.port p
  let tries := x.tries + 1
  seqs [incF (Reg.chnTrainFails p), setPort p { x with tries := tries },
        if s.fld (Reg.chnRetrainLimit p) ≤ tries then portTo p 8 else portTo p 1]

/-- The port is in a training state. -/
def State.training (s : State) (p : Nat) : Bool :=
  decide (p < 36) && decide (1 ≤ s.fld (Reg.chnPortState p)) && decide (s.fld (Reg.chnPortState p) ≤ 6)

/-- TRAIN_STATE_TIMEOUT. -/
def trainTimeoutProg (p : Nat) : Prog := withS fun s => onlyIf (s.training p) (attemptFailed p)

/-- The neighbour of this package in a direction, modulo the system extent. -/
def State.neighbour (s : State) (d : Nat) : Nat :=
  let e := s.ext3
  let c := coords s.me
  let move := fun (x n : Nat) => if d % 2 = 0 then (x + 1) % n else (x + n - 1) % n
  if d / 2 = 0 then globalIndex (move c.1 e.1) c.2.1 c.2.2
  else if d / 2 = 1 then globalIndex c.1 (move c.2.1 e.2.1) c.2.2
  else globalIndex c.1 c.2.1 (move c.2.2 e.2.2)

/-- The port that faces port `p` (10 R289). -/
def facingPort (p : Nat) : Nat := 6 * (if p / 6 % 2 = 0 then p / 6 + 1 else p / 6 - 1) + p % 6

/-- Eight logical lanes from the good physical ones: lane 8 takes the place of the one bad lane; none when more are bad. -/
def mapEight (good : Nat) : Option (List Nat) :=
  match (List.range 8).filter fun l => !bit good l with
  | [] => some (List.range 8)
  | [b] => if bit good 8 then some ((List.range 8).map fun l => if l = b then 8 else l) else none
  | _ => none

/-- The lane map register of a list of physical lanes. -/
def laneWord (ls : List Nat) : Nat := (ls.zipIdx.map fun p => p.1 % 16 * 16 ^ p.2).foldl (· + ·) 0

/-- The lanes a port runs on. -/
def setWidth (p w : Nat) : Prog := withS fun s => setPort p { s.port p with width := w }

/-- Width 8 on a map: the map, and what the spare replaced. -/
def mapLanes (p : Nat) (ls : List Nat) : Prog := seqs
  [setWidth p 8, setF (Reg.chnLaneMap p) (laneWord ls),
   setF (Reg.chnSpareUsed p) (if ls.contains 8 then 1 else 0),
   setF (Reg.chnSpareFor p) (if ls.contains 8 then ((List.range 8).find? fun l => !ls.contains l).getD 0 else 0)]

/-- A runtime repair of a port (10 R287, 16 Table 10). -/
def repairPort (p kind lane spare : Nat) : Prog := withS fun s => recordRepair ⟨kind, 2, 0, p, lane, spare, 0x09, s.boot⟩

/-- Width 4 on the four lowest good lanes as logical lanes 0–3; of a spare among them, SPARE_FOR names the lane in whose place it runs. -/
def narrow (p : Nat) (good : List Nat) : Prog := withS fun s =>
  let old := s.fld (Reg.chnLaneMap p)
  let ls := good.take 4
  seqs [setWidth p 4, setF (Reg.chnLaneMap p) (laneWord ls + old / 65536 * 65536),
        setF (Reg.chnSpareUsed p) (if ls.contains 8 then 1 else 0),
        setF (Reg.chnSpareFor p) (if ls.contains 8 then (ls.findIdx? (· == 8)).getD 0 else 0)]

/-- A lane or width change that LANE_MAP makes is a runtime repair (10 R287): of the lane that lost its place, or of the width. -/
def reportLanes (p oldWidth oldMap : Nat) : Prog := withS fun s =>
  let width := (s.port p).width
  let lanes := fun (w m : Nat) => (List.range w).map fun i => m / 16 ^ i % 16
  let before := lanes oldWidth oldMap
  let now := lanes width (s.fld (Reg.chnLaneMap p))
  if width ≠ oldWidth then repairPort p 4 ((before.find? fun l => !now.contains l).getD 0) 0
  else given (now.find? fun l => !before.contains l) fun l => repairPort p 3 ((before.find? fun b => !now.contains b).getD 0) l

/-- The ECDH shared value of an exchange, which the two ends alone know, is free (log 1); the keys follow from it (15 R434). -/
def setKeys (p : Nat) (next : Prog) : Prog := drawFree fun n => withS fun s =>
  let mine := (s.me, p)
  let peer := (s.fld (Reg.chnPeerIndex p), s.fld (Reg.chnPeerPort p))
  let psk := (List.range 8).flatMap fun i => leBytes 4 (s.fld (Reg.secLinkPsk i))
  let shared := beBytes 48 (Config.free n)
  seq (setPort p { s.port p with key := if s.me ≤ peer.1 then linkKeys psk shared mine peer else linkKeys psk shared peer mine, packets := 0 })
    next

/-- A check of the key exchange as a number. -/
def keyCheckCode : KeyCheck → Nat
  | .chain => 0 | .debugLocked => 1 | .firmware => 2 | .signature => 3

/-- A port makes a check: two of them follow SEC_LINK_POLICY (15 R434 step 3). -/
def State.makesCheck (s : State) : KeyCheck → Bool
  | .debugLocked => !s.flagBit Reg.secLinkAllowDebug
  | .firmware => s.flagBit Reg.secLinkSameFw
  | _ => true

/-- TRAIN_STATE_DONE (10 R288, R289). A failed check of KEYS is told by an event that names it: a LINK event by type (15 R434, log 81). In CREDIT_INIT each end tells the other its grants, and the credit held is the peer's (10 R294). -/
def trainDoneProg (p : Nat) (r : TrainResult) : Prog := withS fun s =>
  if !s.training p then skip
  else match s.fld (Reg.chnPortState p), r with
    | 1, .noFarEnd => portTo p 9
    | 1, .done => portTo p 2
    | 2, .done => portTo p 3
    | 3, .lanes good =>
      let lanes := (List.range 9).filter fun l => bit good l
      let report := reportLanes p (if (s.port p).width = 4 then 4 else 8) (s.fld (Reg.chnLaneMap p))
      match mapEight good with
      | some ls => seqs [mapLanes p ls, report, portTo p 4]
      | none => if lanes.length < 4 then portTo p 8 else seqs [narrow p lanes, report, portTo p 4]
    | 4, .peer index port =>
      seqs [setF (Reg.chnPeerIndex p) index, setF (Reg.chnPeerPort p) port,
            portTo p (if index = s.neighbour (portDir p) ∧ port = facingPort p then 5 else 10)]
    | 5, .done => setKeys p (portTo p 6)
    | 5, .keysFailed check => onlyIf (s.makesCheck check) (seq (logEv (.unit 0x163) 0 .authFault 0 false (.keyCheck p (keyCheckCode check))) (attemptFailed p))
    | 6, .credits cells =>
      let peer := cells.zipIdx.map fun c => (c.2, c.1)
      seqs [emit [.send (.credits p (s.grants.map (·.2)))],
        setPort p { s.port p with tries := 0, credit := peer, granted := peer, given := s.grants }, showCredit p, portTo p 7]
    | _, _ => skip

/-- The frames not yet acknowledged are sent again. -/
def replayAll (p : Nat) : Prog := withS fun s =>
  forEach (s.port p).replay fun f => seq (incF (Reg.chnReplays p)) (emit [.send (.frame p f.2)])

/-- LANE_SER_CHECK: a bad lane is replaced by the spare, in a handshake with the peer that replays what is not acknowledged; with the spare in use, or two bad lanes, the port retrains at width 4 on four
good lanes, or goes DOWN (10 R287). -/
def laneCheckProg (p : Nat) (errs : List Nat) (lockMask : Nat) : Prog := withS fun s =>
  let good := fun l => bit lockMask l && decide (errs.getD l 0 ≤ s.fld (Reg.chnLaneSerLimit p))
  let width := s.fld (Reg.chnPortWidth p)
  let map := (List.range width).map fun i => s.fld (Reg.chnLaneMap p) / 16 ^ i % 16
  let lanes := (List.range 9).filter good
  if 36 ≤ p ∨ s.fld (Reg.chnPortState p) ≠ 7 then skip
  else match map.filter fun l => !good l with
    | [] => skip
    | b :: rest =>
      if rest.isEmpty && width == 8 && !s.flagBit (Reg.chnSpareUsed p) && good 8 then
        let ls := map.map fun l => if l = b then 8 else l
        seqs [mapLanes p ls, emit [.send (.remap p ls)], replayAll p, repairPort p 3 b 8]
      else if lanes.length < 4 then downProg p
      else seqs [narrow p lanes, repairPort p 4 b 0, portTo p 1]

/-! Packets on a link (10 R291, 15 R435). -/

/-- The TYPE code of a packet (10 R291 Table 3). -/
def typeCode : PktType → Nat
  | .read => 0 | .write => 1 | .atomic => 2 | .flag => 3 | .readData => 4 | .ack => 5 | .atomicData => 6 | .nak => 7 | .refuse => 8
  | .coh => 9 | .col => 10 | .ctl => 11
  | .unassigned c => c

/-- Header words 0–11 (10 R291 Table 3). -/
def headerWords (p : Packet) : List Nat :=
  let b := fun (x : Bool) => if x then 1 else 0
  let place := if p.type = .col then [p.group % 64 + 64 * (p.rank % 2 ^ 13), p.chunk]
    else [p.lpa, p.lpa / 2 ^ 32 % 2 ^ 12 + 2 ^ 12 * (p.atomicOp % 16) + 2 ^ 16 * b p.size8 + 2 ^ 17 * (p.fop % 4)]
  [typeCode p.type % 16 + 2 ^ 4 * (p.cls % 8) + 2 ^ 7 * b p.vc + 2 ^ 8 * b p.flagged + 2 ^ 9 * b p.ordered + 2 ^ 10 * b p.retry +
     2 ^ 16 * (p.src % 4096),
   p.dst % 4096 + 2 ^ 16 * (p.length % 2 ^ 13), p.acc, p.acc / 2 ^ 32 % 2 ^ 16, p.ordSeq] ++ place ++
  [statusCode p.status, p.v, p.v / 2 ^ 32, p.c, p.c / 2 ^ 32]

/-- The 64 bytes of a header. -/
def packetHeader (p : Packet) : List Byte := (headerWords p).flatMap (leBytes 4) ++ leBytes 16 p.tag

/-- Bytes of a packet on a link. -/
def packetBytes (p : Packet) : Nat := 64 + carriedBytes p

/-- The bytes of a packet as port `p` sends it: words 0–11 in the clear, the payload sealed under the key of this end's direction, with the
salt and the count of packets sent as nonce, and the tag in words 12–15. -/
def State.sealed (s : State) (p : Nat) (pkt : Packet) : List Byte :=
  let x := s.port p
  let k := if s.me ≤ s.fld (Reg.chnPeerIndex p) then x.key.take 36 else x.key.drop 36
  let head := (headerWords pkt).flatMap (leBytes 4)
  let n := carriedBytes pkt
  let sealed := gcmSeal (k.take 32) (k.drop 32 ++ beBytes 8 x.packets) head (pkt.payload.take n ++ List.replicate (n - pkt.payload.length) 0)
  head ++ sealed.2 ++ sealed.1

/-! Frames (10 R286, R294, 15 R436). -/

/-- CRC-32C. -/
def crc32c (bs : List Byte) : Nat :=
  let step := fun (x : Nat) => if x % 2 = 1 then Nat.xor (x / 2) 0x82F63B78 else x / 2
  Nat.xor (bs.foldl (fun x b => (List.range 8).foldl (fun y _ => step y) (Nat.xor x b.toNat)) 0xFFFFFFFF) 0xFFFFFFFF

/-- A frame's 256 bytes. The spec gives the header's four parts no places: the frame's number and that of the last one received in order
take four bytes, the credit returns eight, six bits for each class and VC, and the CRC, over the frame with its own bytes 0, the last
four (log 72). -/
def frameBytes (seq_ last : Nat) (credits : List Nat) (body : List Byte) : List Byte :=
  let head := leBytes 4 (seq_ % 4096 + 65536 * (last % 4096)) ++
    leBytes 8 ((credits.zipIdx.map fun c => c.1 % 64 * 2 ^ (6 * c.2)).foldl (· + ·) 0)
  let full := body ++ List.replicate (240 - body.length) 0
  head ++ leBytes 4 (crc32c (head ++ leBytes 4 0 ++ full)) ++ full

/-- A port sends a frame of the packet bytes that wait, at most 240, with the credit owed, and keeps it for replay. -/
def sendFrame (p : Nat) : Prog := withS fun s =>
  let x := s.port p
  let credits := (List.range 10).map fun k => min 63 (creditAt x.owed k)
  let bytes := frameBytes x.nextSeq (x.rxSeq + 4095) credits (x.fill.take 240)
  onlyIf (decide (x.replay.length < 512)) (seq
    (setPort p { x with nextSeq := (x.nextSeq + 1) % 4096, fill := x.fill.drop 240, replay := x.replay ++ [(x.nextSeq, bytes)],
                        owed := (List.range 10).map fun k => (k, creditAt x.owed k - credits.getD k 0) })
    (emit [.send (.frame p bytes)]))

/-- The full frames among the bytes that wait go out, and with `all` the last one as well. -/
def flushPort (p : Nat) (all : Bool) : Prog := withS fun s =>
  forEach (List.range ((s.port p).fill.length / 240 + 1)) fun _ => withS fun t =>
    onlyIf (decide (240 ≤ (t.port p).fill.length) || (all && !(t.port p).fill.isEmpty)) (sendFrame p)

/-- An index inside the system extents. -/
def State.inSystem (s : State) (i : Nat) : Bool :=
  let c := coords i
  let e := s.ext3
  decide (i < 4096) && decide (c.1 < e.1) && decide (c.2.1 < e.2.1) && decide (c.2.2 < e.2.2)

/-- A packet that a receiver discards (10 R291). -/
def State.badPacket (s : State) (p : Packet) : Bool :=
  (match p.type with | .unassigned _ => true | _ => false) || decide (4096 < p.length) ||
  (p.dst != s.me && (!s.inSystem p.dst || !s.flagBit Reg.chnFabricEn))

/-- An injected error at the next frame or packet of a port is used up; `k` is told its kind. -/
def linkInjected (code p : Nat) (k : Nat → Prog) : Prog :=
  useArmed code p 0 true false fun kind => seq (k kind) (logDetect true code 2 p 0 1 .ok)

/-- A packet that a port receives: one to be routed on or served takes its cells; collective, coherence and control traffic for this
package is handed over at once, and its credit returns. -/
def takePacket (ctl : Packet → Prog) (p : Nat) (k : Packet) : Prog := withS fun s =>
  let hop := (p, 2 * classOf k.type + if k.vc then 1 else 0)
  let mine := k.dst == s.me
  let reserved := mine && classOf k.type == 1 && poolOf k.type == some 2
  if s.badPacket k then seq (incF (Reg.chnBadPkt p)) (returnCredit hop (packetCells k))
  else seq (incF (Reg.chnRxBytes p) (packetBytes k))
    (if mine && (k.type == .col || k.type == .coh || k.type == .ctl) then
      seq (returnCredit hop (packetCells k)) (onlyIf (k.type == .ctl) (ctl k))
     else enterVat k (some hop) (if reserved then none else (poolOf k.type).map fun x => (x, packetCells k)))

/-- A frame that is accepted: acknowledged frames leave the replay buffer, credits return, its packets are taken or discarded. A frame that
brings packets is answered by one at once, so that its acknowledgement and the credit owed reach the peer (log 72). -/
def acceptFrame (ctl : Packet → Prog) (p lastSeen : Nat) (credits : List Nat) (pkts : List Packet) : Prog := withS fun s =>
  let x := s.port p
  let acked := fun (q : Nat) => decide ((lastSeen + 4096 - q) % 4096 < 2048)
  let credit := (List.range 10).map fun k => (k, creditAt x.credit k + credits.getD k 0)
  seqs [setPort p { x with rxSeq := (x.rxSeq + 1) % 4096, replay := x.replay.filter fun f => !acked f.1,
                           fails := x.fails.filter fun f => !acked f.1, credit := credit },
        showCredit p, forEach pkts (takePacket ctl p),
        onlyIf (!pkts.isEmpty) (seq (sendFrame p) (flushPort p true))]

/-- FRAME_RECEIVE: the FEC's corrections are counted, a codeword beyond correction or a bad CRC is refused for replay, a bad tag takes
the port DOWN, and a frame in order is accepted. -/
def frameReceiveProg (ctl : Packet → Prog) (p seq_ lastSeen : Nat) (credits : List Nat) (fecFixed : Nat) (crcOk tagOk : Bool) (pkts : List Packet) : Prog :=
  withS fun s =>
  let hit := fun code => s.cons.armed.find? fun x => x.target == code && x.unit == p
  let crcBad := match hit 0x09 with | some x => x.kind == 1 | none => false
  if 36 ≤ p ∨ s.fld (Reg.chnPortState p) ≠ 7 then skip
  else seqs
    [if fecFixed ≤ 8 then incF (Reg.chnFecCorrected p) fecFixed else incF (Reg.chnFecUncorrected p),
     linkInjected 0x09 p fun kind => if kind = 0 then incF (Reg.chnFecCorrected p) else incF (Reg.chnFecUncorrected p),
     if 8 < fecFixed || !crcOk || crcBad then skip
     else if seq_ % 4096 ≠ (s.port p).rxSeq then skip
     else if !tagOk || (hit 0x0A).isSome then
       seqs [linkInjected 0x0A p fun _ => skip, incF Reg.secLinkAuthFails, downProg p]
     else acceptFrame ctl p lastSeen credits pkts]

/-- FRAME_REPLAY: eight failed replays of one frame in a row take the port DOWN. -/
def frameReplayProg (p seq_ : Nat) (ok : Bool) : Prog := withS fun s =>
  let x := s.port p
  let q := seq_ % 4096
  let n := if ok then 0 else creditAt x.fails q + 1
  onlyIf (decide (p < 36) && s.fld (Reg.chnPortState p) == 7) (given (nget x.replay q) fun bytes => seqs
    [incF (Reg.chnReplays p), setPort p { x with fails := nset x.fails q n }, emit [.send (.frame p bytes)],
     onlyIf (decide (8 ≤ n)) (downProg p)])

/-- LINK_REKEY (15 R436). -/
def rekeyProg (p : Nat) (ok : Bool) : Prog := withS fun s =>
  onlyIf (decide (p < 36) && s.fld (Reg.chnPortState p) == 7) (if ok then setKeys p (incF Reg.secLinkRekeys) else downProg p)

/-- The hop crosses the dateline of its axis: between coordinate N − 1 and 0 (10 R292). -/
def State.crossesDateline (s : State) (d : Nat) : Bool :=
  let e := s.ext3
  let c := coords s.me
  let x := if d / 2 = 0 then (c.1, e.1) else if d / 2 = 1 then (c.2.1, e.2.1) else (c.2.2, e.2.2)
  if d % 2 = 0 then x.1 + 1 == x.2 else x.1 == 0

/-- A packet waits in the Vat, holding its cells (10 R293, R299). -/
def waitInVat (pkt : Packet) : Prog := withS fun s =>
  onlyIf (!s.fab.transit.any (·.pkt == pkt)) (enterVat pkt none ((poolOf pkt.type).map fun x => (x, packetCells pkt)))

/-- PACKET_FORWARD: the packet leaves by the port of its hop when that port holds credit for its whole chain and its replay buffer has
room; else it waits. Its bytes follow those that wait for a frame; with no frames queued on the port the last frame goes out as it is. -/
def forwardProg (pkt : Packet) (queued : List Nat) : Prog := withS fun s =>
  let cls := classOf pkt.type
  let local_ := decide (cls < 3)
  if !s.flagBit Reg.chnFabricEn || pkt.dst == s.me then skip
  else match s.exitPort pkt.dst local_ queued with
    | none => waitInVat pkt
    | some p =>
      let x := s.port p
      let vc := pkt.vc || s.crossesDateline (portDir p)
      let key := 2 * cls + if vc then 1 else 0
      let cells := packetCells pkt
      if creditAt x.credit key < cells ∨ 512 < x.replay.length + cdiv (x.fill.length + packetBytes pkt) 240 then waitInVat pkt
      else seq (leaveVat pkt) (vatCell (withS fun t =>
        let y := t.port p
        seqs
        [setPort p { y with packets := y.packets + 1, credit := nset y.credit key (creditAt y.credit key - cells),
                            fill := y.fill ++ t.sealed p { pkt with vc := vc } },
         showCredit p, incF (Reg.chnTxBytes p) (packetBytes pkt), flushPort p (queued.getD p 0 == 0)]))

/-! The commands. -/

/-- TRAIN_STATE_DONE (10 R288). -/
def execTrainStateDone (p : Nat) (r : TrainResult) (s : State) : Out := .next (run (trainDoneProg p r) s)

/-- TRAIN_STATE_TIMEOUT (10 R288). -/
def execTrainStateTimeout (p : Nat) (s : State) : Out := .next (run (trainTimeoutProg p) s)

/-- PACKET_FORWARD (10 R298). -/
def execPacketForward (pkt : Packet) (queued : List Nat) (s : State) : Out := .next (run (forwardProg pkt queued) s)

/-- READ (10 R302). -/
def execRead (pkt : Packet) (s : State) : Out := .next (run (readProg pkt) s)

/-- WRITE (10 R309). -/
def execWrite (pkt : Packet) (s : State) : Out := .next (run (requestProg .write pkt) s)

/-- REMOTE_ATOMIC (10 R309). -/
def execRemoteAtomic (pkt : Packet) (s : State) : Out := .next (run (requestProg .atomic pkt) s)

/-- REMOTE_FLAG (10 R311). -/
def execRemoteFlag (pkt : Packet) (s : State) : Out := .next (run (requestProg .flag pkt) s)

/-- ORDER_TIMEOUT (10 R312). -/
def execOrderTimeout (src acc : Nat) (s : State) : Out := .next (run (orderTimeoutProg src acc) s)

/-- CHN_RESYNC_GO (10 R313). -/
def execChnResyncGo (dest : Nat) (s : State) : Out := .next (run (resyncGoProg dest) s)

/-- RESYNC_ACK (10 R313). -/
def execResyncAck (dest : Nat) (s : State) : Out := .next (run (resyncAckProg dest) s)

/-- CHN_RI_GO (10 R316). -/
def execChnRiGo (s : State) : Out := .next (run (reissueProg) s)

/-- CHN_FABRIC_EN (10 R301). -/
def execChnFabricEn (value : Nat) (s : State) : Out := .next (run (fabricEnProg value) s)

/-- RESYNC_AT_TARGET (10 R313). -/
def execResyncAtTarget (src ordSeq : Nat) (s : State) : Out := .next (run (resyncAtTargetProg src ordSeq) s)

end Sys2Proof.Machine
end

