-- ==== Sys2Proof/Machine/Qp.lean ====
section
/-! DEFINITION. The Press's arithmetic (chapter 12): FP64 vectors, the LDLᵀ factorisation, the couch program, ADMM, the interior
point method, deadlines, and the backward pass of one problem. -/

namespace Sys2Proof.Machine

/-! FP64 vectors and matrices (12 R346, R358). A matrix is the list of its rows. -/

/-- A vector of FP64 codes. -/
abbrev Vec := List Nat

/-- A matrix by rows. -/
abbrev Rows := List Vec

/-- FP64 one. -/
def d1 : Nat := 0x3FF0000000000000
/-- FP64 zero. -/
def d0 : Nat := 0
/-- FP64 one half. -/
def dHalf : Nat := 0x3FE0000000000000
/-- FP64 +∞. -/
def dInf : Nat := 0x7FF0000000000000
/-- FP64 −∞. -/
def dNegInf : Nat := 0xFFF0000000000000

/-- A value whose roundings the spec leaves open: the rule gives the expression and not its grouping, so by how many units in the last
place it differs from this model's grouping is free (log 40). -/
def opened (site v : Nat) : Nat :=
  let mag : Int := (v % 2 ^ 63 : Nat) + Config.pressUlp site v
  (if mag < 0 then 0 else mag.toNat % 2 ^ 63) + v / 2 ^ 63 * 2 ^ 63

/-- An inner product: from +0, by FMA, in ascending index. -/
def dot (a b : Vec) : Nat := (a.zip b).foldl (fun t p => fFma fp64 p.1 p.2 t) d0

/-- A sum: from +0, in ascending index. -/
def vsum (a : Vec) : Nat := a.foldl (fun t x => fAdd fp64 t x) d0

/-- Element by element. -/
def vmap2 (f : Nat → Nat → Nat) (a b : Vec) : Vec := (a.zip b).map fun p => f p.1 p.2

/-- Sum of vectors. -/
def vadd : Vec → Vec → Vec := vmap2 (fAdd fp64)
/-- Difference of vectors. -/
def vsub : Vec → Vec → Vec := vmap2 (fSub fp64)
/-- Product by elements. -/
def vmul : Vec → Vec → Vec := vmap2 (fMul fp64)
/-- Quotient by elements. -/
def vdiv : Vec → Vec → Vec := vmap2 (fDiv fp64)
/-- A multiple. -/
def vscale (k : Nat) (a : Vec) : Vec := a.map (fMul fp64 k)
/-- FMA(k, a, b). -/
def vfma (k : Nat) (a b : Vec) : Vec := vmap2 (fFma fp64 k) a b

/-- The largest absolute value. -/
def vnorm (a : Vec) : Nat := a.foldl (fun m x => fMax fp64 m (fAbs fp64 x)) d0

/-- A matrix with a vector. -/
def matVec (a : Rows) (x : Vec) : Vec := a.map fun r => dot r x

/-- The transpose of a matrix of `c` columns. -/
def transposed (c : Nat) (a : Rows) : Rows := (List.range c).map fun j => a.map fun r => r.getD j 0

/-- Every element is finite. -/
def vfinite (a : Vec) : Bool := a.all (fFinite fp64)

/-! The factorisation (12 R359). -/

/-- A factorisation: the rows of L below its diagonal, the pivots, whether a zero and a small pivot were replaced, how many, and whether
a pivot was not finite. -/
structure Ldl where
  rows   : Rows
  d      : Vec
  zero   : Bool
  small  : Bool
  pivots : Nat
  failed : Bool
  deriving DecidableEq, Repr

/-- δ of the pivot rule. -/
def pivotFloor (tau : Nat) (k : Rows) : Nat :=
  let mx := vnorm (k.zipIdx.map fun p => p.1.getD p.2 0)
  if (fp64.decode mx).isZero then tau else fMul fp64 tau mx

/-- Σ_{j} a_j b_j d_j in ascending j. -/
def tripleSum (a b d : Vec) : Nat := ((a.zip b).zip d).foldl (fun t p => opened 1 (fFma fp64 (fMul fp64 p.1.1 p.1.2) p.2 t)) d0

/-- One more row of L and its pivot; a pivot that is not finite ends it. -/
def ldlStep (delta : Nat) (f : Ldl) (krow : Vec) : Ldl :=
  if f.failed then f else
  let li := (f.rows.zip f.d).foldl (fun li p =>
    li ++ [fDiv fp64 (fSub fp64 (krow.getD li.length 0) (tripleSum li p.1 f.d)) p.2]) []
  let d := fSub fp64 (krow.getD f.rows.length 0) (tripleSum li li f.d)
  let v := fp64.decode d
  let f' := { f with rows := f.rows ++ [li] }
  if !v.isFin then { f' with d := f.d ++ [d], failed := true }
  else if v.isZero then { f' with d := f.d ++ [delta], zero := true, pivots := f.pivots + 1 }
  else if fLt fp64 (fAbs fp64 d) delta then
    { f' with d := f.d ++ [if v.isNeg then fNeg fp64 delta else delta], small := true, pivots := f.pivots + 1 }
  else { f' with d := f.d ++ [d] }

/-- K factorised as LDLᵀ. -/
def ldl (tau : Nat) (k : Rows) : Ldl := k.foldl (ldlStep (pivotFloor tau k)) ⟨[], [], false, false, 0, false⟩

/-- The triangular solves: forward in ascending index, backward in descending index. -/
def Ldl.solve (f : Ldl) (b : Vec) : Vec :=
  let y := (f.rows.zip b).foldl (fun y p => y ++ [fSub fp64 p.2 (dot p.1 y)]) []
  let w := vdiv y f.d
  (List.range f.d.length).foldl (fun x t =>
    let i := f.d.length - 1 - t
    let col := (f.rows.drop (i + 1)).map fun r => r.getD i 0
    fSub fp64 (w.getD i 0) (dot col x) :: x) []

/-! Problems (12 R347, R348). -/

/-- One assembled problem; P is made symmetric from its lower triangle. -/
structure Qp where
  n : Nat
  m : Nat
  p : Rows
  q : Vec
  a : Rows
  l : Vec
  u : Vec
  deriving DecidableEq, Repr

/-- P as the solver reads it. -/
def lowerSym (p : Rows) : Rows :=
  (List.range p.length).map fun i => (List.range p.length).map fun j => (p.getD (max i j) []).getD (min i j) 0

/-- The columns of A. -/
def Qp.at_ (x : Qp) : Rows := transposed x.n x.a

/-- A value is infinite with this sign. -/
def isInf64 (neg : Bool) (v : Nat) : Bool := v == (if neg then dNegInf else dInf)

/-- The data check of 12 R355. -/
def dataBad (n m : Nat) (p : Rows) (q : Vec) (a : Rows) (l u : Vec) : Bool :=
  let _ := (n, m)
  !(p.all vfinite) || !vfinite q || !(a.all vfinite) ||
  (l.zip u).any fun b => (fp64.decode b.1).isNan || (fp64.decode b.2).isNan || fLt fp64 b.2 b.1 || isInf64 false b.1 || isInf64 true b.2

/-- An equality row. -/
def isEq (l u : Nat) : Bool := fLe fp64 l u && fLe fp64 u l

/-- Solver settings of a command (12 Table 3) with τ. -/
structure Settings where
  ipm     : Bool
  maxIter : Nat
  epsAbs  : Nat
  epsRel  : Nat
  rho     : Nat
  sigma   : Nat
  alpha   : Nat
  tau     : Nat
  deadline : Nat
  deriving DecidableEq, Repr

/-- An iterate: x, z and y; interior point adds the slacks and duals of its finite bounds. -/
structure Iterate where
  x  : Vec
  z  : Vec
  y  : Vec
  s  : Vec
  lam : Vec
  deriving DecidableEq, Repr

/-- Every value of an iterate is finite. -/
def Iterate.finite (i : Iterate) : Bool := vfinite i.x && vfinite i.z && vfinite i.y && vfinite i.s && vfinite i.lam

/-- P + σI + AᵀWA for a diagonal W. -/
def kkt (x : Qp) (sigma : Nat) (w : Vec) : Rows :=
  let cols := x.at_
  (x.p.zipIdx).map fun pr => (pr.1.zipIdx).map fun e =>
    let base := if pr.2 = e.2 then fAdd fp64 e.1 sigma else e.1
    opened 2 (fAdd fp64 base (tripleSum (cols.getD pr.2 []) (cols.getD e.2 []) w))

/-! ADMM (12 R360). -/

/-- R_ii. -/
def Settings.weights (c : Settings) (x : Qp) : Vec :=
  (x.l.zip x.u).map fun b =>
    if isInf64 true b.1 && isInf64 false b.2 then fMul fp64 0x3EB0000000000000 c.rho
    else if isEq b.1 b.2 then fMul fp64 0x408F400000000000 c.rho else c.rho

/-- One ADMM iteration. -/
def admmStep (c : Settings) (x : Qp) (f : Ldl) (i : Iterate) : Iterate :=
  let r := c.weights x
  let rhs := vadd (vsub (vscale c.sigma i.x) x.q) (matVec x.at_ (vsub (vmul r i.z) i.y))
  let xt := f.solve rhs
  let zt := matVec x.a xt
  let beta := fSub fp64 d1 c.alpha
  let x' := vfma c.alpha xt (vscale beta i.x)
  let zr := vfma c.alpha zt (vscale beta i.z)
  let zn := ((vadd zr (vdiv i.y r)).zip (x.l.zip x.u)).map fun p =>
    if fLt fp64 p.1 p.2.1 then p.2.1 else if fLt fp64 p.2.2 p.1 then p.2.2 else p.1
  { i with x := x', z := zn, y := vadd i.y (vmul r (vsub zr zn)) }

/-! Interior point (12 R361). -/

/-- The finite bounds: row, upper or not, value; in ascending row, the lower bound first. -/
def Qp.bounds (x : Qp) : List (Nat × Bool × Nat) :=
  ((x.l.zip x.u).zipIdx).flatMap fun p =>
    (if isInf64 true p.1.1 then [] else [(p.2, false, p.1.1)]) ++ (if isInf64 false p.1.2 then [] else [(p.2, true, p.1.2)])

/-- The slack gap of every finite bound: what the slack must still change to meet (Ax)_i − l_i or u_i − (Ax)_i. -/
def gaps (bs : List (Nat × Bool × Nat)) (ax s : Vec) : Vec :=
  (bs.zip s).map fun p =>
    let v := ax.getD p.1.1 0
    fSub fp64 (if p.1.2.1 then fSub fp64 p.1.2.2 v else fSub fp64 v p.1.2.2) p.2

/-- Per-row sums over bounds: upper minus lower, or both added. -/
def rowSums (m : Nat) (bs : List (Nat × Bool × Nat)) (v : Vec) (signed : Bool) : Vec :=
  (List.range m).map fun i =>
    ((bs.zip v).filter (·.1.1 == i)).foldl (fun t p => if signed && !p.1.2.1 then fSub fp64 t p.2 else fAdd fp64 t p.2) d0

/-- μ. -/
def mu (s lam : Vec) : Nat := if s.isEmpty then d0 else fDiv fp64 (dot s lam) (fOfNat fp64 s.length)

/-- A Newton step of the slack form for complementarity targets `t_b`: dx, ds and dλ. -/
def newton (x : Qp) (f : Ldl) (bs : List (Nat × Bool × Nat)) (i : Iterate) (rd gap t : Vec) : Vec × Vec × Vec :=
  let ratio := vdiv i.lam i.s
  let w := (vsub (vsub (vdiv t i.s) i.lam) (vmul ratio gap)).map (opened 3)
  let rhs := (vsub (rd.map (fNeg fp64)) (matVec x.at_ (rowSums x.m bs w true))).map (opened 4)
  let dx := f.solve rhs
  let adx := matVec x.a dx
  let ds := ((bs.zip gap).map fun p =>
    fAdd fp64 (if p.1.2.1 then fNeg fp64 (adx.getD p.1.1 0) else adx.getD p.1.1 0) p.2).map (opened 5)
  let dl := (vsub (vsub (vdiv t i.s) i.lam) (vmul ratio ds)).map (opened 6)
  (dx, ds, dl)

/-- The largest step that keeps every value from falling below 0; `cap` when none limits it. -/
def maxStep (cap : Nat) (v dv : Vec) : Nat :=
  (v.zip dv).foldl (fun a p => if (fp64.decode p.2).isNeg && !(fp64.decode p.2).isZero then fMin fp64 a (fNeg fp64 (fDiv fp64 p.1 p.2)) else a) cap

/-- rd = Px + q + Aᵀy. -/
def dualVec (x : Qp) (i : Iterate) : Vec := vadd (vadd (matVec x.p i.x) x.q) (matVec x.at_ i.y)

/-- The D of an interior-point iteration. -/
def ipWeights (x : Qp) (i : Iterate) : Vec := rowSums x.m x.bounds (vdiv i.lam i.s) false

/-- One interior-point iteration after its factorisation. -/
def ipStep (x : Qp) (f : Ldl) (i : Iterate) : Iterate :=
  let bs := x.bounds
  let gap := gaps bs (matVec x.a i.x) i.s
  let rd := dualVec x i
  let m := mu i.s i.lam
  let aff := newton x f bs i rd gap (i.s.map fun _ => d0)
  let aAff := fMin fp64 (maxStep d1 i.s aff.2.1) (maxStep d1 i.lam aff.2.2)
  let muAff := mu (vfma aAff aff.2.1 i.s) (vfma aAff aff.2.2 i.lam)
  let ratio := fDiv fp64 muAff m
  let sc := if (fp64.decode m).isZero then d0 else opened 7 (fMul fp64 (fMul fp64 ratio ratio) ratio)
  let t := (vsub (i.s.map fun _ => fMul fp64 sc m) (vmul aff.2.1 aff.2.2)).map (opened 8)
  let cor := newton x f bs i rd gap t
  let a := fMin fp64 d1 (fMul fp64 0x3FEFAE147AE147AE (fMin fp64 (maxStep dInf i.s cor.2.1) (maxStep dInf i.lam cor.2.2)))
  let x' := vfma a cor.1 i.x
  let lam' := vfma a cor.2.2 i.lam
  { x := x', s := vfma a cor.2.1 i.s, lam := lam', z := matVec x.a x', y := rowSums x.m bs lam' true }

/-! Boundaries, costs and deadlines (12 R362–R365). -/

/-- r_p of an iterate. -/
def primalRes (c : Settings) (x : Qp) (i : Iterate) : Nat :=
  if c.ipm then vnorm (gaps x.bounds (matVec x.a i.x) i.s) else vnorm (vsub (matVec x.a i.x) i.z)

/-- r_d of an iterate. -/
def dualRes (x : Qp) (i : Iterate) : Nat := vnorm (dualVec x i)

/-- The objective. -/
def objective (x : Qp) (i : Iterate) : Nat := opened 9 (fFma fp64 dHalf (dot i.x (matVec x.p i.x)) (dot x.q i.x))

/-- An iterate is converged. -/
def converged (c : Settings) (x : Qp) (i : Iterate) : Bool :=
  let ax := matVec x.a i.x
  let tp := fAdd fp64 c.epsAbs (fMul fp64 c.epsRel (fMax fp64 (vnorm ax) (vnorm i.z)))
  let td := fAdd fp64 c.epsAbs
    (fMul fp64 c.epsRel (fMax fp64 (fMax fp64 (vnorm (matVec x.p i.x)) (vnorm (matVec x.at_ i.y))) (vnorm x.q)))
  fLe fp64 (primalRes c x i) tp && fLe fp64 (dualRes x i) td && (!c.ipm || fLe fp64 (mu i.s i.lam) c.epsAbs)

/-- Phase costs of FORM 0 (12 Table 7). -/
def costForm (n m : Nat) : Nat := cdiv (n * (n + 1) * m) 2000 + 64
/-- FACTOR. -/
def costFactor (n : Nat) : Nat := cdiv (n * (n + 1) * (n + 2)) 6000 + 8 * n
/-- SOLVE. -/
def costSolve (n : Nat) : Nat := cdiv (n * n) 1000 + 8 * n
/-- MATVEC_A. -/
def costMatA (n m : Nat) : Nat := cdiv (m * n) 1000 + 32
/-- MATVEC_P. -/
def costMatP (n : Nat) : Nat := cdiv (n * n) 1000 + 32
/-- VEC. -/
def costVec (n m : Nat) : Nat := cdiv (n + m) 128 + 64
/-- An ADMM iteration. -/
def costAdmm (n m : Nat) : Nat := costSolve n + 4 * costMatA n m + costMatP n + costVec n m
/-- The part of an interior-point iteration before its factorisation: the residuals (log 41). -/
def costResid (n m : Nat) : Nat := 2 * costMatA n m + costMatP n + costVec n m
/-- The part after its factorisation. -/
def costSteps (n m : Nat) : Nat := 2 * costSolve n + 4 * costMatA n m + 2 * costVec n m
/-- FORM and FACTOR. -/
def costFactorisation (n m : Nat) : Nat := costForm n m + costFactor n

/-- The first deadline check of a factorisation that starts at cycle `c` and finds the deadline passed: at its start and every 256
cycles within it. -/
def abandonAt (deadline c len : Nat) : Option Nat :=
  if deadline = 0 then none
  else
    let k := if deadline ≤ c then 0 else cdiv (deadline - c) 256
    if k = 0 ∨ 256 * k < len then some (c + 256 * k) else none

/-- What a problem came to (12 Table 8). -/
structure Outcome where
  status : Status
  conv   : Bool
  zero   : Bool
  small  : Bool
  dead   : Bool
  bad    : Bool
  k      : Nat
  pivots : Nat
  factors : Nat
  cycles : Nat
  it     : Iterate
  deriving DecidableEq, Repr

/-- What a run has gathered of its factorisations. -/
structure Tally where
  zero    : Bool
  small   : Bool
  pivots  : Nat
  factors : Nat
  deriving DecidableEq, Repr

/-- One more factorisation. -/
def Tally.add (t : Tally) (f : Ldl) : Tally := ⟨t.zero || f.zero, t.small || f.small, t.pivots + f.pivots, t.factors + if f.failed then 0 else 1⟩

/-- A problem ends; DEADLINE is set where its deadline was reached by then. -/
def finish (c : Settings) (x : Qp) (t : Tally) (st : Status) (k cyc : Nat) (i : Iterate) : Outcome :=
  ⟨st, converged c x i, t.zero, t.small, st == .factorAbandoned || (c.deadline != 0 && decide (c.deadline ≤ cyc)), false, k, t.pivots,
   t.factors, cyc, i⟩

/-- Iteration boundary `k`: the decision of 12 R363, or none. -/
def boundary (c : Settings) (x : Qp) (t : Tally) (k cyc : Nat) (prev i : Iterate) : Option Outcome :=
  if !i.finite then some (finish c x t .numericFail (k - 1) cyc prev)
  else if converged c x i && (c.deadline == 0 || decide (cyc < c.deadline)) then some (finish c x t .ok k cyc i)
  else if c.deadline ≠ 0 ∧ c.deadline ≤ cyc then some (finish c x t .deadlineMiss k cyc i)
  else if k = c.maxIter then some (finish c x t .notConverged k cyc i)
  else none

/-- ADMM from iteration `k`, with the factorisation made. -/
def admmLoop (c : Settings) (x : Qp) (f : Ldl) (t : Tally) : Nat → Nat → Nat → Iterate → Outcome
  | 0, k, cyc, i => finish c x t .notConverged (k - 1) cyc i
  | fuel + 1, k, cyc, i =>
    let i' := admmStep c x f i
    let cyc' := cyc + costAdmm x.n x.m
    match boundary c x t k cyc' i i' with
    | some o => o
    | none => admmLoop c x f t fuel (k + 1) cyc' i'

/-- Interior point from iteration `k`; `stopAt` names an iteration whose factorisation is abandoned by a check found at that cycle. -/
def ipLoop (c : Settings) (x : Qp) (stopAt : Option (Nat × Nat)) (t : Tally) : Nat → Nat → Nat → Iterate → Outcome
  | 0, k, cyc, i => finish c x t .notConverged (k - 1) cyc i
  | fuel + 1, k, cyc, i =>
    let start := cyc + costResid x.n x.m
    let stop := match stopAt with
      | some p => if p.1 = k then some p.2 else none
      | none => abandonAt c.deadline start (costFactorisation x.n x.m)
    match stop with
    | some at_ => finish c x t .factorAbandoned (k - 1) at_ i
    | none =>
      let f := ldl c.tau (kkt x c.sigma (ipWeights x i))
      let t' := t.add f
      let made := start + costFactorisation x.n x.m
      let cyc' := made + costSteps x.n x.m
      if f.failed then finish c x t' .numericFail (k - 1) made i
      else
        let i' := ipStep x f i
        match boundary c x t' k cyc' i i' with
        | some o => o
        | none => ipLoop c x stopAt t' fuel (k + 1) cyc' i'

/-- Iterate 0 of interior point from x. -/
def ipStart (x : Qp) (x0 : Vec) : Iterate :=
  let ones := x.bounds.map fun _ => d1
  ⟨x0, matVec x.a x0, rowSums x.m x.bounds ones true, ones, ones⟩

/-- A problem is solved from cycle `asm`, the end of its assembly. -/
def solveQp (c : Settings) (x : Qp) (warm : Iterate) (asm : Nat) (stopAt : Option (Nat × Nat)) : Outcome :=
  let t0 : Tally := ⟨false, false, 0, 0⟩
  if c.ipm then ipLoop c x stopAt t0 c.maxIter 1 asm (ipStart x warm.x)
  else
    let stop := match stopAt with
      | some p => some p.2
      | none => abandonAt c.deadline asm (costFactorisation x.n x.m)
    match stop with
    | some at_ => finish c x t0 .factorAbandoned 0 at_ warm
    | none =>
      let f := ldl c.tau (kkt x c.sigma (c.weights x))
      let t := t0.add f
      let cyc := asm + costFactorisation x.n x.m
      if f.failed then finish c x t .numericFail 0 cyc warm else admmLoop c x f t c.maxIter 1 cyc warm

/-! The backward pass (12 R371). -/

/-- The active rows of a solution. -/
def activeRows (c : Settings) (x : Qp) (z y : Vec) : List (Nat × Bool × Bool) :=
  (List.range x.m).filterMap fun i =>
    let l := x.l.getD i 0
    let u := x.u.getD i 0
    let zi := z.getD i 0
    let yi := y.getD i 0
    let e := isEq l u
    let lo := fLe fp64 (fSub fp64 zi l) c.epsAbs && fLt fp64 yi d0
    let hi := fLe fp64 (fSub fp64 u zi) c.epsAbs && fLt fp64 d0 yi
    if e || lo || hi then some (i, e || lo, e || hi) else none

/-- The gradients of one problem. -/
structure Grads where
  dq : Vec
  dl : Vec
  du : Vec
  dp : Rows
  da : Rows
  act : Nat
  tally : Tally
  failed : Bool
  deriving DecidableEq, Repr

/-- Gradients of +0. -/
def Grads.zero (x : Qp) : Grads :=
  ⟨List.replicate x.n 0, List.replicate x.m 0, List.replicate x.m 0, List.replicate x.n (List.replicate x.n 0),
   List.replicate x.m (List.replicate x.n 0), 0, ⟨false, false, 0, 0⟩, false⟩

/-- A result that FP32 holds: finite once rounded (12 R371, log 80). -/
def fits32 (v : Vec) : Bool := v.all fun e => fFinite fp32 (enc fp32 (fp64.decode e))

/-- Implicit differentiation at the active set. A result that is not finite fails it; dP and dA are results where they are enabled. -/
def backwardQp (c : Settings) (x : Qp) (xs z y g : Vec) (dpEn daEn : Bool) : Grads :=
  let act := activeRows c x z y
  let mx := vnorm (x.p.zipIdx.map fun p => p.1.getD p.2 0)
  let gamma := if (fp64.decode mx).isZero then c.tau else fMul fp64 c.tau mx
  let rowsA := act.map fun r => x.a.getD r.1 []
  let top := (x.p.zipIdx).map fun p =>
    (p.1.zipIdx.map fun e => if e.2 = p.2 then fAdd fp64 e.1 gamma else e.1) ++ rowsA.map fun r => r.getD p.2 0
  let bot := (rowsA.zipIdx).map fun p => p.1 ++ (List.range act.length).map fun j => if j = p.2 then fNeg fp64 gamma else d0
  let f := ldl c.tau (top ++ bot)
  let sol := f.solve (g.map (fNeg fp64) ++ act.map fun _ => d0)
  let dx := sol.take x.n
  let dy := sol.drop x.n
  let dyOf := fun i => ((act.zip dy).find? fun p => p.1.1 == i).map (·.2)
  let pick := fun (sel : Nat × Bool × Bool → Bool) => (List.range x.m).map fun i =>
    match act.find? (fun r => r.1 == i && sel r), dyOf i with
    | some _, some v => fNeg fp64 v
    | _, _ => d0
  let dp := dx.zipIdx.map fun a => dx.zipIdx.map fun b =>
    fMul fp64 (fFma fp64 a.1 (xs.getD b.2 0) (fMul fp64 (xs.getD a.2 0) b.1)) dHalf
  let da := (List.range x.m).map fun i => match dyOf i with
    | some v => dx.zipIdx.map fun b => fFma fp64 (y.getD i 0) b.1 (fMul fp64 v (xs.getD b.2 0))
    | none => dx.map fun _ => d0
  let t := (⟨false, false, 0, 0⟩ : Tally).add f
  if f.failed || !fits32 sol || (dpEn && !(dp.all fits32)) || (daEn && !(da.all fits32)) then { Grads.zero x with act := act.length, tally := t, failed := true }
  else ⟨dx, pick (·.2.1), pick (·.2.2), dp, da, act.length, t, false⟩

end Sys2Proof.Machine
end

