-- ==== Sys2Proof/Machine/Press.lean ====
section
/-! DEFINITION. The Press (chapter 12): the problem record and its checks, the couch stage, the PRESS class, its outputs and
registers. -/

namespace Sys2Proof.Machine

/-! The problem record (12 R350 Table 3). -/

/-- A problem record as a command reads it: its 256 bytes as a number, above them its source table of 16 entries, and its couch program. -/
abbrev Prob := Nat

/-- A field of word `w`. -/
def pfld (p : Prob) (w lo n : Nat) : Nat := p / 2 ^ (32 * w + lo) % 2 ^ n

namespace Prob

def batched (p : Prob) : Bool := pfld p 0 0 1 == 1
def ipm (p : Prob) : Bool := pfld p 0 1 1 == 1
def warm (p : Prob) : Bool := pfld p 0 2 1 == 1
def xOutEn (p : Prob) : Bool := pfld p 0 3 1 == 1
def xOutFmt (p : Prob) : Nat := pfld p 0 4 4
def n (p : Prob) : Nat := pfld p 1 0 11
def m (p : Prob) : Nat := pfld p 1 16 12
def prog (p : Prob) : Nat := pfld p 2 0 44
def progLen (p : Prob) : Nat := pfld p 4 0 11
def srcCount (p : Prob) : Nat := pfld p 4 16 5
def srcTable (p : Prob) : Nat := pfld p 5 0 44
def maxIter (p : Prob) : Nat := pfld p 7 0 16
def out (p : Prob) : Nat := pfld p 18 0 44
def outCap (p : Prob) : Nat := pfld p 20 0 32
def xOut (p : Prob) : Nat := pfld p 21 0 44
def xOutCap (p : Prob) : Nat := pfld p 23 0 32
def tempRows (p : Prob) (k : Nat) : Nat := pfld p (24 + k) 0 12
def tempCols (p : Prob) (k : Nat) : Nat := pfld p (24 + k) 16 12
def g (p : Prob) : Nat := pfld p 32 0 44
def gFmt (p : Prob) : Nat := pfld p 34 0 4
def dpEn (p : Prob) : Bool := pfld p 34 4 1 == 1
def daEn (p : Prob) : Bool := pfld p 34 5 1 == 1
def dgrad (p : Prob) : Nat := pfld p 35 0 44
def dgradCap (p : Prob) : Nat := pfld p 37 0 32

/-- Bytes of a solution block (12 R368). -/
def blockBytes (p : Prob) : Nat := roundUp (64 + 8 * (p.n + 2 * p.m)) 64

/-- Bytes of a gradient block (12 R372). -/
def gradBytes (p : Prob) : Nat :=
  roundUp (64 + 4 * (p.n + 2 * p.m + (if p.dpEn then p.n * p.n else 0) + (if p.daEn then p.m * p.n else 0))) 64

/-- Working store of one problem (12 R357). -/
def storeBytes (p : Prob) (backward : Bool) : Nat :=
  8 * (p.n * (p.n + 1) + p.m * p.n + 6 * p.n + 8 * p.m + ((List.range 8).map fun k => p.tempRows k * p.tempCols k).foldl (· + ·) 0) +
  (if backward then 4 * (p.n + p.m) * (p.n + p.m + 1) else 0)

/-- Problems of one group (12 R357). -/
def groupSize (p : Prob) (backward : Bool) : Nat := max 1 (min 64 (0x3000000 / max 1 (p.storeBytes backward)))

end Prob

/-- The solver settings of a command on the Press of die `d`. -/
def State.settings (s : State) (d : Nat) (p : Prob) (deadline : Nat) : Settings :=
  let e := toSigned 8 (s.fld (Reg.prsTauExp d))
  ⟨p.ipm, p.maxIter, pfld p 8 0 64, pfld p 10 0 64, pfld p 12 0 64, pfld p 14 0 64, pfld p 16 0 64, enc fp64 (.fin false 1 e), deadline⟩

/-! Sources (12 R351 Table 4). -/

/-- A source descriptor. -/
structure Source where
  addr   : Nat
  sfmt   : Nat
  tiled  : Bool
  rows   : Nat
  cols   : Nat
  stride : Nat
  deriving DecidableEq, Repr

/-- The record at an address, with what it names: each is read once, before any data moves (12 R350, R354). -/
def State.readProb (s : State) (a : Nat) : Prob :=
  let p : Prob := leNat (bytesAt s.mem a 256)
  p + 2 ^ 2048 * leNat (bytesAt s.mem p.srcTable (16 * min 16 p.srcCount)) + 2 ^ 4096 * leNat (bytesAt s.mem p.prog (16 * p.progLen))

/-- Source descriptor `i`. -/
def Prob.source (p : Prob) (i : Nat) : Source :=
  let v := pfld p (64 + 4 * i) 0 128
  ⟨bits v 0 44, bits v 44 2, bit v 46, bits v 64 12, bits v 80 12, bits v 96 32⟩

/-- A descriptor outside Table 4. -/
def Source.bad (x : Source) : Bool :=
  x.rows == 0 || decide (2048 < x.rows) || x.cols == 0 || decide (2048 < x.cols) || x.stride % 64 != 0 || (x.tiled && x.sfmt == 0)

/-- The format of an element. -/
def Source.fmt (x : Source) : Fmt := if x.sfmt = 0 then fp64 else if x.sfmt = 1 then fp32 else if x.sfmt = 2 then bf16 else fp16

/-- Bytes of an element. -/
def Source.eb (x : Source) : Nat := if x.sfmt = 0 then 8 else if x.sfmt = 1 then 4 else 2

/-- Bytes of a source. -/
def Source.bytes (x : Source) : Nat := x.eb * if x.tiled then cdiv x.rows 16 * cdiv x.cols 16 * 256 else x.rows * x.cols

/-- A source of problem `k` as a matrix, widened exactly. -/
def State.sourceMat (s : State) (x : Source) (k : Nat) : Rows :=
  (List.range x.rows).map fun r => (List.range x.cols).map fun c =>
    let i := if x.tiled then (r / 16 * cdiv x.cols 16 + c / 16) * 256 + r % 16 * 16 + c % 16 else r * x.cols + c
    enc fp64 (x.fmt.decode (leNat (bytesAt s.mem (x.addr + k * x.stride + x.eb * i) x.eb)))

/-! The couch program (12 R352–R354). -/

/-- A couch instruction. -/
structure Couch where
  op  : Nat
  dst : Nat
  x   : Nat
  y   : Nat
  tx  : Bool
  ty  : Bool
  r0  : Nat
  c0  : Nat
  imm : Nat
  deriving DecidableEq, Repr

/-- Instruction `i` of a program. -/
def Prob.couch (p : Prob) (i : Nat) : Couch :=
  let v := pfld p (128 + 4 * i) 0 128
  ⟨bits v 0 8, bits v 8 4, bits v 12 4, bits v 16 4, bit v 20, bit v 21, bits v 32 12, bits v 48 12, bits v 64 64⟩

/-- The instructions of a record. -/
def Prob.couches (p : Prob) : List Couch := (List.range p.progLen).map p.couch

/-- What the program does: it ends at END or after PROG_LEN instructions. -/
def Prob.program (p : Prob) : List Couch := p.couches.takeWhile fun i => i.op != 0

/-- The instructions of the program, its END among them. -/
def Prob.wholeProgram (p : Prob) : List Couch := p.couches.take (p.program.length + 1)

/-- Shape of a register; none for registers 13–15 and unused temporaries. -/
def Prob.shape (p : Prob) (r : Nat) : Option (Nat × Nat) :=
  if r = 0 then some (p.n, p.n) else if r = 1 then some (p.n, 1) else if r = 2 then some (p.m, p.n)
  else if r = 3 ∨ r = 4 then some (p.m, 1)
  else if r ≤ 12 then (if p.tempRows (r - 5) = 0 then none else some (p.tempRows (r - 5), p.tempCols (r - 5)))
  else none

/-- A shape, transposed or not. -/
def opShape (t : Bool) (x : Nat × Nat) : Nat × Nat := if t then (x.2, x.1) else x

/-- The region of an instruction lies in its destination. -/
def regionIn (i : Couch) (d r : Nat × Nat) : Bool := decide (i.r0 + r.1 ≤ d.1) && decide (i.c0 + r.2 ≤ d.2)

/-- An instruction fails validation (12 R354). Its DST names a register whatever its opcode, its X and Y where the opcode uses them as
registers (log 80). -/
def Prob.couchBad (p : Prob) (i : Couch) : Bool :=
  let v := fp64.decode i.imm
  let src := p.source i.x
  decide (7 < i.op) || v.isNan || (!v.isFin && i.op != 5) ||
  match p.shape i.dst with
  | none => true
  | some d =>
    if i.op = 1 then decide (p.srcCount ≤ i.x) || !regionIn i d (opShape i.tx (src.rows, src.cols))
    else if i.op = 2 ∨ i.op = 3 then
      match p.shape i.x with
      | none => true
      | some x => !regionIn i d (opShape i.tx x)
    else if i.op = 4 then
      match p.shape i.x, p.shape i.y with
      | some x, some y =>
        let a := opShape i.tx x
        let b := opShape i.ty y
        a.2 != b.1 || i.dst == i.x || i.dst == i.y || !regionIn i d (a.1, b.2)
      | _, _ => true
    else false

/-- The registers of the couch stage. -/
abbrev CouchRegs := List Rows

/-- The registers at the start of a problem. -/
def Prob.couchStart (p : Prob) : CouchRegs :=
  (List.range 13).map fun r =>
    let sh := (p.shape r).getD (0, 0)
    let v := if r = 3 then dNegInf else if r = 4 then dInf else d0
    List.replicate sh.1 (List.replicate sh.2 v)

/-- The columns of a matrix that may have no rows. -/
def colsOf (x : Rows) : Nat := match x with | r :: _ => r.length | [] => 0

/-- op(X). -/
def opMat (t : Bool) (x : Rows) : Rows := if t then transposed (colsOf x) x else x

/-- A region of a matrix combined with a block. -/
def intoRegion (f : Nat → Nat → Nat) (r0 c0 : Nat) (d b : Rows) : Rows :=
  d.zipIdx.map fun dr =>
    if dr.2 < r0 then dr.1
    else match b[dr.2 - r0]? with
      | none => dr.1
      | some br => dr.1.zipIdx.map fun e =>
          if e.2 < c0 then e.1 else match br[e.2 - c0]? with | some v => f e.1 v | none => e.1

/-- One couch instruction on the registers (12 R352, R353). -/
def couchStep (src : Nat → Rows) (regs : CouchRegs) (i : Couch) : CouchRegs :=
  let get := fun r => regs.getD r []
  let d := get i.dst
  let put := fun v => regs.set i.dst v
  if i.op = 1 then put (intoRegion (fun _ v => fMul fp64 i.imm v) i.r0 i.c0 d (opMat i.tx (src i.x)))
  else if i.op = 2 then put (intoRegion (fun _ v => fMul fp64 i.imm v) i.r0 i.c0 d (opMat i.tx (get i.x)))
  else if i.op = 3 then put (intoRegion (fun o v => fFma fp64 i.imm v o) i.r0 i.c0 d (opMat i.tx (get i.x)))
  else if i.op = 4 then
    let y := opMat (!i.ty) (get i.y)
    put (intoRegion (fun o v => fFma fp64 i.imm v o) i.r0 i.c0 d ((opMat i.tx (get i.x)).map fun r => y.map fun c => dot r c))
  else if i.op = 5 then put (d.map fun r => r.map fun _ => i.imm)
  else if i.op = 6 then
    put (d.zipIdx.map fun r => r.1.zipIdx.map fun e =>
      if i.r0 ≤ r.2 ∧ i.c0 ≤ e.2 ∧ r.2 - i.r0 = e.2 - i.c0 then fAdd fp64 e.1 i.imm else e.1)
  else if i.op = 7 then put (d.map fun r => r.map (fMul fp64 i.imm))
  else regs

/-- Problem `k`, assembled; whether its data are bad (12 R355). -/
def State.assemble (s : State) (p : Prob) (k : Nat) : Qp × Bool :=
  let regs := p.program.foldl (couchStep fun i => s.sourceMat (p.source i) k) p.couchStart
  let col := fun r => (regs.getD r []).map fun x => x.headD 0
  let pm := regs.getD 0 []
  let a := regs.getD 2 []
  (⟨p.n, p.m, lowerSym pm, col 1, a, col 3, col 4⟩, dataBad p.n p.m pm (col 1) a (col 3) (col 4))

/-! Checks (12 R356). -/

/-- The fields of the record that check 3 judges. -/
def Prob.bad (p : Prob) (op deadline : Nat) : Bool :=
  let pos := fun v => decide (0x0010000000000000 ≤ v) && decide (v < 0x7FF0000000000000)
  let alpha := pfld p 16 0 64
  let fmtBad := fun f => f != 0 && f != 0xF
  (if p.batched then p.n == 0 || decide (64 < p.n) || decide (128 < p.m) else p.n == 0 || decide (1024 < p.n) || decide (2048 < p.m)) ||
  p.progLen == 0 || decide (1024 < p.progLen) || decide (16 < p.srcCount) || p.maxIter == 0 ||
  (p.xOutEn && op == 0 && fmtBad p.xOutFmt) || (op == 1 && fmtBad p.gFmt) ||
  !pos (pfld p 8 0 64) || !pos (pfld p 10 0 64) || !pos (pfld p 12 0 64) || !pos (pfld p 14 0 64) ||
  !(fLt fp64 d0 alpha && fLt fp64 alpha 0x4000000000000000) ||
  (deadline != 0 && (p.batched || op == 1)) || (op == 1 && !p.batched)

/-- HBM or a backed scratchpad half. -/
def State.inVault (s : State) (a len : Nat) : Bool := len == 0 || s.atVault a len

/-- The sources of a record. -/
def Prob.sources (p : Prob) : List Source := (List.range p.srcCount).map p.source

/-- The upstream gradient, and X_OUT, as matrices. -/
def Prob.mat (base fmt count n : Nat) : Mat := ⟨base, fmt, 16, false, false, count, n⟩

/-- The checks of a PRESS command, in order; a COUNT of zero passes them as a no-op. -/
def State.pressFault (s : State) (sid : Nat) (c : Cmd) (op : Nat) : Option Status :=
  let d := c.desc
  let who := requesterOf sid
  let pa := daddr d 8 9 12
  let deadline := dword d 11
  let count := s.countOf sid d 0 (dfld d 10 0 13)
  let p := s.readProb pa
  let readable := fun a len => len == 0 || s.reach who .read a len
  let writable := fun a len => len == 0 || s.reach who .write a len
  let xo := Prob.mat p.xOut p.xOutFmt count p.n
  let gm := Prob.mat p.g p.gFmt count p.n
  let srcs := p.sources
  let tables := readable p.srcTable (16 * p.srcCount) && readable p.prog (16 * p.progLen)
  (firstFault [(pa % 256 != 0 || !s.inVault pa 256 || !s.reach who .read pa 256, .addressFault)]).or
  ((s.readHurt pa 256).or
  ((firstFault [(p.bad op deadline, .descriptorFault)]).or
  ((if tables then (s.readHurt p.srcTable (16 * p.srcCount)).or ((s.readHurt p.prog (16 * p.progLen)).or (firstFault
    [(srcs.any Source.bad || p.wholeProgram.any p.couchBad, .descriptorFault)])) else none).or
  ((s.shapeFault sid d).or
  (if count = 0 then none else firstFault
    [(decide ((if p.batched then 4096 else 1) < count), .descriptorFault),
     (decide (0x3000000 < p.storeBytes (op == 1)), .sizeFault),
     (op == 0 && decide (64 * p.outCap < count * p.blockBytes), .sizeFault),
     (op == 0 && p.xOutEn && decide (64 * p.xOutCap < xo.tileBytes), .sizeFault),
     (op == 1 && decide (64 * p.dgradCap < count * p.gradBytes), .sizeFault),
     (!tables || srcs.any (fun x => !readable x.addr (x.stride * (count - 1) + x.bytes)), .addressFault),
     (!(if op = 0 then writable p.out (count * p.blockBytes) else readable p.out (count * p.blockBytes)), .addressFault),
     (op == 0 && p.xOutEn && !writable p.xOut xo.tileBytes, .addressFault),
     (op == 1 && (!writable p.dgrad (count * p.gradBytes) || !readable p.g gm.tileBytes), .addressFault)])))))

/-- The extents a command reads and writes. -/
def Prob.exts (p : Prob) (op count : Nat) : List Ext :=
  p.sources.map (fun x => (false, x.addr, x.stride * (count - 1) + x.bytes)) ++
  (if op = 0 then (if p.warm then [(false, p.out, count * p.blockBytes)] else []) ++ [(true, p.out, count * p.blockBytes)] ++
     (if p.xOutEn then [(true, p.xOut, (Prob.mat p.xOut p.xOutFmt count p.n).tileBytes)] else [])
   else [(false, p.out, count * p.blockBytes), (false, p.g, (Prob.mat p.g p.gFmt count p.n).tileBytes),
         (true, p.dgrad, count * p.gradBytes)])

/-- The extents that problem `k` reads: its LOADs' sources, its solution block, and with problem 0 the upstream gradients. -/
def Prob.reads (p : Prob) (op k count : Nat) : List (Nat × Nat) :=
  ((p.program.filter (·.op == 1)).map fun i => ((p.source i.x).addr + k * (p.source i.x).stride, (p.source i.x).bytes)) ++
  (if op = 1 ∨ p.warm then [(p.out + k * p.blockBytes, p.blockBytes)] else []) ++
  (if op = 1 ∧ k = 0 then [(p.g, (Prob.mat p.g p.gFmt count p.n).tileBytes)] else [])

/-- The Press reads extents. -/
def readAll (sid : Nat) (es : List (Nat × Nat)) : Prog := forEach es fun e => touch false (requesterOf sid) e.1 e.2

/-! Outputs (12 R368, R372). -/

/-- A problem status word (12 Table 8). -/
def statusWord (st : Status) (conv zero small dead bad : Bool) (iters pivots factors rp rd obj cycles act : Nat) : List Byte :=
  let b := fun (x : Bool) (i : Nat) => if x then 2 ^ i else 0
  leBytes 4 (statusCode st + b conv 16 + b zero 17 + b small 18 + b dead 19 + b bad 20) ++ leBytes 4 iters ++ leBytes 4 pivots ++
  leBytes 4 factors ++ leBytes 8 rp ++ leBytes 8 rd ++ leBytes 8 obj ++ leBytes 4 cycles ++ leBytes 4 act ++ List.replicate 16 0

/-- A vector of FP64 in memory. -/
def State.vec64 (s : State) (a n : Nat) : Vec := (List.range n).map fun i => leNat (bytesAt s.mem (a + 8 * i) 8)

/-- Iterate 0 of problem `k`. -/
def State.iterate0 (s : State) (p : Prob) (k : Nat) : Iterate :=
  let a := p.out + k * p.blockBytes + 64
  if p.warm then ⟨s.vec64 a p.n, s.vec64 (a + 8 * p.n) p.m, s.vec64 (a + 8 * (p.n + p.m)) p.m, [], []⟩
  else ⟨List.replicate p.n 0, List.replicate p.m 0, List.replicate p.m 0, [], []⟩

/-- What problem `k` of a SOLVE comes to. -/
def State.solveProblem (s : State) (cfg : Settings) (p : Prob) (k asm : Nat) (stopAt : Option (Nat × Nat)) : Qp × Outcome :=
  let x := s.assemble p k
  let i0 := s.iterate0 p k
  let start := if cfg.ipm then ipStart x.1 i0.x else i0
  (x.1, if x.2 then { finish cfg x.1 ⟨false, false, 0, 0⟩ .numericFail 0 asm start with bad := true } else solveQp cfg x.1 i0 asm stopAt)

/-- A command keeps what problem `k` came to: its status counts for the command's own (12 R369). -/
def keepStatus (sid acc : Nat) (st : Status) : Prog := updCmd sid acc fun c => { c with kept := c.kept ++ [statusCode st] }

/-- The outputs of problem `k` of a SOLVE, and its counts. -/
def writeSolution (sid acc d : Nat) (p : Prob) (k : Nat) (r : Qp × Outcome) (cfg : Settings) : Prog := drawFree fun n =>
  let o := r.2
  let x := r.1
  let cyc := if p.batched then Config.freeAt n 0 else o.cycles
  let eb := fmtBits p.xOutFmt / 8
  seqs [writeBytes (requesterOf sid) (p.out + k * p.blockBytes)
          (statusWord o.status o.conv o.zero o.small o.dead o.bad o.k o.pivots o.factors (primalRes cfg x o.it) (dualRes x o.it)
             (objective x o.it) cyc 0 ++ (o.it.x ++ o.it.z ++ o.it.y).flatMap (leBytes 8)),
        onlyIf p.xOutEn (forEach o.it.x.zipIdx fun e =>
          writeBytes (requesterOf sid) (p.xOut + eb * (Prob.mat p.xOut p.xOutFmt 1 p.n).index k e.2)
            (leBytes eb (enc (elemFmt p.xOutFmt) (fp64.decode e.1)))),
        incF (Reg.prsFactors d) o.factors, incF (Reg.prsPivots d) o.pivots,
        onlyIf (o.status == .deadlineMiss || o.status == .factorAbandoned) (incF (Reg.prsDeadlineMisses d)),
        onlyIf (o.status == .numericFail) (incF (Reg.prsNumericFails d)),
        onlyIf (o.status == .notConverged) (incF (Reg.prsNotConverged d)),
        setF (Reg.prsStrmProblem sid) k, setF (Reg.prsStrmIter sid) o.k, setF (Reg.prsStrmCycles sid) cyc, keepStatus sid acc o.status]

/-- The backward pass of problem `k`: its status and gradient block (12 R371, R372). The words of Table 8 that name a returned iterate
have no stated value here and are free (log 1). -/
def backwardProblem (sid acc d : Nat) (cfg : Settings) (p : Prob) (k count : Nat) : Prog := drawFree fun n => withS fun s =>
  let base := p.out + k * p.blockBytes
  let x := s.assemble p k
  let conv := bit (leNat (bytesAt s.mem base 4)) 16
  let a := base + 64
  let gm := Prob.mat p.g p.gFmt count p.n
  let g := (List.range p.n).map fun j => enc fp64 (s.matElem gm k j).1
  let gr := if x.2 || !conv then Grads.zero x.1
    else backwardQp cfg x.1 (s.vec64 a p.n) (s.vec64 (a + 8 * p.n) p.m) (s.vec64 (a + 8 * (p.n + p.m)) p.m) g p.dpEn p.daEn
  let st := if x.2 || gr.failed then Status.numericFail else if !conv then .notConverged else .ok
  let f32 := fun (v : Vec) => v.flatMap fun e => leBytes 4 (enc fp32 (fp64.decode e))
  seqs [writeBytes (requesterOf sid) (p.dgrad + k * p.gradBytes)
          (statusWord st conv gr.tally.zero gr.tally.small false x.2 (Config.freeAt n 0) gr.tally.pivots gr.tally.factors
             (Config.freeAt n 1) (Config.freeAt n 2) (Config.freeAt n 3) (Config.freeAt n 4) gr.act ++
           f32 gr.dq ++ f32 gr.dl ++ f32 gr.du ++ (if p.dpEn then gr.dp.flatMap f32 else []) ++ (if p.daEn then gr.da.flatMap f32 else [])),
        incF (Reg.prsFactors d) gr.tally.factors, incF (Reg.prsPivots d) gr.tally.pivots,
        onlyIf (st == .numericFail) (incF (Reg.prsNumericFails d)),
        onlyIf (st == .notConverged) (incF (Reg.prsNotConverged d)), setF (Reg.prsStrmProblem sid) k, keepStatus sid acc st]

/-- The status of the first code on the list of 12 R369 that any problem holds. -/
def pressStatus (tolerate : Bool) (codes : List Nat) : Status :=
  ([Status.factorAbandoned, .deadlineMiss, .numericFail] ++ if tolerate then [] else [Status.notConverged]).find?
    (fun st => codes.contains (statusCode st)) |>.getD .ok

/-! The class (12 R367). -/

/-- The Press of a stream. -/
def pressDie (sid : Nat) : Nat := (sid - 1064) / 4

/-- A lower-numbered stream of the same Press has a command issued. -/
def State.lowerStream (s : State) (sid : Nat) : Bool :=
  (List.range ((sid - 1064) % 4)).any fun j => !(s.strm (1064 + 4 * pressDie sid + j)).issued.isEmpty

/-- The groups of a command from problem `first`, each problem by `one`: after a group that is not the last the command yields to a
lower-numbered stream that has a command (12 R367); the fuel is the groups left. -/
def pressGroups (sid : Nat) (c : Cmd) (size count : Nat) (one : Nat → Prog) (done : Prog) : Nat → Nat → Prog
  | 0, _ => done
  | fuel + 1, first =>
    let last := min count (first + size)
    seqs [forEach (List.range (last - first)) fun i => one (first + i),
          markCmd sid c last,
          if count ≤ last then done
          else withS fun s =>
            if s.lowerStream sid then seq (incF (Reg.prsYields (pressDie sid))) (updCmd sid c.acc fun x => { x with phase := last })
            else pressGroups sid c size count one done fuel last]

/-- An injected Press error (16 R479): corrected in the store, or a residue error that ends the command. -/
def pressInjected (d : Nat) (bad good : Prog) : Prog := withS fun s =>
  match s.cons.armed.find? (fun x => x.target == 0x0D && x.unit == d) with
  | none => good
  | some x => seq (useArmed 0x0D d 0 true false fun kind =>
      if kind = 0 then seq (incF Reg.csvCeCount) (logDetect true 0x0D d d 0 1 .ok) else logDetect true 0x0D d d 0 1 .unitFault)
      (if x.kind = 0 then good else bad)

/-- The end of a command's work: its status is the first on the list of 12 R369 that a problem holds. -/
def pressDone (sid : Nat) (c : Cmd) : Prog := withS fun s =>
  let codes := (((s.strm sid).issued.find? (·.acc == c.acc)).map fun x => x.kept.drop 2).getD []
  seqs [timed (Reg.prsBusyCycles (pressDie sid)), endCmd sid c (pressStatus (dfld c.desc 12 0 1 == 1) codes)]

/-- A command of the PRESS class: `one` runs problem `k` of the record. It keeps its record and its COUNT, which are read once, and the
statuses of its problems. -/
def pressProg (sid : Nat) (c : Cmd) (op : Nat) (one : Prob → Settings → Nat → Nat → Prog) : Prog := withS fun s =>
  let d := pressDie sid
  let pa := daddr c.desc 8 9 12
  let p := if c.phase = 0 then s.readProb pa else c.kept.getD 0 0
  let count := if c.phase = 0 then s.countOf sid c.desc 0 (dfld c.desc 10 0 13) else c.kept.getD 1 0
  let cfg := s.settings d p (dword c.desc 11)
  let groups := pressGroups sid c (p.groupSize (op == 1)) count (fun k => seq (readAll sid (p.reads op k count)) (one p cfg count k))
    (pressDone sid c) count c.phase
  if s.lowerStream sid then skip
  else if c.phase ≠ 0 then groups
  else match s.pressFault sid c op with
    | some st => endCmd sid c st
    | none =>
      if count = 0 then endCmd sid c .ok
      else
        let exts := p.exts op count
        match exts.findSome? fun e => if e.1 then s.writeHurt e.2.1 e.2.2 else s.readHurt e.2.1 e.2.2 with
        | some st => endCmd sid c st
        | none => whenReady exts (seqs
            [startCmd sid c, updCmd sid c.acc fun x => { x with kept := [p, count] },
             readAll sid [(pa, 256), (p.srcTable, 16 * p.srcCount), (p.prog, 16 * p.progLen)],
             pressInjected d (endCmd sid c .unitFault) groups])

/-- SOLVE: `asm` is the Press cycle, counted from the command's acceptance, at which its assembly ends. -/
def solveProg (sid asm : Nat) (c : Cmd) : Prog := pressProg sid c 0 fun p cfg _ k => withS fun s =>
  writeSolution sid c.acc (pressDie sid) p k (s.solveProblem cfg p k asm none) cfg

/-- BACKWARD. -/
def backwardProg (sid : Nat) (c : Cmd) : Prog :=
  pressProg sid c 1 fun p cfg count k => backwardProblem sid c.acc (pressDie sid) cfg p k count

/-- PRESS_DEADLINE_CHECK: a check within the factorisation of iteration `iter` at cycle `cyc` that finds the deadline passed abandons
the factorisation; the solve reached it. -/
def deadlineProg (sid cyc iter : Nat) (c : Cmd) : Prog := withS fun s =>
  let d := pressDie sid
  let p := s.readProb (daddr c.desc 8 9 12)
  let deadline := dword c.desc 11
  let cfg := { s.settings d p deadline with deadline := 0 }
  let count := s.countOf sid c.desc 0 (dfld c.desc 10 0 13)
  let exts := p.exts 0 count
  let hurt := exts.any fun e => (if e.1 then s.writeHurt e.2.1 e.2.2 else s.readHurt e.2.1 e.2.2).isSome
  if deadline = 0 ∨ cyc < deadline ∨ s.lowerStream sid ∨ (s.pressFault sid c 0).isSome ∨ count ≠ 1 ∨ hurt then skip
  else
    let r := s.solveProblem cfg p 0 0 (some (if p.ipm then iter else 1, cyc))
    onlyIf (r.2.status == .factorAbandoned) (whenReady exts (seqs
      [startCmd sid c, readAll sid (p.reads 0 0 count), writeSolution sid c.acc d p 0 r cfg, timed (Reg.prsBusyCycles d),
       endCmd sid c .factorAbandoned]))

/-- A Press stream hands the Press its issued commands one at a time, in issue order (12 R367). -/
def onPress (sid acc op : Nat) (k : Cmd → Prog) : Prog := withS fun s =>
  onlyIf ((s.strm sid).issued.head?.map (·.acc) == some acc) (onIssued sid acc 0x13 op k)

/-! The commands. -/

/-- SOLVE (12 R363). -/
def execSolve (sid acc asmCycles : Nat) (s : State) : Out :=
  .next (run (onPress sid acc 0 (solveProg sid asmCycles)) s)

/-- BACKWARD (12 R371). -/
def execBackward (sid acc : Nat) (s : State) : Out := .next (run (onPress sid acc 1 (backwardProg sid)) s)

/-- PRESS_DEADLINE_CHECK (12 R364). -/
def execPressDeadlineCheck (sid acc cycles iter : Nat) (s : State) : Out :=
  .next (run (onPress sid acc 0 (deadlineProg sid cycles iter)) s)

/-- PRS_CNT_CLEAR (12 R373). -/
def execPrsCntClear (d : Nat) (s : State) : Out :=
  .next (run (onlyIf (decide (d < 2)) (setF (Reg.prsBusyCycles d) 0)) s)

end Sys2Proof.Machine
end

