-- ==== Sys2Proof/Machine/Power.lean ====
section
/-! DEFINITION. Power, clocks, reset and start-up (chapter 14), the reset and status lands (17 R470, R471), the keys and measurements
derived at boot (15 R424–R428), and debug state across resets (15 R439). -/

namespace Sys2Proof.Machine

/-! The lands (17 R470 Table 4). -/

/-- The power block is changed. -/
def updPow (f : PowX → PowX) : Prog := withS fun s => emit [.pow (f s.pow)]

/-- The clock controls are changed. -/
def updClk (f : ClkX → ClkX) : Prog := withS fun s => emit [.clk (f s.clk)]

/-- The levels of FAULT_N, THERM_TRIP_N, POWER_OFF_REQ_N and CUST_ALERT_N, true for high: low while the Custodian is down, and while
what each reports stands (17 R470 Table 4, R473; 14 R400, R403, R412, R420; 16 R458, R467). -/
def State.lands (s : State) : List Bool :=
  [s.pow.custUp && !(s.pow.fault || s.pow.refFault || s.pow.linkLost || s.fld Reg.pwrBootStage == 15),
   s.pow.custUp && s.pow.trip.isNone,
   s.pow.custUp && !s.pow.off,
   s.pow.custUp && s.fld Reg.cstAlertCause == 0]

/-! The land field (17 R468, R469). -/

/-- A land stands at a column and a row of the grid. -/
def landAt (c r : Nat) : Bool :=
  decide (1 ≤ c ∧ c ≤ 108 ∧ 1 ≤ r ∧ r ≤ 100) && !decide (29 ≤ c ∧ c ≤ 80 ∧ 29 ≤ r ∧ r ≤ 72)

/-- The centre of a land from the package's, X and Y in half millimetres. -/
def landCentre (c r : Nat) : Int × Int := (2 * c - 109, 2 * r - 101)

/-- The regions of the land field (17 Table 1). -/
inductive LandRegion where
  | minusY | plusY | minusX | plusX | core
  deriving DecidableEq, Repr

/-- The region of a land. -/
def landRegion (c r : Nat) : LandRegion :=
  if r ≤ 14 then .minusY else if 87 ≤ r then .plusY else if c ≤ 8 then .minusX else if 101 ≤ c then .plusX else .core

/-- The lands of each group of 17 Table 2: Chener, PCIe, reference clocks, reset and status, management, boot SPI, debug, rail sense, reserved,
power, ground. -/
def landGroups : List Nat := [1296, 134, 3, 6, 4, 6, 5, 32, 16, 3561, 3449]

/-- The power lands of each rail (17 Table 3), in the order of 14 Table 1, VDD_CD0 and VDD_CD1 apart. -/
def railLands : List Nat := [3, 2, 6, 14, 4, 190, 20, 28, 130, 1160, 1160, 320, 150, 190, 170, 14]

/-- The dies are held in reset: the package leaves reset only when every cause has ended (17 R471). -/
def State.held (s : State) : Bool :=
  let p := s.pow
  !p.custUp || !p.mainUp || !p.pwrok || p.resetLow || p.fault || p.trip.isSome || p.off

/-- The Chener transmitters of a port drive in the training states and in ACTIVE, and are idle elsewhere (17 R474). -/
def State.portDrives (s : State) (p : Nat) : Bool :=
  !s.held && decide (1 ≤ s.fld (Reg.chnPortState p)) && decide (s.fld (Reg.chnPortState p) ≤ 7)

/-- The outputs of 17 R470 Table 4 besides the Custodian's four. -/
inductive OutLand where
  | perstN | spiCsIo | spiClk | dbgTdo | custI3cSda | hdI3cSda | chnTx (p : Nat) | pcieTx
  deriving DecidableEq, Repr

/-- What a land shows: a level, the board's pull to the VDDIO supply, nothing driven, electrical idle, or what its driver makes of it. -/
inductive LandLevel where
  | low | high | followsVddio | highImpedance | idle | driven
  deriving DecidableEq, Repr

/-- What an output land shows with the Custodian or the main rails down, in reset, and running (17 R470 Table 4, R474). -/
def State.landLevel (s : State) (l : OutLand) : LandLevel :=
  let rails := s.pow.custUp && s.pow.mainUp
  match l with
  | .perstN | .spiClk => if s.held then .low else .driven
  | .spiCsIo => if !rails then .followsVddio else if s.held then .high else .driven
  | .dbgTdo => if !rails then .followsVddio else if s.held || s.fld Reg.secDebugState == 0 then .high else .driven
  | .custI3cSda => if s.pow.custUp then .driven else .highImpedance
  | .hdI3cSda => if s.held then .highImpedance else .driven
  | .chnTx p => if !rails then .highImpedance else if s.portDrives p then .driven else .idle
  | .pcieTx => if !rails then .highImpedance else if s.held then .idle else .driven

/-! Resets (14 R407–R410). -/

/-- A power-up under `cause`: the Custodian keeps its state; the boot count, debug state and kept-HBM word follow 14 R407, R408 and
15 R439. KEEP_HBM is not honoured with a rail, reference or PLL fault, with an unlock pending, or in an unlocked power-on. -/
def powerUp (cause : Nat) (keep newCount : Bool) : Prog := withS fun s =>
  let pend := s.flagBit Reg.secDebugPending
  let kept := keep && !pend && !s.flagBit Reg.secDebugState && !s.pow.fault && !s.pow.refFault
  seqs [emit [.restart kept],
        setF Reg.pwrResetCause cause,
        setF Reg.pwrBootCount (s.boot + if newCount then 1 else 0),
        setF Reg.pwrHbmKept (if kept then 1 else 0),
        setF Reg.secDebugState (if pend then 1 else 0),
        setF Reg.secDebugPending 0,
        updPow fun p => { p with keepHbm := kept }]

/-- COLD_POWER_UP: the Custodian starts with cleared state; the board holds PKG_RESET_N low (14 R399). -/
def coldProg : Prog :=
  seqs [emit [.cold], setF Reg.pwrBootCount 1,
        updPow fun p => { p with mainUp := false, pwrok := false, resetLow := true, first := true }]

/-- MAIN_RAIL_POWER_UP: the first one after a cold start ends the cold power-up, whose count is 1 and cause 0. -/
def mainUpProg : Prog := withS fun s =>
  onlyIf (s.pow.custUp && !s.pow.mainUp)
    (seqs [updPow fun p => { p with fault := false },
           powerUp (if s.pow.first then 0 else s.pow.cause.getD 1) false (!s.pow.first),
           updPow fun p => { p with mainUp := true, pwrok := false, off := false, first := false, cause := none }])

/-- A package reset (14 R407): with no main rails there is nothing to reset. -/
def packageReset (cause : Nat) (keep : Bool) : Prog := withS fun s =>
  onlyIf s.pow.mainUp (powerUp cause keep true)

/-- PKG_RESET: the level holds the dies in reset; while something else holds them, its own cause stands. -/
def pkgResetProg : Prog := withS fun s =>
  seq (onlyIf (!s.held) (packageReset 2 false)) (updPow fun p => { p with resetLow := true })

/-- PKG_RESET_RELEASE: the land is high; the dies leave reset once PKG_PWROK is good too (17 R471). -/
def resetReleaseProg : Prog := updPow fun p => { p with resetLow := false }

/-- PKG_PWROK_RISE is acted on only with the groups in tolerance. -/
def pwrokProg (inTolerance : Bool) : Prog := withS fun s =>
  onlyIf (inTolerance && s.pow.mainUp) (updPow fun p => { p with pwrok := true })

/-- The Ledger tail event of a rail fault or a trip, and the dies lose what a reset clears (14 R400, R419). -/
def holdDies (cause item : Nat) : Prog :=
  seqs [logEv .custodian 0 .ok 0 false (.power cause item 0), emit [.restart false], setF Reg.pwrResetCause cause,
        updPow fun p => { p with cause := some cause }]

/-- RAIL_FAULT. A fall of PKG_PWROK, or a rail out of tolerance, while PKG_RESET_N is low is no fault (14 R400, 17 R471). -/
def railFaultProg (c : RailCause) : Prog := withS fun s =>
  let fault (item : Nat) : Prog := seq (holdDies 4 item) (updPow fun p => { p with fault := true, mainUp := true, pwrok := false })
  if !s.pow.custUp then skip
  else match c with
    | .groupOrder g => fault g
    | .pwrokFell => if s.pow.resetLow then updPow fun p => { p with pwrok := false } else fault 0
    | .outOfTolerance r => if s.pow.resetLow then skip else fault r

/-- REFERENCE_FAULT: a package reset without KEEP_HBM; the boot waits at stage 1 (14 R403). -/
def refFaultProg : Prog := withS fun s =>
  onlyIf s.pow.custUp (seq (onlyIf (!s.held) (packageReset 5 false)) (updPow fun p => { p with refFault := true }))

/-- CUST_REFCLK_LOSS. -/
def refclkLossProg : Prog := withS fun s =>
  onlyIf s.pow.custUp (seq (updPow fun p => { p with internalOsc := true }) (setBitF Reg.cstAlertCause 0 true))

/-- MAIN_RAIL_REMOVAL: device memory is lost, and POWER_OFF_REQ_N is driven high again (14 R401, 17 R473). -/
def removalProg : Prog := withS fun s =>
  onlyIf s.pow.custUp
    (seq (emit [.restart false])
      (updPow fun p => { p with mainUp := false, pwrok := false, off := false, trip := p.trip.map fun _ => true }))

/-- CUSTODIAN_RAIL_LOSS: all Custodian state is lost, and the next start is a cold power-up (14 R401). -/
def custLossProg : Prog := withS fun s =>
  seq (emit [.cold]) (updPow fun p => { p with custUp := false, mainUp := s.pow.mainUp, pwrok := false, resetLow := true })

/-! Measurements and keys (15 R424, R428). -/

/-- Measurement `i`, 48 bytes. -/
def State.meas (s : State) (i : Nat) : List Byte := (List.range 12).flatMap fun w => leBytes 4 (s.fld (Reg.secMeas (i - 1) w))

/-- Measurement `i` becomes a digest. -/
def setMeas (i : Nat) (d : List Byte) : Prog :=
  forEach (List.range 12) fun w => setF (Reg.secMeas (i - 1) w) (leNat ((d.drop (4 * w)).take 4))

/-- A measurement is extended with a digest. -/
def extendMeas (i : Nat) (d : List Byte) : Prog := withS fun s => setMeas i (sha384 (s.meas i ++ d))

/-- Words of the control space as bytes. -/
def State.ctlBytes (s : State) (off n : Nat) : List Byte := (List.range (n / 4)).flatMap fun w => leBytes 4 (s.word (off + 4 * w)).toNat

/-- Measurement 6: the debug state byte, the SEC_LINK_POLICY word and the digest of the pre-shared key. -/
def linkMeas : Prog := withS fun s =>
  setMeas 6 (sha384 (leBytes 1 (s.fld Reg.secDebugState) ++ leBytes 4 (s.word 0x100C).toNat ++
    sha384 ((List.range 8).flatMap fun w => leBytes 4 (s.fld (Reg.secLinkPsk w)))))

/-- CDI_0. -/
def State.cdi0 (s : State) : List Byte := hmac384 (leBytes 32 Config.uds) (s.meas 1 ++ s.meas 2 ++ s.meas 3)

/-- CDI_1. -/
def State.cdi1 (s : State) : List Byte := hmac384 s.cdi0 (s.meas 4 ++ leBytes 1 (s.fld Reg.secDebugState))

/-- A private scalar from a CDI. -/
def keyFrom (cdi : List Byte) (info : String) : Nat := scalarOf (hkdf384 cdi (ascii info) 56)

/-- Alias and LinkID are derived; every SPDM connection past GET_VERSION must start again (15 R430). -/
def deriveAlias : Prog := drawFree fun k => withS fun s =>
  emit [.sec { s.sec with certs := k, alias_ := keyFrom s.cdi1 "Alias", linkId := keyFrom s.cdi1 "LinkID",
                          spdm := s.sec.spdm.map fun e => (e.1, { e.2 with stale := decide (0 < e.2.phase) }) }]

/-! Boot (14 R411, R412). -/

/-- What the end of each stage has done. -/
def stageWork : Nat → Prog
  | 1 => seqs [setF Reg.clkLock 0x3FFFFFFF, updPow fun p => { p with refFault := false },
               setMeas 1 (beBytes 48 (Config.romDigest 1)), setMeas 2 (beBytes 48 (Config.romDigest 2))]
  | 2 => seqs [withS fun s => setMeas 3 (sha384 (s.ctlBytes 0 64 ++ Config.factoryList)),
               withS fun s => emit [.sec { s.sec with deviceId := keyFrom s.cdi0 "DeviceID" }],
               linkMeas, deriveAlias]
  | 3 => seq (updPow fun p => { p with linksUp := true }) (setF (Reg.htxMbState 0) 1)
  | 5 => seqs
    [drawFree fun k => withS fun s =>
       emit [.sec { s.sec with hbmKey := if s.pow.keepHbm then s.sec.hbmKey else Config.freeAt k 0, vaultKey := Config.freeAt k 1 }],
     setF Reg.secKeyHbm 1, setF Reg.secKeyVault 1,
     withS fun s => setF Reg.secKeyHbmKept (if s.pow.keepHbm then 1 else 0),
     setF (Reg.htxMbState 0) 0]
  | _ => skip

/-- BOOT_STAGE_END: stages 1–5 end in order; stage 6 lasts until LOAD_FIRMWARE ends with OK. -/
def bootEndProg : Prog := withS fun s =>
  let n := s.fld Reg.pwrBootStage
  onlyIf (!s.held && decide (1 ≤ n) && decide (n ≤ 5)) (seq (stageWork n) (setF Reg.pwrBootStage (n + 1)))

/-- BOOT_HALT: only a further reset retries the boot. -/
def bootHaltProg (st : Status) (die item : Nat) : Prog := withS fun s =>
  let n := s.fld Reg.pwrBootStage
  onlyIf (!s.held && decide (1 ≤ n) && decide (n ≤ 5) && (st == .unitFault || st == .memoryFault))
    (seqs [setF Reg.pwrBootStage 15, setF Reg.pwrBootFault (statusCode st), setF Reg.pwrBootUnitDie die, setF Reg.pwrBootUnitItem item,
           setF (Reg.htxMbState 0) 0])

/-! Operating points (14 R404, R405). -/

/-- The operating points of each kind of domain, highest first. -/
def corePoints : List Nat := [1400, 1300, 1200, 1100, 1000, 900, 800, 700]
def vaultPoints : List Nat := [1600, 1400, 1200]
def hbmPoints : List Nat := [1250, 1000]
def beaterPoints : List Nat := [1000, 800, 600]

/-- The point one step nearer the target. -/
def stepToward (points : List Nat) (cur target : Nat) : Nat :=
  let i := points.idxOf cur
  let j := points.idxOf target
  points.getD (if i < j then i + 1 else if j < i then i - 1 else i) cur

/-- The core clock of a die. -/
def coreMhz (d : Nat) : Fld := if d = 0 then Reg.clkCoreMhz0 else Reg.clkCoreMhz1
/-- The Vault clock of a die. -/
def vaultMhz (d : Nat) : Fld := if d = 0 then Reg.clkVaultMhz0 else Reg.clkVaultMhz1

/-- The thermal points of the core and Vault clocks of a die, and of the stack clocks (07 R223 Table 8, R224). -/
def State.thermCore (s : State) (d : Nat) : Nat := [1400, 1200, 1000, 700].getD (s.fld (Reg.vltThermState d)) 700
def State.thermVault (s : State) (d : Nat) : Nat := [1600, 1600, 1400, 1200].getD (s.fld (Reg.vltThermState d)) 1200
def State.thermHbm (s : State) (k : Nat) : Nat := [1250, 1250, 1250, 1000].getD (s.fld (Reg.hbmThermState k)) 1000
def State.thermBeater (s : State) (k : Nat) : Nat := [1000, 1000, 800, 600].getD (s.fld (Reg.hbmThermState k)) 600

/-- The lowest of the points that the controls of a core clock allow. -/
def State.coreTarget (s : State) (d : Nat) : Nat := min (s.thermCore d) (s.clk.limit.getD d 1400)

/-- A clock moves to a point, and the step is counted. -/
def moveClock (f : Fld) (p : Nat) : Prog := withS fun s => onlyIf (s.fld f != p) (seq (setF f p) (incF Reg.clkSteps))

/-- CLOCK_STEP. -/
def clockStepProg (dom : ClockDom) : Prog := withS fun s =>
  let go (f : Fld) (points : List Nat) (target : Nat) : Prog := moveClock f (stepToward points (s.fld f) target)
  match dom with
  | .core d => onlyIf (decide (d < 2)) (go (coreMhz d) corePoints (s.coreTarget d))
  | .vault d => onlyIf (decide (d < 2)) (go (vaultMhz d) vaultPoints (s.thermVault d))
  | .hbm k => onlyIf (decide (k < 8)) (go (Reg.clkHbmMhz k) hbmPoints (s.thermHbm k))
  | .beater k => onlyIf (decide (k < 8)) (go (Reg.clkBtrMhz k) beaterPoints (s.thermBeater k))

/-! Power and current limits (14 R414–R418). -/

/-- POWER_SAMPLE: the average of the samples of the last PWR_WINDOW × 100 µs, one a microsecond. -/
def sampleProg (watts : Nat) : Prog := withS fun s =>
  let l := (watts :: s.clk.samples).take (100 * s.fld Reg.pwrWindow)
  let now := l.foldl (· + ·) 0 / l.length
  seqs [updClk fun c => { c with samples := l }, setF Reg.pwrNow now, setF Reg.pwrPeak (max (s.fld Reg.pwrPeak) now)]

/-- The average exceeds the limit. -/
def State.overLimit (s : State) : Bool := decide (s.fld Reg.pwrLimit < s.fld Reg.pwrNow)
/-- The average is below 98 % of the limit. -/
def State.underLimit (s : State) : Bool := decide (100 * s.fld Reg.pwrNow < 98 * s.fld Reg.pwrLimit)

/-- The limit of a die's core clock is set; the causes clear when the limit no longer holds it down. -/
def setLimit (d p : Nat) : Prog :=
  seqs [updClk fun c => { c with limit := c.limit.set d p },
        onlyIf (p == 1400) (setBitF Reg.pwrCapCause (1 + d) false),
        withS fun s => onlyIf (s.clk.limit.all (· == 1400)) (setBitF Reg.pwrCapCause 0 false)]

/-- POWER_LIMIT_STEP: over the limit the core clocks of both dies step one point down; below 98 %, with full duty, one point up, as far
as the thermal points let them. -/
def limitStepProg : Prog := withS fun s =>
  let cur (d : Nat) := s.fld (coreMhz d)
  if s.overLimit ∧ (700 < cur 0 ∨ 700 < cur 1) then
    seqs [forEach [0, 1] fun d =>
            seq (setLimit d (stepToward corePoints (cur d) 700)) (moveClock (coreMhz d) (stepToward corePoints (cur d) 700)),
          setBitF Reg.pwrCapCause 0 true, incF Reg.pwrLimitEvents]
  else if s.underLimit ∧ s.fld Reg.pwrDuty = 64 then
    forEach [0, 1] fun d =>
      let l := stepToward corePoints (s.clk.limit.getD d 1400) 1400
      seq (setLimit d l) (moveClock (coreMhz d) (stepToward corePoints (cur d) (min l (s.thermCore d))))
  else skip

/-- PWR_DUTY_STEP. -/
def dutyStepProg : Prog := withS fun s =>
  let d := s.fld Reg.pwrDuty
  if s.overLimit ∧ s.fld Reg.clkCoreMhz0 = 700 ∧ s.fld Reg.clkCoreMhz1 = 700 ∧ 8 < d then
    seqs [setF Reg.pwrDuty (d - 8), setBitF Reg.pwrCapCause 5 true, incF Reg.pwrLimitEvents]
  else if s.underLimit ∧ d < 64 then
    seq (setF Reg.pwrDuty (d + 8)) (setBitF Reg.pwrCapCause 5 (decide (d + 8 < 64)))
  else skip

/-- EDC_EVENT: die d's core clock moves to 0.7 GHz in one step; R414 governs its return. -/
def edcProg (d : Nat) : Prog :=
  onlyIf (decide (d < 2))
    (seqs [setLimit d 700, moveClock (coreMhz d) 700, setBitF Reg.pwrCapCause (1 + d) true, incF Reg.pwrEdcEvents])

/-- The requests in round robin by physical core number, beginning after the last core served. -/
def robin (last : Nat) (requests : List Nat) : List Nat :=
  ((List.range 136).map fun i => (last + 1 + i) % 136).filter requests.contains

/-- RAMP_WINDOW: up to the budget of the window's requests is granted; every other one waits and is counted. -/
def rampWindowProg (d : Nat) (requests : List Nat) : Prog := withS fun s =>
  let order := robin (s.clk.served.getD d 135) requests
  let granted := order.take (s.fld Reg.pwrRampBudget)
  onlyIf (decide (d < 2))
    (seq (given granted.getLast? fun n => updClk fun c => { c with served := c.served.set d n })
      (incF Reg.pwrRampWaits (order.length - granted.length)))

/-! The thermal trip (14 R419, R420). -/

/-- THERMAL_TRIP. -/
def tripProg : Prog := withS fun s =>
  onlyIf s.pow.custUp (seq (holdDies 6 0) (updPow fun p => { p with trip := some (!p.mainUp), off := p.mainUp }))

/-- THERM_TRIP_RELEASE: the main rails have been removed, and the hottest sensor reads below 85 °C. -/
def tripReleaseProg (hottest : Nat) : Prog := withS fun s =>
  onlyIf (s.pow.trip == some true && decide (hottest < 85)) (updPow fun p => { p with trip := none })

/-! The commands. -/

/-- COLD_POWER_UP (14 R407). -/
def execColdPowerUp (s : State) : Out := .next (run (coldProg) s)

/-- MAIN_RAIL_POWER_UP (14 R399). -/
def execMainRailPowerUp (s : State) : Out := .next (run (mainUpProg) s)

/-- PKG_RESET (17 R471). -/
def execPkgReset (s : State) : Out := .next (run (pkgResetProg) s)

/-- PKG_RESET_RELEASE (17 R471). -/
def execPkgResetRelease (s : State) : Out := .next (run (resetReleaseProg) s)

/-- PKG_PWROK_RISE (17 R471). -/
def execPkgPwrokRise (inTolerance : Bool) (s : State) : Out := .next (run (pwrokProg inTolerance) s)

/-- RAIL_FAULT (14 R400). -/
def execRailFault (cause : RailCause) (s : State) : Out := .next (run (railFaultProg cause) s)

/-- REFERENCE_FAULT (14 R403). -/
def execReferenceFault (s : State) : Out := .next (run (refFaultProg) s)

/-- CUST_REFCLK_LOSS (14 R403). -/
def execCustRefclkLoss (s : State) : Out := .next (run (refclkLossProg) s)

/-- MAIN_RAIL_REMOVAL (14 R401). -/
def execMainRailRemoval (s : State) : Out := .next (run (removalProg) s)

/-- CUSTODIAN_RAIL_LOSS (14 R401). -/
def execCustodianRailLoss (s : State) : Out := .next (run (custLossProg) s)

/-- BOOT_STAGE_END (14 R411). -/
def execBootStageEnd (s : State) : Out := .next (run (bootEndProg) s)

/-- BOOT_HALT (14 R412). -/
def execBootHalt (st : Status) (die item : Nat) (s : State) : Out := .next (run (bootHaltProg st die item) s)

/-- POWER_SAMPLE (14 R414). -/
def execPowerSample (watts : Nat) (s : State) : Out := .next (run (sampleProg watts) s)

/-- POWER_LIMIT_STEP (14 R414). -/
def execPowerLimitStep (s : State) : Out := .next (run (limitStepProg) s)

/-- PWR_DUTY_STEP (14 R415). -/
def execPwrDutyStep (s : State) : Out := .next (run (dutyStepProg) s)

/-- EDC_EVENT (14 R417). -/
def execEdcEvent (d : Nat) (s : State) : Out := .next (run (edcProg d) s)

/-- RAMP_WINDOW (14 R418). -/
def execRampWindow (d : Nat) (requests : List Nat) (s : State) : Out := .next (run (rampWindowProg d requests) s)

/-- THERMAL_TRIP (14 R419). -/
def execThermalTrip (s : State) : Out := .next (run (tripProg) s)

/-- THERM_TRIP_RELEASE (14 R420). -/
def execThermTripRelease (hottest : Nat) (s : State) : Out := .next (run (tripReleaseProg hottest) s)

/-- CLOCK_STEP (14 R405). -/
def execClockStep (dom : ClockDom) (s : State) : Out := .next (run (clockStepProg dom) s)

end Sys2Proof.Machine
end

