-- ==== Sys2Proof/Machine/Queues.lean ====
section
/-! DEFINITION. The host's side (chapter 13): register windows, ownership, submission queues with their rings, and the interrupt message
table. The copies of queue entries are in `Transfers`. -/

namespace Sys2Proof.Machine

/-! Host memory behind the IOMMU (13 R392, log 17). -/

/-- The host page an access reaches for a command whose free value is `n`. -/
def hostPage (n a : Nat) (write : Bool) : Option Nat := Config.iommu n (a / 4096) write

/-- Bytes of one host page, from `a`. -/
def State.hostBytes (s : State) (page a len : Nat) : List Byte := bytesAt s.hostMem (page * 4096 + a % 4096) len

/-- Bytes of host memory; a page that does not translate ends the reading. -/
def State.hostRead (s : State) (n : Nat) (a len : Nat) : Nat → Option (List Byte)
  | 0 => if len = 0 then some [] else none
  | fuel + 1 =>
    if len = 0 then some []
    else
      let k := min len (4096 - a % 4096)
      (hostPage n a false).bind fun p => (s.hostRead n (a + k) (len - k) fuel).map (s.hostBytes p a k ++ ·)

/-- Pages an extent of host memory touches. -/
def hostPages (a len : Nat) : Nat := (a % 4096 + len + 4095) / 4096

/-! Windows and the owner (13 R376–R379). -/

/-- A window access is refused and counted. -/
def winRefuse (off : Nat) : Prog := seq (incF Reg.htxWinRefused) (setF Reg.htxWinRefusedOffset (off % 2 ^ 28))

/-- A mailbox block's mailbox. -/
def mboxOf (off : Nat) : Option Nat := if 0x11000 ≤ off ∧ off < 0x19000 then some ((off - 0x11000) / 0x1000) else none

/-- The submission queues' registers, doorbells and the interrupt message table (13 R378). -/
def isQueueOff (off : Nat) : Bool := (0x10400 ≤ off && off < 0x10C00) || (0x19000 ≤ off && off < 0x1B000)

/-- A write that the agent's path accepts (13 R376 Table 1, R378; 01 R34). -/
def State.accepts (s : State) (ag : Agent) (off : Nat) : Bool :=
  match ag with
  | .window0 => s.flagBit Reg.htxOwned || (mboxOf off).isSome || off == 0x10004
  | .window1 => match mboxOf off with
    | some m => m == 7 || !s.flagBit (Reg.htxMbBound m)
    | none => false
  | .registrar => !isQueueOff off && off != 0x10004
  | .core n => coreReaches n off

/-- A write through window 0 of a register only the owner may write. -/
def ownerWrite (off : Nat) (k : Prog) : Prog := withS fun s =>
  if !s.pow.linksUp then skip else if s.accepts .window0 off then k else winRefuse off

/-! Interrupt messages (13 R394). -/

/-- A write of an interrupt table entry: EIID 0 is taken as 1; enabling an entry with PENDING set delivers one message. -/
def imWrite (v : Nat) (w : Word) : Prog :=
  let e := bits w.toNat 6 11
  seqs [setF (Reg.htxImHart v) (bits w.toNat 1 5), setF (Reg.htxImEiid v) (if e = 0 then 1 else e), setF (Reg.htxImMfile v) (bits w.toNat 17 1),
        setF (Reg.htxImEnable v) (w.toNat % 2),
        withS fun s => onlyIf (w.toNat % 2 == 1 && s.flagBit (Reg.htxImPending v)) (seq (setF (Reg.htxImPending v) 0) (sendIrq v))]

/-! Queues (13 R390). -/

/-- Entries of a queue's rings. -/
def State.sqSize (s : State) (q : Nat) : Nat := 2 ^ s.fld (Reg.htxSqSize q)

/-- Bases of a queue's rings. -/
def State.sqBase (s : State) (q : Nat) : Nat := s.fld (Reg.htxSqBaseLo q) * 4096 + s.fld (Reg.htxSqBaseHi q) * 2 ^ 32
def State.cqBase (s : State) (q : Nat) : Nat := s.fld (Reg.htxCqBaseLo q) * 4096 + s.fld (Reg.htxCqBaseHi q) * 2 ^ 32

/-- A queue is replaced. -/
def setSq (q : Nat) (x : SqX) : Prog := emit [.sq q x]

/-- HTX_SQ_STATE follows the queue: halted; running while enabled or with entries in progress; else disabled. -/
def syncSq (q : Nat) : Prog := withS fun s =>
  let x := s.sq q
  setF (Reg.htxSqState q) (if x.halted then 2 else if s.flagBit (Reg.htxSqEnable q) || !x.entries.isEmpty then 1 else 0)

/-- A RESET ends once no entry is in progress. -/
def settleSq (q : Nat) : Prog :=
  seq (withS fun s =>
    let x := s.sq q
    onlyIf (x.resetting && x.entries.isEmpty)
      (seqs [setSq q { SqX.reset with next := x.next }, setF (Reg.htxSqHead q) 0, setF (Reg.htxCqTail q) 0, setF (Reg.htxSqTail q) 0,
             setF (Reg.htxCqHead q) 0, setF (Reg.htxSqEnable q) 0]))
  (syncSq q)

/-- HTX_SQ_TAIL: bits at and above the ring's size are ignored, as at a stream's doorbell (02 R42). -/
def sqTailProg (q value : Nat) : Prog := withS fun s =>
  onlyIf (decide (q < 64)) (setF (Reg.htxSqTail q) (value % s.sqSize q))

/-- HTX_CQ_HEAD: a write frees the slots up to the new head. -/
def cqHeadProg (q value : Nat) : Prog := withS fun s =>
  let n := s.sqSize q
  let freed := (value % n + n - s.fld (Reg.htxCqHead q) % n) % n
  onlyIf (decide (q < 64))
    (seq (setF (Reg.htxCqHead q) (value % n)) (setSq q { s.sq q with held := (s.sq q).held - freed }))

/-- HTX_SQ_RESUME: ignored on a queue that is not halted. -/
def sqResumeProg (q : Nat) : Prog := withS fun s =>
  onlyIf (decide (q < 64) && (s.sq q).halted) (seq (setSq q { s.sq q with halted := false }) (syncSq q))

/-- HTX_SQ_RESET. -/
def sqResetProg (q : Nat) : Prog := withS fun s =>
  onlyIf (decide (q < 64)) (seq (setSq q { s.sq q with resetting := true }) (settleSq q))

/-- A write of the word at 0x10 of a queue's set: a command write performs its command alone; any other writes SIZE, which is clamped and
kept while ENABLE is 1, and ENABLE, whose rise starts a first pass. -/
def sqControlProg (q value : Nat) : Prog := withS fun s =>
  let on := s.flagBit (Reg.htxSqEnable q)
  let size := bits value 0 4
  if 64 ≤ q then skip
  else if bit value 10 then sqResetProg q
  else if bit value 9 then sqResumeProg q
  else seqs
    [onlyIf (!on) (setF (Reg.htxSqSize q) (min 12 (max 4 size))),
     setF (Reg.htxSqEnable q) (bits value 8 1),
     onlyIf (!on && bit value 8) (setSq q { s.sq q with phase := true }),
     syncSq q]

/-- Ownership ends (13 R379): every queue's ENABLE clears, and the mailboxes are unbound. -/
def endOwnership : Prog := withS fun s =>
  onlyIf (s.flagBit Reg.htxOwned)
    (seqs [setF Reg.htxOwned 0, setF Reg.htxOwnerMbox 0,
           forEach (List.range 7) fun m => setF (Reg.htxMbBound m) 0,
           forEach (List.range 64) fun q => withS fun t =>
             onlyIf (t.flagBit (Reg.htxSqEnable q)) (seq (setF (Reg.htxSqEnable q) 0) (syncSq q))])

/-- HTX_OWN_BREAK, through window 0 alone. -/
def ownBreakProg (ag : Agent) : Prog := withS fun s =>
  if !s.pow.linksUp then skip
  else match ag with
    | .window0 => endOwnership
    | .window1 => winRefuse 0x10004
    | _ => skip

/-! Submission entries (13 R391, R392). -/

/-- OP. -/
def eOp (d : Block64) : Nat := dfld d 0 0 8
/-- ORDERED. -/
def eOrdered (d : Block64) : Bool := dfld d 0 8 1 == 1
/-- IRQ. -/
def eIrq (d : Block64) : Bool := dfld d 0 9 1 == 1
/-- TAG. -/
def eTag (d : Block64) : Nat := dfld d 0 16 16
/-- HOST_ADDR. -/
def eHost (d : Block64) : Nat := daddr d 2 3 16
/-- DEV_ADDR. -/
def eDev (d : Block64) : Nat := daddr d 4 5 12
/-- LENGTH. -/
def eLen (d : Block64) : Nat := dword d 6
/-- CAPACITY. -/
def eCap (d : Block64) : Nat := dword d 7

/-- Check 1 of an entry. -/
def entryBad (d : Block64) : Bool :=
  decide (4 < eOp d) || (eOp d == 3 && decide (1088 ≤ dfld d 8 0 11)) || (eOp d == 4 && (decide (48 ≤ dfld d 8 8 6) || dfld d 8 16 2 == 3))

/-- A completion entry is written (13 R391), and its slot is held until HTX_CQ_HEAD frees it. -/
def writeCompletion (q : Nat) (e : SqEnt) (st : Status) (done : Nat) : Prog := drawFree fun n => withS fun s =>
  let x := s.sq q
  let tail := s.fld (Reg.htxCqTail q)
  let next := (tail + 1) % s.sqSize q
  let a := s.cqBase q + 16 * tail
  seqs
    [given (hostPage n a true) fun p =>
       hostWrite (p * 4096 + a % 4096)
         (leBytes 4 (e.index + (if x.phase then 2 ^ 16 else 0)) ++ leBytes 4 (statusCode st + eTag e.desc * 2 ^ 16) ++ leBytes 4 done ++
          leBytes 4 (e.acc % 2 ^ 32)),
     setF (Reg.htxCqTail q) next,
     setSq q { x with held := x.held + 1, phase := if next = 0 then !x.phase else x.phase }]

/-- An entry completes: its completion entry, then its interrupt message; a status other than OK halts the queue. -/
def endEntry (q : Nat) (e : SqEnt) (st : Status) (done : Nat) : Prog := seqs
  [withS fun s => setSq q { s.sq q with entries := (s.sq q).entries.filter (·.acc != e.acc),
                                        halted := (s.sq q).halted || st != .ok },
   onlyIf (st != .ok) (setF (Reg.htxSqLastStatus q) (statusCode st)),
   withS fun s => logEv (.queue q) e.acc st (eTag e.desc) false (.fin false s.jobId none),
   writeCompletion q e st done,
   onlyIf (eIrq e.desc || st != .ok) (withS fun s => sendIrq (s.fld (Reg.htxSqIrqVec q))),
   settleSq q]

/-- Entries in progress, of every queue. -/
def State.entriesInProgress (s : State) : Nat := (s.sqs.map (·.2.entries.length)).foldl (· + ·) 0

/-- The next entry of a queue may be fetched: the queue is enabled, neither halted nor in a RESET, its ring holds one, room is left
among the entries in progress, and a completion slot can be reserved for it. -/
def State.mayFetchEntry (s : State) (q : Nat) : Bool :=
  let x := s.sq q
  decide (q < 64) && s.flagBit (Reg.htxSqEnable q) && !x.halted && !x.resetting &&
  s.fld (Reg.htxSqHead q) != s.fld (Reg.htxSqTail q) && decide (x.entries.length < 4) && decide (s.entriesInProgress < 64) &&
  decide (x.held + x.entries.length + 1 < s.sqSize q)

/-- SUBMISSION_ENTRY_FETCH: entries are fetched in ring order, an ORDERED one after every earlier one has completed; one that fails check 1
ends. A ring slot that does not translate is an entry with ADDRESS_FAULT. -/
def entryFetchProg (q : Nat) : Prog := drawFree fun n => withS fun s =>
  let x := s.sq q
  let head := s.fld (Reg.htxSqHead q)
  let raw := s.hostRead n (s.sqBase q + 64 * head) 64 1
  let d : Block64 := BitVec.ofNat 512 (leNat (raw.getD []))
  let e : SqEnt := ⟨x.next, head, d⟩
  if !s.mayFetchEntry q || (eOrdered d && !x.entries.isEmpty) then skip
  else seqs
    [setF (Reg.htxSqHead q) ((head + 1) % s.sqSize q),
     setSq q { x with entries := x.entries ++ [e], next := (x.next + 1) % 2 ^ 48 },
     logEv (.queue q) e.acc .ok (eTag d) false (.issue 0 (eOp d) false none),
     syncSq q,
     if raw.isNone then endEntry q e .addressFault 0
     else onlyIf (entryBad d) (endEntry q e .descriptorFault 0)]

/-- The entry in progress that a row names. -/
def onEntry (q acc op : Nat) (k : SqEnt → Prog) : Prog := withS fun s =>
  given ((s.sq q).entries.find? fun e => e.acc == acc && eOp e.desc == op) k

/-- START of an entry; its work; its end with OK. -/
def entryOk (q : Nat) (e : SqEnt) (work : Prog) (done : Nat) : Prog :=
  seqs [logStart (.queue q) e.acc (eTag e.desc) .none, work, endEntry q e .ok done]

/-- SQ_RING: a SYNC DOORBELL; an ADVANCE of 0 is a no-op (02 R53). -/
def sqRingProg (q : Nat) (e : SqEnt) : Prog :=
  let advance := dfld e.desc 9 0 16
  if advance = 0 then endEntry q e .ok 0 else entryOk q e (ringBy (dfld e.desc 8 0 11) advance) 0

/-- SQ_FLAG: the flag records the queue entry (16 R448); a core out of service ends it (16 R460). -/
def sqFlagProg (q : Nat) (e : SqEnt) : Prog := withS fun s =>
  let n := dfld e.desc 8 0 8
  if s.outOfService n then endEntry q e .unitFault 0
  else entryOk q e (flagOp n (dfld e.desc 8 8 6) (dfld e.desc 8 16 2) (dword e.desc 9) (.queue q e.acc)) 0

/-! The commands. -/

/-- HTX_SQ_TAIL (13 R390). -/
def execHtxSqTail (q value : Nat) (s : State) : Out :=
  .next (run (ownerWrite (0x19000 + 8 * q) (sqTailProg q value)) s)

/-- HTX_CQ_HEAD (13 R390). -/
def execHtxCqHead (q value : Nat) (s : State) : Out :=
  .next (run (ownerWrite (0x19004 + 8 * q) (cqHeadProg q value)) s)

/-- HTX_SQ_ENABLE (13 R390). -/
def execHtxSqEnable (q value : Nat) (s : State) : Out :=
  .next (run (ownerWrite (0x10410 + 0x20 * q) (sqControlProg q value)) s)

/-- HTX_SQ_RESUME (13 R390). -/
def execHtxSqResume (q : Nat) (s : State) : Out :=
  .next (run (ownerWrite (0x10410 + 0x20 * q) (sqResumeProg q)) s)

/-- HTX_SQ_RESET (13 R390). -/
def execHtxSqReset (q : Nat) (s : State) : Out :=
  .next (run (ownerWrite (0x10410 + 0x20 * q) (sqResetProg q)) s)

/-- SQ_NOP (13 R392). -/
def execSqNop (q acc : Nat) (s : State) : Out := .next (run (onEntry q acc 0 fun e => entryOk q e skip 0) s)

/-- SQ_RING (13 R392). -/
def execSqRing (q acc : Nat) (s : State) : Out := .next (run (onEntry q acc 3 (sqRingProg q)) s)

/-- SQ_FLAG (13 R392). -/
def execSqFlag (q acc : Nat) (s : State) : Out := .next (run (onEntry q acc 4 (sqFlagProg q)) s)

/-- SUBMISSION_ENTRY_FETCH (13 R392). -/
def execSubmissionEntryFetch (q : Nat) (s : State) : Out := .next (run (entryFetchProg q) s)

/-- HTX_OWN_BREAK (13 R379). -/
def execHtxOwnBreak (ag : Agent) (s : State) : Out := .next (run (ownBreakProg ag) s)

/-- HTX_IM_ENABLE (13 R394). -/
def execHtxImEnable (v : Nat) (s : State) : Out :=
  .next (run (ownerWrite (0x1A000 + 4 * v) (onlyIf (decide (v < 1024)) (withS fun s => imWrite v (s.word (0x1A000 + 4 * v) ||| 1)))) s)

end Sys2Proof.Machine
end

