-- ==== Sys2Proof/Machine/Reliability.lean ====
section
/-! DEFINITION. Detectors, injection and the Conservator (16 R443–R445, R458–R462, R479): errors, cores replaced, and the other spares. -/

namespace Sys2Proof.Machine

/-- The Conservator is changed. -/
def updCons (f : ConsX → ConsX) : Prog := withS fun s => emit [.cons (f s.cons)]

/-! Streams and cores that fail (16 R459). -/

/-- A stream halts with UNIT_FAULT: ABANDON for each issued command that has started, END for each that has not. -/
def failStream (sid : Nat) : Prog := withS fun s =>
  let x := s.strm sid
  seqs [setStrm sid { x with issued := [], faulted := x.faulted ++ x.issued, wait := .idle, halted := true },
        setF (Reg.strmLastStatus sid) (statusCode .unitFault),
        onlyIf (!x.halted)
          (seq (given x.issued.head? fun c => setF48 (Reg.strmFaultAccLo sid) (Reg.strmFaultAccHi sid) c.acc) (vetoStep 1)),
        forEach x.issued fun c =>
          if c.started then logEv (.stream sid) c.acc .unitFault (dTag c.desc) false (.abandon c.mark)
          else logEv (.stream sid) c.acc .unitFault (dTag c.desc) false (.fin false s.jobId none),
        settle sid,
        withS fun t => sendIrq (t.fld (Reg.strmIrqVec sid))]

/-- Spare physical cores left on a die (01 R30). -/
def State.freeSpares (s : State) (d : Nat) : List Nat :=
  ((List.range 8).filter fun k => decide (128 ≤ Config.factoryCore d k) &&
    !(s.cores.any fun e => decide (e.1 / 128 = d) && e.2.phys == some (128 + k))).map (128 + ·)

/-- A core's store and flags read zero. -/
def zeroCore (n : Nat) : Prog := withS fun s =>
  let inStore := fun (a : Nat) => decide (lsAddr n 0 ≤ a) && decide (a < lsAddr n 0x400000)
  seqs [emit ((s.mem.filter fun c => inStore c.1).map fun c => .memB c.1 0),
        emit ((s.hurt.filter fun e => inStore e.1).map fun e => .hurt e.1 none),
        emit ((s.flags.filter fun e => decide (e.1 / 64 = n)).map fun e => .flag e.1 Flag.reset),
        wakeWatchers fun d => !dWaitBar d && dWaitCore d == n]

/-- The registers of a core's CORE_, ARR_ and DRN_ blocks read their reset values (01 R37), the accession series of its streams with
them (log 62). -/
def resetCoreBlocks (n : Nat) : Prog := withS fun s =>
  emit (((s.ctl.map (·.1)).filter fun o => decide (coreBase n ≤ o) && decide (o < coreBase n + 0x3000)).map .regReset)

/-- The ARR_ words show the arrays of physical core `p` of the core's die (01 R37, 03 R98). -/
def showArrays (n p : Nat) : Prog :=
  let a := Config.factoryArray (136 * (n / 128) + p)
  seqs [setF (Reg.arrSpareUsed n) (arrayMapWord a 8 0), setF (Reg.arrSpareFor n) (arrayMapWord a 8 8),
        forEach (List.range 24) fun l => setF (Reg.arrPhys n l) (arrayMapWord a (0x40 + 4 * l) 0)]

/-- A spare physical core serves a logical core: the commands its streams held are gone, and the repair is recorded. -/
def adoptCore (n p cause : Nat) : Prog := withS fun s =>
  let d := n / 128
  let old := s.fld (Reg.corePhysical n)
  let left := if d = 0 then Reg.csvCoreSpares0 else Reg.csvCoreSpares1
  seqs [forEach (sidsOfCore n) fun sid => forEach (s.strm sid).ahead fun c =>
          logEv (.stream sid) c.acc .unitFault (dTag c.desc) false (.fin false s.jobId none),
        forEach (sidsOfCore n) fun sid => setStrm sid Strm.reset,
        zeroCore n, resetCoreBlocks n,
        emit [.core n { CoreX.reset with phys := some p, lsErrors := 0 }],
        setF (Reg.corePhysical n) p, showArrays n p,
        setF left (s.fld left - 1),
        setBitF (Reg.csvPending (n / 32)) (n % 32) false,
        recordRepair ⟨1, d, 0, old, 0, p, cause, s.boot⟩]

/-- A core's replacement begins: what reaches its store and flags from now on reaches the replacement's. -/
def beginReplace (n cause : Nat) : Prog := withS fun s =>
  seq (onlyIf (!(s.freeSpares (n / 128)).isEmpty) (zeroCore n)) (withS fun t => emit [.core n { t.core n with replacing := some cause }])

/-- CORE_REPLACE: a spare takes the logical number, or the core goes out of service (16 R459, R460). -/
def coreReplaceProg (n : Nat) : Prog := withS fun s =>
  onlyIf (decide (n < 256)) (given (s.core n).replacing fun cause =>
    match s.freeSpares (n / 128) with
    | p :: _ => adoptCore n p cause
    | [] => seqs [emit [.core n { s.core n with replacing := none }],
                  setBitF (Reg.csvOutOfService (n / 32)) (n % 32) true, setBitF (Reg.csvPending (n / 32)) (n % 32) false])

/-- CSV_REPLACE_GO: a core on CSV_PENDING whose streams are disabled or halted and whose arrays are idle. -/
def replaceGoProg (n : Nat) : Prog := withS fun s =>
  let quiet := (sidsOfCore n).all fun sid => s.strmStateOf sid == 0 || s.strmStateOf sid == 4
  let st : Status :=
    if !bit (s.fld (Reg.csvPending (n / 32))) (n % 32) || !quiet || s.issuedOf n isArrayClass != 0 then .sequenceFault
    else if (s.freeSpares (n / 128)).isEmpty then .sizeFault else .ok
  onlyIf (decide (n < 256))
    (seq (setF Reg.csvReplaceStatus (statusCode st))
      (onlyIf (st == .ok) (beginReplace n (if s.fld (Reg.arrFailed n) = 0 then 0x01 else 0x02))))

/-! Control cores (16 R458). -/

/-- Mailbox commands being served by a failed control core end with UNIT_FAULT; which one serves a command is free. The commands in
progress are those `MboxX` names; `endMailbox` ends one. -/
def controlFail (endMailbox : Nat → Prog) : Prog := drawFree fun k => withS fun s =>
  forEach (s.mbox.running.toList ++ s.mbox.fwd) fun m => onlyIf (Config.freeAt k m % 2 == 1) (endMailbox m)

/-- CONTROL_CORE_SPARE: the failed core is out of service; the spare comes in while it is unused. -/
def controlSpareProg (i cause : Nat) : Prog := withS fun s =>
  onlyIf (decide (i < 4))
    (seq (setBitF Reg.rgsCores i false)
      (onlyIf (!s.flagBit Reg.rgsSpareUsed)
        (seqs [setBitF Reg.rgsCores 3 true, setF Reg.rgsSpareUsed 1,
               recordRepair ⟨9, 2, 0, i, 0, 3, cause, s.boot⟩, raiseEvent 4])))

/-! UCIe modules (16 R458, R479 Table 15). -/

/-- The link and the module within it that a die's module number names: 0 the compute bridge, 1 and 2 the compute-fabric links, 3 the
host link. -/
def moduleOf (die m : Nat) : Option (Nat × Nat) :=
  if die < 2 then (if m < 24 then some (0, m) else if m < 40 then some (1 + die, m - 24) else none)
  else if die = 2 then (if m < 16 then some (1, m) else if m < 32 then some (2, m - 16) else if m < 36 then some (3, m - 32) else none)
  else if die = 3 ∧ m < 4 then some (3, m) else none

/-- Modules of a link. -/
def linkModules : Nat → Nat
  | 0 => 24
  | 3 => 4
  | _ => 16

/-- UCIE_MODULE_REMOVE: the link runs on the rest; with none left every stream halts and FAULT_N asserts. -/
def moduleRemoveProg (die m : Nat) (cause : Nat) : Prog := withS fun s =>
  given (moduleOf die m) fun x =>
    let out := x :: s.cons.modules
    onlyIf (!s.cons.modules.contains x)
      (seqs [updCons fun c => { c with modules := out },
             onlyIf (x.1 == 3) (setBitF Reg.htxLinkModules x.2 false),
             recordRepair ⟨5, die, 0, m, 0, 0, cause, s.boot⟩,
             onlyIf ((out.filter fun y => y.1 == x.1).length == linkModules x.1)
               (seq (forEach (List.range strmCount) failStream) (updPow fun p => { p with linkLost := true }))])

/-! Memory and Beater spares (16 R458). -/

/-- A place of the Vault, of HBM, or of a Beater awaits its spare. -/
def State.isDue (s : State) (det place unit : Nat) : Bool := s.cons.due.contains (det, place, unit)

/-- The key of a correctable-error count. -/
def countKey (det die unit item : Nat) : Nat := ((det * 16 + die) * 65536 + unit) * 2 ^ 48 + item

/-- The channel and pseudo-channel of a stack address, as UNIT of a repair record holds them, and its row (07 R203, 16 R462, log 18). -/
def rowPlace (a : Nat) : Nat × Nat := (2 * (channelOf a).1 + (channelOf a).2, Config.hbmRow a % 2 ^ 24)

/-- The key of a row's count of correctable errors, in stack `k`. -/
def rowKey (k : Nat) (r : Nat × Nat) : Nat := countKey 0x07 k r.1 r.2

/-- VAULT_BANK_SPARE: one spare for each 16 banks of a slice; damaged lines stay damaged. -/
def bankSpareProg (d slice bank cause : Nat) (force : Bool) : Prog := withS fun s =>
  let count := (nget s.cons.counts (countKey 0x06 d slice bank)).getD 0
  let left := !(s.cons.banks.any fun b => b.1 == d && b.2.1 == slice && b.2.2 / 16 == bank / 16)
  onlyIf (left && (force || s.isDue 0x06 d slice || decide (s.fld Reg.csvCeBankLimit ≤ count)))
    (seqs [updCons fun c => { c with banks := (d, slice, bank) :: c.banks, counts := ndel c.counts (countKey 0x06 d slice bank),
                                     due := c.due.filter (· != (0x06, d, slice)) },
           recordRepair ⟨6, d, 0, slice, bank, bank / 16, cause, s.boot⟩])

/-- HBM_ROW_REPAIR: repair resource `n` of the stack takes the row; the spec does not say which one does (log 18). -/
def rowRepairProg (k : Nat) (r : Nat × Nat) (n cause : Nat) (force : Bool) : Prog := withS fun s =>
  let count := (nget s.cons.counts (rowKey k r)).getD 0
  onlyIf (force || s.isDue 0x07 k 0 || decide (s.fld Reg.csvCeRowLimit ≤ count))
    (seqs [updCons fun c => { c with counts := ndel c.counts (rowKey k r), due := c.due.filter (· != (0x07, k, 0)) },
           recordRepair ⟨7, k / 4, k, r.1, r.2, n, cause, s.boot⟩])

/-- BEATER_LANE_SPARE: a spare lane is mapped, or the Beater runs on fewer lanes. -/
def laneSpareProg (k lane cause : Nat) (force : Bool) : Prog := withS fun s =>
  let left := s.fld (Reg.btrSpares k)
  onlyIf (decide (k < 8) && (force || s.isDue 0x0C k lane))
    (seq (updCons fun c => { c with due := c.due.filter (· != (0x0C, k, lane)) })
      (if left = 0 then seq (setF (Reg.btrLanes k) (s.fld (Reg.btrLanes k) - 1)) (updCons fun c => { c with lanes := (k, lane) :: c.lanes })
       else seq (setF (Reg.btrSpares k) (left - 1)) (recordRepair ⟨8, k / 4, k, 0, lane, 68 - left, cause, s.boot⟩)))

/-! Injection (16 R445, R479). -/

/-- The injection point that the CSV_INJ_ registers name exists and is in service (16 R479 Table 15). -/
def State.injectable (s : State) (target unit die : Nat) : Bool :=
  let core := fun (n : Nat) => decide (n < 256) && !s.outOfService n
  match target with
  | 0x01 => core unit
  | 0x02 => core (unit / 32) && decide (unit % 32 < 24) && !bit (s.fld (Reg.arrFailed (unit / 32))) (unit % 32)
  | 0x03 => core unit
  | 0x04 => decide (die < 2) && (List.range 128).any fun i => s.fld (Reg.corePhysical (128 * die + i)) == unit && core (128 * die + i)
  | 0x05 => match moduleOf die unit with
    | some x => !s.cons.modules.contains x
    | none => false
  | 0x06 => decide (die < 2) && decide (unit < 64)
  | 0x07 => decide (8 ≤ die) && decide (die < 16)
  | 0x08 => true
  | 0x09 => decide (unit < 36)
  | 0x0A => decide (unit < 36)
  | 0x0B => true
  | 0x0C => decide (8 ≤ die) && decide (die < 16) && decide (unit < 64) && !s.cons.lanes.contains (die - 8, unit)
  | 0x0D => decide (unit < 2)
  | 0x0E => decide (unit < 4) && bit (s.fld Reg.rgsCores) unit
  | _ => false

/-- CSV_INJ_ARM. A control core takes its parity errors at once and returns to service. -/
def injArmProg (endMailbox : Nat → Prog) : Prog := withS fun s =>
  let t := s.fld Reg.csvInjTarget
  let u := s.fld Reg.csvInjUnit
  let d := s.fld Reg.csvInjDie
  let n := s.fld Reg.csvInjCount
  if s.flagBit Reg.csvInjLock || !s.injectable t u d then skip
  else if t = 0x0E then
    forEach (List.range n) fun _ =>
      seqs [incF Reg.csvInjDone, logDetect true 0x0E 2 u 0 1 .unitFault, controlFail endMailbox]
  else updCons fun c => { c with armed := c.armed ++ [⟨t, u, d, s.fld Reg.csvInjKind, n⟩] }

/-- The error is an injected one of the detectors whose point this model does not itself reach: mesh flits and UCIe flits. -/
def State.pointArmed (s : State) (det die unit : Nat) : Bool :=
  (det == 0x04 || det == 0x05) && s.cons.armed.any fun x => x.target == det && x.unit == unit && x.die == die

/-! Errors (16 R443, R444). -/

/-- The stack of a detector's place: HBM and Beater places are 8 + stack (16 R479). -/
def stackOf (die : Nat) : Nat := (die - 8) % 8

/-- CORRECTABLE_ERROR: counted; its unit's DETECT event, at most one in 2^20 control cycles, carries the count since its last (whether one
is due now is free). Vault banks count by bank, HBM rows by pseudo-channel and row: the item is the bank, or the stack address of the
burst. -/
def correctableProg (det die unit item : Nat) : Prog := drawFree fun k => withS fun s =>
  let key := countKey det die unit 0
  let n := (nget s.cons.since key).getD 0 + 1
  let injected := s.pointArmed det die unit
  let place := if det = 0x07 then rowKey (stackOf die) (rowPlace item) else countKey det die unit item
  let due := Config.freeAt k 0 % 2 == 1
  onlyIf (decide (1 ≤ det) && decide (det ≤ 0x0E))
    (seqs [incF Reg.csvCeCount,
           onlyIf injected (useArmed det unit die true true fun _ => skip),
           onlyIf ((det == 0x06 || det == 0x07) && !injected)
             (updCons fun c => { c with counts := nset c.counts place ((nget c.counts place).getD 0 + 1) }),
           updCons fun c => { c with since := nset c.since key (if due || injected then 0 else n) },
           onlyIf (due || injected) (logDetect injected det die unit item n .ok)])

/-- The issued commands of an engine stream that have started end with a status. -/
def endStarted (sid : Nat) (st : Status) : Prog := withS fun s =>
  forEach ((s.strm sid).issued.filter (·.started)) fun c => endCmd sid c st

/-- A local store's damaged bank word; the third on a core in a power-on puts it on CSV_PENDING (16 R444). -/
def storeError (n a : Nat) : Prog := withS fun s =>
  let x := s.core n
  seqs [emit [.hurt (a / 64 * 64) (some ⟨true, false⟩)], uncorrectable,
        emit [.core n { x with lsErrors := x.lsErrors + 1 }],
        onlyIf (decide (3 ≤ x.lsErrors + 1)) (pendCore n)]

/-- A damaged line: a poisoned one stays poisoned too (16 R444). -/
def lineError (a : Nat) : Prog := withS fun s =>
  seq (emit [.hurt (a / 128 * 128) (some ⟨true, ((nget s.hurt (a / 128 * 128)).map (·.poisoned)).getD false⟩)]) uncorrectable

/-- The Conservator reads every line of a block's state slots and working copies in its owner's stack; damage found there awaits a spare
(16 R461, log 179). -/
def conservatorRead (k : Nat) (e : BEntry) : Prog := withS fun s =>
  let slots := [0, 1].flatMap fun h => s.stackExts false k (e.slot h) slotBytes
  let copies := [0, 1].flatMap fun p => if e.wcLpa p then [] else s.wcExts false k e p
  seq (forEach (slots ++ copies) fun x => touch false .registrar x.2.1 x.2.2)
    (onlyIf ((slots ++ copies).any fun x => (s.readHurt x.2.1 x.2.2).isSome && !s.isDue 0x07 k 0)
      (updCons fun c => { c with due := (0x07, k, 0) :: c.due }))

/-- The held commands that have tiles on an array, in the order it serves them (03 R86, 05 R148). -/
def State.arrayQueue (s : State) (n a : Nat) : List (Nat × Cmd) :=
  ((s.heldArray n).filter fun x => (s.arraysOfCmd x.1 x.2).contains a).foldl
    (fun r x => r.takeWhile (fun y => s.servedBefore n y x) ++ x :: r.dropWhile (fun y => s.servedBefore n y x)) []

/-- An array fault (03 R98): every command with a tile in the array at that moment ends. An array computes one tile and drains another
(R75), so those are the first it serves, at most two; how many is free (log 61). -/
def arrayFault (n a : Nat) : Prog := drawFree fun k => withS fun s =>
  seq (forEach ((s.arrayQueue n a).take (Config.free k % 3)) fun x => seq (startCmd x.1 x.2) (endCmd x.1 x.2 .arrayFault))
    (withS fun t => emit [.core n { t.core n with sparing := a :: (t.core n).sparing.filter (· != a) }])

/-- UNCORRECTABLE_ERROR: the outcome of each detector (16 R443 Table 1). The item is the address of the damaged line or bank word, the
requester's stream for a mesh flit, the place of the discarded packet among those in the Vat, the lane of a Beater, and 1 for a Press store.
Codes 0x10 and 0x11 are reported by their own commands. -/
def uncorrectableProg (endMailbox : Nat → Prog) (det die unit item : Nat) : Prog := withS fun s =>
  let injected := s.pointArmed det die unit
  let detect := fun st => logDetect injected det die unit item 1 st
  let used := onlyIf injected (useArmed det unit die true true fun _ => skip)
  match det with
  | 0x01 => onlyIf (decide (unit < 256) && coreOfAddr item == some unit && decide (item < 0x09040000000))
      (seq (storeError unit item) (detect .memoryFault))
  | 0x02 => onlyIf (decide (unit / 32 < 256) && decide (unit % 32 < 24)) (seq (detect .arrayFault) (arrayFault (unit / 32) (unit % 32)))
  | 0x03 => onlyIf (decide (unit < 256))
      (seqs [detect .unitFault, forEach (sidsOfCore unit) failStream, beginReplace unit 0x03])
  | 0x04 => onlyIf (decide (item < strmCount))
      (seqs [used, incF Reg.csvUeCount, detect .unitFault,
             given (s.strm item).issued.head? fun c => seq (startCmd item c) (endCmd item c .unitFault)])
  | 0x05 => seq used (detect .ok)
  | 0x06 => onlyIf (s.atVault item 1)
      (seqs [lineError item, detect .memoryFault, updCons fun c => { c with due := (0x06, die, unit) :: c.due }])
  | 0x07 => onlyIf (decide (item < 0x07FFC000000))
      (seqs [lineError item, detect .memoryFault, updCons fun c => { c with due := (0x07, (s.placeOf item).1, 0) :: c.due }])
  | 0x08 => seqs [given (s.fab.transit[item]?) fun t => leaveVat t.pkt, uncorrectable, detect .memoryFault]
  | 0x09 => detect .ok
  | 0x0A => onlyIf (decide (unit < 36)) (seqs [incF Reg.secLinkAuthFails, detect .authFault, downProg unit])
  | 0x0B => detect .checkFault
  | 0x0C => onlyIf (decide (8 ≤ die) && decide (die < 16) && decide (item < 64))
      (seqs [detect .beaterFault, given ((s.strm (1056 + stackOf die)).issued.head?) fun c =>
               seq (startCmd (1056 + stackOf die) c) (endCmd (1056 + stackOf die) c .beaterFault),
             updCons fun c => { c with due := (0x0C, stackOf die, item) :: c.due }])
  | 0x0D => onlyIf (decide (unit < 2))
      (seqs [detect (if item = 1 then .memoryFault else .unitFault),
             onlyIf (item == 1) uncorrectable,
             forEach (List.range 4) fun j => endStarted (1064 + 4 * unit + j) (if item = 1 then .memoryFault else .unitFault)])
  | 0x0E => onlyIf (decide (unit < 4) && bit (s.fld Reg.rgsCores) unit)
      (seqs [detect .unitFault, setBitF Reg.rgsCores unit false, controlFail endMailbox])
  | 0x0F => seq (updPow fun p => { p with memFault := true }) (detect .integrityFault)
  | _ => skip

end Sys2Proof.Machine
end

