-- ==== Sys2Proof/Machine/Mailbox.lean ====
section
/-! DEFINITION. Mailboxes (13 R380–R384): how a command begins and ends on each path, and the bytes of requests, replies and Ledger
events. -/

namespace Sys2Proof.Machine

/-! Bytes of a mailbox block. -/

/-- Offset of a mailbox block. -/
def mbBase (m : Nat) : Nat := 0x11000 + m * 0x1000

/-- Request bytes of a mailbox. -/
def State.mbReq (s : State) (m : Nat) : List Byte :=
  let n := s.fld (Reg.htxMbReqLen m)
  (s.ctlBytes (mbBase m + 0x40) (n + 3)).take n

/-- Reply bytes are written over the first bytes of HTX_MB_DATA. -/
def mbWrite (m : Nat) (bs : List Byte) : Prog :=
  forEach (List.range ((bs.length + 3) / 4)) fun i => withS fun s =>
    let off := mbBase m + 0x40 + 4 * i
    let part := (bs.drop (4 * i)).take 4
    emit [.reg off (BitVec.ofNat 32 (leNat (part ++ (leBytes 4 (s.word off).toNat).drop part.length)))]

/-- A little-endian number among some bytes. -/
def numAt (bs : List Byte) (a n : Nat) : Nat := leNat ((bs.drop a).take n)

/-! A command in service. -/

/-- A mailbox or I3C command as its server reads it. -/
structure Served where
  via : Via
  op  : Nat
  tag : Nat
  acc : Nat
  req : List Byte
  deriving DecidableEq, Repr

/-- A mailbox command ends (13 R381): reply, length, status; DONE; the interrupt message. -/
def finishMb (m acc tag : Nat) (st : Status) (reply : List Byte) : Prog := seqs
  [mbWrite m reply, setF (Reg.htxMbReplyLen m) reply.length, setF (Reg.htxMbStatus m) (statusCode st), setF (Reg.htxMbState m) 2,
   withS fun s => logEv (.mailbox m) acc st tag false (.fin false s.jobId none),
   withS fun s => onlyIf (s.flagBit (Reg.htxMbIrqEn m)) (sendIrq (s.fld (Reg.htxMbIrqVec m)))]

/-- The command on a mailbox, read again from its registers, which stand still while it is BUSY. -/
def State.servedOn (s : State) (m : Nat) : Served :=
  ⟨.mailbox m, s.fld (Reg.htxMbOpcode m), s.fld (Reg.htxMbTag m), s.fld48 (Reg.htxMbAccLo m) (Reg.htxMbAccHi m), s.mbReq m⟩

/-- The command on mailbox `m` ends. -/
def endMailbox (m : Nat) (st : Status) (reply : List Byte) : Prog := withS fun s =>
  let c := s.servedOn m
  finishMb m c.acc c.tag st reply

/-- A served command ends; on I3C the reply carries the status and its length (16 R457). -/
def answer (c : Served) (st : Status) (reply : List Byte) : Prog :=
  match c.via with
  | .mailbox m => finishMb m c.acc c.tag st reply
  | .i3c _ _ => emit [.send (.i3c (leBytes 2 (statusCode st) ++ leBytes 2 reply.length ++ reply))]

/-- START of a served command. -/
def startServed (c : Served) : Prog :=
  match c.via with
  | .mailbox m => logStart (.mailbox m) c.acc c.tag .none
  | .i3c _ _ => skip

/-- A command that passes its checks, does its work and ends with OK. -/
def serveOk (c : Served) (work : Prog) (reply : State → List Byte) : Prog :=
  seqs [startServed c, work, withS fun s => answer c .ok (reply s)]

/-- Checks of a served command, then its work. -/
def serveChecked (c : Served) (f : Option Status) (work : Prog) : Prog :=
  match f with
  | some st => answer c st []
  | none => work

/-! Ledger events as bytes (16 R447). -/

/-- TYPE of an event. -/
def EvBody.type : EvBody → Nat
  | .issue _ _ _ _ => 0x01 | .start _ => 0x02 | .progress _ => 0x03 | .fin _ _ _ => 0x04 | .abandon _ => 0x05 | .taint _ => 0x06
  | .detect _ _ _ _ _ => 0x07 | .repair _ => 0x08 | .appliedRun _ _ _ => 0x09 | .commit _ _ _ _ => 0x0A | .late _ _ => 0x0B
  | .lateReply _ _ => 0x0B
  | .link _ _ _ => 0x0C | .keyCheck _ _ => 0x0C | .power _ _ _ => 0x0D | .lost _ => 0x0E | .fresh _ => 0x0F | .numeric _ _ _ _ _ => 0x10
  | .watermark _ _ _ => 0x11 | .flag _ _ _ _ => 0x12 | .coherence _ _ => 0x13 | .orderTimeout _ _ _ _ => 0x14

/-- SRC_KIND and SRC_ID. -/
def Src.code : Src → Nat × Nat
  | .stream sid => (0, sid) | .mailbox m => (1, m) | .queue q => (2, q) | .fabric p => (3, p) | .unit u => (4, u) | .custodian => (5, 0)

/-- A signaller, as numbers. -/
def signallerWords : Signaller → List Nat
  | .none => [0] | .stream s a => [1, s, a] | .queue q a => [2, q, a] | .remote p a => [3, p, a] | .store => [4] | .barrier c g => [5, c, g]

/-- The unit of a late arrival, as numbers. -/
def lateWords : LateUnit → List Nat
  | .stream s => [0, s] | .group g => [1, g] | .curator => [2] | .coherence d => [3, d] | .response => [4] | .order => [5] | .liveness => [6]

/-- What an event's DETAIL tells, in the order of 16 R447 Table 3. -/
def EvBody.words : EvBody → List Nat
  | .issue cls op r pred => [cls, op, r.toNat] ++ pred.toList
  | .start sig => signallerWords sig
  | .progress n | .abandon n | .taint n | .lost n | .fresh n => [n]
  | .fin skipped job reqs => [skipped.toNat, job] ++ (reqs.toList.flatMap fun r => [r.1, r.2])
  | .detect code die unit item n => [code, die, unit, item, n]
  | .repair r => [r.kind, r.die, r.stack, r.unit, r.item, r.spare, r.cause, r.boot]
  | .appliedRun src base map => [src, base, map]
  | .commit g sn d ep => [g, sn, d.toNat, ep]
  | .late u n => lateWords u ++ [n]
  | .lateReply m n => [7, m, n]
  | .link p old new => [p, old, new]
  | .keyCheck p k => [p, 256 + k]
  | .power cause item v => [cause, item, v]
  | .numeric t n f unit rung => [t, n, f, unit, rung]
  | .watermark b n owner => [b, n, owner]
  | .flag c f snap final => [c, f, snap, final]
  | .coherence line m => [line, m]
  | .orderTimeout src a b n => [src, a, b, n]

/-- The 64 bytes of an event. DOMAIN of another source than the Custodian, CYCLES and the layout of DETAIL are free (log 12). -/
def Ev.bytes (e : Ev) : List Byte :=
  let c := e.src.code
  let w := fun i => Config.eventWord e.boot e.seq i % 2 ^ 32
  leBytes 8 e.seq ++ leBytes 4 e.boot ++
  leBytes 4 (e.body.type + 2 ^ 8 * c.1 + (if e.injected then 2 ^ 12 else 0) + (if e.taint then 2 ^ 13 else 0) + 2 ^ 16 * statusCode e.status) ++
  leBytes 4 (c.2 % 2 ^ 16 + 2 ^ 16 * e.tag) ++ leBytes 8 e.acc ++
  leBytes 4 (if e.src = .custodian then 31 else w 7 % 30) ++ leBytes 4 (w 8) ++ leBytes 4 (w 9) ++
  (List.range 6).flatMap fun i => leBytes 4 (Config.detailWord e.body.type e.body.words i % 2 ^ 32)

/-- An event with its TAINT bit as it stands. -/
def State.evBytes (s : State) (e : Ev) : List Byte := { e with taint := s.tainted (e.src, e.acc) }.bytes

/-- Bytes of the Ledger window (16 R446): the newest event of each slot of the ring; a slot never written reads zero. -/
def State.ledgerBytes (s : State) (a len : Nat) : List Byte :=
  let slot := fun i => match s.ledger.events.find? (fun e => e.seq % 1048576 == i) with
    | some e => s.evBytes e
    | none => List.replicate 64 0
  (List.range len).map fun i =>
    let o := a - 0x0F000000000 + i
    (slot (o / 64)).getD (o % 64) 0

/-- The READ reply of 16 R455 Table 6 over a run of events, oldest first: those from SEQ `first` on, or from the oldest held. -/
def readReply (s : State) (events : List Ev) (head first : Nat) : List Byte :=
  let evs := (events.filter fun e => decide (first ≤ e.seq)).take 62
  leBytes 8 ((evs.head?.map (·.seq)).getD head) ++ leBytes 8 head ++ leBytes 2 evs.length ++ List.replicate 46 0 ++ evs.flatMap s.evBytes

end Sys2Proof.Machine
end

