-- ==== Sys2Proof/Machine/Job.lean ====
section
/-! DEFINITION. The job (chapter 11): the job record and its checks, the firmware's step loop, the commit's release, and the work at the
step boundary. -/

namespace Sys2Proof.Machine

/-- The job is changed. -/
def updJob (f : JobX → JobX) : Prog := withS fun s => emit [.job (f s.job)]

/-! The job record (11 R320–R324). -/

/-- Bits of a header word. -/
def hfld (h : List Nat) (w lo n : Nat) : Nat := bits (h.getD w 0) lo n

/-- The extents D, T, P, S and the exchange extent. -/
def extD (h : List Nat) : Nat := hfld h 1 0 13
def extT (h : List Nat) : Nat := hfld h 1 13 13
def extP (h : List Nat) : Nat := hfld h 2 0 13
def extS (h : List Nat) : Nat := hfld h 2 13 13
def extEx (h : List Nat) : Nat := hfld h 3 0 9

/-- Words of memory. -/
def State.words (s : State) (a n : Nat) : List Nat := (List.range n).map fun i => s.readNat (a + 4 * i) 4

/-- The job rank of coordinates (11 R321). -/
def jobRank (h : List Nat) (d t p s : Nat) : Nat := t + extT h * (s + extS h * (d + extD h * p))

/-- The coordinates d, t, p, s of a job rank. -/
def jobCoords (h : List Nat) (j : Nat) : Nat × Nat × Nat × Nat :=
  (j / (extT h * extS h) % extD h, j % extT h, j / (extT h * extS h * extD h), j / extT h % extS h)

/-- The job ranks that a role's group must have, in rank order (11 R324 Table 3); none where the role must be absent. -/
def roleRanks (h : List Nat) (role j : Nat) : Option (List Nat) :=
  let (d, t, p, s) := jobCoords h j
  let x := extEx h
  match role with
  | 1 => some ((List.range (extD h)).map fun i => jobRank h i t p s)
  | 2 => some ((List.range (extT h)).map fun i => jobRank h d i p s)
  | 3 => some ((List.range (extS h)).map fun i => jobRank h d t p i)
  | 4 => some ((List.range x).map fun e => jobRank h (x * (d / x) + e) t p s)
  | 5 => if p = 0 then none else some [jobRank h d t (p - 1) s, jobRank h d t p s]
  | 6 => if p + 1 = extP h then none else some [jobRank h d t p s, jobRank h d t (p + 1) s]
  | _ => some []

/-- A group entry of the record: group, role, definition words, cells, timeout. -/
structure GroupEnt where
  group   : Nat
  role    : Nat
  defn    : List Nat
  cells   : Nat
  timeout : Nat
  deriving DecidableEq, Repr

/-- Group entry `i` of a record. -/
def State.groupEnt (s : State) (a i : Nat) : GroupEnt :=
  let w := s.words (a + 64 + 32 * i) 8
  ⟨hfld w 0 0 6, hfld w 0 8 4, (w.drop 1).take 4, hfld w 5 0 16, w.getD 6 0⟩

/-- The definition of a group entry is written to the group table; ignored while the group is enabled (09 R262). -/
def writeDef (e : GroupEnt) : Prog := withS fun s =>
  let base := 0x41000 + 64 * e.group
  onlyIf (!s.flagBit (Reg.colGrpEnable e.group))
    (seqs [emit (e.defn.zipIdx.map fun p => .reg (base + 8 + 4 * p.2) (BitVec.ofNat 32 p.1)),
           setF (Reg.colGrpCells e.group) e.cells, setF (Reg.colGrpTimeout e.group) e.timeout])

/-- Box members of group `g` as its definition stands. -/
def State.boxSize (s : State) (g : Nat) : Nat := s.fld (Reg.grpExtX g) * s.fld (Reg.grpExtY g) * s.fld (Reg.grpExtZ g)

/-- Step 2 of 11 R323 over the record; `box` is the box member count of the COMMIT definition. -/
def recordBad (h : List Nat) (es : List GroupEnt) (box : Nat) : Bool :=
  let ng := hfld h 0 16 7
  ng == 0 || decide (64 < ng) || (es.map (·.group)).eraseDups.length != es.length || es.any (fun e => decide (7 < e.role)) ||
  (es.filter (·.role == 0)).length != 1 || extEx h == 0 || extD h % extEx h != 0 ||
  extD h * extT h * extP h * extS h != box || decide (47 < hfld h 12 8 6)

/-- A field of the group table as a definition's words give it: DEF is the image of group entry bytes 0x08–0x17. -/
def GroupEnt.field (e : GroupEnt) (f : Nat → Fld) : Nat :=
  let x := f e.group
  bits (e.defn.getD ((x.off - (0x41000 + 64 * e.group) - 8) / 4) 0) x.lo x.w

/-- The box member count that a definition's words give: EXT_X, EXT_Y and EXT_Z as the group table lays them out (09 R260). -/
def GroupEnt.box (e : GroupEnt) : Nat := e.field Reg.grpExtX * e.field Reg.grpExtY * e.field Reg.grpExtZ

/-- The membership rule of 11 R324 for one group, on a box member of the job: box members in rank order, and lenders as extras of a D
group. -/
def State.roleOk (s : State) (h : List Nat) (commit : Nat) (e : GroupEnt) : Bool :=
  let all := s.members commit
  let j := s.fld (Reg.colGrpMyRank commit)
  let ms := s.members e.group
  if e.role = 0 ∨ 7 ≤ e.role then true
  else match roleRanks h e.role j with
    | none => false
    | some rs =>
      ms.take rs.length == rs.map (fun r => all.getD r 4096) &&
      (if e.role = 1 then (ms.drop rs.length).all ((all.drop (s.boxSize commit)).contains ·) else ms.length == rs.length)

/-- Groups are created in entry order; a refusal stops with its status. `k` is told it and the groups this load created: one that was live
before stands as it is (log 77). -/
def createGroups (k : Option Status → List Nat → Prog) : List Nat → List GroupEnt → Prog
  | made, [] => k none made
  | made, e :: r => withS fun s =>
    let live := s.fld (Reg.colGrpState e.group) == 2
    seqs [writeDef e, groupCreateProg e.group, withS fun t =>
      if t.fld (Reg.colGrpState e.group) = 2 then createGroups k (if live then made else made ++ [e.group]) r
      else k (some (statusOf (t.fld (Reg.colGrpStatus e.group)))) made]

/-- Groups are released. -/
def releaseGroups (gs : List Nat) : Prog := forEach gs groupReleaseProg

/-- The epoch of all eight Beaters (13 R387). -/
def setEpochAll (n : Nat) : Prog := forEach (List.range 8) fun k => setF (Reg.btrEpoch k) (n % 2 ^ 32)

/-- Lender mode (08 R257): the job's master is rank 0 of the COMMIT group. -/
def setLender (on : Bool) (master : Nat) : Prog :=
  forEach (List.range 8) fun k => seq (setF (Reg.btrLendMode k) (if on then 1 else 0)) (setF (Reg.btrLendMaster k) (if on then inRack master else 0))

/-- The Vault partition and the page-pair attributes are set as the mapping of the job asks (11 R332, log 76). -/
def placeMemory (table : Nat) : Prog :=
  seq (forEach [0, 1] fun d => given (Config.mapPartition table d) (partitionProg d))
    (forEach (List.range 64) fun w => given (Config.mapPages table w) (pageAttrProg 0 w))

/-- JOB_LOAD of a record (11 R322–R324, 13 R387); `k` is told its status. -/
def jobLoad (record cap : Nat) (k : Status → Prog) : Prog := drawFree fun n => withS fun s =>
  let placed := fun len => record % 64 == 0 && s.atVault record len
  let h := s.words record 16
  let ng := hfld h 0 16 7
  let len := 64 + 32 * ng
  let es := (List.range ng).map (s.groupEnt record)
  let gs := es.map (·.group)
  let commit := ((es.find? (·.role == 0)).map (·.group)).getD 0
  let box := ((es.find? (·.role == 0)).map (·.box)).getD 0
  if !placed 64 then k .addressFault
  else if (s.readHurt record 64).isSome then k .memoryFault
  else if cap < len then k .sizeFault
  else if !placed len then k .addressFault
  else if (s.readHurt record len).isSome then k .memoryFault
  else if s.fld Reg.rgsJobState ≠ 0 then k .sequenceFault
  else if recordBad h es box then k .descriptorFault
  else createGroups (fun st made => match st with
    | some x => seq (releaseGroups made) (k x)
    | none => withS fun t =>
      let lends := decide (t.boxSize commit ≤ t.fld (Reg.colGrpMyRank commit))
      if !lends && !(es.all (t.roleOk h commit)) then seq (releaseGroups made) (k .descriptorFault)
      else seqs
        [forEach (List.range 256) fun c => seq (setF (Reg.drnSeedLo c) (h.getD 6 0)) (setF (Reg.drnSeedHi c) (h.getD 7 0)),
         forEach (List.range 8) fun b => seqs
           [setF (Reg.btrSeedLo b) (h.getD 6 0), setF (Reg.btrSeedHi b) (h.getD 7 0),
            setF (Reg.btrWmKeyLo b) (h.getD 8 0), setF (Reg.btrWmKeyHi b) (h.getD 9 0)],
         setEpochAll (h.getD 4 0),
         setLender lends ((t.members commit).getD 0 0),
         emit [.job { JobX.none with hdr := h, groups := gs, commit := commit, table := n }],
         setF Reg.rgsJobId (hfld h 0 0 16), setF Reg.rgsJobState 1,
         extendMeas 7 (sha384 (t.read record len)),
         placeMemory n,
         k .ok]) [] es

/-! The job's streams. -/

/-- The collectives stream reserved for COMMIT. -/
def JobX.commitStream (j : JobX) : Nat := 1040 + hfld j.hdr 12 16 4

/-- Every stream of the job: those of both parity variants and COMMIT's. -/
def JobX.streams (j : JobX) : List Nat :=
  (((Config.streamTable j.table 0 ++ Config.streamTable j.table 1).map (·.1) ++ [j.commitStream]).filter (· < strmCount)).eraseDups

/-- The cores of the job. -/
def JobX.cores (j : JobX) : List Nat := ((j.streams.filter (· < 1024)).map (· / 4)).eraseDups

/-- Every group of the job reads COL_GRP_INFLIGHT 0. -/
def State.noneInFlight (s : State) : Bool := s.job.groups.all fun g => s.fld (Reg.colGrpInflight g) == 0

/-- A stream is set up from the stream table and rung (13 R413 Table 6, 11 R338). -/
def ringStream (e : Nat × Nat × Nat × Nat) : Prog := withS fun s =>
  onlyIf (decide (e.1 < strmCount))
    (seqs [onlyIf (!s.flagBit (Reg.strmEnable e.1))
             (seqs [setF (Reg.strmBaseLo e.1) (e.2.1 / 4096), setF (Reg.strmBaseHi e.1) (e.2.1 / 2 ^ 32),
                    setF (Reg.strmSize e.1) (min 16 (max 4 e.2.2.1)), enableProg e.1]),
           doorbellProg e.1 e.2.2.2])

/-- COMMIT as the firmware writes it (11 R337): its group, the group's next number, and the wait on END_FLAG of END_CORE for equal to 1. -/
def commitWords (j : JobX) (sn : Nat) : Block64 :=
  let w := fun (i v : Nat) => BitVec.ofNat 512 (v * 2 ^ (32 * i))
  w 0 (0x11 + 0x06 * 2 ^ 8) ||| w 1 (hfld j.hdr 12 0 8 + hfld j.hdr 12 8 6 * 2 ^ 8 + 2 * 2 ^ 16) ||| w 2 1 ||| w 8 j.commit ||| w 9 sn

/-- The END flag is written by the firmware: SET. -/
def setEndFlag (v : Nat) : Prog := withS fun s => flagOp (hfld s.job.hdr 12 0 8) (hfld s.job.hdr 12 8 6) 0 v .store

/-! The step loop (11 R338, R339). -/

/-- RETRY_LIMIT. -/
def JobX.limit (j : JobX) : Nat := max 1 (hfld j.hdr 3 16 8)

/-- The loop stops: the end of the job is reported through RGS_EVENTS, and a JOB_STOP that waits ends. -/
def stopJob : Prog := seqs
  [updJob fun j => { j with phase := .idle, releasing := false, stopping := none },
   setF Reg.rgsJobState 4, raiseEvent 0,
   withS fun s => given s.mbox.running fun m => seq (emit [.mbox { s.mbox with running := none }]) (endMailbox m .ok [])]

/-- The owner's REGEN of a block, outside any stream. -/
def regenOwn (k entry : Nat) (stochastic : Bool) : Prog := withS fun s =>
  let e := s.bEntry entry
  given (e.committed (s.fld (Reg.btrEpoch k))) fun h =>
    onlyIf (e.tiles != 0 && (s.blockHurt k e h none).isNone)
      (seqs [readSlot k (e.slot h) (readPieces e none),
             putWc (1056 + k) k e (e.epoch h % 2) (workingCopy s k e (e.epoch h) stochastic (s.masters k (e.slot h) e.params)),
             incF (Reg.btrRegens k)])

/-- The owner regenerates a block's working copy and sends it to some packages. -/
def sendCopy (k entry : Nat) (stochastic : Bool) (dsts : List Nat) : Prog :=
  seq (regenOwn k entry stochastic) (withS fun s =>
    let e := s.bEntry entry
    let bs := s.storedWc k e (s.fld (Reg.btrEpoch k) % 2)
    emit ((dsts.filter (· != s.me)).map fun p => .send (.workingCopy p entry bs)))

/-- A revised layer's new placement table is written, its layer record names it, and this package, where it owns an expert's blocks, sends
their working copies to the members of its new replicas (06 R185 steps 3–5). -/
def writeTable (r : Revised) : Prog := withS fun s =>
  let a := Config.tablePlace s.job.table r.layer
  let members := s.members (s.layer r.layer).group
  seqs [writeBytes .registrar a r.table,
        writeBytes .registrar (r.layer + 16) (leBytes 4 (a % 2 ^ 32)),
        writeBytes .registrar (r.layer + 20) (leBytes 4 (s.readNat (r.layer + 20) 4 / 2 ^ 12 * 2 ^ 12 + a / 2 ^ 32 % 2 ^ 12)),
        writeBytes .registrar (r.layer + 84) (r.table.take 4),
        forEach r.news fun n => forEach (Config.expertBlocks s.job.table r.layer n.1) fun b =>
          sendCopy b.1 b.2.1 b.2.2 (members[n.2]?).toList]

/-- The firmware derives the anchors of the next step from the census records, as they stand once a step has committed (11 R328). -/
def chooseAnchors : Prog := withS fun s =>
  let j := s.job
  let census := (Config.censusList j.table).flatMap fun a => s.read a 64
  updJob fun x => { x with anchors :=
    (List.range (Config.clearList j.table (s.fld (Reg.btrEpoch 0) % 2)).length).map fun i => Config.anchorOf j.table census i % 2 ^ 16 }

/-- What the firmware writes before an attempt of the step to epoch `n + 1` (11 R338, R328): LR, BC1 and BC2 of each optimiser record, the
zeroed replay tables, and the anchors in the CLEAR_BUF commands. -/
def stepWrites (n : Nat) : Prog := withS fun s =>
  let j := s.job
  let put := fun (a v : Nat) => writeBytes .registrar a (leBytes 4 (v % 2 ^ 32))
  let replay := (j.cores.map fun c => s.fld (Reg.drnReplayBaseLo c) * 4096 + s.fld (Reg.drnReplayBaseHi c) * 2 ^ 32).eraseDups
  seqs
    [forEach (Config.optRecords j.table) fun a =>
       seq (put a (Config.learningRate j.table a (n + 1)))
         (onlyIf ((s.optRec a).opt == 0)
           (seq (put (a + 20) (Config.biasCorrection ((s.optRec a).f 1) (n + 1))) (put (a + 24) (Config.biasCorrection ((s.optRec a).f 2) (n + 1))))),
     forEach replay fun a => writeBytes .registrar a (List.replicate 32768 0),
     forEach ((Config.clearList j.table (n % 2)).zip j.anchors) fun c => writeBytes .registrar (c.1 + 56) (leBytes 2 c.2)]

/-- One attempt begins: what is restored or recorded first, the firmware's writes, COL_STEP_OK, COMMIT and the streams of the parity. Where a
step of the revision failed, its tables wait for the retry, which the cleared COL_STEP_OK brings (11 R341). -/
def beginAttempt : Prog := withS fun s =>
  let j := s.job
  let n := s.fld (Reg.btrEpoch 0)
  let cs := j.commitStream
  let ring := Config.commitRing j.table
  seqs
    [onlyIf (j.attempt == 0) (updJob fun x =>
       { x with seq0 := (j.groups.filter (· != j.commit)).map fun g => (g, s.fld (Reg.colGrpNextSeq g))
                flags0 := s.flags.filter fun e => j.cores.contains (e.1 / 64) }),
     onlyIf (decide (0 < j.attempt)) (raiseEvent 3),
     updJob fun x => { x with attempt := x.attempt + 1, mark := s.ledger.next },
     stepWrites n,
     setEndFlag 0,
     onlyIf (!j.histBad) (forEach j.revised writeTable),
     stepOkProg (if j.histBad then 0 else 1),
     updJob fun x => { x with histBad := false },
     onlyIf (!s.flagBit (Reg.strmEnable cs))
       (seqs [setF (Reg.strmBaseLo cs) (ring.1 / 4096), setF (Reg.strmBaseHi cs) (ring.1 / 2 ^ 32),
              setF (Reg.strmSize cs) (min 16 (max 4 ring.2)), enableProg cs]),
     withS fun t =>
       let sn := t.fld (Reg.colGrpNextSeq j.commit)
       let slot := t.fld (Reg.strmTail cs)
       seqs [writeBytes .registrar (t.ringBase cs + 64 * slot) (leBytes 64 (commitWords j sn).toNat),
             updJob fun x => { x with phase := .waiting (t.accNext cs) sn },
             ringBy cs 1],
     forEach (Config.streamTable j.table (n % 2)) ringStream]

/-- restore_attempt, action 1: RESET of every stream of the job. -/
def restoreBegin : Prog := withS fun s =>
  seq (forEach s.job.streams resetProg) (updJob fun j => { j with phase := .restoring, releasing := false })

/-- restore_attempt, actions 2–5, once no stage is in flight: sequence numbers, flags, tasks, and the GEN fields of the barrier commands
but for a stop. TASK_END is the firmware's own, of no stream: its events name the core's first stream and accession 0; 1 is written to the
CORE_FLAG_FAULT of every core of the job (log 78). -/
def restoreEnd : Prog := withS fun s =>
  let j := s.job
  seqs
    [forEach j.seq0 fun g => nextSeqProg g.1 g.2,
     forEach j.cores fun n => forEach (List.range 48) fun f => withS fun t =>
       let old := ((nget j.flags0 (64 * n + f)).getD Flag.reset).val
       onlyIf ((t.flagAt n f).val != old) (flagOp n f 0 old.toNat .store),
     forEach j.cores fun n => withS fun t =>
       seq (onlyIf (t.flagBit (Reg.coreTaskOpen n)) (closeTask n (.stream (4 * n)) 0 0 fun _ => skip)) (setF (Reg.coreFlagFault n) 0),
     onlyIf (j.stopping != some true) (forEach (Config.barrierList j.table (s.fld (Reg.btrEpoch 0) % 2)) fun b => withS fun t =>
       writeBytes .registrar (b.1 + 36) (leBytes 4 (t.fld (Reg.rgsBarGen b.2.1) + b.2.2)))]

/-- The first fault of the attempt: its status, stream and accession number. -/
def State.firstFault (s : State) : Option (Status × Nat × Nat) :=
  (s.ledger.events.reverse.filter fun e => decide (s.job.mark ≤ e.seq)).findSome? fun e =>
    match e.body, e.src with
    | .fin _ _ _, .stream sid => if e.status = .ok ∨ e.status = .stepDiscarded then none else some (e.status, sid, e.acc)
    | .abandon _, .stream sid => some (.unitFault, sid, e.acc)
    | _, _ => none

/-- The attempt was discarded: its first fault is kept, and the next attempt, or a stop, restores. -/
def discarded (st : Status) : Prog := withS fun s =>
  let f := s.firstFault.getD (st, s.job.commitStream, 0)
  seq (updJob fun j => { j with lastStatus := f.1, faultStream := f.2.1, faultAcc := f.2.2 })
    (if s.job.stopping.isNone && decide (s.job.limit ≤ s.job.attempt) then stopJob else restoreBegin)

/-- What a provenance query of a COMMIT answers (16 R454): the decision and the epoch. -/
def State.commitAnswer (s : State) (g sn : Nat) : Option (Ev × Bool × Nat) :=
  s.ledger.events.findSome? fun e => match e.body with
    | .commit h n d ep => if h = g ∧ n = sn then some (e, d, ep) else none
    | _ => none

/-- The step committed: the revisions it used are done with, and the next anchors are chosen. -/
def committed : Prog :=
  seq (updJob fun j => { j with phase := .boundary, releasing := false, steps := j.steps + 1, revised := [] }) chooseAnchors

/-- The LEDGER_QUERY of kind COMMIT for a group and a number, to a package (16 R455 Table 6). -/
def commitRequest (pkg g sn : Nat) : List Byte :=
  leBytes 4 2 ++ leBytes 2 pkg ++ leBytes 4 0 ++ leBytes 2 g ++ leBytes 4 0 ++ leBytes 8 sn

/-- The next reachable member is asked for the decision; with none left the job stops, to resume from a checkpoint (09 R281). -/
def askDecision (sn : Nat) (left : List Nat) : Prog := withS fun s =>
  match left.filter s.reachable with
  | [] => stopJob
  | m :: r => seq (updJob fun j => { j with phase := .asking sn r, releasing := false })
      (emit [.send (.ledgerFwd m (commitRequest m s.job.commit sn))])

/-- A Ledger answered: COMMIT raises the epoch by 1, DISCARD leads to the next attempt, UNKNOWN to the next member. -/
def decisionTold (answer : Nat) : Prog := withS fun s =>
  match s.job.phase with
  | .asking sn left =>
    if answer = 6 then seq (setEpochAll (s.fld (Reg.btrEpoch 0) + 1)) committed
    else if answer = 7 then discarded .stepDiscarded
    else askDecision sn left
  | _ => skip

/-- COMMIT's status decides (11 R338): after UNKNOWN, provenance does: this package's Ledger, then the coordinator's and the other members'. -/
def afterCommit (sn : Nat) (st : Status) : Prog := withS fun s =>
  if st = .ok then committed
  else if st = .unknown then
    seq (updJob fun j => { j with phase := .asking sn ((s.members j.commit).filter (· != s.me)), releasing := false })
      (decisionTold (match s.commitAnswer s.job.commit sn with
        | some (_, d, _) => if d then 6 else 7
        | none => 3))
  else discarded st

/-- COMMIT's release, once no stage of the job is in flight: 1 is stored to the END flag (11 R337). -/
def tryRelease : Prog := withS fun s =>
  onlyIf (s.job.releasing && s.noneInFlight) (seq (updJob fun j => { j with releasing := false }) (setEndFlag 1))

/-- The firmware releases COMMIT: COL_STEP_OK is written 0. -/
def releaseCommit : Prog := seqs [stepOkProg 0, updJob fun j => { j with releasing := true }, tryRelease]

/-- STEP_ATTEMPT: the step loop goes on from where it stands. -/
def stepAttemptProg : Prog := withS fun s =>
  let j := s.job
  match j.phase with
  | .idle => skip
  | .boundary => skip
  | .asking _ _ => skip
  | .ready =>
    if j.stopping.isSome || decide (j.limit ≤ j.attempt) then stopJob else beginAttempt
  | .restoring =>
    onlyIf s.noneInFlight
      (if j.stopping = some true then
        seq restoreEnd (withS fun t => onlyIf (j.streams.all fun sid => decide (t.strmStateOf sid ≤ 1)) stopJob)
       else seq restoreEnd (updJob fun x => { x with phase := .ready }))
  | .waiting acc sn =>
    match s.ledger.events.find? (fun e => e.src == .stream j.commitStream && e.acc == acc &&
        match e.body with | .fin _ _ _ => true | .abandon _ => true | _ => false) with
    | some e => afterCommit sn e.status
    | none => tryRelease

/-- STEP_TIMEOUT: the watchdog of an attempt. -/
def stepTimeoutProg : Prog := withS fun s =>
  match s.job.phase with
  | .waiting _ _ => onlyIf (s.job.hdr.getD 13 0 != 0) releaseCommit
  | _ => skip

/-- COMMIT_RELEASE: a stream of the job halted, or a release waits for stages in flight. -/
def commitReleaseProg : Prog := withS fun s =>
  match s.job.phase with
  | .waiting _ _ =>
    if s.job.releasing then tryRelease else onlyIf (s.job.streams.any fun sid => (s.strm sid).halted) releaseCommit
  | _ => skip

/-! Work at the boundary (11 R341, 08 R255, R256, 16 R461, 06 R185). -/

/-- Work that is done every so many committed steps is due: the epoch, which every member counts alike, is a multiple (log 75). -/
def State.isDueEvery (s : State) (period : Nat) : Bool := period != 0 && s.fld (Reg.btrEpoch 0) % period == 0

/-- The block tables whose Watermark comparison is due (08 R255); a BTR_WM_PERIOD of 0 disables it (R256). -/
def State.dueTables (s : State) : List Config.BlockTable :=
  (Config.blockTables s.job.table).filter fun t => decide (t.beater < 8) && s.isDueEvery (s.fld (Reg.btrWmPeriod t.beater))

/-- The entries of a block table, by their addresses. -/
def entriesOf (t : Config.BlockTable) : List Nat := (List.range t.count).map fun i => t.addr + 64 * i

/-- The descriptor of a DIGEST of a mode and rounding. -/
def digestWords (mode : Nat) (stochastic : Bool) : Block64 := BitVec.ofNat 512 ((mode + if stochastic then 2 else 0) * 2 ^ 448)

/-- The blocks whose leaves differ among digest trees, and every node above them: the walk of 08 R255. -/
def differing (key count : Nat) (leaves : List (List Nat)) : List Nat :=
  let trees := leaves.map fun l => wmLevels key 10 l
  let node := fun (t : List (List Nat)) (level b : Nat) => (t.getD level []).getD (b / 16 ^ level) 0
  (List.range count).filter fun b => (List.range (wmSizes 10 count).length).all fun level =>
    trees.any fun t => node t level b != node (trees.getD 0 []) level b

/-- One block that differs, on its owner: its stored digest is `own`, and `told` are those of the other replicas. A stored copy that is not
what the masters give is an integrity fault (R256). -/
def wmRepair (t : Config.BlockTable) (block own : Nat) (told : List (Nat × Nat)) : Prog := withS fun s =>
  let k := t.beater
  let e := s.bEntry (t.addr + 64 * block)
  let r := leafDigest s k (digestWords 1 t.stochastic) e
  let late := (told.filter fun p => p.2 != r).map (·.1)
  onlyIf (e.committed (s.fld (Reg.btrEpoch k))).isSome
    (seqs [digestRead (1056 + k) k (digestWords 1 t.stochastic) e,
           onlyIf (own != r)
             (seqs [incF (Reg.btrIntegrity k), updPow fun p => { p with memFault := true },
                    logDetect false 0x0F (k / 4) k block 1 .integrityFault, conservatorRead k e]),
           sendCopy k (t.addr + 64 * block) t.stochastic late,
           logEv (.stream (1056 + k)) 0 .ok 0 false (.watermark block (late.length + if own != r then 1 else 0) s.me),
           incF (Reg.btrWmMismatch k), raiseEvent 2])

/-- The accesses of a comparison. -/
def State.wmExts (s : State) (t : Config.BlockTable) : List Ext :=
  (entriesOf t).flatMap fun a =>
    let e := s.bEntry a
    s.blockExts t.beater 2 (digestWords 0 t.stochastic) (s.optRec 0) e ++ s.blockExts t.beater 1 0 (s.optRec 0) e

/-- The Watermark comparison of one table (08 R255): DIGEST of the stored copies, and the blocks that differ from a replica's. One that reads
damage does not run (log 75). -/
def wmCompare (peers : List WmPeer) (t : Config.BlockTable) : Prog := withS fun s =>
  let k := t.beater
  let d := digestWords 0 t.stochastic
  let es := (entriesOf t).map s.bEntry
  let key := s.fld (Reg.btrWmKeyLo k) + 2 ^ 32 * s.fld (Reg.btrWmKeyHi k)
  let own := es.map (leafDigest s k d)
  let others := peers.filter fun p => p.beater == k && p.leaves.length == t.count
  onlyIf (es.all fun e => (s.digestHurt k d e).isNone)
    (seq (forEach es (digestRead (1056 + k) k d))
      (forEach (differing key t.count (own :: others.map (·.leaves))) fun b =>
        wmRepair t b (own.getD b 0) (others.map fun p => (p.pkg, p.leaves.getD b 0))))

/-- Entry of the largest figure, the lowest index on ties. -/
def argMax (l : List Nat) : Nat := (l.zipIdx.foldl (fun b x => if b.2 < x.1 then (x.2, x.1) else b) (0, l.getD 0 0)).1

/-- Replica counts lowered until they fit the slots, the largest first. -/
def fitCounts (slots : Nat) (r : List Nat) : Nat → List Nat
  | 0 => r
  | n + 1 => if slots < r.foldl (· + ·) 0 then let i := argMax r; fitCounts slots (r.set i (r.getD i 0 - 1)) n else r

/-- The new placement of a layer (06 R185), as replicas: `served` is the summed SERVED of each expert over the period. A new replica goes to
the least loaded of the members that still have an eligible core with a free slot, where the listing names the least loaded member alone
(DESIGN CHOICE, log 64). -/
def revise (l : Layer) (old : List Replica) (maxSlots period : Nat) (served : List Nat) : List Replica :=
  let load := (List.range l.experts).map fun e => served.getD e 0 / period
  let want := load.map fun x => min 16 (max 1 (cdiv x l.capacity))
  let eligible := (old.map fun p => (p.member, p.core)).eraseDups
  let r := fitCounts (eligible.length * maxSlots) want (16 * l.experts)
  let share := fun e => cdiv (load.getD e 0) (r.getD e 1)
  let kept := old.filter fun p => decide (p.index < r.getD p.expert 0)
  let news := (List.range l.experts).flatMap fun e =>
    ((List.range (r.getD e 0)).drop ((kept.filter (·.expert == e)).length)).map fun q => (e, q)
  let least := fun (f : Nat → Nat) (xs : List Nat) => xs.foldl (fun b x => match b with
    | none => some x
    | some y => if f x < f y then some x else some y) (none : Option Nat)
  news.foldl (fun ps n =>
    let loadOf := fun m => ((ps.filter (·.member == m)).map fun p => share p.expert).foldl (· + ·) 0
    let used := fun m c => ps.filter fun p => p.member == m && p.core == c
    let coresOf := fun m => (eligible.filter (·.1 == m)).map (·.2)
    let open_ := fun m => ((List.range 256).filter fun c => (coresOf m).contains c && decide ((used m c).length < maxSlots))
    match least loadOf ((List.range l.members).filter fun m => !(open_ m).isEmpty) with
    | none => ps
    | some m => match least (fun c => (used m c).length) (open_ m) with
      | none => ps
      | some c =>
        match (List.range maxSlots).find? fun x => !((used m c).any (·.slot == x)) with
        | none => ps
        | some x => ps ++ [⟨n.1, n.2, m, c, x⟩]) kept

/-- A placement table as bytes. -/
def tableBytes (gen experts maxSlots period : Nat) (ps : List Replica) : List Byte :=
  leBytes 4 gen ++ leBytes 4 experts ++ leBytes 4 maxSlots ++ leBytes 4 period ++ List.replicate 48 (0 : Byte) ++
  (List.range experts).flatMap fun e => (List.range 16).flatMap fun q =>
    leBytes 4 (match ps.find? (fun p => p.expert == e && p.index == q) with
      | some p => p.member + p.core * 2 ^ 8 + p.slot * 2 ^ 16 + 2 ^ 31
      | none => 0)

/-- One layer's revision, where its REVISE_PERIOD makes it due: its own histogram clears, and the sums and the table they give are kept until
the step that uses the table has committed. -/
def reviseLayer (v : Revision) : Prog := withS fun s =>
  let l := s.layer v.layer
  let hw := fun i => leNat (bytesAt s.mem (l.placeAddr + 4 * i) 4)
  let period := hw 3 % 2 ^ 16
  let old := s.allReplicas l
  let ps := revise l old (hw 2 % 2 ^ 13) period v.served
  onlyIf (s.isDueEvery period)
    (seq (writeBytes .registrar l.histAddr (List.replicate (16 * l.experts) 0))
      (updJob fun j => { j with revised := j.revised ++
        [⟨v.layer, v.served, tableBytes (hw 0 + 1) l.experts (hw 2 % 2 ^ 13) period ps,
          (ps.filter fun p => !old.contains p).map fun p => (p.expert, p.member)⟩] }))

/-- A checkpoint is taken (11 R342): what Table 8 has of the device goes to the host. A block that is damaged is left out (log 75). -/
def takeCheckpoint : Prog := withS fun s =>
  let j := s.job
  let n := s.fld (Reg.btrEpoch 0)
  let slots := (Config.blockTables j.table).flatMap fun t => (entriesOf t).filterMap fun a =>
    let e := s.bEntry a
    if e.tiles = 0 then none
    else match e.committed n with
      | some h => if (s.stackHurt t.beater (e.slot h) slotBytes).isSome then none else some (t.beater, a, e.slot h)
      | none => none
  let tableLen := fun (l : Layer) => 64 + 64 * l.experts
  seqs
    [forEach slots fun x => forEach (s.stackParts x.1 x.2.2 slotBytes) fun p => touch false .registrar p.1 p.2,
     forEach (Config.layers j.table) fun a => touch false .registrar (s.layer a).placeAddr (tableLen (s.layer a)),
     emit [.send (.checkpoint
       { epoch := n, version := s.fld Reg.rgsFwVersion,
         blocks := slots.map fun x => (x.2.1, s.stackRead x.1 x.2.2 slotBytes),
         tables := (Config.layers j.table).map fun a => (a, s.read (s.layer a).placeAddr (tableLen (s.layer a))),
         sums := j.revised.map fun r => (r.layer, r.served), anchors := j.anchors })]]

/-- STEP_BOUNDARY_WORK (11 R341): the Watermark comparison and the revisions, where due, a checkpoint where one is, then the next step, or a
stop. The row is given again while the Vault holds the comparison's accesses up. -/
def boundaryProg (peers : List WmPeer) (revisions : List Revision) (work : BoundaryWork) : Prog := withS fun s =>
  match s.job.phase with
  | .boundary =>
    let steps := s.job.hdr.getD 5 0
    whenReady (s.dueTables.flatMap s.wmExts) (seqs
      [forEach s.dueTables (wmCompare peers),
       forEach revisions reviseLayer,
       updJob fun j => { j with histBad := !work.histOk },
       onlyIf work.checkpoint takeCheckpoint,
       updJob fun j => { j with phase := .ready, attempt := 0 },
       onlyIf (s.job.stopping.isSome || (steps != 0 && decide (steps ≤ s.job.steps))) stopJob])
  | _ => skip

/-! Job-state commands (13 R387). -/

/-- JOB_START. -/
def jobStartProg (c : Served) : Prog := withS fun s =>
  let st := s.fld Reg.rgsJobState
  if st ≠ 1 ∧ st ≠ 4 then answer c .sequenceFault []
  else serveOk c (seqs [updJob fun j => { j with phase := .ready, attempt := 0, steps := 0, stopping := none }, chooseAnchors,
    setF Reg.rgsJobState 2]) fun _ => []

/-- JOB_STOP: MODE 0 waits for the boundary, MODE 1 for the discarded attempt; the mailbox stays BUSY (`m` runs it). -/
def jobStopProg (c : Served) (m : Nat) (now : Bool) : Prog := withS fun s =>
  let st := s.fld Reg.rgsJobState
  if st = 0 then answer c .sequenceFault []
  else if st = 4 then answer c .ok []
  else if st = 1 then serveOk c (setF Reg.rgsJobState 4) fun _ => []
  else seqs
    [startServed c, setF Reg.rgsJobState 3, emit [.mbox { s.mbox with running := some m }], updJob fun j => { j with stopping := some now },
     match s.job.phase with
     | .ready => if now then restoreBegin else stopJob
     | .waiting _ _ => onlyIf now releaseCommit
     | _ => skip]

/-- JOB_UNLOAD. -/
def jobUnloadProg (c : Served) : Prog := withS fun s =>
  let st := s.fld Reg.rgsJobState
  if st ≠ 1 ∧ st ≠ 4 then answer c .sequenceFault []
  else serveOk c (seqs
    [releaseGroups s.job.groups, setLender false 0, forEach s.job.streams disableProg,
     emit [.job JobX.none], setF Reg.rgsJobState 0, setF Reg.rgsJobId 0]) fun _ => []

/-- SET_EPOCH. -/
def setEpochProg (c : Served) : Prog := withS fun s =>
  let st := s.fld Reg.rgsJobState
  if st ≠ 1 ∧ st ≠ 4 then answer c .sequenceFault [] else serveOk c (setEpochAll (numAt c.req 0 4)) fun _ => []

end Sys2Proof.Machine
end

