-- ==== Sys2Proof/Machine/Registrar.lean ====
section
/-! DEFINITION. What the boot ROM, the Registrar's firmware and the Custodian serve (chapters 13, 15, 16): mailbox and I3C commands but
for the job-state commands' own work, which is in `Job`. -/

namespace Sys2Proof.Machine

/-! Opcodes (13 R385 Table 3, R480). -/

/-- Request size of an assigned opcode; none for an unassigned one. -/
def opSize : Nat → Option Nat
  | 0x0001 => some 0 | 0x0002 => some 0 | 0x0003 => some 12
  | 0x0010 => some 4 | 0x0011 => some 0 | 0x0020 => some 12 | 0x0021 => some 4
  | 0x0030 => some 12 | 0x0031 => some 0 | 0x0032 => some 4 | 0x0033 => some 0 | 0x0034 => some 0 | 0x0035 => some 4
  | 0x0040 => some 24 | 0x0041 => some 0 | 0x0050 => some 0 | 0x0051 => some 4
  | 0x0F00 => some 0 | 0x0F01 => some 48 | 0x0F02 => some 0 | 0x0F03 => some 8 | 0x0F04 => some 4 | 0x0F05 => some 0
  | 0x0F06 => some 0 | 0x0F07 => some 0
  | _ => none

/-- The opcode is assigned to mailbox `m`; mailbox 7 stands for the I3C path too. -/
def opAt (m op : Nat) : Bool :=
  (opSize op).isSome && (op == 0x50 || (if op = 3 then m == 0 else if 0x0F00 ≤ op then m == 7 else decide (m < 7)))

/-- Commands marked owner. -/
def ownerOp (op : Nat) : Bool := [0x11, 0x20, 0x30, 0x31, 0x32, 0x33, 0x35, 0x51].contains op

/-- Commands that run one at a time (13 R386). -/
def serialOp (op : Nat) : Bool := [0x20, 0x30, 0x31, 0x32, 0x33, 0x35].contains op

/-- Firmware runs. -/
def State.fwRunning (s : State) : Bool := s.fld Reg.rgsFwState == 2

/-- The server's readiness, then the first check of 13 R382 that fails; `m` is 7 for I3C. -/
def State.mbFault (s : State) (m op len : Nat) : Option Status :=
  if m < 7 ∧ s.fld Reg.rgsCores = 0 then some .unitFault
  else if 1 ≤ m ∧ m < 7 ∧ !s.fwRunning then some .sequenceFault
  else if !opAt m op then some .descriptorFault
  else if m = 0 ∧ (!s.fwRunning && (op != 1 && op != 2 && (op != 3 || s.fld Reg.pwrBootStage == 15))) then some .sequenceFault
  else if m < 7 ∧ s.fwRunning ∧ op = 3 then some .sequenceFault
  else if ownerOp op ∧ !s.flagBit (Reg.htxMbBound m) then some .ownerFault
  else if 4032 < len then some .sizeFault
  else if len < (opSize op).getD 0 then some .descriptorFault
  else none

/-! Identity, version and firmware (13 R385, R388, R389; 15 R426, R427). -/

/-- GET_VERSION's reply. -/
def State.versionReply (s : State) : List Byte :=
  leBytes 4 (s.fld Reg.rgsFwVersion) ++ leBytes 2 (s.fld Reg.rgsFwSvn) ++ leBytes 2 (s.fld Reg.rgsRomVersion) ++
  (List.range 12).flatMap (fun w => leBytes 4 (s.fld (Reg.rgsFwDigest w))) ++ leBytes 4 (s.fld Reg.rgsFwState)

/-- The reason an image is refused, 1–6 (15 R427). -/
def State.imageFault (s : State) (img : List Byte) : Option Nat :=
  let n := fun a k => numAt img a k
  let body := img.drop 512
  let slot := n 0x12 1
  let letter := s.fld Reg.secIdStepLetter
  let digit := s.fld Reg.secIdStepDigit
  let reserved := (img.drop 0x13).take 1 ++ (img.drop 0xB0).take 0x50 ++ (img.drop 0x160).take 0xA0
  let stepping := decide (65 ≤ letter) && decide (letter ≤ 67) && decide (48 ≤ digit) && decide (digit ≤ 57) &&
    bit (n 0x14 4) (10 * (letter - 65) + (digit - 48))
  let key := (img.drop 0x50).take 96
  if n 0 4 ≠ 1 ∨ n 4 4 ≠ 512 ∨ img.length ≠ 512 + n 8 4 ∨ reserved.any (· != 0) then some 1
  else if (img.drop 0x18).take 8 ≠ ascii "ET960" ++ [0, 0, 0] ∨ !stepping then some 2
  else if 4 ≤ slot ∨ bit (s.fld Reg.secIdFwkeyRevoked) slot ∨ sha384 key ≠ s.ctlBytes (0x80 + 0x30 * slot) 48 then some 3
  else if !ecdsaOk key ((img.drop 0x100).take 96) (sha384 (img.take 0x100)) then some 4
  else if sha384 body ≠ (img.drop 0x20).take 48 then some 5
  else if n 0x10 2 < s.fld Reg.secIdSvnFloor then some 6
  else none

/-- LOAD_FIRMWARE. -/
def loadFirmware (c : Served) (m : Nat) : Prog := drawFree fun k => withS fun s =>
  let a := numAt c.req 0 8 % 2 ^ 48
  let len := numAt c.req 8 4
  if len = 0 then answer c .ok []
  else if 2 ^ 23 < len then answer c .sizeFault []
  else match s.hostRead k a len (hostPages a len) with
    | none => answer c .addressFault []
    | some img =>
      seqs [startServed c, setF Reg.rgsFwState 1, setF (Reg.htxMbProgress m) len,
        logEv (.mailbox m) c.acc .ok c.tag false (.progress len),
        match s.imageFault img with
        | some r => seqs [incF Reg.secFwAuthFails, setF Reg.secFwAuthReason r, setF Reg.rgsFwState 3, answer c .authFault []]
        | none =>
          let d := sha384 img
          seqs [setF Reg.rgsFwVersion (numAt img 0x0C 4), setF Reg.rgsFwSvn (numAt img 0x10 2),
                forEach (List.range 12) fun w => setF (Reg.rgsFwDigest w) (numAt d (4 * w) 4),
                setMeas 4 d, deriveAlias, setF Reg.secKeyAliasFw 1, setF Reg.rgsFwState 2, setF Reg.pwrBootStage 7,
                answer c .ok []]]

/-! Ownership (13 R377, R379). -/

/-- OWN_CLAIM. -/
def ownClaim (c : Served) (m : Nat) : Prog := withS fun s =>
  let mask := Nat.lor (numAt c.req 0 4 % 128) (2 ^ m)
  if s.flagBit Reg.htxOwned then answer c .ownerFault []
  else serveOk c (seqs [setF Reg.htxOwned 1, setF Reg.htxOwnerMbox mask,
    forEach (List.range 7) fun i => setF (Reg.htxMbBound i) (bits mask i 1)]) fun _ => leBytes 4 mask

/-! The repair list (16 R462–R464). -/

/-- A record as 16 bytes. -/
def RepairRec.bytes (r : RepairRec) : List Byte :=
  leBytes 4 (r.kind + r.die * 2 ^ 8 + r.stack * 2 ^ 12 + r.unit * 2 ^ 16) ++ leBytes 4 r.item ++ leBytes 4 (r.spare + r.cause * 2 ^ 16) ++
  leBytes 4 r.boot

/-- A record from 16 bytes. -/
def repairOf (bs : List Byte) : RepairRec :=
  let w := fun i => numAt bs (4 * i) 4
  ⟨bits (w 0) 0 8, bits (w 0) 8 4, bits (w 0) 12 4, bits (w 0) 16 16, w 1, bits (w 2) 0 16, bits (w 2) 16 16, w 3⟩

/-- KIND assigned and the fields it uses in range. -/
def RepairRec.ok (r : RepairRec) : Bool :=
  match r.kind with
  | 1 => decide (r.die < 2) && decide (r.unit < 136) && decide (128 ≤ r.spare) && decide (r.spare < 136)
  | 2 => decide (r.die < 2) && decide (r.unit < 136) && decide (r.item < 25) && r.spare == 24
  | 3 => r.die == 2 && decide (r.unit < 36) && decide (r.item < 9)
  | 4 => r.die == 2 && decide (r.unit < 36)
  | 5 => (moduleOf r.die r.unit).isSome
  | 6 => decide (r.die < 2) && decide (r.unit < 64)
  | 7 => decide (r.stack < 8) && decide (r.unit < 64)
  | 8 => decide (r.stack < 8) && decide (r.item < 68)
  | 9 => decide (r.unit < 4)
  | _ => false

/-- The logical core of a die that a physical core serves. -/
def State.coreAt (s : State) (die phys : Nat) : Option Nat :=
  ((List.range 128).map (128 * die + ·)).find? fun n => s.fld (Reg.corePhysical n) == phys && !s.outOfService n

/-- The physical lanes a port maps. -/
def State.laneMap (s : State) (p : Nat) : List Nat := (List.range 8).map fun i => s.fld (Reg.chnLaneMap p) / 16 ^ i % 16

/-- The logical array that a physical array serves. -/
def State.arrayAt (s : State) (n phys : Nat) : Option Nat := (List.range 24).find? fun a => s.fld (Reg.arrPhys n a) == phys

/-- A record's repair is already in effect. -/
def State.inEffect (s : State) (r : RepairRec) : Bool :=
  match r.kind with
  | 1 => (s.coreAt r.die r.unit).isNone
  | 2 => match s.coreAt r.die r.unit with
    | some n => (s.arrayAt n r.item).isNone
    | none => true
  | 3 => !(s.laneMap r.unit).contains r.item
  | 4 => (s.port r.unit).width == 4
  | 5 => match moduleOf r.die r.unit with
    | some x => s.cons.modules.contains x
    | none => true
  | 6 => s.cons.banks.contains (r.die, r.unit, r.item)
  | 9 => !bit (s.fld Reg.rgsCores) r.unit
  | _ => s.cons.repairs.any fun x => x.kind == r.kind && x.stack == r.stack && x.unit == r.unit && x.item == r.item

/-- A spare of the record's kind is left for it. -/
def State.spareLeft (s : State) (r : RepairRec) : Bool :=
  match r.kind with
  | 1 => (s.freeSpares r.die).contains r.spare
  | 2 => match s.coreAt r.die r.unit with
    | some n => !s.flagBit (Reg.arrSpareUsed n)
    | none => true
  | 3 => !s.flagBit (Reg.chnSpareUsed r.unit)
  | 6 => !(s.cons.banks.any fun b => b.1 == r.die && b.2.1 == r.unit && b.2.2 / 16 == r.item / 16)
  | 8 => s.fld (Reg.btrSpares r.stack) != 0
  | 9 => !s.flagBit Reg.rgsSpareUsed
  | _ => true

/-- One record is applied, with CAUSE 0. -/
def applyRepair (r : RepairRec) : Prog := withS fun s =>
  match r.kind with
  | 1 => given (s.coreAt r.die r.unit) fun n => adoptCore n r.spare 0
  | 2 => given (s.coreAt r.die r.unit) fun n => given (s.arrayAt n r.item) fun a => seqs
      [setF (Reg.arrSpareUsed n) 1, setF (Reg.arrSpareFor n) a, setF (Reg.arrPhys n a) 24,
       recordRepair ⟨2, r.die, 0, r.unit, r.item, 24, 0, s.boot⟩]
  | 3 => seq (mapLanes r.unit ((s.laneMap r.unit).map fun l => if l = r.item then 8 else l))
      (recordRepair ⟨3, 2, 0, r.unit, r.item, 8, 0, s.boot⟩)
  | 4 => seq (narrow r.unit (List.range 9)) (recordRepair ⟨4, 2, 0, r.unit, r.item, r.spare, 0, s.boot⟩)
  | 5 => moduleRemoveProg r.die r.unit 0
  | 6 => bankSpareProg r.die r.unit r.item 0 true
  | 7 => rowRepairProg r.stack (r.unit, r.item) r.spare 0 true
  | 8 => laneSpareProg r.stack r.item 0 true
  | 9 => controlSpareProg r.unit 0
  | _ => skip

/-- What becomes of a list: records applied and skipped, or a kind short of spares. The list is tried before anything is applied. -/
def tryRepairs (s : State) : List RepairRec → Nat → Nat → Option (Nat × Nat)
  | [], n, k => some (n, k)
  | r :: rest, n, k =>
    if s.inEffect r then tryRepairs s rest n (k + 1)
    else if s.spareLeft r then tryRepairs (run (applyRepair r) s) rest (n + 1) k
    else none

/-- REPAIR_APPLY. -/
def repairApply (c : Served) : Prog := drawFree fun k => withS fun s =>
  let a := numAt c.req 0 8 % 2 ^ 48
  let len := numAt c.req 8 4
  if s.fld Reg.rgsJobState ≠ 0 then answer c .sequenceFault []
  else if len = 0 then answer c .ok []
  else if len % 16 ≠ 0 ∨ 65536 < len then answer c .descriptorFault []
  else match s.hostRead k a len (hostPages a len) with
    | none => answer c .addressFault []
    | some bs =>
      let rs := (List.range (len / 16)).map fun i => repairOf ((bs.drop (16 * i)).take 16)
      if !rs.all (·.ok) then answer c .descriptorFault []
      else match tryRepairs s rs 0 0 with
        | none => answer c .sizeFault []
        | some n => serveOk c
            (seq (forEach rs fun r => withS fun t => onlyIf (!t.inEffect r) (applyRepair r)) (extendMeas 5 (sha384 bs)))
            fun _ => leBytes 4 n.1 ++ leBytes 4 n.2

/-- REPAIR_READ. -/
def repairRead (c : Served) : Prog := withS fun s =>
  let l := s.cons.repairs.reverse
  serveOk c skip fun _ =>
    leBytes 4 l.length ++ List.replicate 12 0 ++ (((l.drop (numAt c.req 0 4)).take 251).flatMap RepairRec.bytes)

/-! Job status and health (13 R386 Table 4, R385). -/

/-- JOB_STATUS's reply. -/
def State.jobReply (s : State) : List Byte :=
  let j := s.job
  leBytes 2 s.jobId ++ leBytes 1 (s.fld Reg.rgsJobState) ++ [0] ++ leBytes 4 (s.fld (Reg.btrEpoch 0)) ++ leBytes 8 j.steps ++
  leBytes 4 j.attempt ++ leBytes 2 (statusCode j.lastStatus) ++ leBytes 2 j.faultStream ++ leBytes 6 j.faultAcc

/-- HEALTH: the spec gives the Registrar's snapshot no layout; its length and bytes are free (log 21). -/
def healthProg (c : Served) : Prog := drawFree fun k =>
  serveOk c skip fun _ => leBytes (Config.freeAt k 0 % 4033) (Config.freeAt k 1)

/-! Provenance (16 R450–R455). -/

/-- The reply to a query of kinds 0–2. -/
def queryReply (ans : Nat) (st : Status) (flags mark result decided epoch : Nat) : List Byte :=
  leBytes 2 ans ++ leBytes 2 (statusCode st) ++ leBytes 1 flags ++ [0, 0, 0] ++ leBytes 8 mark ++ leBytes 8 result ++ leBytes 8 decided ++
  leBytes 4 epoch

/-- The answer UNKNOWN. -/
def unknownReply : List Byte := queryReply 3 .unknown 0 0 0 0 0

/-- The next accession number of a command's source; none for a source that does not exist. -/
def State.nextAcc (s : State) (kind id : Nat) : Option Nat :=
  if kind = 0 then (if id < strmCount then some (s.accNext id) else none)
  else if kind = 1 then (if id < 8 then some ((nget s.mbox.last id).getD 0 + 1) else none)
  else if kind = 2 then (if id < 64 then some (s.sq id).next else none)
  else none

/-- The command is held unissued in its stream: it has no event yet and has not started. -/
def State.stillHeld (s : State) (src : Src) (acc : Nat) : Bool :=
  match src with
  | .stream sid => (s.strm sid).ahead.any (·.acc == acc)
  | _ => false

/-- COMMAND (16 R450 Table 4). MARK of a completed command, its final mark, is free above its last PROGRESS (log 22). -/
def State.commandReply (s : State) (src : Src) (acc k : Nat) : List Byte :=
  let evs := s.ledger.events.filter fun e => e.src == src && e.acc == acc
  let has := fun (p : EvBody → Bool) => evs.find? fun e => p e.body
  let issue := has fun b => match b with | .issue _ _ _ _ => true | _ => false
  let start := has fun b => match b with | .start _ => true | _ => false
  let fin := has fun b => match b with | .fin _ _ _ => true | _ => false
  let gone := has fun b => match b with | .abandon _ => true | _ => false
  let mark := (evs.findSome? fun e => match e.body with | .progress n => some n | _ => none).getD 0
  let restart := match issue with
    | some e => match e.body with | .issue _ _ r _ => r | _ => false
    | none => false
  let flags := (if s.tainted (src, acc) then 1 else 0) + if restart then 2 else 0
  let seqOf := fun (o : Option Ev) => (o.map (·.seq)).getD 0
  match start, fin, gone with
  | some _, some e, _ => if e.status = .ok then queryReply 2 .ok flags (mark + Config.free k) 0 e.seq 0 else queryReply 1 e.status flags mark 0 e.seq 0
  | some _, none, some e => queryReply 1 .unitFault flags mark 0 e.seq 0
  | some e, none, none => queryReply 1 .unknown flags mark 0 (seqOf (evs.head?.or (some e))) 0
  | none, some e, _ => queryReply 0 e.status flags 0 0 e.seq 0
  | none, none, _ => if issue.isSome then queryReply 0 .unknown flags 0 0 (seqOf issue) 0
    else if s.stillHeld src acc then queryReply 0 .unknown flags 0 0 0 0
    else queryReply 3 .unknown flags 0 0 0 0

/-- The APPLIED_RUN events of a source at the Vault of die `d` since its last FRESH event, newest first (16 R453). -/
def State.runsOf (s : State) (d src : Nat) : List (Nat × Nat × Nat) :=
  let mine := s.ledger.events.filter fun e => match e.body with
    | .fresh x => x == src | .appliedRun x _ _ => x == src && e.src == vaultSrc d | _ => false
  (mine.takeWhile fun e => match e.body with | .fresh _ => false | _ => true).filterMap fun e => match e.body with
    | .appliedRun _ b m => some (b, m, e.seq)
    | _ => none

/-- What one Vault answers for an accession of a source (16 R453). -/
inductive Applied where
  | applied (st : Status) (old : Nat) (valid : Bool) (by_ : Nat)
  | notApplied
  | above
  | unknown
  deriving DecidableEq, Repr

/-- The answer of the Vault of die `d`. A run tells that the request was applied and no stored value. -/
def State.appliedAt (s : State) (d src acc : Nat) : Applied :=
  let t := s.target d src
  let runs := s.runsOf d src
  let bitIn := fun (b m : Nat) => decide (b ≤ acc) && decide (acc < b + 128) && bit m (acc - b)
  match t.window.find? (·.1 == acc) with
  | some e => if e.2.1 = .staleAccession then .notApplied else .applied e.2.1 e.2.2 true 0
  | none =>
    match runs.find? fun r => bitIn r.1 r.2.1 with
    | some r => .applied .ok 0 false r.2.2
    | none =>
      if (match t.run with | some r => bitIn r.1 r.2 | none => false) then .applied .ok 0 false 0
      else
        let base := ((runs.getLast?).map (·.1)).getD t.floor
        if t.highest < acc then .above else if base ≤ acc then .notApplied else .unknown

/-- An accession above the covered range is entered as refused, so that a later copy of it is not applied; the highest accession served
stays (16 R453). -/
def refuseLater (d src acc : Nat) : Prog := withS fun s =>
  let t := s.target d src
  let w := windowInsert t.window (acc, .staleAccession, 0)
  match w with
  | lowest :: rest =>
    if w.length ≤ 4096 then setTarget d src { t with window := w }
    else evict d src lowest t.run fun r => setTarget d src { t with window := rest, run := r }
  | [] => skip

/-- REMOTE: the two Vaults of the package answer together. -/
def remoteQuery (src acc : Nat) (k : List Byte → Prog) : Prog := withS fun s =>
  let a := s.appliedAt 0 src acc
  let b := s.appliedAt 1 src acc
  match a, b with
  | .applied st old v q, _ => k (queryReply 4 st (if v then 4 else 0) 0 old q 0)
  | _, .applied st old v q => k (queryReply 4 st (if v then 4 else 0) 0 old q 0)
  | .unknown, _ => k unknownReply
  | _, .unknown => k unknownReply
  | _, _ => seqs [onlyIf (a == .above) (refuseLater 0 src acc), onlyIf (b == .above) (refuseLater 1 src acc),
      k (queryReply 5 .unknown 0 0 0 0 0)]

/-- A query's reply by its kind, once its request is sound; `k` is told. -/
def localQuery (req : List Byte) (fail : Prog) (k : List Byte → Prog) : Prog := drawFree fun n => withS fun s =>
  let id := numAt req 10 2
  let key := numAt req 16 8
  match numAt req 0 4 with
  | 0 =>
    let kind := numAt req 8 1
    match s.nextAcc kind id with
    | none => fail
    | some next => if next ≤ key % 2 ^ 48 then fail
      else k (s.commandReply (if kind = 0 then .stream id else if kind = 1 then .mailbox id else .queue id) (key % 2 ^ 48) n)
  | 1 => remoteQuery (id % 4096) (key % 2 ^ 48) k
  | 2 => match s.commitAnswer id (key % 2 ^ 32) with
    | some (e, d, ep) => k (queryReply (if d then 6 else 7) .ok 0 0 0 e.seq ep)
    | none => k unknownReply
  | 3 => k (readReply s s.ledger.events.reverse s.ledger.next key)
  | _ => fail

/-- LEDGER_QUERY: answered here, or forwarded to the package it names. Every package has the same streams, mailboxes and queues, so a query of
one that does not exist ends here (02 R39). -/
def ledgerQuery (c : Served) (m : Nat) : Prog := withS fun s =>
  let pkg := numAt c.req 4 2
  let told := fun bs => seq (incF Reg.ldgQueries) (answer c .ok bs)
  if 3 < numAt c.req 0 4 || (numAt c.req 0 4 == 0 && (s.nextAcc (numAt c.req 8 1) (numAt c.req 10 2)).isNone) then answer c .descriptorFault []
  else if pkg = 0xFFFF ∨ pkg = s.me then seq (startServed c) (localQuery c.req (answer c .descriptorFault []) told)
  else if 4096 ≤ pkg ∨ !s.reachable pkg then seq (startServed c) (told unknownReply)
  else seqs [startServed c, emit [.mbox { s.mbox with fwd := s.mbox.fwd ++ [m] }, .send (.ledgerFwd pkg c.req)]]

/-- LEDGER_FWD_QUERY: another package's query is answered; to a request that is not sound goes a reply of no bytes, at which it ends with
DESCRIPTOR_FAULT where it came from (log 79). -/
def fwdQueryProg (src : Nat) (req : List Byte) : Prog := withS fun s =>
  let told := fun bs => emit [.send (.ledgerFwd src bs)]
  onlyIf s.fwRunning (localQuery req (told []) fun bs => seq (incF Reg.ldgQueries) (told bs))

/-- A forwarded query of mailbox `m` ends, by its reply or at LDG_FWD_TIMEOUT; number 8 is the step loop's own (09 R281). A reply after the
timeout is late (01 R26): the spec names no counter for it, and the count is the model's (log 79). -/
def fwdEndProg (m : Nat) (reply : Option (List Byte)) : Prog := withS fun s =>
  let x := s.mbox
  if m = 8 then decisionTold (match reply with | some r => numAt r 0 2 | none => 3)
  else if x.fwd.contains m then
    seqs [emit [.mbox { x with fwd := x.fwd.filter (· != m), past := if reply.isSome then x.past else x.past ++ [m] }],
          if reply = some [] then endMailbox m .descriptorFault [] else seq (incF Reg.ldgQueries) (endMailbox m .ok (reply.getD unknownReply))]
  else onlyIf (reply.isSome && x.past.contains m)
    (seq (emit [.mbox { x with past := x.past.erase m, late := x.late + 1 }])
      (logEv (.mailbox m) 0 .timeout 0 false (.lateReply m (x.late + 1))))

/-! Debug unlock (15 R438). -/

/-- DEBUG_UNLOCK. -/
def debugUnlock (c : Served) : Prog := drawFree fun k => withS fun s =>
  let nonce := Config.free k % 2 ^ 384
  let tok := c.req.drop 8
  let serial := s.ctlBytes 0x10 16
  match numAt c.req 0 4 with
  | 0 => serveOk c (emit [.sec { s.sec with nonce := some nonce }]) fun _ => beBytes 48 nonce ++ serial
  | 1 =>
    if c.req.length < 264 then answer c .descriptorFault []
    else match s.sec.nonce with
      | none => answer c .sequenceFault []
      | some n =>
        let used := emit [.sec { s.sec with nonce := none }]
        let key := (tok.drop 64).take 96
        if s.fld Reg.rgsJobState ≠ 0 then answer c .sequenceFault []
        else if tok.take 16 ≠ serial ∨ (tok.drop 16).take 48 ≠ beBytes 48 n ∨ sha384 key ≠ s.ctlBytes 0x140 48 ∨
            !ecdsaOk key ((tok.drop 160).take 96) (sha384 (tok.take 160)) then seq used (answer c .authFault [])
        else serveOk c (seq used (setF Reg.secDebugPending 1)) fun _ => []
  | 2 => serveOk c (seq (emit [.sec { s.sec with nonce := none }]) (setF Reg.secDebugPending 0)) fun _ => []
  | _ => answer c .descriptorFault []

/-! SPDM (15 R429, R430; codes and layouts of DSP0274 1.3, log 20). -/

/-- An ECDSA P-384 signature, r then s, with nonce number `k`. -/
def ecdsaSign (key k : Nat) (digest : List Byte) : List Byte :=
  let k := k % (ecN - 1) + 1
  let r := ((ecMul k (some ecG) 384).map (·.1)).getD 0 % ecN
  beBytes 48 r ++ beBytes 48 (invMod ecN k * (beNat digest % ecN + r * key) % ecN)

/-- The SPDM connection of a path. -/
def connOf : Via → Nat
  | .mailbox m => m
  | .i3c _ _ => 8

/-- A connection. -/
def State.spdm (s : State) (n : Nat) : SpdmX := (nget s.sec.spdm n).getD SpdmX.reset

/-- An SPDM response: the mailbox command completes with OK; on I3C the message itself goes out. -/
def spdmAnswer (c : Served) (bs : List Byte) : Prog :=
  match c.via with
  | .mailbox _ => answer c .ok bs
  | .i3c _ _ => emit [.send (.i3c bs)]

/-- An ERROR response. -/
def spdmError (code : Nat) : List Byte := [0x13, 0x7F, BitVec.ofNat 8 code, 0]

/-- A connection gets as far as `phase`. -/
def setSpdm (n phase : Nat) : Prog := withS fun s => emit [.sec { s.sec with spdm := nset s.sec.spdm n ⟨phase, false⟩ }]

/-- One measurement block: reported as a digest. The type bits below bit 7 of its value type are free. -/
def measBlock (s : State) (k i : Nat) : List Byte :=
  leBytes 1 i ++ [1] ++ leBytes 2 51 ++ leBytes 1 (Config.freeAt k (16 + i) % 128) ++ leBytes 2 48 ++ s.meas i

/-- The signature of a response, with the Alias key; the digest of the SPDM transcript is the standard's, and free here. -/
def spdmSign (s : State) (k : Nat) : List Byte := ecdsaSign s.sec.alias_ (Config.freeAt k 1) (beBytes 48 (Config.freeAt k 2 % 2 ^ 384))

/-- The response to a request of an assigned code at its version. -/
def spdmReply (s : State) (k code p1 p2 : Nat) (req : List Byte) : List Byte :=
  let chain := Config.certChain s.sec.certs
  let nonce := beBytes 32 (Config.freeAt k 3 % 2 ^ 256)
  match code with
  | 0x84 => [0x10, 0x04, 0, 0, 0, 1, 0x00, 0x13]
  | 0xE1 => [0x13, 0x61, 0, 0, 0] ++ leBytes 1 (Config.freeAt k 4 % 256) ++ [0, 0] ++ leBytes 4 0x36 ++ leBytes 8 (Config.freeAt k 5 % 2 ^ 64)
  | 0xE3 =>
    let p384 := bit (numAt req 8 4) 7
    let sha := bit (numAt req 12 4) 1
    if !p384 && !sha then spdmError (Config.freeAt k 6 % 256)
    else [0x13, 0x63, 0, 0, 36, 0, 1, 0] ++ leBytes 4 4 ++ leBytes 4 (if p384 then 0x80 else 0) ++ leBytes 4 (if sha then 2 else 0) ++
      List.replicate 16 0
  | 0x81 => [0x13, 0x01, 1, 1] ++ sha384 chain
  | 0x82 =>
    let off := numAt req 4 2
    let part := (chain.drop off).take (min 1024 (numAt req 6 2))
    if p1 % 16 ≠ 0 ∨ chain.length ≤ off then spdmError 0x01
    else [0x13, 0x02, 0, 0] ++ leBytes 2 part.length ++ leBytes 2 (chain.length - off - part.length) ++ part
  | 0x83 =>
    if p1 % 16 ≠ 0 then spdmError 0x01
    else [0x13, 0x03, 0, 1] ++ sha384 chain ++ nonce ++ (if p2 = 0 then [] else beBytes 48 (Config.freeAt k 7 % 2 ^ 384)) ++ [0, 0] ++
      (req.drop 36).take 8 ++ spdmSign s k
  | _ =>
    let idx := if p2 = 0 then [] else if p2 = 0xFF then [1, 2, 3, 4, 5, 6, 7] else [p2]
    let rec_ := idx.flatMap (measBlock s k)
    if 7 < p2 ∧ p2 ≠ 0xFF then spdmError 0x01
    else [0x13, 0x60] ++ leBytes 1 (if p2 = 0 then 7 else 0) ++ [0] ++ leBytes 1 idx.length ++ leBytes 3 rec_.length ++ rec_ ++ nonce ++ [0, 0] ++
      (if p1 % 2 = 1 then (req.drop 37).take 8 ++ spdmSign s k else List.take 8 (req.drop 4))

/-- Codes of the seven requests the responder supports. -/
def spdmCodes : List Nat := [0x84, 0xE1, 0xE3, 0x81, 0x82, 0x83, 0xE0]

/-- How far a connection must have come for a request. -/
def spdmNeeds (code : Nat) : Nat := if code = 0x84 then 0 else if code = 0xE1 then 1 else if code = 0xE3 then 2 else 3

/-- SPDM_MESSAGE: one request, answered in its connection. -/
def spdmServe (c : Served) : Prog := drawFree fun k => withS fun s =>
  let n := connOf c.via
  let x := s.spdm n
  let b := fun i => numAt c.req i 1
  let code := b 1
  let out := spdmReply s k code (b 2) (b 3) c.req
  seqs [startServed c, incF Reg.secSpdmRequests,
    if c.req.length < 4 then spdmAnswer c (spdmError 0x01)
    else if code ≠ 0x84 ∧ b 0 ≠ 0x13 then spdmAnswer c (spdmError 0x41)
    else if !spdmCodes.contains code then spdmAnswer c (spdmError 0x07)
    else if x.stale ∧ code ≠ 0x84 then spdmAnswer c (spdmError 0x43)
    else if x.phase < spdmNeeds code then spdmAnswer c (spdmError 0x04)
    else seq (if code = 0x84 then setSpdm n 1 else if code = 0xE1 then setSpdm n 2
              else if code = 0xE3 then onlyIf (numAt out 1 1 != 0x7F) (setSpdm n 3) else skip)
      (spdmAnswer c out)]

/-! Custodian operations (16 R456, R457). -/

/-- A unit is out of service. -/
def State.unitOut (s : State) : Bool :=
  (List.range 8).any (fun w => s.fld (Reg.csvOutOfService w) != 0) || (List.range 8).any (fun k => decide (s.fld (Reg.btrLanes k) < 48)) ||
  s.fld Reg.rgsCores == 0

/-- A kind of spare is exhausted. -/
def State.spareOut (s : State) : Bool :=
  s.fld Reg.csvCoreSpares0 == 0 || s.fld Reg.csvCoreSpares1 == 0 || s.flagBit Reg.rgsSpareUsed ||
  (List.range 8).any (fun k => s.fld (Reg.btrSpares k) == 0) || (List.range 256).any (fun n => s.flagBit (Reg.arrSpareUsed n)) ||
  (List.range 36).any (fun p => s.flagBit (Reg.chnSpareUsed p))

/-- The fault summary of the health snapshot. -/
def State.summary (s : State) : Nat :=
  let b := fun (i : Nat) (c : Bool) => if c then 2 ^ i else 0
  b 0 s.pow.fault + b 1 s.pow.refFault + b 2 s.pow.trip.isSome + b 3 (s.fld Reg.pwrBootStage == 15) + b 4 s.pow.stalled + b 5 s.pow.memFault +
  b 6 s.unitOut + b 7 s.spareOut

/-- CUST_HEALTH's reply (16 R457 Table 8). Times, junction sensors and the rails of a package not powered good are free (log 12, 21). -/
def State.healthReply (s : State) (k : Nat) : List Byte :=
  leBytes 4 s.boot ++ leBytes 1 (s.fld Reg.pwrBootStage) ++ leBytes 1 (s.fld Reg.pwrResetCause) ++ leBytes 1 (s.fld Reg.secDebugState) ++
  leBytes 1 (s.fld Reg.rgsFwState) ++ leBytes 8 (Config.freeAt k 0 % 2 ^ 64) ++ (List.range 4).flatMap (fun i => leBytes 1 (Config.freeAt k (1 + i))) ++
  leBytes 1 (s.fld (Reg.vltTempMax 0)) ++ leBytes 1 (s.fld (Reg.vltTempMax 1)) ++ (List.range 8).flatMap (fun i => leBytes 1 (s.fld (Reg.hbmTemp i))) ++
  [0, 0] ++ leBytes 2 (if s.pow.mainUp && s.pow.pwrok then 0xFFFF else Config.freeAt k 5 / 4 * 4 + 3) ++ [0, 0] ++ leBytes 4 (s.fld Reg.clkLock) ++
  leBytes 1 s.summary ++ [0, 0, 0] ++ leBytes 4 (Config.freeAt k 6) ++ leBytes 8 ((s.ledger.tail.head?.map (·.seq)).getD 0) ++
  leBytes 2 (s.fld Reg.pwrNow)

/-- Both Vaults are flushed (07 R200), for the orderly power-down. -/
def flushBoth : Prog := withS fun s =>
  forEach (s.cache.filter fun e => e.2.dirty) fun e => seq (dropLine .registrar e) skip

/-- A Custodian operation. -/
def custServe (c : Served) (flushOk : Option Bool) : Prog := drawFree fun k => withS fun s =>
  let ident := s.ctlBytes 0 64
  let count := leBytes 4 s.boot
  let debug := leBytes 1 (s.fld Reg.secDebugState)
  let served := incF Reg.cstOps
  let flushed := flushOk.getD (Config.freeAt k 9 % 2 == 1)
  match c.op with
  | 0x0F00 => serveOk c served fun _ => ident ++ count ++ debug
  | 0x0F01 =>
    let body := (List.range 7).flatMap (fun i => s.meas (i + 1)) ++ count ++ debug ++ [0, 0, 0]
    serveOk c served fun _ => body ++ ecdsaSign s.sec.alias_ (Config.freeAt k 1) (sha384 (c.req.take 48 ++ body))
  | 0x0F02 => serveOk c served fun _ => s.healthReply k
  | 0x0F03 => serveOk c served fun t =>
      readReply t t.ledger.tail.reverse ((t.ledger.tail.head?.map (·.seq + 1)).getD t.ledger.next) (numAt c.req 0 8)
  | 0x0F04 => seq (serveOk c served fun _ => []) (packageReset 3 (numAt c.req 0 4 % 2 == 1))
  | 0x0F05 => seqs
      [onlyIf flushed flushBoth, serveOk c served (fun _ => [if flushed then 1 else 0]),
       emit [.restart false], updPow fun p => { p with off := true }]
  | 0x0F06 => serveOk c (seqs [served, updCons fun x => { x with armed := [] }, setF Reg.csvInjLock 1]) fun _ => []
  | _ => serveOk c served fun _ => leBytes 8 (Config.freeAt k 0 % 2 ^ 64) ++ count

/-! Dispatch. -/

/-- A served command's own work, once the checks of 13 R382 pass; `m` is its mailbox, 7 for I3C. -/
def serve (c : Served) (m : Nat) (flushOk : Option Bool) : Prog := withS fun s =>
  match c.op with
  | 0x0001 => serveOk c skip fun _ => s.ctlBytes 0 64
  | 0x0002 => serveOk c skip fun _ => s.versionReply
  | 0x0003 => loadFirmware c m
  | 0x0010 => ownClaim c m
  | 0x0011 => serveOk c endOwnership fun _ => []
  | 0x0020 => repairApply c
  | 0x0021 => repairRead c
  | 0x0030 => seq (startServed c) (jobLoad (numAt c.req 0 8 % 2 ^ 44) (numAt c.req 8 4) fun st => answer c st [])
  | 0x0031 => jobStartProg c
  | 0x0032 => jobStopProg c m (numAt c.req 0 4 % 2 == 1)
  | 0x0033 => jobUnloadProg c
  | 0x0034 => serveOk c skip fun _ => s.jobReply
  | 0x0035 => setEpochProg c
  | 0x0040 => ledgerQuery c m
  | 0x0041 => healthProg c
  | 0x0050 => spdmServe c
  | 0x0051 => debugUnlock c
  | _ => custServe c flushOk

/-- Serialised commands that wait are served in the order of their GO, until one stays in progress (13 R386). -/
def drainWaiting : Nat → Prog
  | 0 => skip
  | n + 1 => withS fun s =>
    match s.mbox.running, s.mbox.waiting with
    | none, m :: r => seqs [emit [.mbox { s.mbox with waiting := r }], serve (s.servedOn m) m none, drainWaiting n]
    | _, _ => skip

/-- A program after which waiting commands may be served. -/
def thenWaiting (p : Prog) : Prog := seq p (drainWaiting 8)

/-- A forwarded query ends; one of the step loop's own may stop the job, and with it the JOB_STOP that others wait for. -/
def fwdEnded (m : Nat) (reply : Option (List Byte)) : Prog :=
  if m = 8 then thenWaiting (fwdEndProg m reply) else fwdEndProg m reply

/-- A GO is taken (13 R381): BUSY, the next accession number, and ISSUE. -/
def goBegin (m : Nat) : Prog := withS fun s =>
  let acc := ((nget s.mbox.last m).getD 0 + 1) % 2 ^ 48
  seqs
    [setF (Reg.htxMbState m) 1, setF48 (Reg.htxMbAccLo m) (Reg.htxMbAccHi m) acc,
     emit [.mbox { s.mbox with last := nset s.mbox.last m acc }],
     logEv (.mailbox m) acc .ok (s.fld (Reg.htxMbTag m)) false (.issue 0 (s.fld (Reg.htxMbOpcode m)) false none)]

/-- GO on a mailbox (13 R381): ignored and counted while BUSY. -/
def goMailbox (m : Nat) (flushOk : Option Bool) : Prog := withS fun s =>
  if 8 ≤ m then skip
  else if s.fld (Reg.htxMbState m) = 1 then incF (Reg.htxMbIgnored m)
  else seq (goBegin m) (withS fun t =>
    let c := t.servedOn m
    match t.mbFault m c.op (t.fld (Reg.htxMbReqLen m)) with
    | some st => answer c st []
    | none =>
      if serialOp c.op ∧ (t.mbox.running.isSome ∨ !t.mbox.waiting.isEmpty) then emit [.mbox { t.mbox with waiting := t.mbox.waiting ++ [m] }]
      else thenWaiting (serve c m flushOk))

/-- A command on the I3C lands, once the Custodian has an address (16 R457). -/
def i3cServe (op tag : Nat) (req : List Byte) (flushOk : Option Bool) : Prog := withS fun s =>
  let c : Served := ⟨.i3c tag req, op, tag, 0, req⟩
  if !s.pow.custUp || s.pow.i3c.isNone then skip
  else match s.mbFault 7 op req.length with
    | some st => answer c st []
    | none => serve c 7 flushOk

/-- A row of a mailbox or I3C command: GO on a mailbox whose block holds its opcode and a request it describes, or that request on I3C. -/
def onVia (via : Via) (op : Nat) (what : List Byte → Bool) (flushOk : Option Bool := none) : Prog := withS fun s =>
  match via with
  | .mailbox m => onlyIf (s.fld (Reg.htxMbOpcode m) == op && what (s.mbReq m)) (goMailbox m flushOk)
  | .i3c tag req => onlyIf (what req) (i3cServe op tag req flushOk)

/-- Any request. -/
def anyReq : List Byte → Bool := fun _ => true

/-- A request whose first bytes, as a number of `n` bytes from `a`, satisfy a test. -/
def reqIs (a n : Nat) (p : Nat → Bool) : List Byte → Bool := fun bs => p (numAt bs a n)

/-- An SPDM request of a supported code at version 1.3. -/
def spdmIs (code : Nat) : List Byte → Bool := fun bs => numAt bs 1 1 == code && (code == 0x84 || numAt bs 0 1 == 0x13)

/-- MAILBOX_GO_UNASSIGNED: a GO that ends at its opcode, or on a mailbox no firmware serves yet. -/
def goUnassigned (m : Nat) (ag : Agent) : Prog := withS fun s =>
  let off := mbBase m + 8
  onlyIf (decide (m < 8) && (!opAt m (s.fld (Reg.htxMbOpcode m)) || (decide (1 ≤ m) && decide (m < 7) && !s.fwRunning)))
    (match ag with
     | .window0 => onlyIf s.pow.linksUp (goMailbox m none)
     | .window1 => onlyIf s.pow.linksUp (if s.accepts ag off then goMailbox m none else winRefuse off)
     | _ => onlyIf (s.accepts ag off) (goMailbox m none))

/-- The command that a failed control core was serving ends with UNIT_FAULT (16 R458). -/
def failMailbox (m : Nat) : Prog := withS fun s =>
  seq (emit [.mbox { s.mbox with running := if s.mbox.running = some m then none else s.mbox.running, fwd := s.mbox.fwd.filter (· != m) }])
    (endMailbox m .unitFault [])

/-! I3C and the heartbeat (16 R457, R467; 13 R396). -/

/-- I3C_ENTDAA. -/
def entdaaProg (address : Nat) : Prog := withS fun s => onlyIf s.pow.custUp (updPow fun p => { p with i3c := some address })

/-- I3C_REQUEST_DISCARD. -/
def i3cDiscardProg : Prog := withS fun s =>
  onlyIf (s.pow.custUp && s.pow.i3c.isSome) (seq (incF Reg.cstI3cDropped) (setBitF Reg.cstAlertCause 3 true))

/-- HEARTBEAT_ADVANCE, by running firmware. -/
def heartbeatProg : Prog := withS fun s =>
  onlyIf (s.fwRunning && (List.range 4).any fun i => bit (s.fld Reg.rgsCores) i && !s.sec.halted.contains i)
    (seq (incF Reg.rgsHeartbeat) (updPow fun p => { p with stalled := false }))

/-- HEARTBEAT_STALL. -/
def stallProg : Prog := withS fun s =>
  onlyIf s.pow.custUp
    (seqs [setBitF Reg.cstAlertCause 1 true, updPow fun p => { p with stalled := true }, logDetect false 0x11 2 0 0 1 .ok])

/-! The commands. -/

/-- GET_IDENTITY (13 R385). -/
def execGetIdentity (via : Via) (s : State) : Out := .next (run (onVia via 0x0001 anyReq) s)

/-- GET_VERSION (13 R385). -/
def execGetVersion (via : Via) (s : State) : Out := .next (run (onVia via 0x0002 anyReq) s)

/-- LOAD_FIRMWARE (13 R388). -/
def execLoadFirmware (via : Via) (s : State) : Out := .next (run (onVia via 0x0003 anyReq) s)

/-- OWN_CLAIM (13 R377). -/
def execOwnClaim (via : Via) (s : State) : Out := .next (run (onVia via 0x0010 anyReq) s)

/-- OWN_RELEASE (13 R379). -/
def execOwnRelease (via : Via) (s : State) : Out := .next (run (onVia via 0x0011 anyReq) s)

/-- REPAIR_APPLY (16 R463). -/
def execRepairApply (via : Via) (s : State) : Out := .next (run (onVia via 0x0020 anyReq) s)

/-- REPAIR_READ (16 R464). -/
def execRepairRead (via : Via) (s : State) : Out := .next (run (onVia via 0x0021 anyReq) s)

/-- JOB_LOAD (13 R387). -/
def execJobLoad (via : Via) (s : State) : Out := .next (run (onVia via 0x0030 anyReq) s)

/-- JOB_START (13 R387). -/
def execJobStart (via : Via) (s : State) : Out := .next (run (onVia via 0x0031 anyReq) s)

/-- JOB_STOP_BOUNDARY (13 R387). -/
def execJobStopBoundary (via : Via) (s : State) : Out :=
  .next (run (onVia via 0x0032 (reqIs 0 4 fun x => x % 2 == 0)) s)

/-- JOB_STOP_NOW (13 R387). -/
def execJobStopNow (via : Via) (s : State) : Out :=
  .next (run (onVia via 0x0032 (reqIs 0 4 fun x => x % 2 == 1)) s)

/-- JOB_UNLOAD (13 R387). -/
def execJobUnload (via : Via) (s : State) : Out := .next (run (onVia via 0x0033 anyReq) s)

/-- JOB_STATUS (13 R386). -/
def execJobStatus (via : Via) (s : State) : Out := .next (run (onVia via 0x0034 anyReq) s)

/-- SET_EPOCH (13 R387). -/
def execSetEpoch (via : Via) (s : State) : Out := .next (run (onVia via 0x0035 anyReq) s)

/-- LEDGER_QUERY_COMMAND (16 R450). -/
def execLedgerQueryCommand (via : Via) (s : State) : Out := .next (run (onVia via 0x0040 (reqIs 0 4 (· == 0))) s)

/-- LEDGER_QUERY_REMOTE (16 R453). -/
def execLedgerQueryRemote (via : Via) (s : State) : Out := .next (run (onVia via 0x0040 (reqIs 0 4 (· == 1))) s)

/-- LEDGER_QUERY_COMMIT (16 R454). -/
def execLedgerQueryCommit (via : Via) (s : State) : Out := .next (run (onVia via 0x0040 (reqIs 0 4 (· == 2))) s)

/-- LEDGER_QUERY_READ (16 R455). -/
def execLedgerQueryRead (via : Via) (s : State) : Out := .next (run (onVia via 0x0040 (reqIs 0 4 (· == 3))) s)

/-- LEDGER_FWD_QUERY (16 R455). -/
def execLedgerFwdQuery (src : Nat) (req : List Byte) (s : State) : Out := .next (run (fwdQueryProg src req) s)

/-- LEDGER_FWD_TIMEOUT (16 R455). -/
def execLedgerFwdTimeout (m : Nat) (s : State) : Out := .next (run (fwdEnded m none) s)

/-- LEDGER_FWD_REPLY (16 R455). -/
def execLedgerFwdReply (m : Nat) (reply : List Byte) (s : State) : Out := .next (run (fwdEnded m (some reply)) s)

/-- HEALTH (13 R385). -/
def execHealth (via : Via) (s : State) : Out := .next (run (onVia via 0x0041 anyReq) s)

/-- DEBUG_UNLOCK_CHALLENGE (15 R438). -/
def execDebugUnlockChallenge (via : Via) (s : State) : Out := .next (run (onVia via 0x0051 (reqIs 0 4 (· == 0))) s)

/-- DEBUG_UNLOCK_SUBMIT (15 R438). -/
def execDebugUnlockSubmit (via : Via) (s : State) : Out := .next (run (onVia via 0x0051 (reqIs 0 4 (· == 1))) s)

/-- DEBUG_UNLOCK_CANCEL (15 R438). -/
def execDebugUnlockCancel (via : Via) (s : State) : Out := .next (run (onVia via 0x0051 (reqIs 0 4 (· == 2))) s)

/-- SPDM_GET_VERSION (15 R429). -/
def execSpdmGetVersion (via : Via) (s : State) : Out := .next (run (onVia via 0x0050 (spdmIs 0x84)) s)

/-- SPDM_GET_CAPABILITIES (15 R429). -/
def execSpdmGetCapabilities (via : Via) (s : State) : Out := .next (run (onVia via 0x0050 (spdmIs 0xE1)) s)

/-- SPDM_NEGOTIATE_ALGORITHMS (15 R429). -/
def execSpdmNegotiateAlgorithms (via : Via) (s : State) : Out := .next (run (onVia via 0x0050 (spdmIs 0xE3)) s)

/-- SPDM_GET_DIGESTS (15 R429). -/
def execSpdmGetDigests (via : Via) (s : State) : Out := .next (run (onVia via 0x0050 (spdmIs 0x81)) s)

/-- SPDM_GET_CERTIFICATE (15 R429). -/
def execSpdmGetCertificate (via : Via) (s : State) : Out := .next (run (onVia via 0x0050 (spdmIs 0x82)) s)

/-- SPDM_CHALLENGE (15 R429). -/
def execSpdmChallenge (via : Via) (s : State) : Out := .next (run (onVia via 0x0050 (spdmIs 0x83)) s)

/-- SPDM_GET_MEASUREMENTS (15 R429). -/
def execSpdmGetMeasurements (via : Via) (s : State) : Out := .next (run (onVia via 0x0050 (spdmIs 0xE0)) s)

/-- SPDM_UNSUPPORTED (15 R429). -/
def execSpdmUnsupported (via : Via) (s : State) : Out :=
  .next (run (onVia via 0x0050 fun bs => !spdmCodes.any fun code => spdmIs code bs) s)

/-- CUST_IDENTITY (16 R456). -/
def execCustIdentity (via : Via) (s : State) : Out := .next (run (onVia via 0x0F00 anyReq) s)

/-- CUST_QUOTE (16 R456). -/
def execCustQuote (via : Via) (s : State) : Out := .next (run (onVia via 0x0F01 anyReq) s)

/-- CUST_HEALTH (16 R456). -/
def execCustHealth (via : Via) (s : State) : Out := .next (run (onVia via 0x0F02 anyReq) s)

/-- CUST_LEDGER_TAIL (16 R456). -/
def execCustLedgerTail (via : Via) (s : State) : Out := .next (run (onVia via 0x0F03 anyReq) s)

/-- CUST_RESET (14 R407). -/
def execCustReset (via : Via) (s : State) : Out :=
  .next (run (onVia via 0x0F04 (reqIs 0 4 fun x => x % 2 == 0)) s)

/-- CUST_RESET_KEEP_HBM (14 R408). -/
def execCustResetKeepHbm (via : Via) (s : State) : Out :=
  .next (run (onVia via 0x0F04 (reqIs 0 4 fun x => x % 2 == 1)) s)

/-- CUST_POWER_DOWN (14 R401). -/
def execCustPowerDown (via : Via) (flushOk : Bool) (s : State) : Out := .next (run (onVia via 0x0F05 anyReq (some flushOk)) s)

/-- CUST_INJECT_OFF (16 R456). -/
def execCustInjectOff (via : Via) (s : State) : Out := .next (run (onVia via 0x0F06 anyReq) s)

/-- CUST_TIME (16 R456). -/
def execCustTime (via : Via) (s : State) : Out := .next (run (onVia via 0x0F07 anyReq) s)

/-- I3C_ENTDAA (16 R457). -/
def execI3cEntdaa (address : Nat) (s : State) : Out := .next (run (entdaaProg address) s)

/-- I3C_REQUEST_DISCARD (16 R457). -/
def execI3cRequestDiscard (s : State) : Out := .next (run (i3cDiscardProg) s)

/-- MAILBOX_GO_UNASSIGNED (13 R382). -/
def execMailboxGoUnassigned (m : Nat) (ag : Agent) (s : State) : Out := .next (run (goUnassigned m ag) s)

/-- HEARTBEAT_ADVANCE (13 R396). -/
def execHeartbeatAdvance (s : State) : Out := .next (run (heartbeatProg) s)

/-- HEARTBEAT_STALL (16 R467). -/
def execHeartbeatStall (s : State) : Out := .next (run (stallProg) s)

/-- STEP_ATTEMPT (11 R338). -/
def execStepAttempt (s : State) : Out := .next (run (thenWaiting stepAttemptProg) s)

/-- STEP_TIMEOUT (11 R337). -/
def execStepTimeout (s : State) : Out := .next (run (stepTimeoutProg) s)

/-- COMMIT_RELEASE (11 R337). -/
def execCommitRelease (s : State) : Out := .next (run (commitReleaseProg) s)

/-- STEP_BOUNDARY_WORK (11 R341). -/
def execStepBoundaryWork (peers : List WmPeer) (revisions : List Revision) (work : BoundaryWork) (s : State) : Out :=
  .next (run (thenWaiting (boundaryProg peers revisions work)) s)

/-- CORRECTABLE_ERROR (16 R444). -/
def execCorrectableError (det die unit item : Nat) (s : State) : Out := .next (run (correctableProg det die unit item) s)

/-- UNCORRECTABLE_ERROR (16 R444). -/
def execUncorrectableError (det die unit item : Nat) (s : State) : Out :=
  .next (run (thenWaiting (uncorrectableProg failMailbox det die unit item)) s)

/-- CSV_INJ_ARM (16 R445). -/
def execCsvInjArm (s : State) : Out := .next (run (thenWaiting (injArmProg failMailbox)) s)

/-- CSV_REPLACE_GO (16 R459). -/
def execCsvReplaceGo (n : Nat) (s : State) : Out := .next (run (replaceGoProg n) s)

/-- CORE_REPLACE (16 R459). -/
def execCoreReplace (n : Nat) (s : State) : Out := .next (run (coreReplaceProg n) s)

/-- CONTROL_CORE_SPARE (16 R458). -/
def execControlCoreSpare (index : Nat) (s : State) : Out :=
  .next (run (thenWaiting (seq (onlyIf (bit (s.fld Reg.rgsCores) index) (controlFail failMailbox)) (controlSpareProg index 0x0E))) s)

/-- UCIE_MODULE_REMOVE (16 R458). -/
def execUcieModuleRemove (die module_ : Nat) (s : State) : Out := .next (run (moduleRemoveProg die module_ 0x05) s)

/-- VAULT_BANK_SPARE (16 R458). -/
def execVaultBankSpare (d slice bank : Nat) (s : State) : Out := .next (run (bankSpareProg d slice bank 0x06 false) s)

/-- HBM_ROW_REPAIR (16 R458). -/
def execHbmRowRepair (k addr resource : Nat) (s : State) : Out := .next (run (rowRepairProg k (rowPlace addr) resource 0x07 false) s)

/-- BEATER_LANE_SPARE (16 R458). -/
def execBeaterLaneSpare (k lane : Nat) (s : State) : Out := .next (run (laneSpareProg k lane 0x0C false) s)

end Sys2Proof.Machine
end

