-- ==== Sys2Proof/Machine/RegisterWrite.lean ====
section
/-! DEFINITION. Accesses of the control space (01 R35, R36; 13 R376, R378): what each register word does when it is written and when it
is read, for every agent, and the accesses of the debug lands (15 R437). A word that is a command of its own runs that command's
program. -/

namespace Sys2Proof.Machine

/-- A value brought between two bounds. -/
def clampTo (lo hi v : Nat) : Nat := max lo (min hi v)

/-- A word is stored by its access codes (00, Conventions): rw and wo bits take the value, w1c bits clear and w1s bits set where it is 1;
the others stay. -/
def plainWrite (off v : Nat) : Prog := withS fun s =>
  let w := s.word off
  let x := BitVec.ofNat 32 v
  let m := accMask .rw off ||| accMask .wo off
  emit [.reg off (((w &&& ~~~ m &&& ~~~ (accMask .w1c off &&& x)) ||| (x &&& m)) ||| (accMask .w1s off &&& x))]

/-- A word is stored unless something holds it fixed. -/
def writeUnless (fixed : Bool) (off v : Nat) : Prog := onlyIf (!fixed) (plainWrite off v)

/-- A 0 written where the register takes none stands for `d`. -/
def notZero (d v : Nat) : Nat := if v = 0 then d else v

/-! Streams (02 R40–R42, R46, R478). -/

/-- The word that holds ENABLE: a command write performs its command alone. -/
def streamControl (sid v : Nat) : Prog :=
  if bit v 3 then resetProg sid
  else if bit v 1 then (if bit v 2 then skip else resumeProg sid false)
  else if bit v 2 then resumeProg sid true
  else if bit v 0 then enableProg sid else disableProg sid

/-- A word of a stream's set. The ring's place and size stay while ENABLE is 1 and while the disabled stream holds commands. -/
def streamWord (sid r v : Nat) : Prog := withS fun s =>
  let fixed := s.flagBit (Reg.strmEnable sid) || !(s.strm sid).ahead.isEmpty
  let off := strmBase sid + r
  if r = 0x0C then doorbellProg sid (v % 2 ^ 16)
  else if r = 0x14 then streamControl sid v
  else if r = 0x08 then writeUnless fixed off (clampTo 4 16 (v % 32))
  else if r < 0x08 then writeUnless fixed off v
  else plainWrite off v

/-! Blocks. -/

/-- Thermal thresholds (07 R225): from 60 °C to each default, and none below the one beneath it. -/
def thresholds (v : Nat) : Nat :=
  let t1 := clampTo 60 0x55 (bits v 0 8)
  let t2 := max t1 (clampTo 60 0x5C (bits v 8 8))
  let t3 := max t2 (clampTo 60 0x62 (bits v 16 8))
  t1 + 2 ^ 8 * t2 + 2 ^ 16 * t3

/-- PRS_TAU_EXP between −60 and −8 (12 R373). -/
def tauByte (v : Nat) : Nat :=
  let x : Int := (BitVec.ofNat 8 v).toInt
  (BitVec.ofInt 8 (max (-60) (min (-8) x))).toNat

/-- Power words (14 R414, R416–R418). -/
def powerWord (r off v : Nat) : Prog := withS fun s =>
  if r = 0x08 then plainWrite off (clampTo 1200 (s.fld Reg.pwrLimitFused) (v % 2 ^ 16))
  else if r = 0x0C then plainWrite off (clampTo 1 100 (v % 2 ^ 7))
  else if r = 0x18 ∨ r = 0x1C then plainWrite off (clampTo 400 (bits (resetWord off).toNat 0 11) (v % 2 ^ 11))
  else if r = 0x20 then plainWrite off (clampTo 8 128 (v % 2 ^ 8))
  else plainWrite off v

/-- Security words (15 R436, R442): policy and key stand still while the fabric is enabled, and measurement 6 follows them. -/
def securityWord (r off v : Nat) : Prog := withS fun s =>
  if r = 0x0C ∨ (0x40 ≤ r ∧ r < 0x60) then onlyIf (!s.flagBit Reg.chnFabricEn) (seq (plainWrite off v) linkMeas)
  else if r = 0x10 then plainWrite off (clampTo 1 2048 (v % 2 ^ 12))
  else plainWrite off v

/-- Registrar words: the barrier channels (02 R61) and the events (13 R396). -/
def registrarWord (r off v : Nat) : Prog := withS fun s =>
  let c := (r - 0x800) / 0x80
  if r < 0x800 ∨ 0xC00 ≤ r then plainWrite off v
  else if r % 0x80 < 0x24 then writeUnless (s.flagBit (Reg.rgsBarEnable c)) off v
  else if r % 0x80 = 0x2C then seq (setF (Reg.rgsBarEnable c) (v % 2)) (onlyIf (bit v 1) (barClearProg c))
  else plainWrite off v

/-- Conservator words (16 R459, R466, R479). -/
def conservatorWord (r off v : Nat) : Prog :=
  if r = 0x04 then onlyIf (bit v 8) (replaceGoProg (v % 256))
  else if r = 0x10 then plainWrite off (notZero 1 (v % 2 ^ 16))
  else if r = 0x14 ∨ r = 0x8C then plainWrite off (notZero 1 (v % 2 ^ 8))
  else if r = 0x90 then onlyIf (bit v 0) (thenWaiting (injArmProg failMailbox))
  else plainWrite off v

/-- Host Transport words (13 R379, R390). -/
def transportWord (ag : Agent) (r off v : Nat) : Prog := withS fun s =>
  let q := (r - 0x400) / 0x20
  if r = 0x04 then onlyIf (ag = .window0 && bit v 0) endOwnership
  else if r < 0x400 ∨ 0xC00 ≤ r then plainWrite off v
  else if r % 0x20 < 0x10 then writeUnless (s.flagBit (Reg.htxSqEnable q)) off v
  else if r % 0x20 = 0x10 then sqControlProg q v
  else plainWrite off v

/-- Mailbox words (13 R381). -/
def mailboxWord (m r off v : Nat) : Prog := withS fun s =>
  let busy := s.fld (Reg.htxMbState m) == 1
  if busy && (r < 0x0C || 0x40 ≤ r) then incF (Reg.htxMbIgnored m)
  else if r = 0x08 then onlyIf (bit v 0) (goMailbox m none)
  else plainWrite off v

/-- Collectives words and group table words (09 R260, R262, R264, R283). -/
def collectivesWord (r off v : Nat) : Prog :=
  if r = 0x00 then stepOkProg v
  else if r = 0x08 then plainWrite off (notZero 1 v)
  else plainWrite off v

def groupWord (g r off v : Nat) : Prog := withS fun s =>
  if r = 0x00 then (if bit v 0 then groupCreateProg g else groupReleaseProg g)
  else if 0x08 ≤ r ∧ r < 0x1C then writeUnless (s.flagBit (Reg.colGrpEnable g)) off v
  else if r = 0x20 then nextSeqProg g v
  else plainWrite off v

/-- A pool's size (10 R319): at most the cells remaining, and COLLECTIVE no less than what live groups hold; its level follows. -/
def poolSize (p v : Nat) : Prog := withS fun s =>
  let others := (((List.range 5).filter (· != p)).map fun i => s.fld (Reg.vatCells i)).foldl (· + ·) 0
  let n := min (v % 2 ^ 18) (131072 - others)
  onlyIf (!s.flagBit Reg.chnFabricEn)
    (seq (setF (Reg.vatCells p) (if p = 3 then max n (s.fld (Reg.vatUsed 3)) else n))
      (withS fun t => setUsed p (t.fld (Reg.vatUsed p))))

/-- Fabric words (10 R317). -/
def fabricWord (r off v : Nat) : Prog := withS fun s =>
  if r = 0x08 then fabricEnProg v
  else if r < 0x10 then writeUnless (s.flagBit Reg.chnFabricEn) off v
  else if r = 0x10 then plainWrite off (clampTo 4096 50000 (v % 2 ^ 16))
  else if r = 0x14 then plainWrite off (clampTo 1024 16384 (v % 2 ^ 16))
  else if r = 0x18 then plainWrite off (notZero 1024 v)
  else if r = 0x20 then plainWrite off (notZero 1 v)
  else if r = 0x60 then onlyIf (bit v 8) (resyncGoProg (v % 64))
  else if r = 0x120 then onlyIf (bit v 0) reissueProg
  else plainWrite off v

/-- Port words (10 R318). -/
def portWord (p r off v : Nat) : Prog :=
  if r = 0x04 then portRow p (seq (portEnableProg p v) (onlyIf (bit v 1) (retrainProg p)))
  else if r = 0x14 then plainWrite off (notZero 1 (v % 16))
  else plainWrite off v

/-- Vault die controller words (07 R193, R200, R204, R205, R225, R227). -/
def vaultWord (d r off v : Nat) : Prog :=
  if r = 0x00 then partitionProg d (v % 64)
  else if r = 0x08 then (if bit v 1 then flushProg d true else onlyIf (bit v 0) (flushProg d false))
  else if r = 0x2C then plainWrite off (thresholds v)
  else if r = 0x34 then onlyIf (d = 0 && bit v 0) (setF (Reg.vltAttrLock 0) 1)
  else if 0x400 ≤ r ∧ r < 0x500 then pageAttrProg d ((r - 0x400) / 4) v
  else plainWrite off v

/-- Core words (02 R40, R60; 03 R100). -/
def coreWord (n r off v : Nat) : Prog :=
  if 0x100 ≤ r ∧ r < 0x200 then streamWord (4 * n + (r - 0x100) / 0x40) (r % 0x40) v
  else if r = 0x08 then plainWrite off (notZero 1 (v % 256))
  else plainWrite off v

/-- Array words (03 R97, R101). -/
def arrayWord (n r off v : Nat) : Prog :=
  if r = 0x10 then plainWrite off (max 8 (v % 16))
  else if r = 0x38 then onlyIf (bit v 0) (arrCntClearProg n)
  else plainWrite off v

/-- A write of the word at `off`, in an agent's name. -/
def wordWrite (ag : Agent) (off v : Nat) : Prog :=
  match blockOf off with
  | none => skip
  | some (k, base) =>
    let r := off - base
    let die := base / 0x100000 - 1
    match k with
    | .ident | .rsv => skip
    | .ldg => plainWrite off (if r = 0x14 then notZero 1 v else v)
    | .cst => plainWrite off (if r = 0x20 then notZero 10 (v % 2 ^ 10) else v)
    | .sec => securityWord r off v
    | .pwr => powerWord r off v
    | .rgs => registrarWord r off v
    | .csv => conservatorWord r off v
    | .htx => transportWord ag r off v
    | .mbox => mailboxWord ((base - 0x11000) / 0x1000) r off v
    | .db => if r % 8 = 0 then sqTailProg (r / 8) (v % 2 ^ 12) else cqHeadProg (r / 8) (v % 2 ^ 12)
    | .im => imWrite (r / 4) (BitVec.ofNat 32 v)
    | .cur => if r = 0x34 then onlyIf (bit v 0) curClearProg else plainWrite off v
    | .curStrm => streamWord (1024 + (base - 0x21000) / 0x1000) r v
    | .col => collectivesWord r off v
    | .grp => groupWord (r / 64) (r % 64) off v
    | .colStrm => streamWord (1040 + (base - 0x42000) / 0x1000) r v
    | .vat => if r < 0xA0 ∧ r % 0x20 = 0 then poolSize (r / 0x20) v else plainWrite off v
    | .chn => fabricWord r off v
    | .port => portWord ((base - 0x80000) / 0x1000) r off v
    | .dmaStrm => streamWord (1072 + (base - 0xC0000) / 0x1000) r v
    | .vlt => vaultWord die r off v
    | .hbm =>
      let stack := 4 * die + (base % 0x100000 - 0x1000) / 0x1000
      if r = 0x08 then plainWrite off (thresholds v)
      else if r = 0x30 then onlyIf (bit v 0) (hbmClearProg stack)
      else plainWrite off v
    | .btr =>
      let stack := 4 * die + (base % 0x100000 - 0x8000) / 0x1000
      if r < 0x40 then streamWord (1056 + stack) r v
      else if r = 0x7C then onlyIf (bit v 0) (btrCntClearProg stack)
      else plainWrite off v
    | .prs =>
      if r = 0x00 then plainWrite off (tauByte v)
      else if r = 0x30 then onlyIf (bit v 0) (setF (Reg.prsBusyCycles die) 0)
      else plainWrite off v
    | .prsStrm => streamWord (1064 + 4 * die + (base % 0x100000 - 0x11000) / 0x1000) r v
    | .slice => if r = 0x04 then lfsrSeedProg die ((base % 0x100000 - 0x80000) / 0x1000) v else plainWrite off v
    | .core => coreWord ((base - 0x1000000) / 0x4000) r off v
    | .arr => arrayWord ((base - 0x1000000) / 0x4000) r off v
    | .clk | .drn => plainWrite off v

/-! Accesses. -/

/-- A width and an alignment that the control space takes, inside a listed block (01 R35, R36). -/
def accessOk (off size : Nat) : Bool := (size == 4 || size == 8) && off % size == 0 && (blockOf off).isSome

/-- The words of an access, low word first. -/
def accessWords (off size : Nat) : List Nat := (List.range (size / 4)).map fun i => off + 4 * i

/-- An accepted access writes its words. -/
def writeWords (ag : Agent) (off size v : Nat) : Prog :=
  forEach (accessWords off size) fun o => wordWrite ag o (v / 2 ^ (8 * (o - off)) % 2 ^ 32)

/-- Where the control space starts among the local addresses (01 R27). -/
def ctlBase : Nat := 0x0A000000000

/-- An access to the blocks of a core ungates it (02 R60). -/
def ungateBlock (off : Nat) : Prog :=
  if 0x1000000 ≤ off ∧ off < 0x1400000 then ungate ((off - 0x1000000) / 0x4000) else skip

/-- REGISTER_WRITE: through a window, a write before the end of boot stage 3 is discarded (14 R411), and one that the window or the control
space refuses is counted; one of the Registrar or a core that is refused ends with ADDRESS_FAULT and has no effect (01 R34–R36). -/
def registerWriteProg (ag : Agent) (off size v : Nat) : Prog := withS fun s =>
  let accept := seq (ungateBlock off) (writeWords ag off size v)
  let good := s.accepts ag off && accessOk off size
  let refuse := fun (who : Requester) => reply who (ctlBase + off) .addressFault []
  match ag with
  | .window0 | .window1 => onlyIf s.pow.linksUp (if good then accept else winRefuse off)
  | .registrar => if good then accept else refuse .registrar
  | .core n => if good then accept else refuse (.core n)

/-- The word a read shows: bit 4 of COL_VETO follows the Beaters' UPDATEs of that moment (09 Table 6), and PRS_STRM_PHASE whether a command
of the stream waits for the datapath (12 Table 11: a command that the Press runs is done within its row); every other word is as it
stands. -/
def State.shownWord (s : State) (off : Nat) : Word :=
  if off = Reg.colVeto.off then putBits (s.word off) 4 1 (if s.updateOpen then 1 else 0)
  else match (List.range 8).find? fun i => (Reg.prsStrmPhase (1064 + i)).off == off with
    | some i => if (s.strm (1064 + i)).issued.isEmpty then 0 else 1
    | none => s.word off

/-- What a word reads as: bits that are only written read zero. -/
def State.readWord (s : State) (off : Nat) : Word := s.shownWord off &&& readMask off

/-- The counters of clock cycles: CLK_CNT of the 30 domains and CST_TIME (14 R406, R422; 16 R467). -/
def clockFlds : List Fld := Reg.cstTime :: (List.range 30).map Reg.clkCnt

/-- The cycle counters among the words of an access have run on when it reads them, by how much is free (log 12). -/
def runClocks (off len : Nat) : Prog :=
  forEach (clockFlds.filter fun f => decide (off < f.off + 8) && decide (f.off < off + len)) timed

/-- Reading a word clears its rc bits. -/
def clearRead (off : Nat) : Prog := withS fun s => onlyIf (accMask .rc off != 0) (emit [.reg off (s.word off &&& ~~~ accMask .rc off)])

/-- The bytes of some words of the control space. -/
def State.readWords (s : State) (off size : Nat) : List Byte := (accessWords off size).flatMap fun o => leBytes 4 (s.readWord o).toNat

/-- READ_CLEAR: the value is returned, then the rc bits clear. A window's read that is refused, or made before the end of boot stage 3,
returns all ones. -/
def registerReadProg (ag : Agent) (off size : Nat) : Prog := withS fun s =>
  let answer := fun (who : Requester) =>
    seqs [ungateBlock off, runClocks off size, withS fun t => reply who (ctlBase + off) .ok (t.readWords off size),
      forEach (accessWords off size) clearRead]
  let ones := reply .host (ctlBase + off) .ok (List.replicate size 0xFF)
  match ag with
  | .window0 | .window1 =>
    if !s.pow.linksUp then ones
    else if accessOk off size then answer .host else seq (winRefuse off) ones
  | .registrar => if accessOk off size then answer .registrar else reply .registrar (ctlBase + off) .addressFault []
  | .core n => if accessOk off size && coreReaches n off then answer (.core n) else reply (.core n) (ctlBase + off) .addressFault []

/-! Memory of any range (01 R34), for the copies and the debug port. -/

/-- An extent of flag space or control space that its range takes (01 R35, R36; 02 R56): aligned words; a store of flag space lies among the
flags, and one of control space outside the words that only window 0 writes (13 R376, R378). -/
def wordsOk (r : Range) (write : Bool) (a len : Nat) : Bool :=
  match r with
  | .flags => a % 4 == 0 && len % 4 == 0 && (!write || (List.range (len / 4)).all fun i => decide ((a + 4 * i) % 0x100 < 0xC0))
  | .control => a % 4 == 0 && len % 4 == 0 && (List.range (len / 4)).all fun i =>
      let off := a + 4 * i - ctlBase
      (blockOf off).isSome && (!write || (!isQueueOff off && off != 0x10004))
  | _ => true

/-- The clocks among the words of an extent have run on when it is read. -/
def clocksAt (a len : Nat) : Prog := if ctlBase ≤ a ∧ a < ctlBase + 0x10000000 then runClocks (a - ctlBase) len else skip

/-- The access a copy makes of a range: its words are flag operations in flag space, the loads and stores of 02 R56. -/
def moveKind (r : Range) (write : Bool) : AccKind := if r = .flags then .flagOp else if write then .write else .read

/-- An extent may be reached by `who`, and by its range's own rules. -/
def State.mayMove (s : State) (who : Requester) (write : Bool) (a len : Nat) : Bool :=
  match s.extent a len with
  | some r => permitted who (moveKind r write) r a && wordsOk r write a len
  | none => false

/-- Bytes of any range. -/
def State.readAny (s : State) (a len : Nat) : List Byte :=
  match s.rangeOf a with
  | some .flags => (List.range (len / 4)).flatMap fun i => leBytes 4 (s.flagWord (a + 4 * i))
  | some .control => s.readWords (a - ctlBase) len
  | some .ledger => s.ledgerBytes a len
  | _ => bytesAt s.mem a len

/-- What reading does: the cache's tags, and the registers that a read clears. -/
def readEffects (who : Requester) (a len : Nat) : Prog := withS fun s =>
  match s.rangeOf a with
  | some .control => forEach (accessWords (a - ctlBase) len) clearRead
  | _ => touch false who a len

/-- Bytes written to any range: a flag word is a SET, a register word a register write. -/
def writeAny (who : Requester) (ag : Agent) (a : Nat) (bs : List Byte) : Prog := withS fun s =>
  let word := fun i => leNat ((bs.drop (4 * i)).take 4)
  match s.rangeOf a with
  | some .flags => forEach (List.range (bs.length / 4)) fun i =>
      flagOp ((a + 4 * i - 0x09100000000) / 0x100) ((a + 4 * i) % 0x100 / 4) 0 (word i) .store
  | some .control => forEach (List.range (bs.length / 4)) fun i => wordWrite ag (a + 4 * i - ctlBase) (word i)
  | some .ledger => skip
  | _ => writeBytes who a bs

/-! The debug lands (15 R437). -/

/-- DEBUG_PORT_ACCESS: a locked port answers an identification read alone, with a value the spec does not give (log 21). The spec gives the
control cores no state of their own beside whether the port has halted them: what a scan shows is free, and a step of a halted core leaves it
halted (log 68). -/
def debugProg (a : DebugAccess) : Prog := withS fun s =>
  let shown : Prog := drawFree fun n => reply .registrar 0 .ok (leBytes 4 (Config.free n % 2 ^ 32))
  let open_ := s.fld Reg.secDebugState != 0
  match a with
  | .identify => shown
  | .scan => onlyIf open_ shown
  | .stepCore i => onlyIf (open_ && s.sec.halted.contains i) (reply .registrar 0 .ok [])
  | .haltCore i =>
    onlyIf (open_ && decide (i < 4) && !s.sec.halted.contains i) (emit [.sec { s.sec with halted := i :: s.sec.halted }])
  | .readMem lpa len => onlyIf open_
      (if !s.mayMove .registrar false lpa len then reply .registrar lpa .addressFault []
       else match s.readHurt lpa len with
        | some st => reply .registrar lpa st []
        | none => orHeld (s.homeDie lpa) (.debugPortAccess a) (vaultExt false lpa len) (seqs
            [clocksAt lpa len, withS fun t => reply .registrar lpa .ok (t.readAny lpa len), readEffects .registrar lpa len]))
  | .writeMem lpa data => onlyIf open_
      (if !s.mayMove .registrar true lpa data.length then reply .registrar lpa .addressFault []
       else match s.writeHurt lpa data.length with
        | some st => reply .registrar lpa st []
        | none => orHeld (s.homeDie lpa) (.debugPortAccess a) (vaultExt true lpa data.length)
            (seq (writeAny .registrar .registrar lpa data) (reply .registrar lpa .ok [])))

/-! The commands. -/

/-- REGISTER_WRITE (01 R36). -/
def execRegisterWrite (ag : Agent) (off size value : Nat) (s : State) : Out := .next (run (registerWriteProg ag off size value) s)

/-- READ_CLEAR (01 R36). -/
def execReadClear (ag : Agent) (off size : Nat) (s : State) : Out := .next (run (registerReadProg ag off size) s)

/-- DEBUG_PORT_ACCESS (15 R437). -/
def execDebugPortAccess (a : DebugAccess) (s : State) : Out := .next (run (debugProg a) s)

end Sys2Proof.Machine
end

