-- ==== Sys2Proof/Machine/Transfers.lean ====
section
/-! DEFINITION. The DMA class (02 Table 6, 10 R303–R305, R314), its requests as their requester follows them (10 R306–R308, R315, R316),
reachability declarations (10 R301, 14 R410), and the copies of submission-queue entries (13 R392). -/

namespace Sys2Proof.Machine

/-! Fields. -/

/-- Source and destination FPA of a COPY, or the target of an ATOMIC. -/
def dSrcFpa (d : Block64) : Nat := daddr d 8 9 18
def dDstFpa (d : Block64) : Nat := daddr d 10 11 18
/-- The two parts of an FPA (00 R12). -/
def fpaPkg (a : Nat) : Nat := a / 2 ^ 44
def fpaLpa (a : Nat) : Nat := a % 2 ^ 44
/-- ATOMIC_OP, SIZE8, V and C. -/
def dAtOp (d : Block64) : Nat := dfld d 9 18 4
def dAtSize8 (d : Block64) : Bool := dfld d 9 22 1 == 1
def dAtV (d : Block64) : Nat := dword d 10 + 2 ^ 32 * dword d 11
def dAtC (d : Block64) : Nat := dword d 12 + 2 ^ 32 * dword d 13
/-- The local result of an ATOMIC. -/
def dAtResult (d : Block64) : Option Nat := if dfld d 15 12 1 = 1 then some (daddr d 14 15 12) else none

/-- LENGTH of a COPY, or its count of items by their size (02 R55). -/
def State.copyLen (s : State) (sid : Nat) (d : Block64) : Nat :=
  if dShapeEn d then s.countOf sid d 0 0 * dfld d 14 0 16 % 2 ^ 48 else dword d 12

/-- A command with its length as read at its start: its shape word is read once (02 R55). -/
def bakeLen (d : Block64) (len : Nat) : Block64 :=
  (d &&& ~~~ ((BitVec.ofNat 512 1 <<< 20) ||| (BitVec.ofNat 512 (2 ^ 32 - 1) <<< 384))) ||| (BitVec.ofNat 512 (len % 2 ^ 32) <<< 384)

/-- The agent a stream's register writes act for. -/
def agentOf (sid : Nat) : Agent := if sid < 1024 then .core (sid / 4) else .registrar

/-- An extent of the map that a remote package may be asked for: HBM, or one scratchpad half whatever its partition (10 R304 check 3). -/
def remoteRange (a len : Nat) : Bool :=
  decide (a + len ≤ 0x07FFC000000) ||
  (decide (0x08000000000 ≤ a) && decide (a < 0x09000000000) && (a - 0x08000000000) / 0x800000000 == (a + len - 1 - 0x08000000000) / 0x800000000)

/-- The core of a local extent is out of service (16 R460). -/
def State.storeOut (s : State) (a : Nat) : Bool := match coreOfAddr a with | some n => s.outOfService n | none => false

/-- What damages an extent does to a transfer: a read of it, or a write of part of a line (16 R444). -/
def State.moveHurt (s : State) (write : Bool) (a len : Nat) : Option Status := if write then s.writeHurt a len else s.readHurt a len

/-- Cuts of an extent at the multiples of `g` of an address: offset and length. -/
def cutsAt (g a len : Nat) : List (Nat × Nat) :=
  (List.range (cdiv (a % g + len) g)).map fun i =>
    let lo := g * i - a % g
    (lo, min (g * (i + 1) - a % g) len - lo)

/-- Cuts of an extent at the 4 KiB boundaries of an address (10 R305). -/
def pageCuts (a len : Nat) : List (Nat × Nat) := cutsAt 4096 a len

/-- Progress marks of a local transfer of `len` bytes. -/
def mebibytes (len : Nat) : List Nat := (List.range (len / 2 ^ 20)).map fun i => (i + 1) * 2 ^ 20

/-! Local copies (10 R303, 02 Table 6). -/

/-- The bytes a copy moves. Where its extents overlap the spec gives no order, and a byte read where the copy also writes is free, a
function of the copy and of what it reads (04 R132; log 1). -/
def State.copied (s : State) (src dst len : Nat) : List Byte :=
  let bs := s.readAny src len
  if src = dst ∨ src + len ≤ dst ∨ dst + len ≤ src then bs
  else bs.zipIdx.map fun p =>
    if dst ≤ src + p.2 ∧ src + p.2 < dst + len then BitVec.ofNat 8 (Config.overlapByte src dst (leNat bs) p.2) else p.1

/-- A COPY within the package. -/
def localCopy (sid : Nat) (c : Cmd) (src dst len : Nat) : Prog := withS fun s =>
  let who := requesterOf sid
  checked sid c
    ((firstFault [(!s.mayMove who false src len || !s.mayMove who true dst len, .addressFault),
       (s.storeOut src || s.storeOut dst, .unitFault)]).or ((s.moveHurt false src len).or (s.moveHurt true dst len)))
    (whenReady (vaultExt false src len ++ vaultExt true dst len)
      (runOk sid c (seq (clocksAt src len) (withS fun t =>
        let bs := t.copied src dst len
        seqs [readEffects who src len, writeAny who (agentOf sid) dst bs, forEach (mebibytes len) (markCmd sid c)]))))

/-- The DMA engine of a core worked: cycles with a command executing and cycles in which the local store deferred it are counted (03 R72,
R100). -/
def dmaBusy (sid : Nat) : Prog := given (coreOfSid sid) fun n => seq (timed (Reg.coreDmaBusy n)) (timed (Reg.coreLsConflicts n))

/-- The row of an issued DMA command. -/
def onDma (sid acc op : Nat) (k : Cmd → Prog) : Prog := onIssued sid acc 0x02 op fun c => seq (k c) (dmaBusy sid)

/-! Requests of a remote command. -/

/-- The other package of a remote COPY is its destination. -/
def State.copyOut (s : State) (d : Block64) : Bool := fpaPkg (dSrcFpa d) == s.myIndex

/-- POSTED and REMOTE_ORDERED of a COPY that writes to another package (10 R303); neither means anything on a read. -/
def State.copyPosted (s : State) (d : Block64) : Bool := dOp d == 0 && s.copyOut d && dfld d 15 0 1 == 1
def State.copyOrdered (s : State) (d : Block64) : Bool := dOp d == 0 && s.copyOut d && dfld d 15 1 1 == 1

/-- The destination package of a remote command. -/
def State.dmaDest (s : State) (d : Block64) : Nat :=
  s.inMyRack (if dOp d = 0 then fpaPkg (if s.copyOut d then dDstFpa d else dSrcFpa d) else if dOp d = 1 then fpaPkg (dSrcFpa d) else dfld d 8 16 6)

/-- How many requests a remote command makes. -/
def State.dmaCount (s : State) (d : Block64) : Nat :=
  if dOp d = 0 then cdiv (fpaLpa (if s.copyOut d then dDstFpa d else dSrcFpa d) % 4096 + dword d 12) 4096 else 1

/-- Request `i` of a remote command: its packet, where its data goes here, and its offset in the command. -/
def State.dmaRequest (s : State) (d : Block64) (i : Nat) : Packet × Option Nat × Nat :=
  let base := { Packet.blank with cls := 0, src := s.me, dst := s.dmaDest d }
  if dOp d = 0 then
    let out := s.copyOut d
    let far := fpaLpa (if out then dDstFpa d else dSrcFpa d)
    let near := fpaLpa (if out then dSrcFpa d else dDstFpa d)
    let cut := (pageCuts far (dword d 12)).getD i (0, 0)
    if out then
      ({ base with type := .write, ordered := s.copyOrdered d, length := cut.2, lpa := far + cut.1, payload := s.readAny (near + cut.1) cut.2 },
       none, cut.1)
    else ({ base with type := .read, length := cut.2, lpa := far + cut.1 }, some (near + cut.1), cut.1)
  else if dOp d = 1 then
    ({ base with type := .atomic, lpa := fpaLpa (dSrcFpa d), atomicOp := dAtOp d, size8 := dAtSize8 d, v := dAtV d, c := dAtC d },
     dAtResult d, 0)
  else
    ({ base with type := .flag, flagged := true, lpa := 0x09100000000 + 0x100 * dfld d 8 0 8 + 4 * dfld d 8 8 6, fop := dfld d 8 14 2, v := dword d 9 },
     none, 0)

/-- CHN_ACC_NEXT. -/
def State.fabAcc (s : State) : Nat := s.fld48 Reg.chnAccNextLo Reg.chnAccNextHi

/-- A request is accepted: it takes the next accession number, and an effectful one the next ORD_SEQ to its destination (10 R307, R308). -/
def submit (sid : Nat) (c : Cmd) (r : Packet × Option Nat × Nat) (posted : Bool) : Prog := withS fun s =>
  let acc := s.fabAcc
  let eff := effectful r.1.type
  let ord := (nget s.fab.ordNext r.1.dst).getD 1
  let p := { r.1 with acc := acc, ordSeq := if eff then ord else 0 }
  let cells := responseCells p
  seqs
    [setF48 Reg.chnAccNextLo Reg.chnAccNextHi (acc + 1),
     updFab fun x => { x with reqs := nset x.reqs acc ⟨sid, c.acc, p, r.2.1, r.2.2, posted, cells, none, false, c.slot, c.first⟩,
                              ordNext := if eff then nset x.ordNext p.dst ((ord + 1) % 2 ^ 32) else x.ordNext },
     setF Reg.chnOutstanding (s.fld Reg.chnOutstanding + 1), takeCells 2 cells,
     updCmd sid c.acc fun d => { d with phase := d.phase + 1, reqs := some (((d.reqs.map (·.1)).getD acc), acc) },
     sendPacket p]

/-- Bytes that arrived go to their local place; a place that has gone refuses them. -/
def State.landFault (s : State) (sid a len : Nat) : Option Status :=
  if !s.mayMove (requesterOf sid) true a len then some .addressFault else s.moveHurt true a len

/-- The requests of a command. -/
def State.reqsOf (s : State) (sid acc : Nat) : List (Nat × Req) := s.fab.reqs.filter fun e => e.2.sid == sid && e.2.cmd == acc

/-- The first failure of some requests in ascending address order (10 R315). -/
def firstFailed (rs : List (Nat × Req)) : Option Status :=
  (rs.foldl (fun b e => match e.2.ended with
    | some st => if st = .ok then b else (match b with
      | some x => if e.2.off < x.1 then some (e.2.off, st) else b
      | none => some (e.2.off, st))
    | none => b) none).map (·.2)

/-- Requests of a command that are over leave the fabric unit once none is outstanding; those given up stay, so that their late responses
are known. -/
def forgetReqs (sid acc : Nat) : Prog := updFab fun x =>
  if x.reqs.any fun e => e.2.sid == sid && e.2.cmd == acc && e.2.ended.isNone then x
  else { x with reqs := x.reqs.filter fun e => !(e.2.sid == sid && e.2.cmd == acc) || e.2.gaveUp }

/-- The requests of a command that can no longer be made end with `st`: `phase` passes the last request by one and the status. Those that
find their target unreachable at issue are counted, a read's bytes are written 0xFF, and an effectful one breaks its destination (10 R313,
R315 Table 8). -/
def abandonRest (sid : Nat) (c : Cmd) (st : Status) (unreachable : Bool) : Prog := withS fun s =>
  let k := s.dmaCount c.desc
  let i := c.phase - 1
  let at_ := s.dmaRequest c.desc i
  let len := dword c.desc 12 - at_.2.2
  seqs
    [onlyIf unreachable (seq (incF Reg.chnDead (k - i)) (onlyIf (effectful at_.1.type) (markBroken at_.1.dst .deadTarget))),
     onlyIf (unreachable && at_.1.type == .read) (given at_.2.1 fun a =>
       onlyIf (s.landFault sid a len).isNone (writeAny (requesterOf sid) (agentOf sid) a (List.replicate len 0xFF))),
     updCmd sid c.acc fun d => { d with phase := k + 2 + statusCode st }]

/-- The broken mark that a flagged or ordered request meets (10 R313). -/
def State.brokenFor (s : State) (p : Packet) : Option Status := if p.flagged || p.ordered then nget s.fab.broken p.dst else none

/-- Requests of a command are made in address order until one must wait. -/
def inject (sid acc : Nat) : Nat → Prog
  | 0 => skip
  | n + 1 => withS fun s =>
    given ((s.strm sid).issued.find? (·.acc == acc)) fun c =>
      let r := s.dmaRequest c.desc (c.phase - 1)
      if s.dmaCount c.desc < c.phase then skip
      else match s.brokenFor r.1 with
        | some st => abandonRest sid c st false
        | none =>
          if !s.canReach r.1.dst then abandonRest sid c .deadTarget true
          else if !s.mayInject r.1 then skip
          else seqs [submit sid c r (s.copyPosted c.desc),
                     onlyIf (r.1.type == .write) (readEffects (requesterOf sid) (fpaLpa (dSrcFpa c.desc) + r.2.2) r.1.length),
                     inject sid acc n]

/-- A remote command ends: a POSTED COPY once its last request is accepted, any other once every request has ended. -/
def finishDma (sid acc : Nat) : Prog := withS fun s =>
  given ((s.strm sid).issued.find? (·.acc == acc)) fun c =>
    let k := s.dmaCount c.desc
    let mine := s.reqsOf sid acc
    let rest := if k + 2 ≤ c.phase then some (statusOf (c.phase - k - 2)) else none
    onlyIf (decide (k < c.phase) && (s.copyPosted c.desc || mine.all fun e => e.2.ended.isSome))
      (seq (endCmd sid c (((firstFailed mine).or rest).getD .ok)) (forgetReqs sid acc))

/-! The quire's lines, cached on the requester's die (07 R189, R196, R207). -/

/-- Another member of this package's quire (07 R207). -/
def State.quireMate (s : State) (g : Nat) : Bool :=
  let a := coords s.me
  let b := coords g
  g != s.me && a.1 / 2 == b.1 / 2 && a.2.1 / 2 == b.2.1 / 2 && a.2.2 == b.2.2

/-- The die of a core stream. -/
def dieOfSid (sid : Nat) : Nat := sid / 512

/-- A COPY of a core moves through the cache of its die: its target is in the quire, caching is on there and the cache has ways. A
REMOTE_ORDERED one is made of requests, which alone carry the order (log 74). -/
def State.throughCache (s : State) (sid : Nat) (d : Block64) : Bool :=
  decide (sid < 1024) && dOp d == 0 && s.quireMate (s.dmaDest d) && !s.copyOrdered d &&
  s.flagBit (Reg.vltQuireEn (dieOfSid sid)) && s.ways (dieOfSid sid) != 0

/-- A COPY through the cache counts its lines in its phase from here on. -/
def cachedFrom : Nat := 2 ^ 40

/-- Line `i` of a COPY through the cache: the offset and length of its piece, and the FPA of its line. -/
def State.cachedLine (s : State) (d : Block64) (i : Nat) : (Nat × Nat) × Nat :=
  let far := if s.copyOut d then dDstFpa d else dSrcFpa d
  let cut := (cutsAt 128 far (dword d 12)).getD i (0, 0)
  (cut, (far + cut.1) / 128 * 128)

/-- A home is asked for a line, once. -/
def askLine (kind : CohKind) (die fpa : Nat) : Prog := withS fun s =>
  onlyIf (!s.fab.asks.any (·.1 == (die, fpa))) (seq
    (updFab fun x => { x with asks := x.asks ++ [((die, fpa), kind)] })
    (emit [.send (.cohAsk kind (s.inMyRack (fpaPkg fpa)) die (fpaLpa fpa))]))

/-- What a cached piece moves: out of the near extent into the line, or out of the line into the near extent. -/
def movePiece (sid : Nat) (out : Bool) (near len key o : Nat) (x : CLine) : Prog := withS fun s =>
  let who := requesterOf sid
  if out then
    seq (readEffects who near len)
      (emit [.line key (some { x with use := true, dirty := true, data := x.data.take o ++ s.readAny near len ++ x.data.drop (o + len) })])
  else seq (emit [.line key (some { x with use := true })]) (writeAny who (agentOf sid) near ((x.data.drop o).take len))

/-- A COPY through the cache moves line by line in ascending order until one must wait: a write needs its line Exclusive, a read any copy. A
line that is not there is asked of its home. -/
def runCached (sid acc : Nat) : Nat → Prog
  | 0 => skip
  | n + 1 => withS fun s =>
    given ((s.strm sid).issued.find? (·.acc == acc)) fun c =>
      let d := c.desc
      let die := dieOfSid sid
      let out := s.copyOut d
      let i := c.phase - cachedFrom
      let line := s.cachedLine d i
      let len := line.1.2
      let near := fpaLpa (if out then dSrcFpa d else dDstFpa d) + line.1.1
      let o := ((if out then dDstFpa d else dSrcFpa d) + line.1.1) % 128
      let key := remoteKey die line.2
      if len = 0 then endCmd sid c .ok
      else if s.vaultBusy die then skip
      else match nget s.cache key with
        | none => askLine (if out then .write else .read) die line.2
        | some x =>
          if out && !x.excl then askLine .upgrade die line.2
          else match (if s.mayMove (requesterOf sid) (!out) near len then none else some .addressFault).or (s.moveHurt (!out) near len) with
            | some st => endCmd sid c st
            | none => whenReady (vaultExt (!out) near len) (seqs
                [movePiece sid out near len key o x,
                 onlyIf ((line.1.1 + len) / 2 ^ 20 != line.1.1 / 2 ^ 20) (markCmd sid c ((line.1.1 + len) / 2 ^ 20 * 2 ^ 20)),
                 updCmd sid acc fun e => { e with phase := e.phase + 1 }, runCached sid acc n])

/-- A COPY through the cache whose line cannot be had ends; with an unreachable home the bytes that a read would still write are 0xFF (10
R315 Table 8). -/
def endCached (sid : Nat) (c : Cmd) (st : Status) (fill : Bool) : Prog := withS fun s =>
  let d := c.desc
  let o := (s.cachedLine d (c.phase - cachedFrom)).1.1
  let a := fpaLpa (dDstFpa d) + o
  let len := dword d 12 - o
  seq (onlyIf (fill && !s.copyOut d) (onlyIf (s.landFault sid a len).isNone (writeAny (requesterOf sid) (agentOf sid) a (List.replicate len 0xFF))))
    (endCmd sid c st)

/-- COPYs in progress through the cache, with their streams. -/
def State.cachedCopies (s : State) : List (Nat × Cmd) :=
  s.strms.flatMap fun e => (e.2.issued.filter fun c => dClass c.desc == 2 && dOp c.desc == 0 && decide (cachedFrom ≤ c.phase)).map fun c => (e.1, c)

/-- A remote command goes on as far as it can. -/
def pump (sid acc : Nat) : Prog := withS fun s =>
  given ((s.strm sid).issued.find? (·.acc == acc)) fun c =>
    if cachedFrom ≤ c.phase then runCached sid acc (dword c.desc 12 / 128 + 3)
    else seq (inject sid acc (s.dmaCount c.desc + 1)) (finishDma sid acc)

/-- Every remote command in progress goes on, and a reissue that waited at injection. -/
def pumpAll : Prog := withS fun s =>
  seq (given (if s.fab.riWaits then s.fab.ri else none) fun p => onlyIf (s.mayInject p) (sendReissue p))
    (forEach (s.strms.flatMap fun e => (e.2.issued.filter fun c => dClass c.desc == 2 && decide (dOp c.desc < 3) && decide (1 ≤ c.phase)).map fun c => (e.1, c.acc))
      fun p => pump p.1 p.2)

/-- A home's answer to a member's request reaches it: the line, Shared or Exclusive, or a refusal, which ends the COPYs that wait for it. A
line that no way can hold, or that nothing asked for, goes back. No row of the table brings it: the model takes it with RESPONSE_ARRIVAL, of
a COH packet with the die in V and 1 in FOP for Exclusive (log 74). -/
def quireAnswer (p : Packet) : Prog := withS fun s =>
  let die := p.v % 2
  let fpa := inRack p.src * 2 ^ 44 + p.lpa / 128 * 128
  let key := remoteKey die fpa
  let asked := s.fab.asks.any (·.1 == (die, fpa))
  let excl := p.fop == 1
  let forget := updFab fun x => { x with asks := x.asks.filter (·.1 != (die, fpa)) }
  if p.status ≠ .ok then onlyIf asked (seq forget
    (forEach (s.cachedCopies.filter fun e => dieOfSid e.1 == die && (s.cachedLine e.2.desc (e.2.phase - cachedFrom)).2 == fpa) fun e =>
      endCached e.1 e.2 p.status false))
  else if !asked || s.ways die == 0 then seq forget (emit [cohNotice (fpa / 128) die none])
  else seqs
    [forget,
     match nget s.cache key with
     | some x => emit [.line key (some { x with use := true, excl := excl, data := if x.dirty then x.data else p.payload.take 128 })]
     | none => takeWay die fpa (.remote p.src) fun w =>
         emit [.line key (some ⟨die, w, true, false, excl, p.payload.take 128 ++ List.replicate (128 - p.payload.length) 0⟩)],
     pumpAll]

/-- A remote command starts: its length stands, and its requests begin, or its way through the cache. -/
def startRemote (sid : Nat) (c : Cmd) (len : Nat) : Prog := withS fun s => seqs
  [startCmd sid c,
   updCmd sid c.acc fun d => { d with desc := if dOp d.desc = 0 then bakeLen d.desc len else d.desc,
                                      phase := if s.throughCache sid d.desc then cachedFrom else 1 },
   pump sid c.acc]

/-- Check 4 of 10 R304 and the broken mark of R313, for a command of `n` requests. -/
def State.farFault (s : State) (dst : Nat) (ordered : Bool) : Option Status :=
  if !s.canReach dst then some .deadTarget else if ordered then nget s.fab.broken dst else none

/-- A command that check 4 ends: its requests count as ended at issue. -/
def deadAtIssue (sid : Nat) (c : Cmd) (dst n : Nat) (eff : Bool) (fill : Prog) : Prog :=
  seqs [incF Reg.chnDead n, onlyIf eff (markBroken dst .deadTarget), fill, endCmd sid c .deadTarget]

/-! The commands of the class. -/

/-- COPY. A flag or register word moves as a whole word (01 R35, 02 R56), so the far address keeps its alignment. -/
def copyProg (sid : Nat) (c : Cmd) : Prog := withS fun s =>
  let d := c.desc
  let who := requesterOf sid
  let len := s.copyLen sid d
  let src := dSrcFpa d
  let dst := dDstFpa d
  let mine := fun a => fpaPkg a == s.myIndex
  let out := s.copyOut d
  let near := fpaLpa (if out then src else dst)
  let far := fpaLpa (if out then dst else src)
  let words := match s.rangeOf near with | some .flags => true | some .control => true | _ => false
  if 1 ≤ c.phase then pump sid c.acc
  else if !mine src && !mine dst then endCmd sid c .descriptorFault
  else match s.shapeFault sid d with
  | some st => endCmd sid c st
  | none =>
    if len = 0 then endCmd sid c .ok
    else if dword d 13 < len then endCmd sid c .sizeFault
    else if mine src && mine dst then localCopy sid c (fpaLpa src) (fpaLpa dst) len
    else match (firstFault [(!s.mayMove who (!out) near len || !remoteRange far len || (words && far % 4 != 0), .addressFault),
                            (s.storeOut near, .unitFault)]).or (s.moveHurt (!out) near len) with
    | some st => endCmd sid c st
    | none =>
      whenReady (vaultExt (!out) near len)
        (match s.farFault (s.dmaDest d) (s.copyOrdered d) with
        | some st =>
          if !s.canReach (s.dmaDest d) then
            deadAtIssue sid c (s.dmaDest d) (pageCuts far len).length out
              (onlyIf (!out) (writeAny who (agentOf sid) near (List.replicate len 0xFF)))
          else endCmd sid c st
        | none => startRemote sid c len)

/-- Old value and status of an ATOMIC. -/
def atomicBytes (old : Nat) : List Byte := leBytes 8 old ++ leBytes 4 (statusCode .ok)

/-- ATOMIC. -/
def dmaAtomicProg (sid : Nat) (c : Cmd) : Prog := withS fun s =>
  let d := c.desc
  let who := requesterOf sid
  let a := fpaLpa (dSrcFpa d)
  let n := if dAtSize8 d then 8 else 4
  let own := fpaPkg (dSrcFpa d) == s.myIndex
  let resultBad := match dAtResult d with | some r => !s.mayMove who true r 16 | none => false
  let resultOut := match dAtResult d with | some r => s.storeOut r | none => false
  let resultHurt := (dAtResult d).bind fun r => s.moveHurt true r 12
  if 1 ≤ c.phase then pump sid c.acc
  else match firstFault [(decide (0xB < dAtOp d) || ((dAtResult d).isNone && (dAtOp d == 0xA || dAtOp d == 0xB)), .descriptorFault)] with
  | some st => endCmd sid c st
  | none =>
    if own then
      checked sid c ((s.atomicFault who (dAtOp d) a (dAtSize8 d)).or ((firstFault [(resultBad, .addressFault), (resultOut, .unitFault)]).or resultHurt))
        (whenReady ([(true, a, n)] ++ ((dAtResult d).map fun r => vaultExt true r 12).getD [])
          (runOk sid c (atomicApply who (dAtOp d) a (dAtSize8 d) (dAtV d) (dAtC d) fun old =>
            given (dAtResult d) fun r => writeAny who (agentOf sid) r (atomicBytes old))))
    else match (firstFault [(!remoteRange a n || a % n != 0 || resultBad, .addressFault), (resultOut, .unitFault)]).or resultHurt with
      | some st => endCmd sid c st
      | none =>
        if !s.canReach (s.dmaDest d) then deadAtIssue sid c (s.dmaDest d) 1 true skip else startRemote sid c 0

/-- FLAG_STORE, always FLAGGED. One to the package itself is local (01 R32). -/
def flagStoreProg (sid : Nat) (c : Cmd) : Prog := withS fun s =>
  let d := c.desc
  let core := dfld d 8 0 8
  let flag := dfld d 8 8 6
  if 1 ≤ c.phase then pump sid c.acc
  else if 48 ≤ flag ∨ dfld d 8 14 2 = 3 then endCmd sid c .descriptorFault
  else if dfld d 8 16 6 = s.myIndex then
    if s.outOfService core then endCmd sid c .unitFault
    else runOk sid c (flagOp core flag (dfld d 8 14 2) (dword d 9) (.stream sid c.acc))
  else match s.farFault (s.dmaDest d) true with
    | some st => if !s.canReach (s.dmaDest d) then deadAtIssue sid c (s.dmaDest d) 1 true skip else endCmd sid c st
    | none => startRemote sid c 0

/-- The broken destination of the rack of lowest in-rack index. -/
def State.firstBroken (s : State) : Option Status := (List.range 64).findSome? fun i => nget s.fab.broken (s.inMyRack i)

/-- FENCE (10 R314): it waits for the effectful requests outstanding when it is accepted. -/
def fenceProg (sid : Nat) (c : Cmd) : Prog := withS fun s =>
  let d := c.desc
  let all := dfld d 8 8 1 == 1
  let dst := s.inMyRack (dfld d 8 0 6)
  let covered := (s.openReqs.filter fun e => effectful e.2.pkt.type && (all || e.2.pkt.dst == dst)).map (·.1) ++
    (s.reissued.filter fun p => all || p.dst == dst).toList.map (·.acc)
  if 1 ≤ c.phase then skip
  else if !all && dst == s.me then runOk sid c skip
  else match (if all then s.firstBroken else s.farFault dst true) with
    | some st => endCmd sid c st
    | none =>
      if covered.isEmpty then runOk sid c skip
      else seqs [startCmd sid c, updCmd sid c.acc fun x => { x with phase := 1 },
                 updFab fun x => { x with fences := x.fences ++ [(sid, c.acc, covered, none)] }]

/-! How a request ends (10 R315, R316). -/

/-- Bytes of a command acknowledged without a gap from its start. -/
def ackedPrefix (rs : List (Nat × Req)) : Nat :=
  (List.range rs.length).foldl (fun pos _ =>
    match rs.find? fun e => e.2.off == pos && e.2.ended == some .ok && decide (0 < e.2.pkt.length) with
    | some e => pos + e.2.pkt.length
    | none => pos) 0

/-- Progress marks of a remote COPY, every MiB (16 R451). -/
def remoteMarks (sid acc : Nat) : Prog := withS fun s =>
  given ((s.strm sid).issued.find? (·.acc == acc)) fun c =>
    onlyIf (dOp c.desc == 0)
      (forEach ((mebibytes (ackedPrefix (s.reqsOf sid acc))).filter fun m => decide (c.mark < m)) (markCmd sid c))

/-- A posted write that fails after its COPY has completed halts the stream, naming the COPY, and a RESUME_RETRY fetches it again
(10 R305, 02 R45). A COPY halts once. -/
def postedFailed (r : Req) (st : Status) : Prog := withS fun s =>
  let x := s.strm r.sid
  let earlier := (s.reqsOf r.sid r.cmd).any fun e => e.1 != r.pkt.acc && (match e.2.ended with | some f => f != .ok | none => false)
  onlyIf (!earlier) (seqs
    [setStrm r.sid { x with halted := true, faulted := x.faulted ++ [⟨r.cmd, 0, r.slot, none, r.first, none, .none, true, 0, 0, none, 0, []⟩] },
     setF (Reg.strmLastStatus r.sid) (statusCode st),
     onlyIf (!x.halted) (seq (setF48 (Reg.strmFaultAccLo r.sid) (Reg.strmFaultAccHi r.sid) r.cmd) (vetoStep 1)),
     settle r.sid,
     withS fun t => sendIrq (t.fld (Reg.strmIrqVec r.sid))])

/-- What a request that ended writes here: a read's data, or 0xFF when its requester gave up on it, as Table 8 of 10 R315 has it for a target
that does not answer; an atomic's old value. -/
def landing (r : Req) (st : Status) (old : Nat) (data : List Byte) (gave : Bool) : List Byte :=
  if r.pkt.type = .read then
    (if st = .ok then data.take r.pkt.length else if gave then List.replicate r.pkt.length 0xFF else [])
  else if st = .ok then atomicBytes old else []

/-- The Vault accesses of what a request writes here. -/
def landingExts (r : Req) (st : Status) (old : Nat) (data : List Byte) (gave : Bool) : List Ext :=
  let bs := landing r st old data gave
  match r.dest with
  | some a => vaultExt true a bs.length
  | none => []

/-- An outstanding request ends with a status. A write of its own here that the Vault holds up waits there (07 R195, R209). -/
def endReq (acc : Nat) (st : Status) (old : Nat) (data : List Byte) (gave : Bool) : Prog := withS fun s =>
  given (nget s.fab.reqs acc) fun r =>
    let bs := landing r st old data gave
    let place := if bs.isEmpty then none else r.dest
    let refused := place.bind fun a => s.landFault r.sid a bs.length
    let final := if st = .ok then refused.getD .ok else st
    let broken := effectful r.pkt.type && (final == .unknown || final == .deadTarget || final == .timeout)
    let put := fun (a : Nat) =>
      if s.ready (landingExts r st old data gave) then writeAny (requesterOf r.sid) (agentOf r.sid) a bs
      else holdReq (s.homeDie a) (.vaultWrite (requesterOf r.sid) a bs)
    onlyIf r.ended.isNone (seqs
        [updFab fun x => { x with reqs := nset x.reqs acc { r with ended := some final, gaveUp := gave } },
         setF Reg.chnOutstanding (s.fld Reg.chnOutstanding - 1), freeCells 2 r.cells,
         onlyIf (final == .deadTarget) (incF Reg.chnDead), onlyIf (final == .unknown) (incF Reg.chnUnknown),
         given place fun a => onlyIf refused.isNone (put a),
         onlyIf broken (markBroken r.pkt.dst final),
         tellFences acc final,
         remoteMarks r.sid r.cmd,
         onlyIf (r.posted && final != .ok && !((s.strm r.sid).issued.any (·.acc == r.cmd))) (postedFailed r final),
         onlyIf (!((s.strm r.sid).issued.any (·.acc == r.cmd))) (forgetReqs r.sid r.cmd),
         pumpAll])

/-- The response a request may have: its own kind, or a REFUSE. -/
def answers (req resp : PktType) : Bool :=
  resp == .refuse || (match req with | .read => resp == .readData | .atomic => resp == .atomicData | _ => resp == .ack)

/-- RESPONSE_ARRIVAL: to an outstanding request, to the reissue, or late (10 R316). A NAK only brings the next copy forward. One whose data the
Vault holds up waits there, and the request with it. -/
def responseProg (p : Packet) : Prog := withS fun s =>
  let st := if p.type = .refuse then p.status else .ok
  let here := s.flagBit Reg.chnFabricEn && p.dst == s.me
  let reissued := s.reissued.filter fun q => q.acc == p.acc && q.dst == p.src && answers .atomic p.type
  let req := (nget s.fab.reqs p.acc).filter fun r => r.pkt.dst == p.src
  let past := s.fab.riPast.contains (p.acc, p.src) || (match req with | some r => r.gaveUp | none => false)
  if !here then skip
  else if p.type == .coh then quireAnswer p
  else if !([PktType.readData, .ack, .atomicData, .nak, .refuse].contains p.type) then skip
  else if p.type == .nak then leaveVat p
  else match req.filter fun r => r.ended.isNone && answers r.pkt.type p.type, reissued with
    | some r, _ => orHeld (s.homeDie (r.dest.getD 0)) (.responseArrival p) (landingExts r st p.v p.payload false)
        (seq (leaveVat p) (endReq p.acc st p.v p.payload false))
    | none, some q => seqs [leaveVat p, endReissue q.dst st p.v false, pumpAll]
    | none, none => seq (leaveVat p) (onlyIf past (lateProg .response))

/-- REQUEST_RETRY: a copy with RETRY under the same numbers. Accession 0 names the resync in progress, which no request carries. -/
def retryProg (acc : Nat) : Prog := withS fun s =>
  let again := fun (p : Packet) => seq (incF Reg.chnRetries) (sendPacket { p with retry := true })
  if !s.flagBit Reg.chnFabricEn then skip
  else if acc = 0 then given s.fab.resync fun r => seq (incF Reg.chnRetries) (emit [.send (.resync r.1 r.2)])
  else match (nget s.fab.reqs acc).filter (·.ended.isNone), s.reissued.filter (·.acc == acc) with
    | some r, _ => again r.pkt
    | none, some p => again p
    | none, none => skip

/-- The status of a request that no response answered (10 R315 Table 8). -/
def unanswered (t : PktType) : Status := if t = .read then .deadTarget else .unknown

/-- REQUEST_BUDGET_EXPIRY. -/
def budgetProg (acc : Nat) : Prog := withS fun s =>
  if acc = 0 then onlyIf s.fab.resync.isSome (endResync .unknown)
  else match (nget s.fab.reqs acc).filter (·.ended.isNone), s.reissued.filter (·.acc == acc) with
    | some r, _ => endReq acc (unanswered r.pkt.type) 0 [] true
    | none, some p => seq (endReissue p.dst .unknown 0 true) pumpAll
    | none, none => skip

/-! Reachability declarations (10 R301, 14 R410). -/

/-- What the loss of package `g` does here. -/
def losePackage (g : Nat) : Prog := seqs
  [withS fun s => onlyIf (match s.fab.resync with | some r => r.1 == g | none => false) (endResync .deadTarget),
   withS fun s => onlyIf (match s.fab.ri with | some p => p.dst == g | none => false)
     (endReissue g (if s.fab.riWaits then .deadTarget else .unknown) 0 (!s.fab.riWaits)),
   updFab fun x => { x with asks := x.asks.filter fun e => fpaPkg e.1.2 != inRack g },
   withS fun s => forEach (s.cachedCopies.filter fun e => s.dmaDest e.2.desc == g) fun e => endCached e.1 e.2 .deadTarget true,
   withS fun s => forEach (s.openReqs.filter fun e => e.2.pkt.dst == g) fun e => endReq e.1 (unanswered e.2.pkt.type) 0 [] true,
   withS fun s => onlyIf (rackOf g == rackOf s.me) (forgetSource g),
   stageDead g]

/-- A declaration is applied: its generation, its table, the acting master, and what each package it removes leaves behind. -/
def applyReach (gen mask : Nat) : Prog := withS fun s =>
  let lost := (List.range 4096).filter fun i => s.reachable i && !bit mask i
  seqs [setF Reg.chnReachGen gen,
        forEach (List.range 128) fun w => onlyIf (s.fld (Reg.chnReach w) != bits mask (32 * w) 32) (setF (Reg.chnReach w) (bits mask (32 * w) 32)),
        showMaster,
        forEach lost losePackage]

/-- REACH_DECLARATION. -/
def reachProg (gen mask : Nat) : Prog := withS fun s => onlyIf (s.flagBit Reg.chnFabricEn) (applyReach gen mask)

/-- CHN_REACH as one number. -/
def State.reachMask (s : State) : Nat := ((List.range 128).map fun w => s.fld (Reg.chnReach w) * 2 ^ (32 * w)).foldl (· + ·) 0

/-- The acting master declares a package unreachable, with a new generation, and applies it. A rack's master tells the system's, which merges
the racks' declarations into the system table (10 R300, R301): kind 2. -/
def declare (pkg : Nat) : Prog := withS fun s =>
  let gen := (s.fld Reg.chnReachGen + 1) % 2 ^ 32
  seqs [emit [.send (.reach gen pkg)], applyReach gen (s.reachMask - 2 ^ pkg), onlyIf (!s.heads) (sendCtl s.systemMaster 2 pkg)]

/-- LIVE_TIMEOUT: of a package of the master's rack. -/
def liveTimeoutProg (pkg : Nat) : Prog := withS fun s =>
  onlyIf (s.isMaster && s.reachable pkg && pkg != s.me && rackOf pkg == rackOf s.me) (declare pkg)

/-! What the rack's master collects and writes (10 R299–R301). -/

/-- The neighbour of in-rack index `i` in direction `d` inside the rack; on a cascaded axis the rack's line ends. -/
def State.rackStep (s : State) (i d : Nat) : Option Nat :=
  let e := s.ext3
  let c := (i % 4, i / 4 % 4, i / 16 % 4)
  let x := if d / 2 = 0 then (c.1, e.1) else if d / 2 = 1 then (c.2.1, e.2.1) else (c.2.2, e.2.2)
  let to_ := if d % 2 = 0 then x.1 + 1 else x.1 + 3
  if x.2 ≠ 4 ∧ (if d % 2 = 0 then x.1 = 3 else x.1 = 0) then none
  else some (i - x.1 * 4 ^ (d / 2) + to_ % 4 * 4 ^ (d / 2))

/-- Packages of the rack to which a route over ACTIVE ports exists, as the master knows them; of one that has told nothing every port counts as
ACTIVE (log 70). -/
def State.routed (s : State) : List Nat :=
  let up := fun (i d : Nat) => match nget s.fab.links i with
    | some m => m / 2 ^ (6 * d) % 64 != 0
    | none => true
  (List.range 64).foldl (fun seen _ =>
    (seen ++ seen.flatMap fun i => (List.range 6).filterMap fun d => if up i d then s.rackStep i d else none).eraseDups) [s.myIndex]

/-- The fallback lists that the master writes for a package: entries 0–63 for the packages of the rack, 64–127 for the racks. Which lists is the
firmware's (log 70); the master tells another package each entry that changed: kind 3, entry + 256 × list. -/
def writeLists (i : Nat) : Prog := withS fun s =>
  forEach (List.range 128) fun k => withS fun t =>
    let w := Config.fallbackList s.fab.links i k % 2 ^ 18
    if i = s.myIndex then setF (if k < 64 then Reg.chnRoute k else Reg.chnSysRoute (k - 64)) w
    else onlyIf ((nget t.fab.routes (256 * i + k)).getD 0x3FFFF != w)
      (seq (updFab fun x => { x with routes := nset x.routes (256 * i + k) w }) (sendCtl (s.inMyRack i) 3 (k + 256 * w)))

/-- What the master does with the port states it has: the fallback lists, and a declaration for each package that no route reaches. -/
def masterWork : Prog := withS fun s =>
  onlyIf s.isMaster (seq
    (forEach ((List.range 64).filter fun i => s.reachable (s.inMyRack i)) writeLists)
    (forEach ((List.range 64).filter fun i => s.reachable (s.inMyRack i) && !s.routed.contains i) fun i => declare (s.inMyRack i)))

/-- LIVENESS_PROBE: the master probes its rack, and does its work. -/
def probeProg : Prog := withS fun s =>
  onlyIf s.isMaster (seqs
    [forEach ((List.range 64).filter (· != s.myIndex)) fun i => emit [.send (.probe (s.inMyRack i))], reportPorts, masterWork])

/-- A CTL packet of the masters' work arrives: a probe, the port states of a package, a rack's declaration, an entry of a fallback list. -/
def ctlArrival (p : Packet) : Prog := withS fun s =>
  let entry := p.c % 256
  let mine := rackOf p.src == rackOf s.me
  if !s.flagBit Reg.chnFabricEn then skip
  else match p.v with
    | 0 => sendCtl p.src 1 s.activeMask
    | 1 => onlyIf (s.isMaster && mine) (seq (updFab fun x => { x with links := nset x.links (inRack p.src) (p.c % 2 ^ 36) }) masterWork)
    | 2 => onlyIf (s.heads && s.reachable (p.c % 4096)) (declare (p.c % 4096))
    | 3 => onlyIf (mine && inRack p.src == s.fld Reg.chnRackMasterAct && decide (entry < 128))
        (setF (if entry < 64 then Reg.chnRoute entry else Reg.chnSysRoute (entry - 64)) (p.c / 256 % 2 ^ 18))
    | _ => skip

/-! Copies of queue entries (13 R392). -/

/-- The pages of a transfer that translate before the first that does not: their offsets, lengths and pages. -/
def goodPages (n host : Nat) (write : Bool) : List (Nat × Nat) → List (Nat × Nat × Nat)
  | [] => []
  | (o, k) :: r => match hostPage n (host + o) write with
    | some p => (o, k, p) :: goodPages n host write r
    | none => []

/-- COPY_IN and COPY_OUT. What damages the device extent does is judged before a byte moves. -/
def sqCopyProg (q : Nat) (e : SqEnt) (into : Bool) : Prog := withS fun s =>
  let d := e.desc
  let len := eLen d
  let dev := eDev d
  let host := eHost d
  if len = 0 then endEntry q e .ok 0
  else if eCap d < len then endEntry q e .sizeFault 0
  else match (firstFault [(!s.mayMove .host into dev len, .addressFault), (s.storeOut dev, .unitFault)]).or (s.moveHurt into dev len) with
  | some st => endEntry q e st 0
  | none =>
    whenReady (vaultExt into dev len) (drawFree fun n => withS fun t =>
      let pages := goodPages n host (!into) (pageCuts host len)
      let words := match t.rangeOf dev with | some .flags => true | some .control => true | _ => false
      let reached := (pages.map (·.2.1)).foldl (· + ·) 0
      let done := if words then reached / 4 * 4 else reached
      let data := if into then (pages.flatMap fun p => t.hostBytes p.2.2 (host + p.1) p.2.1).take done else t.readAny dev done
      seqs
        [logStart (.queue q) e.acc (eTag d) .none,
         if into then writeAny .host .registrar dev data
         else seq (readEffects .host dev done)
           (forEach pages fun p => hostWrite (p.2.2 * 4096 + (host + p.1) % 4096) ((data.drop p.1).take p.2.1)),
         incF (if into then Reg.htxBytesIn else Reg.htxBytesOut) done,
         forEach (mebibytes done) fun m => logEv (.queue q) e.acc .ok (eTag d) false (.progress m),
         endEntry q e (if reached < len then .addressFault else .ok) done])

/-! The commands. -/

/-- COPY (10 R305). -/
def execCopy (sid acc : Nat) (s : State) : Out := .next (run (onDma sid acc 0 (copyProg sid)) s)

/-- ATOMIC (10 R303). -/
def execAtomic (sid acc : Nat) (s : State) : Out := .next (run (onDma sid acc 1 (dmaAtomicProg sid)) s)

/-- FLAG_STORE (10 R303). -/
def execFlagStore (sid acc : Nat) (s : State) : Out := .next (run (onDma sid acc 2 (flagStoreProg sid)) s)

/-- FENCE (10 R314). -/
def execFence (sid acc : Nat) (s : State) : Out := .next (run (onDma sid acc 3 (fenceProg sid)) s)

/-- RESPONSE_ARRIVAL (10 R315). -/
def execResponseArrival (pkt : Packet) (s : State) : Out := .next (run (responseProg pkt) s)

/-- REQUEST_RETRY (10 R315). -/
def execRequestRetry (acc : Nat) (s : State) : Out := .next (run (retryProg acc) s)

/-- REQUEST_BUDGET_EXPIRY (10 R315). -/
def execRequestBudgetExpiry (acc : Nat) (s : State) : Out := .next (run (budgetProg acc) s)

/-- LIVE_TIMEOUT (10 R301). -/
def execLiveTimeout (pkg : Nat) (s : State) : Out := .next (run (liveTimeoutProg pkg) s)

/-- REACH_DECLARATION (10 R301). -/
def execReachDeclaration (gen mask : Nat) (s : State) : Out := .next (run (reachProg gen mask) s)

/-- SQ_COPY_IN (13 R392). -/
def execSqCopyIn (q acc : Nat) (s : State) : Out := .next (run (onEntry q acc 1 fun e => sqCopyProg q e true) s)

/-- SQ_COPY_OUT (13 R392). -/
def execSqCopyOut (q acc : Nat) (s : State) : Out :=
  .next (run (onEntry q acc 2 fun e => sqCopyProg q e false) s)

end Sys2Proof.Machine
end

