-- ==== Sys2Proof/Machine/Held.lean ====
section
/-! DEFINITION. The ends of what holds requests up at a Vault (07 R195, R200, R205, R209, R211), after which the rows held there are served in
order; and the rows that may take a port from ACTIVE, after which missing chunks are asked for again (10 R292), or that bring CTL packets. -/

namespace Sys2Proof.Machine

/-- A row held at a Vault is served from there; it may be held again. -/
def serveHeld : Instr → Prog
  | .cohRemoteRequest kind member die line => cohRequest kind member die line
  | .read p => serveRead p
  | .write p | .remoteAtomic p | .remoteFlag p => serveOrdered p
  | .responseArrival p => responseProg p
  | .debugPortAccess a => debugProg a
  | .chnRiGo => reissueProg
  | i => vaultReq i

/-- The rows held at the Vault of die `d` are served, the oldest first; those that must still wait keep their order. -/
def releaseHeld (d : Nat) : Prog := withS fun s =>
  seq (emit [.vault d { s.vault d with held := [] }]) (forEach (s.vault d).held serveHeld)

/-- What may hold a row up has changed: both Vaults serve what they hold. -/
def thenRelease (k : Prog) : Prog := seqs [k, releaseHeld 0, releaseHeld 1]

/-- PARTITION_CHANGE_DONE (07 R195). -/
def execPartitionChangeDone (d : Nat) (s : State) : Out := .next (run (thenRelease (partitionDoneProg d)) s)

/-- FLUSH_DONE (07 R200). -/
def execFlushDone (d : Nat) (s : State) : Out := .next (run (thenRelease (flushDoneProg d)) s)

/-- PAGE_SCRUB_DONE (07 R205). -/
def execPageScrubDone (pair : Nat) (s : State) : Out := .next (run (thenRelease (scrubDoneProg pair)) s)

/-- COH_REPLY (07 R209). -/
def execCohReply (line member die : Nat) (data : Option (List Byte)) (s : State) : Out :=
  .next (run (thenRelease (cohReplyProg line member die data)) s)

/-- COH_TIMEOUT (07 R211). -/
def execCohTimeout (line : Nat) (s : State) : Out := .next (run (thenRelease (cohTimeoutProg line)) s)

/-- PORT_ENABLE (10 R288). -/
def execPortEnable (p value : Nat) (s : State) : Out := .next (run (portRow p (portEnableProg p value)) s)

/-- CHN_PORT_RETRAIN (10 R318). -/
def execChnPortRetrain (p : Nat) (s : State) : Out := .next (run (portRow p (retrainProg p)) s)

/-- FRAME_RECEIVE (10 R286). -/
def execFrameReceive (p seq lastSeen : Nat) (credits : List Nat) (fecFixed : Nat) (crcOk tagOk : Bool) (pkts : List Packet) (s : State) : Out :=
  .next (run (portRow p (frameReceiveProg ctlArrival p seq lastSeen credits fecFixed crcOk tagOk pkts)) s)

/-- FRAME_REPLAY (10 R286). -/
def execFrameReplay (p seq : Nat) (ok : Bool) (s : State) : Out := .next (run (portRow p (frameReplayProg p seq ok)) s)

/-- LANE_SER_CHECK (10 R287). -/
def execLaneSerCheck (p : Nat) (errs : List Nat) (lockMask : Nat) (s : State) : Out := .next (run (portRow p (laneCheckProg p errs lockMask)) s)

/-- PORT_DOWN (10 R290). -/
def execPortDown (p : Nat) (s : State) : Out := .next (run (portRow p (downProg p)) s)

/-- LINK_REKEY (15 R436). -/
def execLinkRekey (p : Nat) (ok : Bool) (s : State) : Out := .next (run (portRow p (rekeyProg p ok)) s)

/-- LIVENESS_PROBE (10 R300). -/
def execLivenessProbe (s : State) : Out := .next (run probeProg s)

end Sys2Proof.Machine
end

