-- ==== Sys2Proof/Machine/Dispatch.lean ====
section
/-! DEFINITION. One arm per command: its meaning, or its refusal by name. -/

namespace Sys2Proof.Machine

/-- The effect of a command on everything but the queue. -/
def exec (i : Instr) (s : State) : Host.Outcome State Fault Refusal :=
  match i with
  | .registerWrite ag off size value => Sys2Proof.Machine.execRegisterWrite ag off size value s
  | .doorbell sid tail => Sys2Proof.Machine.execDoorbell sid tail s
  | .streamEnable sid => Sys2Proof.Machine.execStreamEnable sid s
  | .streamDisable sid => Sys2Proof.Machine.execStreamDisable sid s
  | .resumeSkip sid => Sys2Proof.Machine.execResumeSkip sid s
  | .resumeRetry sid => Sys2Proof.Machine.execResumeRetry sid s
  | .streamReset sid => Sys2Proof.Machine.execStreamReset sid s
  | .commandFetch sid => Sys2Proof.Machine.execCommandFetch sid s
  | .commandIssue sid => Sys2Proof.Machine.execCommandIssue sid s
  | .waitTimeout sid acc => Sys2Proof.Machine.execWaitTimeout sid acc s
  | .lateArrival u => Sys2Proof.Machine.execLateArrival u s
  | .flagSet core flag value by_ => Sys2Proof.Machine.execFlagSet core flag value by_ s
  | .flagAdd core flag value by_ => Sys2Proof.Machine.execFlagAdd core flag value by_ s
  | .flagMax core flag value by_ => Sys2Proof.Machine.execFlagMax core flag value by_ s
  | .watchPoll sid => Sys2Proof.Machine.execWatchPoll sid s
  | .coreGate n => Sys2Proof.Machine.execCoreGate n s
  | .nop sid acc => Sys2Proof.Machine.execNop sid acc s
  | .barrierArrive sid acc => Sys2Proof.Machine.execBarrierArrive sid acc s
  | .arriveWait sid acc => Sys2Proof.Machine.execArriveWait sid acc s
  | .rgsBarClear c => Sys2Proof.Machine.execRgsBarClear c s
  | .syncDoorbell sid acc => Sys2Proof.Machine.execSyncDoorbell sid acc s
  | .taskBegin sid acc => Sys2Proof.Machine.execTaskBegin sid acc s
  | .taskEnd sid acc => Sys2Proof.Machine.execTaskEnd sid acc s
  | .shapeWrite sid acc => Sys2Proof.Machine.execShapeWrite sid acc s
  | .copy sid acc => Sys2Proof.Machine.execCopy sid acc s
  | .atomic sid acc => Sys2Proof.Machine.execAtomic sid acc s
  | .flagStore sid acc => Sys2Proof.Machine.execFlagStore sid acc s
  | .fence sid acc => Sys2Proof.Machine.execFence sid acc s
  | .gemm sid acc => Sys2Proof.Machine.execGemm sid acc s
  | .eltwise sid acc => Sys2Proof.Machine.execEltwise sid acc s
  | .grouped sid acc => Sys2Proof.Machine.execGrouped sid acc s
  | .wgrad sid acc => Sys2Proof.Machine.execWgrad sid acc s
  | .wgradRagged sid acc => Sys2Proof.Machine.execWgradRagged sid acc s
  | .vecAdd sid acc => Sys2Proof.Machine.execVecAdd sid acc s
  | .vecSub sid acc => Sys2Proof.Machine.execVecSub sid acc s
  | .vecMul sid acc => Sys2Proof.Machine.execVecMul sid acc s
  | .vecFma sid acc => Sys2Proof.Machine.execVecFma sid acc s
  | .vecMax sid acc => Sys2Proof.Machine.execVecMax sid acc s
  | .vecMin sid acc => Sys2Proof.Machine.execVecMin sid acc s
  | .vecScale sid acc => Sys2Proof.Machine.execVecScale sid acc s
  | .vecConvert sid acc => Sys2Proof.Machine.execVecConvert sid acc s
  | .vecExp sid acc => Sys2Proof.Machine.execVecExp sid acc s
  | .vecLog sid acc => Sys2Proof.Machine.execVecLog sid acc s
  | .vecRecip sid acc => Sys2Proof.Machine.execVecRecip sid acc s
  | .vecRsqrt sid acc => Sys2Proof.Machine.execVecRsqrt sid acc s
  | .vecSqrt sid acc => Sys2Proof.Machine.execVecSqrt sid acc s
  | .vecTanh sid acc => Sys2Proof.Machine.execVecTanh sid acc s
  | .vecSigmoid sid acc => Sys2Proof.Machine.execVecSigmoid sid acc s
  | .vecErf sid acc => Sys2Proof.Machine.execVecErf sid acc s
  | .rowSum sid acc => Sys2Proof.Machine.execRowSum sid acc s
  | .rowMax sid acc => Sys2Proof.Machine.execRowMax sid acc s
  | .rowSumsq sid acc => Sys2Proof.Machine.execRowSumsq sid acc s
  | .rowSoftmax sid acc => Sys2Proof.Machine.execRowSoftmax sid acc s
  | .rampGroupUp n g => Sys2Proof.Machine.execRampGroupUp n g s
  | .rampGroupDown n g => Sys2Proof.Machine.execRampGroupDown n g s
  | .arrCntClear n => Sys2Proof.Machine.execArrCntClear n s
  | .deferStarve sid acc => Sys2Proof.Machine.execDeferStarve sid acc s
  | .arraySpareMap n a => Sys2Proof.Machine.execArraySpareMap n a s
  | .route sid acc => Sys2Proof.Machine.execRoute sid acc s
  | .grant sid acc => Sys2Proof.Machine.execGrant sid acc s
  | .dispatch sid acc => Sys2Proof.Machine.execDispatch sid acc s
  | .tokenArrival g seq srcRank token copies row => Sys2Proof.Machine.execTokenArrival g seq srcRank token copies row s
  | .returnRows sid acc => Sys2Proof.Machine.execReturnRows sid acc s
  | .sum sid acc => Sys2Proof.Machine.execSum sid acc s
  | .curCntClear => Sys2Proof.Machine.execCurCntClear s
  | .vaultRead r addr len => Sys2Proof.Machine.execVaultRead r addr len s
  | .vaultWrite r addr data => Sys2Proof.Machine.execVaultWrite r addr data s
  | .sliceArbitration d slice readMask writeMask => Sys2Proof.Machine.execSliceArbitration d slice readMask writeMask s
  | .add r addr size8 v => Sys2Proof.Machine.execAdd r addr size8 v s
  | .maxU r addr size8 v => Sys2Proof.Machine.execMaxU r addr size8 v s
  | .minU r addr size8 v => Sys2Proof.Machine.execMinU r addr size8 v s
  | .maxS r addr size8 v => Sys2Proof.Machine.execMaxS r addr size8 v s
  | .minS r addr size8 v => Sys2Proof.Machine.execMinS r addr size8 v s
  | .and r addr size8 v => Sys2Proof.Machine.execAnd r addr size8 v s
  | .or r addr size8 v => Sys2Proof.Machine.execOr r addr size8 v s
  | .xor r addr size8 v => Sys2Proof.Machine.execXor r addr size8 v s
  | .fmax r addr size8 v => Sys2Proof.Machine.execFmax r addr size8 v s
  | .fmin r addr size8 v => Sys2Proof.Machine.execFmin r addr size8 v s
  | .swap r addr size8 v => Sys2Proof.Machine.execSwap r addr size8 v s
  | .cas r addr size8 v c => Sys2Proof.Machine.execCas r addr size8 v c s
  | .exactAdd r addr mask addends => Sys2Proof.Machine.execExactAdd r addr mask addends s
  | .exactRead r addr => Sys2Proof.Machine.execExactRead r addr s
  | .exactClear r addr => Sys2Proof.Machine.execExactClear r addr s
  | .partitionChange d gib => Sys2Proof.Machine.execPartitionChange d gib s
  | .partitionChangeDone d => Sys2Proof.Machine.execPartitionChangeDone d s
  | .vltFlush d => Sys2Proof.Machine.execVltFlush d s
  | .vltInvalidate d => Sys2Proof.Machine.execVltInvalidate d s
  | .flushDone d => Sys2Proof.Machine.execFlushDone d s
  | .pageAttrWrite d w value => Sys2Proof.Machine.execPageAttrWrite d w value s
  | .pageScrubDone pair => Sys2Proof.Machine.execPageScrubDone pair s
  | .vltAttrLock => Sys2Proof.Machine.execVltAttrLock s
  | .vltLfsrSeed d slice seed => Sys2Proof.Machine.execVltLfsrSeed d slice seed s
  | .hbmCntClear k => Sys2Proof.Machine.execHbmCntClear k s
  | .cohRemoteRequest kind member die line => Sys2Proof.Machine.execCohRemoteRequest kind member die line s
  | .cohReply line member die data => Sys2Proof.Machine.execCohReply line member die data s
  | .cohTimeout line => Sys2Proof.Machine.execCohTimeout line s
  | .thermalSample d slices hbms => Sys2Proof.Machine.execThermalSample d slices hbms s
  | .clockStep dom => Sys2Proof.Machine.execClockStep dom s
  | .update sid acc => Sys2Proof.Machine.execUpdate sid acc s
  | .regen sid acc => Sys2Proof.Machine.execRegen sid acc s
  | .digest sid acc => Sys2Proof.Machine.execDigest sid acc s
  | .accumulate sid acc => Sys2Proof.Machine.execAccumulate sid acc s
  | .clearBuf sid acc => Sys2Proof.Machine.execClearBuf sid acc s
  | .btrCntClear k => Sys2Proof.Machine.execBtrCntClear k s
  | .groupCreate g => Sys2Proof.Machine.execGroupCreate g s
  | .groupRelease g => Sys2Proof.Machine.execGroupRelease g s
  | .colGrpNextSeqWrite g value => Sys2Proof.Machine.execColGrpNextSeqWrite g value s
  | .allReduce sid acc => Sys2Proof.Machine.execAllReduce sid acc s
  | .reduceScatter sid acc => Sys2Proof.Machine.execReduceScatter sid acc s
  | .allGather sid acc => Sys2Proof.Machine.execAllGather sid acc s
  | .allToAllV sid acc => Sys2Proof.Machine.execAllToAllV sid acc s
  | .broadcast sid acc => Sys2Proof.Machine.execBroadcast sid acc s
  | .barrier sid acc => Sys2Proof.Machine.execBarrier sid acc s
  | .commit sid acc => Sys2Proof.Machine.execCommit sid acc s
  | .stageAdmission g seq rank sig refusal counts => Sys2Proof.Machine.execStageAdmission g seq rank sig refusal counts s
  | .stageGo g seq info => Sys2Proof.Machine.execStageGo g seq info s
  | .stageFail g seq st => Sys2Proof.Machine.execStageFail g seq st s
  | .stageTaint g seq st => Sys2Proof.Machine.execStageTaint g seq st s
  | .stageTimeout g seq => Sys2Proof.Machine.execStageTimeout g seq s
  | .chunkArrival g seq srcRank chunk payload check => Sys2Proof.Machine.execChunkArrival g seq srcRank chunk payload check s
  | .chunkRetransmit g seq dstRank chunk => Sys2Proof.Machine.execChunkRetransmit g seq dstRank chunk s
  | .chunkAck g seq dstRank chunk => Sys2Proof.Machine.execChunkAck g seq dstRank chunk s
  | .creditGrant g seq receiver source => Sys2Proof.Machine.execCreditGrant g seq receiver source s
  | .stageCompletionReport g seq rank st => Sys2Proof.Machine.execStageCompletionReport g seq rank st s
  | .commitDecision g seq commit epoch => Sys2Proof.Machine.execCommitDecision g seq commit epoch s
  | .commitTimeout g seq => Sys2Proof.Machine.execCommitTimeout g seq s
  | .colStepOkWrite value => Sys2Proof.Machine.execColStepOkWrite value s
  | .portEnable p value => Sys2Proof.Machine.execPortEnable p value s
  | .chnPortRetrain p => Sys2Proof.Machine.execChnPortRetrain p s
  | .trainStateDone p r => Sys2Proof.Machine.execTrainStateDone p r s
  | .trainStateTimeout p => Sys2Proof.Machine.execTrainStateTimeout p s
  | .frameReceive p seq lastSeen credits fecFixed crcOk tagOk pkts => Sys2Proof.Machine.execFrameReceive p seq lastSeen credits fecFixed crcOk tagOk pkts s
  | .frameReplay p seq ok => Sys2Proof.Machine.execFrameReplay p seq ok s
  | .laneSerCheck p errs lockMask => Sys2Proof.Machine.execLaneSerCheck p errs lockMask s
  | .portDown p => Sys2Proof.Machine.execPortDown p s
  | .linkRekey p ok => Sys2Proof.Machine.execLinkRekey p ok s
  | .packetForward pkt queued => Sys2Proof.Machine.execPacketForward pkt queued s
  | .read pkt => Sys2Proof.Machine.execRead pkt s
  | .write pkt => Sys2Proof.Machine.execWrite pkt s
  | .remoteAtomic pkt => Sys2Proof.Machine.execRemoteAtomic pkt s
  | .remoteFlag pkt => Sys2Proof.Machine.execRemoteFlag pkt s
  | .responseArrival pkt => Sys2Proof.Machine.execResponseArrival pkt s
  | .requestRetry acc => Sys2Proof.Machine.execRequestRetry acc s
  | .requestBudgetExpiry acc => Sys2Proof.Machine.execRequestBudgetExpiry acc s
  | .orderTimeout src acc => Sys2Proof.Machine.execOrderTimeout src acc s
  | .chnResyncGo dest => Sys2Proof.Machine.execChnResyncGo dest s
  | .resyncAck dest => Sys2Proof.Machine.execResyncAck dest s
  | .chnRiGo => Sys2Proof.Machine.execChnRiGo s
  | .livenessProbe => Sys2Proof.Machine.execLivenessProbe s
  | .liveTimeout pkg => Sys2Proof.Machine.execLiveTimeout pkg s
  | .reachDeclaration gen mask => Sys2Proof.Machine.execReachDeclaration gen mask s
  | .chnFabricEn value => Sys2Proof.Machine.execChnFabricEn value s
  | .stepAttempt => Sys2Proof.Machine.execStepAttempt s
  | .stepTimeout => Sys2Proof.Machine.execStepTimeout s
  | .commitRelease => Sys2Proof.Machine.execCommitRelease s
  | .stepBoundaryWork peers revisions work => Sys2Proof.Machine.execStepBoundaryWork peers revisions work s
  | .solve sid acc asmCycles => Sys2Proof.Machine.execSolve sid acc asmCycles s
  | .backward sid acc => Sys2Proof.Machine.execBackward sid acc s
  | .pressDeadlineCheck sid acc cycles iter => Sys2Proof.Machine.execPressDeadlineCheck sid acc cycles iter s
  | .prsCntClear d => Sys2Proof.Machine.execPrsCntClear d s
  | .getIdentity via => Sys2Proof.Machine.execGetIdentity via s
  | .getVersion via => Sys2Proof.Machine.execGetVersion via s
  | .loadFirmware via => Sys2Proof.Machine.execLoadFirmware via s
  | .ownClaim via => Sys2Proof.Machine.execOwnClaim via s
  | .ownRelease via => Sys2Proof.Machine.execOwnRelease via s
  | .htxOwnBreak ag => Sys2Proof.Machine.execHtxOwnBreak ag s
  | .repairApply via => Sys2Proof.Machine.execRepairApply via s
  | .repairRead via => Sys2Proof.Machine.execRepairRead via s
  | .jobLoad via => Sys2Proof.Machine.execJobLoad via s
  | .jobStart via => Sys2Proof.Machine.execJobStart via s
  | .jobStopBoundary via => Sys2Proof.Machine.execJobStopBoundary via s
  | .jobStopNow via => Sys2Proof.Machine.execJobStopNow via s
  | .jobUnload via => Sys2Proof.Machine.execJobUnload via s
  | .jobStatus via => Sys2Proof.Machine.execJobStatus via s
  | .setEpoch via => Sys2Proof.Machine.execSetEpoch via s
  | .ledgerQueryCommand via => Sys2Proof.Machine.execLedgerQueryCommand via s
  | .ledgerQueryRemote via => Sys2Proof.Machine.execLedgerQueryRemote via s
  | .ledgerQueryCommit via => Sys2Proof.Machine.execLedgerQueryCommit via s
  | .ledgerQueryRead via => Sys2Proof.Machine.execLedgerQueryRead via s
  | .ledgerFwdQuery src req => Sys2Proof.Machine.execLedgerFwdQuery src req s
  | .ledgerFwdTimeout m => Sys2Proof.Machine.execLedgerFwdTimeout m s
  | .health via => Sys2Proof.Machine.execHealth via s
  | .debugUnlockChallenge via => Sys2Proof.Machine.execDebugUnlockChallenge via s
  | .debugUnlockSubmit via => Sys2Proof.Machine.execDebugUnlockSubmit via s
  | .debugUnlockCancel via => Sys2Proof.Machine.execDebugUnlockCancel via s
  | .spdmGetVersion via => Sys2Proof.Machine.execSpdmGetVersion via s
  | .spdmGetCapabilities via => Sys2Proof.Machine.execSpdmGetCapabilities via s
  | .spdmNegotiateAlgorithms via => Sys2Proof.Machine.execSpdmNegotiateAlgorithms via s
  | .spdmGetDigests via => Sys2Proof.Machine.execSpdmGetDigests via s
  | .spdmGetCertificate via => Sys2Proof.Machine.execSpdmGetCertificate via s
  | .spdmChallenge via => Sys2Proof.Machine.execSpdmChallenge via s
  | .spdmGetMeasurements via => Sys2Proof.Machine.execSpdmGetMeasurements via s
  | .spdmUnsupported via => Sys2Proof.Machine.execSpdmUnsupported via s
  | .custIdentity via => Sys2Proof.Machine.execCustIdentity via s
  | .custQuote via => Sys2Proof.Machine.execCustQuote via s
  | .custHealth via => Sys2Proof.Machine.execCustHealth via s
  | .custLedgerTail via => Sys2Proof.Machine.execCustLedgerTail via s
  | .custReset via => Sys2Proof.Machine.execCustReset via s
  | .custResetKeepHbm via => Sys2Proof.Machine.execCustResetKeepHbm via s
  | .custPowerDown via flushOk => Sys2Proof.Machine.execCustPowerDown via flushOk s
  | .custInjectOff via => Sys2Proof.Machine.execCustInjectOff via s
  | .custTime via => Sys2Proof.Machine.execCustTime via s
  | .i3cEntdaa address => Sys2Proof.Machine.execI3cEntdaa address s
  | .i3cRequestDiscard => Sys2Proof.Machine.execI3cRequestDiscard s
  | .htxSqTail q value => Sys2Proof.Machine.execHtxSqTail q value s
  | .htxCqHead q value => Sys2Proof.Machine.execHtxCqHead q value s
  | .htxSqEnable q value => Sys2Proof.Machine.execHtxSqEnable q value s
  | .htxSqResume q => Sys2Proof.Machine.execHtxSqResume q s
  | .htxSqReset q => Sys2Proof.Machine.execHtxSqReset q s
  | .sqNop q acc => Sys2Proof.Machine.execSqNop q acc s
  | .sqCopyIn q acc => Sys2Proof.Machine.execSqCopyIn q acc s
  | .sqCopyOut q acc => Sys2Proof.Machine.execSqCopyOut q acc s
  | .sqRing q acc => Sys2Proof.Machine.execSqRing q acc s
  | .sqFlag q acc => Sys2Proof.Machine.execSqFlag q acc s
  | .htxImEnable v => Sys2Proof.Machine.execHtxImEnable v s
  | .heartbeatAdvance => Sys2Proof.Machine.execHeartbeatAdvance s
  | .heartbeatStall => Sys2Proof.Machine.execHeartbeatStall s
  | .coldPowerUp => Sys2Proof.Machine.execColdPowerUp s
  | .mainRailPowerUp => Sys2Proof.Machine.execMainRailPowerUp s
  | .pkgReset => Sys2Proof.Machine.execPkgReset s
  | .pkgResetRelease => Sys2Proof.Machine.execPkgResetRelease s
  | .pkgPwrokRise inTolerance => Sys2Proof.Machine.execPkgPwrokRise inTolerance s
  | .railFault cause => Sys2Proof.Machine.execRailFault cause s
  | .referenceFault => Sys2Proof.Machine.execReferenceFault s
  | .custRefclkLoss => Sys2Proof.Machine.execCustRefclkLoss s
  | .mainRailRemoval => Sys2Proof.Machine.execMainRailRemoval s
  | .bootStageEnd => Sys2Proof.Machine.execBootStageEnd s
  | .bootHalt st die item => Sys2Proof.Machine.execBootHalt st die item s
  | .powerSample watts => Sys2Proof.Machine.execPowerSample watts s
  | .powerLimitStep => Sys2Proof.Machine.execPowerLimitStep s
  | .pwrDutyStep => Sys2Proof.Machine.execPwrDutyStep s
  | .edcEvent d => Sys2Proof.Machine.execEdcEvent d s
  | .rampWindow d requests => Sys2Proof.Machine.execRampWindow d requests s
  | .thermalTrip => Sys2Proof.Machine.execThermalTrip s
  | .thermTripRelease hottest => Sys2Proof.Machine.execThermTripRelease hottest s
  | .correctableError det die unit item => Sys2Proof.Machine.execCorrectableError det die unit item s
  | .uncorrectableError det die unit item => Sys2Proof.Machine.execUncorrectableError det die unit item s
  | .csvInjArm => Sys2Proof.Machine.execCsvInjArm s
  | .csvReplaceGo n => Sys2Proof.Machine.execCsvReplaceGo n s
  | .coreReplace n => Sys2Proof.Machine.execCoreReplace n s
  | .controlCoreSpare index => Sys2Proof.Machine.execControlCoreSpare index s
  | .ucieModuleRemove die module_ => Sys2Proof.Machine.execUcieModuleRemove die module_ s
  | .vaultBankSpare d slice bank => Sys2Proof.Machine.execVaultBankSpare d slice bank s
  | .hbmRowRepair k addr resource => Sys2Proof.Machine.execHbmRowRepair k addr resource s
  | .beaterLaneSpare k lane => Sys2Proof.Machine.execBeaterLaneSpare k lane s
  | .readClear ag off size => Sys2Proof.Machine.execReadClear ag off size s
  | .custodianRailLoss => Sys2Proof.Machine.execCustodianRailLoss s
  | .debugPortAccess a => Sys2Proof.Machine.execDebugPortAccess a s
  | .cohRecall line kind die => Sys2Proof.Machine.execCohRecall line kind die s
  | .resyncAtTarget src ordSeq => Sys2Proof.Machine.execResyncAtTarget src ordSeq s
  | .mailboxGoUnassigned m ag => Sys2Proof.Machine.execMailboxGoUnassigned m ag s
  | .submissionEntryFetch q => Sys2Proof.Machine.execSubmissionEntryFetch q s
  | .ledgerFwdReply m reply => Sys2Proof.Machine.execLedgerFwdReply m reply s

end Sys2Proof.Machine
end

