-- ==== Sys2Proof/Machine/Step.lean ====
section
/-! DEFINITION. One step: the command at the front of the queue is taken and run; on an empty queue the block idles (log 34). -/

namespace Sys2Proof.Machine

/-- The state without the front of its queue. -/
def State.popped (s : State) (rest : List Instr) : State := { s with pending := rest }

/-- One step. -/
def step (s : State) : Host.Outcome State Fault Refusal :=
  match s.pending with
  | [] => .next s
  | c :: rest => exec c (s.popped rest)

/-- The state with the command that a word spells at the front of its queue; a word spells none. -/
def State.withFetchWord (s : State) (nbits w : Nat) : State :=
  match decodeTableWord nbits w with
  | some c => { s with pending := c :: s.pending }
  | none => s

end Sys2Proof.Machine
end

