-- ==== Sys2Proof/Safety.lean ====
section
/-! DEFINITION. The terms that statements use: what a step leaves, how a command ended, and which parts of the state a command may
change. -/

namespace Sys2Proof.Machine

/-- A step answers a next state. -/
def Runs (s t : State) : Prop := step s = .next t

/-- A command completes, and the state it leaves satisfies `P`. -/
def Does (i : Instr) (s : State) (P : State → Prop) : Prop := ∃ t, exec i s = .next t ∧ P t

/-- The newest event of the Ledger says that command `acc` of `src` ended with `st` (16 R448: END is appended after every effect of
the command). -/
def EndedNow (t : State) (src : Src) (acc : Nat) (st : Status) : Prop :=
  ∃ e, t.ledger.events.head? = some e ∧ e.src = src ∧ e.acc = acc ∧ e.status = st ∧ ∃ sk j r, e.body = .fin sk j r

/-- A command completes, and command `acc` of `src` has just ended with `st`. -/
def Ends (i : Instr) (s : State) (src : Src) (acc : Nat) (st : Status) : Prop := Does i s fun t => EndedNow t src acc st

/-- The newest event of the Ledger is one of `src` with this body. -/
def Logged (t : State) (src : Src) (acc : Nat) (st : Status) (body : EvBody) : Prop :=
  ∃ e, t.ledger.events.head? = some e ∧ e.src = src ∧ e.acc = acc ∧ e.status = st ∧ e.body = body

/-- The words that follow the Ledger: LDG_HEAD and LDG_OLDEST (16 Table 4). -/
def ledgerWords : List Nat := [0x6000, 0x6004, 0x6008, 0x600C]

/-- The words that follow a stream's state: its STATE, and on a core stream the counts of its core's units. -/
def stateWords (sid : Nat) : List Nat :=
  (Reg.strmState sid).off :: (if sid < 1024 then [(Reg.coreArrHeld (sid / 4)).off] else [])

/-- The words that counting memory accesses may change: those of the HBM controllers and of the Vault slices (01 R36 Table 8), and
CORE_LS_CONFLICTS of a core (03 R72). -/
def dieWord (o : Nat) : Prop :=
  (0x101000 ≤ o ∧ o < 0x105000) ∨ (0x180000 ≤ o ∧ o < 0x1C0000) ∨ (0x201000 ≤ o ∧ o < 0x205000) ∨ (0x280000 ≤ o ∧ o < 0x2C0000) ∨
  (0x1000000 ≤ o ∧ o < 0x1400000 ∧ o % 0x4000 = 4)

/-- The words the start and the end of a command of stream `sid` may change: its stream's own from STRM_TAIL on and its core's unit
counts, the Ledger's, COL_STEP_OK and COL_VETO, the interrupt table, and the memory counters, when a fetch waited for the end. -/
def endWord (sid o : Nat) : Prop :=
  (strmBase sid + 0xC ≤ o ∧ o ≤ strmBase sid + 0x28) ∨ o ∈ stateWords sid ∨ (0x6000 ≤ o ∧ o < 0x7000) ∨ o = Reg.colStepOk.off ∨
  o = Reg.colVeto.off ∨ (0x1A000 ≤ o ∧ o < 0x1B000) ∨ dieWord o

/-- The words that a write of device memory may change: the memory counters, the Ledger's and the Conservator's. -/
def storeWord (o : Nat) : Prop := dieWord o ∨ (0x6000 ≤ o ∧ o < 0x8000)

/-- The words that the start, the end and the memory accesses of a command of stream `sid` may change. -/
def cmdWord (sid o : Nat) : Prop := endWord sid o ∨ storeWord o

/-- The words a core's units may change while a command runs on them: the store's conflicts, the vector unit's time, ARR_UP and the
arrays' counters, and the drain's counters (03 R100, R101, 04 R131). -/
def unitWord (n o : Nat) : Prop :=
  o = coreBase n + 0x4 ∨ o = coreBase n + 0x10 ∨ o = coreBase n + 0x1000 ∨ (coreBase n + 0x1018 ≤ o ∧ o < coreBase n + 0x1038) ∨
  (coreBase n + 0x2010 ≤ o ∧ o ≤ coreBase n + 0x2020)

/-- The words that a command of a core stream may change while it runs through the drain. -/
def drainWord (sid o : Nat) : Prop := cmdWord sid o ∨ unitWord (sid / 4) o

/-- The byte that pieces written in order leave at `a`. -/
def lastByte (ps : List (Nat × List Byte)) (a : Nat) : Option Byte :=
  ps.foldl (fun r p => if p.1 ≤ a ∧ a < p.1 + p.2.length then p.2[a - p.1]? else r) none

/-- Every register word outside `P` is the same. -/
def KeepsOutside (P : Nat → Prop) (s t : State) : Prop := ∀ o, ¬ P o → t.word o = s.word o

/-- Every register word but the listed ones is the same. -/
def KeepsWords (os : List Nat) (s t : State) : Prop := ∀ o, o ∉ os → t.word o = s.word o

/-- Every byte of device memory outside `P` is the same. -/
def KeepsBytes (P : Nat → Prop) (s t : State) : Prop := ∀ a, ¬ P a → byteAt t.mem a = byteAt s.mem a

/-- The kind of an effect: the part of the state it changes. -/
inductive Kind where
  | reg | mem | host | flag | strm | core | bar | line | dir | vault | slice | hurt | cons | stage | order | fab | port | job
  | mbox | sq | sec | pow | clk | restart | log | send | draw
  deriving DecidableEq, Repr

/-- The kind of an effect. -/
def Eff.kind : Eff → Kind
  | .reg _ _ => .reg
  | .regReset _ => .reg
  | .memB _ _ => .mem
  | .hostB _ _ => .host
  | .flag _ _ => .flag
  | .strm _ _ => .strm
  | .core _ _ => .core
  | .bar _ _ => .bar
  | .line _ _ => .line
  | .dir _ _ => .dir
  | .vault _ _ => .vault
  | .slice _ _ => .slice
  | .hurt _ _ => .hurt
  | .cons _ => .cons
  | .stage _ _ => .stage
  | .order _ _ => .order
  | .fab _ => .fab
  | .port _ _ => .port
  | .job _ => .job
  | .mbox _ => .mbox
  | .sq _ _ => .sq
  | .sec _ => .sec
  | .pow _ => .pow
  | .clk _ => .clk
  | .restart _ => .restart
  | .cold => .restart
  | .log _ => .log
  | .mark _ => .log
  | .send _ => .send
  | .draw => .draw

/-- A part of the state is the same in two states. -/
def SamePart (s t : State) : Kind → Prop
  | .reg => t.ctl = s.ctl
  | .mem => t.mem = s.mem
  | .host => t.hostMem = s.hostMem
  | .flag => t.flags = s.flags
  | .strm => t.strms = s.strms
  | .core => t.cores = s.cores
  | .bar => t.bars = s.bars
  | .line => t.cache = s.cache
  | .dir => t.dir = s.dir
  | .vault => t.vaults = s.vaults
  | .slice => t.slices = s.slices
  | .hurt => t.hurt = s.hurt
  | .cons => t.cons = s.cons
  | .stage => t.stages = s.stages
  | .order => t.orders = s.orders
  | .fab => t.fab = s.fab
  | .port => t.ports = s.ports
  | .job => t.job = s.job
  | .mbox => t.mbox = s.mbox
  | .sq => t.sqs = s.sqs
  | .sec => t.sec = s.sec
  | .pow => t.pow = s.pow
  | .clk => t.clk = s.clk
  | .restart => t.pending = s.pending
  | .log => t.ledger = s.ledger
  | .send => t.sent = s.sent
  | .draw => t.free = s.free

/-- Every part of the state but the listed ones is the same. -/
def ChangesOnly (ks : List Kind) (s t : State) : Prop := ∀ k, k ∉ ks → SamePart s t k

/-- The SEQ numbers of the events held run down from the next one without a gap (16 R446). -/
def Ledger.Dense (l : Ledger) : Prop := ∀ i e, l.events[i]? = some e → e.seq + i + 1 = l.next

/-- What every step keeps: each register word holds only bits its table gives it (00 R10), byte memories and sparse maps are in
canonical form, the Ledger holds at most its ring and its Custodian copy, densely numbered (16 R446), and every taint it still follows
is recorded. -/
structure StateInv (s : State) : Prop where
  ctl    : NMap.Rising s.ctl
  words  : ∀ e ∈ s.ctl, e.2 &&& wordMask e.1 = e.2
  mem    : Memory.wf s.mem
  host   : Memory.wf s.hostMem
  flags  : NMap.Rising s.flags
  strms  : NMap.Rising s.strms
  cores  : NMap.Rising s.cores
  bars   : NMap.Rising s.bars
  cache  : NMap.Rising s.cache
  dir    : NMap.Rising s.dir
  vaults : NMap.Rising s.vaults
  slices : NMap.Rising s.slices
  hurt   : NMap.Rising s.hurt
  stages : NMap.Rising s.stages
  orders : NMap.Rising s.orders
  ports  : NMap.Rising s.ports
  sqs    : NMap.Rising s.sqs
  ring   : s.ledger.events.length ≤ 1048576
  tail   : s.ledger.tail.length ≤ 4096
  dense  : s.ledger.Dense
  taint  : ∀ c ∈ s.ledger.live, c ∈ s.ledger.taint

/-! The commands of one shape, by row. -/

/-- The VECTOR rows: opcode, operation and command (03 R93 Table 11). -/
def vecRows : List (Nat × VecOp × (Nat → Nat → Instr)) :=
  [(0x00, .add, .vecAdd), (0x01, .sub, .vecSub), (0x02, .mul, .vecMul), (0x03, .fma, .vecFma), (0x04, .max, .vecMax),
   (0x05, .min, .vecMin), (0x06, .scale, .vecScale), (0x07, .convert, .vecConvert), (0x10, .fn .exp, .vecExp),
   (0x11, .fn .log, .vecLog), (0x12, .fn .recip, .vecRecip), (0x13, .fn .rsqrt, .vecRsqrt), (0x14, .fn .sqrt, .vecSqrt),
   (0x15, .fn .tanh, .vecTanh), (0x16, .fn .sigmoid, .vecSigmoid), (0x17, .fn .erf, .vecErf), (0x20, .rowSum, .rowSum),
   (0x21, .rowMax, .rowMax), (0x22, .rowSumsq, .rowSumsq), (0x23, .rowSoftmax, .rowSoftmax)]

/-- The rows of the arrays: class, opcode, job and command (03 R84, R89, R92; 05 R138, R151). -/
def arrayRows : List (Nat × Nat × (State → Nat → Block64 → ArrayJob) × (Nat → Nat → Instr)) :=
  [(0x03, 0, gemmJob, .gemm), (0x03, 1, eltwiseJob, .eltwise), (0x04, 0, groupedJob, .grouped), (0x06, 0, wgradJob, .wgrad),
   (0x06, 1, wgradRaggedJob, .wgradRagged)]

/-- Memory with pieces written in order. -/
def setPieces (m : List Host.Cell) (ps : List (Nat × List Byte)) : List Host.Cell :=
  ps.foldl (fun m p => p.2.zipIdx.foldl (fun m b => setByte m (p.1 + b.2) b.1) m) m

/-- ROUTE over some tokens of `m` (06 R160), the routes of each expert so far being `counts`: each token's row is read from the memory `mem`
that the tokens before it leave, and its slots are written there. Gives that memory, the tokens written with their slots, and the token that
stops it. -/
def routeOn (l : Layer) (m : Nat) : List Nat → List Nat → List Host.Cell → State →
    List Host.Cell × List (Nat × List Slot) × Option Nat
  | _, [], mem, _ => (mem, [], none)
  | counts, t :: r, mem, s =>
    match { s with mem := mem }.tokenSlots l m l.rank counts t with
    | none => (mem, [], some t)
    | some slots =>
      let x := routeOn l m (countRoutes counts slots) r (setPieces mem (slots.zipIdx.map fun y => (slotAddr l t y.2, y.1.bytes))) s
      (x.1, (t, slots) :: x.2.1, x.2.2)

/-- The bytes a drain may write: its output and saved tensor, its census record and its replay word (04 R111–R126). -/
def drainBytes (j : DrainJob) (s : State) (ps : List (Nat × List Byte)) (a : Nat) : Prop :=
  (∃ p ∈ ps, p.1 ≤ a ∧ a < p.1 + p.2.length) ∨
  (j.censusEn = true ∧ lsAddr j.core j.censusAddr ≤ a ∧ a < lsAddr j.core j.censusAddr + 64) ∨
  (j.ovfAction = 1 ∧ j.replayAddr s ≤ a ∧ a < j.replayAddr s + 8)

/-- The rows of the mailboxes and I3C: opcode, what the request says, and command (13 R385 Table 3, R480; 15 R429, R438). -/
def viaRows (flushOk : Bool) : List (Nat × (List Byte → Bool) × (Via → Instr)) :=
  [(0x0001, anyReq, .getIdentity), (0x0002, anyReq, .getVersion), (0x0003, anyReq, .loadFirmware), (0x0010, anyReq, .ownClaim),
   (0x0011, anyReq, .ownRelease), (0x0020, anyReq, .repairApply), (0x0021, anyReq, .repairRead), (0x0030, anyReq, .jobLoad),
   (0x0031, anyReq, .jobStart), (0x0032, reqIs 0 4 fun x => x % 2 == 0, .jobStopBoundary), (0x0032, reqIs 0 4 fun x => x % 2 == 1, .jobStopNow)] ++
  [(0x0033, anyReq, .jobUnload), (0x0034, anyReq, .jobStatus), (0x0035, anyReq, .setEpoch), (0x0040, reqIs 0 4 (· == 0), .ledgerQueryCommand),
   (0x0040, reqIs 0 4 (· == 1), .ledgerQueryRemote), (0x0040, reqIs 0 4 (· == 2), .ledgerQueryCommit),
   (0x0040, reqIs 0 4 (· == 3), .ledgerQueryRead), (0x0041, anyReq, .health), (0x0051, reqIs 0 4 (· == 0), .debugUnlockChallenge),
   (0x0051, reqIs 0 4 (· == 1), .debugUnlockSubmit), (0x0051, reqIs 0 4 (· == 2), .debugUnlockCancel)] ++
  [(0x0050, spdmIs 0x84, .spdmGetVersion), (0x0050, spdmIs 0xE1, .spdmGetCapabilities), (0x0050, spdmIs 0xE3, .spdmNegotiateAlgorithms),
   (0x0050, spdmIs 0x81, .spdmGetDigests), (0x0050, spdmIs 0x82, .spdmGetCertificate), (0x0050, spdmIs 0x83, .spdmChallenge),
   (0x0050, spdmIs 0xE0, .spdmGetMeasurements), (0x0050, fun bs => !spdmCodes.any fun code => spdmIs code bs, .spdmUnsupported)] ++
  [(0x0F00, anyReq, .custIdentity), (0x0F01, anyReq, .custQuote), (0x0F02, anyReq, .custHealth), (0x0F03, anyReq, .custLedgerTail),
   (0x0F04, reqIs 0 4 fun x => x % 2 == 0, .custReset), (0x0F04, reqIs 0 4 fun x => x % 2 == 1, .custResetKeepHbm),
   (0x0F05, anyReq, fun via => .custPowerDown via flushOk), (0x0F06, anyReq, .custInjectOff), (0x0F07, anyReq, .custTime)]

/-- The path `via`, which is mailbox `m` (7 for I3C), holds this request under this opcode, and its server can take it: the mailbox is not
BUSY and nothing is in service or waits, or the Custodian is up with an I3C address. -/
def State.takes (s : State) (via : Via) (m op : Nat) (req : List Byte) : Prop :=
  match via with
  | .mailbox k => k = m ∧ m < 8 ∧ s.fld (Reg.htxMbOpcode m) = op ∧ s.fld (Reg.htxMbState m) ≠ 1 ∧ req = s.mbReq m ∧
      s.mbox.running = none ∧ s.mbox.waiting = []
  | .i3c _ r => m = 7 ∧ r = req ∧ s.pow.custUp = true ∧ s.pow.i3c.isSome = true

/-- The accession number the next command of mailbox `m` takes (13 R381). -/
def State.mbNext (s : State) (m : Nat) : Nat := ((nget s.mbox.last m).getD 0 + 1) % 2 ^ 48

/-- The state in which the server of a mailbox or I3C path looks at a JOB_LOAD: taken, started, and the free value of its work drawn. -/
def State.loading (s : State) (via : Via) : State :=
  run (seq (match via with
    | .mailbox m => seq (goBegin m) (withS fun t => startServed (t.servedOn m))
    | .i3c _ _ => skip) (drawFree fun _ => skip)) s

/-- The mailbox shows that its command is done, with its status, its reply and the reply's length (13 R381). -/
def State.shows (t : State) (m : Nat) (st : Status) (bs : List Byte) : Prop :=
  t.fld (Reg.htxMbState m) = 2 ∧ t.fld (Reg.htxMbStatus m) = statusCode st ∧ t.fld (Reg.htxMbReplyLen m) = bs.length ∧
  (t.ctlBytes (mbBase m + 0x40) (bs.length + 3)).take bs.length = bs

/-- From `s` the command on the path has ended in `t`, with its status and its reply: on a mailbox by an END in the Ledger and in its block,
on I3C by the reply sent (16 R457). -/
def Answered (via : Via) (s t : State) (st : Status) (bs : List Byte) : Prop :=
  match via with
  | .mailbox m => EndedNow t (.mailbox m) (s.mbNext m) st ∧ t.shows m st bs
  | .i3c _ _ => t.sent.getLast? = some (.i3c (leBytes 2 (statusCode st) ++ leBytes 2 bs.length ++ bs))

end Sys2Proof.Machine
end

