-- ==== Sys2Proof/Certificates/Slice0/Obligations.lean ====
section
/-! DEFINITION. The statements for the provers. -/

open Sys2Proof Sys2Proof.Machine

/-- A step runs the command at the front of the queue. For every state whose queue of waiting commands begins with c, one step is the
command c executed on the state with the rest of the queue, whatever exec answers for it. -/
def Obligations.StepRunsTheFrontCommand : Prop :=
  ∀ (s : State) (c : Instr) (rest : List Instr), s.pending = c :: rest → step s = exec c (s.popped rest)

/-- A step on an empty queue changes nothing. The model's own choice (log entry 34), not a rule of the spec: with no command waiting, a step
answers the same state. The time the manual counts in cycles is left out. -/
def Obligations.EmptyQueueIdles : Prop :=
  ∀ s : State, s.pending = [] → step s = .next s

/-- No word spells a command. The table of commands gives its rows no bits, so decodeTableWord answers none for every word, and putting a
word in front of the queue leaves the state as it is. -/
def Obligations.NoWordSpellsACommand : Prop :=
  (∀ nbits w : Nat, Sys2Proof.decodeTableWord nbits w = none) ∧ ∀ (s : State) (nbits w : Nat), s.withFetchWord nbits w = s

/-- No command touches the queue or takes back what was sent. Whatever command completes, the queue of waiting commands is as it was, every
message already sent stays at the front of the list of messages sent, in order, and the counter of free values (the model's own, log entry
1) never goes back. -/
def Obligations.CommandsKeepTheQueueAndTheOutputs : Prop :=
  ∀ (i : Instr) (s t : State), exec i s = .next t → t.pending = s.pending ∧ s.sent <+: t.sent ∧ s.free ≤ t.free

/-- The state after reset holds the invariant. Right after reset the invariant StateInv holds: nothing is listed in the memories, the
registers or the Ledger. -/
def Obligations.ResetHoldsTheInvariant : Prop :=
  StateInv State.reset

/-- Every step keeps the invariant. From every state that holds StateInv, whatever command is at the front of the queue and whatever its
operands, a step that answers a next state leaves a state that holds StateInv. No reserved register bit ever becomes 1 (R10), the byte
memories and every sparse map keep their canonical form, the Ledger's events are numbered without a gap and never outgrow their ring of
1,048,576 and the Custodian's 4,096 (R446), and every taint still followed is recorded (R449). -/
def Obligations.EveryStepKeepsTheInvariant : Prop :=
  ∀ s t : State, StateInv s → step s = .next t → StateInv t

/-- A reserved register field reads as zero and ignores writes. After every step from a state that holds StateInv, whatever was written,
every word of the control space reads without a bit outside the fields its register table gives it; so does every word at reset; and writing
any value to a word leaves exactly the bits its table gives it. -/
def Obligations.ReservedRegisterBitsReadZero : Prop :=
  (∀ s t : State, StateInv s → step s = .next t → ∀ o, t.word o &&& ~~~ wordMask o = 0) ∧
  (∀ o, State.reset.word o &&& ~~~ wordMask o = 0) ∧
  (∀ (s : State) (off : Nat) (v : Word), ((Eff.reg off v).apply s).word off = v &&& wordMask off)

/-- SET, ADD and MAX change one flag and name who did it. On a core in service and flags 0 to 47, FLAG_SET leaves the value given, FLAG_ADD
the sum modulo 2^32 and FLAG_MAX the larger of the two unsigned, each with the signaller recorded; every other flag, and everything but
flags, streams that wait and cores that sleep, is as it was. A flag that does not exist, or one of a core out of service, takes nothing: the
state stays. -/
def Obligations.FlagOperationsSetAddAndMax : Prop :=
  ∀ (core flag v : Nat) (g : Signaller) (s : State),
    (core < 256 → flag < 48 → s.outOfService core = false →
      (Does (.flagSet core flag v g) s fun t => t.flagAt core flag = ⟨BitVec.ofNat 32 v, g⟩ ∧
        (∀ k, k ≠ 64 * core + flag → nget t.flags k = nget s.flags k) ∧ ChangesOnly [.flag, .strm, .core] s t) ∧
      (Does (.flagAdd core flag v g) s fun t => t.flagAt core flag = ⟨(s.flagAt core flag).val + BitVec.ofNat 32 v, g⟩ ∧
        (∀ k, k ≠ 64 * core + flag → nget t.flags k = nget s.flags k) ∧ ChangesOnly [.flag, .strm, .core] s t) ∧
      (Does (.flagMax core flag v g) s fun t =>
        t.flagAt core flag = ⟨if (s.flagAt core flag).val.toNat < v % 2 ^ 32 then BitVec.ofNat 32 v else (s.flagAt core flag).val, g⟩ ∧
        (∀ k, k ≠ 64 * core + flag → nget t.flags k = nget s.flags k) ∧ ChangesOnly [.flag, .strm, .core] s t)) ∧
    ((256 ≤ core ∨ 48 ≤ flag ∨ s.outOfService core = true) →
      exec (.flagSet core flag v g) s = .next s ∧ exec (.flagAdd core flag v g) s = .next s ∧ exec (.flagMax core flag v g) s = .next s)

/-- A doorbell writes the tail modulo the ring. On every stream, a doorbell leaves in STRM_TAIL the value written without its bits at and
above STRM_SIZE (and within the field's 16 bits). Every other register word, but for STATE and the counts of the core's units that follow
it, is unchanged, and beside registers only a gated core wakes. A stream id that does not exist takes nothing. -/
def Obligations.DoorbellWritesTheTail : Prop :=
  ∀ (sid tail : Nat) (s : State),
    (sid < 1088 → Does (.doorbell sid tail) s fun t =>
      t.fld (Reg.strmTail sid) = tail % 2 ^ s.fld (Reg.strmSize sid) % 2 ^ 16 ∧
      KeepsWords ((Reg.strmTail sid).off :: stateWords sid) s t ∧ ChangesOnly [.reg, .core] s t) ∧
    (1088 ≤ sid → exec (.doorbell sid tail) s = .next s)

/-- ENABLE takes 1 only for a ring in HBM or one backed scratchpad half, and 0 always. A write of 1 to ENABLE sets it when the stream's
core, if it has one, is in service, its package is no lender, and the ring lies in HBM or one backed scratchpad half. Otherwise ENABLE is 0
and LAST_STATUS holds UNIT_FAULT for a core out of service, SEQUENCE_FAULT for a core stream of a lender, else ADDRESS_FAULT. A write of 0
clears ENABLE and abandons a wait in progress (one whose condition has held stays woken); the held, issued and faulted commands stay. No
other word than the stream's control and state words and the units' counts changes. -/
def Obligations.StreamEnableAndDisable : Prop :=
  ∀ (sid : Nat) (s : State), sid < 1088 →
    let away := sid < 1024 ∧ s.outOfService (sid / 4) = true
    let lent := sid < 1024 ∧ s.fld (Reg.btrLendMode 0) = 1
    (¬ away → ¬ lent → s.ringOk sid = true → Does (.streamEnable sid) s fun t =>
      t.fld (Reg.strmEnable sid) = 1 ∧ t.fld (Reg.strmLastStatus sid) = s.fld (Reg.strmLastStatus sid) ∧
      KeepsWords ((Reg.strmEnable sid).off :: stateWords sid) s t ∧ ChangesOnly [.reg, .core] s t) ∧
    ((away ∨ lent ∨ s.ringOk sid = false) → Does (.streamEnable sid) s fun t =>
      t.fld (Reg.strmEnable sid) = 0 ∧
      t.fld (Reg.strmLastStatus sid) =
        (if sid < 1024 ∧ s.outOfService (sid / 4) = true then 0x0032
         else if sid < 1024 ∧ s.fld (Reg.btrLendMode 0) = 1 then 0x0004 else 0x0002) ∧
      KeepsWords ((Reg.strmEnable sid).off :: stateWords sid) s t ∧ ChangesOnly [.reg] s t) ∧
    (Does (.streamDisable sid) s fun t =>
      t.fld (Reg.strmEnable sid) = 0 ∧ t.strm sid = { s.strm sid with wait := (s.strm sid).wait.kept } ∧
      (∀ j, j ≠ sid → t.strm j = s.strm j) ∧
      KeepsWords ((Reg.strmEnable sid).off :: stateWords sid) s t ∧ ChangesOnly [.reg, .strm, .core] s t)

/-- Resumes and RESET of a stream. A resume of a stream that is not halted changes nothing. On a halted stream with commands still running
it is kept until they have ended. With none running and no RESET in progress, RESUME_SKIP drops the faulted commands and takes up the held
ones as they are; RESUME_RETRY drops them too and fetches each one's ring slot again, in ring order (where R45's two orders disagree, the
model's choice, log entry 50), ahead of those held. RESET discards the held commands, one END event each; with none running it leaves the
stream empty with head, tail and ENABLE 0, else it waits for those running. -/
def Obligations.ResumeAndResetOfAStream : Prop :=
  ∀ (sid : Nat) (s : State), sid < 1088 →
    let x := s.strm sid
    (x.halted = false → exec (.resumeSkip sid) s = .next s ∧ exec (.resumeRetry sid) s = .next s) ∧
    (x.halted = true → x.issued ≠ [] →
      (Does (.resumeSkip sid) s fun t => t.strm sid = { x with resume := .skip } ∧ KeepsWords (stateWords sid) s t) ∧
      (Does (.resumeRetry sid) s fun t => t.strm sid = { x with resume := .retry } ∧ KeepsWords (stateWords sid) s t)) ∧
    (x.halted = true → x.issued = [] → x.resetting = false →
      (Does (.resumeSkip sid) s fun t =>
        t.strm sid = { x with halted := false, faulted := [], resume := .none } ∧ KeepsWords (stateWords sid) s t) ∧
      (Does (.resumeRetry sid) s fun t =>
        (t.strm sid).halted = false ∧ (t.strm sid).faulted = [] ∧ (t.strm sid).issued = [] ∧
        (t.strm sid).ahead.map (·.slot) = (inRingOrder x.faulted).map (·.slot) ++ x.ahead.map (·.slot))) ∧
    (x.issued = [] → Does (.streamReset sid) s fun t =>
      t.strm sid = Strm.reset ∧ t.fld (Reg.strmHead sid) = 0 ∧ t.fld (Reg.strmTail sid) = 0 ∧ t.fld (Reg.strmEnable sid) = 0 ∧
      t.ledger.next = s.ledger.next + x.ahead.length) ∧
    (x.issued ≠ [] → Does (.streamReset sid) s fun t =>
      t.strm sid = { x with ahead := [], wait := .idle, resetting := true, resume := .none } ∧
      t.ledger.next = s.ledger.next + x.ahead.length)

/-- A fetch reads the slot at the head and numbers the command. On an enabled stream, neither halted nor in a RESET, with a command in its
ring and fewer than 8 held, a fetch adds behind those held the 64 bytes at the head's slot under the stream's next accession number; the
head moves on by one modulo the ring and the number by one modulo 2^48. On any other stream a fetch changes nothing. -/
def Obligations.CommandFetchTakesTheNextNumber : Prop :=
  ∀ (sid : Nat) (s : State),
    (sid < 1088 → s.mayIssue sid = true → s.fld (Reg.strmHead sid) ≠ s.fld (Reg.strmTail sid) → (s.strm sid).ahead.length < 8 →
      Does (.commandFetch sid) s fun t =>
        (∃ c : Cmd, t.strm sid = { s.strm sid with ahead := (s.strm sid).ahead ++ [c] } ∧ c.acc = s.accNext sid ∧
          c.slot = s.fld (Reg.strmHead sid) ∧ c.pred = none ∧ c.first = s.accNext sid ∧ c.started = false ∧
          c.desc = BitVec.ofNat 512 (s.readNat (s.ringBase sid + 64 * s.fld (Reg.strmHead sid)) 64)) ∧
        t.fld (Reg.strmHead sid) = (s.fld (Reg.strmHead sid) + 1) % 2 ^ s.fld (Reg.strmSize sid) % 2 ^ 16 ∧
        t.accNext sid = (s.accNext sid + 1) % 2 ^ 48 ∧ (∀ j, j ≠ sid → t.strm j = s.strm j) ∧
        ChangesOnly [.reg, .strm, .core, .line, .send, .draw] s t) ∧
    ((1088 ≤ sid ∨ s.mayIssue sid = false ∨ s.fld (Reg.strmHead sid) = s.fld (Reg.strmTail sid) ∨ 8 ≤ (s.strm sid).ahead.length) →
      exec (.commandFetch sid) s = .next s)

/-- The oldest held command issues when its wait condition holds. On a stream that may issue, with command c at the front of those held and
no wait begun: a command that fails the header's checks ends with that status. One with no wait, or whose condition holds, whose unit has
room and that is not ORDERED behind running commands, moves to the issued ones when it is the stream's turn in its core's round robin,
records who satisfied its wait and its turn, and appends an ISSUE event; the core notes which stream issued last. Out of turn nothing
changes. One whose condition does not hold stays held, and watches its flag, or polls it when the flag's core holds 64 watches. -/
def Obligations.CommandIssueWaitsOrIssues : Prop :=
  ∀ (sid : Nat) (s : State) (c : Cmd) (r : List Cmd), sid < 1088 → s.mayIssue sid = true → (s.strm sid).ahead = c :: r →
    (∀ st, s.earlyFault sid c = some st → Ends (.commandIssue sid) s (.stream sid) c.acc st) ∧
    (s.earlyFault sid c = none → (s.strm sid).wait = .idle →
      ((dWaitCond c.desc = 0 ∨ s.waitHolds c.desc = true) → s.unitHasRoom sid c.desc = true →
        (isOrdered c.desc = true → (s.strm sid).issued = []) →
        (s.hasTurn sid = false → exec (.commandIssue sid) s = .next s) ∧
        (s.hasTurn sid = true → Does (.commandIssue sid) s fun t =>
          t.strm sid = { s.strm sid with ahead := r, wait := .idle, issued := (s.strm sid).issued ++
            [{ c with sig := (if dWaitCond c.desc = 0 then .none else s.waitSig c.desc), turn := (s.core (sid / 4)).turns }] } ∧
          (sid < 1024 → t.core (sid / 4) = { s.core (sid / 4) with last := sid % 4, turns := (s.core (sid / 4)).turns + 1 }) ∧
          Logged t (.stream sid) c.acc .ok (.issue (dClass c.desc) (dOp c.desc) (dRestart c.desc) c.pred) ∧
          ChangesOnly [.reg, .strm, .core, .log] s t)) ∧
      (dWaitCond c.desc ≠ 0 → s.waitHolds c.desc = false → Does (.commandIssue sid) s fun t =>
        t.strm sid = { s.strm sid with
          wait := (if dWaitBar c.desc = false ∧ 64 ≤ s.watchCount (dWaitCore c.desc) then .polling else .watching) } ∧
        ChangesOnly [.reg, .strm, .draw] s t))

/-- Timeouts, polls, late arrivals and clock gating. When the timeout of the oldest held command expires while its wait does not hold, the
command ends with TIMEOUT. A poll that finds the condition holding wakes its stream with the flag's signaller. A late arrival is counted
where its unit counts them, if the counter has room, and logged with the new count. A core all of whose streams and units are idle or
waiting, with gating on, gates its clocks and nothing else changes. -/
def Obligations.WaitsEndAndLateArrivals : Prop :=
  (∀ (sid acc : Nat) (s : State) (c : Cmd) (r : List Cmd), sid < 1088 → (s.strm sid).ahead = c :: r → c.acc = acc → dTimeout c.desc ≠ 0 →
    ((s.strm sid).wait = .watching ∨ (s.strm sid).wait = .polling) → s.waitHolds c.desc = false →
    Ends (.waitTimeout sid acc) s (.stream sid) acc .timeout) ∧
  (∀ (sid : Nat) (s : State) (c : Cmd) (r : List Cmd), (s.strm sid).ahead = c :: r → (s.strm sid).wait = .polling →
    s.waitHolds c.desc = true → Does (.watchPoll sid) s fun t =>
      t.strm sid = { s.strm sid with wait := .woken (s.waitSig c.desc) } ∧ (∀ j, j ≠ sid → t.strm j = s.strm j) ∧
      ChangesOnly [.strm, .core] s t) ∧
  (∀ (u : LateUnit) (s : State), (match u with
      | .stream sid => sid < 1088
      | .group g => g < 64
      | .coherence d => d < 2
      | _ => True) →
    s.fld (lateFld u) + 1 < 2 ^ (lateFld u).w →
    Does (.lateArrival u) s fun t => t.fld (lateFld u) = s.fld (lateFld u) + 1 ∧
      Logged t (lateSrc u) 0 .timeout (.late u (s.fld (lateFld u) + 1)) ∧ ChangesOnly [.reg, .log] s t) ∧
  (∀ (n : Nat) (s : State), n < 256 → s.mayGate n = true → Does (.coreGate n) s fun t =>
    t.core n = { s.core n with gated := true } ∧ (∀ m, m ≠ n → t.core m = s.core m) ∧ ChangesOnly [.core] s t)

/-- A NOP ends with OK and applies its signal. An issued NOP ends with OK. With SIG_EN at 1 and a flag that exists on a core in service, the
flag then holds the result of SIG_OP and names the command as the one that set it; with SIG_EN at 0 every flag keeps its value. No memory
byte changes, and no register outside those that the end of a command changes. -/
def Obligations.NopAppliesItsSignal : Prop :=
  ∀ (sid acc : Nat) (s : State) (c : Cmd), s.issuedCmd sid acc 0x01 0 = some c → Does (.nop sid acc) s fun t =>
    EndedNow t (.stream sid) acc .ok ∧
    (dSigEn c.desc = true → dSigFlag c.desc < 48 → s.outOfService (dSigCore c.desc) = false →
      t.flagAt (dSigCore c.desc) (dSigFlag c.desc) =
        ⟨flagResult (dSigOp c.desc) (s.flagAt (dSigCore c.desc) (dSigFlag c.desc)).val (BitVec.ofNat 32 (dSigValue c.desc)), .stream sid acc⟩) ∧
    (dSigEn c.desc = false → t.flags = s.flags) ∧
    KeepsOutside (endWord sid) s t ∧ ChangesOnly [.reg, .flag, .strm, .core, .line, .log, .send, .draw] s t

/-- A DOORBELL adds ADVANCE to the target's tail modulo its entry count. An issued DOORBELL whose TARGET is a stream ends with OK. Its
target's tail is then the old tail plus ADVANCE modulo the target's entry count (within the field's 16 bits), the target enabled or not,
unless the target is the command's own stream and a RESET of it was waiting for the command. With ADVANCE 0 it ends with OK and the tail,
and every word outside those of a command's end, stays. A disabled target fetches nothing; once enabled, with room among the held commands
and commands in its ring, it fetches. -/
def Obligations.SyncDoorbellAddsToTheTail : Prop :=
  ∀ (sid acc : Nat) (s : State) (c : Cmd), sid < 1088 → s.issuedCmd sid acc 0x01 3 = some c →
    let target := dfld c.desc 8 0 11
    let advance := dfld c.desc 9 0 16
    target < 1088 →
    (advance ≠ 0 → (target ≠ sid ∨ (s.strm sid).resetting = false) → Does (.syncDoorbell sid acc) s fun t =>
      EndedNow t (.stream sid) acc .ok ∧
      t.fld (Reg.strmTail target) = (s.fld (Reg.strmTail target) + advance) % 2 ^ s.fld (Reg.strmSize target) % 2 ^ 16 ∧
      KeepsOutside (fun o => endWord sid o ∨ o = (Reg.strmTail target).off ∨ o ∈ stateWords target) s t) ∧
    (advance = 0 → Does (.syncDoorbell sid acc) s fun t =>
      EndedNow t (.stream sid) acc .ok ∧ KeepsOutside (endWord sid) s t ∧
      (target ≠ sid ∨ (s.strm sid).resetting = false → t.fld (Reg.strmTail target) = s.fld (Reg.strmTail target))) ∧
    (∀ u : State, u.fld (Reg.strmEnable target) = 0 → exec (.commandFetch target) u = .next u) ∧
    (∀ u : State, u.mayIssue target = true → u.fld (Reg.strmHead target) ≠ u.fld (Reg.strmTail target) → (u.strm target).ahead.length < 8 →
      Does (.commandFetch target) u fun t => (t.strm target).ahead.length = (u.strm target).ahead.length + 1)

/-- BARRIER_ARRIVE and ARRIVE_WAIT by what their arrival comes to. A refused arrival ends its command with the status of the first rule that
refuses it and counts in RGS_BAR_REFUSED. At an enabled channel without participants either command ends with OK and nothing is counted. A
counted arrival that is not the last of its generation leaves BARRIER_ARRIVE ended with OK and ARRIVE_WAIT waiting, with the arrival
recorded. The last one moves the generation to the next modulo 2^32 and clears the arrivals; BARRIER_ARRIVE ends with OK, and so does an
ARRIVE_WAIT when no other waits there. A waiting ARRIVE_WAIT whose generation has passed ends with OK. -/
def Obligations.BarrierArrivalsAreJudged : Prop :=
  ∀ (sid acc : Nat) (s : State) (c : Cmd),
    let ch := dfld c.desc 8 0 3
    let gen := dword c.desc 9
    let who := participantOf sid
    let all := (s.participants ch).all fun p => ((s.bar ch).arrived ++ [who]).contains p
    (s.issuedCmd sid acc 0x01 1 = some c → c.phase = 0 →
      (∀ st, s.judgeArrival ch who gen = .refused st → Ends (.barrierArrive sid acc) s (.stream sid) acc st ∧
        (s.fld (Reg.rgsBarRefused ch) + 1 < 2 ^ 16 → Does (.barrierArrive sid acc) s fun t =>
          t.fld (Reg.rgsBarRefused ch) = s.fld (Reg.rgsBarRefused ch) + 1 ∧ t.bar ch = s.bar ch)) ∧
      (s.judgeArrival ch who gen = .empty → Does (.barrierArrive sid acc) s fun t =>
        EndedNow t (.stream sid) acc .ok ∧ t.bars = s.bars ∧ t.fld (Reg.rgsBarGen ch) = s.fld (Reg.rgsBarGen ch) ∧
        t.fld (Reg.rgsBarRefused ch) = s.fld (Reg.rgsBarRefused ch)) ∧
      (s.judgeArrival ch who gen = .counted → all = false → Does (.barrierArrive sid acc) s fun t =>
        EndedNow t (.stream sid) acc .ok ∧ (t.bar ch).arrived = (s.bar ch).arrived ++ [who] ∧
        t.fld (Reg.rgsBarGen ch) = s.fld (Reg.rgsBarGen ch)) ∧
      (s.judgeArrival ch who gen = .counted → all = true → Does (.barrierArrive sid acc) s fun t =>
        EndedNow t (.stream sid) acc .ok ∧ (t.bar ch).arrived = [] ∧
        t.fld (Reg.rgsBarGen ch) = (s.fld (Reg.rgsBarGen ch) + 1) % 2 ^ 32)) ∧
    (s.issuedCmd sid acc 0x01 2 = some c →
      (c.phase = 0 →
        (∀ st, s.judgeArrival ch who gen = .refused st → Ends (.arriveWait sid acc) s (.stream sid) acc st) ∧
        (s.judgeArrival ch who gen = .empty → Does (.arriveWait sid acc) s fun t =>
          EndedNow t (.stream sid) acc .ok ∧ t.bars = s.bars ∧ t.fld (Reg.rgsBarGen ch) = s.fld (Reg.rgsBarGen ch)) ∧
        (s.judgeArrival ch who gen = .counted → all = false → Does (.arriveWait sid acc) s fun t =>
          t.strm sid = { s.strm sid with issued := (s.strm sid).issued.map fun d => if d.acc = acc then { d with phase := 1 } else d } ∧
          (t.bar ch).arrived = (s.bar ch).arrived ++ [who] ∧ t.fld (Reg.rgsBarGen ch) = s.fld (Reg.rgsBarGen ch) ∧ t.ledger = s.ledger) ∧
        (s.judgeArrival ch who gen = .counted → all = true → Does (.arriveWait sid acc) s fun t =>
          (t.bar ch).arrived = [] ∧ t.fld (Reg.rgsBarGen ch) = (s.fld (Reg.rgsBarGen ch) + 1) % 2 ^ 32 ∧
          (s.barrierWaiters ch = [] → EndedNow t (.stream sid) acc .ok))) ∧
      (c.phase = 1 → condHolds 1 (s.fld (Reg.rgsBarGen ch)) ((gen + 1) % 2 ^ 32) = true → Ends (.arriveWait sid acc) s (.stream sid) acc .ok))

/-- TASK_BEGIN records a snapshot and TASK_END compares it. TASK_BEGIN of a core stream ends with SEQUENCE_FAULT when a task is open on the
core and with FLAG_FAULT when its flag fault stands; else it ends with OK, the task is open with its mask, and the snapshot holds the masked
flags. TASK_END ends with SEQUENCE_FAULT when no task is open. Otherwise it closes the task: with every masked flag at its snapshot it ends
with OK; else it sets the flag fault and the residue of the differing flags, and ends with FLAG_FAULT (as the newest event, when no command
waits on a masked flag). The commands that wait on a masked flag are taken to be of streams that exist. -/
def Obligations.TasksCheckTheirMaskedFlags : Prop :=
  ∀ (sid acc : Nat) (s : State) (c : Cmd), sid < 1024 →
    let n := sid / 4
    let diff := (s.core n).snap.filter fun p => (s.flagAt n p.1).val != p.2
    let residue := (diff.map fun p => 2 ^ p.1).foldl (· + ·) 0
    (s.issuedCmd sid acc 0x01 4 = some c →
      (s.fld (Reg.coreTaskOpen n) = 1 → Ends (.taskBegin sid acc) s (.stream sid) acc .sequenceFault) ∧
      (s.fld (Reg.coreTaskOpen n) = 0 → s.fld (Reg.coreFlagFault n) = 1 → Ends (.taskBegin sid acc) s (.stream sid) acc .flagFault) ∧
      (s.fld (Reg.coreTaskOpen n) = 0 → s.fld (Reg.coreFlagFault n) = 0 → Does (.taskBegin sid acc) s fun t =>
        EndedNow t (.stream sid) acc .ok ∧ t.fld (Reg.coreTaskOpen n) = 1 ∧ t.fld (Reg.coreTaskMaskLo n) = dword c.desc 8 ∧
        t.fld (Reg.coreTaskMaskHi n) = dfld c.desc 9 0 16 ∧
        (t.core n).snap = ((List.range 48).filter fun i => bit (dword c.desc 8 + 2 ^ 32 * dfld c.desc 9 0 16) i).map fun f => (f, (s.flagAt n f).val))) ∧
    (s.issuedCmd sid acc 0x01 5 = some c →
      (s.fld (Reg.coreTaskOpen n) = 0 → Ends (.taskEnd sid acc) s (.stream sid) acc .sequenceFault) ∧
      (s.fld (Reg.coreTaskOpen n) = 1 → diff = [] → Does (.taskEnd sid acc) s fun t =>
        EndedNow t (.stream sid) acc .ok ∧ t.fld (Reg.coreTaskOpen n) = 0 ∧ t.fld (Reg.coreFlagFault n) = s.fld (Reg.coreFlagFault n)) ∧
      (s.fld (Reg.coreTaskOpen n) = 1 → diff ≠ [] → (∀ w ∈ s.waitersOn n ((s.core n).snap.map (·.1)), w.1 < 1088) → Does (.taskEnd sid acc) s fun t =>
        t.fld (Reg.coreTaskOpen n) = 0 ∧ t.fld (Reg.coreFlagFault n) = 1 ∧
        t.fld (Reg.coreFlagResidueLo n) = residue % 2 ^ 32 ∧ t.fld (Reg.coreFlagResidueHi n) = residue / 2 ^ 32 % 2 ^ 16 ∧
        t.flags = s.flags ∧
        (s.waitersOn n ((s.core n).snap.map (·.1)) = [] → EndedNow t (.stream sid) acc .flagFault)))

/-- SHAPE_WRITE stores one shape word. SHAPE_WRITE to an 8-byte aligned address of HBM, a backed scratchpad half or a local store that its
stream may write, on a core in service and on no damaged line, ends with OK; the 8 bytes there then hold COUNT, the command's TAG as GEN and
its stream id as PRODUCER, and every other byte of memory is unchanged. A misplaced address ends it with ADDRESS_FAULT, one in the store of
a core out of service with UNIT_FAULT, one on a damaged line with that line's status; and then no byte changes. The memory is taken in its
canonical form. -/
def Obligations.ShapeWriteStoresItsWord : Prop :=
  ∀ (sid acc : Nat) (s : State) (c : Cmd), Memory.wf s.mem → s.issuedCmd sid acc 0x01 6 = some c →
    let a := daddr c.desc 10 11 12
    let placed := a % 8 = 0 ∧ shapeRange (s.extent a 8) = true ∧ s.reach (requesterOf sid) .write a 8 = true
    let away := ∃ n, coreOfAddr a = some n ∧ s.outOfService n = true
    let ends := fun st => ∃ t, exec (.shapeWrite sid acc) s = .next t ∧
      EndedNow t (.stream sid) acc st ∧ t.mem = s.mem ∧ KeepsOutside (endWord sid) s t
    (placed → ¬ away → s.writeHurt a 8 = none → ∃ t, exec (.shapeWrite sid acc) s = .next t ∧
      EndedNow t (.stream sid) acc .ok ∧
      bytesAt t.mem a 8 = leBytes 8 (dword c.desc 8 % 2 ^ 32 + dTag c.desc % 256 * 2 ^ 32 + sid % 2048 * 2 ^ 40) ∧
      KeepsBytes (fun x => a ≤ x ∧ x < a + 8) s t ∧ KeepsOutside (cmdWord sid) s t) ∧
    (¬ placed → ends .addressFault) ∧ (placed → away → ends .unitFault) ∧
    (∀ st, placed → ¬ away → s.writeHurt a 8 = some st → ends st)

/-- Every VECTOR command writes its results through its drain and ends. For each of the 20 VECTOR rows on a core stream: while a VECTOR
command its core issued before it is left, nothing changes. In its turn, a failed check of its class or shape word ends it with that status,
a count of zero ends it with OK, and neither stores a byte. A command that passes every check, whose gate is open, that reads, partly
overwrites and counts its event in no damaged line and meets no armed injection, ends with OK, or with LAYER_FAULT when its overflow event
asks for it. It stores into its output, saved tensor, census record and replay word alone; without a census and an event each byte written
holds the last piece of the drain's output there. Registers change only among those of the end, of memory accesses and of its core's units.
-/
def Obligations.VectorCommandsComplete : Prop :=
  ∀ r ∈ vecRows, ∀ (sid acc : Nat) (s : State) (c : Cmd), Memory.wf s.mem → sid < 1024 → s.issuedCmd sid acc 0x05 r.1 = some c →
    let v := r.2.1.job s sid c.desc
    let j := v.drainOf sid s
    let o := v.output j s
    let ps := o.2 ++ o.1.bytes
    (s.vectorTurn sid c = false → exec (r.2.2 sid acc) s = .next s) ∧ (s.vectorTurn sid c = true →
    (∀ st, v.cls.or v.shapes = some st → Does (r.2.2 sid acc) s fun t =>
      EndedNow t (.stream sid) acc st ∧ t.mem = s.mem ∧ KeepsOutside (endWord sid) s t) ∧
    (v.cls.or v.shapes = none → v.count = 0 → Does (r.2.2 sid acc) s fun t =>
      EndedNow t (.stream sid) acc .ok ∧ t.mem = s.mem ∧ KeepsOutside (endWord sid) s t) ∧
    (v.cls.or v.shapes = none → v.count ≠ 0 → (v.drain sid 0).elemExtent ≤ v.room →
      (∀ e ∈ v.exts sid, lsExtent e.1 e.2 = true) → s.readHurt (v.recAddr sid) 64 = none → j.faults s 0 = none → s.gate j = .open_ →
      s.anyHurt ((v.srcs.map fun x => (x.2.base, x.2.extent)) ++ drainReads j 0) = none → s.isArmed 0x03 (sid / 4) = false →
      s.piecesHurt (o.1.bytes ++ o.2) = none → (j.replays o.1 = true → s.readHurt (j.replayAddr s) 8 = none) →
      Does (r.2.2 sid acc) s fun t =>
        EndedNow t (.stream sid) acc (if j.layer o.1 = true then .layerFault else .ok) ∧
        (j.censusEn = false → j.event o.1 = false → ∀ a, byteAt t.mem a = (lastByte ps a).getD (byteAt s.mem a)) ∧
        KeepsBytes (drainBytes j s ps) s t ∧ KeepsOutside (drainWord sid) s t))

/-- GEMM, ELTWISE, GROUPED, WGRAD and WGRAD_RAGGED write through their drain and end. For each of the five rows on a core stream: a failed
check ends it with that status and an empty one with OK, storing nothing. A command that passes every check and names no failed array stays
issued, and nothing changes, while an array it has tiles on waits for the spare or has tiles of a command served before it. Otherwise, when
its gate is open, it touches no damaged line and meets no armed injection, it ends with OK, or with LAYER_FAULT when its overflow event asks
for it, and stores into its output, saved tensor, census record and replay word alone; without a census and an event each byte written holds
the last piece of the drain's output there. -/
def Obligations.ArrayCommandsComplete : Prop :=
  ∀ r ∈ arrayRows, ∀ (sid acc : Nat) (s : State) (c : Cmd), Memory.wf s.mem → sid < 1024 → s.issuedCmd sid acc r.1 r.2.1 = some c →
    let v := r.2.2.1 s sid c.desc
    let j := v.drainOf sid s
    let o := v.out j s
    let ps := o.2 ++ o.1.bytes
    let used := arraysUsed v.mask (v.tiles j s)
    (∀ st, v.cls.or v.shapes = some st → Does (r.2.2.2 sid acc) s fun t =>
      EndedNow t (.stream sid) acc st ∧ t.mem = s.mem ∧ KeepsOutside (endWord sid) s t) ∧
    (v.cls.or v.shapes = none → v.empty = true → Does (r.2.2.2 sid acc) s fun t =>
      EndedNow t (.stream sid) acc .ok ∧ t.mem = s.mem ∧ KeepsOutside (endWord sid) s t) ∧
    (v.cls.or v.shapes = none → v.empty = false → v.big = false →
      (∀ e ∈ v.exts ++ [(64 * v.drainOff, 64)], lsExtent e.1 e.2 = true) → s.readHurt (v.recAddr sid) 64 = none →
      j.faults s v.gradRows = none → Nat.land v.mask (s.fld (Reg.arrFailed (sid / 4))) = 0 →
      (((∃ a ∈ used, a ∈ (s.core (sid / 4)).sparing) ∨ s.yields sid c used = true) → exec (r.2.2.2 sid acc) s = .next s) ∧
      ((∀ a ∈ used, a ∉ (s.core (sid / 4)).sparing ∧ s.isArmed 0x02 (32 * (sid / 4) + a) = false) →
      s.yields sid c used = false → s.gate j = .open_ →
      s.anyHurt (v.reads ++ v.accs j s ++ drainReads j v.gradRows) = none → s.isArmed 0x03 (sid / 4) = false →
      s.piecesHurt (o.1.bytes ++ o.2) = none → (j.replays o.1 = true → s.readHurt (j.replayAddr s) 8 = none) →
      Does (r.2.2.2 sid acc) s fun t =>
        EndedNow t (.stream sid) acc (if j.layer o.1 = true then .layerFault else .ok) ∧
        (j.censusEn = false → j.event o.1 = false → ∀ a, byteAt t.mem a = (lastByte ps a).getD (byteAt s.mem a)) ∧
        KeepsBytes (drainBytes j s ps) s t ∧ KeepsOutside (drainWord sid) s t))

/-- Ramp groups, the spare array, deferral and the counters of a core's arrays. A ramp group that a held command needs comes up, and with it
nothing else, once every needed lower group is up; a group that is up and not needed goes down when no higher group is up and not needed;
groups that do not qualify stay. ARR_CNT_CLEAR zeroes the four counters and nothing else. An issued deferred command that starves is served
as DEFER 0, unless ARR_DEFER_STARVE is 0; a row that names no such command changes nothing. A faulted array that waits for the spare gets it
while it is unused: the register says for which array, the array's physical number becomes 24, and a repair is recorded and reported; else
the array is marked failed and its core is placed on CSV_PENDING. An array that does not wait takes nothing. -/
def Obligations.ArraysRampSpareAndCount : Prop :=
  ∀ (n : Nat) (s : State), n < 256 →
    (∀ g, g < 8 →
      let need := fun x => ∃ h ∈ s.heldArray n, ∃ a ∈ s.arraysOfCmd h.1 h.2, a / 3 = x
      let up := s.fld (Reg.arrUp n)
      let isUp := fun x => up / 2 ^ (3 * x) % 8 = 7
      let rises := need g ∧ ∀ x, x < g → need x → isUp x
      let falls := isUp g ∧ ¬ need g ∧ ∀ x, g < x → x < 8 → isUp x → need x
      (rises → ∃ t, exec (.rampGroupUp n g) s = .next t ∧
        t.fld (Reg.arrUp n) = up ||| 7 * 2 ^ (3 * g) ∧ KeepsWords [(Reg.arrUp n).off] s t ∧ ChangesOnly [.reg] s t) ∧
      (¬ rises → exec (.rampGroupUp n g) s = .next s) ∧
      (falls → ∃ t, exec (.rampGroupDown n g) s = .next t ∧
        t.fld (Reg.arrUp n) = up - 7 * 2 ^ (3 * g) ∧ KeepsWords [(Reg.arrUp n).off] s t ∧ ChangesOnly [.reg] s t) ∧
      (¬ falls → exec (.rampGroupDown n g) s = .next s)) ∧
    (∃ t, exec (.arrCntClear n) s = .next t ∧
      t.fld (Reg.arrTiles n) = 0 ∧ t.fld (Reg.arrMacCycles n) = 0 ∧ t.fld (Reg.arrBusyCycles n) = 0 ∧ t.fld (Reg.arrStallCycles n) = 0 ∧
      (t.core n).gated = false ∧ KeepsOutside (fun o => coreBase n + 0x1018 ≤ o ∧ o < coreBase n + 0x1038) s t ∧ ChangesOnly [.reg, .core] s t) ∧
    (∀ sid acc, sid / 4 = n →
      let starves := s.fld (Reg.arrDeferStarve n) ≠ 0 ∧ ∃ c ∈ (s.strm sid).issued, c.acc = acc ∧ dDefer c.desc = true
      (starves → ∃ t, exec (.deferStarve sid acc) s = .next t ∧
        t.core n = { s.core n with starved := (sid + 2048 * acc) :: (s.core n).starved.filter (· != sid + 2048 * acc) } ∧
        (∀ m, m ≠ n → t.core m = s.core m) ∧ ChangesOnly [.core] s t) ∧
      (¬ starves → exec (.deferStarve sid acc) s = .next s)) ∧
    (∀ a, a < 24 →
      (a ∉ (s.core n).sparing → exec (.arraySpareMap n a) s = .next s) ∧
      (a ∈ (s.core n).sparing → s.fld (Reg.arrSpareUsed n) = 0 → ∃ t, exec (.arraySpareMap n a) s = .next t ∧
        let r : RepairRec := ⟨2, n / 128, 0, s.fld (Reg.corePhysical n), s.fld (Reg.arrPhys n a), 24, 2, s.boot⟩
        t.fld (Reg.arrSpareUsed n) = 1 ∧ t.fld (Reg.arrSpareFor n) = a ∧ t.fld (Reg.arrPhys n a) = 24 ∧
        t.core n = { s.core n with sparing := (s.core n).sparing.filter (· != a) } ∧
        t.cons.repairs = r :: s.cons.repairs ∧ Logged t (.unit 0x170) 0 .ok (.repair r) ∧ bit (t.fld Reg.rgsEvents) 1 = true) ∧
      (a ∈ (s.core n).sparing → s.fld (Reg.arrSpareUsed n) = 1 → ∃ t, exec (.arraySpareMap n a) s = .next t ∧
        t.fld (Reg.arrFailed n) = s.fld (Reg.arrFailed n) ||| 2 ^ a ∧
        t.fld (Reg.csvPending (n / 32)) = s.fld (Reg.csvPending (n / 32)) ||| 2 ^ (n % 32) ∧
        t.core n = { s.core n with sparing := (s.core n).sparing.filter (· != a) } ∧
        KeepsWords [(Reg.arrFailed n).off, (Reg.csvPending (n / 32)).off] s t ∧ ChangesOnly [.reg, .core] s t))

/-- ROUTE writes its slots, send lists and header, or stops at the first bad token. A ROUTE with a bad layer record or a bad shape word ends
with that status, one of more than 262,144 tokens with DESCRIPTOR_FAULT, one over a capacity with SIZE_FAULT, and no byte changes. One of no
tokens ends with OK and begins a fresh stage order. One that passes every check, whose lines are free and undamaged, with no error armed,
reads each token's row after the slots of the tokens before it are written; it ends with OK and a fresh order once it has written every
slot, the send lists and the header; at a token with a NaN or +infinity logit it ends with NUMERIC_FAIL, leaves no order, and has written
the slots of the earlier tokens alone. Without a histogram every other byte stays. -/
def Obligations.RouteWritesItsRecordAndLists : Prop :=
  ∀ (sid acc : Nat) (s : State) (c : Cmd), Memory.wf s.mem → NMap.Rising s.orders → 1024 ≤ sid → sid < 1040 → s.issuedCmd sid acc 0x10 0 = some c →
    let l := s.layer (daddr c.desc 8 9 12)
    let m := s.countOf sid c.desc 0 (dword c.desc 10)
    let res := routeOn l m (List.replicate l.experts 0) (List.range m) s.mem s
    let lists := sendBytes (sendLists l.members res.2.1)
    let tail := [(l.sendAddr, lists), (l.routeAddr, headerBytes m l.k 0 false l.placeGen (dTag c.desc) 0)]
    let fits := 64 + 16 * m * l.k ≤ lfld l 14 0 32 ∧ 2048 + 8 * m * min l.k l.members ≤ lfld l 15 0 32
    (∀ st, (s.layerFault (daddr c.desc 8 9 12)).or (s.shapeFault sid c.desc) = some st → Does (.route sid acc) s fun t =>
      EndedNow t (.stream sid) acc st ∧ t.mem = s.mem) ∧
    (s.layerFault (daddr c.desc 8 9 12) = none → s.shapeFault sid c.desc = none →
      (m = 0 → Does (.route sid acc) s fun t =>
        EndedNow t (.stream sid) acc .ok ∧ nget t.orders l.routeAddr = some (RouteOrder.fresh sid acc) ∧ t.mem = s.mem) ∧
      (262144 < m → Does (.route sid acc) s fun t => EndedNow t (.stream sid) acc .descriptorFault ∧ t.mem = s.mem) ∧
      (0 < m → m ≤ 262144 → ¬ fits → Does (.route sid acc) s fun t => EndedNow t (.stream sid) acc .sizeFault ∧ t.mem = s.mem) ∧
      (0 < m → m ≤ 262144 → fits → s.routeExtentsOk (requesterOf sid) l m = true → s.placeOk l = true →
        s.ready ([(true, l.routeAddr, 64 + 16 * m * l.k), (true, l.sendAddr, 2048 + 8 * m * min l.k l.members)] ++ l.histExts ++
          readExts (routeReads l m)) = true →
        s.anyHurt (routeReads l m ++ [(l.routeAddr, 64 + 16 * m * l.k)]) = none → s.histFault (requesterOf sid) l = none →
        s.writeHurt l.sendAddr lists.length = none → s.cons.armed = [] →
        (res.2.2 = none → Does (.route sid acc) s fun t =>
          EndedNow t (.stream sid) acc .ok ∧ nget t.orders l.routeAddr = some (RouteOrder.fresh sid acc) ∧
          (l.histEn = false → ∀ a, byteAt t.mem a = (lastByte tail a).getD (byteAt res.1 a))) ∧
        (∀ k, res.2.2 = some k → Does (.route sid acc) s fun t =>
          EndedNow t (.stream sid) acc .numericFail ∧ nget t.orders l.routeAddr = none ∧ ∀ a, byteAt t.mem a = byteAt res.1 a)))

/-- SUM combines each token's routes in rank order; the Curator's counters clear. A SUM with a bad field or layer record ends with that
status and one out of its record's order with SEQUENCE_FAULT; no byte changes. In order, an empty record ends it with OK. One that passes
every check, whose lines are free and undamaged and whose output lies apart from its source and the record, writes each token's row of
combined elements, in token order, changes no other byte, ends with OK, and counts in the record's order. CUR_CNT_CLEAR zeroes CUR_ROUTES,
CUR_ROWS_SENT, CUR_COPIES and CUR_DROPPED and changes nothing else. -/
def Obligations.SumAddsTheRoutesOfEachToken : Prop :=
  (∀ (sid acc : Nat) (s : State) (c : Cmd), Memory.wf s.mem → 1024 ≤ sid → sid < 1040 → s.issuedCmd sid acc 0x10 4 = some c →
    let l := s.layer (daddr c.desc 8 9 12)
    let m := s.recordTokens l (dfld c.desc 11 0 8)
    let fmt := dfld c.desc 11 24 4
    let sm := routeBuffer l (daddr c.desc 12 13 12) (dfld c.desc 11 20 4) m
    let om : Mat := ⟨daddr c.desc 14 15 12, fmt, 16, false, false, m, l.h⟩
    let row := fun t => (List.range l.h).map fun i => enc (elemFmt fmt) (fp32.decode (s.sumElem l sm (dfld c.desc 11 16 1 == 1) t i))
    let fault := (if 3 < dfld c.desc 11 20 4 ∨ ¬ (fmt = 0 ∨ fmt = 1 ∨ fmt = 0xF) then some Status.descriptorFault else none).or
      (s.layerFault (daddr c.desc 8 9 12))
    (∀ st, fault = some st → Does (.sum sid acc) s fun t => EndedNow t (.stream sid) acc st ∧ t.mem = s.mem ∧ t.orders = s.orders) ∧
    (fault = none → s.outOfOrder l 4 0 false = true → Does (.sum sid acc) s fun t =>
      EndedNow t (.stream sid) acc .sequenceFault ∧ t.mem = s.mem ∧ t.orders = s.orders) ∧
    (fault = none → s.outOfOrder l 4 0 false = false → ∀ o, nget s.orders l.routeAddr = some o →
      (m = 0 → Does (.sum sid acc) s fun t => EndedNow t (.stream sid) acc .ok ∧ t.mem = s.mem ∧
        nget t.orders l.routeAddr = some { o with sums := o.sums + 1 }) ∧
      (m ≠ 0 → om.tileBytes ≤ 4096 * dfld c.desc 15 12 20 → s.reach (requesterOf sid) .read sm.base sm.tileBytes = true →
        s.reach (requesterOf sid) .write om.base om.tileBytes = true → s.reach (requesterOf sid) .read l.routeAddr (64 + 16 * m * l.k) = true →
        s.ready [(true, om.base, om.tileBytes), (false, sm.base, sm.tileBytes), (false, l.routeAddr, 64 + 16 * m * l.k)] = true →
        s.anyHurt [(sm.base, sm.tileBytes), (l.routeAddr, 64 + 16 * m * l.k)] = none →
        s.piecesHurt ((List.range m).flatMap fun t => rowPieces om t (List.replicate l.h 0)) = none →
        (om.base + om.tileBytes ≤ sm.base ∨ sm.base + sm.tileBytes ≤ om.base) →
        (om.base + om.tileBytes ≤ l.routeAddr ∨ l.routeAddr + (64 + 16 * m * l.k) ≤ om.base) →
        Does (.sum sid acc) s fun t => EndedNow t (.stream sid) acc .ok ∧ nget t.orders l.routeAddr = some { o with sums := o.sums + 1 } ∧
          ∀ a, byteAt t.mem a = (lastByte ((List.range m).flatMap fun k => rowPieces om k (row k)) a).getD (byteAt s.mem a)))) ∧
  (∀ s : State, Does .curCntClear s fun t =>
    t.fld Reg.curRoutes = 0 ∧ t.fld Reg.curRowsSent = 0 ∧ t.fld Reg.curCopies = 0 ∧ t.fld Reg.curDropped = 0 ∧
    KeepsOutside (fun o => 0x20008 ≤ o ∧ o < 0x20028) s t ∧ ChangesOnly [.reg] s t)

/-- GRANT, DISPATCH and RETURN join their group in the record's stage order. For the three exchange rows: a bad FMT (RETURN) or layer record
ends the command with that status; one out of its record's stage order, or whose SEQ is not its group's next number, ends with
SEQUENCE_FAULT; with 4 stages in flight it waits and nothing changes. Otherwise it takes the number, shows its layer record, opcode, wave (0
for GRANT) and number in its stream's registers, and counts as issued in the record's order. -/
def Obligations.ExchangeStagesJoinInOrder : Prop :=
  ∀ r ∈ [(1, Instr.grant), (2, Instr.dispatch), (3, Instr.returnRows)], ∀ (sid acc : Nat) (s : State) (c : Cmd),
    1024 ≤ sid → sid < 1040 → s.issuedCmd sid acc 0x10 r.1 = some c → c.phase = 0 →
    let a := daddr c.desc 8 9 12
    let l := s.layer a
    let g := l.group
    let sn := dword c.desc 10
    let wave := dfld c.desc 11 8 6
    let rev := dfld c.desc 11 16 1
    let fault := (if r.1 = 3 ∧ 3 < dfld c.desc 11 20 4 then some Status.descriptorFault else none).or (s.layerFault a)
    let late := s.outOfOrder l r.1 wave (rev == 1) = true ∨ sn ≠ s.fld (Reg.colGrpNextSeq g)
    (∀ st, fault = some st → Ends (r.2 sid acc) s (.stream sid) acc st) ∧
    (fault = none → late → Ends (r.2 sid acc) s (.stream sid) acc .sequenceFault) ∧
    (fault = none → ¬ late → 4 ≤ s.fld (Reg.colGrpInflight g) → exec (r.2 sid acc) s = .next s) ∧
    (fault = none → ¬ late → s.fld (Reg.colGrpInflight g) < 4 → Does (r.2 sid acc) s fun t =>
      t.fld (Reg.colGrpNextSeq g) = (sn + 1) % 2 ^ 32 ∧ t.fld (Reg.curStrmLayerLo sid) = a % 2 ^ 32 ∧ t.fld (Reg.curStrmLayerHi sid) = a / 2 ^ 32 ∧
      t.fld (Reg.curStrmOp sid) = r.1 ∧ t.fld (Reg.curStrmWave sid) = (if r.1 = 1 then 0 else wave) ∧ t.fld (Reg.curStrmSeq sid) = sn ∧
      (t.stage g sn).cmd = some (sid, acc) ∧
      ∃ o, nget t.orders l.routeAddr = some o ∧ (r.1 = 1 → o.grantIssued = true) ∧
        (r.1 ≠ 1 → (2 * rev + (if r.1 = 2 then 0 else 1), wave) ∈ o.issued))

/-- Every COLLECTIVE command joins its group with the next sequence number; BARRIER and COMMIT of one member complete. For the seven rows on
a collectives stream: bad class fields or a group that is not formed end the command with DESCRIPTOR_FAULT, a SEQ that is not the group's
next with SEQUENCE_FAULT; with 4 stages in flight it waits and nothing changes. Otherwise the group's next number grows by one modulo 2^32,
the stream shows the group and the number, and the stage knows its command. In a group of this member alone, BARRIER ends with OK; COMMIT
ends with OK and every Beater's epoch grows by one when the step-good bit is set and no UPDATE is open, else with STEP_DISCARDED and the
epochs stay. -/
def Obligations.CollectivesJoinTheirGroup : Prop :=
  ∀ r ∈ [(0, Instr.allReduce), (1, Instr.reduceScatter), (2, Instr.allGather), (3, Instr.allToAllV), (4, Instr.broadcast), (5, Instr.barrier), (6, Instr.commit)],
  ∀ (sid acc : Nat) (s : State) (c : Cmd), 1040 ≤ sid → sid < 1056 → s.issuedCmd sid acc 0x11 r.1 = some c → c.phase = 0 →
    let g := dfld c.desc 8 0 6
    let sn := dword c.desc 9
    let bad := s.colFieldsBad c.desc = true ∨ s.fld (Reg.colGrpState g) ≠ 2
    (bad → Ends (r.2 sid acc) s (.stream sid) acc .descriptorFault) ∧
    (¬ bad → sn ≠ s.fld (Reg.colGrpNextSeq g) → Ends (r.2 sid acc) s (.stream sid) acc .sequenceFault) ∧
    (¬ bad → sn = s.fld (Reg.colGrpNextSeq g) → 4 ≤ s.fld (Reg.colGrpInflight g) → exec (r.2 sid acc) s = .next s) ∧
    (¬ bad → sn = s.fld (Reg.colGrpNextSeq g) → s.fld (Reg.colGrpInflight g) < 4 →
      (Does (r.2 sid acc) s fun t =>
        t.fld (Reg.colGrpNextSeq g) = (sn + 1) % 2 ^ 32 ∧ t.fld (Reg.colStrmGroup sid) = g ∧ t.fld (Reg.colStrmSeq sid) = sn ∧
        (t.stage g sn).cmd = some (sid, acc)) ∧
      (s.members g = [s.me] → s.fld (Reg.colGrpMyRank g) = 0 → s.stage g sn = Stage.empty → dShapeEn c.desc = false →
        (r.1 = 5 → Ends (r.2 sid acc) s (.stream sid) acc .ok) ∧
        (r.1 = 6 → s.fld Reg.colStepOk = 1 → s.updateOpen = false → Does (r.2 sid acc) s fun t =>
          EndedNow t (.stream sid) acc .ok ∧ t.fld Reg.colDecision = 1 ∧
          ∀ k, k < 8 → t.fld (Reg.btrEpoch k) = (s.fld (Reg.btrEpoch k) + 1) % 2 ^ 32) ∧
        (r.1 = 6 → ¬ (s.fld Reg.colStepOk = 1 ∧ s.updateOpen = false) → Does (r.2 sid acc) s fun t =>
          EndedNow t (.stream sid) acc .stepDiscarded ∧ t.fld Reg.colDecision = 2 ∧ ∀ k, k < 8 → t.fld (Reg.btrEpoch k) = s.fld (Reg.btrEpoch k))))

/-- In a group of one member a data collective is a copy of its source. ALL_REDUCE and REDUCE_SCATTER that are no exact sum, ALL_GATHER and
BROADCAST in a formed group of this member alone, in turn, with a count above zero, extents in place and apart, lines free and undamaged, no
error armed, end with OK; the destination then holds the source's bytes and no other byte of memory changes. -/
def Obligations.OneMemberCollectivesCopy : Prop :=
  ∀ r ∈ [(0, Instr.allReduce), (1, Instr.reduceScatter), (2, Instr.allGather), (4, Instr.broadcast)],
  ∀ (sid acc : Nat) (s : State) (c : Cmd), Memory.wf s.mem → 1040 ≤ sid → sid < 1056 → s.issuedCmd sid acc 0x11 r.1 = some c → c.phase = 0 →
    let g := dfld c.desc 8 0 6
    let sn := dword c.desc 9
    let src := daddr c.desc 10 11 12
    let dst := daddr c.desc 12 13 12
    let eb := dtBytes (dfld c.desc 8 6 4)
    let len := dword c.desc 14 * eb
    s.colFieldsBad c.desc = false → s.fld (Reg.colGrpState g) = 2 → sn = s.fld (Reg.colGrpNextSeq g) → s.fld (Reg.colGrpInflight g) < 4 →
    s.members g = [s.me] → s.fld (Reg.colGrpMyRank g) = 0 → s.stage g sn = Stage.empty → dShapeEn c.desc = false →
    (r.1 < 2 → ¬ (dfld c.desc 8 10 3 = 0 ∧ dfld c.desc 8 6 4 ≤ 2) ∧ dst % eb = 0) →
    0 < dword c.desc 14 → len ≤ 64 * dword c.desc 15 →
    s.stagePlace (requesterOf sid) .read true src len = true → s.stagePlace (requesterOf sid) .write (decide (2 ≤ r.1)) dst len = true →
    (∀ n, coreOfAddr src = some n ∨ coreOfAddr dst = some n → s.outOfService n = false) →
    (src + len ≤ dst ∨ dst + len ≤ src) → s.ready [(false, src, len), (true, dst, len)] = true →
    s.anyHurt [(src, len), (dst, len)] = none → s.cons.armed = [] →
    Does (r.2 sid acc) s fun t =>
      EndedNow t (.stream sid) acc .ok ∧ bytesAt t.mem dst len = bytesAt s.mem src len ∧ KeepsBytes (fun a => dst ≤ a ∧ a < dst + len) s t

/-- Groups are created, released and numbered; the step-good bit is written. A group that is released or failed is created with its member
count, this member's rank, cells, signature and number 0 when its check passes, and its cells are reserved in the group pool and their
credits on the ports it uses (shared out as log entry 67 says); else it fails with the check's status and reserves none. In another state
its creation changes nothing. A formed group with nothing in flight is released and gives its cells back; otherwise nothing changes.
COL_GRP_NEXT_SEQ is written only with no stage in flight. COL_STEP_OK takes bit 0 of the value, and COL_VETO then holds no reason but a
written 0; whether an UPDATE stands open is no stored reason: a read of COL_VETO shows it in bit 4. -/
def Obligations.GroupsFormAndRelease : Prop :=
  (∀ (g : Nat) (s : State), g < 64 →
    (s.fld (Reg.colGrpState g) = 0 ∨ s.fld (Reg.colGrpState g) = 3 →
      (s.groupStatus g (s.groupCells g) = none → Does (.groupCreate g) s fun t =>
        t.fld (Reg.colGrpState g) = 2 ∧ t.fld (Reg.colGrpStatus g) = 0 ∧ t.fld (Reg.colGrpEnable g) = 1 ∧
        t.fld (Reg.colGrpMembers g) = (s.members g).length ∧ t.fld (Reg.colGrpMyRank g) = (s.members g).findIdx (· == s.me) ∧
        t.fld (Reg.colGrpNextSeq g) = 0 ∧ t.fld (Reg.colGrpCells g) = s.groupCells g ∧ t.fld (Reg.colGrpSignature g) = s.groupSignature g ∧
        nget t.fab.groups g = some (s.groupPorts g, portShare (s.groupCells g) (s.groupPorts g)) ∧
        t.fld (Reg.vatUsed 3) = s.fld (Reg.vatUsed 3) + s.groupCells g) ∧
      (∀ st, s.groupStatus g (s.groupCells g) = some st → Does (.groupCreate g) s fun t =>
        t.fld (Reg.colGrpState g) = 3 ∧ t.fld (Reg.colGrpStatus g) = statusCode st ∧ t.fld (Reg.colGrpEnable g) = 0 ∧
        t.fld (Reg.vatUsed 3) = s.fld (Reg.vatUsed 3) ∧
        KeepsOutside (fun o => o = (Reg.colGrpState g).off ∨ o = (Reg.vatRefused 3).off) s t)) ∧
    (s.fld (Reg.colGrpState g) ≠ 0 → s.fld (Reg.colGrpState g) ≠ 3 → exec (.groupCreate g) s = .next s) ∧
    (s.fld (Reg.colGrpState g) = 2 → s.fld (Reg.colGrpInflight g) = 0 → Does (.groupRelease g) s fun t =>
      t.fld (Reg.colGrpState g) = 0 ∧ t.fld (Reg.colGrpEnable g) = 0 ∧
      t.fld (Reg.vatUsed 3) = s.fld (Reg.vatUsed 3) - s.fld (Reg.colGrpCells g)) ∧
    (s.fld (Reg.colGrpState g) ≠ 2 ∨ 0 < s.fld (Reg.colGrpInflight g) → exec (.groupRelease g) s = .next s) ∧
    (∀ v, (s.fld (Reg.colGrpInflight g) = 0 → Does (.colGrpNextSeqWrite g v) s fun t =>
        t.fld (Reg.colGrpNextSeq g) = v % 2 ^ 32 ∧ KeepsWords [(Reg.colGrpNextSeq g).off] s t ∧ ChangesOnly [.reg] s t) ∧
      (0 < s.fld (Reg.colGrpInflight g) → exec (.colGrpNextSeqWrite g v) s = .next s))) ∧
  (∀ (v : Nat) (s : State), Does (.colStepOkWrite v) s fun t =>
    t.fld Reg.colStepOk = v % 2 ∧ t.fld Reg.colVeto = (if v % 2 = 1 then 0 else 1) ∧ bit (t.shownWord Reg.colVeto.off).toNat 4 = t.updateOpen ∧
    KeepsWords [Reg.colStepOk.off, Reg.colVeto.off] s t ∧ ChangesOnly [.reg] s t)

/-- Admission, GO, FAIL, taint, timeout and completion reports of a stage. The coordinator records a member's counts once, then its
admission once, until it decides. An admitted member records GO. FAIL ends a running stage with its status, clears COL_STEP_OK and sets
COL_VETO[2]; a stage that ended with OK becomes tainted, once, which counts, clears COL_STEP_OK and sets COL_VETO[3]; for one that ended in
failure the arrival is late: counted, logged and discarded. At its timeout a member other than the coordinator ends with TIMEOUT, and the
coordinator decides; a limit of 0 waits on. After the outcome the coordinator records each report of OK, and any other status makes it send
FAIL unless the stage is closed. -/
def Obligations.StagesFollowAdmissionAndOutcome : Prop :=
  ∀ (g sn : Nat) (s : State), g < 64 →
    let y := s.stage g sn
    let n := (s.members g).length
    (∀ rank sig ref counts, s.fld (Reg.colGrpState g) = 2 → rank < n → rank ≠ s.fld (Reg.colGrpMyRank g) →
      (s.isFuture g sn = false ∨ y.cmd = none) →
      let isCounts := (sig.opcode = 3 ∨ sig.opcode = 0x1001) ∧ nget y.counts rank = none
      (isCounts → y.overdue = false → Does (.stageAdmission g sn rank sig ref counts) s fun t => nget (t.stage g sn).counts rank = some counts) ∧
      (¬ isCounts → s.fld (Reg.colGrpMyRank g) = 0 → y.decided = false → y.adms.any (·.rank == rank) = false →
        Does (.stageAdmission g sn rank sig ref counts) s fun t => (⟨rank, sig, ref, counts⟩ : Adm) ∈ (t.stage g sn).adms)) ∧
    (∀ x info, s.ctx g sn = some x → x.isCommit = false → y.admitted = true → x.me ≠ 0 → y.go = false → Does (.stageGo g sn info) s fun t =>
      (t.stage g sn).go = true ∧ (t.stage g sn).info = info) ∧
    (∀ i ∈ [Instr.stageFail, Instr.stageTaint], ∀ st,
      (∀ x, s.ctx g sn = some x → Does (i g sn st) s fun t =>
        EndedNow t (.stream x.sid) x.c.acc st ∧ (t.stage g sn).result = some st ∧ t.fld Reg.colStepOk = 0 ∧ bit (t.fld Reg.colVeto) 2 = true) ∧
      (∀ sid acc, y.cmd = some (sid, acc) → y.result = some .ok → Does (i g sn st) s fun t =>
        t.tainted (.stream sid, acc) = true ∧ t.fld Reg.colStepOk = 0 ∧ bit (t.fld Reg.colVeto) 3 = true ∧ t.mem = s.mem ∧
        (s.fld Reg.colTaintEvents + 1 < 2 ^ 32 → t.fld Reg.colTaintEvents = s.fld Reg.colTaintEvents + 1)) ∧
      (y.result = some .tainted → exec (i g sn st) s = .next s) ∧
      (∀ z u, y.result = some z → z ≠ .ok → z ≠ .tainted →
        u = (match y.cmd with | some (sid, _) => if sid < 1040 then LateUnit.curator else .group g | none => .group g) →
        s.fld (lateFld u) + 1 < 2 ^ (lateFld u).w → Does (i g sn st) s fun t =>
          t.fld (lateFld u) = s.fld (lateFld u) + 1 ∧ Logged t (lateSrc u) 0 .timeout (.late u (s.fld (lateFld u) + 1)) ∧
          ChangesOnly [.reg, .log] s t)) ∧
    (∀ x, s.ctx g sn = some x → x.isCommit = false →
      let limit := if x.isCur then s.fld Reg.curXchgTimeout else s.fld (Reg.colGrpTimeout g)
      (limit = 0 → exec (.stageTimeout g sn) s = .next s) ∧
      (limit ≠ 0 → x.me ≠ 0 → Does (.stageTimeout g sn) s fun t =>
        EndedNow t (.stream x.sid) x.c.acc .timeout ∧ (t.stage g sn).result = some .timeout) ∧
      (limit ≠ 0 → x.me = 0 → y.decided = false → Does (.stageTimeout g sn) s fun t => (t.stage g sn).decided = true)) ∧
    (∀ rank st, s.coordinates g = true → rank ≠ 0 → rank < n → y.decided = true →
      (st = .ok → Does (.stageCompletionReport g sn rank st) s fun t => rank ∈ (t.stage g sn).reports) ∧
      (st ≠ .ok → y.failSent = false → s.closed g sn = false → Does (.stageCompletionReport g sn rank st) s fun t =>
        (t.stage g sn).failSent = true))

/-- Credits, checked chunks, acknowledgements and token rows of a running stage. A receiver grants its sources in ascending rank; a source
keeps a credit of a stage it runs. A chunk from a granted source whose check agrees is accepted once; one whose check fails is counted, and
within the retry limit asked for again. A held chunk asked for is sent again with its check. The acknowledgement of the last chunk held ends
a stage whose payload is done with OK. A row of a begun DISPATCH from a granted source, with lines free and undamaged and no error armed, is
stored at its layout row with its arrival entry, and no other byte changes. -/
def Obligations.ChunksCreditsAndRowsMoveThePayload : Prop :=
  ∀ (g sn : Nat) (s : State) (x : Ctx), g < 64 → sn < 2 ^ 32 → s.ctx g sn = some x → s.fld (Reg.colGrpState g) = 2 →
    let y := x.st
    (∀ source, x.me < x.n → source < x.n → y.granted.contains source = false → (List.range source).all (y.granted.contains ·) = true →
      Does (.creditGrant g sn x.me source) s fun t => source ∈ (t.stage g sn).granted) ∧
    (∀ receiver, receiver < x.n → x.me < x.n → receiver ≠ x.me → s.isFuture g sn = false → y.credits.contains receiver = false →
      Does (.creditGrant g sn receiver x.me) s fun t => receiver ∈ (t.stage g sn).credits) ∧
    (∀ q k payload check l, y.granted.contains q = true → q ≠ x.me → y.got.contains (q, k) = false → x.chunkLen s q k = some l →
      payload.length = l.2.2 + (if x.exact && x.dtype == 2 && !l.1 then cdiv (l.2.2 / 128) 4 else 0) →
      (crc64 (payload.take l.2.2) = check → Does (.chunkArrival g sn q k payload check) s fun t => (q, k) ∈ (t.stage g sn).got) ∧
      (crc64 (payload.take l.2.2) ≠ check → (y.fails.filter (· == (q, k))).length < s.fld Reg.colRetryLimit →
        Does (.chunkArrival g sn q k payload check) s fun t =>
          t.stages = nset s.stages (stageKey g sn) { y with fails := y.fails ++ [(q, k)] } ∧
          t.sent = s.sent ++ [.stage g sn q (.retransmit k)] ∧ t.mem = s.mem)) ∧
    (∀ r k h, y.held.find? (·.out.contains (r, k)) = some h → s.cons.armed.any (·.target == 0x0B) = false →
      exec (.chunkRetransmit g sn r k) s =
        .next { s with sent := s.sent ++ [.stage g sn r (.chunk k x.me h.payload (crc64 (h.payload.take h.checked)))] }) ∧
    (∀ r k, y.held.all (fun h => h.due.isEmpty && h.out.all (· == (r, k))) = true → y.admitted = true → (x.me = 0 → y.decided = true) →
      y.begun = true → y.reported = false → y.acksOnly = true → y.early = [] → y.own = true →
      (List.range x.n).all (y.sentTo.contains ·) = true → (x.isCol 0 = true → y.settled = true) →
      (List.range ((x.firstPieces s).length + x.secondPieces.length)).all (y.taken.contains ·) = true →
      Ends (.chunkAck g sn r k) s (.stream x.sid) x.c.acc .ok) ∧
    (∀ q token cp row p, Memory.wf s.mem → x.isStage 2 = true → y.granted.contains q = true → q ≠ x.me → q < x.n → y.admitted = true →
      (x.me = 0 → y.decided = true) → y.begun = true → y.early = [] → s.cons.armed = [] →
      token < 2 ^ 18 → cp.core < 256 → cp.slot < 4096 → cp.rank < 8 → cp.row < 2 ^ 24 →
      let l := x.layer
      let m := s.regionMat l cp.core (if x.reverse then 4 else 0) x.wave l.tokFmt
      let rs := s.placedOn l l.rank
      let codes := rowCodes l.tokFmt l.h row
      let vals := if x.reverse then codes.map fun v =>
        enc (elemFmt l.tokFmt) (((elemFmt l.tokFmt).decode v).mul (fp32.decode cp.weight.toNat)) else codes
      let i := p + cp.row
      let ps := rowPieces m i vals ++ [(s.region l cp.core 8 x.wave + 8 * i, arrivalBytes q token cp.rank)]
      (s.layoutOf l cp.core (slotsOf rs cp.core) x.wave).1[cp.slot]? = some p → cp.core ∈ coresOf rs → s.ready [(true, m.base, m.tileBytes)] = true →
      s.piecesHurt ps = none →
      Does (.tokenArrival g sn q token [cp] row) s fun t => ∀ a, byteAt t.mem a = (lastByte ps a).getD (byteAt s.mem a))

/-- A member follows the commit decision, or ends with UNKNOWN. A member other than the coordinator that runs a COMMIT ends it with OK at a
decision to commit, and the epoch of every Beater grows by one modulo 2^32; at a decision to discard it ends with STEP_DISCARDED and the
epochs stay. Either way COL_DECISION and its number and group record it. At COL_COMMIT_TIMEOUT it ends with UNKNOWN and the epochs stay, and
a coordinator decides. A decision that reaches a member after its UNKNOWN is late: it is counted, and changes nothing else. -/
def Obligations.CommitsRaiseTheEpoch : Prop :=
  (∀ (g sn : Nat) (s : State) (x : Ctx), s.ctx g sn = some x → x.isCommit = true →
    (∀ commit epoch, x.me ≠ 0 → Does (.commitDecision g sn commit epoch) s fun t =>
      EndedNow t (.stream x.sid) x.c.acc (if commit = true then .ok else .stepDiscarded) ∧ t.fld Reg.colDecision = (if commit = true then 1 else 2) ∧
      t.fld Reg.colDecisionSeq = sn % 2 ^ 32 ∧ t.fld Reg.colDecisionGroup = g % 64 ∧
      (∀ k, k < 8 → t.fld (Reg.btrEpoch k) = if commit = true then (s.fld (Reg.btrEpoch k) + 1) % 2 ^ 32 else s.fld (Reg.btrEpoch k)) ∧ t.mem = s.mem) ∧
    (x.me ≠ 0 → Does (.commitTimeout g sn) s fun t =>
      EndedNow t (.stream x.sid) x.c.acc .unknown ∧ t.fld Reg.colDecision = 3 ∧ ∀ k, k < 8 → t.fld (Reg.btrEpoch k) = s.fld (Reg.btrEpoch k)) ∧
    (x.me = 0 → x.st.decided = false → Does (.commitTimeout g sn) s fun t => (t.stage g sn).decided = true)) ∧
  (∀ (g sn : Nat) (s : State) (commit : Bool) (epoch sid acc : Nat), g < 64 → (s.stage g sn).cmd = some (sid, acc) → 1040 ≤ sid →
    (s.stage g sn).result = some .unknown → s.fld (Reg.colGrpLate g) + 1 < 2 ^ 32 → Does (.commitDecision g sn commit epoch) s fun t =>
      t.fld (Reg.colGrpLate g) = s.fld (Reg.colGrpLate g) + 1 ∧ ChangesOnly [.reg, .log] s t)

/-- The committed slot is the valid one with the largest epoch not above BTR_EPOCH. A slot that is committed under BTR_EPOCH is valid, its
epoch does not exceed BTR_EPOCH, and no other valid slot within BTR_EPOCH has a larger epoch. Whenever a valid slot lies within BTR_EPOCH,
one is committed; the other slot is the shadow, so that there are no others. A slot with an epoch above BTR_EPOCH is never committed. -/
def Obligations.CommittedSlotIsTheNewestValid : Prop :=
  ∀ (s : State) (k : Nat) (e : BEntry),
    let n := s.fld (Reg.btrEpoch k)
    (∀ h, e.committed n = some h → (h = 0 ∨ h = 1) ∧ e.valid h = true ∧ e.epoch h ≤ n ∧
      ∀ x, x = 0 ∨ x = 1 → e.valid x = true → e.epoch x ≤ n → e.epoch x ≤ e.epoch h) ∧
    (∀ x, x = 0 ∨ x = 1 → e.valid x = true → e.epoch x ≤ n → ∃ h, e.committed n = some h ∧ (1 - h = 0 ∨ 1 - h = 1) ∧ 1 - h ≠ h) ∧
    (∀ x, n < e.epoch x → e.committed n ≠ some x)

/-- Every BEATER command runs alone and is judged before any byte moves. A command of a Beater stream that is not the oldest issued one
waits, and nothing changes. The oldest one ends with UNIT_FAULT below 48 lanes, with its shape word's fault, with OK when it counts nothing,
and with SIZE_FAULT over a capacity; no byte changes. BTR_CNT_CLEAR zeroes the count of updated blocks alone. -/
def Obligations.BeaterCommandsAreJudged : Prop :=
  (∀ r ∈ [(0, Instr.update, 11), (1, Instr.regen, 11), (2, Instr.digest, 11), (3, Instr.accumulate, 12), (4, Instr.clearBuf, 12)],
  ∀ (sid : Nat) (s : State) (c : Cmd) (rest : List Cmd), 1056 ≤ sid → sid < 1064 → (s.strm sid).issued = c :: rest →
    let k := sid - 1056
    let count := s.countOf sid c.desc 0 (dword c.desc r.2.2)
    let overCap := if r.1 ≤ 2 then dword c.desc 15 < 64 * (dfld c.desc 10 0 20 + count) else
      if r.1 = 3 then dword c.desc 13 < count else 4096 * dword c.desc 13 < 512 * count
    (∀ acc, acc ≠ c.acc → exec (r.2.1 sid acc) s = .next s) ∧
    (dClass c.desc = 0x12 → dOp c.desc = r.1 →
      let ends := fun st => Does (r.2.1 sid c.acc) s fun t =>
        EndedNow t (.stream sid) c.acc st ∧ t.mem = s.mem ∧ KeepsOutside (endWord sid) s t
      (s.fld (Reg.btrLanes k) < 48 → ends .unitFault) ∧
      (48 ≤ s.fld (Reg.btrLanes k) →
        (∀ st, s.shapeFault sid c.desc = some st → ends st) ∧
        (s.shapeFault sid c.desc = none → (count = 0 → ends .ok) ∧ (count ≠ 0 → overCap → ends .sizeFault))))) ∧
  (∀ (k : Nat) (s : State), k < 8 → Does (.btrCntClear k) s fun t => t.fld (Reg.btrBlocksUpdated k) = 0 ∧
    KeepsOutside (fun o => (Reg.btrBlocksUpdated k).off ≤ o ∧ o < (Reg.btrBlocksUpdated k).off + 8) s t ∧ ChangesOnly [.reg] s t)

/-- An UPDATE of one block leaves its shadow slot valid at the target epoch, or stops at a non-finite value. An UPDATE of one block that
passes every check, on undamaged and free lines, with no lane fault: when every value is finite it ends with OK, the block's entry shows its
shadow slot valid at TARGET_EPOCH, and, where its working copy lies in a scratchpad, the shadow slot holds the new masters. When a gradient,
moment or master is not finite, or an exact block overflowed or is masked, it ends with NUMERIC_FAIL, the entry shows the shadow slot not
valid, and no other byte changes. -/
def Obligations.UpdateWritesTheShadowSlot : Prop :=
  ∀ (sid : Nat) (s : State) (c : Cmd) (rest : List Cmd), Memory.wf s.mem → 1056 ≤ sid → sid < 1064 → (s.strm sid).issued = c :: rest →
    dClass c.desc = 0x12 → dOp c.desc = 0 →
    let k := sid - 1056
    let tbl := daddr c.desc 8 9 12
    let aux := daddr c.desc 12 13 12
    let ep := dword c.desc 14
    let o := s.optRec aux
    let a := tbl + 64 * dfld c.desc 10 0 20
    let span := 64 * (dfld c.desc 10 0 20 + 1)
    let e := s.bEntry a
    let cs := (e.committed (s.fld (Reg.btrEpoch k))).getD 0
    let h := 1 - cs
    let res := (List.range e.params).map fun i => o.apply (s.gradAt e i) (s.master k (e.slot cs) i) (s.moment k (e.slot cs) 0x100000 0x180000 e4m3 i)
      (s.moment k (e.slot cs) 0x140000 0x180800 e5m2 i)
    let blocks := if e.exact then (List.range (8 * e.tiles)).map fun j => s.exBlock (e.grad + 512 * j) else []
    let fin := fun v => fFinite fp32 v = true
    let sound := (∀ b ∈ blocks, bit b.flags 0 = false ∧ b.mask = 0) ∧
      ∀ r ∈ res, fin r.1 ∧ fin r.2.1 ∧ fin r.2.2.1 ∧ (o.opt = 0 → fin r.2.2.2)
    48 ≤ s.fld (Reg.btrLanes k) → s.shapeFault sid c.desc = none → s.countOf sid c.desc 0 (dword c.desc 11) = 1 → span ≤ dword c.desc 15 →
    tbl % 64 = 0 → s.inScratch tbl span = true → aux % 64 = 0 → s.inScratch aux 64 = true → s.readHurt aux 64 = none → o.bad = false →
    ep = (s.fld (Reg.btrEpoch k) + 1) % 2 ^ 32 → s.entriesFault k true [(a, 0)] = none →
    s.ready ((true, tbl, span) :: (false, aux, 64) :: s.blockExts k 0 c.desc o e) = true → s.laneArmed k = none →
    e.tiles ≠ 0 → s.blockHurt k e cs (some o.opt) = none → s.shadowHurt k e h o.opt (ep % 2) = none →
    (sound → Does (.update sid c.acc) s fun t =>
      EndedNow t (.stream sid) c.acc .ok ∧ bytesAt t.mem a 64 = leBytes 64 (e.setSlot h true ep).d.toNat ∧
      (e.wcLpa (ep % 2) = true → t.stackRead k (e.slot h) (4 * e.params) = (res.map (·.2.1)).flatMap (leBytes 4))) ∧
    (¬ sound → Does (.update sid c.acc) s fun t =>
      EndedNow t (.stream sid) c.acc .numericFail ∧
      ∀ x, byteAt t.mem x = (lastByte [(a, leBytes 64 (e.setSlot h false (e.epoch h)).d.toNat)] x).getD (byteAt s.mem x))

/-- REGEN, DIGEST, ACCUMULATE and CLEAR_BUF write their results and end. On a Beater with 48 lanes or more and no lane fault, with undamaged
and free lines and every check passed: REGEN of one block with its copy in a scratchpad writes the working copy of its committed slot and no
other byte. DIGEST of stored copies writes its digest table and no other byte. ACCUMULATE adds its tiles to the exact-sum blocks, each as
one addition of 32 elements, and changes no byte outside them. CLEAR_BUF writes blocks of zero with ANCHOR and no other byte. Each ends with
OK. -/
def Obligations.BeatersWriteWhatTheyCompute : Prop :=
  ∀ (sid : Nat) (s : State) (c : Cmd) (rest : List Cmd), Memory.wf s.mem → 1056 ≤ sid → sid < 1064 → (s.strm sid).issued = c :: rest →
    dClass c.desc = 0x12 →
    let k := sid - 1056
    let d := c.desc
    48 ≤ s.fld (Reg.btrLanes k) → s.shapeFault sid d = none → s.laneArmed k = none →
    (let tbl := daddr d 8 9 12
     let count := s.countOf sid d 0 (dword d 11)
     let as := entryAddrs d count
     let span := 64 * (dfld d 10 0 20 + count)
     let blocks := as.flatMap fun y => s.blockExts k (dOp d) d (s.optRec (daddr d 12 13 12)) (s.bEntry y.1)
     count ≠ 0 → span ≤ dword d 15 → tbl % 64 = 0 → s.inScratch tbl span = true →
     (dOp d = 1 → count = 1 →
       let e := s.bEntry (tbl + 64 * dfld d 10 0 20)
       let cs := (e.committed (s.fld (Reg.btrEpoch k))).getD 0
       let ep := e.epoch cs
       s.ready ((false, tbl, span) :: blocks) = true → s.entriesFault k true as = none → e.tiles ≠ 0 → s.blockHurt k e cs none = none →
       s.wcWriteHurt k e (ep % 2) = none → e.wcLpa (ep % 2) = true → Does (.regen sid c.acc) s fun t =>
         EndedNow t (.stream sid) c.acc .ok ∧
         ∀ x, byteAt t.mem x = (lastByte ((workingCopy s k e ep (dfld d 14 0 1 == 1) (s.masters k (e.slot cs) e.params)).flatMap fun w =>
           (e.wc (ep % 2) + w.1, w.2.1) :: w.2.2.map fun b => (e.wc (ep % 2) + b.1, [b.2])) x).getD (byteAt s.mem x)) ∧
     (dOp d = 2 → dfld d 14 0 1 = 0 →
       let aux := daddr d 12 13 12
       let key := s.fld (Reg.btrWmKeyLo k) + 2 ^ 32 * s.fld (Reg.btrWmKeyHi k)
       aux % 64 = 0 → s.inScratch aux (wmExtent count) = true → wmExtent count ≤ 64 * dfld d 14 2 30 → s.entriesFault k false as = none →
       s.ready ((false, tbl, span) :: (true, aux, wmExtent count) :: blocks) = true →
       as.findSome? (fun y => s.digestHurt k d (s.bEntry y.1)) = none → s.writeHurt aux (wmExtent count) = none →
       Does (.digest sid c.acc) s fun t => EndedNow t (.stream sid) c.acc .ok ∧
         ∀ x, byteAt t.mem x = (lastByte [(aux, wmTable key (as.map fun y => leafDigest s k d (s.bEntry y.1)))] x).getD (byteAt s.mem x))) ∧
    (let dst := daddr d 10 11 12
     let n := s.countOf sid d 0 (dword d 12)
     n ≠ 0 → dst % 512 = 0 →
     (dOp d = 3 →
       let src := daddr d 8 9 12
       n ≤ dword d 13 → src % 64 = 0 → s.extent src (1024 * n) = some .ls → coreOfAddr src = coreOfAddr (src + 1024 * n - 1) →
       (∀ m, coreOfAddr src = some m → s.outOfService m = false) → s.inScratch dst (4096 * n) = true → s.ready [(true, dst, 4096 * n)] = true →
       s.readHurt src (1024 * n) = none → s.readHurt dst (4096 * n) = none → Does (.accumulate sid c.acc) s fun t =>
         EndedNow t (.stream sid) c.acc .ok ∧ KeepsBytes (fun x => dst ≤ x ∧ x < dst + 4096 * n) s t ∧
         ∀ j, j < 8 * n → bytesAt t.mem (dst + 512 * j) 512 = ((s.exBlock (dst + 512 * j)).addAll (List.range 32)
           ((List.range 32).map fun x => leNat (bytesAt s.mem (src + 128 * j + 4 * x) 4))).toBytes) ∧
     (dOp d = 4 → 512 * n ≤ 4096 * dword d 13 → s.inScratch dst (512 * n) = true → s.ready [(true, dst, 512 * n)] = true →
       Does (.clearBuf sid c.acc) s fun t =>
         EndedNow t (.stream sid) c.acc .ok ∧ KeepsBytes (fun x => dst ≤ x ∧ x < dst + 512 * n) s t ∧
         ∀ j, j < n → bytesAt t.mem (dst + 512 * j) 512 = ExBlock.toBytes ⟨List.replicate 32 0, dfld d 14 0 16, 0, 0, 0⟩))

/-- A port's training states, its enable, retraining, loss and rekeying. Enabling a disabled port puts it in DETECT as new; disabling one
takes it to DISABLED with its frames and credits cleared; CHN_PORT_RETRAIN takes an enabled one to DETECT. A training state that completes
takes the port to the next: absent, lanes, peer check, keys, credits (the peer's grants are held and this end's told), ACTIVE; a failed or
timed out attempt counts and goes back to DETECT, or DOWN at the limit; a key check that the policy leaves out fails nothing. An ACTIVE port
that goes down retrains at once. A rekey gives an ACTIVE port a new session key, or takes it down. -/
def Obligations.PortsTrainAndRetrain : Prop :=
  ∀ (p : Nat) (s : State), p < 36 →
    let x := s.port p
    let st := s.fld (Reg.chnPortState p)
    let goes := fun (i : Instr) n => Does i s fun t => t.fld (Reg.chnPortState p) = n
    let failed := fun (i : Instr) => Does i s fun t =>
      t.port p = { x with tries := x.tries + 1 } ∧ t.fld (Reg.chnPortState p) = if s.fld (Reg.chnRetrainLimit p) ≤ x.tries + 1 then 8 else 1
    (∀ v, (v % 2 = 1 → s.fld (Reg.chnPortEnable p) = 0 → Does (.portEnable p v) s fun t =>
        t.fld (Reg.chnPortEnable p) = 1 ∧ t.fld (Reg.chnPortState p) = 1 ∧ t.port p = Port.reset) ∧
      (v % 2 = 1 → s.fld (Reg.chnPortEnable p) = 1 → exec (.portEnable p v) s = .next s) ∧
      (v % 2 = 0 → Does (.portEnable p v) s fun t =>
        t.fld (Reg.chnPortEnable p) = 0 ∧ t.fld (Reg.chnPortState p) = 0 ∧ t.port p = x.cleared)) ∧
    (s.fld (Reg.chnPortEnable p) = 1 → Does (.chnPortRetrain p) s fun t =>
      t.fld (Reg.chnPortState p) = 1 ∧ t.port p = { x.cleared with tries := 0 }) ∧
    (s.fld (Reg.chnPortEnable p) = 0 → exec (.chnPortRetrain p) s = .next s) ∧
    (st = 7 → Does (.portDown p) s fun t => t.fld (Reg.chnPortState p) = 1 ∧ t.port p = { x.cleared with tries := 0 } ∧
      Logged t (.unit 0x163) 0 .ok (.link p 8 1)) ∧
    (st ≠ 7 → exec (.portDown p) s = .next s) ∧
    (1 ≤ st → st ≤ 6 → failed (.trainStateTimeout p)) ∧
    (st = 0 ∨ 7 ≤ st → exec (.trainStateTimeout p) s = .next s ∧ ∀ r, exec (.trainStateDone p r) s = .next s) ∧
    (st = 1 → goes (.trainStateDone p .noFarEnd) 9 ∧ goes (.trainStateDone p .done) 2) ∧
    (st = 2 → goes (.trainStateDone p .done) 3) ∧
    (st = 3 → ∀ good,
      let lanes := (List.range 9).filter fun l => bit good l
      (∀ ls, mapEight good = some ls → Does (.trainStateDone p (.lanes good)) s fun t =>
        t.fld (Reg.chnPortState p) = 4 ∧ (t.port p).width = 8 ∧ t.fld (Reg.chnLaneMap p) = laneWord ls) ∧
      (mapEight good = none → 4 ≤ lanes.length → Does (.trainStateDone p (.lanes good)) s fun t =>
        t.fld (Reg.chnPortState p) = 4 ∧ (t.port p).width = 4 ∧ t.fld (Reg.chnLaneMap p) % 65536 = laneWord (lanes.take 4)) ∧
      (lanes.length < 4 → goes (.trainStateDone p (.lanes good)) 8)) ∧
    (st = 4 → ∀ index port, Does (.trainStateDone p (.peer index port)) s fun t =>
      t.fld (Reg.chnPeerIndex p) = index % 2 ^ 12 ∧ t.fld (Reg.chnPeerPort p) = port % 2 ^ 6 ∧
      t.fld (Reg.chnPortState p) = if index = s.neighbour (portDir p) ∧ port = facingPort p then 5 else 10) ∧
    let peer := (s.fld (Reg.chnPeerIndex p), s.fld (Reg.chnPeerPort p))
    let psk := (List.range 8).flatMap fun i => leBytes 4 (s.fld (Reg.secLinkPsk i))
    let shared := beBytes 48 (Config.free s.free)
    let keyed := { x with key := if s.me ≤ peer.1 then linkKeys psk shared (s.me, p) peer else linkKeys psk shared peer (s.me, p), packets := 0 }
    (st = 5 → (Does (.trainStateDone p .done) s fun t => t.fld (Reg.chnPortState p) = 6 ∧ t.port p = keyed) ∧
      ∀ check, (s.makesCheck check = true → failed (.trainStateDone p (.keysFailed check))) ∧
        (s.makesCheck check = false → exec (.trainStateDone p (.keysFailed check)) s = .next s)) ∧
    (st = 6 → ∀ cells, Does (.trainStateDone p (.credits cells)) s fun t =>
      let given := cells.zipIdx.map fun c => (c.2, c.1)
      t.fld (Reg.chnPortState p) = 7 ∧ t.port p = { x with tries := 0, credit := given, granted := given, given := s.grants } ∧
      ∃ l, t.sent = s.sent ++ .credits p (s.grants.map (·.2)) :: l) ∧
    (st = 7 → (Does (.linkRekey p true) s fun t => t.port p = keyed ∧ t.fld (Reg.chnPortState p) = 7) ∧
      goes (.linkRekey p false) 1) ∧
    (st ≠ 7 → ∀ ok, exec (.linkRekey p ok) s = .next s)

/-- Frames are received in order, replayed and sent under credit; bad lanes are spared. With no link injection armed, an ACTIVE port accepts
a good frame in order: its number moves on modulo 4,096, acknowledged frames leave the replay buffer and credits return; one without packets
does nothing else. A frame beyond correction, with a bad CRC or out of order changes no port; a bad tag in order takes the port down. A held
frame asked for is sent again, and its eighth failure in a row takes the port down. One bad lane of eight is replaced by the unused spare,
the peer is told and the unacknowledged frames are sent again; otherwise the port retrains at width 4, or goes down below 4 good lanes. A
packet leaves by its exit port under credit and replay room, its sealed bytes following those that wait for a frame; else it waits in the
Vat. -/
def Obligations.FramesCrossAnActivePort : Prop :=
  ∀ (s : State), (∀ x ∈ s.cons.armed, x.target ≠ 0x08 ∧ x.target ≠ 0x09 ∧ x.target ≠ 0x0A) →
  (∀ p, p < 36 →
    let x := s.port p
    let active := s.fld (Reg.chnPortState p) = 7
    (∀ q lastSeen credits fec crcOk tagOk pkts,
      let i := Instr.frameReceive p q lastSeen credits fec crcOk tagOk pkts
      let acked := fun (n : Nat) => decide ((lastSeen + 4096 - n) % 4096 < 2048)
      let sound := fec ≤ 8 ∧ crcOk = true ∧ q % 4096 = x.rxSeq
      (¬ active → exec i s = .next s) ∧
      (active → ¬ sound → Does i s fun t => t.ports = s.ports ∧ t.fld (Reg.chnPortState p) = 7) ∧
      (active → sound → tagOk = false → Does i s fun t => t.fld (Reg.chnPortState p) = 1 ∧ t.port p = { x.cleared with tries := 0 }) ∧
      let credit := (List.range 10).map fun k => (k, creditAt x.credit k + credits.getD k 0)
      (active → sound → tagOk = true → (∀ k ∈ pkts, k.type ≠ .ctl) → Does i s fun t =>
        (t.port p).rxSeq = (x.rxSeq + 1) % 4096 ∧ (t.port p).credit = credit ∧
        (pkts = [] → t.port p = { x with
          rxSeq := (x.rxSeq + 1) % 4096, replay := x.replay.filter fun f => !acked f.1, fails := x.fails.filter fun f => !acked f.1,
          credit := credit }))) ∧
    (∀ q ok,
      let n := if ok then 0 else creditAt x.fails (q % 4096) + 1
      (¬ active ∨ nget x.replay (q % 4096) = none → exec (.frameReplay p q ok) s = .next s) ∧
      (active → ∀ bytes, nget x.replay (q % 4096) = some bytes →
        (n < 8 → Does (.frameReplay p q ok) s fun t =>
          t.sent = s.sent ++ [.frame p bytes] ∧ t.port p = { x with fails := nset x.fails (q % 4096) n }) ∧
        (8 ≤ n → Does (.frameReplay p q ok) s fun t =>
          t.fld (Reg.chnPortState p) = 1 ∧ t.port p = { x.cleared with tries := 0 }))) ∧
    (∀ errs lock,
      let good := fun l => bit lock l && decide (errs.getD l 0 ≤ s.fld (Reg.chnLaneSerLimit p))
      let map := (List.range (s.fld (Reg.chnPortWidth p))).map fun i => s.fld (Reg.chnLaneMap p) / 16 ^ i % 16
      let lanes := (List.range 9).filter good
      let bad := map.filter fun l => !good l
      let spare := fun b => bad = [b] ∧ s.fld (Reg.chnPortWidth p) = 8 ∧ s.fld (Reg.chnSpareUsed p) = 0 ∧ good 8 = true
      (¬ active ∨ bad = [] → exec (.laneSerCheck p errs lock) s = .next s) ∧
      (active → ∀ b, spare b → Does (.laneSerCheck p errs lock) s fun t =>
        let ls := map.map fun l => if l = b then 8 else l
        t.fld (Reg.chnLaneMap p) = laneWord ls ∧ t.fld (Reg.chnSpareUsed p) = 1 ∧ t.fld (Reg.chnPortState p) = 7 ∧
        t.sent = s.sent ++ .remap p ls :: x.replay.map (fun f => .frame p f.2) ∧
        t.cons.repairs = ⟨3, 2, 0, p, b, 8, 0x09, s.boot⟩ :: s.cons.repairs) ∧
      (active → bad ≠ [] → (∀ b, ¬ spare b) → 4 ≤ lanes.length → Does (.laneSerCheck p errs lock) s fun t =>
        t.fld (Reg.chnPortState p) = 1 ∧ (t.port p).width = 4 ∧ t.fld (Reg.chnLaneMap p) % 65536 = laneWord (lanes.take 4)) ∧
      (active → bad ≠ [] → (∀ b, ¬ spare b) → lanes.length < 4 → Does (.laneSerCheck p errs lock) s fun t =>
        t.fld (Reg.chnPortState p) = 1 ∧ t.port p = { x.cleared with tries := 0 }))) ∧
  (∀ (pkt : Packet) (queued : List Nat),
    let route := s.fld Reg.chnFabricEn = 1 ∧ pkt.dst ≠ s.me
    let port := s.exitPort pkt.dst (decide (classOf pkt.type < 3)) queued
    let waits := Does (.packetForward pkt queued) s fun t => (∃ x ∈ t.fab.transit, x.pkt = pkt) ∧
      ∀ p, (t.port p).fill = (s.port p).fill ∧ (t.port p).replay = (s.port p).replay ∧ (t.port p).credit = (s.port p).credit
    (¬ route → exec (.packetForward pkt queued) s = .next s) ∧
    (route → port = none → waits) ∧
    (route → ∀ p, port = some p →
      let x := s.port p
      let vc := pkt.vc || s.crossesDateline (portDir p)
      let key := 2 * classOf pkt.type + if vc then 1 else 0
      let cells := packetCells pkt
      let bytes := x.fill.length + packetBytes pkt
      let n := if queued.getD p 0 = 0 then cdiv bytes 240 else bytes / 240
      let room := cells ≤ creditAt x.credit key ∧ x.replay.length + cdiv bytes 240 ≤ 512
      (¬ room → waits) ∧
      (room → Does (.packetForward pkt queued) s fun t =>
        (t.port p).packets = x.packets + 1 ∧ (t.port p).credit = nset x.credit key (creditAt x.credit key - cells) ∧
        ∃ new l, (t.port p).replay = x.replay ++ new ∧ new.length = n ∧ t.sent = s.sent ++ l ++ new.map (fun f => .frame p f.2) ∧
          (∀ f ∈ new.zipIdx, f.1.1 % 4096 = (x.nextSeq + f.2) % 4096) ∧ (t.port p).nextSeq % 4096 = (x.nextSeq + n) % 4096 ∧
          ∃ k, k < 240 ∧ new.flatMap (fun f => f.2.drop 16) ++ (t.port p).fill =
            x.fill ++ s.sealed p { pkt with vc := vc } ++ List.replicate k 0)))

/-- A write, atomic or flag request is applied once in its turn; a READ is answered from memory. A request of the rack to this package, in
its turn, on free lines, that its window neither holds nor refuses is applied: a write stores its payload, an atomic its result with the old
value in the reply, a flag operation its value; one that may not be made is refused with its status and stores nothing; either way its
accession enters the window. On lines that are not free it is held at their Vault. One the window holds is answered again from it, one below
it is refused STALE_ACCESSION, and neither changes memory or flags. A flagged or ordered request ahead of its turn is held. A READ is
answered with the bytes, or refused. -/
def Obligations.TargetsServeEachRequestOnce : Prop :=
  ∀ (s : State) (p : Packet), (∀ x ∈ s.cons.armed, x.target ≠ 0x08) → Memory.wf s.mem →
    let o := s.orderOf p.src
    let reply := fun type st v data => (Msg.packet { Packet.blank with
      type := type, cls := 1, src := s.me, dst := p.src, acc := p.acc, ordSeq := p.ordSeq, lpa := p.lpa, length := data.length, status := st, v := v, payload := data })
    let told := fun (t : State) type st v data => t.sent.getLast? = some (reply type st v data)
    let ordered := p.flagged = true ∨ p.ordered = true
    let ahead := ordered ∧ after32 ((p.ordSeq + 2 ^ 32 - 1) % 2 ^ 32) o.mark = true
    let takes := o.ranges.all (fun r => after32 r.1 p.ordSeq || after32 p.ordSeq r.2) = true
    (∀ r ∈ [(PktType.write, Instr.write), (PktType.atomic, Instr.remoteAtomic), (PktType.flag, Instr.remoteFlag)],
      (s.atTarget p r.1 = false → exec (r.2 p) s = .next s) ∧
      (s.atTarget p r.1 = true → takes → (ordered → o.closed = false) →
        (ahead → o.held.any (·.acc == p.acc) = false → s.fld (Reg.vatLevel 4) < 3 → Does (r.2 p) s fun t =>
          (t.orderOf p.src).held = o.held ++ [p] ∧ t.mem = s.mem ∧ t.flags = s.flags) ∧
        (¬ ahead → o.held = [] → s.dieOfPacket p = none → Does (r.2 p) s fun t =>
          t.mem = s.mem ∧ t.flags = s.flags ∧ told t .refuse .addressFault 0 []) ∧
        (¬ ahead → o.held = [] → ∀ d, s.dieOfPacket p = some d →
          let win := s.target d p.src
          let n := if p.size8 then 8 else 4
          let m := s.readNat p.lpa n
          (∀ e, win.window.find? (·.1 == p.acc) = some e → Does (r.2 p) s fun t => t.mem = s.mem ∧ t.flags = s.flags ∧
            (e.2.1 ≠ .ok → told t .refuse e.2.1 0 []) ∧
            (e.2.1 = .ok → if r.1 = .atomic then told t .atomicData .ok e.2.2 [] else told t .ack .ok 0 [])) ∧
          (win.window.find? (·.1 == p.acc) = none → win.refuses p = true → Does (r.2 p) s fun t =>
            t.mem = s.mem ∧ t.flags = s.flags ∧ told t .refuse .staleAccession 0 []) ∧
          (win.window.find? (·.1 == p.acc) = none → win.refuses p = false → s.ready (packetExts p) = false → Does (r.2 p) s fun t =>
            t.mem = s.mem ∧ t.flags = s.flags ∧ (t.vault d).held = (s.vault d).held ++ [r.2 p]) ∧
          (win.window.find? (·.1 == p.acc) = none → win.refuses p = false → (win.floor = 0 → win.window = []) → s.ready (packetExts p) = true →
            (∀ st, s.targetFault p = some st → Does (r.2 p) s fun t =>
              t.mem = s.mem ∧ t.flags = s.flags ∧ told t .refuse st 0 [] ∧ (p.acc, st, 0) ∈ (t.target d p.src).window) ∧
            (s.targetFault p = none →
              (r.1 = .write → Does (r.2 p) s fun t => told t .ack .ok 0 [] ∧ (p.acc, .ok, 0) ∈ (t.target d p.src).window ∧
                ∀ a, byteAt t.mem a = (lastByte [(p.lpa, p.payload.take p.length)] a).getD (byteAt s.mem a)) ∧
              (r.1 = .atomic → Does (r.2 p) s fun t => told t .atomicData .ok m [] ∧ (p.acc, .ok, m) ∈ (t.target d p.src).window ∧
                ∀ a, byteAt t.mem a = (lastByte [(p.lpa, leBytes n (atomicResult p.atomicOp (8 * n) m p.v p.c))] a).getD (byteAt s.mem a)) ∧
              (r.1 = .flag → Does (r.2 p) s fun t => told t .ack .ok 0 [] ∧ (p.acc, .ok, 0) ∈ (t.target d p.src).window ∧ t.mem = s.mem ∧
                t.flagAt ((p.lpa - 0x09100000000) / 0x100) (p.lpa % 0x100 / 4) =
                  ⟨flagResult p.fop (s.flagAt ((p.lpa - 0x09100000000) / 0x100) (p.lpa % 0x100 / 4)).val (BitVec.ofNat 32 p.v), .remote p.src p.acc⟩)))))) ∧
    ((s.atTarget p .read = false → exec (.read p) s = .next s) ∧
     (s.atTarget p .read = true →
      (∀ st, s.targetFault p = some st → Does (.read p) s fun t => told t .refuse st 0 [] ∧ t.mem = s.mem) ∧
      (s.targetFault p = none → s.ready (packetExts p) = true → Does (.read p) s fun t =>
        told t .readData .ok 0 (s.read p.lpa p.length) ∧ t.mem = s.mem) ∧
      (s.targetFault p = none → s.ready (packetExts p) = false → Does (.read p) s fun t =>
        (t.vault (s.homeDie p.lpa)).held = (s.vault (s.homeDie p.lpa)).held ++ [.read p] ∧ t.mem = s.mem)))

/-- Order timeouts, resync at both ends, reissue, liveness probes and the fabric enable. An order timeout refuses every request held from
its source, closes its state and records the gap. A resync sets the source's mark anew and is acknowledged. CHN_RESYNC_GO asks a reachable
destination and is busy, or ends with DEAD_TARGET; its acknowledgement lifts the broken mark and ends it with OK. CHN_RI_GO runs on this
package or waits at its Vault, goes to a reachable one when it may be injected and waits otherwise, or ends with DESCRIPTOR_FAULT or
DEAD_TARGET. The acting master probes every other package of its rack. CHN_FABRIC_EN makes this package reachable to itself. -/
def Obligations.OrderStatesTimeOutAndResync : Prop :=
  ∀ (s : State), NMap.Rising s.fab.broken →
    (∀ src acc,
      let o := s.orderOf src
      (o.held.find? (·.acc == acc) = none → exec (.orderTimeout src acc) s = .next s) ∧
      (∀ p, o.held.find? (·.acc == acc) = some p → Does (.orderTimeout src acc) s fun t =>
        t.orderOf src = { o with
          held := [], closed := true, ranges := ((o.mark + 1) % 2 ^ 32, (p.ordSeq + 2 ^ 32 - 1) % 2 ^ 32) :: o.ranges } ∧
        Logged t (.fabric src) acc .timeout (.orderTimeout src ((o.mark + 1) % 2 ^ 32) ((p.ordSeq + 2 ^ 32 - 1) % 2 ^ 32) o.held.length))) ∧
    (∀ src n, (s.fld Reg.chnFabricEn = 0 → exec (.resyncAtTarget src n) s = .next s) ∧
      (s.fld Reg.chnFabricEn = 1 → Does (.resyncAtTarget src n) s fun t =>
        t.orderOf src = ⟨n % 2 ^ 32, [], [], false, []⟩ ∧ t.sent.getLast? = some (.resyncAck src))) ∧
    (∀ dest,
      let g := s.inMyRack (dest % 64)
      let last := ((nget s.fab.ordNext g).getD 1 + 2 ^ 32 - 1) % 2 ^ 32
      (s.fld Reg.chnResyncBusy = 1 → exec (.chnResyncGo dest) s = .next s) ∧
      (s.fld Reg.chnResyncBusy = 0 → s.canReach g = false → Does (.chnResyncGo dest) s fun t =>
        t.fld Reg.chnResyncBusy = 0 ∧ t.fld Reg.chnResyncStatus = statusCode .deadTarget ∧ t.fab.resync = none) ∧
      (s.fld Reg.chnResyncBusy = 0 → s.canReach g = true → Does (.chnResyncGo dest) s fun t =>
        t.fld Reg.chnResyncBusy = 1 ∧ t.fab.resync = some (g, last) ∧ t.sent = s.sent ++ [.resync g last])) ∧
    (∀ dest n, s.fab.resync = some (dest, n) → (∀ d, d ≠ dest → exec (.resyncAck d) s = .next s) ∧
      Does (.resyncAck dest) s fun t => t.fab.resync = none ∧ nget t.fab.broken dest = none ∧ t.fld Reg.chnResyncBusy = 0 ∧
        t.fld Reg.chnResyncStatus = statusCode .ok) ∧
    (let acc := s.fld48 Reg.chnRiAccLo Reg.chnRiAccHi
     let fpa := s.fld Reg.chnRiTgtLo + 2 ^ 32 * s.fld Reg.chnRiTgtHi
     let dst := s.inMyRack (fpa / 2 ^ 44 % 64)
     let a := fpa % 2 ^ 44
     let op := s.fld Reg.chnRiOp
     let size8 := s.fld Reg.chnRiSize8 == 1
     let n := if size8 then 8 else 4
     let m := s.readNat a n
     let p : Packet := { Packet.blank with
       type := .atomic, cls := 0, retry := true, src := s.me, dst := dst, acc := acc, ordSeq := s.reissueSeq acc dst, lpa := a, atomicOp := op, size8 := size8, v := s.fld Reg.chnRiV, c := s.fld Reg.chnRiC }
     let bad := s.fld48 Reg.chnAccNextLo Reg.chnAccNextHi ≤ acc ∨ 0xB < op
     (s.fld Reg.chnRiBusy = 1 → exec .chnRiGo s = .next s) ∧
     (s.fld Reg.chnRiBusy = 0 →
      (bad → Does .chnRiGo s fun t => t.fld Reg.chnRiBusy = 0 ∧ t.fld Reg.chnRiStatus = statusCode .descriptorFault ∧ t.mem = s.mem) ∧
      (¬ bad → dst = s.me → s.atomicFault .registrar op a size8 = none → s.ready [(true, a, 4)] = true → Memory.wf s.mem → Does .chnRiGo s fun t =>
        t.fld Reg.chnRiBusy = 0 ∧ t.fld Reg.chnRiStatus = statusCode .ok ∧ t.fld Reg.chnRiResult = m ∧
        ∀ x, byteAt t.mem x = (lastByte [(a, leBytes n (atomicResult op (8 * n) m (s.fld Reg.chnRiV) (s.fld Reg.chnRiC)))] x).getD (byteAt s.mem x)) ∧
      (¬ bad → dst = s.me → ∀ st, s.atomicFault .registrar op a size8 = some st → Does .chnRiGo s fun t =>
        t.fld Reg.chnRiBusy = 0 ∧ t.fld Reg.chnRiStatus = statusCode st ∧ t.mem = s.mem) ∧
      (¬ bad → dst = s.me → s.atomicFault .registrar op a size8 = none → s.ready [(true, a, 4)] = false → Does .chnRiGo s fun t =>
        (t.vault (s.homeDie a)).held = (s.vault (s.homeDie a)).held ++ [.chnRiGo] ∧ t.mem = s.mem) ∧
      (¬ bad → dst ≠ s.me → s.canReach dst = false → Does .chnRiGo s fun t =>
        t.fld Reg.chnRiBusy = 0 ∧ t.fld Reg.chnRiStatus = statusCode .deadTarget ∧ (nget t.fab.broken dst).isSome = true) ∧
      (¬ bad → dst ≠ s.me → s.canReach dst = true → s.mayInject p = true → (∀ x ∈ s.cons.armed, x.target ≠ 0x08) → Does .chnRiGo s fun t =>
        t.fld Reg.chnRiBusy = 1 ∧ t.fab.ri = some p ∧ t.fab.riWaits = false ∧ t.sent.getLast? = some (.packet p)) ∧
      (¬ bad → dst ≠ s.me → s.canReach dst = true → s.mayInject p = false → Does .chnRiGo s fun t =>
        t.fld Reg.chnRiBusy = 1 ∧ t.fab.ri = some p ∧ t.fab.riWaits = true ∧ t.sent = s.sent))) ∧
    (s.isMaster = true → Does .livenessProbe s fun t =>
      ∃ l, t.sent = s.sent ++ ((List.range 64).filter (· != s.myIndex)).map (fun i => .probe (s.inMyRack i)) ++ l) ∧
    (s.isMaster = false → exec .livenessProbe s = .next s) ∧
    (∀ v, (v % 2 = 1 → s.fld Reg.chnFabricEn = 0 → Does (.chnFabricEn v) s fun t =>
        t.fld Reg.chnFabricEn = 1 ∧ t.reachable t.me = true ∧ t.fld Reg.chnRackMasterAct = s.fld Reg.chnRackMaster) ∧
      (v % 2 = 1 → s.fld Reg.chnFabricEn = 1 → exec (.chnFabricEn v) s = .next s) ∧
      (v % 2 = 0 → Does (.chnFabricEn v) s fun t => t.fld Reg.chnFabricEn = 0 ∧ KeepsWords [Reg.chnFabricEn.off] s t ∧ ChangesOnly [.reg] s t))

/-- COPY, ATOMIC, FLAG_STORE and FENCE within the package. A COPY of no package of its own ends with DESCRIPTOR_FAULT, of no bytes with OK,
and over its capacity with SIZE_FAULT. One within the package's memory, its extents apart, reached, free and undamaged, ends with OK and the
destination alone holds the source's bytes. An ATOMIC of the package on a free word ends with OK, leaves the operation's result and writes
the old value where asked. A FLAG_STORE to the package ends with OK and applies its operation. A FENCE that covers no outstanding request or
reissue ends with OK, or with the status of a broken mark; one that covers some waits for them. -/
def Obligations.LocalTransfersMoveTheirData : Prop :=
  ∀ (sid acc : Nat) (s : State) (c : Cmd), Memory.wf s.mem → (sid < 1024 ∨ 1072 ≤ sid) → sid < 1088 → c.phase = 0 →
    let d := c.desc
    let who := requesterOf sid
    (s.issuedCmd sid acc 0x02 0 = some c →
      let len := s.copyLen sid d
      let mine := fun a => fpaPkg a = s.myIndex
      let src := fpaLpa (dSrcFpa d)
      let dst := fpaLpa (dDstFpa d)
      let ends := fun st => Does (.copy sid acc) s fun t => EndedNow t (.stream sid) acc st ∧ t.mem = s.mem ∧
        KeepsOutside (fun o => endWord sid o ∨ (sid < 1024 ∧ o = (Reg.coreDmaBusy (sid / 4)).off)) s t
      (¬ mine (dSrcFpa d) → ¬ mine (dDstFpa d) → ends .descriptorFault) ∧
      (mine (dSrcFpa d) ∨ mine (dDstFpa d) → s.shapeFault sid d = none →
        (len = 0 → ends .ok) ∧ (dword d 13 < len → ends .sizeFault) ∧
        (mine (dSrcFpa d) → mine (dDstFpa d) → 0 < len → len ≤ dword d 13 → src + len ≤ 0x09040000000 → dst + len ≤ 0x09040000000 →
          s.mayMove who false src len = true → s.mayMove who true dst len = true → s.storeOut src = false → s.storeOut dst = false →
          s.readHurt src len = none → s.writeHurt dst len = none → (src + len ≤ dst ∨ dst + len ≤ src) →
          s.ready (vaultExt false src len ++ vaultExt true dst len) = true → Does (.copy sid acc) s fun t => EndedNow t (.stream sid) acc .ok ∧
            ∀ a, byteAt t.mem a = (lastByte [(dst, bytesAt s.mem src len)] a).getD (byteAt s.mem a)))) ∧
    (s.issuedCmd sid acc 0x02 1 = some c →
      let a := fpaLpa (dSrcFpa d)
      let n := if dAtSize8 d then 8 else 4
      let m := s.readNat a n
      let outs := match dAtResult d with | some r => [(r, atomicBytes m)] | none => []
      let free := (dAtResult d).map fun r => vaultExt true r 12
      fpaPkg (dSrcFpa d) = s.myIndex → (dAtResult d = none → dAtOp d < 0xA) →
      (∀ st, dAtOp d ≤ 0xB → s.atomicFault who (dAtOp d) a (dAtSize8 d) = some st → Ends (.atomic sid acc) s (.stream sid) acc st) ∧
      (s.atomicFault who (dAtOp d) a (dAtSize8 d) = none →
        (∀ r, dAtResult d = some r → r + 16 ≤ 0x09040000000 ∧ s.mayMove who true r 16 = true ∧ s.storeOut r = false ∧ s.writeHurt r 12 = none) →
        s.ready ([(true, a, n)] ++ free.getD []) = true → Does (.atomic sid acc) s fun t => EndedNow t (.stream sid) acc .ok ∧
          ∀ x, byteAt t.mem x = (lastByte ((a, leBytes n (atomicResult (dAtOp d) (8 * n) m (dAtV d) (dAtC d))) :: outs) x).getD (byteAt s.mem x))) ∧
    (s.issuedCmd sid acc 0x02 2 = some c →
      let core := dfld d 8 0 8
      let flag := dfld d 8 8 6
      (48 ≤ flag ∨ dfld d 8 14 2 = 3 → Ends (.flagStore sid acc) s (.stream sid) acc .descriptorFault) ∧
      (flag < 48 → dfld d 8 14 2 ≠ 3 → dfld d 8 16 6 = s.myIndex →
        (s.outOfService core = true → Ends (.flagStore sid acc) s (.stream sid) acc .unitFault) ∧
        (s.outOfService core = false → dSigEn d = false → Does (.flagStore sid acc) s fun t => EndedNow t (.stream sid) acc .ok ∧
          t.flagAt core flag = ⟨flagResult (dfld d 8 14 2) (s.flagAt core flag).val (BitVec.ofNat 32 (dword d 9)), .stream sid acc⟩))) ∧
    (s.issuedCmd sid acc 0x02 3 = some c →
      let all := dfld d 8 8 1 = 1
      let dst := s.inMyRack (dfld d 8 0 6)
      let covered := (s.openReqs.filter fun e => effectful e.2.pkt.type && (decide all || e.2.pkt.dst == dst)).map (·.1) ++
        (s.reissued.filter fun p => decide all || p.dst == dst).toList.map (·.acc)
      let fault := if all then s.firstBroken else s.farFault dst true
      (¬ all → dst = s.me → Ends (.fence sid acc) s (.stream sid) acc .ok) ∧
      (all ∨ dst ≠ s.me →
        (∀ st, fault = some st → Ends (.fence sid acc) s (.stream sid) acc st) ∧
        (fault = none → covered = [] → Ends (.fence sid acc) s (.stream sid) acc .ok) ∧
        (fault = none → covered ≠ [] → Does (.fence sid acc) s fun t =>
          t.fab = { s.fab with fences := s.fab.fences ++ [(sid, acc, covered, none)] } ∧ t.mem = s.mem)))

/-- A remote transfer of one request takes its accession and order numbers and sends its packet. A remote COPY within one page, ATOMIC or
FLAG_STORE that passes its checks, to a reachable destination, when the fabric unit has room: its request is recorded under the next
accession number, which moves on; an effectful one takes the next order number of its destination, modulo 2^32; the packet goes out; and the
command waits for the response, except that a posted COPY ends with OK. A core's COPY to or from a package of its quire, with caching on,
asks the home of its first line for it instead. To a destination that is not reachable each ends with DEAD_TARGET. -/
def Obligations.RemoteTransfersMakeRequests : Prop :=
  ∀ r ∈ [(0, Instr.copy), (1, Instr.atomic), (2, Instr.flagStore)],
  ∀ (sid acc : Nat) (s : State) (c : Cmd), (sid < 1024 ∨ 1072 ≤ sid) → sid < 1088 → s.issuedCmd sid acc 0x02 r.1 = some c → c.phase = 0 →
    (s.strm sid).issued.find? (·.acc == acc) = some c → s.reqsOf sid acc = [] →
    let d := c.desc
    let len := s.copyLen sid d
    let e := if r.1 = 0 then bakeLen d len else d
    let dst := s.dmaDest d
    let type := if r.1 = 0 then (if s.copyOut d then PktType.write else .read) else if r.1 = 1 then .atomic else .flag
    let near := fpaLpa (if s.copyOut d then dSrcFpa d else dDstFpa d)
    let far := fpaLpa (if s.copyOut d then dDstFpa d else dSrcFpa d)
    let a := fpaLpa (dSrcFpa d)
    let n := if dAtSize8 d then 8 else 4
    let ord := (nget s.fab.ordNext dst).getD 1
    let p := (s.dmaRequest e 0).1
    let sound := (r.1 = 0 → s.copyOut d = ! (fpaPkg (dDstFpa d) == s.myIndex) ∧ s.shapeFault sid d = none ∧ 0 < len ∧ far % 4096 + len ≤ 4096 ∧
        len ≤ dword d 13 ∧ near + len ≤ 0x09040000000 ∧ s.mayMove (requesterOf sid) (! s.copyOut d) near len = true ∧ remoteRange far len = true ∧
        s.storeOut near = false ∧ s.moveHurt (! s.copyOut d) near len = none ∧ s.ready (vaultExt (! s.copyOut d) near len) = true) ∧
      (r.1 = 1 → fpaPkg (dSrcFpa d) ≠ s.myIndex ∧ dAtOp d ≤ 0xB ∧ (dAtResult d = none → dAtOp d < 0xA) ∧ remoteRange a n = true ∧ a % n = 0 ∧
        ∀ x, dAtResult d = some x → s.mayMove (requesterOf sid) true x 16 = true ∧ s.storeOut x = false ∧ s.moveHurt true x 12 = none) ∧
      (r.1 = 2 → dfld d 8 8 6 < 48 ∧ dfld d 8 14 2 ≠ 3 ∧ dfld d 8 16 6 ≠ s.myIndex)
    sound →
    (s.canReach dst = false → Ends (r.2 sid acc) s (.stream sid) acc .deadTarget) ∧
    (s.canReach dst = true → r.1 = 0 → s.throughCache sid d = true →
      let line := s.cachedLine e 0
      let die := dieOfSid sid
      s.vaultBusy die = false → nget s.cache (remoteKey die line.2) = none → s.fab.asks.any (·.1 == (die, line.2)) = false → Does (r.2 sid acc) s fun t =>
        t.sent = s.sent ++ [.cohAsk (if s.copyOut d then .write else .read) dst die (fpaLpa line.2)] ∧
        ∃ b, (t.strm sid).issued.find? (·.acc == acc) = some b ∧ b.desc = e ∧ b.phase = cachedFrom) ∧
    (s.canReach dst = true → s.throughCache sid d = false → nget s.fab.broken dst = none → s.mayInject p = true → (∀ x ∈ s.cons.armed, x.target ≠ 0x08) → Does (r.2 sid acc) s fun t =>
      t.fabAcc = (s.fabAcc + 1) % 2 ^ 48 ∧
      (effectful type = true → nget t.fab.ordNext dst = some ((ord + 1) % 2 ^ 32)) ∧
      (s.copyPosted d = true → EndedNow t (.stream sid) acc .ok) ∧
      (s.copyPosted d = false → ∃ q, nget t.fab.reqs s.fabAcc = some q ∧ q.sid = sid ∧ q.cmd = acc ∧ q.ended = none ∧
        q.pkt = { p with acc := s.fabAcc, ordSeq := if effectful type then ord else 0 } ∧ q.pkt.type = type ∧ q.pkt.dst = dst ∧
        Msg.packet q.pkt ∈ t.sent))

/-- A response, an expired budget or a lost package ends what waits for it. The response to the only request of a command that waits for it
alone ends the command with the response's status, a READ's bytes or an ATOMIC's old value stored where asked; at the end of its budget the
command ends with DEAD_TARGET for a READ and UNKNOWN otherwise, and an effectful request breaks its destination. A retry sends the packet
again as a copy. A response to a request or a reissue that was given up is late. With no request outstanding, a declaration replaces the
reachability table and its generation, and the acting master's liveness timeout declares a package of its rack unreachable. -/
def Obligations.ResponsesAndSilenceEndRequests : Prop :=
  ∀ (s : State), NMap.Rising s.strms → Memory.wf s.mem →
    (∀ (a : Nat) (r : Req) (c : Cmd), a ≠ 0 → nget s.fab.reqs a = some r → r.pkt.acc = a → r.ended = none → r.sid < 1088 → (s.strm r.sid).issued = [c] → c.acc = r.cmd →
      dClass c.desc = 2 → dOp c.desc < 3 → c.phase = s.dmaCount c.desc + 1 → s.reqsOf r.sid r.cmd = [(a, r)] → r.posted = false → s.copyPosted c.desc = false →
      s.fab.fences = [] → (∀ e ∈ s.strms, e.1 ≠ r.sid → ∀ d ∈ e.2.issued, ¬ (dClass d.desc = 2 ∧ dOp d.desc < 3 ∧ 1 ≤ d.phase)) →
      (∀ x, r.dest = some x → x + 4096 ≤ 0x09040000000 ∧ r.pkt.length ≤ 4096 ∧ (r.pkt.type = .read ∨ r.pkt.type = .atomic) ∧
        (∀ l, l ≤ 4096 → s.landFault r.sid x l = none ∧ s.ready (vaultExt true x l) = true)) →
      (∀ p : Packet, p.acc = a → p.src = r.pkt.dst → p.dst = s.me → s.fld Reg.chnFabricEn = 1 → answers r.pkt.type p.type = true →
        (r.pkt.type = .read → p.payload.length = r.pkt.length) → (p.type = .refuse → p.status ≠ .ok) →
        [PktType.readData, .ack, .atomicData, .nak, .refuse].contains p.type = true → p.type ≠ .nak →
        let st := if p.type = .refuse then p.status else .ok
        let bs := if r.pkt.type = .read then p.payload else atomicBytes p.v
        Does (.responseArrival p) s fun t => EndedNow t (.stream r.sid) r.cmd st ∧
          (st = .ok → ∀ x, byteAt t.mem x = ((r.dest.map fun b => [(b, bs)]).bind fun l => lastByte l x).getD (byteAt s.mem x)) ∧
          (st ≠ .ok → t.mem = s.mem)) ∧
      (Does (.requestBudgetExpiry a) s fun t => EndedNow t (.stream r.sid) r.cmd (if r.pkt.type = .read then .deadTarget else .unknown) ∧
        (effectful r.pkt.type = true → (nget t.fab.broken r.pkt.dst).isSome = true)) ∧
      (s.fld Reg.chnFabricEn = 1 → (∀ x ∈ s.cons.armed, x.target ≠ 0x08) → Does (.requestRetry a) s fun t =>
        t.sent.getLast? = some (.packet { r.pkt with retry := true }) ∧ t.fab.reqs = s.fab.reqs)) ∧
    (∀ p : Packet, (∀ r, nget s.fab.reqs p.acc = some r → r.ended.isSome = true) → s.fab.ri = none →
      s.fab.riPast.contains (p.acc, p.src) = true ∨ (∃ r, nget s.fab.reqs p.acc = some r ∧ r.pkt.dst = p.src ∧ r.gaveUp = true) →
      p.dst = s.me → s.fld Reg.chnFabricEn = 1 → p.type = .ack → Does (.responseArrival p) s fun t =>
        t.fab.reqs = s.fab.reqs ∧ ∃ n, Logged t (.unit 0x160) 0 .timeout (.late .response n)) ∧
    (s.openReqs = [] → s.cachedCopies = [] → s.fab.ri = none → s.fab.resync = none →
      (∀ gen mask, (s.fld Reg.chnFabricEn = 0 → exec (.reachDeclaration gen mask) s = .next s) ∧
        (s.fld Reg.chnFabricEn = 1 → Does (.reachDeclaration gen mask) s fun t =>
          t.fld Reg.chnReachGen = gen % 2 ^ 32 ∧ ∀ i, i < 4096 → t.reachable i = bit mask i)) ∧
      (∀ pkg, pkg < 4096 →
        let may := s.isMaster = true ∧ s.reachable pkg = true ∧ pkg ≠ s.me ∧ rackOf pkg = rackOf s.me
        (¬ may → exec (.liveTimeout pkg) s = .next s) ∧
        (may → Does (.liveTimeout pkg) s fun t =>
          t.fld Reg.chnReachGen = (s.fld Reg.chnReachGen + 1) % 2 ^ 32 ∧ ∀ i, i < 4096 → t.reachable i = (s.reachable i && i != pkg))))

/-- Reads, writes, the twelve atomics and the exact-sum operations at their home Vault. A request whose lines are held, by a busy Vault, a
scrub, an older request or another member's copy, waits at its Vault; any other asks its slice's arbiter for its grants on its requester's
port. Then: a read or write of no bytes is answered OK; one that may not be made is answered with its status and stores nothing. A read is
answered with the bytes, and no byte changes. A write stores its bytes and no other. An atomic stores the operation's result of its width
and is answered with the old value. EXACT_ADD adds its addends to the slots of its mask, EXACT_READ is answered with the conversion,
EXACT_CLEAR clears the block. -/
def Obligations.VaultRequestsAreServedWhole : Prop :=
  ∀ (s : State) (r : Requester) (a : Nat), Memory.wf s.mem →
    let told := fun (t : State) st bs => t.sent.getLast? = some (.memReply r a st bs)
    let refuses := fun (i : Instr) st => Does i s fun t => t.sent = s.sent ++ [.memReply r a st []] ∧ ChangesOnly [.send, .slice] s t
    let stores := fun (t : State) bs => ∀ x, byteAt t.mem x = (lastByte [(a, bs)] x).getD (byteAt s.mem x)
    (∀ (i : Instr) (e : Ext), reqExt i = some e →
      let sl := s.sliceOf e.2.1
      (s.ready [e] = false → Does i s fun t =>
        (t.vault (s.homeDie e.2.1)).held = (s.vault (s.homeDie e.2.1)).held ++ [i] ∧ t.mem = s.mem) ∧
      (s.ready [e] = true → e.2.1 < 0x09000000000 → Does i s fun t =>
        (t.slice sl.1 sl.2).asked = (s.slice sl.1 sl.2).asked ++
          (grantsOf i).flatMap fun g => List.replicate g.2 (s.portOf sl.1 sl.2 (reqWho i), g.1))) ∧
    (∀ n, s.ready [(false, a, n)] = true →
      let ok := s.atVault a n = true ∧ s.reach r .read a n = true
      (n = 0 → refuses (.vaultRead r a n) .ok) ∧
      (n ≠ 0 → ¬ ok → refuses (.vaultRead r a n) .addressFault) ∧
      (∀ st, n ≠ 0 → ok → s.readHurt a n = some st → refuses (.vaultRead r a n) st) ∧
      (n ≠ 0 → ok → s.readHurt a n = none → Does (.vaultRead r a n) s fun t => told t .ok (bytesAt s.mem a n) ∧ t.mem = s.mem)) ∧
    (∀ bs, s.ready [(true, a, bs.length)] = true →
      let ok := s.atVault a bs.length = true ∧ s.reach r .write a bs.length = true
      (bs = [] → refuses (.vaultWrite r a bs) .ok) ∧
      (bs ≠ [] → ¬ ok → refuses (.vaultWrite r a bs) .addressFault) ∧
      (∀ st, bs ≠ [] → ok → s.writeHurt a bs.length = some st → refuses (.vaultWrite r a bs) st) ∧
      (bs ≠ [] → ok → s.writeHurt a bs.length = none → Does (.vaultWrite r a bs) s fun t => told t .ok [] ∧ stores t bs)) ∧
    (s.ready [(true, a, 4)] = true → ∀ size8 v c,
      let n := if size8 then 8 else 4
      let m := s.readNat a n
      ∀ op ∈ [(0x0, Instr.add r a size8 v), (0x1, .maxU r a size8 v), (0x2, .minU r a size8 v), (0x3, .maxS r a size8 v), (0x4, .minS r a size8 v),
        (0x5, .and r a size8 v), (0x6, .or r a size8 v), (0x7, .xor r a size8 v), (0x8, .fmax r a size8 v), (0x9, .fmin r a size8 v),
        (0xA, .swap r a size8 v), (0xB, .cas r a size8 v c)],
      (∀ st, s.atomicFault r op.1 a size8 = some st → refuses op.2 st) ∧
      (s.atomicFault r op.1 a size8 = none → Does op.2 s fun t =>
        told t .ok (leBytes n m) ∧ stores t (leBytes n (atomicResult op.1 (8 * n) m v c)))) ∧
    (s.ready [(true, a, 512)] = true →
      let fault := (s.exactFault r a).or (s.readHurt a 512)
      (∀ mask xs, (∀ st, s.exactFault r a = some st → refuses (.exactAdd r a mask xs) st) ∧
        (s.exactFault r a = none → mask % 2 ^ 32 = 0 → refuses (.exactAdd r a mask xs) .ok) ∧
        (∀ st, s.exactFault r a = none → mask % 2 ^ 32 ≠ 0 → s.readHurt a 512 = some st → refuses (.exactAdd r a mask xs) st) ∧
        (fault = none → mask % 2 ^ 32 ≠ 0 → Does (.exactAdd r a mask xs) s fun t =>
          told t .ok [] ∧ stores t ((s.exBlock a).addAll (maskSlots mask) (xs.map (·.toNat))).toBytes)) ∧
      (∀ st, fault = some st → refuses (.exactRead r a) st ∧ refuses (.exactClear r a) st) ∧
      (fault = none →
        (Does (.exactRead r a) s fun t => told t .ok (exactReadBytes (s.exBlock a)) ∧ t.mem = s.mem) ∧
        (Does (.exactClear r a) s fun t => told t .ok [] ∧ stores t (s.exBlock a).cleared.toBytes)))

/-- Partition changes, flushes and invalidations, and the release of what they hold. A change to another scratchpad size, clamped to 32 GiB,
while none is in progress makes the Vault busy, gives every slice its share, removes the cached lines of the ways taken, and makes what a
shrunk half loses read 0; no other byte changes. A flush of an idle Vault leaves no dirty line of its die, an invalidation no line, and no
byte of memory changes. Either ends by clearing its busy bit; a request held alone then runs as it would have. While the Vault is busy,
neither begins. HBM_CNT_CLEAR zeroes a stack's four counters alone. -/
def Obligations.VaultsRepartitionFlushAndRelease : Prop :=
  ∀ (d : Nat) (s : State), d < 2 → NMap.Rising s.cache → Memory.wf s.mem →
    (∀ gib,
      let new := min gib 32
      let old := s.fld (Reg.vltScratchGib d)
      let base := 0x08000000000 + d * 0x800000000
      (new = old ∨ s.fld (Reg.vltPartBusy d) = 1 → exec (.partitionChange d gib) s = .next s) ∧
      (new ≠ old → s.fld (Reg.vltPartBusy d) = 0 → Does (.partitionChange d gib) s fun t =>
        t.fld (Reg.vltScratchGib d) = new ∧ t.fld (Reg.vltPartBusy d) = 1 ∧ (∀ i, i < 64 → t.fld (Reg.vltSliceScratchMib d i) = 16 * new) ∧
        (∀ e ∈ t.cache, ¬ (e.2.die = d ∧ 256 - 8 * new ≤ e.2.way)) ∧
        ∀ a, byteAt t.mem a = if base + new * 0x40000000 ≤ a ∧ a < base + old * 0x40000000 then 0 else byteAt s.mem a)) ∧
    (∀ r ∈ [(Instr.vltFlush d, false), (Instr.vltInvalidate d, true)],
      (s.vaultBusy d = true → exec r.1 s = .next s) ∧
      (s.vaultBusy d = false → Does r.1 s fun t => t.fld (Reg.vltFlushBusy d) = 1 ∧ t.mem = s.mem ∧
        ∀ e ∈ t.cache, e.2.die = d → r.2 = false ∧ e.2.dirty = false)) ∧
    (∀ r ∈ [(Instr.partitionChangeDone d, Reg.vltPartBusy d), (Instr.flushDone d, Reg.vltFlushBusy d)],
      ((s.vault 0).held = [] → (s.vault 1).held = [] → Does r.1 s fun t =>
        t.fld r.2 = 0 ∧ (∀ k, k < 2 → (t.vault k).held = [] ∧ (t.vault k).scrubbed = (s.vault k).scrubbed) ∧ KeepsWords [r.2.off] s t ∧
        ChangesOnly [.reg, .vault] s t) ∧
      (∀ i e, (s.vault d).held = [i] → (s.vault (1 - d)).held = [] → reqExt i = some e → ∃ u : State, u.fld r.2 = 0 ∧ (u.vault d).held = [] ∧
        KeepsWords [r.2.off] s u ∧ ChangesOnly [.reg, .vault] s u ∧
        (u.ready [e] = true → ∃ v t, exec i u = .next v ∧ exec r.1 s = .next t ∧ ChangesOnly [.vault] v t))) ∧
    (∀ k, k < 8 → Does (.hbmCntClear k) s fun t =>
      t.fld (Reg.hbmReadBytes k) = 0 ∧ t.fld (Reg.hbmWriteBytes k) = 0 ∧ t.fld (Reg.hbmFarBytes k) = 0 ∧ t.fld (Reg.hbmBeaterBytes k) = 0 ∧
      KeepsOutside (fun o => hbmBase k + 0x10 ≤ o ∧ o < hbmBase k + 0x30) s t ∧ ChangesOnly [.reg] s t)

/-- VLT_PAGE_ATTR is held on CD0, mirrored to every decoder and read-only on CD1; 3 keeps a field. A write to the copy on CD1 changes
nothing. After a write of a word of the table on CD0, not locked, the copy of that word on CD1 equals it; each field written with 3 keeps
its value and the write is counted in VLT_ATTR_REFUSED (while the count has room), and each other field takes the value written, but the
fixed one of pair 1,023. Every address of a pair is placed by that one field: spread over all stacks at 0, on the die of its page at 1, on
the other die at 2. -/
def Obligations.PlacementTableIsMirroredAndReadOnlyOnCD1 : Prop :=
  ∀ (s : State),
    (∀ w v, exec (.pageAttrWrite 1 w v) s = .next s) ∧
    (∀ w v, w < 64 → s.fld (Reg.vltAttrLock 0) = 0 → Does (.pageAttrWrite 0 w v) s fun t =>
      t.fld (Reg.vltPageAttr 1 w) = t.fld (Reg.vltPageAttr 0 w) ∧
      (∀ j, j < 16 → (w = 63 → j ≠ 15) →
        t.pairAttr (16 * w + j) = if v / 2 ^ (2 * j) % 4 = 3 then s.pairAttr (16 * w + j) else v / 2 ^ (2 * j) % 4) ∧
      ((∃ j, j < 16 ∧ v / 2 ^ (2 * j) % 4 = 3) → s.fld (Reg.vltAttrRefused 0) + 1 < 2 ^ 16 →
        t.fld (Reg.vltAttrRefused 0) = s.fld (Reg.vltAttrRefused 0) + 1)) ∧
    (∀ a, a < 0x08000000000 →
      let page := a / 2 ^ 28
      let k := (s.placeOf a).1
      (s.pairAttr (page / 2) = 0 → k = foldGroups 3 (a / 4096 % 65536)) ∧
      (s.pairAttr (page / 2) = 1 → k / 4 = page % 2) ∧ (s.pairAttr (page / 2) = 2 → k / 4 = 1 - page % 2))

/-- A page pair whose attribute changes is scrubbed to zero; the lock freezes the table. An attribute write on CD0, not locked, scrubs each
pair whose field changes: its bytes read 0, it is held as being scrubbed and VLT_SCRUB_BUSY is set; the bytes of every other pair stay, and
pair 1,023 is never scrubbed. The end of a scrub releases its pair, and clears the busy bit after the last one. VLT_ATTR_LOCK sets the lock
alone; a write to the locked table changes no field and no byte, and is counted. -/
def Obligations.ChangedPagePairsAreScrubbed : Prop :=
  ∀ (s : State), Memory.wf s.mem →
    (∀ w v, w < 64 → s.fld (Reg.vltAttrLock 0) = 0 →
      let field := fun j => v / 2 ^ (2 * j) % 4
      let changes := fun i => ∃ j, j < 16 ∧ i = 16 * w + j ∧ i ≠ 1023 ∧ field j ≠ 3 ∧ field j ≠ s.pairAttr i
      Does (.pageAttrWrite 0 w v) s fun t =>
        (∀ a, a < 2 ^ 39 → changes (a / 2 ^ 29) → byteAt t.mem a = 0) ∧ (∀ a, ¬ changes (a / 2 ^ 29) → byteAt t.mem a = byteAt s.mem a) ∧
        (∀ i, changes i → i ∈ (t.vault 0).scrubbed ∧ t.fld (Reg.vltScrubBusy 0) = 1)) ∧
    (∀ w v, w < 64 → s.fld (Reg.vltAttrLock 0) = 1 → Does (.pageAttrWrite 0 w v) s fun t =>
      t.mem = s.mem ∧ (∀ i, t.pairAttr i = s.pairAttr i) ∧
      (s.fld (Reg.vltAttrRefused 0) + 1 < 2 ^ 16 → t.fld (Reg.vltAttrRefused 0) = s.fld (Reg.vltAttrRefused 0) + 1)) ∧
    (Does .vltAttrLock s fun t => t.fld (Reg.vltAttrLock 0) = 1 ∧ KeepsWords [(Reg.vltAttrLock 0).off] s t ∧ ChangesOnly [.reg] s t) ∧
    (∀ i, (s.vault 0).held = [] → (s.vault 1).held = [] → Does (.pageScrubDone i) s fun t =>
      (t.vault 0).scrubbed = (s.vault 0).scrubbed.filter (· != i) ∧ (t.vault 0).held = [] ∧
      t.fld (Reg.vltScrubBusy 0) = (if i ∈ (s.vault 0).scrubbed ∧ (s.vault 0).scrubbed.all (· == i) = true then 0 else s.fld (Reg.vltScrubBusy 0)) ∧
      ChangesOnly [.reg, .vault] s t)

/-- One cycle of a slice's arbiter, its lottery register, and a thermal sample. In each direction nobody wins without requests; the lowest
present port with 64 losses wins; else a sole requester wins; else, among those with tickets, the one the draw falls on, and with no tickets
none. A present port that does not win counts a loss, and a win resets; a grant asked for on the winning port is taken. The register takes
one step, or its seed with 0 loaded as 1. A sample moves the state of the hottest slice and of each stack by the thresholds and the 3-degree
hysteresis; the die shows the highest, and each stack its refresh rate. -/
def Obligations.SlicesArbitrateAndDiesFollowTheirHeat : Prop :=
  (∀ (d i rd wr : Nat) (s : State), d < 2 → i < 64 →
    let x := s.slice d i
    let l := s.fld (Reg.vltLfsr d i)
    let ports := fun m => (List.range 8).filter fun p => bit m p
    let tickets := fun p => s.fld (Reg.vltTickets d i) / 2 ^ (4 * p) % 16
    let won := fun (present loss : List Nat) draw (w : Option Nat) =>
      (present = [] → w = none) ∧
      (∀ p ∈ present, 64 ≤ loss.getD p 0 → (∀ q ∈ present, 64 ≤ loss.getD q 0 → p ≤ q) → w = some p) ∧
      ((∀ p ∈ present, loss.getD p 0 < 64) →
        (∀ p, present = [p] → w = some p) ∧
        (2 ≤ present.length → (∀ p ∈ present, tickets p = 0) → w = none) ∧
        (2 ≤ present.length → (∃ p ∈ present, 0 < tickets p) → ∃ p ∈ present, w = some p ∧
          let below := (((present.filter (· < p)).map tickets)).foldl (· + ·) 0
          let at_ := draw * (present.map tickets).foldl (· + ·) 0 / 65536
          below ≤ at_ ∧ at_ < below + tickets p))
    let counts := fun (present loss : List Nat) (w : Option Nat) (after : List Nat) =>
      ∀ p, p < 8 → after.getD p 0 = if w = some p then 0 else if present.contains p then loss.getD p 0 + 1 else loss.getD p 0
    Does (.sliceArbitration d i rd wr) s fun t =>
      won (ports rd) x.rdLoss (l % 65536) (t.slice d i).rdWin ∧ won (ports wr) x.wrLoss (l / 65536) (t.slice d i).wrWin ∧
      counts (ports rd) x.rdLoss (t.slice d i).rdWin (t.slice d i).rdLoss ∧ counts (ports wr) x.wrLoss (t.slice d i).wrWin (t.slice d i).wrLoss ∧
      (let took := fun (w : Option Nat) b (l : List (Nat × Bool)) => match w with | some p => l.erase (p, b) | none => l
       (t.slice d i).asked = took (t.slice d i).wrWin true (took (t.slice d i).rdWin false x.asked)) ∧
      t.fld (Reg.vltLfsr d i) = (lfsrStep Config.lfsrForm (BitVec.ofNat 32 l)).toNat ∧ t.mem = s.mem) ∧
  (∀ (d i seed : Nat) (s : State), d < 2 → i < 64 → Does (.vltLfsrSeed d i seed) s fun t =>
    t.fld (Reg.vltLfsr d i) = (if seed % 2 ^ 32 = 0 then 1 else seed % 2 ^ 32) ∧ KeepsWords [(Reg.vltLfsr d i).off] s t ∧ ChangesOnly [.reg] s t) ∧
  (∀ (d : Nat) (slices hbms : List Nat) (s : State), d < 2 →
    let hot := (slices.take 64).foldl max 0
    let v := thermNext (s.fld (Reg.vltVaultState d)) hot (s.fld (Reg.vltThermT1 d)) (s.fld (Reg.vltThermT2 d)) (s.fld (Reg.vltThermT3 d))
    let h := fun i => thermNext (s.fld (Reg.hbmThermState (4 * d + i))) (hbms.getD i 0) (s.fld (Reg.hbmThermT1 (4 * d + i)))
      (s.fld (Reg.hbmThermT2 (4 * d + i))) (s.fld (Reg.hbmThermT3 (4 * d + i)))
    Does (.thermalSample d slices hbms) s fun t =>
      t.fld (Reg.vltVaultState d) = v ∧ t.fld (Reg.vltTempMax d) = hot % 256 ∧ t.fld (Reg.vltThermState d) = max (max (max (max v (h 0)) (h 1)) (h 2)) (h 3) ∧
      (∀ i, i < 4 → t.fld (Reg.hbmThermState (4 * d + i)) = h i ∧ t.fld (Reg.hbmRefreshMult (4 * d + i)) = (if h i = 0 then 0 else if h i = 3 then 2 else 1)) ∧
      ChangesOnly [.reg, .draw] s t)

/-- The quire directory at the home, its time limit, and a member's answer to a recall. A remote request for a line outside the Vault is
refused; one that must wait, or that finds its set full, is held, and an entry of a full set is freed. A line that another member holds
Exclusive is recalled; a read of one nobody holds so is granted Shared and its member recorded; a write or upgrade is granted Exclusive when
no other member shares it, else the others are invalidated first; one in transition waits behind it. The last reply ends a transition and
gives the line to who waits for it; a write-back stores its data; a reply nothing waits for is late. At the time limit silent members are
dropped, and a recalled line is poisoned; a limit of 0 waits on. A member answers a recall and gives up its copy, or keeps it clean. -/
def Obligations.QuireDirectoryResolvesRequests : Prop :=
  ∀ (s : State), Memory.wf s.mem → NMap.Rising s.dir →
    let calm := (s.vault 0).held = [] ∧ (s.vault 1).held = []
    let idle := fun (i : Instr) => calm → Does i s fun t => ChangesOnly [.vault] s t ∧ (t.vault 0).held = [] ∧ (t.vault 1).held = []
    (∀ kind member die line,
      let l := line / 128 * 128
      let i := Instr.cohRemoteRequest kind member die line
      let e := (nget s.dir l).getD DirEnt.empty
      let others := e.sharers.filter (· != (member, die))
      let room := (nget s.dir l).isSome ∨ ∃ w, w < 16 ∧ ∀ p ∈ s.dirPeers l, p.2.way ≠ w
      let held := fun (t : State) => (t.vault (s.homeDie l)).held = (s.vault (s.homeDie l)).held ++ [i] ∧ t.mem = s.mem
      (member = s.quireIndex → exec i s = .next s) ∧
      (member ≠ s.quireIndex → s.atVault l 128 = false → exec i s = .next { s with sent := s.sent ++ [.cohRefuse l member die .addressFault] }) ∧
      (member ≠ s.quireIndex → s.atVault l 128 = true → s.waitsFor (kind != .read, l, 128) = true → Does i s held) ∧
      (member ≠ s.quireIndex → s.atVault l 128 = true → s.waitsFor (kind != .read, l, 128) = false → s.readHurt l 128 = none → ¬ room →
        Does i s fun t => held t ∧ ((s.dirPeers l).any (·.2.trans.frees) = false →
          ∀ p ∈ s.dirPeers l, p.2.way = (dirVictim (s.dirPeers l)).1 → p.2.trans = .none → ∃ x, nget t.dir p.1 = some x ∧ x.trans ≠ .none)) ∧
      (member ≠ s.quireIndex → s.atVault l 128 = true → s.waitsFor (kind != .read, l, 128) = false → room →
        (e.trans = .none → ∀ st, s.readHurt l 128 = some st → Does i s fun t => t.sent = s.sent ++ [.cohRefuse l member die st]) ∧
        (e.trans ≠ .none → Does i s fun t => ∃ x, nget t.dir l = some x ∧ x.trans = e.trans ∧ x.queue = e.queue ++ [(kind, member, die)]) ∧
        (e.trans = .none → s.readHurt l 128 = none →
          (∀ m, e.owner = some m → Does i s fun t =>
            (∃ x, nget t.dir l = some x ∧ x.trans = .recalling (kind != .read) (some (kind, member, die))) ∧
            t.sent.getLast? = some (.cohRecall l m.1 m.2 (if kind = .read then .recallKeepShared else .recallInvalidate))) ∧
          (e.owner = none → kind = .read → Does i s fun t =>
            (∃ x, nget t.dir l = some x ∧ x.owner = none ∧ x.sharers = others ++ [(member, die)]) ∧
            t.sent.getLast? = some (.cohGrant l member die false (bytesAt s.mem l 128))) ∧
          (e.owner = none → kind ≠ .read → others = [] → Does i s fun t =>
            (∃ x, nget t.dir l = some x ∧ x.owner = some (member, die) ∧ x.sharers = []) ∧
            t.sent.getLast? = some (.cohGrant l member die true (bytesAt s.mem l 128))) ∧
          (e.owner = none → kind ≠ .read → others ≠ [] → Does i s fun t =>
            (∃ x, nget t.dir l = some x ∧ x.trans = .invalidating others (some (kind, member, die))) ∧
            t.sent = s.sent ++ others.map fun m => .cohRecall l m.1 m.2 .invalidate)))) ∧
    (∀ line member die data,
      let i := Instr.cohReply line member die data
      let who := (member, die)
      let late := calm → Does i s fun t => ∃ n, Logged t (.unit (0x150 + s.homeDie line)) 0 .timeout (.late (.coherence (s.homeDie line)) n) ∧ t.dir = s.dir
      (nget s.dir line = none → late) ∧
      (∀ e, nget s.dir line = some e →
        (∀ waiting next, e.trans = .invalidating waiting next →
          (who ∉ waiting → late) ∧
          (calm → who ∈ waiting → waiting.filter (· != who) ≠ [] → Does i s fun t => ∃ x, nget t.dir line = some x ∧
            x.trans = .invalidating (waiting.filter (· != who)) next ∧ x.sharers = e.sharers.filter (· != who)) ∧
          (calm → who ∈ waiting → waiting.filter (· != who) = [] → next = none → e.queue = [] → Does i s fun t =>
            nget t.dir line = none ∨ ∃ x, nget t.dir line = some x ∧ x.trans = .none ∧ x.sharers = e.sharers.filter (· != who)) ∧
          (calm → who ∈ waiting → waiting.filter (· != who) = [] → ∀ kind m d, next = some (kind, m, d) → kind ≠ .read → e.queue = [] →
            e.owner = none → (e.sharers.filter (· != who)).filter (· != (m, d)) = [] → s.readHurt line 128 = none → Does i s fun t =>
              (∃ x, nget t.dir line = some x ∧ x.owner = some (m, d) ∧ x.sharers = []) ∧
              t.sent.getLast? = some (.cohGrant line m d true (bytesAt s.mem line 128)))) ∧
        (∀ inval, e.trans = .recalling inval none → e.queue = [] →
          (e.owner ≠ some who → late) ∧
          (calm → e.owner = some who → Does i s fun t =>
            (if inval = true then nget t.dir line = none else ∃ x, nget t.dir line = some x ∧ x.owner = none ∧ x.sharers = [who]) ∧
            ∀ a, byteAt t.mem a = ((data.map fun bs => [(line, bs.take 128)]).bind fun ps => lastByte ps a).getD (byteAt s.mem a))) ∧
        (e.trans = .none → e.owner ≠ some who → who ∉ e.sharers → late) ∧
        (calm → e.trans = .none → e.owner = some who → Does i s fun t => nget t.dir line = none ∧
          ∀ a, byteAt t.mem a = ((data.map fun bs => [(line, bs.take 128)]).bind fun ps => lastByte ps a).getD (byteAt s.mem a)))) ∧
    (∀ line,
      let d := s.homeDie line
      (s.fld (Reg.vltCohTimeout d) = 0 ∨ nget s.dir line = none → idle (.cohTimeout line)) ∧
      (calm → s.fld (Reg.vltCohTimeout d) ≠ 0 → ∀ e, nget s.dir line = some e →
        (e.trans = .none → idle (.cohTimeout line)) ∧
        (∀ waiting, e.trans = .invalidating waiting none → e.queue = [] → Does (.cohTimeout line) s fun t =>
          nget t.dir line = none ∨ ∃ x, nget t.dir line = some x ∧ x.trans = .none ∧ ∀ m ∈ waiting, m ∉ x.sharers) ∧
        (∀ inval, e.trans = .recalling inval none → e.queue = [] → Does (.cohTimeout line) s fun t =>
          (∃ h, nget t.hurt line = some h ∧ h.poisoned = true) ∧ t.mem = s.mem))) ∧
    (∀ line die kind, NMap.Rising s.cache →
      let k := remoteKey die line
      (nget s.cache k = none → exec (.cohRecall line kind die) s = .next { s with sent := s.sent ++ [.coh (line / 128) die none] }) ∧
      (∀ c, nget s.cache k = some c → Does (.cohRecall line kind die) s fun t =>
        t.sent = s.sent ++ [.coh (line / 128) die (if c.dirty then some c.data else none)] ∧
        nget t.cache k = if kind = .recallKeepShared then some { c with dirty := false, excl := false } else none))

/-- Clocks move one point toward the lowest allowed; power, duty, current and ramp limits. A step of a clock moves it to the next operating
point toward its target, the lower of its thermal point and, for a core clock, its limit, and is counted; at its target nothing changes. A
power sample sets the average of the window and its peak. Over the limit both core clocks fall one point, and at 0.7 GHz the duty falls by
8, down to 8; below 98 % the duty rises by 8 to 64, and then the clocks rise; else nothing changes. A current event moves its die's core
clock to 0.7 GHz. A ramp window grants its budget in round robin and counts the rest. -/
def Obligations.ClocksAndLimitsStepByOnePoint : Prop :=
  ∀ s : State,
    let cur := fun d => s.fld (coreMhz d)
    let limit := fun d => s.clk.limit.getD d 1400
    let heat := fun (f : Fld) (points : List Nat) low => points.getD (s.fld f) low
    let coreHeat := fun d => heat (Reg.vltThermState d) [1400, 1200, 1000, 700] 700
    let now := s.fld Reg.pwrNow
    let most := s.fld Reg.pwrLimit
    let duty := s.fld Reg.pwrDuty
    let counted := fun (f : Fld) (t : State) => s.fld f + 1 < 2 ^ 32 → t.fld f = s.fld f + 1
    let sound := s.clk.limit.length = 2 ∧ ∀ d, d < 2 → cur d ∈ corePoints ∧ limit d ∈ corePoints
    let moves := fun (dom : ClockDom) (f : Fld) (points : List Nat) target => s.fld f ∈ points → target ∈ points →
      (s.fld f = target → exec (.clockStep dom) s = .next s) ∧
      (s.fld f ≠ target → Does (.clockStep dom) s fun t =>
        t.fld f ∈ points ∧ (target < s.fld f → target ≤ t.fld f ∧ t.fld f < s.fld f ∧ ∀ p ∈ points, p < s.fld f → p ≤ t.fld f) ∧
        (s.fld f < target → t.fld f ≤ target ∧ s.fld f < t.fld f ∧ ∀ p ∈ points, s.fld f < p → t.fld f ≤ p) ∧
        counted Reg.clkSteps t ∧ KeepsWords [f.off, Reg.clkSteps.off] s t ∧ ChangesOnly [.reg, .draw] s t)
    (∀ d, d < 2 → moves (.core d) (coreMhz d) corePoints (min (coreHeat d) (limit d)) ∧
      moves (.vault d) (vaultMhz d) [1600, 1400, 1200] (heat (Reg.vltThermState d) [1600, 1600, 1400, 1200] 1200)) ∧
    (∀ k, k < 8 → moves (.hbm k) (Reg.clkHbmMhz k) [1250, 1000] (heat (Reg.hbmThermState k) [1250, 1250, 1250, 1000] 1000) ∧
      moves (.beater k) (Reg.clkBtrMhz k) [1000, 800, 600] (heat (Reg.hbmThermState k) [1000, 1000, 800, 600] 600)) ∧
    (∀ watts,
      let l := (watts :: s.clk.samples).take (100 * s.fld Reg.pwrWindow)
      let mean := l.foldl (· + ·) 0 / l.length
      mean < 2 ^ 16 → Does (.powerSample watts) s fun t => t.clk.samples = l ∧ t.fld Reg.pwrNow = mean ∧
        t.fld Reg.pwrPeak = max (s.fld Reg.pwrPeak) mean ∧ KeepsWords [Reg.pwrNow.off, Reg.pwrPeak.off] s t ∧ ChangesOnly [.reg, .clk] s t) ∧
    (let down := most < now ∧ (700 < cur 0 ∨ 700 < cur 1)
     let up := 100 * now < 98 * most ∧ duty = 64
     (¬ down → ¬ up → exec .powerLimitStep s = .next s) ∧
     (sound → down → Does .powerLimitStep s fun t => bit (t.fld Reg.pwrCapCause) 0 = true ∧ counted Reg.pwrLimitEvents t ∧ ∀ d, d < 2 →
       t.fld (coreMhz d) = max 700 (cur d - 100) ∧ t.clk.limit.getD d 1400 = max 700 (cur d - 100)) ∧
     (sound → up → Does .powerLimitStep s fun t => ((∀ d, d < 2 → 1300 ≤ limit d) → bit (t.fld Reg.pwrCapCause) 0 = false) ∧ ∀ d, d < 2 →
       let goal := min (min 1400 (limit d + 100)) (coreHeat d)
       t.clk.limit.getD d 1400 = min 1400 (limit d + 100) ∧
       t.fld (coreMhz d) = if cur d < goal then cur d + 100 else if goal < cur d then cur d - 100 else cur d)) ∧
    (let down := most < now ∧ cur 0 = 700 ∧ cur 1 = 700 ∧ 8 < duty
     let up := 100 * now < 98 * most ∧ duty < 64
     (¬ down → ¬ up → exec .pwrDutyStep s = .next s) ∧
     (down → Does .pwrDutyStep s fun t => t.fld Reg.pwrDuty = duty - 8 ∧ bit (t.fld Reg.pwrCapCause) 5 = true ∧ counted Reg.pwrLimitEvents t) ∧
     (up → Does .pwrDutyStep s fun t => t.fld Reg.pwrDuty = duty + 8 ∧ bit (t.fld Reg.pwrCapCause) 5 = decide (duty + 8 < 64))) ∧
    (∀ d, (2 ≤ d → exec (.edcEvent d) s = .next s) ∧
      (d < 2 → s.clk.limit.length = 2 → Does (.edcEvent d) s fun t => t.fld (coreMhz d) = 700 ∧ t.fld (coreMhz (1 - d)) = cur (1 - d) ∧
        t.clk.limit.getD d 1400 = 700 ∧ bit (t.fld Reg.pwrCapCause) (1 + d) = true ∧ counted Reg.pwrEdcEvents t)) ∧
    (∀ d requests, (2 ≤ d → exec (.rampWindow d requests) s = .next s) ∧
      (d < 2 →
        let order := ((List.range 136).map fun i => (s.clk.served.getD d 135 + 1 + i) % 136).filter requests.contains
        let waits := s.fld Reg.pwrRampWaits + (order.length - s.fld Reg.pwrRampBudget)
        Does (.rampWindow d requests) s fun t => (waits < 2 ^ 32 → t.fld Reg.pwrRampWaits = waits) ∧
          t.clk.served = (match (order.take (s.fld Reg.pwrRampBudget)).getLast? with | some n => s.clk.served.set d n | none => s.clk.served) ∧
          KeepsWords [Reg.pwrRampWaits.off] s t ∧ ChangesOnly [.reg, .clk, .draw] s t))

/-- Cold and main-rail power-ups, package reset, PKG_PWROK, and the loss of the rails. A cold power-up clears everything, held in reset. A
main-rail power-up (with the rails down) and a package reset (with nothing else holding the package) lose device memory, streams, flags and
every register the Custodian does not hold; those it holds keep their values but for the cause, the count, which grows by 1, the kept-HBM
bit and the debug state, which takes the pending one; the Ledger tail stays. While held, a package reset only lowers its level; its release
raises it, the package being held on while PKG_PWROK is not good, whose rise counts only with the groups in tolerance. The removal of the
main rails loses device memory, that of the Custodian's all. -/
def Obligations.PowerUpsAndResetsKeepWhatTheCustodianHolds : Prop :=
  ∀ s : State,
    let own := [Reg.pwrResetCause.off, Reg.pwrBootCount.off, Reg.pwrHbmKept.off, Reg.secDebugState.off]
    let fresh := fun (t : State) cause count =>
      t.mem = [] ∧ t.flags = [] ∧ t.strms = [] ∧ t.stages = [] ∧ t.fab = FabX.reset ∧ t.job = JobX.none ∧ t.ledger.events = [] ∧
      t.ledger.tail = s.ledger.tail ∧ t.fld Reg.pwrBootStage = 1 ∧ t.fld Reg.pwrResetCause = cause ∧ t.fld Reg.pwrBootCount = count ∧
      t.fld Reg.pwrHbmKept = 0 ∧ t.fld Reg.secDebugState = s.fld Reg.secDebugPending ∧ t.fld Reg.secDebugPending = 0 ∧
      ∀ o, o ∉ own → t.word o = if custodianWord o then s.word o else State.reset.word o
    (Does .coldPowerUp s fun t => t.held = true ∧ t.pow.custUp = true ∧ t.pow.mainUp = false ∧ t.pow.resetLow = true ∧ t.lands = [true, true, true, true] ∧
      t.mem = [] ∧ t.ledger = Ledger.reset ∧ t.sec = SecX.reset ∧ t.fld Reg.pwrResetCause = 0 ∧ t.fld Reg.pwrBootCount = 1 ∧
      ∀ o, o ≠ Reg.pwrBootCount.off → t.word o = State.reset.word o) ∧
    (Does .custodianRailLoss s fun t => t.held = true ∧ t.pow.custUp = false ∧ t.pow.mainUp = s.pow.mainUp ∧ t.lands = [false, false, false, false] ∧
      t.mem = [] ∧ t.ledger = Ledger.reset ∧ t.sec = SecX.reset ∧ ∀ o, t.word o = State.reset.word o) ∧
    (let may := s.pow.custUp = true ∧ s.pow.mainUp = false
     (¬ may → exec .mainRailPowerUp s = .next s) ∧
     (may → s.fld Reg.pwrBootCount + 1 < 2 ^ 32 → (∀ c, s.pow.cause = some c → c < 16) → Does .mainRailPowerUp s fun t =>
       fresh t (if s.pow.first then 0 else s.pow.cause.getD 1) (s.fld Reg.pwrBootCount + if s.pow.first then 0 else 1) ∧
       t.held = true ∧ t.pow.mainUp = true ∧ t.pow.pwrok = false ∧ t.pow.fault = false ∧ t.pow.off = false ∧ t.pow.trip = s.pow.trip)) ∧
    (s.held = true → Does .pkgReset s fun t => t.pow = { s.pow with resetLow := true } ∧ ChangesOnly [.pow] s t) ∧
    (s.held = false → s.fld Reg.pwrBootCount + 1 < 2 ^ 32 → Does .pkgReset s fun t =>
      fresh t 2 (s.fld Reg.pwrBootCount + 1) ∧ t.held = true ∧ t.pow.resetLow = true ∧ t.pow.mainUp = true ∧ t.pow.pwrok = true) ∧
    (Does .pkgResetRelease s fun t => t.pow = { s.pow with resetLow := false } ∧ ChangesOnly [.pow] s t ∧
      (s.pow.pwrok = false → t.held = true)) ∧
    (∀ ok, (¬ (ok = true ∧ s.pow.mainUp = true) → exec (.pkgPwrokRise ok) s = .next s) ∧
      (ok = true → s.pow.mainUp = true → Does (.pkgPwrokRise ok) s fun t => t.pow = { s.pow with pwrok := true } ∧ ChangesOnly [.pow] s t)) ∧
    (s.pow.custUp = false → exec .mainRailRemoval s = .next s) ∧
    (s.pow.custUp = true → Does .mainRailRemoval s fun t => t.mem = [] ∧ t.strms = [] ∧ t.held = true ∧ t.pow.mainUp = false ∧ t.pow.off = false ∧
      t.ledger.tail = s.ledger.tail ∧ (s.pow.trip.isSome = true → t.pow.trip = some true) ∧ ∀ o, custodianWord o = true → t.word o = s.word o)

/-- Rail, reference and thermal faults drive their lands and hold the package; only cooling unpowered ends a trip. A rail fault logs a POWER
event of cause 4 in the Ledger tail, drives FAULT_N low and holds the package with its memory lost, but a fall of PKG_PWROK, or a rail out
of tolerance, under PKG_RESET_N is none. A reference fault resets the package under cause 5, FAULT_N low. Losing the Custodian's reference
raises an alert. A thermal trip logs cause 6, drives THERM_TRIP_N low and asks for power off. Whatever command completes, a trip stands, and
the package is held, until the main rails have been removed and the hottest sensor reads below 85, or the Custodian starts cold. -/
def Obligations.FaultsAndTripsHoldThePackage : Prop :=
  (∀ s : State,
    let noted := fun (t : State) cause item => ∃ e, t.ledger.tail.head? = some e ∧ e.src = .custodian ∧ e.body = .power cause item 0
    let lost := fun (t : State) => t.mem = [] ∧ t.strms = [] ∧ t.held = true
    (s.pow.custUp = false → (∀ c, exec (.railFault c) s = .next s) ∧ exec .referenceFault s = .next s ∧ exec .custRefclkLoss s = .next s ∧
      exec .thermalTrip s = .next s) ∧
    (s.pow.custUp = true →
      (∀ r, s.pow.resetLow = true → exec (.railFault (.outOfTolerance r)) s = .next s) ∧
      (s.pow.resetLow = true → Does (.railFault .pwrokFell) s fun t => t.pow = { s.pow with pwrok := false } ∧ ChangesOnly [.pow] s t) ∧
      (∀ c item, (c = RailCause.groupOrder item ∨ (s.pow.resetLow = false ∧ (c = .outOfTolerance item ∨ (c = .pwrokFell ∧ item = 0)))) →
        Does (.railFault c) s fun t => noted t 4 item ∧ lost t ∧ t.pow.fault = true ∧ t.pow.pwrok = false ∧ t.lands[0]? = some false ∧
          t.fld Reg.pwrResetCause = 4) ∧
      (s.held = true → Does .referenceFault s fun t => t.pow = { s.pow with refFault := true } ∧ ChangesOnly [.pow] s t ∧ t.lands[0]? = some false) ∧
      (s.held = false → s.fld Reg.pwrBootCount + 1 < 2 ^ 32 → Does .referenceFault s fun t => t.mem = [] ∧ t.strms = [] ∧ t.pow.refFault = true ∧
        t.lands[0]? = some false ∧ t.fld Reg.pwrResetCause = 5 ∧ t.fld Reg.pwrBootCount = s.fld Reg.pwrBootCount + 1 ∧ t.fld Reg.pwrBootStage = 1) ∧
      (Does .custRefclkLoss s fun t => t.pow = { s.pow with internalOsc := true } ∧ bit (t.fld Reg.cstAlertCause) 0 = true ∧ t.lands[3]? = some false ∧
        KeepsWords [Reg.cstAlertCause.off] s t ∧ ChangesOnly [.reg, .pow] s t) ∧
      (Does .thermalTrip s fun t => noted t 6 0 ∧ lost t ∧ t.pow.trip = some (!s.pow.mainUp) ∧ t.pow.off = s.pow.mainUp ∧
        t.lands[1]? = some false ∧ t.lands[2]? = some (!s.pow.mainUp) ∧ t.fld Reg.pwrResetCause = 6 ∧ t.pow.cause = some 6)) ∧
    (∀ hottest, (¬ (s.pow.trip = some true ∧ hottest < 85) → exec (.thermTripRelease hottest) s = .next s) ∧
      (s.pow.trip = some true → hottest < 85 → Does (.thermTripRelease hottest) s fun t => t.pow = { s.pow with trip := none } ∧ ChangesOnly [.pow] s t))) ∧
  (∀ (i : Instr) (s t : State), exec i s = .next t → s.pow.trip.isSome = true → t.pow.trip = none →
    i = .coldPowerUp ∨ i = .custodianRailLoss ∨ ∃ hottest, i = .thermTripRelease hottest ∧ hottest < 85 ∧ s.pow.trip = some true) ∧
  (∀ (i : Instr) (s t : State), exec i s = .next t → t.pow.trip = some true → s.pow.trip = some true ∨ t.pow.mainUp = false) ∧
  (∀ s : State, s.pow.trip.isSome = true → s.held = true ∧ s.lands[1]? = some false)

/-- What the end of each boot stage has done, and a halted boot. Out of reset the stages 1 to 5 end in order: 1 with every PLL locked and
the ROMs measured; 2 with the identity words and the factory list measured, DeviceID, Alias and LinkID derived and open connections stale; 3
with the host link up and mailbox 0 BUSY; 5 with the memory keys in place, the HBM key kept if HBM is, and mailbox 0 IDLE. A stage that
cannot complete, for UNIT_FAULT or MEMORY_FAULT, leaves stage 15 with its fault and unit, FAULT_N low and mailbox 0 IDLE; no stage ends
after it. Held in reset, or at another stage or status, nothing changes. -/
def Obligations.BootStagesEndInOrderOrHalt : Prop :=
  ∀ s : State,
    let n := s.fld Reg.pwrBootStage
    let may := s.held = false ∧ 1 ≤ n ∧ n ≤ 5
    (¬ may → exec .bootStageEnd s = .next s) ∧
    (may → Does .bootStageEnd s fun t => t.fld Reg.pwrBootStage = n + 1 ∧ t.mem = s.mem ∧ t.ledger = s.ledger ∧
      (n = 1 → t.fld Reg.clkLock = 2 ^ 30 - 1 ∧ t.pow = { s.pow with refFault := false } ∧
        t.meas 1 = beBytes 48 (Config.romDigest 1) ∧ t.meas 2 = beBytes 48 (Config.romDigest 2)) ∧
      (n = 2 → t.meas 1 = s.meas 1 ∧ t.meas 2 = s.meas 2 ∧ t.meas 3 = sha384 (s.ctlBytes 0 64 ++ Config.factoryList) ∧ t.meas 4 = s.meas 4 ∧
        t.sec.deviceId = keyFrom t.cdi0 "DeviceID" ∧ t.sec.alias_ = keyFrom t.cdi1 "Alias" ∧ t.sec.linkId = keyFrom t.cdi1 "LinkID" ∧
        ∀ e ∈ t.sec.spdm, e.2.stale = true ↔ 0 < e.2.phase) ∧
      (n = 3 → t.pow = { s.pow with linksUp := true } ∧ t.fld (Reg.htxMbState 0) = 1) ∧
      (n = 4 → KeepsWords [Reg.pwrBootStage.off] s t ∧ ChangesOnly [.reg] s t) ∧
      (n = 5 → t.fld Reg.secKeyHbm = 1 ∧ t.fld Reg.secKeyVault = 1 ∧ t.fld Reg.secKeyHbmKept = (if s.pow.keepHbm then 1 else 0) ∧
        (s.pow.keepHbm = true → t.sec.hbmKey = s.sec.hbmKey) ∧ t.fld (Reg.htxMbState 0) = 0)) ∧
    (∀ st die item,
      (¬ (may ∧ (st = .unitFault ∨ st = .memoryFault)) → exec (.bootHalt st die item) s = .next s) ∧
      (may → st = .unitFault ∨ st = .memoryFault → Does (.bootHalt st die item) s fun t =>
        t.fld Reg.pwrBootStage = 15 ∧ t.fld Reg.pwrBootFault = statusCode st ∧ t.fld Reg.pwrBootUnitDie = die % 16 ∧
        t.fld Reg.pwrBootUnitItem = item % 256 ∧ t.fld (Reg.htxMbState 0) = 0 ∧ t.lands[0]? = some false ∧ exec .bootStageEnd t = .next t ∧
        KeepsWords [Reg.pwrBootStage.off, Reg.pwrBootUnitDie.off, (Reg.htxMbState 0).off] s t ∧ ChangesOnly [.reg] s t))

/-- SOLVE and BACKWARD check their record, write a block for each problem, and end with the first status listed. A PRESS command runs when
it is the first its stream has issued, and waits while a lower-numbered stream of its Press has a command. It ends with its first failing
check, with OK at COUNT 0, and with UNIT_FAULT at an injected residue error, no byte changed. Otherwise, on free undamaged memory whose
outputs and inputs are apart, each problem's block holds its status and result, no byte outside the outputs changes, and the command ends
with the first of FACTOR_ABANDONED, DEADLINE_MISS, NUMERIC_FAIL and, unless tolerated, NOT_CONVERGED that a problem holds, else OK. An
abandoned factorisation ends its command so. PRS_CNT_CLEAR zeroes the busy count alone. -/
def Obligations.PressCommandsSolveTheirProblems : Prop :=
  (∀ (sid acc asm : Nat) (s : State) (c : Cmd), 1064 ≤ sid → sid < 1072 → Memory.wf s.mem → c.phase = 0 →
    let d := c.desc
    let die := pressDie sid
    let p := s.readProb (daddr d 8 9 12)
    let count := s.countOf sid d 0 (dfld d 10 0 13)
    let cfg := s.settings die p (dword d 11)
    let tolerate := dfld d 12 0 1 == 1
    let ins := [(p.srcTable, 16 * p.srcCount), (p.prog, 16 * p.progLen)] ++
      p.sources.map fun x => (x.addr, x.stride * (count - 1) + x.bytes)
    let apart := fun (a b : Nat × Nat) => a.1 + a.2 ≤ b.1 ∨ b.1 + b.2 ≤ a.1
    let outside := fun (outs : List (Nat × Nat)) => KeepsBytes (fun a => ∃ o ∈ outs, o.1 ≤ a ∧ a < o.1 + o.2) s
    let ends := fun (i : Instr) st => Does i s fun t => EndedNow t (.stream sid) acc st ∧ t.mem = s.mem
    let whole := fun op => ∀ e ∈ p.exts op count, (if e.1 then s.writeHurt e.2.1 e.2.2 else s.readHurt e.2.1 e.2.2) = none
    let clean := fun op => whole op ∧ s.ready (p.exts op count) = true
    let first := (s.strm sid).issued.head?.map (·.acc) = some acc
    let armed := s.cons.armed.find? fun x => x.target == 0x0D && x.unit == die
    (∀ op i, (op = 0 ∧ i = Instr.solve sid acc asm) ∨ (op = 1 ∧ i = .backward sid acc) → s.issuedCmd sid acc 0x13 op = some c →
      (¬ first ∨ s.lowerStream sid = true → exec i s = .next s) ∧
      (first → s.lowerStream sid = false →
        (∀ st, s.pressFault sid c op = some st → ends i st) ∧
        (s.pressFault sid c op = none → count = 0 → ends i .ok) ∧
        (s.pressFault sid c op = none → count ≠ 0 → clean op →
          (∀ x, armed = some x → x.kind ≠ 0 → ends i .unitFault) ∧
          ((∀ x, armed = some x → x.kind = 0) → Does i s fun t =>
            ∃ st, EndedNow t (.stream sid) acc st ∧ (st ∈ [Status.ok, .factorAbandoned, .deadlineMiss, .numericFail, .notConverged]) ∧
              (tolerate = true → st ≠ .notConverged))))) ∧
    (s.issuedCmd sid acc 0x13 0 = some c → first → s.lowerStream sid = false → s.pressFault sid c 0 = none → count ≠ 0 → clean 0 → armed = none →
      let out := (p.out, count * p.blockBytes)
      let xo := Prob.mat p.xOut p.xOutFmt count p.n
      let outs := out :: if p.xOutEn then [(p.xOut, xo.tileBytes)] else []
      let eb := fmtBits p.xOutFmt / 8
      let r := fun k => s.solveProblem cfg p k asm none
      (∀ a ∈ ins, ∀ b ∈ outs, apart a b) → (p.xOutEn = true → apart out (p.xOut, xo.tileBytes)) → Does (.solve sid acc asm) s fun t =>
        EndedNow t (.stream sid) acc (pressStatus tolerate ((List.range count).map fun k => statusCode (r k).2.status)) ∧ outside outs t ∧
        ∀ k, k < count →
          let x := (r k).1
          let o := (r k).2
          (∃ cyc, (p.batched = false → cyc = o.cycles) ∧
            let block := statusWord o.status o.conv o.zero o.small o.dead o.bad o.k o.pivots o.factors (primalRes cfg x o.it) (dualRes x o.it)
              (objective x o.it) cyc 0 ++ (o.it.x ++ o.it.z ++ o.it.y).flatMap (leBytes 8)
            bytesAt t.mem (p.out + k * p.blockBytes) block.length = block) ∧
          (p.xOutEn = true → ∀ e ∈ o.it.x.zipIdx,
            bytesAt t.mem (p.xOut + eb * xo.index k e.2) eb = leBytes eb (enc (elemFmt p.xOutFmt) (fp64.decode e.1)))) ∧
    (s.issuedCmd sid acc 0x13 1 = some c → first → s.lowerStream sid = false → s.pressFault sid c 1 = none → count ≠ 0 → clean 1 → armed = none →
      let gm := Prob.mat p.g p.gFmt count p.n
      let out := (p.dgrad, count * p.gradBytes)
      let f32 := fun (v : Vec) => v.flatMap fun e => leBytes 4 (enc fp32 (fp64.decode e))
      let base := fun k => p.out + k * p.blockBytes
      let conv := fun k => bit (leNat (bytesAt s.mem (base k) 4)) 16
      let x := fun k => s.assemble p k
      let g := fun k => if (x k).2 || !conv k then Grads.zero (x k).1
        else backwardQp cfg (x k).1 (s.vec64 (base k + 64) p.n) (s.vec64 (base k + 64 + 8 * p.n) p.m) (s.vec64 (base k + 64 + 8 * (p.n + p.m)) p.m)
          ((List.range p.n).map fun j => enc fp64 (s.matElem gm k j).1) p.dpEn p.daEn
      let st := fun k => if (x k).2 = true ∨ (g k).failed = true then Status.numericFail else if conv k = true then .ok else .notConverged
      (∀ a ∈ ins ++ [(p.out, count * p.blockBytes), (p.g, gm.tileBytes)], apart a out) → Does (.backward sid acc) s fun t =>
        EndedNow t (.stream sid) acc (pressStatus tolerate ((List.range count).map fun k => statusCode (st k))) ∧ outside [out] t ∧
        ∀ k, k < count →
          let v := g k
          let block := f32 v.dq ++ f32 v.dl ++ f32 v.du ++ (if p.dpEn then v.dp.flatMap f32 else []) ++ (if p.daEn then v.da.flatMap f32 else [])
          leNat (bytesAt t.mem (p.dgrad + k * p.gradBytes) 2) = statusCode (st k) ∧
          bytesAt t.mem (p.dgrad + k * p.gradBytes + 64) block.length = block) ∧
    (s.issuedCmd sid acc 0x13 0 = some c → ∀ cyc iter,
      let r := s.solveProblem { cfg with deadline := 0 } p 0 0 (some (if p.ipm then iter else 1, cyc))
      let may := first ∧ dword d 11 ≠ 0 ∧ dword d 11 ≤ cyc ∧ s.lowerStream sid = false ∧ s.pressFault sid c 0 = none ∧ count = 1 ∧ whole 0 ∧
        r.2.status = .factorAbandoned
      (¬ may → exec (.pressDeadlineCheck sid acc cyc iter) s = .next s) ∧
      (may → s.ready (p.exts 0 count) = false → Does (.pressDeadlineCheck sid acc cyc iter) s fun t => t.mem = s.mem) ∧
      (may → s.ready (p.exts 0 count) = true → Does (.pressDeadlineCheck sid acc cyc iter) s fun t => EndedNow t (.stream sid) acc .factorAbandoned ∧
        (p.xOutEn = false → ∀ a, byteAt t.mem a = (lastByte [(p.out,
          statusWord .factorAbandoned r.2.conv r.2.zero r.2.small true false r.2.k r.2.pivots r.2.factors (primalRes cfg r.1 r.2.it)
            (dualRes r.1 r.2.it) (objective r.1 r.2.it) cyc 0 ++ (r.2.it.x ++ r.2.it.z ++ r.2.it.y).flatMap (leBytes 8))] a).getD (byteAt s.mem a))))) ∧
  (∀ (d : Nat) (s : State), (2 ≤ d → exec (.prsCntClear d) s = .next s) ∧
    (d < 2 → Does (.prsCntClear d) s fun t => t.fld (Reg.prsBusyCycles d) = 0 ∧
      KeepsWords [(Reg.prsBusyCycles d).off, (Reg.prsBusyCycles d).off + 4] s t ∧ ChangesOnly [.reg] s t))

/-- Doorbells, queue controls, interrupt entries, and the end of ownership. While the package is unowned these writes are refused, and
counted with their offset; before boot stage 3 ends they are discarded. For the owner, a tail or head takes the value modulo the ring, and a
head frees completion slots; the control word sets the size, from 4 to 12 and only while disabled, and ENABLE, whose rise starts a first
pass; RESUME clears a halt, and RESET empties the rings once no entry is in progress, the accession series running on. Enabling an interrupt
entry delivers a pending message once. HTX_OWN_BREAK through window 0 ends ownership and disables every queue; window 1 is refused. -/
def Obligations.TheOwnerDrivesQueuesAndInterrupts : Prop :=
  ∀ s : State,
    let discards := fun i => s.pow.linksUp = false → exec i s = .next s
    let refuses := fun i off => s.pow.linksUp = true → Does i s fun t => t.fld Reg.htxWinRefusedOffset = off ∧
      (s.fld Reg.htxWinRefused + 1 < 2 ^ 32 → t.fld Reg.htxWinRefused = s.fld Reg.htxWinRefused + 1) ∧
      KeepsWords [Reg.htxWinRefused.off, Reg.htxWinRefusedOffset.off] s t ∧ ChangesOnly [.reg, .draw] s t
    let state := fun (t : State) q => if (t.sq q).halted = true then 2 else if t.fld (Reg.htxSqEnable q) = 1 ∨ (t.sq q).entries ≠ [] then 1 else 0
    (∀ q v, q < 64 →
      let size := 2 ^ s.fld (Reg.htxSqSize q)
      let x := s.sq q
      let on := s.fld (Reg.htxSqEnable q) = 1
      let rows := [(Instr.htxSqTail q v, 0x19000 + 8 * q), (.htxCqHead q v, 0x19004 + 8 * q), (.htxSqEnable q v, 0x10410 + 0x20 * q),
        (.htxSqResume q, 0x10410 + 0x20 * q), (.htxSqReset q, 0x10410 + 0x20 * q)]
      (∀ r ∈ rows, discards r.1 ∧ (s.fld Reg.htxOwned = 0 → refuses r.1 r.2)) ∧
      (s.pow.linksUp = true → s.fld Reg.htxOwned = 1 → s.fld (Reg.htxSqSize q) ≤ 12 →
        (Does (.htxSqTail q v) s fun t => t.fld (Reg.htxSqTail q) = v % size ∧ KeepsWords [(Reg.htxSqTail q).off] s t ∧ ChangesOnly [.reg] s t) ∧
        (Does (.htxCqHead q v) s fun t => t.fld (Reg.htxCqHead q) = v % size ∧
          t.sq q = { x with held := x.held - (v % size + size - s.fld (Reg.htxCqHead q) % size) % size } ∧
          KeepsWords [(Reg.htxCqHead q).off] s t ∧ ChangesOnly [.reg, .sq] s t) ∧
        (bit v 10 = true → exec (.htxSqEnable q v) s = exec (.htxSqReset q) s) ∧
        (bit v 10 = false → bit v 9 = true → exec (.htxSqEnable q v) s = exec (.htxSqResume q) s) ∧
        (bit v 10 = false → bit v 9 = false → Does (.htxSqEnable q v) s fun t =>
          t.fld (Reg.htxSqEnable q) = (if bit v 8 = true then 1 else 0) ∧ t.fld (Reg.htxSqState q) = state t q ∧
          t.fld (Reg.htxSqSize q) = (if on then s.fld (Reg.htxSqSize q) else min 12 (max 4 (v % 16))) ∧
          t.sq q = { x with phase := x.phase || (decide (¬ on) && bit v 8) } ∧
          KeepsWords [(Reg.htxSqEnable q).off, (Reg.htxSqState q).off] s t ∧ ChangesOnly [.reg, .sq] s t) ∧
        (x.halted = false → exec (.htxSqResume q) s = .next s) ∧
        (x.halted = true → Does (.htxSqResume q) s fun t => t.sq q = { x with halted := false } ∧ t.fld (Reg.htxSqState q) = state t q ∧
          KeepsWords [(Reg.htxSqState q).off] s t ∧ ChangesOnly [.reg, .sq] s t) ∧
        (x.entries ≠ [] → Does (.htxSqReset q) s fun t => t.sq q = { x with resetting := true } ∧
          KeepsWords [(Reg.htxSqState q).off] s t ∧ ChangesOnly [.reg, .sq] s t) ∧
        (x.entries = [] → Does (.htxSqReset q) s fun t => t.sq q = { SqX.reset with next := x.next } ∧
          t.fld (Reg.htxSqHead q) = 0 ∧ t.fld (Reg.htxCqTail q) = 0 ∧ t.fld (Reg.htxSqTail q) = 0 ∧ t.fld (Reg.htxCqHead q) = 0 ∧
          t.fld (Reg.htxSqEnable q) = 0 ∧ t.fld (Reg.htxSqState q) = 0 ∧ t.fld (Reg.htxSqSize q) = s.fld (Reg.htxSqSize q) ∧
          ChangesOnly [.reg, .sq] s t))) ∧
    (∀ v, v < 1024 →
      let eiid := if s.fld (Reg.htxImEiid v) = 0 then 1 else s.fld (Reg.htxImEiid v)
      let pending := s.fld (Reg.htxImPending v) = 1
      discards (.htxImEnable v) ∧ (s.fld Reg.htxOwned = 0 → refuses (.htxImEnable v) (0x1A000 + 4 * v)) ∧
      (s.pow.linksUp = true → s.fld Reg.htxOwned = 1 → Does (.htxImEnable v) s fun t =>
        t.fld (Reg.htxImEnable v) = 1 ∧ t.fld (Reg.htxImEiid v) = eiid ∧ t.fld (Reg.htxImHart v) = s.fld (Reg.htxImHart v) ∧
        t.fld (Reg.htxImPending v) = 0 ∧
        t.sent = s.sent ++ (if pending then [.irq (s.fld (Reg.htxImHart v)) eiid (s.flagBit (Reg.htxImMfile v))] else []) ∧
        KeepsWords [0x1A000 + 4 * v] s t ∧ ChangesOnly [.reg, .send] s t)) ∧
    (∀ ag, discards (.htxOwnBreak ag) ∧ (ag ≠ .window0 → ag ≠ .window1 → exec (.htxOwnBreak ag) s = .next s)) ∧
    refuses (.htxOwnBreak .window1) 0x10004 ∧
    (s.fld Reg.htxOwned = 0 → exec (.htxOwnBreak .window0) s = .next s) ∧
    (s.pow.linksUp = true → s.fld Reg.htxOwned = 1 → Does (.htxOwnBreak .window0) s fun t =>
      t.fld Reg.htxOwned = 0 ∧ t.fld Reg.htxOwnerMbox = 0 ∧ (∀ m, m < 7 → t.fld (Reg.htxMbBound m) = 0) ∧ ChangesOnly [.reg] s t ∧
      ∀ q, q < 64 → t.fld (Reg.htxSqEnable q) = 0 ∧ t.fld (Reg.htxSqSize q) = s.fld (Reg.htxSqSize q) ∧
        (s.fld (Reg.htxSqEnable q) = 1 → t.fld (Reg.htxSqState q) = state t q) ∧
        t.fld (Reg.htxSqLastStatus q) = s.fld (Reg.htxSqLastStatus q) ∧ t.fld (Reg.htxSqTail q) = s.fld (Reg.htxSqTail q))

/-- An entry is fetched, does its operation, and completes with a completion entry. A queue that may not fetch, or whose next entry is
ORDERED behind others, fetches nothing. Else its next entry takes the next accession number and is logged; one whose slot does not translate
ends with ADDRESS_FAULT, one outside its table with DESCRIPTOR_FAULT. A NOP, RING, FLAG or COPY entry does its work and ends; its completion
entry, where its page translates, is the next of the ring with index, PHASE, status, tag, bytes done and number, its slot is held, and a
status other than OK halts the queue. A COPY stops at the first page that does not translate, with ADDRESS_FAULT and the bytes before it
moved. -/
def Obligations.SubmissionEntriesFetchRunAndComplete : Prop :=
  ∀ (q : Nat) (s : State), q < 64 → s.fld (Reg.htxSqSize q) ≤ 12 → Memory.wf s.hostMem → Memory.wf s.mem →
    let x := s.sq q
    let size := 2 ^ s.fld (Reg.htxSqSize q)
    let head := s.fld (Reg.htxSqHead q)
    let raw := s.hostRead s.free (s.sqBase q + 64 * head) 64 1
    let e : SqEnt := ⟨x.next, head, BitVec.ofNat 512 (leNat (raw.getD []))⟩
    let may := s.mayFetchEntry q = true ∧ ¬ (eOrdered e.desc = true ∧ x.entries ≠ [])
    (¬ may → Does (.submissionEntryFetch q) s fun t => ChangesOnly [.draw] s t) ∧
    (may → Does (.submissionEntryFetch q) s fun t => (t.sq q).next = (x.next + 1) % 2 ^ 48 ∧ t.fld (Reg.htxSqHead q) = (head + 1) % size ∧
      t.mem = s.mem ∧ t.strms = s.strms ∧ t.flags = s.flags ∧
      (raw = none → EndedNow t (.queue q) x.next .addressFault ∧ (t.sq q).halted = true) ∧
      (raw.isSome = true → entryBad e.desc = true → EndedNow t (.queue q) x.next .descriptorFault ∧ (t.sq q).halted = true) ∧
      (raw.isSome = true → entryBad e.desc = false → (t.sq q).entries = x.entries ++ [e] ∧ t.hostMem = s.hostMem ∧
        Logged t (.queue q) x.next .ok (.issue 0 (eOp e.desc) false none))) ∧
    (∀ (acc op : Nat) (e : SqEnt), x.resetting = false → (x.entries.find? fun e => e.acc == acc && eOp e.desc == op) = some e →
      let d := e.desc
      let tail := s.fld (Reg.htxCqTail q)
      let slot := s.cqBase q + 16 * tail
      let closes := fun (t : State) st done (pieces : List (Nat × List Byte)) =>
        EndedNow t (.queue q) acc st ∧ (t.sq q).entries = x.entries.filter (·.acc != acc) ∧ (t.sq q).held = x.held + 1 ∧
        (t.sq q).halted = (x.halted || st != .ok) ∧ (t.sq q).next = x.next ∧ (st ≠ .ok → t.fld (Reg.htxSqLastStatus q) = statusCode st) ∧
        t.fld (Reg.htxCqTail q) = (tail + 1) % size ∧ (t.sq q).phase = (if (tail + 1) % size = 0 then !x.phase else x.phase) ∧
        ∃ n, ∀ y, byteAt t.hostMem y = (lastByte (pieces ++ ((hostPage n slot true).map fun p => (p * 4096 + slot % 4096,
          leBytes 4 (e.index + if x.phase then 2 ^ 16 else 0) ++ leBytes 4 (statusCode st + eTag d * 2 ^ 16) ++ leBytes 4 done ++
            leBytes 4 (acc % 2 ^ 32))).toList) y).getD (byteAt s.hostMem y)
      let still := fun (t : State) => t.mem = s.mem ∧ t.flags = s.flags ∧ t.strms = s.strms
      (op = 0 → Does (.sqNop q acc) s fun t => closes t .ok 0 [] ∧ still t) ∧
      (op = 3 →
        let sid := dfld d 8 0 11
        let advance := dfld d 9 0 16
        sid < 1088 → Does (.sqRing q acc) s fun t => closes t .ok 0 [] ∧ still t ∧
          t.fld (Reg.strmTail sid) = (if advance = 0 then s.fld (Reg.strmTail sid) else
            (s.fld (Reg.strmTail sid) + advance) % 2 ^ s.fld (Reg.strmSize sid) % 2 ^ 16)) ∧
      (op = 4 →
        let core := dfld d 8 0 8
        let flag := dfld d 8 8 6
        (s.outOfService core = true → Does (.sqFlag q acc) s fun t => closes t .unitFault 0 [] ∧ still t) ∧
        (s.outOfService core = false → flag < 48 → Does (.sqFlag q acc) s fun t => closes t .ok 0 [] ∧ t.mem = s.mem ∧
          t.flagAt core flag = ⟨flagResult (dfld d 8 16 2) (s.flagAt core flag).val (BitVec.ofNat 32 (dword d 9)), .queue q acc⟩)) ∧
      (∀ into i, (op = 1 ∧ into = true ∧ i = Instr.sqCopyIn q acc) ∨ (op = 2 ∧ into = false ∧ i = .sqCopyOut q acc) →
        let len := eLen d
        let dev := eDev d
        let host := eHost d
        let pages := goodPages s.free host (!into) (pageCuts host len)
        let moved := (pages.map (·.2.1)).foldl (· + ·) 0
        (len = 0 → Does i s fun t => closes t .ok 0 [] ∧ still t) ∧
        (len ≠ 0 → eCap d < len → Does i s fun t => closes t .sizeFault 0 [] ∧ still t) ∧
        (len ≠ 0 → len ≤ eCap d →
          (s.mayMove .host into dev len = false → Does i s fun t => closes t .addressFault 0 [] ∧ still t) ∧
          (s.mayMove .host into dev len = true → s.storeOut dev = true → Does i s fun t => closes t .unitFault 0 [] ∧ still t) ∧
          (∀ st, s.mayMove .host into dev len = true → s.storeOut dev = false → s.moveHurt into dev len = some st →
            Does i s fun t => closes t st 0 [] ∧ still t) ∧
          (s.mayMove .host into dev len = true → s.storeOut dev = false → s.moveHurt into dev len = none → s.ready (vaultExt into dev len) = true →
            dev + len ≤ 0x09040000000 → Does i s fun t =>
              let st := if moved < len then Status.addressFault else .ok
              (into = true → closes t st moved [] ∧ ∀ a, byteAt t.mem a =
                (lastByte [(dev, (pages.flatMap fun p => s.hostBytes p.2.2 (host + p.1) p.2.1).take moved)] a).getD (byteAt s.mem a)) ∧
              (into = false → t.mem = s.mem ∧
                closes t st moved (pages.map fun p => (p.2.2 * 4096 + (host + p.1) % 4096, bytesAt s.mem (dev + p.1) p.2.1))))) ∧
          (s.mayMove .host into dev len = true → s.storeOut dev = false → s.moveHurt into dev len = none → s.ready (vaultExt into dev len) = true →
            ∃ st, (st = .ok ∨ st = .addressFault) ∧ Ends i s (.queue q) acc st)))

/-- Register writes and reads of each agent, the words that are commands, clamps, reset values and the debug port. A window access before
boot stage 3 ends is discarded, or reads all ones; one refused is counted; another agent's is answered with ADDRESS_FAULT and does nothing.
A word that is a command performs it; a 64-bit write is its two words, low first; limits are clamped, a running stream's ring and an enabled
fabric's policy stay, a read-only field keeps its value. A read answers the readable bits and clears the rc bits read; an access to a gated
core's block ungates it. RGS_BAR_CLEAR discards the channel's arrivals. A locked debug port answers identification alone; an unlocked one
scans, halts, steps a halted core, reads and writes, or waits at the Vault. Right after reset the listed fields hold their values. -/
def Obligations.RegisterAccessesFollowTheirBlocks : Prop :=
  (∀ (s : State) (ag : Agent) (off size v : Nat),
    let good := s.accepts ag off = true ∧ accessOk off size = true
    let window := ag = .window0 ∨ ag = .window1
    let refused := fun (t : State) => t.fld Reg.htxWinRefusedOffset = off % 2 ^ 28 ∧
      (s.fld Reg.htxWinRefused + 1 < 2 ^ 32 → t.fld Reg.htxWinRefused = s.fld Reg.htxWinRefused + 1) ∧
      KeepsWords [Reg.htxWinRefused.off, Reg.htxWinRefusedOffset.off] s t ∧ ChangesOnly [.reg, .draw, .send] s t
    let replies := fun (t : State) (who : Requester) (st : Status) bs => t.sent = s.sent ++ [.memReply who (ctlBase + off) st bs]
    let ones := List.replicate size (0xFF : Byte)
    let words := accessWords off size
    (window → s.pow.linksUp = false → exec (.registerWrite ag off size v) s = .next s) ∧
    (window → s.pow.linksUp = true → ¬ good → Does (.registerWrite ag off size v) s fun t => refused t ∧ t.sent = s.sent) ∧
    (∀ who, ¬ good → (ag = .registrar ∧ who = Requester.registrar) ∨ (∃ n, ag = .core n ∧ who = .core n) → Does (.registerWrite ag off size v) s fun t =>
      replies t who .addressFault [] ∧ ChangesOnly [.send] s t) ∧
    (∀ n, ag = .registrar → good → off - 0x1000000 = n * 0x4000 + off % 0x4000 → n < 256 → 0x1000000 ≤ off →
      Does (.registerWrite ag off size v) s fun t => (t.core n).gated = false) ∧
    (ag = .registrar → good → size = 8 → off ≠ 0x10000 → ∃ u, exec (.registerWrite ag off 4 (v % 2 ^ 32)) s = .next u ∧
      exec (.registerWrite ag off 8 v) s = exec (.registerWrite ag (off + 4) 4 (v / 2 ^ 32 % 2 ^ 32)) u) ∧
    (window → s.pow.linksUp = false → Does (.readClear ag off size) s fun t => replies t .host .ok ones ∧ ChangesOnly [.send] s t) ∧
    (window → s.pow.linksUp = true → accessOk off size = false → Does (.readClear ag off size) s fun t => refused t ∧ replies t .host .ok ones) ∧
    (∀ who, (window ∧ who = Requester.host ∧ s.pow.linksUp = true) ∨ (ag = .registrar ∧ who = .registrar) ∨
        (∃ n, ag = .core n ∧ who = .core n ∧ coreReaches n off = true) → accessOk off size = true → (∀ o ∈ words, s.word o &&& ~~~ wordMask o = 0) →
      let clocks := clockFlds.any fun f => decide (off < f.off + 8) && decide (f.off < off + size)
      (clocks = false → Does (.readClear ag off size) s fun t => replies t who .ok (words.flatMap fun o => leBytes 4 (s.readWord o).toNat) ∧
        (∀ o, t.word o = if o ∈ words then s.word o &&& ~~~ accMask .rc o else s.word o) ∧ ChangesOnly [.reg, .core, .send] s t) ∧
      (clocks = true → Does (.readClear ag off size) s fun t => (∃ bs, bs.length = size ∧ replies t who .ok bs) ∧ KeepsWords words s t)) ∧
    (ag = .registrar → accessOk off size = false → Does (.readClear ag off size) s fun t => replies t .registrar .addressFault [] ∧ ChangesOnly [.send] s t) ∧
    (∀ n, ag = .core n → (accessOk off size = false ∨ coreReaches n off = false) → Does (.readClear ag off size) s fun t =>
      replies t (.core n) .addressFault [] ∧ ChangesOnly [.send] s t)) ∧
  (∀ (s : State) (v : Nat), v < 2 ^ 32 →
    let write := fun off => exec (.registerWrite .registrar off 4 v) s
    let is := fun off i => write off = exec i s
    let holds := fun (f : Fld) x => Does (.registerWrite .registrar f.off 4 v) s fun t => t.fld f = x ∧ KeepsWords [f.off] s t ∧ ChangesOnly [.reg] s t
    (∀ sid, sid < 1088 → (∀ n, coreOfSid sid = some n → (s.core n).gated = false) →
      let ctl := (Reg.strmEnable sid).off
      is (Reg.strmTail sid).off (.doorbell sid (v % 2 ^ 16)) ∧ (bit v 3 = true → is ctl (.streamReset sid)) ∧
      (bit v 3 = false → bit v 1 = true → bit v 2 = true → write ctl = .next s) ∧
      (bit v 3 = false → bit v 1 = true → bit v 2 = false → is ctl (.resumeSkip sid)) ∧
      (bit v 3 = false → bit v 1 = false → bit v 2 = true → is ctl (.resumeRetry sid)) ∧
      (bit v 3 = false → bit v 1 = false → bit v 2 = false → is ctl (if bit v 0 then .streamEnable sid else .streamDisable sid)) ∧
      (s.fld (Reg.strmEnable sid) = 1 → ∀ f ∈ [Reg.strmBaseLo sid, Reg.strmBaseHi sid, Reg.strmSize sid], write f.off = .next s) ∧
      (s.fld (Reg.strmEnable sid) = 0 → (s.strm sid).ahead = [] → holds (Reg.strmSize sid) (max 4 (min 16 (v % 32)))) ∧
      holds (Reg.strmIrqVec sid) (v % 1024) ∧ holds (Reg.strmAccNextLo sid) (s.fld (Reg.strmAccNextLo sid))) ∧
    (∀ d, d < 2 → is (Reg.vltScratchGib d).off (.partitionChange d (v % 64)) ∧ (bit v 1 = true → is (Reg.vltFlush d).off (.vltInvalidate d)) ∧
      (bit v 1 = false → bit v 0 = true → is (Reg.vltFlush d).off (.vltFlush d)) ∧ (∀ w, w < 64 → is (Reg.vltPageAttr d w).off (.pageAttrWrite d w v)) ∧
      (∀ i, i < 64 → is (Reg.vltLfsrSeed d i).off (.vltLfsrSeed d i v)) ∧ (bit v 0 = true → is (Reg.prsCntClear d).off (.prsCntClear d))) ∧
    (∀ k, k < 8 → bit v 0 = true → is (Reg.btrCntClear k).off (.btrCntClear k) ∧ is (Reg.hbmCntClear k).off (.hbmCntClear k)) ∧
    (∀ n, n < 256 → bit v 0 = true → is (Reg.arrCntClear n).off (.arrCntClear n)) ∧
    (∀ g, g < 64 → is (Reg.colGrpEnable g).off (if bit v 0 then .groupCreate g else .groupRelease g) ∧
      is (Reg.colGrpNextSeq g).off (.colGrpNextSeqWrite g v)) ∧
    (∀ p, p < 36 → bit v 1 = false → is (Reg.chnPortEnable p).off (.portEnable p v)) ∧
    is Reg.colStepOk.off (.colStepOkWrite v) ∧ is Reg.chnFabricEn.off (.chnFabricEn v) ∧ (bit v 8 = true → is Reg.chnResyncGo.off (.chnResyncGo (v % 64))) ∧
    (bit v 0 = true → is Reg.curCntClear.off .curCntClear ∧ is Reg.chnRiGo.off .chnRiGo ∧ is (Reg.vltAttrLock 0).off .vltAttrLock ∧
      is Reg.csvInjArm.off .csvInjArm) ∧
    (bit v 8 = true → is Reg.csvReplaceGo.off (.csvReplaceGo (v % 256))) ∧
    (s.fld Reg.pwrLimitFused = 2800 ∨ s.fld Reg.pwrLimitFused = 2200 → holds Reg.pwrLimit (max 1200 (min (s.fld Reg.pwrLimitFused) (v % 2 ^ 16)))) ∧
    holds Reg.pwrWindow (max 1 (min 100 (v % 128))) ∧ holds Reg.pwrRampBudget (max 8 (min 128 (v % 256))) ∧
    holds Reg.clkLock (s.fld Reg.clkLock) ∧ holds Reg.pwrNow (s.fld Reg.pwrNow) ∧
    (s.fld Reg.chnFabricEn = 1 → write (Reg.secLinkPsk 0).off = .next s) ∧
    (∀ c, (8 ≤ c → exec (.rgsBarClear c) s = .next s) ∧ (c < 8 → Does (.rgsBarClear c) s fun t =>
      (t.bar c).arrived = [] ∧ (t.bar c).makers = ndel (s.bar c).makers (s.fld (Reg.rgsBarGen c)) ∧ t.fld (Reg.rgsBarArrived c) = 0 ∧
      KeepsWords [(Reg.rgsBarArrived c).off] s t ∧ ChangesOnly [.reg, .bar] s t))) ∧
  (∀ s : State,
    let locked := s.fld Reg.secDebugState = 0
    let replies := fun (t : State) a st bs => t.sent = s.sent ++ [.memReply .registrar a st bs]
    (Does (.debugPortAccess .identify) s fun t => (∃ n, replies t 0 .ok (leBytes 4 n)) ∧ ChangesOnly [.send, .draw] s t) ∧
    (locked → ∀ a, a ≠ .identify → exec (.debugPortAccess a) s = .next s) ∧
    (¬ locked → (Does (.debugPortAccess .scan) s fun t => (∃ n, replies t 0 .ok (leBytes 4 n)) ∧ ChangesOnly [.send, .draw] s t) ∧
      (∀ i, (i ∉ s.sec.halted → exec (.debugPortAccess (.stepCore i)) s = .next s) ∧
        (i ∈ s.sec.halted → Does (.debugPortAccess (.stepCore i)) s fun t => replies t 0 .ok [] ∧ ChangesOnly [.send] s t)) ∧
      (∀ i, i < 4 → Does (.debugPortAccess (.haltCore i)) s fun t => i ∈ t.sec.halted ∧ (∀ j ∈ t.sec.halted, j = i ∨ j ∈ s.sec.halted) ∧
        ChangesOnly [.sec] s t) ∧
      (∀ i, 4 ≤ i → exec (.debugPortAccess (.haltCore i)) s = .next s) ∧
      (∀ a n, (s.mayMove .registrar false a n = false → Does (.debugPortAccess (.readMem a n)) s fun t =>
          replies t a .addressFault [] ∧ ChangesOnly [.send] s t) ∧
        (∀ st, s.mayMove .registrar false a n = true → s.readHurt a n = some st → Does (.debugPortAccess (.readMem a n)) s fun t =>
          replies t a st [] ∧ ChangesOnly [.send] s t) ∧
        (s.mayMove .registrar false a n = true → s.readHurt a n = none →
          (s.ready (vaultExt false a n) = false → Does (.debugPortAccess (.readMem a n)) s fun t =>
            (t.vault (s.homeDie a)).held = (s.vault (s.homeDie a)).held ++ [.debugPortAccess (.readMem a n)] ∧ t.mem = s.mem) ∧
          (s.ready (vaultExt false a n) = true → Does (.debugPortAccess (.readMem a n)) s fun t =>
            t.mem = s.mem ∧ t.flags = s.flags ∧ (∃ bs, Msg.memReply .registrar a .ok bs ∈ t.sent) ∧
            (a + n ≤ ctlBase → Msg.memReply .registrar a .ok (s.readAny a n) ∈ t.sent)))) ∧
      (∀ a bs, Memory.wf s.mem → (s.mayMove .registrar true a bs.length = false → Does (.debugPortAccess (.writeMem a bs)) s fun t =>
          replies t a .addressFault [] ∧ ChangesOnly [.send] s t) ∧
        (∀ st, s.mayMove .registrar true a bs.length = true → s.writeHurt a bs.length = some st → Does (.debugPortAccess (.writeMem a bs)) s fun t =>
          replies t a st [] ∧ ChangesOnly [.send] s t) ∧
        (s.mayMove .registrar true a bs.length = true → s.writeHurt a bs.length = none → s.ready (vaultExt true a bs.length) = false →
          Does (.debugPortAccess (.writeMem a bs)) s fun t =>
            (t.vault (s.homeDie a)).held = (s.vault (s.homeDie a)).held ++ [.debugPortAccess (.writeMem a bs)] ∧ t.mem = s.mem) ∧
        (s.mayMove .registrar true a bs.length = true → s.writeHurt a bs.length = none → s.ready (vaultExt true a bs.length) = true →
          Does (.debugPortAccess (.writeMem a bs)) s fun t =>
          t.sent.getLast? = some (.memReply .registrar a .ok []) ∧
          (a + bs.length ≤ 0x09040000000 → ∀ x, byteAt t.mem x = (lastByte [(a, bs)] x).getD (byteAt s.mem x)))))) ∧
  (∀ e ∈ [(Reg.pwrWindow, 10), (Reg.pwrRampBudget, 32), (Reg.pwrDuty, 64), (Reg.pwrBootStage, 1), (Reg.clkCoreMhz0, 1400), (Reg.clkCoreMhz1, 1400),
    (Reg.clkVaultMhz1, 1600), (Reg.clkHbmMhz 7, 1250), (Reg.clkBtrMhz 7, 1000), (Reg.vltThermT1 1, 85), (Reg.vltThermT2 1, 92), (Reg.hbmThermT3 7, 98),
    (Reg.strmEnable 0, 0), (Reg.strmSize 1023, 4), (Reg.strmAccNextLo 1024, 1), (Reg.strmState 1087, 0), (Reg.coreGateDelay 255, 64),
    (Reg.arrRampStep 255, 8), (Reg.prsTauExp 1, 216), (Reg.vltScratchGib 0, 0), (Reg.chnPortState 35, 0), (Reg.htxImEiid 1023, 1),
    (Reg.rgsJobState, 0), (Reg.rgsFwState, 0), (Reg.btrEpoch 7, 0), (Reg.htxOwned, 0), (Reg.vltLfsr 1 63, 1)], State.reset.fld e.1 = e.2)

/-- A GO runs its mailbox command; identity, firmware, ownership, repair list, status and Ledger queries. A row whose mailbox holds another
opcode or request does nothing; a GO while BUSY is counted as ignored; a failed check ends the command with its status, an empty reply and
no byte changed; a job command behind another waits BUSY. Served, each ends with DONE, its reply and its END. LOAD_FIRMWARE authenticates
the image and moves the boot to stage 7, or ends with AUTH_FAULT and its reason. OWN_CLAIM binds the mailboxes of its mask, OWN_RELEASE
unbinds them. A Ledger query is answered from the Ledger, with UNKNOWN for a package not reachable, with DESCRIPTOR_FAULT for a stream that
does not exist, or forwarded, and ends by the reply or the timeout, after which a reply is late. -/
def Obligations.MailboxCommandsAreServedInTurn : Prop :=
  (∀ (s : State) (b : Bool), ∀ r ∈ viaRows b,
    let goes := fun k => s.fld (Reg.htxMbOpcode k) = r.1 ∧ r.2.1 (s.mbReq k) = true
    (∀ k, ¬ goes k → exec (r.2.2 (.mailbox k)) s = .next s) ∧
    (∀ tag q, (r.2.1 q = false ∨ s.pow.custUp = false ∨ s.pow.i3c = none) → exec (r.2.2 (.i3c tag q)) s = .next s) ∧
    (∀ k, k < 8 → goes k → s.fld (Reg.htxMbState k) = 1 → Does (r.2.2 (.mailbox k)) s fun t =>
      (s.fld (Reg.htxMbIgnored k) + 1 < 2 ^ 16 → t.fld (Reg.htxMbIgnored k) = s.fld (Reg.htxMbIgnored k) + 1) ∧
      KeepsWords [(Reg.htxMbIgnored k).off] s t ∧ ChangesOnly [.reg, .draw] s t) ∧
    (∀ k, k < 7 → goes k → s.fld (Reg.htxMbState k) ≠ 1 → s.mbFault k r.1 (s.mbReq k).length = none → serialOp r.1 = true →
      (s.mbox.running ≠ none ∨ s.mbox.waiting ≠ []) → Does (r.2.2 (.mailbox k)) s fun t =>
        t.fld (Reg.htxMbState k) = 1 ∧ t.mbox = { s.mbox with last := nset s.mbox.last k (s.mbNext k), waiting := s.mbox.waiting ++ [k] } ∧
        t.mem = s.mem ∧ t.job = s.job) ∧
    (∀ via m req st, s.takes via m r.1 req → r.2.1 req = true → s.mbFault m r.1 req.length = some st → Does (r.2.2 via) s fun t =>
      Answered via s t st [] ∧ t.mem = s.mem ∧ t.job = s.job)) ∧
  (∀ (s : State) (via : Via) (m : Nat) (req : List Byte),
    let runs := fun op => s.takes via m op req ∧ s.mbFault m op req.length = none
    let told := fun (i : Via → Instr) st bs => Does (i via) s fun t => Answered via s t st bs
    let a := numAt req 0 8 % 2 ^ 48
    let len := numAt req 8 4
    let host := s.hostRead s.free a len (hostPages a len)
    (runs 0x01 → told .getIdentity .ok (s.ctlBytes 0 64)) ∧ (runs 0x02 → told .getVersion .ok s.versionReply) ∧
    (runs 0x34 → told .jobStatus .ok s.jobReply) ∧ (runs 0x41 → ∃ bs, told .health .ok bs) ∧
    (runs 0x21 → told .repairRead .ok (leBytes 4 s.cons.repairs.length ++ List.replicate 12 0 ++
      ((s.cons.repairs.reverse.drop (numAt req 0 4)).take 251).flatMap RepairRec.bytes)) ∧
    (runs 0x03 →
      (len = 0 → told .loadFirmware .ok []) ∧ (2 ^ 23 < len → told .loadFirmware .sizeFault []) ∧
      (0 < len → len ≤ 2 ^ 23 → host = none → told .loadFirmware .addressFault []) ∧
      (∀ img, 0 < len → len ≤ 2 ^ 23 → host = some img →
        (∀ r, s.imageFault img = some r → Does (.loadFirmware via) s fun t => Answered via s t .authFault [] ∧
          t.fld Reg.secFwAuthReason = r ∧ t.fld Reg.rgsFwState = 3 ∧ t.fld Reg.pwrBootStage = s.fld Reg.pwrBootStage) ∧
        (s.imageFault img = none → Does (.loadFirmware via) s fun t => Answered via s t .ok [] ∧
          t.fld Reg.rgsFwState = 2 ∧ t.fld Reg.pwrBootStage = 7 ∧ t.meas 4 = sha384 img ∧ t.fld Reg.rgsFwVersion = numAt img 12 4 ∧
          t.sec.alias_ = keyFrom t.cdi1 "Alias"))) ∧
    (runs 0x10 →
      let mask := (numAt req 0 4 % 128) ||| 2 ^ m
      (s.fld Reg.htxOwned = 1 → told .ownClaim .ownerFault []) ∧
      (s.fld Reg.htxOwned = 0 → Does (.ownClaim via) s fun t => Answered via s t .ok (leBytes 4 mask) ∧ t.fld Reg.htxOwned = 1 ∧
        t.fld Reg.htxOwnerMbox = mask ∧ ∀ i, i < 7 → t.fld (Reg.htxMbBound i) = mask / 2 ^ i % 2)) ∧
    (runs 0x11 → Does (.ownRelease via) s fun t => Answered via s t .ok [] ∧ t.fld Reg.htxOwned = 0 ∧
      (s.fld Reg.htxOwned = 1 → ∀ i, i < 7 → t.fld (Reg.htxMbBound i) = 0)) ∧
    (runs 0x20 →
      (s.fld Reg.rgsJobState ≠ 0 → told .repairApply .sequenceFault []) ∧
      (s.fld Reg.rgsJobState = 0 →
        (len = 0 → told .repairApply .ok []) ∧
        (0 < len → len % 16 ≠ 0 ∨ 65536 < len → told .repairApply .descriptorFault []) ∧
        (0 < len → len % 16 = 0 → len ≤ 65536 →
          (host = none → told .repairApply .addressFault []) ∧
          (∀ bs, host = some bs →
            let rs := (List.range (len / 16)).map fun i => repairOf ((bs.drop (16 * i)).take 16)
            (rs.all (·.ok) = false → told .repairApply .descriptorFault []) ∧
            (rs.all (·.ok) = true → told .repairApply .sizeFault [] ∨ ∃ n k, n + k = rs.length ∧ told .repairApply .ok (leBytes 4 n ++ leBytes 4 k)) ∧
            (rs.all (·.ok) = true → (∀ r ∈ rs, s.inEffect r = true) → Does (.repairApply via) s fun t =>
              Answered via s t .ok (leBytes 4 0 ++ leBytes 4 rs.length) ∧ t.cons = s.cons))))) ∧
    (runs 0x40 → s.ledger.events.length + 2 ≤ 1048576 →
      let pkg := numAt req 4 2
      let kind := numAt req 0 4
      let id := numAt req 10 2
      let key := numAt req 16 8
      let here := pkg = 0xFFFF ∨ pkg = s.me
      let row : Via → Instr := if kind = 0 then .ledgerQueryCommand else if kind = 1 then .ledgerQueryRemote else
        if kind = 2 then .ledgerQueryCommit else .ledgerQueryRead
      kind < 4 →
      let nowhere_ := kind = 0 ∧ s.nextAcc (numAt req 8 1) id = none
      (nowhere_ → told row .descriptorFault []) ∧
      (¬ here → ¬ nowhere_ → (4096 ≤ pkg ∨ s.reachable pkg = false) → told row .ok unknownReply) ∧
      (¬ here → ¬ nowhere_ → pkg < 4096 → s.reachable pkg = true → Does (row via) s fun t => t.sent = s.sent ++ [.ledgerFwd pkg req] ∧
        t.mbox.fwd = s.mbox.fwd ++ [m] ∧ ∀ k, via = .mailbox k → t.fld (Reg.htxMbState k) = 1) ∧
      (here → kind = 0 →
        let sk := numAt req 8 1
        let acc := key % 2 ^ 48
        let src := if sk = 0 then Src.stream id else if sk = 1 then .mailbox id else .queue id
        let evs := s.ledger.events.filter fun e => e.src == src && e.acc == acc
        sk ≠ 1 →
        (∀ n, s.nextAcc sk id = some n → n ≤ acc → told row .descriptorFault []) ∧
        (∀ n, s.nextAcc sk id = some n → acc < n →
          (∀ g t0 e, (∃ x ∈ evs, x.body = .start g) → evs = t0 ++ [e] ++ (evs.drop (t0.length + 1)) →
            (∀ x ∈ t0, ∀ sk j r, x.body ≠ .fin sk j r) → (∃ sk j r, e.body = .fin sk j r) →
            ∃ bs, told row .ok bs ∧ bs.take 4 = leBytes 2 (if e.status = .ok then 2 else 1) ++ leBytes 2 (statusCode e.status)) ∧
          (evs = [] → s.stillHeld src acc = false → ∃ bs, told row .ok bs ∧ bs.take 2 = leBytes 2 3) ∧
          (evs = [] → s.stillHeld src acc = true → ∃ bs, told row .ok bs ∧ bs.take 2 = leBytes 2 0))) ∧
      (here → kind = 1 → ∃ n bs, told row .ok bs ∧ bs.take 2 = leBytes 2 n ∧ (n = 3 ∨ n = 4 ∨ n = 5) ∧
        (∀ d st, d < 2 → (∃ x ∈ (s.target d (id % 4096)).window, x.1 = key % 2 ^ 48 ∧ x.2.1 ≠ .staleAccession) →
          (∀ x ∈ (s.target d (id % 4096)).window, x.1 = key % 2 ^ 48 → x.2.1 = st ∧ st ≠ .staleAccession) → n = 4)) ∧
      (here → kind = 2 →
        (s.commitAnswer id (key % 2 ^ 32) = none → told row .ok unknownReply) ∧
        (∀ e d ep, s.commitAnswer id (key % 2 ^ 32) = some (e, d, ep) →
          told row .ok (queryReply (if d then 6 else 7) .ok 0 0 0 e.seq ep))) ∧
      (here → kind = 3 → ∃ u : State, (∃ l, l.length ≤ 2 ∧ u.ledger.events = l ++ s.ledger.events ∧ u.ledger.next = s.ledger.next + l.length) ∧
        told row .ok (readReply u u.ledger.events.reverse u.ledger.next key)))) ∧
  (∀ (s : State) (src m : Nat) (req bs : List Byte) (ag : Agent),
    (s.fwRunning = false → exec (.ledgerFwdQuery src req) s = .next s) ∧
    (s.fwRunning = true → Does (.ledgerFwdQuery src req) s fun t => (∃ l, t.sent.getLast? = some (.ledgerFwd src l) ∧
      (numAt req 0 4 = 2 → s.commitAnswer (numAt req 10 2) (numAt req 16 8 % 2 ^ 32) = none → l = unknownReply) ∧
      (3 < numAt req 0 4 ∨ (numAt req 0 4 = 0 ∧ s.nextAcc (numAt req 8 1) (numAt req 10 2) = none) → l = [])) ∧ t.mem = s.mem) ∧
    (m ≠ 8 → m ∉ s.mbox.fwd → exec (.ledgerFwdTimeout m) s = .next s ∧ (m ∉ s.mbox.past → exec (.ledgerFwdReply m bs) s = .next s) ∧
      (m ∈ s.mbox.past → Does (.ledgerFwdReply m bs) s fun t => Logged t (.mailbox m) 0 .timeout (.lateReply m (s.mbox.late + 1)) ∧
        t.mbox = { s.mbox with past := s.mbox.past.erase m, late := s.mbox.late + 1 } ∧ t.mem = s.mem)) ∧
    (m ∈ s.mbox.fwd → m < 7 →
      let ended := fun (i : Instr) st l => Does i s fun t => EndedNow t (.mailbox m) (s.servedOn m).acc st ∧ t.shows m st l ∧
        t.mbox.fwd = s.mbox.fwd.filter (· != m)
      ended (.ledgerFwdTimeout m) .ok unknownReply ∧ ended (.ledgerFwdReply m []) .descriptorFault [] ∧
      (bs ≠ [] → bs.length ≤ 4032 → ended (.ledgerFwdReply m bs) .ok bs)) ∧
    (let op := s.fld (Reg.htxMbOpcode m)
     let may := m < 8 ∧ (opAt m op = false ∨ (1 ≤ m ∧ m < 7 ∧ s.fwRunning = false))
     (¬ may → exec (.mailboxGoUnassigned m ag) s = .next s) ∧
     (may → s.fld (Reg.htxMbState m) ≠ 1 → s.pow.linksUp = true → s.accepts ag (mbBase m + 8) = true → ∃ st,
       s.mbFault m op (s.mbReq m).length = some st ∧ Does (.mailboxGoUnassigned m ag) s fun t => Answered (.mailbox m) s t st [] ∧ t.mem = s.mem)))

/-- Debug unlock, SPDM, Custodian operations, the I3C lands and the heartbeat. A debug challenge gives a new nonce; a submission without
one, with a job loaded, or with a bad token is refused, and a sound one makes the unlock pending; a cancel drops both. An SPDM request is
answered in its connection: VERSION starts it, CAPABILITIES and ALGORITHMS follow, and the rest need all three; a stale connection, a
request out of order, one not supported, of another version or too short gets an ERROR. Custodian operations answer identity, quote, health,
tail and time, turn injection off, reset the package, keeping HBM if asked, or power it down. The I3C address, discarded requests and the
heartbeat are kept as told. -/
def Obligations.CustodianAndSecurityCommandsAreServed : Prop :=
  (∀ (s : State) (via : Via) (m : Nat) (req : List Byte),
    let runs := fun op => s.takes via m op req ∧ s.mbFault m op req.length = none
    let serial := s.ctlBytes 0x10 16
    let token := req.drop 8
    let num := numAt req
    let told := fun (i : Via → Instr) st bs => Does (i via) s fun t => Answered via s t st bs
    (runs 0x51 → num 0 4 = 0 → ∃ n, n < 2 ^ 384 ∧ Does (.debugUnlockChallenge via) s fun t =>
      Answered via s t .ok (beBytes 48 n ++ serial) ∧ t.sec = { s.sec with nonce := some n }) ∧
    (runs 0x51 → num 0 4 = 1 →
      (req.length < 264 → told .debugUnlockSubmit .descriptorFault []) ∧
      (264 ≤ req.length → s.sec.nonce = none → told .debugUnlockSubmit .sequenceFault []) ∧
      (∀ n, 264 ≤ req.length → s.sec.nonce = some n →
        let key := (token.drop 64).take 96
        let sound := token.take 16 = serial ∧ (token.drop 16).take 48 = beBytes 48 n ∧ sha384 key = s.ctlBytes 0x140 48 ∧
          ecdsaOk key ((token.drop 160).take 96) (sha384 (token.take 160)) = true
        (s.fld Reg.rgsJobState ≠ 0 → told .debugUnlockSubmit .sequenceFault []) ∧
        (s.fld Reg.rgsJobState = 0 → ¬ sound → Does (.debugUnlockSubmit via) s fun t => Answered via s t .authFault [] ∧
          t.sec.nonce = none ∧ t.fld Reg.secDebugPending = s.fld Reg.secDebugPending) ∧
        (s.fld Reg.rgsJobState = 0 → sound → Does (.debugUnlockSubmit via) s fun t => Answered via s t .ok [] ∧
          t.sec.nonce = none ∧ t.fld Reg.secDebugPending = 1 ∧ t.fld Reg.secDebugState = s.fld Reg.secDebugState))) ∧
    (runs 0x51 → num 0 4 = 2 → Does (.debugUnlockCancel via) s fun t => Answered via s t .ok [] ∧ t.sec.nonce = none ∧
      t.fld Reg.secDebugPending = 0) ∧
    (runs 0x50 →
      let n := connOf via
      let x := s.spdm n
      let code := num 1 1
      let v13 := num 0 1 = 0x13
      let sends := fun (t : State) bs => match via with
        | .mailbox _ => Answered via s t .ok bs
        | .i3c _ _ => t.sent.getLast? = some (.i3c bs)
      let refuses := fun (i : Via → Instr) e => Does (i via) s fun t => sends t (spdmError e) ∧ t.sec = s.sec
      let answers := fun (i : Via → Instr) phase (ok : List Byte → Prop) => Does (i via) s fun t => (∃ bs, sends t bs ∧ ok bs) ∧
        t.spdm n = if phase = 0 then x else ⟨phase, false⟩
      (4 ≤ req.length → code = 0x84 → answers .spdmGetVersion 1 fun bs => bs = [0x10, 0x04, 0, 0, 0, 1, 0x00, 0x13]) ∧
      (∀ r ∈ [(0x84, Instr.spdmGetVersion), (0xE1, .spdmGetCapabilities), (0xE3, .spdmNegotiateAlgorithms), (0x81, .spdmGetDigests), (0x82, .spdmGetCertificate),
        (0x83, .spdmChallenge), (0xE0, .spdmGetMeasurements)],
        code = r.1 → (r.1 = 0x84 ∨ v13) →
        (req.length < 4 → refuses r.2 0x01) ∧
        (4 ≤ req.length → r.1 ≠ 0x84 → x.stale = true → refuses r.2 0x43) ∧
        (4 ≤ req.length → x.stale = false → x.phase < spdmNeeds r.1 → refuses r.2 0x04)) ∧
      (4 ≤ req.length → v13 → x.stale = false →
        (code = 0xE1 → 1 ≤ x.phase → answers .spdmGetCapabilities 2 fun bs => bs.take 2 = [0x13, 0x61] ∧ bs.length = 20) ∧
        (code = 0xE3 → 2 ≤ x.phase → bit (num 8 4) 7 = true ∨ bit (num 12 4) 1 = true → answers .spdmNegotiateAlgorithms 3 fun bs =>
          bs.take 2 = [0x13, 0x63] ∧ bs.length = 36) ∧
        (code = 0xE3 → 2 ≤ x.phase → bit (num 8 4) 7 = false → bit (num 12 4) 1 = false → answers .spdmNegotiateAlgorithms 0 fun bs =>
          bs.take 2 = [0x13, 0x7F]) ∧
        (3 ≤ x.phase →
          (code = 0x81 → answers .spdmGetDigests 0 fun bs => bs = [0x13, 0x01, 1, 1] ++ sha384 (Config.certChain s.sec.certs)) ∧
          (code = 0x82 →
            let chain := Config.certChain s.sec.certs
            let part := (chain.drop (num 4 2)).take (min 1024 (num 6 2))
            (num 2 1 % 16 ≠ 0 ∨ chain.length ≤ num 4 2 → answers .spdmGetCertificate 0 fun bs => bs = spdmError 0x01) ∧
            (num 2 1 % 16 = 0 → num 4 2 < chain.length → answers .spdmGetCertificate 0 fun bs => bs = [0x13, 0x02, 0, 0] ++
              leBytes 2 part.length ++ leBytes 2 (chain.length - num 4 2 - part.length) ++ part)) ∧
          (code = 0x83 →
            (num 2 1 % 16 ≠ 0 → answers .spdmChallenge 0 fun bs => bs = spdmError 0x01) ∧
            (num 2 1 % 16 = 0 → answers .spdmChallenge 0 fun bs => bs.take 52 = [0x13, 0x03, 0, 1] ++ sha384 (Config.certChain s.sec.certs))) ∧
          (code = 0xE0 → 7 < num 3 1 → num 3 1 ≠ 0xFF → answers .spdmGetMeasurements 0 fun bs => bs = spdmError 0x01) ∧
          (code = 0xE0 → (num 3 1 ≤ 7 ∨ num 3 1 = 0xFF) → answers .spdmGetMeasurements 0 fun bs => bs.take 3 = [0x13, 0x60, if num 3 1 = 0 then 7 else 0] ∧
            ∀ i, num 3 1 = i → 1 ≤ i → i ≤ 7 → (bs.drop 15).take 48 = s.meas i))) ∧
      (spdmCodes.any (fun c => spdmIs c req) = false →
        (req.length < 4 → refuses .spdmUnsupported 0x01) ∧ (4 ≤ req.length → code ≠ 0x84 → ¬ v13 → refuses .spdmUnsupported 0x41) ∧
        (4 ≤ req.length → v13 → refuses .spdmUnsupported 0x07))) ∧
    (let count := leBytes 4 s.boot
     let debug := leBytes 1 (s.fld Reg.secDebugState)
     let ident := s.ctlBytes 0 64
     let body := (List.range 7).flatMap (fun i => s.meas (i + 1)) ++ count ++ debug ++ [0, 0, 0]
     (runs 0xF00 → told .custIdentity .ok (ident ++ count ++ debug)) ∧
     (runs 0xF01 → ∃ sig : List Byte, sig.length = 96 ∧ told .custQuote .ok (body ++ sig)) ∧
     (runs 0xF02 → ∃ bs, told .custHealth .ok bs ∧ bs.take 8 = count ++ leBytes 1 (s.fld Reg.pwrBootStage) ++ leBytes 1 (s.fld Reg.pwrResetCause) ++
       debug ++ leBytes 1 (s.fld Reg.rgsFwState)) ∧
     (runs 0xF03 → s.ledger.tail.length ≤ 4096 → ∃ u : State, (∃ l, u.ledger.tail = (l ++ s.ledger.tail).take 4096) ∧ told .custLedgerTail .ok
       (readReply u u.ledger.tail.reverse ((u.ledger.tail.head?.map (·.seq + 1)).getD u.ledger.next) (num 0 8))) ∧
     (runs 0xF07 → ∃ time : List Byte, time.length = 8 ∧ told .custTime .ok (time ++ count)) ∧
     (runs 0xF06 → Does (.custInjectOff via) s fun t => Answered via s t .ok [] ∧ t.cons = { s.cons with armed := [] } ∧ t.fld Reg.csvInjLock = 1) ∧
     (runs 0xF04 → ∀ keep : Bool, num 0 4 % 2 = (if keep then 1 else 0) →
       let i : Via → Instr := if keep then .custResetKeepHbm else .custReset
       let kept := keep && s.fld Reg.secDebugPending == 0 && s.fld Reg.secDebugState == 0 && !s.pow.fault && !s.pow.refFault
       (s.pow.mainUp = false → told i .ok []) ∧
       (s.pow.mainUp = true → s.boot + 1 < 2 ^ 32 → Memory.wf s.mem → Does (i via) s fun t =>
         t.fld Reg.pwrResetCause = 3 ∧ t.boot = s.boot + 1 ∧ t.fld Reg.pwrBootStage = 1 ∧ t.strms = [] ∧ t.fld Reg.pwrHbmKept = (if kept then 1 else 0) ∧
         (∀ k, via = .mailbox k → t.shows k .ok []) ∧ (kept = false → t.mem = []) ∧
         (kept = true → (∀ e ∈ s.cache, e.2.dirty = false) → ∀ a, byteAt t.mem a = if a < 0x07FFC000000 then byteAt s.mem a else 0))) ∧
     (runs 0xF05 → ∀ ok, Does (.custPowerDown via ok) s fun t => t.pow.off = true ∧ t.held = true ∧ t.mem = [] ∧
       (∀ k, via = .mailbox k → t.shows k .ok [if ok then 1 else 0])))) ∧
  (∀ (s : State) (address : Nat),
    (s.pow.custUp = false → exec (.i3cEntdaa address) s = .next s ∧ exec .i3cRequestDiscard s = .next s ∧ exec .heartbeatStall s = .next s) ∧
    (s.pow.custUp = true →
      (Does (.i3cEntdaa address) s fun t => t.pow = { s.pow with i3c := some address } ∧ ChangesOnly [.pow] s t) ∧
      (s.pow.i3c = none → exec .i3cRequestDiscard s = .next s) ∧
      (s.pow.i3c.isSome = true → Does .i3cRequestDiscard s fun t => bit (t.fld Reg.cstAlertCause) 3 = true ∧
        (s.fld Reg.cstI3cDropped + 1 < 2 ^ 32 → t.fld Reg.cstI3cDropped = s.fld Reg.cstI3cDropped + 1)) ∧
      (Does .heartbeatStall s fun t => bit (t.fld Reg.cstAlertCause) 1 = true ∧ t.pow = { s.pow with stalled := true } ∧ t.lands[3]? = some false ∧
        Logged t (.unit 0x11) 0 .ok (.detect 0x11 2 0 0 1))) ∧
    (let beats := s.fwRunning = true ∧ ∃ i, i < 4 ∧ bit (s.fld Reg.rgsCores) i = true ∧ i ∉ s.sec.halted
     (¬ beats → exec .heartbeatAdvance s = .next s) ∧
     (beats → Does .heartbeatAdvance s fun t => t.pow = { s.pow with stalled := false } ∧ KeepsWords [Reg.rgsHeartbeat.off] s t ∧
       (s.fld Reg.rgsHeartbeat + 1 < 2 ^ 32 → t.fld Reg.rgsHeartbeat = s.fld Reg.rgsHeartbeat + 1))))

/-- Job commands by job state, the step loop, the release of COMMIT, and the work at a step boundary. JOB_LOAD ends with its first failing
check and leaves no job, or leaves the job of its record loaded, with its seeds and epoch; it ends with OK where the record is sound, its
groups come up and have the members their roles ask for. JOB_START, JOB_UNLOAD and SET_EPOCH need a loaded or stopped job; JOB_STOP of a
running one waits BUSY for the boundary, or releases COMMIT now. The loop begins an attempt, stops at the retry limit or when told, and goes
to the boundary when COMMIT ends with OK, or restores when the step was discarded; after UNKNOWN it asks its own Ledger and then the
reachable members' for the decision. The watchdog, or a halted stream, clears COL_STEP_OK, and the END flag is set once nothing is in
flight. Boundary work, once the Vault lets it, repairs and reports the one block that differs from a replica's, keeps a revision that is due
and zeroes its histogram, sends a checkpoint with what it holds, and the loop is ready again, or stops after its last step. -/
def Obligations.TheJobLoadsStepsAndStops : Prop :=
  (∀ (s : State) (via : Via) (m : Nat) (req : List Byte),
    let runs := fun op => s.takes via m op req ∧ s.mbFault m op req.length = none
    let st := s.fld Reg.rgsJobState
    let told := fun (i : Via → Instr) st bs => Does (i via) s fun t => Answered via s t st bs
    let rests := st = 1 ∨ st = 4
    (runs 0x30 →
      let a := numAt req 0 8 % 2 ^ 44
      let cap := numAt req 8 4
      let h := s.words a 16
      let len := 64 + 32 * hfld h 0 16 7
      let es := (List.range (hfld h 0 16 7)).map (s.groupEnt a)
      let placed := fun n => a % 64 = 0 ∧ s.atVault a n = true
      let sound := fun n => (s.readHurt a n).isNone = true
      let fails := fun st => Does (.jobLoad via) s fun t => Answered via s t st [] ∧ t.job = s.job ∧ t.mem = s.mem
      (¬ placed 64 → fails .addressFault) ∧ (placed 64 → ¬ sound 64 → fails .memoryFault) ∧ (placed 64 → sound 64 →
        (cap < len → fails .sizeFault) ∧ (len ≤ cap → ¬ placed len → fails .addressFault) ∧ (len ≤ cap → placed len → ¬ sound len → fails .memoryFault) ∧
        (len ≤ cap → placed len → sound len →
          (st ≠ 0 → fails .sequenceFault) ∧
          (st = 0 → recordBad h es (((es.find? (·.role == 0)).map (·.box)).getD 0) = true → fails .descriptorFault) ∧
          (st = 0 → recordBad h es (((es.find? (·.role == 0)).map (·.box)).getD 0) = false →
            let loaded := fun t : State => t.fld Reg.rgsJobState = 1 ∧ t.fld Reg.rgsJobId = hfld h 0 0 16 ∧ t.job.hdr = h ∧
              t.job.groups = es.map (·.group) ∧ t.job.phase = .idle ∧ t.job.attempt = 0 ∧
              (∀ c, c < 256 → t.fld (Reg.drnSeedLo c) = h.getD 6 0 ∧ t.fld (Reg.drnSeedHi c) = h.getD 7 0) ∧
              ∀ k, k < 8 → t.fld (Reg.btrEpoch k) = h.getD 4 0 ∧ t.fld (Reg.btrSeedLo k) = h.getD 6 0 ∧ t.fld (Reg.btrWmKeyHi k) = h.getD 9 0
            let commit := ((es.find? (·.role == 0)).map (·.group)).getD 0
            let made := fun n => run (seqs ((es.take n).map fun e => seq (writeDef e) (groupCreateProg e.group))) (s.loading via)
            let u := made es.length
            (Does (.jobLoad via) s fun t =>
              ∃ r, Answered via s t r [] ∧ (r ≠ .ok → t.job = s.job ∧ t.fld Reg.rgsJobState = 0) ∧ (r = .ok → loaded t)) ∧
            ((∀ i e, es[i]? = some e → (made (i + 1)).fld (Reg.colGrpState e.group) = 2) →
              u.boxSize commit ≤ u.fld (Reg.colGrpMyRank commit) ∨ es.all (u.roleOk h commit) = true →
              Does (.jobLoad via) s fun t => Answered via s t .ok [] ∧ loaded t))))) ∧
    (runs 0x31 → (¬ rests → told .jobStart .sequenceFault []) ∧
      (rests → Does (.jobStart via) s fun t => Answered via s t .ok [] ∧ t.fld Reg.rgsJobState = 2 ∧
        t.job = { s.job with phase := .ready, attempt := 0, steps := 0, stopping := none, anchors := t.job.anchors } ∧
        t.job.anchors.length = (Config.clearList s.job.table (s.fld (Reg.btrEpoch 0) % 2)).length)) ∧
    (runs 0x33 → (¬ rests → told .jobUnload .sequenceFault []) ∧
      (rests → Does (.jobUnload via) s fun t => Answered via s t .ok [] ∧ t.fld Reg.rgsJobState = 0 ∧ t.fld Reg.rgsJobId = 0 ∧ t.job = JobX.none ∧
        ∀ k, k < 8 → t.fld (Reg.btrLendMode k) = 0)) ∧
    (runs 0x35 → (¬ rests → told .setEpoch .sequenceFault []) ∧
      (rests → Does (.setEpoch via) s fun t => Answered via s t .ok [] ∧ t.job = s.job ∧ ∀ k, k < 8 → t.fld (Reg.btrEpoch k) = numAt req 0 4)) ∧
    (runs 0x32 → ∀ now : Bool, numAt req 0 4 % 2 = (if now then 1 else 0) →
      let i : Via → Instr := if now then .jobStopNow else .jobStopBoundary
      (st = 0 → told i .sequenceFault []) ∧ (st = 4 → told i .ok []) ∧
      (st = 1 → Does (i via) s fun t => Answered via s t .ok [] ∧ t.fld Reg.rgsJobState = 4 ∧ t.job = s.job) ∧
      (st = 2 ∨ st = 3 → Does (i via) s fun t =>
        if s.job.phase = .ready ∧ now = false then Answered via s t .ok [] ∧ t.fld Reg.rgsJobState = 4 ∧ t.job.phase = .idle
        else t.fld Reg.rgsJobState = 3 ∧ t.mbox.running = some m ∧ t.fld (Reg.htxMbState m) = 1 ∧ t.job.stopping = some now ∧
          (s.job.phase = .ready → t.job.phase = .restoring) ∧ (now = true → (∃ acc sn, s.job.phase = .waiting acc sn) → t.fld Reg.colStepOk = 0)))) ∧
  (∀ s : State, s.mbox.waiting = [] →
    let j := s.job
    let waits := ∃ acc sn, j.phase = .waiting acc sn
    let stops := fun i => Does i s fun t => t.fld Reg.rgsJobState = 4 ∧ t.job.phase = .idle ∧ t.job.stopping = none ∧ bit (t.fld Reg.rgsEvents) 0 = true ∧
      ∀ m, s.mbox.running = some m → m < 7 → EndedNow t (.mailbox m) (s.servedOn m).acc .ok
    let released := fun (t : State) => t.fld Reg.colStepOk = 0 ∧ t.job.releasing = !s.noneInFlight ∧
      (s.noneInFlight = true → hfld j.hdr 12 8 6 < 48 → s.outOfService (hfld j.hdr 12 0 8) = false →
        (t.flagAt (hfld j.hdr 12 0 8) (hfld j.hdr 12 8 6)).val = 1)
    let discards := fun (i : Instr) =>
      (j.stopping = none → j.limit ≤ j.attempt → stops i) ∧
      (j.stopping ≠ none ∨ j.attempt < j.limit → Does i s fun t => t.job.phase = .restoring ∧ t.job.steps = j.steps ∧ t.job.attempt = j.attempt)
    let commits := fun (i : Instr) => Does i s fun t => t.job.phase = .boundary ∧ t.job.steps = j.steps + 1 ∧ t.job.revised = [] ∧
      ∀ k, k < 8 → t.fld (Reg.btrEpoch k) = (s.fld (Reg.btrEpoch 0) + 1) % 2 ^ 32
    let asks := fun (i : Instr) (sn : Nat) (left : List Nat) =>
      (left.filter s.reachable = [] → stops i) ∧
      (∀ m r, left.filter s.reachable = m :: r → Does i s fun t => t.job = { j with phase := .asking sn r, releasing := false } ∧
        t.sent = s.sent ++ [.ledgerFwd m (commitRequest m j.commit sn)])
    let asking := ∃ sn left, j.phase = .asking sn left
    (j.phase = .idle ∨ j.phase = .boundary ∨ asking → exec .stepAttempt s = .next s) ∧
    (¬ asking → (∀ bs, exec (.ledgerFwdReply 8 bs) s = .next s) ∧ exec (.ledgerFwdTimeout 8) s = .next s) ∧
    (∀ sn left, j.phase = .asking sn left → asks (.ledgerFwdTimeout 8) sn left ∧ ∀ bs,
      (numAt bs 0 2 = 6 → commits (.ledgerFwdReply 8 bs)) ∧ (numAt bs 0 2 = 7 → discards (.ledgerFwdReply 8 bs)) ∧
      (numAt bs 0 2 ≠ 6 → numAt bs 0 2 ≠ 7 → asks (.ledgerFwdReply 8 bs) sn left)) ∧
    (j.phase = .ready →
      (j.stopping ≠ none ∨ j.limit ≤ j.attempt → stops .stepAttempt) ∧
      (j.stopping = none → j.attempt < j.limit → Does .stepAttempt s fun t => t.job.attempt = j.attempt + 1 ∧ t.job.hdr = j.hdr ∧ t.job.steps = j.steps ∧
        ∃ acc sn, t.job.phase = .waiting acc sn)) ∧
    (j.phase = .restoring →
      (s.noneInFlight = false → exec .stepAttempt s = .next s) ∧
      (s.noneInFlight = true → j.stopping ≠ some true → Does .stepAttempt s fun t => t.job.phase = .ready ∧ t.job.attempt = j.attempt) ∧
      (s.noneInFlight = true → j.stopping = some true → (∀ sid ∈ j.streams, s.strmStateOf sid ≤ 1 ∧ (s.strm sid).ahead = []) → stops .stepAttempt)) ∧
    (∀ acc sn, j.phase = .waiting acc sn →
      let ends := s.ledger.events.find? fun e => e.src == .stream j.commitStream && e.acc == acc &&
        match e.body with | .fin _ _ _ => true | .abandon _ => true | _ => false
      (∀ e, ends = some e →
        (e.status = .ok → Does .stepAttempt s fun t => t.job.phase = .boundary ∧ t.job.steps = j.steps + 1 ∧ t.fld Reg.rgsJobState = s.fld Reg.rgsJobState) ∧
        (e.status = .unknown →
          (s.commitAnswer j.commit sn = none → asks .stepAttempt sn ((s.members j.commit).filter (· != s.me))) ∧
          (∀ x ep, s.commitAnswer j.commit sn = some (x, true, ep) → commits .stepAttempt)) ∧
        ((e.status ≠ .ok ∧ e.status ≠ .unknown) ∨ (e.status = .unknown ∧ ∃ x ep, s.commitAnswer j.commit sn = some (x, false, ep)) →
          discards .stepAttempt)) ∧
      (ends = none → (j.releasing = false ∨ s.noneInFlight = false) → exec .stepAttempt s = .next s)) ∧
    (¬ waits → exec .stepTimeout s = .next s ∧ exec .commitRelease s = .next s) ∧
    (waits → (j.hdr.getD 13 0 = 0 → exec .stepTimeout s = .next s) ∧ (j.hdr.getD 13 0 ≠ 0 → Does .stepTimeout s released) ∧
      (j.releasing = true → s.noneInFlight = false → exec .commitRelease s = .next s) ∧
      (j.releasing = true → s.noneInFlight = true → Does .commitRelease s fun t => t.job = { j with releasing := false } ∧ t.fld Reg.colStepOk = s.fld Reg.colStepOk) ∧
      (j.releasing = false → (∀ x ∈ j.streams, (s.strm x).halted = false) → exec .commitRelease s = .next s) ∧
      (j.releasing = false → (∃ x ∈ j.streams, (s.strm x).halted = true) → Does .commitRelease s released)) ∧
    (∀ ps rs ok ck, (j.phase ≠ .boundary → exec (.stepBoundaryWork ps rs ⟨ok, ck⟩) s = .next s) ∧
      (j.phase = .boundary →
        let work := Instr.stepBoundaryWork ps rs ⟨ok, ck⟩
        let last := j.stopping ≠ none ∨ (j.hdr.getD 5 0 ≠ 0 ∧ j.hdr.getD 5 0 ≤ j.steps)
        let clear := s.ready (s.dueTables.flatMap s.wmExts)
        let n := s.fld (Reg.btrEpoch 0)
        (clear = false → Does work s fun t => t.job = j ∧ t.mem = s.mem) ∧
        (clear = true → (last → stops work) ∧
          (Does work s fun t => (¬ last → t.job.phase = .ready) ∧ t.job.attempt = 0 ∧ t.job.steps = j.steps ∧ t.job.histBad = !ok) ∧
          (∀ T p b, s.dueTables = [T] → ps = [p] → rs = [] → ck = false → p.beater = T.beater → p.leaves.length = T.count →
            let k := T.beater
            let es := (entriesOf T).map s.bEntry
            let own := es.map (leafDigest s k (digestWords 0 T.stochastic))
            let e := s.bEntry (T.addr + 64 * b)
            let right := leafDigest s k (digestWords 1 T.stochastic) e
            let key := s.fld (Reg.btrWmKeyLo k) + 2 ^ 32 * s.fld (Reg.btrWmKeyHi k)
            (es.all fun x => (s.digestHurt k (digestWords 0 T.stochastic) x).isNone) = true → differing key T.count [own, p.leaves] = [b] →
            (e.committed (s.fld (Reg.btrEpoch k))).isSome = true → Does work s fun t =>
              (∃ ev ∈ t.ledger.events, ev.src = .stream (1056 + k) ∧
                ev.body = .watermark b ((if p.leaves.getD b 0 ≠ right then 1 else 0) + if own.getD b 0 ≠ right then 1 else 0) s.me) ∧
              bit (t.fld Reg.rgsEvents) 2 = true ∧
              (s.fld (Reg.btrWmMismatch k) + 1 < 2 ^ 32 → t.fld (Reg.btrWmMismatch k) = s.fld (Reg.btrWmMismatch k) + 1) ∧
              (s.fld (Reg.btrIntegrity k) + 1 < 2 ^ 32 →
                t.fld (Reg.btrIntegrity k) = s.fld (Reg.btrIntegrity k) + if own.getD b 0 ≠ right then 1 else 0)) ∧
          (∀ v : Revision, ps = [] → rs = [v] →
            let l := s.layer v.layer
            let hw := fun i => leNat (bytesAt s.mem (l.placeAddr + 4 * i) 4)
            let period := hw 3 % 2 ^ 16
            let old := s.allReplicas l
            let new := revise l old (hw 2 % 2 ^ 13) period v.served
            (s.isDueEvery period = false → Does work s fun t => t.job.revised = j.revised ∧ t.mem = s.mem) ∧
            (s.isDueEvery period = true → Memory.wf s.mem → Does work s fun t =>
              t.job.revised = j.revised ++ [⟨v.layer, v.served, tableBytes (hw 0 + 1) l.experts (hw 2 % 2 ^ 13) period new,
                (new.filter fun q => !old.contains q).map fun q => (q.expert, q.member)⟩] ∧
              ∀ x, byteAt t.mem x = if l.histAddr ≤ x ∧ x < l.histAddr + 16 * l.experts then 0 else byteAt s.mem x)) ∧
          (s.dueTables = [] → rs = [] → ck = true → Does work s fun t => ∃ c, .checkpoint c ∈ t.sent ∧ c.epoch = n ∧
            c.version = s.fld Reg.rgsFwVersion ∧ c.anchors = j.anchors ∧ c.sums = j.revised.map (fun r => (r.layer, r.served)) ∧
            c.tables = (Config.layers j.table).map (fun a => (a, s.read (s.layer a).placeAddr (64 + 64 * (s.layer a).experts))) ∧
            ∀ T ∈ Config.blockTables j.table, ∀ a ∈ entriesOf T, ∀ h, (s.bEntry a).tiles ≠ 0 → (s.bEntry a).committed n = some h →
              (s.stackHurt T.beater ((s.bEntry a).slot h) slotBytes).isNone = true →
              (a, s.stackRead T.beater ((s.bEntry a).slot h) slotBytes) ∈ c.blocks)))))

/-- Correctable and uncorrectable errors by detector, injection, core replacement and the other spares. A correctable error is counted, by
bank or row too, and reported with the count since the last report, or not yet. An uncorrectable one has its detector's outcome: damaged
line or word, failed array (whose commands not being computed or drained there go on), halted core, ended command, port down, control core
lost. Arming adds an injection unless locked or without a point. CSV_REPLACE_GO answers in its status and begins; a replacement takes the
lowest spare, its store zero, its streams fresh, its array map that of the spare, or the core goes out of service. A control core, module,
bank, row and lane each give way to a spare, recorded for REPAIR_READ, or run on without; a row has the channel and pseudo-channel its stack
address gives; the last module of a link asserts FAULT_N. -/
def Obligations.ErrorsAreCountedAndSparesComeIn : Prop :=
  ∀ s : State, Memory.wf s.mem →
    let counted := fun (f : Fld) (t : State) => s.fld f + 1 < 2 ^ 32 → t.fld f = s.fld f + 1
    let repaired := fun (t : State) r => t.cons.repairs = r :: s.cons.repairs
    let quiet := s.mbox.waiting = [] ∧ s.mbox.running = none ∧ s.mbox.fwd = []
    (∀ det die unit item, s.pointArmed det die unit = false →
      let n := (nget s.cons.since (countKey det die unit 0)).getD 0 + 1
      let key := if det = 0x07 then rowKey (stackOf die) (rowPlace item) else countKey det die unit item
      (det = 0 ∨ 0x0E < det → Does (.correctableError det die unit item) s fun t => ChangesOnly [.draw] s t) ∧
      (1 ≤ det → det ≤ 0x0E → Does (.correctableError det die unit item) s fun t => counted Reg.csvCeCount t ∧ t.mem = s.mem ∧ t.hurt = s.hurt ∧
        (det = 0x06 ∨ det = 0x07 → nget t.cons.counts key = some ((nget s.cons.counts key).getD 0 + 1)) ∧
        ((t.ledger = s.ledger ∧ nget t.cons.since (countKey det die unit 0) = some n) ∨
          (Logged t (.unit det) 0 .ok (.detect det die unit item n) ∧ nget t.cons.since (countKey det die unit 0) = some 0)))) ∧
    (∀ det die unit item, s.pointArmed det die unit = false → quiet →
      let i := Instr.uncorrectableError det die unit item
      let logs := fun (t : State) st => Logged t (.unit det) 0 st (.detect det die unit item 1)
      let noted := fun (t : State) st => ∃ e ∈ t.ledger.events, e.src = .unit det ∧ e.status = st ∧ e.body = .detect det die unit item 1
      let hurts := fun (t : State) a => (∃ h, nget t.hurt a = some h ∧ h.damaged = true) ∧ t.pow.memFault = true ∧ counted Reg.csvUeCount t
      (det = 0 ∨ 0x0F < det → exec i s = .next s) ∧
      (det = 0x01 → (¬ (unit < 256 ∧ coreOfAddr item = some unit ∧ item < 0x09040000000) → exec i s = .next s) ∧
        (unit < 256 → coreOfAddr item = some unit → item < 0x09040000000 → Does i s fun t => logs t .memoryFault ∧ hurts t (item / 64 * 64) ∧
          (t.core unit).lsErrors = (s.core unit).lsErrors + 1 ∧
          (2 ≤ (s.core unit).lsErrors → bit (t.fld (Reg.csvPending (unit / 32))) (unit % 32) = true))) ∧
      (det = 0x02 → unit / 32 < 256 → unit % 32 < 24 → Does i s fun t => (t.core (unit / 32)).sparing.head? = some (unit % 32) ∧
        ∀ sid, ∀ c ∈ (s.strm sid).issued, (∀ x ∈ (s.arrayQueue (unit / 32) (unit % 32)).take 2, x.1 = sid → x.2.acc ≠ c.acc) →
          c ∈ (t.strm sid).issued) ∧
      (det = 0x03 → unit < 256 → Does i s fun t => (t.core unit).replacing = some 0x03 ∧ ∀ sid, sid / 4 = unit →
        (s.strm sid).resetting = false → (s.strm sid).resume = .none → (t.strm sid).halted = true ∧ (t.strm sid).issued = [] ∧
        t.fld (Reg.strmLastStatus sid) = statusCode .unitFault) ∧
      (det = 0x04 → item < 1088 → Does i s fun t => noted t .unitFault ∧ counted Reg.csvUeCount t ∧
        ∀ c, (s.strm item).issued.head? = some c → EndedNow t (.stream item) c.acc .unitFault) ∧
      (det = 0x05 ∨ det = 0x09 → Does i s fun t => logs t .ok ∧ t.mem = s.mem) ∧
      (det = 0x06 ∨ det = 0x07 →
        let ok := if det = 0x06 then s.atVault item 1 = true else item < 0x07FFC000000
        (¬ ok → exec i s = .next s) ∧
        (ok → Does i s fun t => logs t .memoryFault ∧ hurts t (item / 128 * 128) ∧ t.mem = s.mem ∧
          t.cons.due = (if det = 0x06 then (0x06, die, unit) else (0x07, (s.placeOf item).1, 0)) :: s.cons.due)) ∧
      (det = 0x08 → Does i s fun t => logs t .memoryFault ∧ t.pow.memFault = true ∧ counted Reg.csvUeCount t ∧
        (item < s.fab.transit.length → t.fab.transit.length + 1 = s.fab.transit.length)) ∧
      (det = 0x0A → unit < 36 → Does i s fun t => noted t .authFault ∧ counted Reg.secLinkAuthFails t ∧
        (s.fld (Reg.chnPortState unit) ≠ 7 → t.ports = s.ports)) ∧
      (det = 0x0B → Does i s fun t => logs t .checkFault) ∧
      (det = 0x0C → 8 ≤ die → die < 16 → item < 64 → Does i s fun t => noted t .beaterFault ∧ t.cons.due = (0x0C, die - 8, item) :: s.cons.due ∧
        ∀ c, (s.strm (1048 + die)).issued.head? = some c → EndedNow t (.stream (1048 + die)) c.acc .beaterFault) ∧
      (det = 0x0D → unit < 2 → Does i s fun t => noted t (if item = 1 then .memoryFault else .unitFault) ∧
        ∀ j, j < 4 → ∀ c ∈ (t.strm (1064 + 4 * unit + j)).issued, c.started = false) ∧
      (det = 0x0E → unit < 4 → bit (s.fld Reg.rgsCores) unit = true → Does i s fun t => logs t .unitFault ∧
        bit (t.fld Reg.rgsCores) unit = false ∧ ∀ k, k ≠ unit → bit (t.fld Reg.rgsCores) k = bit (s.fld Reg.rgsCores) k) ∧
      (det = 0x0F → Does i s fun t => logs t .integrityFault ∧ t.pow.memFault = true)) ∧
    (quiet →
      let t := s.fld Reg.csvInjTarget
      let u := s.fld Reg.csvInjUnit
      let d := s.fld Reg.csvInjDie
      let n := s.fld Reg.csvInjCount
      let may := s.fld Reg.csvInjLock = 0 ∧ s.injectable t u d = true
      (¬ may → exec .csvInjArm s = .next s) ∧
      (may → t ≠ 0x0E → Does .csvInjArm s fun v => v.cons = { s.cons with armed := s.cons.armed ++ [⟨t, u, d, s.fld Reg.csvInjKind, n⟩] } ∧ ChangesOnly [.cons] s v) ∧
      (may → t = 0x0E → Does .csvInjArm s fun v => v.cons = s.cons ∧ (s.fld Reg.csvInjDone + n < 2 ^ 32 → v.fld Reg.csvInjDone = s.fld Reg.csvInjDone + n) ∧
        (n ≠ 0 → Logged v (.unit 0x0E) 0 .unitFault (.detect 0x0E 2 u 0 1)))) ∧
    (∀ n, (256 ≤ n → exec (.csvReplaceGo n) s = .next s ∧ exec (.coreReplace n) s = .next s) ∧
      (n < 256 →
        let pending := bit (s.fld (Reg.csvPending (n / 32))) (n % 32) = true
        let still := (sidsOfCore n).all (fun sid => s.strmStateOf sid == 0 || s.strmStateOf sid == 4) = true ∧ s.issuedOf n isArrayClass = 0
        let spares := s.freeSpares (n / 128)
        let status := fun st t => State.fld t Reg.csvReplaceStatus = statusCode st
        (¬ (pending ∧ still) → Does (.csvReplaceGo n) s fun t => status .sequenceFault t ∧ KeepsWords [Reg.csvReplaceStatus.off] s t ∧ ChangesOnly [.reg] s t) ∧
        (pending → still → spares = [] → Does (.csvReplaceGo n) s fun t => status .sizeFault t ∧ KeepsWords [Reg.csvReplaceStatus.off] s t ∧ ChangesOnly [.reg] s t) ∧
        (pending → still → spares ≠ [] → Does (.csvReplaceGo n) s fun t => status .ok t ∧
          (t.core n).replacing = some (if s.fld (Reg.arrFailed n) = 0 then 0x01 else 0x02) ∧
          ∀ a, byteAt t.mem a = if lsAddr n 0 ≤ a ∧ a < lsAddr n 0x400000 then 0 else byteAt s.mem a) ∧
        ((s.core n).replacing = none → exec (.coreReplace n) s = .next s) ∧
        (∀ cause, (s.core n).replacing = some cause →
          (spares = [] → Does (.coreReplace n) s fun t => (t.core n).replacing = none ∧ s.mem = t.mem ∧
            bit (t.fld (Reg.csvOutOfService (n / 32))) (n % 32) = true ∧ bit (t.fld (Reg.csvPending (n / 32))) (n % 32) = false) ∧
          (∀ p rest, spares = p :: rest → Does (.coreReplace n) s fun t => t.fld (Reg.corePhysical n) = p ∧ (t.core n).phys = some p ∧
            (t.core n).replacing = none ∧ bit (t.fld (Reg.csvPending (n / 32))) (n % 32) = false ∧
            repaired t ⟨1, n / 128, 0, s.fld (Reg.corePhysical n), 0, p, cause, s.boot⟩ ∧
            (∀ sid ∈ sidsOfCore n, (t.strm sid).issued = [] ∧ (t.strm sid).ahead = [] ∧ (t.strm sid).halted = false ∧
              t.fld (Reg.strmEnable sid) = 0 ∧ t.accNext sid = 1) ∧
            (∀ l, l < 24 → t.fld (Reg.arrPhys n l) = if Config.factoryArray (136 * (n / 128) + p) = l then 24 else l) ∧
            (∀ f, f < 48 → t.flagAt n f = Flag.reset) ∧
            ∀ a, byteAt t.mem a = if lsAddr n 0 ≤ a ∧ a < lsAddr n 0x400000 then 0 else byteAt s.mem a)))) ∧
    (quiet → ∀ i, (4 ≤ i → Does (.controlCoreSpare i) s fun t => ChangesOnly [.draw] s t) ∧
      (i < 4 → s.fld Reg.rgsSpareUsed = 1 → Does (.controlCoreSpare i) s fun t => bit (t.fld Reg.rgsCores) i = false ∧ t.cons = s.cons) ∧
      (i < 3 → s.fld Reg.rgsSpareUsed = 0 → Does (.controlCoreSpare i) s fun t => bit (t.fld Reg.rgsCores) i = false ∧ bit (t.fld Reg.rgsCores) 3 = true ∧
        t.fld Reg.rgsSpareUsed = 1 ∧ repaired t ⟨9, 2, 0, i, 0, 3, 0x0E, s.boot⟩ ∧ bit (t.fld Reg.rgsEvents) 4 = true)) ∧
    (∀ die m, (moduleOf die m = none → exec (.ucieModuleRemove die m) s = .next s) ∧
      (∀ x, moduleOf die m = some x →
        (x ∈ s.cons.modules → exec (.ucieModuleRemove die m) s = .next s) ∧
        (x ∉ s.cons.modules → Does (.ucieModuleRemove die m) s fun t => t.cons.modules = x :: s.cons.modules ∧
          repaired t ⟨5, die, 0, m, 0, 0, 0x05, s.boot⟩ ∧ (x.1 = 3 → bit (t.fld Reg.htxLinkModules) x.2 = false) ∧
          (((x :: s.cons.modules).filter fun y => y.1 == x.1).length = linkModules x.1 → t.pow = { s.pow with linkLost := true } ∧ t.lands[0]? = some false) ∧
          (((x :: s.cons.modules).filter fun y => y.1 == x.1).length ≠ linkModules x.1 → t.pow = s.pow ∧ t.strms = s.strms)))) ∧
    (∀ d slice bank,
      let may := (∀ b ∈ s.cons.banks, ¬ (b.1 = d ∧ b.2.1 = slice ∧ b.2.2 / 16 = bank / 16)) ∧
        (s.isDue 0x06 d slice = true ∨ s.fld Reg.csvCeBankLimit ≤ (nget s.cons.counts (countKey 0x06 d slice bank)).getD 0)
      (¬ may → exec (.vaultBankSpare d slice bank) s = .next s) ∧
      (may → Does (.vaultBankSpare d slice bank) s fun t => t.cons.banks = (d, slice, bank) :: s.cons.banks ∧ t.hurt = s.hurt ∧ t.mem = s.mem ∧
        repaired t ⟨6, d, 0, slice, bank, bank / 16, 0x06, s.boot⟩ ∧ t.cons.due = s.cons.due.filter (· != (0x06, d, slice)))) ∧
    (∀ k a n,
      let r := rowPlace a
      let may := s.isDue 0x07 k 0 = true ∨ s.fld Reg.csvCeRowLimit ≤ (nget s.cons.counts (rowKey k r)).getD 0
      r.1 = 2 * (a / 2 ^ 8 % 32 ^^^ a / 2 ^ 13 % 32) + a / 2 ^ 7 % 2 ∧
      (¬ may → exec (.hbmRowRepair k a n) s = .next s) ∧
      (may → Does (.hbmRowRepair k a n) s fun t => t.hurt = s.hurt ∧ t.mem = s.mem ∧
        repaired t ⟨7, k / 4, k, r.1, r.2, n, 0x07, s.boot⟩ ∧ t.cons.due = s.cons.due.filter (· != (0x07, k, 0)))) ∧
    (∀ k lane,
      let may := k < 8 ∧ s.isDue 0x0C k lane = true
      (¬ may → exec (.beaterLaneSpare k lane) s = .next s) ∧
      (may → s.fld (Reg.btrSpares k) = 0 → Does (.beaterLaneSpare k lane) s fun t => t.fld (Reg.btrLanes k) = s.fld (Reg.btrLanes k) - 1 ∧
        t.cons.lanes = (k, lane) :: s.cons.lanes ∧ t.cons.repairs = s.cons.repairs) ∧
      (may → s.fld (Reg.btrSpares k) ≠ 0 → Does (.beaterLaneSpare k lane) s fun t => t.fld (Reg.btrSpares k) = s.fld (Reg.btrSpares k) - 1 ∧
        t.fld (Reg.btrLanes k) = s.fld (Reg.btrLanes k) ∧ repaired t ⟨8, k / 4, k, 0, lane, 68 - s.fld (Reg.btrSpares k), 0x0C, s.boot⟩))
end

