-- ==== Sys2Proof/Laws/State.lean ====
section
/-! SUPPORT. What each elementary effect does to each field of the state, so that no proof unfolds a record update. -/

namespace Sys2Proof.Machine

@[simp] theorem apply_pending (e : Eff) (s : State) : (e.apply s).pending = s.pending := by cases e <;> rfl

@[simp] theorem apply_ctl (e : Eff) (s : State) : (e.apply s).ctl =
    match e with
      | .reg off v => nset s.ctl off (v &&& wordMask off)
      | .regReset off => ndel s.ctl off
      | .restart k => (s.restart k).ctl
      | .cold => s.cold.ctl
      | _ => s.ctl := by cases e <;> rfl

@[simp] theorem apply_mem (e : Eff) (s : State) : (e.apply s).mem =
    match e with
      | .memB a b => setByte s.mem a b
      | .restart k => (s.restart k).mem
      | .cold => s.cold.mem
      | _ => s.mem := by cases e <;> rfl

@[simp] theorem apply_hostMem (e : Eff) (s : State) : (e.apply s).hostMem =
    match e with
      | .hostB a b => setByte s.hostMem a b
      | .restart k => (s.restart k).hostMem
      | .cold => s.cold.hostMem
      | _ => s.hostMem := by cases e <;> rfl

@[simp] theorem apply_flags (e : Eff) (s : State) : (e.apply s).flags =
    match e with
      | .flag k f => nset s.flags k f
      | .restart k => (s.restart k).flags
      | .cold => s.cold.flags
      | _ => s.flags := by cases e <;> rfl

@[simp] theorem apply_strms (e : Eff) (s : State) : (e.apply s).strms =
    match e with
      | .strm sid x => nset s.strms sid x
      | .restart k => (s.restart k).strms
      | .cold => s.cold.strms
      | _ => s.strms := by cases e <;> rfl

@[simp] theorem apply_cores (e : Eff) (s : State) : (e.apply s).cores =
    match e with
      | .core n x => nset s.cores n x
      | .restart k => (s.restart k).cores
      | .cold => s.cold.cores
      | _ => s.cores := by cases e <;> rfl

@[simp] theorem apply_bars (e : Eff) (s : State) : (e.apply s).bars =
    match e with
      | .bar c x => nset s.bars c x
      | .restart k => (s.restart k).bars
      | .cold => s.cold.bars
      | _ => s.bars := by cases e <;> rfl

@[simp] theorem apply_cache (e : Eff) (s : State) : (e.apply s).cache =
    match e with
      | .line k x => nput s.cache k x
      | .restart k => (s.restart k).cache
      | .cold => s.cold.cache
      | _ => s.cache := by cases e <;> rfl

@[simp] theorem apply_dir (e : Eff) (s : State) : (e.apply s).dir =
    match e with
      | .dir k x => nput s.dir k x
      | .restart k => (s.restart k).dir
      | .cold => s.cold.dir
      | _ => s.dir := by cases e <;> rfl

@[simp] theorem apply_vaults (e : Eff) (s : State) : (e.apply s).vaults =
    match e with
      | .vault d x => nset s.vaults d x
      | .restart k => (s.restart k).vaults
      | .cold => s.cold.vaults
      | _ => s.vaults := by cases e <;> rfl

@[simp] theorem apply_slices (e : Eff) (s : State) : (e.apply s).slices =
    match e with
      | .slice k x => nset s.slices k x
      | .restart k => (s.restart k).slices
      | .cold => s.cold.slices
      | _ => s.slices := by cases e <;> rfl

@[simp] theorem apply_hurt (e : Eff) (s : State) : (e.apply s).hurt =
    match e with
      | .hurt k x => nput s.hurt k x
      | .restart k => (s.restart k).hurt
      | .cold => s.cold.hurt
      | _ => s.hurt := by cases e <;> rfl

@[simp] theorem apply_cons (e : Eff) (s : State) : (e.apply s).cons =
    match e with
      | .cons x => x
      | .restart k => (s.restart k).cons
      | .cold => s.cold.cons
      | _ => s.cons := by cases e <;> rfl

@[simp] theorem apply_ledger (e : Eff) (s : State) : (e.apply s).ledger =
    match e with
      | .log ev => s.ledger.push ev
      | .mark c => { s.ledger with taint := c :: s.ledger.taint, live := c :: s.ledger.live }
      | .restart k => (s.restart k).ledger
      | .cold => s.cold.ledger
      | _ => s.ledger := by cases e <;> rfl

@[simp] theorem apply_stages (e : Eff) (s : State) : (e.apply s).stages =
    match e with
      | .stage k x => nset s.stages k x
      | .restart k => (s.restart k).stages
      | .cold => s.cold.stages
      | _ => s.stages := by cases e <;> rfl

@[simp] theorem apply_orders (e : Eff) (s : State) : (e.apply s).orders =
    match e with
      | .order k x => nput s.orders k x
      | .restart k => (s.restart k).orders
      | .cold => s.cold.orders
      | _ => s.orders := by cases e <;> rfl

@[simp] theorem apply_fab (e : Eff) (s : State) : (e.apply s).fab =
    match e with
      | .fab x => x
      | .restart k => (s.restart k).fab
      | .cold => s.cold.fab
      | _ => s.fab := by cases e <;> rfl

@[simp] theorem apply_ports (e : Eff) (s : State) : (e.apply s).ports =
    match e with
      | .port p x => nset s.ports p x
      | .restart k => (s.restart k).ports
      | .cold => s.cold.ports
      | _ => s.ports := by cases e <;> rfl

@[simp] theorem apply_job (e : Eff) (s : State) : (e.apply s).job =
    match e with
      | .job x => x
      | .restart k => (s.restart k).job
      | .cold => s.cold.job
      | _ => s.job := by cases e <;> rfl

@[simp] theorem apply_mbox (e : Eff) (s : State) : (e.apply s).mbox =
    match e with
      | .mbox x => x
      | .restart k => (s.restart k).mbox
      | .cold => s.cold.mbox
      | _ => s.mbox := by cases e <;> rfl

@[simp] theorem apply_sqs (e : Eff) (s : State) : (e.apply s).sqs =
    match e with
      | .sq q x => nset s.sqs q x
      | .restart k => (s.restart k).sqs
      | .cold => s.cold.sqs
      | _ => s.sqs := by cases e <;> rfl

@[simp] theorem apply_sec (e : Eff) (s : State) : (e.apply s).sec =
    match e with
      | .sec x => x
      | .restart k => (s.restart k).sec
      | .cold => s.cold.sec
      | _ => s.sec := by cases e <;> rfl

@[simp] theorem apply_pow (e : Eff) (s : State) : (e.apply s).pow =
    match e with
      | .pow x => x
      | .restart k => (s.restart k).pow
      | .cold => s.cold.pow
      | _ => s.pow := by cases e <;> rfl

@[simp] theorem apply_clk (e : Eff) (s : State) : (e.apply s).clk =
    match e with
      | .clk x => x
      | .restart k => (s.restart k).clk
      | .cold => s.cold.clk
      | _ => s.clk := by cases e <;> rfl

@[simp] theorem apply_sent (e : Eff) (s : State) : (e.apply s).sent =
    match e with
      | .send m => s.sent ++ [m]
      | _ => s.sent := by cases e <;> rfl

@[simp] theorem apply_free (e : Eff) (s : State) : (e.apply s).free =
    match e with
      | .draw => s.free + 1
      | _ => s.free := by cases e <;> rfl

end Sys2Proof.Machine
end

