-- ==== Sys2Proof/Laws/Run.lean ====
section
/-! SUPPORT. Running programs: how the ways of building a program compose, and the two ways to reason about a whole program — what
every effect keeps, and which kinds of effects a program makes. -/

namespace Sys2Proof.Machine

/-! Composition. -/

@[simp] theorem applyAll_nil (s : State) : applyAll [] s = s := rfl

@[simp] theorem applyAll_cons (e : Eff) (l : List Eff) (s : State) : applyAll (e :: l) s = applyAll l (e.apply s) := rfl

@[simp] theorem applyAll_append (l m : List Eff) (s : State) : applyAll (l ++ m) s = applyAll m (applyAll l s) := by
  simp [applyAll, List.foldl_append]

@[simp] theorem run_skip (s : State) : run skip s = s := rfl

theorem run_emit (l : List Eff) (s : State) : run (emit l) s = applyAll l s := rfl

@[simp] theorem run_emit_one (e : Eff) (s : State) : run (emit [e]) s = e.apply s := rfl

@[simp] theorem run_seq (p q : Prog) (s : State) : run (seq p q) s = run q (run p s) := by
  simp only [run, seq, applyAll_append]

@[simp] theorem run_seqs_nil (s : State) : run (seqs []) s = s := rfl

@[simp] theorem run_seqs_cons (p : Prog) (l : List Prog) (s : State) : run (seqs (p :: l)) s = run (seqs l) (run p s) := by
  simp only [seqs, run_seq]

@[simp] theorem run_withS (k : State → Prog) (s : State) : run (withS k) s = run (k s) s := rfl

@[simp] theorem run_onlyIf_true (p : Prog) (s : State) : run (onlyIf true p) s = run p s := rfl

@[simp] theorem run_onlyIf_false (p : Prog) (s : State) : run (onlyIf false p) s = s := rfl

theorem run_onlyIf (c : Bool) (p : Prog) (s : State) : run (onlyIf c p) s = if c then run p s else s := by cases c <;> rfl

@[simp] theorem run_given_none {α : Type} (f : α → Prog) (s : State) : run (given none f) s = s := rfl

@[simp] theorem run_given_some {α : Type} (x : α) (f : α → Prog) (s : State) : run (given (some x) f) s = run (f x) s := rfl

@[simp] theorem run_forEach_nil {α : Type} (f : α → Prog) (s : State) : run (forEach [] f) s = s := rfl

@[simp] theorem run_forEach_cons {α : Type} (x : α) (l : List α) (f : α → Prog) (s : State) :
    run (forEach (x :: l) f) s = run (forEach l f) (run (f x) s) := by
  simp only [forEach, List.map_cons, run_seqs_cons]

@[simp] theorem run_drawFree (k : Nat → Prog) (s : State) : run (drawFree k) s = run (k s.free) (Eff.draw.apply s) := rfl

/-! What every effect keeps, every program keeps. -/

theorem applyAll_keeps {P : State → Prop} (h : ∀ (e : Eff) s, P s → P (e.apply s)) (l : List Eff) (s : State) (hs : P s) : P (applyAll l s) := by
  induction l generalizing s with
  | nil => exact hs
  | cons e l ih => exact ih _ (h e s hs)

theorem run_keeps {P : State → Prop} (h : ∀ (e : Eff) s, P s → P (e.apply s)) (p : Prog) (s : State) (hs : P s) : P (run p s) :=
  applyAll_keeps h _ s hs

/-- A relation that every effect respects, and that composes, holds between a state and what a program leaves. -/
theorem run_rel {R : State → State → Prop} (refl : ∀ s, R s s) (trans : ∀ a b c, R a b → R b c → R a c)
    (h : ∀ (e : Eff) s, R s (e.apply s)) (p : Prog) (s : State) : R s (run p s) := by
  have go : ∀ (l : List Eff) (s : State), R s (applyAll l s) := by
    intro l
    induction l with
    | nil => exact refl
    | cons e l ih => exact fun s => trans _ _ _ (h e s) (ih _)
  exact go _ s

/-! Footprints: which kinds of effects a program makes. -/

/-- Every effect of a program is of one of these kinds. -/
def Within (ks : List Kind) (p : Prog) : Prop := ∀ s, ∀ e ∈ p s, e.kind ∈ ks

theorem Within.mono {ks ls : List Kind} {p : Prog} (h : Within ks p) (hs : ks ⊆ ls) : Within ls p := fun s e he => hs (h s e he)

theorem within_skip (ks : List Kind) : Within ks skip := by intro s e he; cases he

theorem within_emit {ks : List Kind} {l : List Eff} (h : ∀ e ∈ l, e.kind ∈ ks) : Within ks (emit l) := fun _ e he => h e he

theorem within_emit_nil (ks : List Kind) : Within ks (emit []) := by intro s e he; cases he

theorem within_emit_cons {ks : List Kind} {e : Eff} {l : List Eff} (h : e.kind ∈ ks) (hl : Within ks (emit l)) :
    Within ks (emit (e :: l)) := by
  intro s x hx
  rcases List.mem_cons.mp hx with rfl | h'
  · exact h
  · exact hl s x h'

theorem within_emit_append {ks : List Kind} {l m : List Eff} (hl : Within ks (emit l)) (hm : Within ks (emit m)) :
    Within ks (emit (l ++ m)) := by
  intro s x hx
  rcases List.mem_append.mp hx with h | h
  · exact hl s x h
  · exact hm s x h

theorem within_emit_map {ks : List Kind} {α : Type} {l : List α} {f : α → Eff} (h : ∀ x, (f x).kind ∈ ks) :
    Within ks (emit (l.map f)) := by
  intro s x hx
  obtain ⟨y, _, rfl⟩ := List.mem_map.mp hx
  exact h y

/-- A kind listed among some that are all listed. -/
theorem kind_mem {ls ks : List Kind} {k : Kind} (h : ls ⊆ ks) (hk : k ∈ ls) : k ∈ ks := h hk

theorem within_seq {ks : List Kind} {p q : Prog} (hp : Within ks p) (hq : Within ks q) : Within ks (seq p q) := by
  intro s e he
  rcases List.mem_append.mp he with h | h
  · exact hp s e h
  · exact hq _ e h

theorem within_seqs_nil (ks : List Kind) : Within ks (seqs []) := within_skip ks

theorem within_seqs_cons {ks : List Kind} {p : Prog} {l : List Prog} (hp : Within ks p) (hl : Within ks (seqs l)) :
    Within ks (seqs (p :: l)) := within_seq hp hl

theorem within_seqs {ks : List Kind} {l : List Prog} (h : ∀ p ∈ l, Within ks p) : Within ks (seqs l) := by
  induction l with
  | nil => exact within_skip ks
  | cons p l ih =>
    exact within_seq (h p (List.mem_cons_self ..)) (ih fun q hq => h q (List.mem_cons_of_mem _ hq))

theorem within_withS {ks : List Kind} {k : State → Prog} (h : ∀ s, Within ks (k s)) : Within ks (withS k) := fun s e he => h s s e he

theorem within_onlyIf {ks : List Kind} {c : Bool} {p : Prog} (h : c = true → Within ks p) : Within ks (onlyIf c p) := by
  cases c
  · exact within_skip ks
  · exact h rfl

theorem within_ite {ks : List Kind} {c : Prop} [Decidable c] {p q : Prog} (hp : Within ks p) (hq : Within ks q) :
    Within ks (if c then p else q) := by split <;> assumption

theorem within_forEach {ks : List Kind} {α : Type} {l : List α} {f : α → Prog} (h : ∀ x ∈ l, Within ks (f x)) :
    Within ks (forEach l f) := by
  refine within_seqs fun p hp => ?_
  obtain ⟨x, hx, rfl⟩ := List.mem_map.mp hp
  exact h x hx

theorem within_given {ks : List Kind} {α : Type} {o : Option α} {f : α → Prog} (h : ∀ x, Within ks (f x)) : Within ks (given o f) := by
  cases o
  · exact within_skip ks
  · exact h _

theorem within_drawFree {ks : List Kind} {k : Nat → Prog} (hd : Kind.draw ∈ ks) (h : ∀ n, Within ks (k n)) :
    Within ks (drawFree k) := by
  intro s e he
  rcases List.mem_cons.mp he with rfl | h'
  · exact hd
  · exact h _ _ e h'

/-- A part of the state that no effect of the listed kinds changes is the same after the program. -/
theorem run_same {α : Type} (f : State → α) {ks : List Kind} (h : ∀ (e : Eff) s, e.kind ∈ ks → f (e.apply s) = f s) {p : Prog}
    (hp : Within ks p) (s : State) : f (run p s) = f s := by
  have go : ∀ (l : List Eff) (s : State), (∀ e ∈ l, e.kind ∈ ks) → f (applyAll l s) = f s := by
    intro l
    induction l with
    | nil => intro s _; rfl
    | cons e l ih =>
      intro s hl
      rw [applyAll_cons, ih _ fun x hx => hl x (List.mem_cons_of_mem _ hx)]
      exact h e s (hl e (List.mem_cons_self ..))
  exact go _ s (hp s)

/-- An effect changes only the part of its kind, unless the package powers up. -/
theorem apply_samePart (e : Eff) (s : State) (k : Kind) (hr : e.kind ≠ .restart) (h : e.kind ≠ k) : SamePart s (e.apply s) k := by
  cases e <;> first | exact absurd rfl hr | (cases k <;> first | rfl | exact absurd rfl h)

/-- A program whose effects are of the listed kinds, no power-up among them, changes only those parts. -/
theorem changesOnly_of_within {ks : List Kind} {p : Prog} (hp : Within ks p) (hr : Kind.restart ∉ ks) (s : State) :
    ChangesOnly ks s (run p s) := by
  intro k hk
  have go : ∀ (l : List Eff) (s : State), (∀ e ∈ l, e.kind ∈ ks) → SamePart s (applyAll l s) k := by
    intro l
    induction l with
    | nil => intro s _; cases k <;> rfl
    | cons e l ih =>
      intro s hl
      have he := hl e (List.mem_cons_self ..)
      have h1 : SamePart s (e.apply s) k := apply_samePart e s k (fun h => hr (h ▸ he)) (fun h => hk (h ▸ he))
      have h2 := ih (e.apply s) fun x hx => hl x (List.mem_cons_of_mem _ hx)
      rw [applyAll_cons]
      cases k <;> exact h2.trans h1
  exact go _ s (hp s)

end Sys2Proof.Machine
end

