-- ==== Sys2Proof/Laws/FpOps.lean ====
section
/-! SUPPORT. Footprints of the operations of Machine/Ops.lean: the parts of the state each can change. -/

namespace Sys2Proof.Machine

theorem within_setF {ks : List Kind} (hs : [.reg] ⊆ ks) (f : Fld) (v : Nat) :
    Within ks (setF f v) := by
  intro s e he
  unfold setF at he
  split at he
  · simp only [List.mem_cons, List.not_mem_nil, or_false] at he
    rcases he with rfl | rfl <;> exact kind_mem hs (by dsimp only [Eff.kind]; decide)
  · simp only [List.mem_cons, List.not_mem_nil, or_false] at he
    subst he; exact kind_mem hs (by dsimp only [Eff.kind]; decide)

theorem within_setBitF {ks : List Kind} (hs : [.reg] ⊆ ks) (f : Fld) (i : Nat) (v : Bool) :
    Within ks (setBitF f i v) := by
  unfold setBitF
  repeat' (first
    | with_reducible exact within_skip ks
    | with_reducible exact within_seqs_nil ks
    | with_reducible refine within_setF (List.Subset.trans (by decide) hs) _ _
    | with_reducible refine within_seqs_cons ?_ ?_
    | with_reducible refine within_seq ?_ ?_
    | with_reducible refine within_withS fun _ => ?_
    | split
    | dsimp only)

theorem within_incF {ks : List Kind} (hs : [.reg, .draw] ⊆ ks) (f : Fld) (k : Nat) :
    Within ks (incF f k) := by
  intro s e he
  unfold incF at he
  dsimp only at he
  split at he
  · cases he
  · split at he
    · exact within_setF (List.Subset.trans (by decide) hs) _ _ s e he
    · rcases List.mem_append.mp he with h | h
      · exact within_setF (List.Subset.trans (by decide) hs) _ _ s e h
      · simp only [List.mem_cons, List.not_mem_nil, or_false] at h
        subst h; exact kind_mem hs (by dsimp only [Eff.kind]; decide)

theorem within_timed {ks : List Kind} (hs : [.reg, .draw] ⊆ ks) (f : Fld) :
    Within ks (timed f) := by
  unfold timed
  repeat' (first
    | with_reducible exact within_skip ks
    | with_reducible exact within_seqs_nil ks
    | with_reducible refine within_setF (List.Subset.trans (by decide) hs) _ _
    | with_reducible refine within_seqs_cons ?_ ?_
    | with_reducible refine within_seq ?_ ?_
    | with_reducible refine within_withS fun _ => ?_
    | with_reducible refine within_drawFree (kind_mem hs (by decide)) fun _ => ?_
    | split
    | dsimp only)

theorem within_setF48 {ks : List Kind} (hs : [.reg] ⊆ ks) (lo hi : Fld) (v : Nat) :
    Within ks (setF48 lo hi v) := by
  unfold setF48
  repeat' (first
    | with_reducible exact within_skip ks
    | with_reducible exact within_seqs_nil ks
    | with_reducible refine within_setF (List.Subset.trans (by decide) hs) _ _
    | with_reducible refine within_seqs_cons ?_ ?_
    | with_reducible refine within_seq ?_ ?_
    | with_reducible refine within_withS fun _ => ?_
    | split
    | dsimp only)

theorem within_sendIrq {ks : List Kind} (hs : [.reg, .send] ⊆ ks) (v : Nat) :
    Within ks (sendIrq v) := by
  intro s e he
  unfold sendIrq at he
  split at he
  · simp only [List.mem_cons, List.not_mem_nil, or_false] at he
    subst he; exact kind_mem hs (by dsimp only [Eff.kind]; decide)
  · exact within_setF (List.Subset.trans (by decide) hs) _ _ s e he

theorem within_logEv {ks : List Kind} (hs : [.reg, .log] ⊆ ks) (src : Src) (acc : Nat) (st : Status) (tag : Nat) (injected : Bool) (body : EvBody) :
    Within ks (logEv src acc st tag injected body) := by
  unfold logEv
  refine within_seqs_cons ?_ (within_seqs_cons ?_ (within_seqs_cons ?_ (within_seqs_nil ks)))
  · intro s e he
    simp only [List.mem_cons, List.not_mem_nil, or_false] at he
    subst he; exact kind_mem hs (by dsimp only [Eff.kind]; decide)
  · exact fun s e he => within_setF (List.Subset.trans (by decide) hs) _ _ s e he
  · exact fun s e he => within_setF (List.Subset.trans (by decide) hs) _ _ s e he

theorem within_markTaint {ks : List Kind} (hs : [.reg, .log, .draw] ⊆ ks) (c : Src × Nat) (stageAcc : Nat) :
    Within ks (markTaint c stageAcc) := by
  unfold markTaint
  repeat' (first
    | with_reducible exact within_skip ks
    | with_reducible exact within_seqs_nil ks
    | with_reducible refine within_incF (List.Subset.trans (by decide) hs) _ _
    | with_reducible refine within_logEv (List.Subset.trans (by decide) hs) _ _ _ _ _ _
    | with_reducible refine within_seqs_cons ?_ ?_
    | with_reducible refine within_seq ?_ ?_
    | with_reducible refine within_withS fun _ => ?_
    | with_reducible refine within_emit_cons ?_ ?_
    | with_reducible exact within_emit_nil ks
    | with_reducible refine within_emit_append ?_ ?_
    | with_reducible refine within_emit_map fun _ => ?_
    | exact kind_mem hs (by dsimp only [Eff.kind]; decide)
    | split
    | dsimp only)

theorem within_spreadTaint {ks : List Kind} (hs : [.reg, .log, .draw] ⊆ ks) (stageAcc : Nat) :
    Within ks (spreadTaint stageAcc) := by
  unfold spreadTaint
  repeat' (first
    | with_reducible exact within_skip ks
    | with_reducible exact within_seqs_nil ks
    | with_reducible refine within_markTaint (List.Subset.trans (by decide) hs) _ _
    | with_reducible refine within_seqs_cons ?_ ?_
    | with_reducible refine within_seq ?_ ?_
    | with_reducible refine within_withS fun _ => ?_
    | with_reducible refine within_onlyIf fun _ => ?_
    | with_reducible refine within_forEach fun _ _ => ?_
    | split
    | dsimp only)

theorem within_logStart {ks : List Kind} (hs : [.reg, .log, .draw] ⊆ ks) (src : Src) (acc tag : Nat) (g : Signaller) :
    Within ks (logStart src acc tag g) := by
  unfold logStart
  repeat' (first
    | with_reducible exact within_skip ks
    | with_reducible exact within_seqs_nil ks
    | with_reducible refine within_logEv (List.Subset.trans (by decide) hs) _ _ _ _ _ _
    | with_reducible refine within_markTaint (List.Subset.trans (by decide) hs) _ _
    | with_reducible refine within_seqs_cons ?_ ?_
    | with_reducible refine within_seq ?_ ?_
    | with_reducible refine within_withS fun _ => ?_
    | with_reducible refine within_onlyIf fun _ => ?_
    | split
    | dsimp only)

end Sys2Proof.Machine
end

