-- ==== Sys2Proof/Laws/FpOperands.lean ====
section
/-! SUPPORT. Footprints of the operations of Machine/Operands.lean: the parts of the state each can change. -/

namespace Sys2Proof.Machine

theorem within_countHbm {ks : List Kind} (hs : [.reg, .draw] ⊆ ks) (write : Bool) (who : Requester) (line n : Nat) :
    Within ks (countHbm write who line n) := by
  unfold countHbm
  repeat' (first
    | with_reducible exact within_skip ks
    | with_reducible exact within_seqs_nil ks
    | with_reducible refine within_incF (List.Subset.trans (by decide) hs) _ _
    | with_reducible refine within_seqs_cons ?_ ?_
    | with_reducible refine within_seq ?_ ?_
    | with_reducible refine within_withS fun _ => ?_
    | with_reducible refine within_onlyIf fun _ => ?_
    | split
    | dsimp only)

theorem within_dropLine {ks : List Kind} (hs : [.reg, .line, .send, .draw] ⊆ ks) (who : Requester) (e : Nat × CLine) :
    Within ks (dropLine who e) := by
  unfold dropLine
  repeat' (first
    | with_reducible exact within_skip ks
    | with_reducible exact within_seqs_nil ks
    | with_reducible refine within_countHbm (List.Subset.trans (by decide) hs) _ _ _ _
    | with_reducible refine within_seqs_cons ?_ ?_
    | with_reducible refine within_seq ?_ ?_
    | with_reducible refine within_withS fun _ => ?_
    | with_reducible refine within_onlyIf fun _ => ?_
    | with_reducible refine within_emit_cons ?_ ?_
    | with_reducible exact within_emit_nil ks
    | with_reducible refine within_emit_append ?_ ?_
    | with_reducible refine within_emit_map fun _ => ?_
    | exact kind_mem hs (by dsimp only [Eff.kind, cohNotice]; decide)
    | split
    | dsimp only)

theorem within_takeWay {ks : List Kind} (hs : [.reg, .line, .send, .draw] ⊆ ks) (die line : Nat) (who : Requester) (k : Nat → Prog) (h_k : ∀ x0, Within ks (k x0)) :
    Within ks (takeWay die line who k) := by
  unfold takeWay
  repeat' (first
    | exact h_k _
    | with_reducible exact within_skip ks
    | with_reducible exact within_seqs_nil ks
    | with_reducible refine within_dropLine (List.Subset.trans (by decide) hs) _ _
    | with_reducible refine within_seqs_cons ?_ ?_
    | with_reducible refine within_seq ?_ ?_
    | with_reducible refine within_withS fun _ => ?_
    | with_reducible refine within_onlyIf fun _ => ?_
    | with_reducible refine within_forEach fun _ _ => ?_
    | with_reducible refine within_emit_cons ?_ ?_
    | with_reducible exact within_emit_nil ks
    | with_reducible refine within_emit_append ?_ ?_
    | with_reducible refine within_emit_map fun _ => ?_
    | exact kind_mem hs (by dsimp only [Eff.kind]; decide)
    | split
    | dsimp only)

theorem within_touchLine {ks : List Kind} (hs : [.reg, .line, .send, .draw] ⊆ ks) (write whole : Bool) (who : Requester) (line : Nat) :
    Within ks (touchLine write whole who line) := by
  unfold touchLine
  repeat' (first
    | with_reducible exact within_skip ks
    | with_reducible exact within_seqs_nil ks
    | with_reducible refine within_countHbm (List.Subset.trans (by decide) hs) _ _ _ _
    | with_reducible refine within_incF (List.Subset.trans (by decide) hs) _ _
    | with_reducible refine within_takeWay (List.Subset.trans (by decide) hs) _ _ _ _ (fun _ => ?_)
    | with_reducible refine within_seqs_cons ?_ ?_
    | with_reducible refine within_seq ?_ ?_
    | with_reducible refine within_withS fun _ => ?_
    | with_reducible refine within_onlyIf fun _ => ?_
    | with_reducible refine within_emit_cons ?_ ?_
    | with_reducible exact within_emit_nil ks
    | with_reducible refine within_emit_append ?_ ?_
    | with_reducible refine within_emit_map fun _ => ?_
    | exact kind_mem hs (by dsimp only [Eff.kind]; decide)
    | split
    | dsimp only)

theorem within_ungate {ks : List Kind} (hs : [.core] ⊆ ks) (n : Nat) :
    Within ks (ungate n) := by
  unfold ungate
  repeat' (first
    | with_reducible exact within_skip ks
    | with_reducible exact within_seqs_nil ks
    | with_reducible refine within_seqs_cons ?_ ?_
    | with_reducible refine within_seq ?_ ?_
    | with_reducible refine within_withS fun _ => ?_
    | with_reducible refine within_onlyIf fun _ => ?_
    | with_reducible refine within_emit_cons ?_ ?_
    | with_reducible exact within_emit_nil ks
    | with_reducible refine within_emit_append ?_ ?_
    | with_reducible refine within_emit_map fun _ => ?_
    | exact kind_mem hs (by dsimp only [Eff.kind]; decide)
    | split
    | dsimp only)

theorem within_meshAccess {ks : List Kind} (hs : [.reg, .core, .draw] ⊆ ks) (who : Requester) (a : Nat) :
    Within ks (meshAccess who a) := by
  unfold meshAccess
  repeat' (first
    | with_reducible exact within_skip ks
    | with_reducible exact within_seqs_nil ks
    | with_reducible refine within_timed (List.Subset.trans (by decide) hs) _
    | with_reducible refine within_ungate (List.Subset.trans (by decide) hs) _
    | with_reducible refine within_seqs_cons ?_ ?_
    | with_reducible refine within_seq ?_ ?_
    | with_reducible refine within_withS fun _ => ?_
    | with_reducible refine within_onlyIf fun _ => ?_
    | split
    | dsimp only)

theorem within_touch {ks : List Kind} (hs : [.reg, .core, .line, .send, .draw] ⊆ ks) (write : Bool) (who : Requester) (a len : Nat) :
    Within ks (touch write who a len) := by
  unfold touch
  repeat' (first
    | with_reducible exact within_skip ks
    | with_reducible exact within_seqs_nil ks
    | with_reducible refine within_meshAccess (List.Subset.trans (by decide) hs) _ _
    | with_reducible refine within_touchLine (List.Subset.trans (by decide) hs) _ _ _ _
    | with_reducible refine within_seqs_cons ?_ ?_
    | with_reducible refine within_seq ?_ ?_
    | with_reducible refine within_withS fun _ => ?_
    | with_reducible refine within_forEach fun _ _ => ?_
    | split
    | dsimp only)

theorem within_clearHurt {ks : List Kind} (hs : [.hurt] ⊆ ks) (a len : Nat) :
    Within ks (clearHurt a len) := by
  unfold clearHurt
  repeat' (first
    | with_reducible exact within_skip ks
    | with_reducible exact within_seqs_nil ks
    | with_reducible refine within_seqs_cons ?_ ?_
    | with_reducible refine within_seq ?_ ?_
    | with_reducible refine within_withS fun _ => ?_
    | with_reducible refine within_forEach fun _ _ => ?_
    | with_reducible refine within_emit_cons ?_ ?_
    | with_reducible exact within_emit_nil ks
    | with_reducible refine within_emit_append ?_ ?_
    | with_reducible refine within_emit_map fun _ => ?_
    | exact kind_mem hs (by dsimp only [Eff.kind]; decide)
    | split
    | dsimp only)

theorem within_logDetect {ks : List Kind} (hs : [.reg, .log] ⊆ ks) (injected : Bool) (code die unit item count : Nat) (st : Status) :
    Within ks (logDetect injected code die unit item count st) := by
  unfold logDetect
  repeat' (first
    | with_reducible exact within_skip ks
    | with_reducible exact within_seqs_nil ks
    | with_reducible refine within_logEv (List.Subset.trans (by decide) hs) _ _ _ _ _ _
    | with_reducible refine within_seqs_cons ?_ ?_
    | with_reducible refine within_seq ?_ ?_
    | with_reducible refine within_withS fun _ => ?_
    | split
    | dsimp only)

theorem within_useArmed {ks : List Kind} (hs : [.reg, .cons, .draw] ⊆ ks) (target unit die : Nat) (matchUnit matchDie : Bool) (k : Nat → Prog) (h_k : ∀ x0, Within ks (k x0)) :
    Within ks (useArmed target unit die matchUnit matchDie k) := by
  unfold useArmed
  repeat' (first
    | exact h_k _
    | with_reducible exact within_skip ks
    | with_reducible exact within_seqs_nil ks
    | with_reducible refine within_incF (List.Subset.trans (by decide) hs) _ _
    | with_reducible refine within_seqs_cons ?_ ?_
    | with_reducible refine within_seq ?_ ?_
    | with_reducible refine within_withS fun _ => ?_
    | with_reducible refine within_emit_cons ?_ ?_
    | with_reducible exact within_emit_nil ks
    | with_reducible refine within_emit_append ?_ ?_
    | with_reducible refine within_emit_map fun _ => ?_
    | exact kind_mem hs (by dsimp only [Eff.kind]; decide)
    | split
    | dsimp only)

theorem within_uncorrectable {ks : List Kind} (hs : [.reg, .pow, .draw] ⊆ ks)  :
    Within ks (uncorrectable ) := by
  unfold uncorrectable
  repeat' (first
    | with_reducible exact within_skip ks
    | with_reducible exact within_seqs_nil ks
    | with_reducible refine within_incF (List.Subset.trans (by decide) hs) _ _
    | with_reducible refine within_seqs_cons ?_ ?_
    | with_reducible refine within_seq ?_ ?_
    | with_reducible refine within_withS fun _ => ?_
    | with_reducible refine within_emit_cons ?_ ?_
    | with_reducible exact within_emit_nil ks
    | with_reducible refine within_emit_append ?_ ?_
    | with_reducible refine within_emit_map fun _ => ?_
    | exact kind_mem hs (by dsimp only [Eff.kind]; decide)
    | split
    | dsimp only)

theorem within_injectAt {ks : List Kind} (hs : [.reg, .hurt, .pow, .log, .draw] ⊆ ks) (code die unit key kind : Nat) :
    Within ks (injectAt code die unit key kind) := by
  unfold injectAt
  repeat' (first
    | with_reducible exact within_skip ks
    | with_reducible exact within_seqs_nil ks
    | with_reducible refine within_incF (List.Subset.trans (by decide) hs) _ _
    | with_reducible refine within_logDetect (List.Subset.trans (by decide) hs) _ _ _ _ _ _ _
    | with_reducible refine within_uncorrectable (List.Subset.trans (by decide) hs)
    | with_reducible refine within_seqs_cons ?_ ?_
    | with_reducible refine within_seq ?_ ?_
    | with_reducible refine within_withS fun _ => ?_
    | with_reducible refine within_emit_cons ?_ ?_
    | with_reducible exact within_emit_nil ks
    | with_reducible refine within_emit_append ?_ ?_
    | with_reducible refine within_emit_map fun _ => ?_
    | exact kind_mem hs (by dsimp only [Eff.kind]; decide)
    | split
    | dsimp only)

theorem within_injectWrite {ks : List Kind} (hs : [.reg, .hurt, .cons, .pow, .log, .draw] ⊆ ks) (a len : Nat) :
    Within ks (injectWrite a len) := by
  unfold injectWrite
  repeat' (first
    | with_reducible exact within_skip ks
    | with_reducible exact within_seqs_nil ks
    | with_reducible refine within_injectAt (List.Subset.trans (by decide) hs) _ _ _ _ _
    | with_reducible refine within_useArmed (List.Subset.trans (by decide) hs) _ _ _ _ _ _ (fun _ => ?_)
    | with_reducible refine within_seqs_cons ?_ ?_
    | with_reducible refine within_seq ?_ ?_
    | with_reducible refine within_withS fun _ => ?_
    | with_reducible refine within_forEach fun _ _ => ?_
    | split
    | dsimp only)

theorem within_raiseEvent {ks : List Kind} (hs : [.reg, .send] ⊆ ks) (i : Nat) :
    Within ks (raiseEvent i) := by
  unfold raiseEvent
  repeat' (first
    | with_reducible exact within_skip ks
    | with_reducible exact within_seqs_nil ks
    | with_reducible refine within_sendIrq (List.Subset.trans (by decide) hs) _
    | with_reducible refine within_setF (List.Subset.trans (by decide) hs) _ _
    | with_reducible refine within_seqs_cons ?_ ?_
    | with_reducible refine within_seq ?_ ?_
    | with_reducible refine within_withS fun _ => ?_
    | with_reducible refine within_onlyIf fun _ => ?_
    | split
    | dsimp only)

theorem within_recordRepair {ks : List Kind} (hs : [.reg, .cons, .log, .send, .draw] ⊆ ks) (r : RepairRec) :
    Within ks (recordRepair r) := by
  unfold recordRepair
  repeat' (first
    | with_reducible exact within_skip ks
    | with_reducible exact within_seqs_nil ks
    | with_reducible refine within_incF (List.Subset.trans (by decide) hs) _ _
    | with_reducible refine within_logEv (List.Subset.trans (by decide) hs) _ _ _ _ _ _
    | with_reducible refine within_raiseEvent (List.Subset.trans (by decide) hs) _
    | with_reducible refine within_seqs_cons ?_ ?_
    | with_reducible refine within_seq ?_ ?_
    | with_reducible refine within_withS fun _ => ?_
    | with_reducible refine within_emit_cons ?_ ?_
    | with_reducible exact within_emit_nil ks
    | with_reducible refine within_emit_append ?_ ?_
    | with_reducible refine within_emit_map fun _ => ?_
    | exact kind_mem hs (by dsimp only [Eff.kind]; decide)
    | split
    | dsimp only)

theorem within_pendCore {ks : List Kind} (hs : [.reg] ⊆ ks) (n : Nat) :
    Within ks (pendCore n) := by
  unfold pendCore
  repeat' (first
    | with_reducible exact within_skip ks
    | with_reducible exact within_seqs_nil ks
    | with_reducible refine within_setF (List.Subset.trans (by decide) hs) _ _
    | with_reducible refine within_seqs_cons ?_ ?_
    | with_reducible refine within_seq ?_ ?_
    | with_reducible refine within_withS fun _ => ?_
    | split
    | dsimp only)

theorem within_writeBytes {ks : List Kind} (hs : [.reg, .mem, .core, .line, .hurt, .cons, .pow, .log, .send, .draw] ⊆ ks) (who : Requester) (a : Nat) (bs : List Byte) :
    Within ks (writeBytes who a bs) := by
  unfold writeBytes
  repeat' (first
    | with_reducible exact within_skip ks
    | with_reducible exact within_seqs_nil ks
    | with_reducible refine within_clearHurt (List.Subset.trans (by decide) hs) _ _
    | with_reducible refine within_injectWrite (List.Subset.trans (by decide) hs) _ _
    | with_reducible refine within_touch (List.Subset.trans (by decide) hs) _ _ _ _
    | with_reducible refine within_seqs_cons ?_ ?_
    | with_reducible refine within_seq ?_ ?_
    | with_reducible refine within_withS fun _ => ?_
    | with_reducible refine within_emit_cons ?_ ?_
    | with_reducible exact within_emit_nil ks
    | with_reducible refine within_emit_append ?_ ?_
    | with_reducible refine within_emit_map fun _ => ?_
    | exact kind_mem hs (by dsimp only [Eff.kind]; decide)
    | split
    | dsimp only)

theorem within_hostWrite {ks : List Kind} (hs : [.host] ⊆ ks) (a : Nat) (bs : List Byte) :
    Within ks (hostWrite a bs) := by
  unfold hostWrite
  repeat' (first
    | with_reducible exact within_skip ks
    | with_reducible exact within_seqs_nil ks
    | with_reducible refine within_seqs_cons ?_ ?_
    | with_reducible refine within_seq ?_ ?_
    | with_reducible refine within_withS fun _ => ?_
    | with_reducible refine within_emit_cons ?_ ?_
    | with_reducible exact within_emit_nil ks
    | with_reducible refine within_emit_append ?_ ?_
    | with_reducible refine within_emit_map fun _ => ?_
    | exact kind_mem hs (by dsimp only [Eff.kind]; decide)
    | split
    | dsimp only)

end Sys2Proof.Machine
end

