-- ==== Sys2Proof/Laws/FpStreams.lean ====
section
/-! SUPPORT. Footprints of the operations of Machine/Streams.lean: the parts of the state each can change. -/

namespace Sys2Proof.Machine

theorem within_syncCore {ks : List Kind} (hs : [.reg] ⊆ ks) (n : Nat) :
    Within ks (syncCore n) := by
  unfold syncCore
  repeat' (first
    | with_reducible exact within_skip ks
    | with_reducible exact within_seqs_nil ks
    | with_reducible refine within_setF (List.Subset.trans (by decide) hs) _ _
    | with_reducible refine within_seqs_cons ?_ ?_
    | with_reducible refine within_seq ?_ ?_
    | with_reducible refine within_withS fun _ => ?_
    | split
    | dsimp only)

theorem within_syncStrm {ks : List Kind} (hs : [.reg] ⊆ ks) (sid : Nat) :
    Within ks (syncStrm sid) := by
  unfold syncStrm
  repeat' (first
    | with_reducible exact within_skip ks
    | with_reducible exact within_seqs_nil ks
    | with_reducible refine within_setF (List.Subset.trans (by decide) hs) _ _
    | with_reducible refine within_syncCore (List.Subset.trans (by decide) hs) _
    | with_reducible refine within_seqs_cons ?_ ?_
    | with_reducible refine within_seq ?_ ?_
    | with_reducible refine within_withS fun _ => ?_
    | with_reducible refine within_given fun _ => ?_
    | split
    | dsimp only)

theorem within_setStrm {ks : List Kind} (hs : [.strm] ⊆ ks) (sid : Nat) (x : Strm) :
    Within ks (setStrm sid x) := by
  unfold setStrm
  repeat' (first
    | with_reducible exact within_skip ks
    | with_reducible exact within_seqs_nil ks
    | with_reducible refine within_seqs_cons ?_ ?_
    | with_reducible refine within_seq ?_ ?_
    | with_reducible refine within_withS fun _ => ?_
    | with_reducible refine within_emit_cons ?_ ?_
    | with_reducible exact within_emit_nil ks
    | with_reducible refine within_emit_append ?_ ?_
    | with_reducible refine within_emit_map fun _ => ?_
    | exact kind_mem hs (by dsimp only [Eff.kind]; decide)
    | split
    | dsimp only)

theorem within_ungateSid {ks : List Kind} (hs : [.core] ⊆ ks) (sid : Nat) :
    Within ks (ungateSid sid) := by
  unfold ungateSid
  repeat' (first
    | with_reducible exact within_skip ks
    | with_reducible exact within_seqs_nil ks
    | with_reducible refine within_ungate (List.Subset.trans (by decide) hs) _
    | with_reducible refine within_seqs_cons ?_ ?_
    | with_reducible refine within_seq ?_ ?_
    | with_reducible refine within_withS fun _ => ?_
    | with_reducible refine within_given fun _ => ?_
    | split
    | dsimp only)

theorem within_wakeWatchers {ks : List Kind} (hs : [.strm, .core] ⊆ ks) (p : Block64 → Bool) :
    Within ks (wakeWatchers p) := by
  unfold wakeWatchers
  repeat' (first
    | with_reducible exact within_skip ks
    | with_reducible exact within_seqs_nil ks
    | with_reducible refine within_setStrm (List.Subset.trans (by decide) hs) _ _
    | with_reducible refine within_ungateSid (List.Subset.trans (by decide) hs) _
    | with_reducible refine within_seqs_cons ?_ ?_
    | with_reducible refine within_seq ?_ ?_
    | with_reducible refine within_withS fun _ => ?_
    | with_reducible refine within_forEach fun _ _ => ?_
    | split
    | dsimp only)

theorem within_flagOp {ks : List Kind} (hs : [.flag, .strm, .core] ⊆ ks) (core f op v : Nat) (by_ : Signaller) :
    Within ks (flagOp core f op v by_) := by
  unfold flagOp
  repeat' (first
    | with_reducible exact within_skip ks
    | with_reducible exact within_seqs_nil ks
    | with_reducible refine within_wakeWatchers (List.Subset.trans (by decide) hs) _
    | with_reducible refine within_seqs_cons ?_ ?_
    | with_reducible refine within_seq ?_ ?_
    | with_reducible refine within_withS fun _ => ?_
    | with_reducible refine within_emit_cons ?_ ?_
    | with_reducible exact within_emit_nil ks
    | with_reducible refine within_emit_append ?_ ?_
    | with_reducible refine within_emit_map fun _ => ?_
    | exact kind_mem hs (by dsimp only [Eff.kind]; decide)
    | split
    | dsimp only)

theorem within_doorbellProg {ks : List Kind} (hs : [.reg, .core] ⊆ ks) (sid tail : Nat) :
    Within ks (doorbellProg sid tail) := by
  unfold doorbellProg
  repeat' (first
    | with_reducible exact within_skip ks
    | with_reducible exact within_seqs_nil ks
    | with_reducible refine within_setF (List.Subset.trans (by decide) hs) _ _
    | with_reducible refine within_syncStrm (List.Subset.trans (by decide) hs) _
    | with_reducible refine within_ungateSid (List.Subset.trans (by decide) hs) _
    | with_reducible refine within_seqs_cons ?_ ?_
    | with_reducible refine within_seq ?_ ?_
    | with_reducible refine within_withS fun _ => ?_
    | split
    | dsimp only)

theorem within_ringBy {ks : List Kind} (hs : [.reg, .core] ⊆ ks) (sid advance : Nat) :
    Within ks (ringBy sid advance) := by
  unfold ringBy
  repeat' (first
    | with_reducible exact within_skip ks
    | with_reducible exact within_seqs_nil ks
    | with_reducible refine within_doorbellProg (List.Subset.trans (by decide) hs) _ _
    | with_reducible refine within_seqs_cons ?_ ?_
    | with_reducible refine within_seq ?_ ?_
    | with_reducible refine within_withS fun _ => ?_
    | split
    | dsimp only)

theorem within_fetchSlot {ks : List Kind} (hs : [.reg, .core, .line, .send, .draw] ⊆ ks) (sid slot : Nat) (old : Option Cmd) (k : Cmd → Prog) (h_k : ∀ x0, Within ks (k x0)) :
    Within ks (fetchSlot sid slot old k) := by
  unfold fetchSlot
  repeat' (first
    | exact h_k _
    | with_reducible exact within_skip ks
    | with_reducible exact within_seqs_nil ks
    | with_reducible refine within_setF48 (List.Subset.trans (by decide) hs) _ _ _
    | with_reducible refine within_touch (List.Subset.trans (by decide) hs) _ _ _ _
    | with_reducible refine within_seqs_cons ?_ ?_
    | with_reducible refine within_seq ?_ ?_
    | with_reducible refine within_withS fun _ => ?_
    | split
    | dsimp only)

theorem within_resumeNow {ks : List Kind} (hs : [.reg, .strm, .core, .line, .send, .draw] ⊆ ks) (sid : Nat) (retry : Bool) :
    Within ks (resumeNow sid retry) := by
  unfold resumeNow
  repeat' (first
    | with_reducible exact within_skip ks
    | with_reducible exact within_seqs_nil ks
    | with_reducible refine within_fetchSlot (List.Subset.trans (by decide) hs) _ _ _ _ (fun _ => ?_)
    | with_reducible refine within_setStrm (List.Subset.trans (by decide) hs) _ _
    | with_reducible refine within_seqs_cons ?_ ?_
    | with_reducible refine within_seq ?_ ?_
    | with_reducible refine within_withS fun _ => ?_
    | with_reducible refine within_onlyIf fun _ => ?_
    | with_reducible refine within_forEach fun _ _ => ?_
    | split
    | dsimp only)

theorem within_finishReset {ks : List Kind} (hs : [.reg, .strm] ⊆ ks) (sid : Nat) :
    Within ks (finishReset sid) := by
  unfold finishReset
  repeat' (first
    | with_reducible exact within_skip ks
    | with_reducible exact within_seqs_nil ks
    | with_reducible refine within_setF (List.Subset.trans (by decide) hs) _ _
    | with_reducible refine within_setStrm (List.Subset.trans (by decide) hs) _ _
    | with_reducible refine within_seqs_cons ?_ ?_
    | with_reducible refine within_seq ?_ ?_
    | with_reducible refine within_withS fun _ => ?_
    | split
    | dsimp only)

theorem within_settle {ks : List Kind} (hs : [.reg, .strm, .core, .line, .send, .draw] ⊆ ks) (sid : Nat) :
    Within ks (settle sid) := by
  unfold settle
  repeat' (first
    | with_reducible exact within_skip ks
    | with_reducible exact within_seqs_nil ks
    | with_reducible refine within_finishReset (List.Subset.trans (by decide) hs) _
    | with_reducible refine within_resumeNow (List.Subset.trans (by decide) hs) _ _
    | with_reducible refine within_syncStrm (List.Subset.trans (by decide) hs) _
    | with_reducible refine within_seqs_cons ?_ ?_
    | with_reducible refine within_seq ?_ ?_
    | with_reducible refine within_withS fun _ => ?_
    | with_reducible refine within_onlyIf fun _ => ?_
    | split
    | dsimp only)

theorem within_vetoStep {ks : List Kind} (hs : [.reg] ⊆ ks) (reason : Nat) :
    Within ks (vetoStep reason) := by
  unfold vetoStep
  repeat' (first
    | with_reducible exact within_skip ks
    | with_reducible exact within_seqs_nil ks
    | with_reducible refine within_setF (List.Subset.trans (by decide) hs) _ _
    | with_reducible refine within_seqs_cons ?_ ?_
    | with_reducible refine within_seq ?_ ?_
    | with_reducible refine within_withS fun _ => ?_
    | split
    | dsimp only)

theorem within_endCmd {ks : List Kind} (hs : [.reg, .flag, .strm, .core, .line, .log, .send, .draw] ⊆ ks) (sid : Nat) (c : Cmd) (st : Status) (skipped : Bool) :
    Within ks (endCmd sid c st skipped) := by
  unfold endCmd
  repeat' (first
    | with_reducible exact within_skip ks
    | with_reducible exact within_seqs_nil ks
    | with_reducible refine within_flagOp (List.Subset.trans (by decide) hs) _ _ _ _ _
    | with_reducible refine within_logEv (List.Subset.trans (by decide) hs) _ _ _ _ _ _
    | with_reducible refine within_sendIrq (List.Subset.trans (by decide) hs) _
    | with_reducible refine within_setF (List.Subset.trans (by decide) hs) _ _
    | with_reducible refine within_setF48 (List.Subset.trans (by decide) hs) _ _ _
    | with_reducible refine within_setStrm (List.Subset.trans (by decide) hs) _ _
    | with_reducible refine within_settle (List.Subset.trans (by decide) hs) _
    | with_reducible refine within_vetoStep (List.Subset.trans (by decide) hs) _
    | with_reducible refine within_seqs_cons ?_ ?_
    | with_reducible refine within_seq ?_ ?_
    | with_reducible refine within_withS fun _ => ?_
    | with_reducible refine within_onlyIf fun _ => ?_
    | split
    | dsimp only)

theorem within_startCmd {ks : List Kind} (hs : [.reg, .strm, .log, .draw] ⊆ ks) (sid : Nat) (c : Cmd) :
    Within ks (startCmd sid c) := by
  unfold startCmd
  repeat' (first
    | with_reducible exact within_skip ks
    | with_reducible exact within_seqs_nil ks
    | with_reducible refine within_logStart (List.Subset.trans (by decide) hs) _ _ _ _
    | with_reducible refine within_setStrm (List.Subset.trans (by decide) hs) _ _
    | with_reducible refine within_seqs_cons ?_ ?_
    | with_reducible refine within_seq ?_ ?_
    | with_reducible refine within_withS fun _ => ?_
    | split
    | dsimp only)

theorem within_updCmd {ks : List Kind} (hs : [.strm] ⊆ ks) (sid acc : Nat) (f : Cmd → Cmd) :
    Within ks (updCmd sid acc f) := by
  unfold updCmd
  repeat' (first
    | with_reducible exact within_skip ks
    | with_reducible exact within_seqs_nil ks
    | with_reducible refine within_setStrm (List.Subset.trans (by decide) hs) _ _
    | with_reducible refine within_seqs_cons ?_ ?_
    | with_reducible refine within_seq ?_ ?_
    | with_reducible refine within_withS fun _ => ?_
    | split
    | dsimp only)

theorem within_markCmd {ks : List Kind} (hs : [.reg, .strm, .log] ⊆ ks) (sid : Nat) (c : Cmd) (mark : Nat) :
    Within ks (markCmd sid c mark) := by
  unfold markCmd
  repeat' (first
    | with_reducible exact within_skip ks
    | with_reducible exact within_seqs_nil ks
    | with_reducible refine within_logEv (List.Subset.trans (by decide) hs) _ _ _ _ _ _
    | with_reducible refine within_updCmd (List.Subset.trans (by decide) hs) _ _ _
    | with_reducible refine within_seqs_cons ?_ ?_
    | with_reducible refine within_seq ?_ ?_
    | with_reducible refine within_withS fun _ => ?_
    | split
    | dsimp only)

theorem within_runOk {ks : List Kind} (hs : [.reg, .flag, .strm, .core, .line, .log, .send, .draw] ⊆ ks) (sid : Nat) (c : Cmd) (work : Prog) (h_work : Within ks (work)) :
    Within ks (runOk sid c work) := by
  unfold runOk
  repeat' (first
    | exact h_work
    | with_reducible exact within_skip ks
    | with_reducible exact within_seqs_nil ks
    | with_reducible refine within_endCmd (List.Subset.trans (by decide) hs) _ _ _ _
    | with_reducible refine within_startCmd (List.Subset.trans (by decide) hs) _ _
    | with_reducible refine within_seqs_cons ?_ ?_
    | with_reducible refine within_seq ?_ ?_
    | with_reducible refine within_withS fun _ => ?_
    | split
    | dsimp only)

theorem within_onIssued {ks : List Kind} (hs : [] ⊆ ks) (sid acc cls op : Nat) (k : Cmd → Prog) (h_k : ∀ x0, Within ks (k x0)) :
    Within ks (onIssued sid acc cls op k) := by
  unfold onIssued
  repeat' (first
    | exact h_k _
    | with_reducible exact within_skip ks
    | with_reducible exact within_seqs_nil ks
    | with_reducible refine within_seqs_cons ?_ ?_
    | with_reducible refine within_seq ?_ ?_
    | with_reducible refine within_withS fun _ => ?_
    | with_reducible refine within_given fun _ => ?_
    | split
    | dsimp only)

theorem within_checked {ks : List Kind} (hs : [.reg, .flag, .strm, .core, .line, .log, .send, .draw] ⊆ ks) (sid : Nat) (c : Cmd) (f : Option Status) (work : Prog) (h_work : Within ks (work)) :
    Within ks (checked sid c f work) := by
  unfold checked
  repeat' (first
    | exact h_work
    | with_reducible exact within_skip ks
    | with_reducible exact within_seqs_nil ks
    | with_reducible refine within_endCmd (List.Subset.trans (by decide) hs) _ _ _ _
    | with_reducible refine within_seqs_cons ?_ ?_
    | with_reducible refine within_seq ?_ ?_
    | with_reducible refine within_withS fun _ => ?_
    | split
    | dsimp only)

theorem within_beginWait {ks : List Kind} (hs : [.reg, .strm, .draw] ⊆ ks) (sid : Nat) (c : Cmd) :
    Within ks (beginWait sid c) := by
  unfold beginWait
  repeat' (first
    | with_reducible exact within_skip ks
    | with_reducible exact within_seqs_nil ks
    | with_reducible refine within_incF (List.Subset.trans (by decide) hs) _ _
    | with_reducible refine within_setStrm (List.Subset.trans (by decide) hs) _ _
    | with_reducible refine within_syncStrm (List.Subset.trans (by decide) hs) _
    | with_reducible refine within_seqs_cons ?_ ?_
    | with_reducible refine within_seq ?_ ?_
    | with_reducible refine within_withS fun _ => ?_
    | split
    | dsimp only)

theorem within_noteIssue {ks : List Kind} (hs : [.core] ⊆ ks) (sid : Nat) :
    Within ks (noteIssue sid) := by
  unfold noteIssue
  repeat' (first
    | with_reducible exact within_skip ks
    | with_reducible exact within_seqs_nil ks
    | with_reducible refine within_seqs_cons ?_ ?_
    | with_reducible refine within_seq ?_ ?_
    | with_reducible refine within_withS fun _ => ?_
    | with_reducible refine within_given fun _ => ?_
    | with_reducible refine within_emit_cons ?_ ?_
    | with_reducible exact within_emit_nil ks
    | with_reducible refine within_emit_append ?_ ?_
    | with_reducible refine within_emit_map fun _ => ?_
    | exact kind_mem hs (by dsimp only [Eff.kind]; decide)
    | split
    | dsimp only)

theorem within_issueNow {ks : List Kind} (hs : [.reg, .strm, .core, .log] ⊆ ks) (sid : Nat) (c : Cmd) (g : Signaller) :
    Within ks (issueNow sid c g) := by
  unfold issueNow
  repeat' (first
    | with_reducible exact within_skip ks
    | with_reducible exact within_seqs_nil ks
    | with_reducible refine within_logEv (List.Subset.trans (by decide) hs) _ _ _ _ _ _
    | with_reducible refine within_noteIssue (List.Subset.trans (by decide) hs) _
    | with_reducible refine within_setStrm (List.Subset.trans (by decide) hs) _ _
    | with_reducible refine within_syncStrm (List.Subset.trans (by decide) hs) _
    | with_reducible refine within_seqs_cons ?_ ?_
    | with_reducible refine within_seq ?_ ?_
    | with_reducible refine within_withS fun _ => ?_
    | split
    | dsimp only)

theorem within_issueProg {ks : List Kind} (hs : [.reg, .flag, .strm, .core, .line, .log, .send, .draw] ⊆ ks) (sid : Nat) :
    Within ks (issueProg sid) := by
  unfold issueProg
  repeat' (first
    | with_reducible exact within_skip ks
    | with_reducible exact within_seqs_nil ks
    | with_reducible refine within_beginWait (List.Subset.trans (by decide) hs) _ _
    | with_reducible refine within_endCmd (List.Subset.trans (by decide) hs) _ _ _ _
    | with_reducible refine within_issueNow (List.Subset.trans (by decide) hs) _ _ _
    | with_reducible refine within_seqs_cons ?_ ?_
    | with_reducible refine within_seq ?_ ?_
    | with_reducible refine within_withS fun _ => ?_
    | split
    | dsimp only)

theorem within_fetchProg {ks : List Kind} (hs : [.reg, .strm, .core, .line, .send, .draw] ⊆ ks) (sid : Nat) :
    Within ks (fetchProg sid) := by
  unfold fetchProg
  repeat' (first
    | with_reducible exact within_skip ks
    | with_reducible exact within_seqs_nil ks
    | with_reducible refine within_fetchSlot (List.Subset.trans (by decide) hs) _ _ _ _ (fun _ => ?_)
    | with_reducible refine within_setF (List.Subset.trans (by decide) hs) _ _
    | with_reducible refine within_setStrm (List.Subset.trans (by decide) hs) _ _
    | with_reducible refine within_syncStrm (List.Subset.trans (by decide) hs) _
    | with_reducible refine within_seqs_cons ?_ ?_
    | with_reducible refine within_seq ?_ ?_
    | with_reducible refine within_withS fun _ => ?_
    | split
    | dsimp only)

theorem within_pollProg {ks : List Kind} (hs : [.strm, .core] ⊆ ks) (sid : Nat) :
    Within ks (pollProg sid) := by
  unfold pollProg
  repeat' (first
    | with_reducible exact within_skip ks
    | with_reducible exact within_seqs_nil ks
    | with_reducible refine within_setStrm (List.Subset.trans (by decide) hs) _ _
    | with_reducible refine within_ungateSid (List.Subset.trans (by decide) hs) _
    | with_reducible refine within_seqs_cons ?_ ?_
    | with_reducible refine within_seq ?_ ?_
    | with_reducible refine within_withS fun _ => ?_
    | with_reducible refine within_onlyIf fun _ => ?_
    | split
    | dsimp only)

theorem within_enableProg {ks : List Kind} (hs : [.reg, .core] ⊆ ks) (sid : Nat) :
    Within ks (enableProg sid) := by
  unfold enableProg
  repeat' (first
    | with_reducible exact within_skip ks
    | with_reducible exact within_seqs_nil ks
    | with_reducible refine within_setF (List.Subset.trans (by decide) hs) _ _
    | with_reducible refine within_syncStrm (List.Subset.trans (by decide) hs) _
    | with_reducible refine within_ungateSid (List.Subset.trans (by decide) hs) _
    | with_reducible refine within_seqs_cons ?_ ?_
    | with_reducible refine within_seq ?_ ?_
    | with_reducible refine within_withS fun _ => ?_
    | split
    | dsimp only)

theorem within_disableProg {ks : List Kind} (hs : [.reg, .strm, .core] ⊆ ks) (sid : Nat) :
    Within ks (disableProg sid) := by
  unfold disableProg
  repeat' (first
    | with_reducible exact within_skip ks
    | with_reducible exact within_seqs_nil ks
    | with_reducible refine within_setF (List.Subset.trans (by decide) hs) _ _
    | with_reducible refine within_setStrm (List.Subset.trans (by decide) hs) _ _
    | with_reducible refine within_syncStrm (List.Subset.trans (by decide) hs) _
    | with_reducible refine within_ungateSid (List.Subset.trans (by decide) hs) _
    | with_reducible refine within_seqs_cons ?_ ?_
    | with_reducible refine within_seq ?_ ?_
    | with_reducible refine within_withS fun _ => ?_
    | split
    | dsimp only)

theorem within_resumeProg {ks : List Kind} (hs : [.reg, .strm, .core, .line, .send, .draw] ⊆ ks) (sid : Nat) (retry : Bool) :
    Within ks (resumeProg sid retry) := by
  unfold resumeProg
  repeat' (first
    | with_reducible exact within_skip ks
    | with_reducible exact within_seqs_nil ks
    | with_reducible refine within_setStrm (List.Subset.trans (by decide) hs) _ _
    | with_reducible refine within_settle (List.Subset.trans (by decide) hs) _
    | with_reducible refine within_ungateSid (List.Subset.trans (by decide) hs) _
    | with_reducible refine within_seqs_cons ?_ ?_
    | with_reducible refine within_seq ?_ ?_
    | with_reducible refine within_withS fun _ => ?_
    | split
    | dsimp only)

theorem within_resetProg {ks : List Kind} (hs : [.reg, .strm, .core, .line, .log, .send, .draw] ⊆ ks) (sid : Nat) :
    Within ks (resetProg sid) := by
  unfold resetProg
  repeat' (first
    | with_reducible exact within_skip ks
    | with_reducible exact within_seqs_nil ks
    | with_reducible refine within_logEv (List.Subset.trans (by decide) hs) _ _ _ _ _ _
    | with_reducible refine within_setStrm (List.Subset.trans (by decide) hs) _ _
    | with_reducible refine within_settle (List.Subset.trans (by decide) hs) _
    | with_reducible refine within_ungateSid (List.Subset.trans (by decide) hs) _
    | with_reducible refine within_seqs_cons ?_ ?_
    | with_reducible refine within_seq ?_ ?_
    | with_reducible refine within_withS fun _ => ?_
    | with_reducible refine within_forEach fun _ _ => ?_
    | split
    | dsimp only)

theorem within_timeoutProg {ks : List Kind} (hs : [.reg, .flag, .strm, .core, .line, .log, .send, .draw] ⊆ ks) (sid acc : Nat) :
    Within ks (timeoutProg sid acc) := by
  unfold timeoutProg
  repeat' (first
    | with_reducible exact within_skip ks
    | with_reducible exact within_seqs_nil ks
    | with_reducible refine within_endCmd (List.Subset.trans (by decide) hs) _ _ _ _
    | with_reducible refine within_incF (List.Subset.trans (by decide) hs) _ _
    | with_reducible refine within_setStrm (List.Subset.trans (by decide) hs) _ _
    | with_reducible refine within_seqs_cons ?_ ?_
    | with_reducible refine within_seq ?_ ?_
    | with_reducible refine within_withS fun _ => ?_
    | with_reducible refine within_given fun _ => ?_
    | split
    | dsimp only)

theorem within_lateProg {ks : List Kind} (hs : [.reg, .log, .draw] ⊆ ks) (u : LateUnit) :
    Within ks (lateProg u) := by
  unfold lateProg
  repeat' (first
    | with_reducible exact within_skip ks
    | with_reducible exact within_seqs_nil ks
    | with_reducible refine within_incF (List.Subset.trans (by decide) hs) _ _
    | with_reducible refine within_logEv (List.Subset.trans (by decide) hs) _ _ _ _ _ _
    | with_reducible refine within_seqs_cons ?_ ?_
    | with_reducible refine within_seq ?_ ?_
    | with_reducible refine within_withS fun _ => ?_
    | split
    | dsimp only)

theorem within_gateProg {ks : List Kind} (hs : [.core] ⊆ ks) (n : Nat) :
    Within ks (gateProg n) := by
  unfold gateProg
  repeat' (first
    | with_reducible exact within_skip ks
    | with_reducible exact within_seqs_nil ks
    | with_reducible refine within_seqs_cons ?_ ?_
    | with_reducible refine within_seq ?_ ?_
    | with_reducible refine within_withS fun _ => ?_
    | with_reducible refine within_onlyIf fun _ => ?_
    | with_reducible refine within_emit_cons ?_ ?_
    | with_reducible exact within_emit_nil ks
    | with_reducible refine within_emit_append ?_ ?_
    | with_reducible refine within_emit_map fun _ => ?_
    | exact kind_mem hs (by dsimp only [Eff.kind]; decide)
    | split
    | dsimp only)

theorem within_releaseArriver {ks : List Kind} (hs : [.reg, .flag, .strm, .core, .line, .log, .send, .draw] ⊆ ks) (sid : Nat) (d : Cmd) :
    Within ks (releaseArriver sid d) := by
  unfold releaseArriver
  repeat' (first
    | with_reducible exact within_skip ks
    | with_reducible exact within_seqs_nil ks
    | with_reducible refine within_endCmd (List.Subset.trans (by decide) hs) _ _ _ _
    | with_reducible refine within_startCmd (List.Subset.trans (by decide) hs) _ _
    | with_reducible refine within_seqs_cons ?_ ?_
    | with_reducible refine within_seq ?_ ?_
    | with_reducible refine within_withS fun _ => ?_
    | split
    | dsimp only)

theorem within_advanceGen {ks : List Kind} (hs : [.reg, .flag, .strm, .core, .bar, .line, .log, .send, .draw] ⊆ ks) (c : Nat) :
    Within ks (advanceGen c) := by
  unfold advanceGen
  repeat' (first
    | with_reducible exact within_skip ks
    | with_reducible exact within_seqs_nil ks
    | with_reducible refine within_releaseArriver (List.Subset.trans (by decide) hs) _ _
    | with_reducible refine within_setF (List.Subset.trans (by decide) hs) _ _
    | with_reducible refine within_wakeWatchers (List.Subset.trans (by decide) hs) _
    | with_reducible refine within_seqs_cons ?_ ?_
    | with_reducible refine within_seq ?_ ?_
    | with_reducible refine within_withS fun _ => ?_
    | with_reducible refine within_onlyIf fun _ => ?_
    | with_reducible refine within_forEach fun _ _ => ?_
    | with_reducible refine within_emit_cons ?_ ?_
    | with_reducible exact within_emit_nil ks
    | with_reducible refine within_emit_append ?_ ?_
    | with_reducible refine within_emit_map fun _ => ?_
    | exact kind_mem hs (by dsimp only [Eff.kind]; decide)
    | split
    | dsimp only)

theorem within_countArrival {ks : List Kind} (hs : [.reg, .flag, .strm, .core, .bar, .line, .log, .send, .draw] ⊆ ks) (c who sid acc : Nat) :
    Within ks (countArrival c who sid acc) := by
  unfold countArrival
  repeat' (first
    | with_reducible exact within_skip ks
    | with_reducible exact within_seqs_nil ks
    | with_reducible refine within_advanceGen (List.Subset.trans (by decide) hs) _
    | with_reducible refine within_setF (List.Subset.trans (by decide) hs) _ _
    | with_reducible refine within_seqs_cons ?_ ?_
    | with_reducible refine within_seq ?_ ?_
    | with_reducible refine within_withS fun _ => ?_
    | with_reducible refine within_onlyIf fun _ => ?_
    | with_reducible refine within_emit_cons ?_ ?_
    | with_reducible exact within_emit_nil ks
    | with_reducible refine within_emit_append ?_ ?_
    | with_reducible refine within_emit_map fun _ => ?_
    | exact kind_mem hs (by dsimp only [Eff.kind]; decide)
    | split
    | dsimp only)

theorem within_arriveProg {ks : List Kind} (hs : [.reg, .flag, .strm, .core, .bar, .line, .log, .send, .draw] ⊆ ks) (sid : Nat) (c : Cmd) (wait : Bool) :
    Within ks (arriveProg sid c wait) := by
  unfold arriveProg
  repeat' (first
    | with_reducible exact within_skip ks
    | with_reducible exact within_seqs_nil ks
    | with_reducible refine within_countArrival (List.Subset.trans (by decide) hs) _ _ _ _
    | with_reducible refine within_endCmd (List.Subset.trans (by decide) hs) _ _ _ _
    | with_reducible refine within_incF (List.Subset.trans (by decide) hs) _ _
    | with_reducible refine within_releaseArriver (List.Subset.trans (by decide) hs) _ _
    | with_reducible refine within_runOk (List.Subset.trans (by decide) hs) _ _ _ ?_
    | with_reducible refine within_updCmd (List.Subset.trans (by decide) hs) _ _ _
    | with_reducible refine within_seqs_cons ?_ ?_
    | with_reducible refine within_seq ?_ ?_
    | with_reducible refine within_withS fun _ => ?_
    | with_reducible refine within_onlyIf fun _ => ?_
    | split
    | dsimp only)

theorem within_barClearProg {ks : List Kind} (hs : [.reg, .bar] ⊆ ks) (c : Nat) :
    Within ks (barClearProg c) := by
  unfold barClearProg
  repeat' (first
    | with_reducible exact within_skip ks
    | with_reducible exact within_seqs_nil ks
    | with_reducible refine within_setF (List.Subset.trans (by decide) hs) _ _
    | with_reducible refine within_seqs_cons ?_ ?_
    | with_reducible refine within_seq ?_ ?_
    | with_reducible refine within_withS fun _ => ?_
    | with_reducible refine within_onlyIf fun _ => ?_
    | with_reducible refine within_emit_cons ?_ ?_
    | with_reducible exact within_emit_nil ks
    | with_reducible refine within_emit_append ?_ ?_
    | with_reducible refine within_emit_map fun _ => ?_
    | exact kind_mem hs (by dsimp only [Eff.kind]; decide)
    | split
    | dsimp only)

theorem within_taskBeginProg {ks : List Kind} (hs : [.reg, .flag, .strm, .core, .line, .log, .send, .draw] ⊆ ks) (sid : Nat) (c : Cmd) :
    Within ks (taskBeginProg sid c) := by
  unfold taskBeginProg
  repeat' (first
    | with_reducible exact within_skip ks
    | with_reducible exact within_seqs_nil ks
    | with_reducible refine within_checked (List.Subset.trans (by decide) hs) _ _ _ _ ?_
    | with_reducible refine within_runOk (List.Subset.trans (by decide) hs) _ _ _ ?_
    | with_reducible refine within_setF (List.Subset.trans (by decide) hs) _ _
    | with_reducible refine within_seqs_cons ?_ ?_
    | with_reducible refine within_seq ?_ ?_
    | with_reducible refine within_withS fun _ => ?_
    | with_reducible refine within_emit_cons ?_ ?_
    | with_reducible exact within_emit_nil ks
    | with_reducible refine within_emit_append ?_ ?_
    | with_reducible refine within_emit_map fun _ => ?_
    | exact kind_mem hs (by dsimp only [Eff.kind]; decide)
    | split
    | dsimp only)

theorem within_closeTask {ks : List Kind} (hs : [.reg, .flag, .strm, .core, .line, .log, .send, .draw] ⊆ ks) (n : Nat) (src : Src) (acc tag : Nat) (fin : Status → Prog) (h_fin : ∀ x0, Within ks (fin x0)) :
    Within ks (closeTask n src acc tag fin) := by
  unfold closeTask
  repeat' (first
    | exact h_fin _
    | with_reducible exact within_skip ks
    | with_reducible exact within_seqs_nil ks
    | with_reducible refine within_endCmd (List.Subset.trans (by decide) hs) _ _ _ _
    | with_reducible refine within_logEv (List.Subset.trans (by decide) hs) _ _ _ _ _ _
    | with_reducible refine within_setF (List.Subset.trans (by decide) hs) _ _
    | with_reducible refine within_seqs_cons ?_ ?_
    | with_reducible refine within_seq ?_ ?_
    | with_reducible refine within_withS fun _ => ?_
    | with_reducible refine within_forEach fun _ _ => ?_
    | with_reducible refine within_emit_cons ?_ ?_
    | with_reducible exact within_emit_nil ks
    | with_reducible refine within_emit_append ?_ ?_
    | with_reducible refine within_emit_map fun _ => ?_
    | exact kind_mem hs (by dsimp only [Eff.kind]; decide)
    | split
    | dsimp only)

theorem within_taskEndProg {ks : List Kind} (hs : [.reg, .flag, .strm, .core, .line, .log, .send, .draw] ⊆ ks) (sid : Nat) (c : Cmd) :
    Within ks (taskEndProg sid c) := by
  unfold taskEndProg
  repeat' (first
    | with_reducible exact within_skip ks
    | with_reducible exact within_seqs_nil ks
    | with_reducible refine within_closeTask (List.Subset.trans (by decide) hs) _ _ _ _ _ (fun _ => ?_)
    | with_reducible refine within_endCmd (List.Subset.trans (by decide) hs) _ _ _ _
    | with_reducible refine within_startCmd (List.Subset.trans (by decide) hs) _ _
    | with_reducible refine within_seqs_cons ?_ ?_
    | with_reducible refine within_seq ?_ ?_
    | with_reducible refine within_withS fun _ => ?_
    | split
    | dsimp only)

theorem within_syncDoorbellProg {ks : List Kind} (hs : [.reg, .flag, .strm, .core, .line, .log, .send, .draw] ⊆ ks) (sid : Nat) (c : Cmd) :
    Within ks (syncDoorbellProg sid c) := by
  unfold syncDoorbellProg
  repeat' (first
    | with_reducible exact within_skip ks
    | with_reducible exact within_seqs_nil ks
    | with_reducible refine within_endCmd (List.Subset.trans (by decide) hs) _ _ _ _
    | with_reducible refine within_ringBy (List.Subset.trans (by decide) hs) _ _
    | with_reducible refine within_runOk (List.Subset.trans (by decide) hs) _ _ _ ?_
    | with_reducible refine within_seqs_cons ?_ ?_
    | with_reducible refine within_seq ?_ ?_
    | with_reducible refine within_withS fun _ => ?_
    | split
    | dsimp only)

theorem within_shapeWriteProg {ks : List Kind} (hs : [.reg, .mem, .flag, .strm, .core, .line, .hurt, .cons, .pow, .log, .send, .draw] ⊆ ks) (sid : Nat) (c : Cmd) :
    Within ks (shapeWriteProg sid c) := by
  unfold shapeWriteProg
  repeat' (first
    | with_reducible exact within_skip ks
    | with_reducible exact within_seqs_nil ks
    | with_reducible refine within_checked (List.Subset.trans (by decide) hs) _ _ _ _ ?_
    | with_reducible refine within_runOk (List.Subset.trans (by decide) hs) _ _ _ ?_
    | with_reducible refine within_writeBytes (List.Subset.trans (by decide) hs) _ _ _
    | with_reducible refine within_seqs_cons ?_ ?_
    | with_reducible refine within_seq ?_ ?_
    | with_reducible refine within_withS fun _ => ?_
    | split
    | dsimp only)

end Sys2Proof.Machine
end

