-- ==== Sys2Proof/Laws/FpDrain.lean ====
section
/-! SUPPORT. Footprints of the operations of Machine/Drain.lean: the parts of the state each can change. -/

namespace Sys2Proof.Machine

theorem within_writeCensus {ks : List Kind} (hs : [.reg, .mem, .core, .line, .hurt, .cons, .pow, .log, .send, .draw] ⊆ ks) (j : DrainJob) (c : Census) :
    Within ks (writeCensus j c) := by
  unfold writeCensus
  repeat' (first
    | with_reducible exact within_skip ks
    | with_reducible exact within_seqs_nil ks
    | with_reducible refine within_incF (List.Subset.trans (by decide) hs) _ _
    | with_reducible refine within_writeBytes (List.Subset.trans (by decide) hs) _ _ _
    | with_reducible refine within_seqs_cons ?_ ?_
    | with_reducible refine within_seq ?_ ?_
    | with_reducible refine within_withS fun _ => ?_
    | with_reducible refine within_onlyIf fun _ => ?_
    | split
    | dsimp only)

theorem within_writePieces {ks : List Kind} (hs : [.reg, .mem, .core, .line, .hurt, .cons, .pow, .log, .send, .draw] ⊆ ks) (who : Requester) (ps : List (Nat × List Byte)) :
    Within ks (writePieces who ps) := by
  unfold writePieces
  repeat' (first
    | with_reducible exact within_skip ks
    | with_reducible exact within_seqs_nil ks
    | with_reducible refine within_writeBytes (List.Subset.trans (by decide) hs) _ _ _
    | with_reducible refine within_seqs_cons ?_ ?_
    | with_reducible refine within_seq ?_ ?_
    | with_reducible refine within_withS fun _ => ?_
    | with_reducible refine within_forEach fun _ _ => ?_
    | split
    | dsimp only)

theorem within_replayAtomics {ks : List Kind} (hs : [.reg, .mem, .core, .line, .hurt, .cons, .pow, .log, .send, .draw] ⊆ ks) (j : DrainJob) (g : Nat) :
    Within ks (replayAtomics j g) := by
  unfold replayAtomics
  repeat' (first
    | with_reducible exact within_skip ks
    | with_reducible exact within_seqs_nil ks
    | with_reducible refine within_incF (List.Subset.trans (by decide) hs) _ _
    | with_reducible refine within_writeBytes (List.Subset.trans (by decide) hs) _ _ _
    | with_reducible refine within_seqs_cons ?_ ?_
    | with_reducible refine within_seq ?_ ?_
    | with_reducible refine within_withS fun _ => ?_
    | split
    | dsimp only)

theorem within_drainEnd {ks : List Kind} (hs : [.reg, .mem, .flag, .strm, .core, .line, .hurt, .cons, .pow, .log, .send, .draw] ⊆ ks) (j : DrainJob) (sid : Nat) (c : Cmd) (out : DrainOut) (save : List (Nat × List Byte)) (marks : List Nat) :
    Within ks (drainEnd j sid c out save marks) := by
  unfold drainEnd
  repeat' (first
    | with_reducible exact within_skip ks
    | with_reducible exact within_seqs_nil ks
    | with_reducible refine within_endCmd (List.Subset.trans (by decide) hs) _ _ _ _
    | with_reducible refine within_incF (List.Subset.trans (by decide) hs) _ _
    | with_reducible refine within_logEv (List.Subset.trans (by decide) hs) _ _ _ _ _ _
    | with_reducible refine within_markCmd (List.Subset.trans (by decide) hs) _ _ _
    | with_reducible refine within_replayAtomics (List.Subset.trans (by decide) hs) _ _
    | with_reducible refine within_writeCensus (List.Subset.trans (by decide) hs) _ _
    | with_reducible refine within_writePieces (List.Subset.trans (by decide) hs) _ _
    | with_reducible refine within_seqs_cons ?_ ?_
    | with_reducible refine within_seq ?_ ?_
    | with_reducible refine within_withS fun _ => ?_
    | with_reducible refine within_onlyIf fun _ => ?_
    | with_reducible refine within_forEach fun _ _ => ?_
    | split
    | dsimp only)

end Sys2Proof.Machine
end

