-- ==== Sys2Proof/Laws/FpMailbox.lean ====
section
/-! SUPPORT. Footprints of the operations of Machine/Mailbox.lean: the parts of the state each can change. -/

namespace Sys2Proof.Machine

theorem within_mbWrite {ks : List Kind} (hs : [.reg] ⊆ ks) (m : Nat) (bs : List Byte) :
    Within ks (mbWrite m bs) := by
  unfold mbWrite
  repeat' (first
    | with_reducible exact within_skip ks
    | with_reducible exact within_seqs_nil ks
    | with_reducible refine within_seqs_cons ?_ ?_
    | with_reducible refine within_seq ?_ ?_
    | with_reducible refine within_withS fun _ => ?_
    | with_reducible refine within_forEach fun _ _ => ?_
    | with_reducible refine within_emit_cons ?_ ?_
    | with_reducible exact within_emit_nil ks
    | with_reducible refine within_emit_append ?_ ?_
    | with_reducible refine within_emit_map fun _ => ?_
    | exact kind_mem hs (by dsimp only [Eff.kind]; decide)
    | split
    | dsimp only)

theorem within_finishMb {ks : List Kind} (hs : [.reg, .log, .send] ⊆ ks) (m acc tag : Nat) (st : Status) (reply : List Byte) :
    Within ks (finishMb m acc tag st reply) := by
  unfold finishMb
  repeat' (first
    | with_reducible exact within_skip ks
    | with_reducible exact within_seqs_nil ks
    | with_reducible refine within_logEv (List.Subset.trans (by decide) hs) _ _ _ _ _ _
    | with_reducible refine within_mbWrite (List.Subset.trans (by decide) hs) _ _
    | with_reducible refine within_sendIrq (List.Subset.trans (by decide) hs) _
    | with_reducible refine within_setF (List.Subset.trans (by decide) hs) _ _
    | with_reducible refine within_seqs_cons ?_ ?_
    | with_reducible refine within_seq ?_ ?_
    | with_reducible refine within_withS fun _ => ?_
    | with_reducible refine within_onlyIf fun _ => ?_
    | split
    | dsimp only)

theorem within_endMailbox {ks : List Kind} (hs : [.reg, .log, .send] ⊆ ks) (m : Nat) (st : Status) (reply : List Byte) :
    Within ks (endMailbox m st reply) := by
  unfold endMailbox
  repeat' (first
    | with_reducible exact within_skip ks
    | with_reducible exact within_seqs_nil ks
    | with_reducible refine within_finishMb (List.Subset.trans (by decide) hs) _ _ _ _ _
    | with_reducible refine within_seqs_cons ?_ ?_
    | with_reducible refine within_seq ?_ ?_
    | with_reducible refine within_withS fun _ => ?_
    | split
    | dsimp only)

theorem within_answer {ks : List Kind} (hs : [.reg, .log, .send] ⊆ ks) (c : Served) (st : Status) (reply : List Byte) :
    Within ks (answer c st reply) := by
  unfold answer
  repeat' (first
    | with_reducible exact within_skip ks
    | with_reducible exact within_seqs_nil ks
    | with_reducible refine within_finishMb (List.Subset.trans (by decide) hs) _ _ _ _ _
    | with_reducible refine within_seqs_cons ?_ ?_
    | with_reducible refine within_seq ?_ ?_
    | with_reducible refine within_withS fun _ => ?_
    | with_reducible refine within_emit_cons ?_ ?_
    | with_reducible exact within_emit_nil ks
    | with_reducible refine within_emit_append ?_ ?_
    | with_reducible refine within_emit_map fun _ => ?_
    | exact kind_mem hs (by dsimp only [Eff.kind]; decide)
    | split
    | dsimp only)

theorem within_startServed {ks : List Kind} (hs : [.reg, .log, .draw] ⊆ ks) (c : Served) :
    Within ks (startServed c) := by
  unfold startServed
  repeat' (first
    | with_reducible exact within_skip ks
    | with_reducible exact within_seqs_nil ks
    | with_reducible refine within_logStart (List.Subset.trans (by decide) hs) _ _ _ _
    | with_reducible refine within_seqs_cons ?_ ?_
    | with_reducible refine within_seq ?_ ?_
    | with_reducible refine within_withS fun _ => ?_
    | split
    | dsimp only)

theorem within_serveOk {ks : List Kind} (hs : [.reg, .log, .send, .draw] ⊆ ks) (c : Served) (work : Prog) (reply : State → List Byte) (h_work : Within ks (work)) :
    Within ks (serveOk c work reply) := by
  unfold serveOk
  repeat' (first
    | exact h_work
    | with_reducible exact within_skip ks
    | with_reducible exact within_seqs_nil ks
    | with_reducible refine within_answer (List.Subset.trans (by decide) hs) _ _ _
    | with_reducible refine within_startServed (List.Subset.trans (by decide) hs) _
    | with_reducible refine within_seqs_cons ?_ ?_
    | with_reducible refine within_seq ?_ ?_
    | with_reducible refine within_withS fun _ => ?_
    | split
    | dsimp only)

theorem within_serveChecked {ks : List Kind} (hs : [.reg, .log, .send] ⊆ ks) (c : Served) (f : Option Status) (work : Prog) (h_work : Within ks (work)) :
    Within ks (serveChecked c f work) := by
  unfold serveChecked
  repeat' (first
    | exact h_work
    | with_reducible exact within_skip ks
    | with_reducible exact within_seqs_nil ks
    | with_reducible refine within_answer (List.Subset.trans (by decide) hs) _ _ _
    | with_reducible refine within_seqs_cons ?_ ?_
    | with_reducible refine within_seq ?_ ?_
    | with_reducible refine within_withS fun _ => ?_
    | split
    | dsimp only)

end Sys2Proof.Machine
end

