-- ==== Sys2Proof/Laws/FpQueues.lean ====
section
/-! SUPPORT. Footprints of the operations of Machine/Queues.lean: the parts of the state each can change. -/

namespace Sys2Proof.Machine

theorem within_winRefuse {ks : List Kind} (hs : [.reg, .draw] ⊆ ks) (off : Nat) :
    Within ks (winRefuse off) := by
  unfold winRefuse
  repeat' (first
    | with_reducible exact within_skip ks
    | with_reducible exact within_seqs_nil ks
    | with_reducible refine within_incF (List.Subset.trans (by decide) hs) _ _
    | with_reducible refine within_setF (List.Subset.trans (by decide) hs) _ _
    | with_reducible refine within_seqs_cons ?_ ?_
    | with_reducible refine within_seq ?_ ?_
    | with_reducible refine within_withS fun _ => ?_
    | split
    | dsimp only)

theorem within_ownerWrite {ks : List Kind} (hs : [.reg, .draw] ⊆ ks) (off : Nat) (k : Prog) (h_k : Within ks (k)) :
    Within ks (ownerWrite off k) := by
  unfold ownerWrite
  repeat' (first
    | exact h_k
    | with_reducible exact within_skip ks
    | with_reducible exact within_seqs_nil ks
    | with_reducible refine within_winRefuse (List.Subset.trans (by decide) hs) _
    | with_reducible refine within_seqs_cons ?_ ?_
    | with_reducible refine within_seq ?_ ?_
    | with_reducible refine within_withS fun _ => ?_
    | split
    | dsimp only)

theorem within_imWrite {ks : List Kind} (hs : [.reg, .send] ⊆ ks) (v : Nat) (w : Word) :
    Within ks (imWrite v w) := by
  unfold imWrite
  repeat' (first
    | with_reducible exact within_skip ks
    | with_reducible exact within_seqs_nil ks
    | with_reducible refine within_sendIrq (List.Subset.trans (by decide) hs) _
    | with_reducible refine within_setF (List.Subset.trans (by decide) hs) _ _
    | with_reducible refine within_seqs_cons ?_ ?_
    | with_reducible refine within_seq ?_ ?_
    | with_reducible refine within_withS fun _ => ?_
    | with_reducible refine within_onlyIf fun _ => ?_
    | split
    | dsimp only)

theorem within_setSq {ks : List Kind} (hs : [.sq] ⊆ ks) (q : Nat) (x : SqX) :
    Within ks (setSq q x) := by
  unfold setSq
  repeat' (first
    | with_reducible exact within_skip ks
    | with_reducible exact within_seqs_nil ks
    | with_reducible refine within_seqs_cons ?_ ?_
    | with_reducible refine within_seq ?_ ?_
    | with_reducible refine within_withS fun _ => ?_
    | with_reducible refine within_emit_cons ?_ ?_
    | with_reducible exact within_emit_nil ks
    | with_reducible refine within_emit_append ?_ ?_
    | with_reducible refine within_emit_map fun _ => ?_
    | exact kind_mem hs (by dsimp only [Eff.kind]; decide)
    | split
    | dsimp only)

theorem within_syncSq {ks : List Kind} (hs : [.reg] ⊆ ks) (q : Nat) :
    Within ks (syncSq q) := by
  unfold syncSq
  repeat' (first
    | with_reducible exact within_skip ks
    | with_reducible exact within_seqs_nil ks
    | with_reducible refine within_setF (List.Subset.trans (by decide) hs) _ _
    | with_reducible refine within_seqs_cons ?_ ?_
    | with_reducible refine within_seq ?_ ?_
    | with_reducible refine within_withS fun _ => ?_
    | split
    | dsimp only)

theorem within_settleSq {ks : List Kind} (hs : [.reg, .sq] ⊆ ks) (q : Nat) :
    Within ks (settleSq q) := by
  unfold settleSq
  repeat' (first
    | with_reducible exact within_skip ks
    | with_reducible exact within_seqs_nil ks
    | with_reducible refine within_setF (List.Subset.trans (by decide) hs) _ _
    | with_reducible refine within_setSq (List.Subset.trans (by decide) hs) _ _
    | with_reducible refine within_syncSq (List.Subset.trans (by decide) hs) _
    | with_reducible refine within_seqs_cons ?_ ?_
    | with_reducible refine within_seq ?_ ?_
    | with_reducible refine within_withS fun _ => ?_
    | with_reducible refine within_onlyIf fun _ => ?_
    | split
    | dsimp only)

theorem within_sqTailProg {ks : List Kind} (hs : [.reg] ⊆ ks) (q value : Nat) :
    Within ks (sqTailProg q value) := by
  unfold sqTailProg
  repeat' (first
    | with_reducible exact within_skip ks
    | with_reducible exact within_seqs_nil ks
    | with_reducible refine within_setF (List.Subset.trans (by decide) hs) _ _
    | with_reducible refine within_seqs_cons ?_ ?_
    | with_reducible refine within_seq ?_ ?_
    | with_reducible refine within_withS fun _ => ?_
    | with_reducible refine within_onlyIf fun _ => ?_
    | split
    | dsimp only)

theorem within_cqHeadProg {ks : List Kind} (hs : [.reg, .sq] ⊆ ks) (q value : Nat) :
    Within ks (cqHeadProg q value) := by
  unfold cqHeadProg
  repeat' (first
    | with_reducible exact within_skip ks
    | with_reducible exact within_seqs_nil ks
    | with_reducible refine within_setF (List.Subset.trans (by decide) hs) _ _
    | with_reducible refine within_setSq (List.Subset.trans (by decide) hs) _ _
    | with_reducible refine within_seqs_cons ?_ ?_
    | with_reducible refine within_seq ?_ ?_
    | with_reducible refine within_withS fun _ => ?_
    | with_reducible refine within_onlyIf fun _ => ?_
    | split
    | dsimp only)

theorem within_sqResumeProg {ks : List Kind} (hs : [.reg, .sq] ⊆ ks) (q : Nat) :
    Within ks (sqResumeProg q) := by
  unfold sqResumeProg
  repeat' (first
    | with_reducible exact within_skip ks
    | with_reducible exact within_seqs_nil ks
    | with_reducible refine within_setSq (List.Subset.trans (by decide) hs) _ _
    | with_reducible refine within_syncSq (List.Subset.trans (by decide) hs) _
    | with_reducible refine within_seqs_cons ?_ ?_
    | with_reducible refine within_seq ?_ ?_
    | with_reducible refine within_withS fun _ => ?_
    | with_reducible refine within_onlyIf fun _ => ?_
    | split
    | dsimp only)

theorem within_sqResetProg {ks : List Kind} (hs : [.reg, .sq] ⊆ ks) (q : Nat) :
    Within ks (sqResetProg q) := by
  unfold sqResetProg
  repeat' (first
    | with_reducible exact within_skip ks
    | with_reducible exact within_seqs_nil ks
    | with_reducible refine within_setSq (List.Subset.trans (by decide) hs) _ _
    | with_reducible refine within_settleSq (List.Subset.trans (by decide) hs) _
    | with_reducible refine within_seqs_cons ?_ ?_
    | with_reducible refine within_seq ?_ ?_
    | with_reducible refine within_withS fun _ => ?_
    | with_reducible refine within_onlyIf fun _ => ?_
    | split
    | dsimp only)

theorem within_sqControlProg {ks : List Kind} (hs : [.reg, .sq] ⊆ ks) (q value : Nat) :
    Within ks (sqControlProg q value) := by
  unfold sqControlProg
  repeat' (first
    | with_reducible exact within_skip ks
    | with_reducible exact within_seqs_nil ks
    | with_reducible refine within_setF (List.Subset.trans (by decide) hs) _ _
    | with_reducible refine within_setSq (List.Subset.trans (by decide) hs) _ _
    | with_reducible refine within_sqResetProg (List.Subset.trans (by decide) hs) _
    | with_reducible refine within_sqResumeProg (List.Subset.trans (by decide) hs) _
    | with_reducible refine within_syncSq (List.Subset.trans (by decide) hs) _
    | with_reducible refine within_seqs_cons ?_ ?_
    | with_reducible refine within_seq ?_ ?_
    | with_reducible refine within_withS fun _ => ?_
    | with_reducible refine within_onlyIf fun _ => ?_
    | split
    | dsimp only)

theorem within_endOwnership {ks : List Kind} (hs : [.reg] ⊆ ks)  :
    Within ks (endOwnership ) := by
  unfold endOwnership
  repeat' (first
    | with_reducible exact within_skip ks
    | with_reducible exact within_seqs_nil ks
    | with_reducible refine within_setF (List.Subset.trans (by decide) hs) _ _
    | with_reducible refine within_syncSq (List.Subset.trans (by decide) hs) _
    | with_reducible refine within_seqs_cons ?_ ?_
    | with_reducible refine within_seq ?_ ?_
    | with_reducible refine within_withS fun _ => ?_
    | with_reducible refine within_onlyIf fun _ => ?_
    | with_reducible refine within_forEach fun _ _ => ?_
    | split
    | dsimp only)

theorem within_ownBreakProg {ks : List Kind} (hs : [.reg, .draw] ⊆ ks) (ag : Agent) :
    Within ks (ownBreakProg ag) := by
  unfold ownBreakProg
  repeat' (first
    | with_reducible exact within_skip ks
    | with_reducible exact within_seqs_nil ks
    | with_reducible refine within_endOwnership (List.Subset.trans (by decide) hs)
    | with_reducible refine within_winRefuse (List.Subset.trans (by decide) hs) _
    | with_reducible refine within_seqs_cons ?_ ?_
    | with_reducible refine within_seq ?_ ?_
    | with_reducible refine within_withS fun _ => ?_
    | split
    | dsimp only)

theorem within_writeCompletion {ks : List Kind} (hs : [.reg, .host, .sq, .draw] ⊆ ks) (q : Nat) (e : SqEnt) (st : Status) (done : Nat) :
    Within ks (writeCompletion q e st done) := by
  unfold writeCompletion
  repeat' (first
    | with_reducible exact within_skip ks
    | with_reducible exact within_seqs_nil ks
    | with_reducible refine within_hostWrite (List.Subset.trans (by decide) hs) _ _
    | with_reducible refine within_setF (List.Subset.trans (by decide) hs) _ _
    | with_reducible refine within_setSq (List.Subset.trans (by decide) hs) _ _
    | with_reducible refine within_seqs_cons ?_ ?_
    | with_reducible refine within_seq ?_ ?_
    | with_reducible refine within_withS fun _ => ?_
    | with_reducible refine within_given fun _ => ?_
    | with_reducible refine within_drawFree (kind_mem hs (by decide)) fun _ => ?_
    | split
    | dsimp only)

theorem within_endEntry {ks : List Kind} (hs : [.reg, .host, .sq, .log, .send, .draw] ⊆ ks) (q : Nat) (e : SqEnt) (st : Status) (done : Nat) :
    Within ks (endEntry q e st done) := by
  unfold endEntry
  repeat' (first
    | with_reducible exact within_skip ks
    | with_reducible exact within_seqs_nil ks
    | with_reducible refine within_logEv (List.Subset.trans (by decide) hs) _ _ _ _ _ _
    | with_reducible refine within_sendIrq (List.Subset.trans (by decide) hs) _
    | with_reducible refine within_setF (List.Subset.trans (by decide) hs) _ _
    | with_reducible refine within_setSq (List.Subset.trans (by decide) hs) _ _
    | with_reducible refine within_settleSq (List.Subset.trans (by decide) hs) _
    | with_reducible refine within_writeCompletion (List.Subset.trans (by decide) hs) _ _ _ _
    | with_reducible refine within_seqs_cons ?_ ?_
    | with_reducible refine within_seq ?_ ?_
    | with_reducible refine within_withS fun _ => ?_
    | with_reducible refine within_onlyIf fun _ => ?_
    | split
    | dsimp only)

theorem within_entryFetchProg {ks : List Kind} (hs : [.reg, .host, .sq, .log, .send, .draw] ⊆ ks) (q : Nat) :
    Within ks (entryFetchProg q) := by
  unfold entryFetchProg
  repeat' (first
    | with_reducible exact within_skip ks
    | with_reducible exact within_seqs_nil ks
    | with_reducible refine within_endEntry (List.Subset.trans (by decide) hs) _ _ _ _
    | with_reducible refine within_logEv (List.Subset.trans (by decide) hs) _ _ _ _ _ _
    | with_reducible refine within_setF (List.Subset.trans (by decide) hs) _ _
    | with_reducible refine within_setSq (List.Subset.trans (by decide) hs) _ _
    | with_reducible refine within_syncSq (List.Subset.trans (by decide) hs) _
    | with_reducible refine within_seqs_cons ?_ ?_
    | with_reducible refine within_seq ?_ ?_
    | with_reducible refine within_withS fun _ => ?_
    | with_reducible refine within_onlyIf fun _ => ?_
    | with_reducible refine within_drawFree (kind_mem hs (by decide)) fun _ => ?_
    | split
    | dsimp only)

theorem within_onEntry {ks : List Kind} (hs : [] ⊆ ks) (q acc op : Nat) (k : SqEnt → Prog) (h_k : ∀ x0, Within ks (k x0)) :
    Within ks (onEntry q acc op k) := by
  unfold onEntry
  repeat' (first
    | exact h_k _
    | with_reducible exact within_skip ks
    | with_reducible exact within_seqs_nil ks
    | with_reducible refine within_seqs_cons ?_ ?_
    | with_reducible refine within_seq ?_ ?_
    | with_reducible refine within_withS fun _ => ?_
    | with_reducible refine within_given fun _ => ?_
    | split
    | dsimp only)

theorem within_entryOk {ks : List Kind} (hs : [.reg, .host, .sq, .log, .send, .draw] ⊆ ks) (q : Nat) (e : SqEnt) (work : Prog) (done : Nat) (h_work : Within ks (work)) :
    Within ks (entryOk q e work done) := by
  unfold entryOk
  repeat' (first
    | exact h_work
    | with_reducible exact within_skip ks
    | with_reducible exact within_seqs_nil ks
    | with_reducible refine within_endEntry (List.Subset.trans (by decide) hs) _ _ _ _
    | with_reducible refine within_logStart (List.Subset.trans (by decide) hs) _ _ _ _
    | with_reducible refine within_seqs_cons ?_ ?_
    | with_reducible refine within_seq ?_ ?_
    | with_reducible refine within_withS fun _ => ?_
    | split
    | dsimp only)

theorem within_sqRingProg {ks : List Kind} (hs : [.reg, .host, .core, .sq, .log, .send, .draw] ⊆ ks) (q : Nat) (e : SqEnt) :
    Within ks (sqRingProg q e) := by
  unfold sqRingProg
  repeat' (first
    | with_reducible exact within_skip ks
    | with_reducible exact within_seqs_nil ks
    | with_reducible refine within_endEntry (List.Subset.trans (by decide) hs) _ _ _ _
    | with_reducible refine within_entryOk (List.Subset.trans (by decide) hs) _ _ _ _ ?_
    | with_reducible refine within_ringBy (List.Subset.trans (by decide) hs) _ _
    | with_reducible refine within_seqs_cons ?_ ?_
    | with_reducible refine within_seq ?_ ?_
    | with_reducible refine within_withS fun _ => ?_
    | split
    | dsimp only)

theorem within_sqFlagProg {ks : List Kind} (hs : [.reg, .host, .flag, .strm, .core, .sq, .log, .send, .draw] ⊆ ks) (q : Nat) (e : SqEnt) :
    Within ks (sqFlagProg q e) := by
  unfold sqFlagProg
  repeat' (first
    | with_reducible exact within_skip ks
    | with_reducible exact within_seqs_nil ks
    | with_reducible refine within_endEntry (List.Subset.trans (by decide) hs) _ _ _ _
    | with_reducible refine within_entryOk (List.Subset.trans (by decide) hs) _ _ _ _ ?_
    | with_reducible refine within_flagOp (List.Subset.trans (by decide) hs) _ _ _ _ _
    | with_reducible refine within_seqs_cons ?_ ?_
    | with_reducible refine within_seq ?_ ?_
    | with_reducible refine within_withS fun _ => ?_
    | split
    | dsimp only)

end Sys2Proof.Machine
end

