-- ==== Sys2Proof/Laws/Memory.lean ====
section
/-! SUPPORT. Sparse maps and byte memories: what a read after a write gives, and that every operation keeps the canonical form. -/

namespace Sys2Proof.Machine

variable {α : Type}

/-! Reading a map after a write. -/

theorem nget_nset_self (m : NMap α) (k : Nat) (v : α) : nget (nset m k v) k = some v := by
  induction m with
  | nil => simp [nset, nget]
  | cons e r ih =>
    unfold nset
    split
    · simp [nget]
    · split
      · simp [nget]
      · rename_i h1 h2
        simp [nget, h2, ih]

theorem nget_nset_ne (m : NMap α) {k j : Nat} (v : α) (h : k ≠ j) : nget (nset m k v) j = nget m j := by
  induction m with
  | nil => simp [nset, nget, h]
  | cons e r ih =>
    unfold nset
    split
    · simp [nget, h]
    · split
      · rename_i h1 h2
        have : e.1 ≠ j := fun h3 => h (h2.symm.trans h3)
        simp [nget, h, this]
      · simp only [nget, ih]

@[simp] theorem nget_nset (m : NMap α) (k j : Nat) (v : α) : nget (nset m k v) j = if k = j then some v else nget m j := by
  split
  · subst_vars; exact nget_nset_self _ _ _
  · exact nget_nset_ne _ _ ‹_›

theorem nget_ndel_ne (m : NMap α) {k j : Nat} (h : k ≠ j) : nget (ndel m k) j = nget m j := by
  induction m with
  | nil => rfl
  | cons e r ih =>
    unfold ndel
    split
    · rename_i h1
      have : e.1 ≠ j := fun h3 => h (h1.symm.trans h3)
      simp [nget, this]
    · simp only [nget, ih]

theorem nget_none_of_lt {m : NMap α} {k : Nat} (h : ∀ e ∈ m, k < e.1) : nget m k = none := by
  induction m with
  | nil => rfl
  | cons e r ih =>
    have h1 := h e (List.mem_cons_self ..)
    simp only [nget]
    rw [if_neg (by omega), ih fun x hx => h x (List.mem_cons_of_mem _ hx)]

theorem nget_ndel_self {m : NMap α} (hm : NMap.Rising m) (k : Nat) : nget (ndel m k) k = none := by
  induction m with
  | nil => rfl
  | cons e r ih =>
    obtain ⟨h1, h2⟩ := List.pairwise_cons.mp hm
    unfold ndel
    split
    · rename_i h; exact nget_none_of_lt fun x hx => h ▸ h1 x hx
    · rename_i h; simp only [nget]; rw [if_neg h]; exact ih h2

/-! The canonical form. -/

theorem mem_nset {m : NMap α} {k : Nat} {v : α} {x : Nat × α} (h : x ∈ nset m k v) : x = (k, v) ∨ x ∈ m := by
  induction m with
  | nil => exact .inl (List.mem_singleton.mp h)
  | cons e r ih =>
    unfold nset at h
    split at h
    · rcases List.mem_cons.mp h with h | h
      · exact .inl h
      · exact .inr h
    · split at h
      · rcases List.mem_cons.mp h with h | h
        · exact .inl h
        · exact .inr (List.mem_cons_of_mem _ h)
      · rcases List.mem_cons.mp h with h | h
        · exact .inr (h ▸ List.mem_cons_self ..)
        · rcases ih h with h | h
          · exact .inl h
          · exact .inr (List.mem_cons_of_mem _ h)

theorem mem_ndel {m : NMap α} {k : Nat} {x : Nat × α} (h : x ∈ ndel m k) : x ∈ m := by
  induction m with
  | nil => exact h
  | cons e r ih =>
    unfold ndel at h
    split at h
    · exact List.mem_cons_of_mem _ h
    · rcases List.mem_cons.mp h with h | h
      · exact h ▸ List.mem_cons_self ..
      · exact List.mem_cons_of_mem _ (ih h)

theorem rising_nset {m : NMap α} (hm : NMap.Rising m) (k : Nat) (v : α) : NMap.Rising (nset m k v) := by
  induction m with
  | nil => exact List.pairwise_singleton _ _
  | cons e r ih =>
    obtain ⟨h1, h2⟩ := List.pairwise_cons.mp hm
    unfold nset
    split
    · rename_i h
      refine List.pairwise_cons.mpr ⟨fun x hx => ?_, hm⟩
      rcases List.mem_cons.mp hx with rfl | hx
      · exact h
      · exact Nat.lt_trans h (h1 x hx)
    · split
      · rename_i h' h
        exact List.pairwise_cons.mpr ⟨fun x hx => h ▸ h1 x hx, h2⟩
      · rename_i h' h
        refine List.pairwise_cons.mpr ⟨fun x hx => ?_, ih h2⟩
        rcases mem_nset hx with rfl | hx
        · show e.1 < k; omega
        · exact h1 x hx

theorem rising_ndel {m : NMap α} (hm : NMap.Rising m) (k : Nat) : NMap.Rising (ndel m k) := by
  induction m with
  | nil => exact hm
  | cons e r ih =>
    obtain ⟨h1, h2⟩ := List.pairwise_cons.mp hm
    unfold ndel
    split
    · exact h2
    · exact List.pairwise_cons.mpr ⟨fun x hx => h1 x (mem_ndel hx), ih h2⟩

theorem rising_nput {m : NMap α} (hm : NMap.Rising m) (k : Nat) (v : Option α) : NMap.Rising (nput m k v) := by
  cases v
  · exact rising_ndel hm k
  · exact rising_nset hm k _

theorem rising_filter {m : NMap α} (hm : NMap.Rising m) (p : Nat × α → Bool) : NMap.Rising (m.filter p) := hm.filter p

theorem wf_setByte {m : List Host.Cell} (hm : Memory.wf m) (a : Nat) (b : Byte) : Memory.wf (setByte m a b) := by
  unfold setByte
  split
  · exact ⟨rising_ndel hm.1 a, fun c hc => hm.2 c (mem_ndel hc)⟩
  · rename_i h
    refine ⟨rising_nset hm.1 a b, fun c hc => ?_⟩
    rcases mem_nset hc with rfl | hc
    · exact h
    · exact hm.2 c hc

theorem wf_filter {m : List Host.Cell} (hm : Memory.wf m) (p : Host.Cell → Bool) : Memory.wf (m.filter p) :=
  ⟨hm.1.filter p, fun c hc => hm.2 c (List.mem_filter.mp hc).1⟩

theorem wf_foldl {β : Type} (f : List Host.Cell → β → List Host.Cell) (h : ∀ m b, Memory.wf m → Memory.wf (f m b)) (l : List β)
    {m : List Host.Cell} (hm : Memory.wf m) : Memory.wf (l.foldl f m) := by
  induction l generalizing m with
  | nil => exact hm
  | cons b l ih => exact ih (h m b hm)

theorem wf_keptHbm {s : State} (h : Memory.wf s.mem) : Memory.wf s.keptHbm := by
  refine wf_filter (wf_foldl _ (fun m e hm => ?_) _ h) _
  split
  · exact wf_foldl _ (fun m b hm => wf_setByte hm _ _) _ hm
  · exact hm

/-! Bytes. -/

theorem byteAt_setByte_ne (m : List Host.Cell) {a x : Nat} (b : Byte) (h : a ≠ x) : byteAt (setByte m a b) x = byteAt m x := by
  unfold setByte byteAt
  split
  · rw [nget_ndel_ne _ h]
  · rw [nget_nset_ne _ _ h]

theorem byteAt_setByte_self {m : List Host.Cell} (hm : m.Pairwise fun a b => a.1 < b.1) (a : Nat) (b : Byte) :
    byteAt (setByte m a b) a = b := by
  unfold setByte byteAt
  split
  · rename_i h; rw [nget_ndel_self hm]; exact h.symm
  · rw [nget_nset_self]; rfl

end Sys2Proof.Machine
end

