-- ==== Sys2Proof/Laws/Registers.lean ====
section
/-! SUPPORT. Registers: a field reads what was written to it when its table gives it all its bits, and a write of one field leaves every
other as it was. -/

namespace Sys2Proof.Machine

/-- A field of at most one word that its register table holds whole. -/
def Fld.live (f : Fld) : Bool :=
  decide (f.w ≤ 32) && decide (f.lo + f.w ≤ 32) && (wordMask f.off).toNat / 2 ^ f.lo % 2 ^ f.w == 2 ^ f.w - 1

/-- Two fields that share no bit: other words, or other bits of one word. -/
def Fld.apart (f g : Fld) : Prop :=
  f.w ≤ 32 ∧ g.w ≤ 32 ∧ (f.off ≠ g.off ∨ (f.lo + f.w ≤ g.lo ∨ g.lo + g.w ≤ f.lo) ∧ g.live = true)

theorem testBit_bits (v lo w i : Nat) : (bits v lo w).testBit i = (decide (i < w) && v.testBit (lo + i)) := by
  unfold bits
  rw [Nat.testBit_mod_two_pow, Nat.testBit_div_two_pow]
  rw [Nat.add_comm]

theorem live_testBit {f : Fld} (h : f.live = true) {i : Nat} (hi : i < f.w) : (wordMask f.off).toNat.testBit (f.lo + i) = true := by
  simp only [Fld.live, Bool.and_eq_true, decide_eq_true_eq, beq_iff_eq] at h
  have h2 : bits (wordMask f.off).toNat f.lo f.w = 2 ^ f.w - 1 := h.2
  have h3 := testBit_bits (wordMask f.off).toNat f.lo f.w i
  rw [h2, Nat.testBit_two_pow_sub_one] at h3
  simpa [hi] using h3.symm

theorem live_le {f : Fld} (h : f.live = true) : f.w ≤ 32 ∧ f.lo + f.w ≤ 32 := by
  simp only [Fld.live, Bool.and_eq_true, decide_eq_true_eq] at h
  exact h.1

theorem testBit_putBits (w : Word) (lo n v i : Nat) (h : lo + n ≤ 32) (hi : i < 32) :
    (putBits w lo n v).toNat.testBit i = if lo ≤ i ∧ i < lo + n then v.testBit (i - lo) else w.toNat.testBit i := by
  have hm : ∀ j, (2 ^ n - 1).testBit j = decide (j < n) := fun j => Nat.testBit_two_pow_sub_one ..
  simp only [putBits, ← BitVec.getLsbD.eq_def, BitVec.getLsbD_or, BitVec.getLsbD_and, BitVec.getLsbD_not, BitVec.getLsbD_shiftLeft,
    BitVec.getLsbD_ofNat, hm, hi]
  by_cases h1 : lo ≤ i
  · by_cases h2 : i < lo + n
    · have h3 : i - lo < n := by omega
      have h4 : ¬ i < lo := by omega
      have h5 : i - lo < 32 := by omega
      simp [h1, h2, h3, h4, h5]
    · have h3 : ¬ i - lo < n := by omega
      have h4 : ¬ i < lo := by omega
      simp [h1, h2, h3, h4]
  · have h4 : i < lo := by omega
    simp [h1, h4]

/-! Words. -/

theorem word_reg (s : State) (off o : Nat) (v : Word) : ((Eff.reg off v).apply s).word o = if off = o then v &&& wordMask off else s.word o := by
  simp only [State.word, apply_ctl, nget_nset]
  split <;> simp

/-- The words of two states are the same, so are their fields. -/
theorem fld_congr {s t : State} {f : Fld} (h : t.word f.off = s.word f.off) (h4 : f.w = 64 → t.word (f.off + 4) = s.word (f.off + 4)) :
    t.fld f = s.fld f := by
  unfold State.fld
  split
  · rw [h, h4 ‹_›]
  · rw [h]

theorem fld_ctl {s t : State} (h : t.ctl = s.ctl) (f : Fld) : t.fld f = s.fld f :=
  fld_congr (by simp only [State.word, h]) fun _ => by simp only [State.word, h]

/-- A field of at most 32 bits is the bits of its word. -/
theorem fld_eq {f : Fld} (h : f.w ≤ 32) (s : State) : s.fld f = bits (s.word f.off).toNat f.lo f.w := by
  unfold State.fld; rw [if_neg (by omega)]

theorem fld_lt (f : Fld) (s : State) (h : f.w ≤ 32) : s.fld f < 2 ^ f.w := by
  rw [fld_eq h]; exact Nat.mod_lt _ (Nat.two_pow_pos _)

/-! Writing a field. -/

theorem run_setF {f : Fld} (h : f.w ≤ 32) (v : Nat) (s : State) :
    run (setF f v) s = (Eff.reg f.off (putBits (s.word f.off) f.lo f.w v)).apply s := by
  unfold run setF; rw [if_neg (by omega)]; rfl

/-- A field reads what was written to it. -/
theorem fld_setF {f : Fld} (h : f.live = true) (v : Nat) (s : State) : (run (setF f v) s).fld f = v % 2 ^ f.w := by
  obtain ⟨h1, h2⟩ := live_le h
  rw [run_setF h1, fld_eq h1, word_reg, if_pos rfl]
  refine Nat.eq_of_testBit_eq fun i => ?_
  rw [testBit_bits, Nat.testBit_mod_two_pow]
  by_cases hi : i < f.w
  · have h4 := testBit_putBits (s.word f.off) f.lo f.w v (f.lo + i) h2 (by omega)
    rw [if_pos (by omega)] at h4
    simp only [hi, decide_true, Bool.true_and]
    rw [BitVec.toNat_and, Nat.testBit_and, live_testBit h hi, h4, Bool.and_true]
    congr 1; omega
  · simp [hi]

/-- A write of one field leaves every field that shares no bit with it. -/
theorem fld_setF_apart {f g : Fld} (h : f.apart g) (v : Nat) (s : State) (hf : f.lo + f.w ≤ 32) :
    (run (setF f v) s).fld g = s.fld g := by
  obtain ⟨h1, h2, h3⟩ := h
  rw [run_setF h1]
  by_cases ho : f.off = g.off
  · rcases h3 with h3 | ⟨h3, h4⟩
    · exact absurd ho h3
    · obtain ⟨_, h5⟩ := live_le h4
      rw [fld_eq h2, fld_eq h2, word_reg, if_pos ho]
      refine Nat.eq_of_testBit_eq fun i => ?_
      rw [testBit_bits, testBit_bits]
      by_cases hi : i < g.w
      · simp only [hi, decide_true, Bool.true_and]
        rw [BitVec.toNat_and, Nat.testBit_and, ho, live_testBit h4 hi, Bool.and_true,
          testBit_putBits _ _ _ _ _ hf (by omega), if_neg (by omega)]
      · simp [hi]
  · exact fld_congr (by rw [word_reg, if_neg ho]) fun h => by omega

/-- A write of one field leaves every other word. -/
theorem word_setF_ne {f : Fld} (h : f.w ≤ 32) (v : Nat) (s : State) {o : Nat} (ho : f.off ≠ o) : (run (setF f v) s).word o = s.word o := by
  rw [run_setF h, word_reg, if_neg ho]

/-! Reserved bits. -/

/-- A word that reset gives has no bit outside the fields of its table. -/
theorem resetWord_masked (off : Nat) : resetWord off &&& wordMask off = resetWord off := by
  unfold resetWord wordMask maskOf wordRows
  cases blockOf off with
  | none => simp
  | some b =>
    obtain ⟨k, base⟩ := b
    dsimp only
    rw [List.filter_eq_self.mpr fun _ _ => rfl]
    have one : ∀ r : RegRow, ∀ v : Nat, (BitVec.ofNat 32 (v % 2 ^ r.w) <<< r.lo : Word) &&& (BitVec.ofNat 32 (2 ^ r.w - 1) <<< r.lo) =
        BitVec.ofNat 32 (v % 2 ^ r.w) <<< r.lo := by
      intro r v
      apply BitVec.eq_of_getLsbD_eq
      intro i hi
      simp only [BitVec.getLsbD_and, BitVec.getLsbD_shiftLeft, BitVec.getLsbD_ofNat, Nat.testBit_two_pow_sub_one, Nat.testBit_mod_two_pow]
      by_cases h : i - r.lo < r.w
      · simp [h, show i - r.lo < 32 by omega]; intro h1 h2 _; exact ⟨h1, h2⟩
      · simp [h]
    have go : ∀ (l : List RegRow) (a m : Word), a &&& m = a →
        l.foldl (fun w r => w ||| (BitVec.ofNat 32 (r.resetVal k base (off - base) % 2 ^ r.w) <<< r.lo)) a &&&
          l.foldl (fun w r => w ||| (BitVec.ofNat 32 (2 ^ r.w - 1) <<< r.lo)) m =
        l.foldl (fun w r => w ||| (BitVec.ofNat 32 (r.resetVal k base (off - base) % 2 ^ r.w) <<< r.lo)) a := by
      intro l
      induction l with
      | nil => exact fun a m h => h
      | cons r l ih =>
        intro a m h
        refine ih _ _ ?_
        have h1 := one r (r.resetVal k base (off - base))
        apply BitVec.eq_of_getLsbD_eq
        intro i hi
        have h2 := congrArg (·.getLsbD i) h
        have h3 := congrArg (·.getLsbD i) h1
        simp only [BitVec.getLsbD_and, BitVec.getLsbD_or] at h2 h3 ⊢
        revert h2 h3
        cases a.getLsbD i <;> cases m.getLsbD i <;>
          cases (BitVec.ofNat 32 (r.resetVal k base (off - base) % 2 ^ r.w) <<< r.lo : Word).getLsbD i <;>
          cases (BitVec.ofNat 32 (2 ^ r.w - 1) <<< r.lo : Word).getLsbD i <;> simp
    exact go _ 0 0 (by simp)

/-! Which fields are live, told by their block alone. -/

/-- A field at `o` of a block of kind `k`. -/
def liveAt (k : BlockKind) (o lo w : Nat) : Bool :=
  decide (w ≤ 32) && decide (lo + w ≤ 32) &&
  (((blockRows k).filter (·.covers o)).foldl (fun m r => m ||| (BitVec.ofNat 32 (2 ^ r.w - 1) <<< r.lo)) (0 : Word)).toNat / 2 ^ lo % 2 ^ w
    == 2 ^ w - 1

theorem live_of_block {f : Fld} {k : BlockKind} {base : Nat} (h : blockOf f.off = some (k, base))
    (hl : liveAt k (f.off - base) f.lo f.w = true) : f.live = true := by
  have : (wordRows f.off).filter (fun _ => true) = (blockRows k).filter (·.covers (f.off - base)) := by
    rw [List.filter_eq_self.mpr fun _ _ => rfl]; unfold wordRows; rw [h]
  unfold Fld.live wordMask maskOf
  rw [this]
  exact hl

/-- The block map entry an offset lies in. -/
def inEntry (off : Nat) (b : Nat × Nat × Nat × BlockKind) : Bool := b.1 ≤ off && (off - b.1) / b.2.1 < b.2.2.1

theorem blockMap_disjoint : blockMap.Pairwise fun a b => 0 < a.2.1 ∧ 0 < b.2.1 ∧ a.1 + a.2.1 * a.2.2.1 ≤ b.1 := by decide

theorem blockOf_entry {off : Nat} {b : Nat × Nat × Nat × BlockKind} (hb : b ∈ blockMap) (hi : inEntry off b = true) (hl : off < 0x1000000) :
    blockOf off = some (b.2.2.2, b.1 + (off - b.1) / b.2.1 * b.2.1) := by
  have go : ∀ (l : List (Nat × Nat × Nat × BlockKind)), l.Pairwise (fun a b => 0 < a.2.1 ∧ 0 < b.2.1 ∧ a.1 + a.2.1 * a.2.2.1 ≤ b.1) →
      b ∈ l → l.findSome? (fun b => if b.1 ≤ off && (off - b.1) / b.2.1 < b.2.2.1 then
        some (b.2.2.2, b.1 + (off - b.1) / b.2.1 * b.2.1) else none) = some (b.2.2.2, b.1 + (off - b.1) / b.2.1 * b.2.1) := by
    intro l
    induction l with
    | nil => intro _ h; cases h
    | cons a l ih =>
      intro hp hm
      obtain ⟨h1, h2⟩ := List.pairwise_cons.mp hp
      rcases List.mem_cons.mp hm with rfl | hm
      · unfold inEntry at hi
        rw [List.findSome?_cons, if_pos hi]
      · obtain ⟨ha, hb, hab⟩ := h1 b hm
        have hn : ¬ ((decide (a.1 ≤ off) && decide ((off - a.1) / a.2.1 < a.2.2.1)) = true) := by
          intro hc
          simp only [Bool.and_eq_true, decide_eq_true_eq] at hc
          simp only [inEntry, Bool.and_eq_true, decide_eq_true_eq] at hi
          have := (Nat.div_lt_iff_lt_mul ha).mp hc.2
          rw [Nat.mul_comm] at this
          omega
        rw [List.findSome?_cons, if_neg hn]
        exact ih h2 hm
  unfold blockOf
  rw [if_pos hl]
  exact go _ blockMap_disjoint hb

theorem blockOf_core {n o : Nat} (hn : n < 256) (ho : o < 0x4000) :
    blockOf (coreBase n + o) = some (coreBlockKind (o / 0x1000), coreBase n + o / 0x1000 * 0x1000) := by
  unfold blockOf coreBase
  rw [if_neg (by omega), if_pos (by omega)]
  have h1 : (0x1000000 + n * 0x4000 + o) / 0x1000 % 4 = o / 0x1000 := by omega
  have h2 : (0x1000000 + n * 0x4000 + o) / 0x1000 * 0x1000 = 0x1000000 + n * 0x4000 + o / 0x1000 * 0x1000 := by omega
  rw [h1, h2]

/-- A field of a block of the map: block `i` of an entry, offset `o` in it. -/
theorem live_entry {f : Fld} {b : Nat × Nat × Nat × BlockKind} (hb : b ∈ blockMap) (i o lo w : Nat) (hlo : f.lo = lo) (hw : f.w = w) (hi : i < b.2.2.1) (ho : o < b.2.1)
    (hf : f.off = b.1 + i * b.2.1 + o) (hl : f.off < 0x1000000) (hv : liveAt b.2.2.2 o lo w = true) : f.live = true := by
  subst hlo hw
  have hd : (f.off - b.1) / b.2.1 = i := by
    rw [hf, Nat.add_assoc, Nat.add_sub_cancel_left, Nat.mul_comm, Nat.mul_add_div (by omega), Nat.div_eq_of_lt ho, Nat.add_zero]
  have he : inEntry f.off b = true := by
    simp only [inEntry, Bool.and_eq_true, decide_eq_true_eq]
    exact ⟨by rw [hf, Nat.add_assoc]; exact Nat.le_add_right _ _, by rw [hd]; exact hi⟩
  refine live_of_block (blockOf_entry hb he hl) ?_
  rw [hd, hf, Nat.add_sub_cancel_left]
  exact hv

/-- A field of the CORE_, ARR_ or DRN_ block of core `n`. -/
theorem live_core {f : Fld} {n : Nat} (o lo w : Nat) (hlo : f.lo = lo) (hw : f.w = w) (hn : n < 256) (ho : o < 0x4000) (hf : f.off = coreBase n + o)
    (hv : liveAt (coreBlockKind (o / 0x1000)) (o % 0x1000) lo w = true) : f.live = true := by
  subst hlo hw
  refine live_of_block (hf ▸ blockOf_core hn ho) ?_
  have : f.off - (coreBase n + o / 0x1000 * 0x1000) = o % 0x1000 := by rw [hf]; omega
  rw [this]; exact hv

end Sys2Proof.Machine
end

