-- ==== Sys2Proof/Laws/Ends.lean ====
section
/-! SUPPORT. How a command ends: END is the newest event of the Ledger after every way a command ends, and what an end leaves. -/

namespace Sys2Proof.Machine

/-- A program of no Ledger effect keeps the newest event. -/
theorem EndedNow.keep {src : Src} {acc : Nat} {st : Status} {p : Prog} {s : State} {ks : List Kind} (hp : Within ks p)
    (hk : Kind.log ∉ ks) (hr : Kind.restart ∉ ks) (h : EndedNow s src acc st) : EndedNow (run p s) src acc st := by
  have hl : (run p s).ledger = s.ledger := (changesOnly_of_within hp hr s) .log hk
  unfold EndedNow at h ⊢
  rw [hl]; exact h

/-- The event appended is the newest, with the next SEQ. -/
theorem push_head (l : Ledger) (e : Ev) : (l.push e).events.head? = some { e with seq := l.next } := by
  unfold Ledger.push
  dsimp only
  rw [List.head?_take, if_neg (by decide)]
  rfl

/-- An END event is the newest once it is appended. -/
theorem endedNow_log (src : Src) (acc : Nat) (st : Status) (tag : Nat) (inj sk : Bool) (j : Nat) (r : Option (Nat × Nat)) (s : State) :
    EndedNow (run (logEv src acc st tag inj (.fin sk j r)) s) src acc st := by
  unfold logEv
  rw [run_seqs_cons]
  refine EndedNow.keep (ks := [.reg]) ?_ (by decide) (by decide) ?_
  · exact within_seqs_cons (fun s e he => within_setF (List.Subset.refl _) _ _ s e he)
      (within_seqs_cons (fun s e he => within_setF (List.Subset.refl _) _ _ s e he) (within_seqs_nil _))
  · have h : (run (fun s => [.log ⟨0, s.boot, src, acc, st, tag, inj, s.tainted (src, acc), .fin sk j r⟩]) s).ledger =
        s.ledger.push ⟨0, s.boot, src, acc, st, tag, inj, s.tainted (src, acc), .fin sk j r⟩ := rfl
    unfold EndedNow
    rw [h, push_head]
    exact ⟨_, rfl, rfl, rfl, rfl, sk, j, r, rfl⟩

/-- A stream command that ends has just ended (02 R45, 16 R448). -/
theorem endedNow_endCmd (sid : Nat) (c : Cmd) (st : Status) (sk : Bool) (s : State) :
    EndedNow (run (endCmd sid c st sk) s) (.stream sid) c.acc st := by
  unfold endCmd
  rw [run_withS]
  dsimp only
  split
  · subst_vars
    simp only [run_seqs_cons, run_seqs_nil]
    refine EndedNow.keep (ks := [.reg, .send]) ?_ (by decide) (by decide) (EndedNow.keep (ks := [.reg, .strm, .core, .line, .send, .draw])
      (within_settle (List.Subset.refl _) _) (by decide) (by decide) (endedNow_log ..))
    exact within_onlyIf fun _ => within_withS fun _ => within_sendIrq (List.Subset.refl _) _
  · simp only [run_seqs_cons, run_seqs_nil]
    refine EndedNow.keep (ks := [.reg, .send]) ?_ (by decide) (by decide) (EndedNow.keep (ks := [.reg, .strm, .core, .line, .send, .draw])
      (within_settle (List.Subset.refl _) _) (by decide) (by decide) (endedNow_log ..))
    exact within_withS fun _ => within_sendIrq (List.Subset.refl _) _

/-- A mailbox command that ends has just ended (13 R381). -/
theorem endedNow_finishMb (m acc tag : Nat) (st : Status) (reply : List Byte) (s : State) :
    EndedNow (run (finishMb m acc tag st reply) s) (.mailbox m) acc st := by
  unfold finishMb
  rw [run_seqs_cons, run_seqs_cons, run_seqs_cons, run_seqs_cons, run_seqs_cons, run_seqs_cons, run_seqs_nil]
  refine EndedNow.keep (ks := [.reg, .send]) ?_ (by decide) (by decide) (endedNow_log ..)
  exact within_withS fun _ => within_onlyIf fun _ => within_sendIrq (List.Subset.refl _) _

/-- A queue entry that ends has just ended (13 R391). -/
theorem endedNow_endEntry (q : Nat) (e : SqEnt) (st : Status) (done : Nat) (s : State) :
    EndedNow (run (endEntry q e st done) s) (.queue q) e.acc st := by
  unfold endEntry
  rw [run_seqs_cons, run_seqs_cons, run_seqs_cons, run_seqs_cons, run_seqs_cons, run_seqs_cons, run_seqs_nil]
  refine EndedNow.keep (ks := [.reg, .sq, .draw]) (within_settleSq (by decide) _) (by decide) (by decide) ?_
  refine EndedNow.keep (ks := [.reg, .send]) (within_onlyIf fun _ => within_withS fun _ => within_sendIrq (List.Subset.refl _) _) (by decide) (by decide) ?_
  refine EndedNow.keep (ks := [.reg, .host, .sq, .draw]) (within_writeCompletion (by decide) _ _ _ _) (by decide) (by decide) ?_
  rw [run_withS]
  exact endedNow_log ..

end Sys2Proof.Machine
end

