-- ==== Sys2Proof/Laws/Live.lean ====
section
/-! SUPPORT. Every named field of at most one word is held whole by its register table, for the numbers its table gives it: a write of it reads
back (`fld_setF`). -/

namespace Sys2Proof.Machine

set_option Elab.async false

/-- A stream's register is live when every block that holds a stream's registers gives it its bits. -/
theorem live_strm {f : Fld} {sid : Nat} (o lo w : Nat) (hlo : f.lo = lo) (hw : f.w = w) (hs : sid < 1088) (ho : o < 0x40) (hf : f.off = strmBase sid + o)
    (h0 : ∀ q < 4, liveAt .core (0x100 + q * 0x40 + o) lo w = true) (h1 : liveAt .curStrm o lo w = true)
    (h2 : liveAt .colStrm o lo w = true) (h3 : liveAt .btr o lo w = true) (h4 : liveAt .prsStrm o lo w = true)
    (h5 : liveAt .dmaStrm o lo w = true) : f.live = true := by
  subst hlo hw
  unfold strmBase at hf
  split at hf
  · have hq := h0 (sid % 4) (by omega)
    refine live_core (n := sid / 4) (0x100 + sid % 4 * 0x40 + o) _ _ rfl rfl (by omega) (by omega) (by omega) ?_
    have h6 : (0x100 + sid % 4 * 0x40 + o) / 0x1000 = 0 := by omega
    have h7 : (0x100 + sid % 4 * 0x40 + o) % 0x1000 = 0x100 + sid % 4 * 0x40 + o := by omega
    rw [h6, h7]; exact hq
  · split at hf
    · exact live_entry (b := (0x21000, 0x1000, 16, .curStrm)) (by decide) (sid - 1024) o _ _ rfl rfl (by dsimp; omega) (by dsimp; omega) (by dsimp; omega) (by omega) h1
    · split at hf
      · exact live_entry (b := (0x42000, 0x1000, 16, .colStrm)) (by decide) (sid - 1040) o _ _ rfl rfl (by dsimp; omega) (by dsimp; omega) (by dsimp; omega) (by omega) h2
      · split at hf
        · unfold btrBase dieBase at hf
          by_cases h : sid - 1056 < 4
          · exact live_entry (b := (0x108000, 0x1000, 4, .btr)) (by decide) (sid - 1056) o _ _ rfl rfl (by dsimp; omega) (by dsimp; omega) (by dsimp; omega) (by omega) h3
          · exact live_entry (b := (0x208000, 0x1000, 4, .btr)) (by decide) (sid - 1060) o _ _ rfl rfl (by dsimp; omega) (by dsimp; omega) (by dsimp; omega) (by omega) h3
        · split at hf
          · unfold dieBase at hf
            by_cases h : sid - 1064 < 4
            · exact live_entry (b := (0x111000, 0x1000, 4, .prsStrm)) (by decide) (sid - 1064) o _ _ rfl rfl (by dsimp; omega) (by dsimp; omega) (by dsimp; omega) (by omega) h4
            · exact live_entry (b := (0x211000, 0x1000, 4, .prsStrm)) (by decide) (sid - 1068) o _ _ rfl rfl (by dsimp; omega) (by dsimp; omega) (by dsimp; omega) (by omega) h4
          · exact live_entry (b := (0xC0000, 0x1000, 16, .dmaStrm)) (by decide) (sid - 1072) o _ _ rfl rfl (by dsimp; omega) (by dsimp; omega) (by dsimp; omega) (by omega) h5

theorem live_strmTail {sid : Nat} (hs : sid < 1088) : (Reg.strmTail sid).live = true :=
  live_strm 0xc 0 16 rfl rfl hs (by decide) rfl (by decide +kernel) (by decide +kernel) (by decide +kernel) (by decide +kernel) (by decide +kernel) (by decide +kernel)

theorem live_strmHead {sid : Nat} (hs : sid < 1088) : (Reg.strmHead sid).live = true :=
  live_strm 0x10 0 16 rfl rfl hs (by decide) rfl (by decide +kernel) (by decide +kernel) (by decide +kernel) (by decide +kernel) (by decide +kernel) (by decide +kernel)

theorem live_strmEnable {sid : Nat} (hs : sid < 1088) : (Reg.strmEnable sid).live = true :=
  live_strm 0x14 0 1 rfl rfl hs (by decide) rfl (by decide +kernel) (by decide +kernel) (by decide +kernel) (by decide +kernel) (by decide +kernel) (by decide +kernel)

theorem live_strmState {sid : Nat} (hs : sid < 1088) : (Reg.strmState sid).live = true :=
  live_strm 0x18 0 3 rfl rfl hs (by decide) rfl (by decide +kernel) (by decide +kernel) (by decide +kernel) (by decide +kernel) (by decide +kernel) (by decide +kernel)

theorem live_strmLastStatus {sid : Nat} (hs : sid < 1088) : (Reg.strmLastStatus sid).live = true :=
  live_strm 0x18 16 16 rfl rfl hs (by decide) rfl (by decide +kernel) (by decide +kernel) (by decide +kernel) (by decide +kernel) (by decide +kernel) (by decide +kernel)

theorem live_strmAccNextLo {sid : Nat} (hs : sid < 1088) : (Reg.strmAccNextLo sid).live = true :=
  live_strm 0x24 0 32 rfl rfl hs (by decide) rfl (by decide +kernel) (by decide +kernel) (by decide +kernel) (by decide +kernel) (by decide +kernel) (by decide +kernel)

theorem live_strmAccNextHi {sid : Nat} (hs : sid < 1088) : (Reg.strmAccNextHi sid).live = true :=
  live_strm 0x28 0 16 rfl rfl hs (by decide) rfl (by decide +kernel) (by decide +kernel) (by decide +kernel) (by decide +kernel) (by decide +kernel) (by decide +kernel)

theorem live_strmLate {sid : Nat} (hs : sid < 1088) : (Reg.strmLate sid).live = true :=
  live_strm 0x30 0 32 rfl rfl hs (by decide) rfl (by decide +kernel) (by decide +kernel) (by decide +kernel) (by decide +kernel) (by decide +kernel) (by decide +kernel)

theorem live_strmWaitTimeouts {sid : Nat} (hs : sid < 1088) : (Reg.strmWaitTimeouts sid).live = true :=
  live_strm 0x34 0 32 rfl rfl hs (by decide) rfl (by decide +kernel) (by decide +kernel) (by decide +kernel) (by decide +kernel) (by decide +kernel) (by decide +kernel)

theorem live_coreTaskOpen {n : Nat} (hn : n < 256) : (Reg.coreTaskOpen n).live = true :=
  live_core 0x208 0 1 rfl rfl hn (by decide) rfl (by decide +kernel)

theorem live_coreTaskMaskLo {n : Nat} (hn : n < 256) : (Reg.coreTaskMaskLo n).live = true :=
  live_core 0x20c 0 32 rfl rfl hn (by decide) rfl (by decide +kernel)

theorem live_coreTaskMaskHi {n : Nat} (hn : n < 256) : (Reg.coreTaskMaskHi n).live = true :=
  live_core 0x210 0 16 rfl rfl hn (by decide) rfl (by decide +kernel)

theorem live_coreFlagFault {n : Nat} (hn : n < 256) : (Reg.coreFlagFault n).live = true :=
  live_core 0x214 0 1 rfl rfl hn (by decide) rfl (by decide +kernel)

theorem live_coreFlagResidueHi {n : Nat} (hn : n < 256) : (Reg.coreFlagResidueHi n).live = true :=
  live_core 0x218 0 16 rfl rfl hn (by decide) rfl (by decide +kernel)

theorem live_coreFlagResidueLo {n : Nat} (hn : n < 256) : (Reg.coreFlagResidueLo n).live = true :=
  live_core 0x21c 0 32 rfl rfl hn (by decide) rfl (by decide +kernel)

theorem live_rgsBarGen : ∀ c < 8, (Reg.rgsBarGen c).live = true := by decide +kernel

theorem live_rgsBarArrived : ∀ c < 8, (Reg.rgsBarArrived c).live = true := by decide +kernel

theorem live_rgsBarRefused : ∀ c < 8, (Reg.rgsBarRefused c).live = true := by decide +kernel

theorem live_curXchgLate : Reg.curXchgLate.live = true := by decide +kernel

theorem live_vltCohLate : ∀ d < 2, (Reg.vltCohLate d).live = true := by decide +kernel

theorem live_colGrpLate {g : Nat} (hg : g < 64) : (Reg.colGrpLate g).live = true := by
  have h : ∀ g < 64, liveAt .grp (g * 0x40 + 0x2c) 0 32 = true := by decide +kernel
  exact live_entry (b := (0x41000, 0x1000, 1, .grp)) (by decide) 0 (g * 0x40 + 0x2c) 0 32 rfl rfl (by decide) (by dsimp; omega) (by simp only [Reg.colGrpLate] <;> omega) (by simp only [Reg.colGrpLate] <;> omega) (h g hg)

theorem live_chnLate : Reg.chnLate.live = true := by decide +kernel

theorem live_chnOrderLate : Reg.chnOrderLate.live = true := by decide +kernel

theorem live_chnLiveLate : Reg.chnLiveLate.live = true := by decide +kernel

end Sys2Proof.Machine
end

