-- ==== Sys2Proof/Laws/Words.lean ====
section
/-! SUPPORT. Which register words a program writes: every other word of the control space stays as it was. -/

namespace Sys2Proof.Machine

/-- Every register word a program writes satisfies `P`, and it powers nothing up. -/
def WritesWords (P : Nat → Prop) (p : Prog) : Prop := ∀ s, ∀ e ∈ p s,
  match e with
  | .reg o _ => P o
  | .regReset o => P o
  | .restart _ => False
  | .cold => False
  | _ => True

variable {P : Nat → Prop}

theorem word_of_writes {p : Prog} (h : WritesWords P p) (s : State) {o : Nat} (ho : ¬ P o) : (run p s).word o = s.word o := by
  have go : ∀ (l : List Eff) (s : State), (∀ e ∈ l, match e with
      | .reg o _ => P o
      | .regReset o => P o
      | .restart _ => False
      | .cold => False
      | _ => True) → (applyAll l s).word o = s.word o := by
    intro l
    induction l with
    | nil => intro s _; rfl
    | cons e l ih =>
      intro s hl
      rw [applyAll_cons, ih _ fun x hx => hl x (List.mem_cons_of_mem _ hx)]
      have he := hl e (List.mem_cons_self ..)
      cases e <;> first
        | rfl
        | exact absurd he id
        | (simp only at he
           rw [word_reg, if_neg fun h => ho (h ▸ he)])
        | (simp only at he
           have hne : ¬ _ = o := fun h => ho (h ▸ he)
           simp only [State.word, apply_ctl, nget_nset_ne _ _ hne, nget_ndel_ne _ hne])
  exact go _ s (h s)

theorem fld_of_writes {p : Prog} (h : WritesWords P p) (s : State) {f : Fld} (hw : f.w ≤ 32) (ho : ¬ P f.off) : (run p s).fld f = s.fld f :=
  fld_congr (word_of_writes h s ho) fun h => by omega

theorem WritesWords.mono {Q : Nat → Prop} {p : Prog} (h : WritesWords P p) (hq : ∀ o, P o → Q o) : WritesWords Q p := by
  intro s e he
  have := h s e he
  cases e <;> first | exact hq _ this | exact this

theorem writes_of_within {ks : List Kind} {p : Prog} (h : Within ks p) (h1 : Kind.reg ∉ ks) (h2 : Kind.restart ∉ ks) : WritesWords P p := by
  intro s e he
  have := h s e he
  cases e <;> first | trivial | exact absurd this h1 | exact absurd this h2

theorem writes_skip : WritesWords P skip := by intro s e he; cases he

theorem writes_setF {f : Fld} (v : Nat) (hw : f.w ≤ 32) (h : P f.off) : WritesWords P (setF f v) := by
  intro s e he
  unfold setF at he
  rw [if_neg (by omega)] at he
  rw [List.mem_singleton.mp he]
  exact h

theorem writes_incF {f : Fld} (k : Nat) (hw : f.w ≤ 32) (h : P f.off) : WritesWords P (incF f k) := by
  intro s e he
  unfold incF at he
  dsimp only at he
  split at he
  · cases he
  · split at he
    · exact writes_setF _ hw h s e he
    · rcases List.mem_append.mp he with he | he
      · exact writes_setF _ hw h s e he
      · rw [List.mem_singleton.mp he]; trivial

theorem writes_seq {p q : Prog} (hp : WritesWords P p) (hq : WritesWords P q) : WritesWords P (seq p q) := by
  intro s e he
  rcases List.mem_append.mp he with h | h
  · exact hp s e h
  · exact hq _ e h

theorem writes_seqs_nil : WritesWords P (seqs []) := writes_skip

theorem writes_seqs_cons {p : Prog} {l : List Prog} (hp : WritesWords P p) (hl : WritesWords P (seqs l)) : WritesWords P (seqs (p :: l)) :=
  writes_seq hp hl

theorem writes_withS {k : State → Prog} (h : ∀ s, WritesWords P (k s)) : WritesWords P (withS k) := fun s e he => h s s e he

theorem writes_onlyIf {c : Bool} {p : Prog} (h : c = true → WritesWords P p) : WritesWords P (onlyIf c p) := by
  cases c
  · exact writes_skip
  · exact h rfl

theorem writes_ite {c : Prop} [Decidable c] {p q : Prog} (hp : c → WritesWords P p) (hq : ¬ c → WritesWords P q) :
    WritesWords P (if c then p else q) := by 
  split
  · exact hp ‹_›
  · exact hq ‹_›

theorem writes_given {α : Type} {o : Option α} {f : α → Prog} (h : ∀ x, o = some x → WritesWords P (f x)) : WritesWords P (given o f) := by
  cases o
  · exact writes_skip
  · exact h _ rfl

theorem writes_forEach {α : Type} {l : List α} {f : α → Prog} (h : ∀ x ∈ l, WritesWords P (f x)) : WritesWords P (forEach l f) := by
  induction l with
  | nil => exact writes_skip
  | cons x l ih => exact writes_seq (h x (List.mem_cons_self ..)) (ih fun y hy => h y (List.mem_cons_of_mem _ hy))

theorem writes_emit {l : List Eff} (h : ∀ e ∈ l, match e with
    | .reg o _ => P o
    | .regReset o => P o
    | .restart _ => False
    | .cold => False
    | _ => True) : WritesWords P (emit l) := fun _ e he => h e he

theorem writes_drawFree {k : Nat → Prog} (h : ∀ n, WritesWords P (k n)) : WritesWords P (drawFree k) := by
  intro s e he
  rcases List.mem_cons.mp he with rfl | h'
  · trivial
  · exact h _ _ e h'

/-! Event counters. -/

/-- An event counter that does not pass its width grows by what is counted. -/
theorem fld_incF {f : Fld} (h : f.live = true) {k : Nat} {s : State} (hk : s.fld f + k < 2 ^ f.w) : (run (incF f k) s).fld f = s.fld f + k := by
  unfold run incF
  dsimp only
  split
  · subst_vars; simp
  · show (run (setF f (s.fld f + k)) s).fld f = _
    rw [fld_setF h, Nat.mod_eq_of_lt hk]
  
end Sys2Proof.Machine
end

