-- ==== Sys2Proof/Laws/Parts.lean ====
section
/-! SUPPORT. What a program leaves of the parts its effects do not reach, read by read. -/

namespace Sys2Proof.Machine

variable {ks : List Kind} {p : Prog}

theorem flagAt_keep (hp : Within ks p) (s : State) (n f : Nat) (hk : Kind.flag ∉ ks := by decide) (hr : Kind.restart ∉ ks := by decide) :
    (run p s).flagAt n f = s.flagAt n f := by
  have h : (run p s).flags = s.flags := changesOnly_of_within hp hr s .flag hk
  unfold State.flagAt; rw [h]

theorem strm_keep (hp : Within ks p) (s : State) (sid : Nat) (hk : Kind.strm ∉ ks := by decide) (hr : Kind.restart ∉ ks := by decide) :
    (run p s).strm sid = s.strm sid := by
  have h : (run p s).strms = s.strms := changesOnly_of_within hp hr s .strm hk
  unfold State.strm; rw [h]

theorem core_keep (hp : Within ks p) (s : State) (n : Nat) (hk : Kind.core ∉ ks := by decide) (hr : Kind.restart ∉ ks := by decide) :
    (run p s).core n = s.core n := by
  have h : (run p s).cores = s.cores := changesOnly_of_within hp hr s .core hk
  unfold State.core; rw [h]

theorem bar_keep (hp : Within ks p) (s : State) (c : Nat) (hk : Kind.bar ∉ ks := by decide) (hr : Kind.restart ∉ ks := by decide) :
    (run p s).bar c = s.bar c := by
  have h : (run p s).bars = s.bars := changesOnly_of_within hp hr s .bar hk
  unfold State.bar; rw [h]

theorem vault_keep (hp : Within ks p) (s : State) (d : Nat) (hk : Kind.vault ∉ ks := by decide) (hr : Kind.restart ∉ ks := by decide) :
    (run p s).vault d = s.vault d := by
  have h : (run p s).vaults = s.vaults := changesOnly_of_within hp hr s .vault hk
  unfold State.vault; rw [h]

theorem sq_keep (hp : Within ks p) (s : State) (q : Nat) (hk : Kind.sq ∉ ks := by decide) (hr : Kind.restart ∉ ks := by decide) :
    (run p s).sq q = s.sq q := by
  have h : (run p s).sqs = s.sqs := changesOnly_of_within hp hr s .sq hk
  unfold State.sq; rw [h]

theorem port_keep (hp : Within ks p) (s : State) (i : Nat) (hk : Kind.port ∉ ks := by decide) (hr : Kind.restart ∉ ks := by decide) :
    (run p s).port i = s.port i := by
  have h : (run p s).ports = s.ports := changesOnly_of_within hp hr s .port hk
  unfold State.port; rw [h]

theorem ctl_keep (hp : Within ks p) (s : State) (hk : Kind.reg ∉ ks := by decide) (hr : Kind.restart ∉ ks := by decide) :
    (run p s).ctl = s.ctl := changesOnly_of_within hp hr s .reg hk

theorem fld_keep (hp : Within ks p) (s : State) (f : Fld) (hk : Kind.reg ∉ ks := by decide) (hr : Kind.restart ∉ ks := by decide) :
    (run p s).fld f = s.fld f := fld_ctl (ctl_keep hp s hk hr) f

theorem word_keep (hp : Within ks p) (s : State) (o : Nat) (hk : Kind.reg ∉ ks := by decide) (hr : Kind.restart ∉ ks := by decide) :
    (run p s).word o = s.word o := by unfold State.word; rw [ctl_keep hp s hk hr]

theorem mem_keep (hp : Within ks p) (s : State) (hk : Kind.mem ∉ ks := by decide) (hr : Kind.restart ∉ ks := by decide) :
    (run p s).mem = s.mem := changesOnly_of_within hp hr s .mem hk

theorem ledger_keep (hp : Within ks p) (s : State) (hk : Kind.log ∉ ks := by decide) (hr : Kind.restart ∉ ks := by decide) :
    (run p s).ledger = s.ledger := changesOnly_of_within hp hr s .log hk

theorem mbox_keep (hp : Within ks p) (s : State) (hk : Kind.mbox ∉ ks := by decide) (hr : Kind.restart ∉ ks := by decide) :
    (run p s).mbox = s.mbox := changesOnly_of_within hp hr s .mbox hk

/-! The parts an effect sets. -/

theorem flagAt_flag (s : State) (n f : Nat) (x : Flag) : ((Eff.flag (64 * n + f) x).apply s).flagAt n f = x := by
  simp [State.flagAt]

theorem strm_strm (s : State) (sid j : Nat) (x : Strm) : ((Eff.strm sid x).apply s).strm j = if sid = j then x else s.strm j := by
  simp only [State.strm, apply_strms, nget_nset]
  split <;> rfl

theorem strm_setStrm (s : State) (sid j : Nat) (x : Strm) : (run (setStrm sid x) s).strm j = if sid = j then x else s.strm j := strm_strm ..

theorem core_core (s : State) (n j : Nat) (x : CoreX) : ((Eff.core n x).apply s).core j = if n = j then x else s.core j := by
  simp only [State.core, apply_cores, nget_nset]
  split <;> rfl

theorem bar_bar (s : State) (c j : Nat) (x : BarX) : ((Eff.bar c x).apply s).bar j = if c = j then x else s.bar j := by
  simp only [State.bar, apply_bars, nget_nset]
  split <;> rfl

theorem vault_vault (s : State) (d j : Nat) (x : VaultX) : ((Eff.vault d x).apply s).vault j = if d = j then x else s.vault j := by
  simp only [State.vault, apply_vaults, nget_nset]
  split <;> rfl

theorem sq_sq (s : State) (q j : Nat) (x : SqX) : ((Eff.sq q x).apply s).sq j = if q = j then x else s.sq j := by
  simp only [State.sq, apply_sqs, nget_nset]
  split <;> rfl

theorem port_port (s : State) (i j : Nat) (x : Port) : ((Eff.port i x).apply s).port j = if i = j then x else s.port j := by
  simp only [State.port, apply_ports, nget_nset]
  split <;> rfl

end Sys2Proof.Machine
end

