-- ==== Sys2Proof/Laws/Stream.lean ====
section
/-! SUPPORT. Streams: the words that follow a stream's state, and how a stream's record comes through the operations on it. -/

namespace Sys2Proof.Machine

theorem writes_syncCore {P : Nat → Prop} (n : Nat) (h : P (Reg.coreArrHeld n).off) : WritesWords P (syncCore n) :=
  writes_withS fun _ => writes_seqs_cons (writes_setF _ (Nat.le_of_ble_eq_true rfl) h) (writes_seqs_cons (writes_setF _ (Nat.le_of_ble_eq_true rfl) h)
    (writes_seqs_cons (writes_setF _ (Nat.le_of_ble_eq_true rfl) h) writes_seqs_nil))

/-- Bringing a stream's state up to date writes the words that follow it, and no others. -/
theorem writes_syncStrm (sid : Nat) : WritesWords (· ∈ stateWords sid) (syncStrm sid) := by
  refine writes_seq (writes_withS fun _ => writes_setF _ (Nat.le_of_ble_eq_true rfl) (List.mem_cons_self ..)) ?_
  refine writes_given fun n hn => ?_
  unfold coreOfSid at hn
  split at hn
  · rename_i h
    cases hn
    exact writes_syncCore _ (by unfold stateWords; rw [if_pos h]; exact List.mem_cons_of_mem _ (List.mem_cons_self ..))
  · cases hn

/-- A register of a stream other than its state word stays while its state is brought up to date. -/
theorem not_stateWords {sid o : Nat} (ho : o < 0x18) : strmBase sid + o ∉ stateWords sid := by
  unfold stateWords
  split
  · rename_i h1
    simp only [List.mem_cons, List.not_mem_nil, or_false, Reg.strmState, Reg.coreArrHeld, strmBase, if_pos h1, coreBase]
    omega
  · simp only [List.mem_cons, List.not_mem_nil, or_false, Reg.strmState]
    omega

theorem keepsWords_of_writes {os : List Nat} {p : Prog} (h : WritesWords (· ∈ os) p) (s : State) : KeepsWords os s (run p s) :=
  fun _ ho => word_of_writes h s ho

theorem writes_ungateSid {P : Nat → Prop} (sid : Nat) : WritesWords P (ungateSid sid) :=
  writes_of_within (ks := [.core]) (within_ungateSid (List.Subset.refl _) _) (by decide) (by decide)

theorem issuedCmd_acc {s : State} {sid acc cls op : Nat} {c : Cmd} (h : s.issuedCmd sid acc cls op = some c) :
    c.acc = acc ∧ dClass c.desc = cls ∧ dOp c.desc = op ∧ c ∈ (s.strm sid).issued := by
  have h1 := List.find?_some h
  simp only [Bool.and_eq_true, beq_iff_eq] at h1
  exact ⟨h1.1.1, h1.1.2, h1.2, List.mem_of_find?_eq_some h⟩

/-- The row of an issued command runs its program. -/
theorem run_onIssued {s : State} {sid acc cls op : Nat} {c : Cmd} (h : s.issuedCmd sid acc cls op = some c) (k : Cmd → Prog) :
    run (onIssued sid acc cls op k) s = run (k c) s := by
  unfold onIssued
  rw [run_withS, h, run_given_some]

/-! The Ledger. -/

theorem logs_next (l : List Cmd) (f : Cmd → Prog) (hf : ∀ c s, (run (f c) s).ledger.next = s.ledger.next + 1) : ∀ s, (run (forEach l f) s).ledger.next = s.ledger.next + l.length := by
  induction l with
  | nil => intro s; rfl
  | cons c l ih => intro s; rw [run_forEach_cons, ih, hf]; simp; omega
theorem logEv_next (src : Src) (acc : Nat) (st : Status) (tag : Nat) (inj : Bool) (b : EvBody) (s : State) : (run (logEv src acc st tag inj b) s).ledger.next = s.ledger.next + 1 := by
  unfold logEv
  rw [run_seqs_cons, ledger_keep (ks := [.reg])]
  · rfl
  · exact within_seqs_cons (fun s e he => within_setF (List.Subset.refl _) _ _ s e he)
      (within_seqs_cons (fun s e he => within_setF (List.Subset.refl _) _ _ s e he) (within_seqs_nil _))

theorem logged_logEv (src : Src) (acc : Nat) (st : Status) (tag : Nat) (inj : Bool) (b : EvBody) (s : State) : Logged (run (logEv src acc st tag inj b) s) src acc st b := by
  have h : (run (logEv src acc st tag inj b) s).ledger = s.ledger.push ⟨0, s.boot, src, acc, st, tag, inj, s.tainted (src, acc), b⟩ := by
    unfold logEv
    rw [run_seqs_cons, ledger_keep (ks := [.reg])]
    · rfl
    · exact within_seqs_cons (fun s e he => within_setF (List.Subset.refl _) _ _ s e he)
        (within_seqs_cons (fun s e he => within_setF (List.Subset.refl _) _ _ s e he) (within_seqs_nil _))
  unfold Logged
  rw [h, push_head]
  exact ⟨_, rfl, rfl, rfl, rfl, rfl⟩
theorem Logged.keep {src : Src} {acc : Nat} {st : Status} {b : EvBody} {p : Prog} {s : State} {ks : List Kind} (hp : Within ks p)
    (h : Logged s src acc st b) (hk : Kind.log ∉ ks := by decide) (hr : Kind.restart ∉ ks := by decide) : Logged (run p s) src acc st b := by
  unfold Logged at h ⊢
  rw [ledger_keep hp s hk hr]; exact h

/-- An event moves LDG_HEAD and LDG_OLDEST, and no other register. -/
theorem writes_logEv (src : Src) (acc : Nat) (st : Status) (tag : Nat) (inj : Bool) (b : EvBody) :
    WritesWords (· ∈ ledgerWords) (logEv src acc st tag inj b) := by
  have h : ∀ (f : Fld) (v : Nat), f.w = 64 → f.off ∈ ledgerWords → f.off + 4 ∈ ledgerWords → WritesWords (· ∈ ledgerWords) (setF f v) := by
    intro f v hw h1 h2 s e he
    unfold setF at he
    rw [if_pos hw] at he
    simp only [List.mem_cons, List.not_mem_nil, or_false] at he
    rcases he with rfl | rfl
    · exact h1
    · exact h2
  refine writes_seqs_cons (fun s e he => ?_) (writes_seqs_cons (fun s e he => h Reg.ldgHead _ rfl (by decide) (by decide) s e he)
    (writes_seqs_cons (fun s e he => h Reg.ldgOldest _ rfl (by decide) (by decide) s e he) writes_seqs_nil))
  rw [List.mem_singleton.mp he]; trivial

/-! Streams. -/

theorem settle_issued {sid : Nat} {s : State} (h : (s.strm sid).issued ≠ []) : run (settle sid) s = run (syncStrm sid) s := by
  unfold settle
  rw [run_seq, run_withS]
  dsimp only
  rw [if_pos (by simp [h])]; rfl
theorem settle_resume {sid : Nat} {s : State} (h : (s.strm sid).issued = []) (h2 : (s.strm sid).resetting = false) (h3 : (s.strm sid).halted = true) (b : Bool)
   (h4 : (s.strm sid).resume = if b then .retry else .skip) : run (settle sid) s = run (syncStrm sid) (run (resumeNow sid b) s) := by
  unfold settle
  rw [run_seq, run_withS]
  dsimp only
  rw [if_neg (by simp [h]), h2, if_neg (by simp), h4, h3]
  cases b <;> rfl
theorem settle_reset {sid : Nat} {s : State} (h : (s.strm sid).issued = []) (h2 : (s.strm sid).resetting = true) :
   run (settle sid) s = run (syncStrm sid) (run (finishReset sid) s) := by
  unfold settle
  rw [run_seq, run_withS]
  dsimp only
  rw [if_neg (by simp [h]), h2, if_pos rfl]

theorem ungate_strm (sid j : Nat) (s : State) : (run (ungateSid sid) s).strm j = s.strm j := strm_keep (within_ungateSid (List.Subset.refl _) _) _ _
theorem sync_strm (sid j : Nat) (s : State) : (run (syncStrm sid) s).strm j = s.strm j := strm_keep (within_syncStrm (List.Subset.refl _) _) _ _

/-- A fetch reads one slot, numbers it, and goes on with the command read. -/
theorem run_fetchSlot (sid slot : Nat) (old : Option Cmd) (k : Cmd → Prog) (s : State) :
   ∃ u c, run (fetchSlot sid slot old k) s = run (k c) u ∧ u.strms = s.strms ∧ c.slot = slot ∧ c.acc = s.accNext sid ∧ c.pred = old.map (·.acc) ∧ c.started = false ∧
     c.desc = BitVec.ofNat 512 (s.readNat (s.ringBase sid + 64 * slot) 64) ∧ u = run (setF48 (Reg.strmAccNextLo sid) (Reg.strmAccNextHi sid) (s.accNext sid + 1)) (run (touch false (requesterOf sid) (s.ringBase sid + 64 * slot) 64) s) := by
  unfold fetchSlot
  rw [run_withS]
  dsimp only
  rw [run_seqs_cons, run_seqs_cons, run_seqs_cons, run_seqs_nil]
  refine ⟨_, _, rfl, ?_, rfl, rfl, rfl, rfl, rfl, rfl⟩
  exact (changesOnly_of_within (within_setF48 (List.Subset.refl _) _ _ _) (by decide) _ .strm (by decide)).trans
    (changesOnly_of_within (within_touch (List.Subset.refl _) _ _ _ _) (by decide) _ .strm (by decide))

theorem fld_setF48 {lo hi : Fld} (h1 : lo.live = true) (h2 : hi.live = true) (hw1 : lo.w = 32) (hw2 : hi.w = 16) (hne : lo.off ≠ hi.off) (v : Nat) (s : State) :
   (run (setF48 lo hi v) s).fld48 lo hi = v % 2 ^ 48 := by
  unfold setF48 State.fld48
  rw [run_seq, fld_setF h2, fld_of_writes (P := fun o => o = hi.off) (writes_setF _ (by omega) rfl) _ (by omega) hne, fld_setF h1, hw1, hw2]
  omega


end Sys2Proof.Machine
end

