-- ==== Sys2Proof/Laws/Touch.lean ====
section
/-! SUPPORT. Which register words the operations that every command shares may write: counting memory accesses, the Ledger, interrupt
messages, and the start and the end of a command. -/

namespace Sys2Proof.Machine

theorem xor_foldl_lt {k : Nat} (l : List Nat) (h : ∀ x ∈ l, x < 2 ^ k) {a : Nat} (ha : a < 2 ^ k) : l.foldl Nat.xor a < 2 ^ k := by
  induction l generalizing a with
  | nil => exact ha
  | cons x l ih =>
    exact ih (fun y hy => h y (List.mem_cons_of_mem _ hy)) (Nat.xor_lt_two_pow ha (h x (List.mem_cons_self ..)))

theorem foldGroups_lt (k g : Nat) : foldGroups k g < 2 ^ k := by
  unfold foldGroups
  refine xor_foldl_lt _ (fun x hx => ?_) (Nat.two_pow_pos k)
  obtain ⟨i, _, rfl⟩ := List.mem_map.mp hx
  exact Nat.mod_lt _ (Nat.two_pow_pos k)

theorem stack_lt (s : State) (a : Nat) : (s.placeOf a).1 < 8 := by
  unfold State.placeOf
  dsimp only
  have h3 := foldGroups_lt 3 (a / 4096 % 65536)
  have h2 := foldGroups_lt 2 (a / 4096 % 65536)
  split
  · exact h3
  · dsimp only
    split <;> omega

theorem homeDie_lt (s : State) (a : Nat) : s.homeDie a < 2 := by
  unfold State.homeDie
  have := stack_lt s a
  split
  · omega
  · exact Nat.mod_lt _ (by decide)

theorem cacheSlice_lt (l : Nat) : cacheSlice l < 64 := by
  unfold cacheSlice
  refine xor_foldl_lt (k := 6) _ (fun x hx => ?_) (Nat.lt_of_lt_of_le (Nat.mod_lt _ (by decide)) (by decide))
  obtain ⟨i, _, rfl⟩ := List.mem_map.mp hx
  exact Nat.mod_lt _ (by decide)

/-- A 64-bit counter is two words. -/
theorem writes_incF64 {P : Nat → Prop} {f : Fld} (k : Nat) (hw : f.w = 64) (h : P f.off) (h4 : P (f.off + 4)) : WritesWords P (incF f k) := by
  have hs : ∀ v, WritesWords P (setF f v) := by
    intro v s e he
    unfold setF at he
    rw [if_pos hw] at he
    simp only [List.mem_cons, List.not_mem_nil, or_false] at he
    rcases he with rfl | rfl
    · exact h
    · exact h4
  intro s e he
  unfold incF at he
  dsimp only at he
  split at he
  · cases he
  · split at he
    · exact hs _ s e he
    · rcases List.mem_append.mp he with he | he
      · exact hs _ s e he
      · rw [List.mem_singleton.mp he]; trivial

theorem dieWord_hbm {k o : Nat} (hk : k < 8) (ho : o < 0x1000) : dieWord (hbmBase k + o) := by
  unfold dieWord hbmBase dieBase; omega

theorem writes_countHbm (w : Bool) (who : Requester) (line n : Nat) : WritesWords dieWord (countHbm w who line n) := by
  refine writes_withS fun s => writes_seqs_cons ?_ (writes_seqs_cons (writes_onlyIf fun _ => ?_) writes_seqs_nil)
  · split
    · exact writes_incF64 n rfl (dieWord_hbm (o := 0x18) (stack_lt s line) (by decide)) (dieWord_hbm (o := 0x1C) (stack_lt s line) (by decide))
    · exact writes_incF64 n rfl (dieWord_hbm (o := 0x10) (stack_lt s line) (by decide)) (dieWord_hbm (o := 0x14) (stack_lt s line) (by decide))
  · exact writes_incF64 n rfl (dieWord_hbm (o := 0x20) (stack_lt s line) (by decide)) (dieWord_hbm (o := 0x24) (stack_lt s line) (by decide))

theorem writes_dropLine (who : Requester) (e : Nat × CLine) : WritesWords dieWord (dropLine who e) := by
  refine writes_seq ?_ (writes_emit fun x hx => by rw [List.mem_singleton.mp hx]; trivial)
  split
  · exact writes_onlyIf fun _ => writes_countHbm _ _ _ _
  · exact writes_emit fun x hx => by rw [List.mem_singleton.mp hx]; trivial

theorem writes_takeWay (die line : Nat) (who : Requester) (k : Nat → Prog) (hk : ∀ w, WritesWords dieWord (k w)) :
    WritesWords dieWord (takeWay die line who k) := by
  refine writes_withS fun s => writes_seqs_cons (writes_onlyIf fun _ => writes_forEach fun e _ => ?_)
    (writes_seqs_cons (writes_forEach fun e _ => writes_dropLine _ _) (writes_seqs_cons (hk _) writes_seqs_nil))
  exact writes_emit fun x hx => by rw [List.mem_singleton.mp hx]; trivial

theorem writes_touchLine (w whole : Bool) (who : Requester) (line : Nat) : WritesWords dieWord (touchLine w whole who line) := by
  refine writes_withS fun s => writes_ite (fun _ => writes_seq (writes_onlyIf fun _ => writes_countHbm _ _ _ _) (writes_countHbm _ _ _ _)) fun _ => ?_
  have he : ∀ c, WritesWords dieWord (emit [.line (line / 128) c]) := fun c =>
    writes_emit fun x hx => by rw [List.mem_singleton.mp hx]; trivial
  split
  · exact he _
  · refine writes_seq (writes_onlyIf fun _ => writes_seq (writes_countHbm _ _ _ _) (writes_incF _ (Nat.le_of_ble_eq_true rfl) ?_))
      (writes_takeWay _ _ _ _ fun w => he _)
    have h1 := homeDie_lt s line
    have h2 := cacheSlice_lt line
    simp only [dieWord, Reg.vltMisses, dieBase]; omega

/-- A time that runs on is a counter's change. -/
theorem writes_timed {P : Nat → Prop} {f : Fld} (hw : f.w ≤ 32) (h : P f.off) : WritesWords P (timed f) :=
  writes_drawFree fun _ => writes_withS fun _ => writes_setF _ hw h

theorem writes_ungate {P : Nat → Prop} (n : Nat) : WritesWords P (ungate n) :=
  writes_withS fun s => writes_onlyIf fun _ => writes_emit fun x hx => by rw [List.mem_singleton.mp hx]; trivial

theorem writes_meshAccess (who : Requester) (a : Nat) : WritesWords dieWord (meshAccess who a) := by
  unfold meshAccess
  refine writes_ite (fun h => writes_onlyIf fun _ => writes_seq (writes_ungate _) (writes_timed (Nat.le_of_ble_eq_true rfl) ?_))
    fun _ => writes_skip
  simp only [Reg.coreLsConflicts, coreBase, dieWord]; omega

/-- Touching memory counts in the blocks of the dies and in a core's CORE_LS_CONFLICTS, and nowhere else. -/
theorem writes_touch (w : Bool) (who : Requester) (a len : Nat) : WritesWords dieWord (touch w who a len) := by
  unfold touch
  split
  · exact writes_forEach fun l _ => writes_touchLine _ _ _ _
  · exact writes_meshAccess _ _

/-- An interrupt message changes the interrupt table alone. -/
theorem writes_sendIrq {v : Nat} (h : v < 1024) : WritesWords (fun o => 0x1A000 ≤ o ∧ o < 0x1B000) (sendIrq v) := by
  intro s e he
  unfold sendIrq at he
  split at he
  · rw [List.mem_singleton.mp he]; trivial
  · exact writes_setF _ (Nat.le_of_ble_eq_true rfl) (by simp only [Reg.htxImPending]; omega) s e he

theorem irqVec_lt (s : State) (sid : Nat) : s.fld (Reg.strmIrqVec sid) < 1024 := fld_lt (Reg.strmIrqVec sid) s (Nat.le_of_ble_eq_true rfl)

theorem endWord_own {sid o : Nat} (h1 : 0xC ≤ o) (h2 : o ≤ 0x28) : endWord sid (strmBase sid + o) := .inl ⟨by omega, by omega⟩

theorem writes_setOwn {sid o : Nat} {f : Fld} (v : Nat) (hf : f.off = strmBase sid + o) (hw : f.w ≤ 32) (h1 : 0xC ≤ o) (h2 : o ≤ 0x28) :
    WritesWords (endWord sid) (setF f v) := writes_setF v hw (hf ▸ endWord_own h1 h2)

theorem writes_syncEnd (sid : Nat) : WritesWords (endWord sid) (syncStrm sid) := (writes_syncStrm sid).mono fun _ h => .inr (.inl h)

theorem writes_noReg {P : Nat → Prop} {ks : List Kind} {p : Prog} (h : Within ks p) (h1 : Kind.reg ∉ ks := by decide)
    (h2 : Kind.restart ∉ ks := by decide) : WritesWords P p := writes_of_within h h1 h2

theorem writes_setStrm {P : Nat → Prop} (sid : Nat) (x : Strm) : WritesWords P (setStrm sid x) :=
  writes_noReg (within_setStrm (List.Subset.refl _) _ _)

theorem writes_fetchSlot (sid slot : Nat) (old : Option Cmd) (k : Cmd → Prog) (hk : ∀ c, WritesWords (endWord sid) (k c)) :
    WritesWords (endWord sid) (fetchSlot sid slot old k) := by
  refine writes_withS fun s => writes_seqs_cons ((writes_touch _ _ _ _).mono fun _ h => .inr (.inr (.inr (.inr (.inr (.inr h))))))
    (writes_seqs_cons (writes_seq ?_ ?_) (writes_seqs_cons (hk _) writes_seqs_nil))
  · exact writes_setOwn _ rfl (Nat.le_of_ble_eq_true rfl) (by decide) (by decide)
  · exact writes_setOwn _ rfl (Nat.le_of_ble_eq_true rfl) (by decide) (by decide)

theorem writes_resumeNow (sid : Nat) (retry : Bool) : WritesWords (endWord sid) (resumeNow sid retry) := by
  refine writes_withS fun s => writes_seqs_cons (writes_setStrm _ _) (writes_seqs_cons (writes_onlyIf fun _ => ?_) writes_seqs_nil)
  exact writes_forEach fun c _ => writes_fetchSlot _ _ _ _ fun n => writes_withS fun t => writes_setStrm _ _

theorem writes_finishReset (sid : Nat) : WritesWords (endWord sid) (finishReset sid) :=
  writes_seqs_cons (writes_setStrm _ _) (writes_seqs_cons (writes_setOwn _ rfl (Nat.le_of_ble_eq_true rfl) (by decide) (by decide))
    (writes_seqs_cons (writes_setOwn _ rfl (Nat.le_of_ble_eq_true rfl) (by decide) (by decide))
    (writes_seqs_cons (writes_setOwn _ rfl (Nat.le_of_ble_eq_true rfl) (by decide) (by decide)) writes_seqs_nil)))

theorem writes_settle (sid : Nat) : WritesWords (endWord sid) (settle sid) := by
  refine writes_seq (writes_withS fun s => ?_) (writes_syncEnd sid)
  dsimp only
  refine writes_ite (fun _ => writes_skip) fun _ => writes_ite (fun _ => writes_finishReset _) fun _ => ?_
  split
  · exact writes_skip
  · exact writes_onlyIf fun _ => writes_resumeNow _ _
  · exact writes_onlyIf fun _ => writes_resumeNow _ _

theorem writes_logEnd (sid : Nat) (src : Src) (acc : Nat) (st : Status) (tag : Nat) (inj : Bool) (b : EvBody) :
    WritesWords (endWord sid) (logEv src acc st tag inj b) :=
  (writes_logEv _ _ _ _ _ _).mono fun o h => .inr (.inr (.inl (by
    simp only [ledgerWords, List.mem_cons, List.not_mem_nil, or_false] at h; omega)))

theorem writes_irqEnd (sid : Nat) : WritesWords (endWord sid) (withS fun t => sendIrq (t.fld (Reg.strmIrqVec sid))) :=
  writes_withS fun t => (writes_sendIrq (irqVec_lt t sid)).mono fun _ h => .inr (.inr (.inr (.inr (.inr (.inl h)))))

/-- The end of a command writes only the words of `endWord`. -/
theorem writes_endCmd (sid : Nat) (c : Cmd) (st : Status) (sk : Bool) : WritesWords (endWord sid) (endCmd sid c st sk) := by
  refine writes_withS fun s => ?_
  dsimp only
  split
  · exact writes_seqs_cons (writes_setStrm _ _) (writes_seqs_cons (writes_onlyIf fun _ => writes_noReg (within_flagOp (List.Subset.refl _) _ _ _ _ _))
      (writes_seqs_cons (writes_logEnd _ _ _ _ _ _ _) (writes_seqs_cons (writes_settle _) (writes_seqs_cons (writes_onlyIf fun _ => writes_irqEnd _) writes_seqs_nil))))
  · refine writes_seqs_cons (writes_setStrm _ _) (writes_seqs_cons (writes_setOwn _ rfl (Nat.le_of_ble_eq_true rfl) (by decide) (by decide))
      (writes_seqs_cons (writes_onlyIf fun _ => writes_seq (writes_seq ?_ ?_) (writes_seq ?_ (writes_withS fun t => ?_)))
      (writes_seqs_cons (writes_logEnd _ _ _ _ _ _ _) (writes_seqs_cons (writes_settle _) (writes_seqs_cons (writes_irqEnd _) writes_seqs_nil)))))
    · exact writes_setOwn _ rfl (Nat.le_of_ble_eq_true rfl) (by decide) (by decide)
    · exact writes_setOwn _ rfl (Nat.le_of_ble_eq_true rfl) (by decide) (by decide)
    · exact writes_setF _ (Nat.le_of_ble_eq_true rfl) (.inr (.inr (.inr (.inl rfl))))
    · exact writes_setF _ (Nat.le_of_ble_eq_true rfl) (.inr (.inr (.inr (.inr (.inl rfl)))))

theorem writes_ledgerBlock {src : Src} {acc : Nat} {st : Status} {tag : Nat} {inj : Bool} {b : EvBody} :
    WritesWords (fun o => 0x6000 ≤ o ∧ o < 0x7000) (logEv src acc st tag inj b) :=
  (writes_logEv _ _ _ _ _ _).mono fun o h => by
    simp only [ledgerWords, List.mem_cons, List.not_mem_nil, or_false] at h; omega

theorem writes_logStart (src : Src) (acc tag : Nat) (g : Signaller) : WritesWords (fun o => 0x6000 ≤ o ∧ o < 0x7000) (logStart src acc tag g) := by
  refine writes_seq writes_ledgerBlock (writes_withS fun s => writes_onlyIf fun _ => writes_withS fun t => writes_ite (fun _ => writes_skip) fun _ => ?_)
  exact writes_seqs_cons (writes_emit fun x hx => by rw [List.mem_singleton.mp hx]; trivial)
    (writes_seqs_cons (writes_incF _ (Nat.le_of_ble_eq_true rfl) (by decide)) (writes_seqs_cons writes_ledgerBlock writes_seqs_nil))

/-- The start of a command writes the Ledger's words alone. -/
theorem writes_startCmd (sid : Nat) (c : Cmd) : WritesWords (fun o => 0x6000 ≤ o ∧ o < 0x7000) (startCmd sid c) :=
  writes_withS fun s => writes_ite (fun _ => writes_skip) fun _ => writes_seq (writes_setStrm _ _) (writes_logStart _ _ _ _)

end Sys2Proof.Machine
end

