-- ==== Sys2Proof/Laws/Writes.lean ====
section
/-! SUPPORT. Writes of device memory: which bytes a program may store, and what a write of bytes leaves. -/

namespace Sys2Proof.Machine

/-- Every byte a program stores lies in `P`, and it does not restart the package. -/
def WritesBytes (P : Nat → Prop) (p : Prog) : Prop := ∀ s, ∀ e ∈ p s, match e with
  | .memB a _ => P a
  | .restart _ => False
  | .cold => False
  | _ => True

variable {P : Nat → Prop}

theorem byte_of_writes {p : Prog} (h : WritesBytes P p) (s : State) {x : Nat} (hx : ¬ P x) : byteAt (run p s).mem x = byteAt s.mem x := by
  have go : ∀ (l : List Eff) (s : State), (∀ e ∈ l, match e with
      | .memB a _ => P a
      | .restart _ => False
      | .cold => False
      | _ => True) → byteAt (applyAll l s).mem x = byteAt s.mem x := by
    intro l
    induction l with
    | nil => intro _ _; rfl
    | cons e l ih =>
      intro s hl
      rw [applyAll_cons, ih _ fun e he => hl e (List.mem_cons_of_mem _ he)]
      have he := hl e (List.mem_cons_self ..)
      cases e <;> first
        | rfl
        | exact absurd he id
        | exact byteAt_setByte_ne _ _ fun h => hx (h ▸ he)
  exact go _ _ (h s)

theorem WritesBytes.mono {Q : Nat → Prop} {p : Prog} (h : WritesBytes P p) (hq : ∀ o, P o → Q o) : WritesBytes Q p := by
  intro s e he
  have := h s e he
  cases e <;> first | exact hq _ this | exact this

theorem stores_of_within {ks : List Kind} {p : Prog} (h : Within ks p) (h1 : Kind.mem ∉ ks := by decide) (h2 : Kind.restart ∉ ks := by decide) :
    WritesBytes P p := by
  intro s e he
  have := h s e he
  cases e <;> first | trivial | exact absurd this h1 | exact absurd this h2

theorem stores_skip : WritesBytes P skip := by intro s e he; cases he

theorem stores_seq {p q : Prog} (hp : WritesBytes P p) (hq : WritesBytes P q) : WritesBytes P (seq p q) := by
  intro s e he
  rcases List.mem_append.mp he with h | h
  · exact hp s e h
  · exact hq _ e h

theorem stores_seqs_nil : WritesBytes P (seqs []) := stores_skip

theorem stores_seqs_cons {p : Prog} {l : List Prog} (hp : WritesBytes P p) (hl : WritesBytes P (seqs l)) : WritesBytes P (seqs (p :: l)) :=
  stores_seq hp hl

theorem stores_withS {k : State → Prog} (h : ∀ s, WritesBytes P (k s)) : WritesBytes P (withS k) := fun s e he => h s s e he

theorem stores_onlyIf {c : Bool} {p : Prog} (h : c = true → WritesBytes P p) : WritesBytes P (onlyIf c p) := by
  cases c
  · exact stores_skip
  · exact h rfl

theorem stores_ite {c : Prop} [Decidable c] {p q : Prog} (hp : c → WritesBytes P p) (hq : ¬ c → WritesBytes P q) :
    WritesBytes P (if c then p else q) := by
  split
  · exact hp ‹_›
  · exact hq ‹_›

theorem stores_forEach {α : Type} {l : List α} {f : α → Prog} (h : ∀ x ∈ l, WritesBytes P (f x)) : WritesBytes P (forEach l f) := by
  induction l with
  | nil => exact stores_skip
  | cons x l ih => exact stores_seq (h x (List.mem_cons_self ..)) (ih fun y hy => h y (List.mem_cons_of_mem _ hy))

theorem mem_zipIdx_lt {α : Type} (l : List α) {n : Nat} {p : α × Nat} (h : p ∈ l.zipIdx n) : n ≤ p.2 ∧ p.2 < n + l.length := by
  obtain ⟨x, i⟩ := p
  have := List.mem_zipIdx h
  exact ⟨this.1, by omega⟩

theorem stores_writeBytes (who : Requester) (a : Nat) (bs : List Byte) : WritesBytes (fun x => a ≤ x ∧ x < a + bs.length) (writeBytes who a bs) := by
  refine stores_seqs_cons (stores_of_within (within_touch (List.Subset.refl _) _ _ _ _)) (stores_seqs_cons ?_
    (stores_seqs_cons (stores_of_within (within_clearHurt (List.Subset.refl _) _ _))
      (stores_seqs_cons (stores_of_within (within_injectWrite (List.Subset.refl _) _ _)) stores_seqs_nil)))
  intro s e he
  obtain ⟨p, hp, rfl⟩ := List.mem_map.mp he
  have := mem_zipIdx_lt bs hp
  exact ⟨by omega, by omega⟩

/-- A write of pieces stores into those pieces. -/
theorem stores_writePieces (who : Requester) (ps : List (Nat × List Byte)) :
    WritesBytes (fun x => ∃ p ∈ ps, p.1 ≤ x ∧ x < p.1 + p.2.length) (writePieces who ps) :=
  stores_forEach fun p hp => (stores_writeBytes who p.1 p.2).mono fun _ h => ⟨p, hp, h⟩

theorem rising_setByte {m : List Host.Cell} (hm : NMap.Rising m) (a : Nat) (b : Byte) : NMap.Rising (setByte m a b) := by
  unfold setByte
  split
  · exact rising_ndel hm a
  · exact rising_nset hm a b

theorem byteAt_run (bs : List Byte) (a n : Nat) (s : State) (hm : NMap.Rising s.mem) (i : Nat) (hi : i < bs.length) :
    byteAt (applyAll ((bs.zipIdx n).map fun p => Eff.memB (a + p.2) p.1) s).mem (a + n + i) = bs[i] := by
  induction bs generalizing n s i with
  | nil => exact absurd hi (Nat.not_lt_zero _)
  | cons b bs ih =>
    rw [List.zipIdx_cons, List.map_cons, applyAll_cons]
    cases i with
    | zero =>
      have hk : WritesBytes (fun x => a + n < x) (emit ((bs.zipIdx (n + 1)).map fun p => Eff.memB (a + p.2) p.1)) := by
        intro s e he
        obtain ⟨p, hp, rfl⟩ := List.mem_map.mp he
        have := mem_zipIdx_lt bs hp
        show a + n < a + p.2
        omega
      have := byte_of_writes hk ((Eff.memB (a + n) b).apply s) (x := a + n + 0) (by omega)
      rw [run_emit] at this
      rw [this]
      exact byteAt_setByte_self hm _ _
    | succ i =>
      rw [show a + n + (i + 1) = a + (n + 1) + i by omega]
      exact ih (n + 1) _ (rising_setByte hm _ _) i (Nat.lt_of_succ_lt_succ hi)

/-- A write of bytes leaves them. -/
theorem byteAt_writeBytes (who : Requester) (a : Nat) (bs : List Byte) (s : State) (hm : NMap.Rising s.mem) (i : Nat) (hi : i < bs.length) :
    byteAt (run (writeBytes who a bs) s).mem (a + i) = bs[i] := by
  unfold writeBytes
  rw [run_seqs_cons, run_seqs_cons, run_seqs_cons, run_seqs_cons, run_seqs_nil, mem_keep (within_injectWrite (List.Subset.refl _) _ _),
    mem_keep (within_clearHurt (List.Subset.refl _) _ _), run_emit]
  refine byteAt_run bs a 0 _ ?_ i hi
  rw [mem_keep (within_touch (List.Subset.refl _) _ _ _ _)]
  exact hm

theorem bytesAt_writeBytes (who : Requester) (a : Nat) (bs : List Byte) (s : State) (hm : NMap.Rising s.mem) :
    bytesAt (run (writeBytes who a bs) s).mem a bs.length = bs := by
  unfold bytesAt
  refine List.ext_getElem (by simp) fun i h1 h2 => ?_
  rw [List.getElem_map, List.getElem_range]
  exact byteAt_writeBytes who a bs s hm i h2

theorem writes_logBlock {src : Src} {acc : Nat} {st : Status} {tag : Nat} {inj : Bool} {b : EvBody} : WritesWords storeWord (logEv src acc st tag inj b) :=
  writes_ledgerBlock.mono fun o h => .inr ⟨h.1, by omega⟩

theorem writes_injectAt (code die unit key kind : Nat) : WritesWords storeWord (injectAt code die unit key kind) := by
  have h1 : storeWord Reg.csvCeCount.off := .inr (by decide)
  have h2 : storeWord Reg.csvUeCount.off := .inr (by decide)
  refine writes_ite (fun _ => writes_seq (writes_incF _ (Nat.le_of_ble_eq_true rfl) h1) writes_logBlock) fun _ => ?_
  refine writes_seqs_cons (writes_emit fun x hx => by rw [List.mem_singleton.mp hx]; trivial) (writes_seqs_cons ?_ (writes_seqs_cons writes_logBlock writes_seqs_nil))
  exact writes_withS fun s => writes_seq (writes_incF _ (Nat.le_of_ble_eq_true rfl) h2) (writes_emit fun x hx => by rw [List.mem_singleton.mp hx]; trivial)

theorem writes_useArmed {Q : Nat → Prop} (target unit die : Nat) (mu md : Bool) (k : Nat → Prog) (hd : Q Reg.csvInjDone.off) (hk : ∀ n, WritesWords Q (k n)) :
    WritesWords Q (useArmed target unit die mu md k) := by
  refine writes_withS fun s => ?_
  split
  · exact writes_skip
  · exact writes_seqs_cons (writes_emit fun x hx => by rw [List.mem_singleton.mp hx]; trivial)
      (writes_seqs_cons (writes_incF _ (Nat.le_of_ble_eq_true rfl) hd) (writes_seqs_cons (hk _) writes_seqs_nil))

theorem writes_injectWrite (a len : Nat) : WritesWords storeWord (injectWrite a len) := by
  have hd : storeWord Reg.csvInjDone.off := .inr (by decide)
  refine writes_withS fun s => writes_ite (fun _ => writes_skip) fun _ => writes_forEach fun k _ => writes_withS fun t => ?_
  refine writes_ite (fun _ => writes_useArmed _ _ _ _ _ _ hd fun _ => writes_injectAt _ _ _ _ _) fun _ => ?_
  refine writes_seq (writes_useArmed _ _ _ _ _ _ hd fun _ => writes_injectAt _ _ _ _ _) (writes_ite (fun _ => ?_) fun _ => writes_skip)
  exact writes_useArmed _ _ _ _ _ _ hd fun _ => writes_injectAt _ _ _ _ _

/-- A write of device memory changes no register outside `storeWord`. -/
theorem writes_writeBytes (who : Requester) (a : Nat) (bs : List Byte) : WritesWords storeWord (writeBytes who a bs) :=
  writes_seqs_cons ((writes_touch _ _ _ _).mono fun _ h => .inl h) (writes_seqs_cons
    (writes_emit fun x hx => by obtain ⟨p, _, rfl⟩ := List.mem_map.mp hx; trivial)
    (writes_seqs_cons (writes_noReg (within_clearHurt (List.Subset.refl _) _ _)) (writes_seqs_cons (writes_injectWrite _ _) writes_seqs_nil)))

theorem writes_writePieces (who : Requester) (ps : List (Nat × List Byte)) : WritesWords storeWord (writePieces who ps) :=
  writes_forEach fun p _ => writes_writeBytes who p.1 p.2

end Sys2Proof.Machine
end

