-- ==== Sys2Proof/Laws/Command.lean ====
section
/-! SUPPORT. The course of a stream command: START, its work, END. What START and END leave of registers, flags and memory. -/

namespace Sys2Proof.Machine

theorem not_endWord_low {sid o : Nat} (h : o < 0x6000) : ¬ endWord sid o := by
  have hb : 0x21000 ≤ strmBase sid := by
    unfold strmBase; split
    · unfold coreBase; omega
    · unfold btrBase dieBase; repeat' split
      all_goals omega
  have hs : o ∉ stateWords sid := by
    unfold stateWords
    split
    · simp only [List.mem_cons, List.not_mem_nil, or_false, Reg.strmState, Reg.coreArrHeld, coreBase]; omega
    · simp only [List.mem_cons, List.not_mem_nil, or_false, Reg.strmState]; omega
  have h1 : Reg.colStepOk.off = 0x40000 := rfl
  have h2 : Reg.colVeto.off = 0x40004 := rfl
  unfold endWord dieWord
  rw [h1, h2]
  rintro (h | h | h | h | h | h | h)
  · omega
  · exact hs h
  all_goals omega

theorem strm_below {sid : Nat} (hs : sid < 1088) (h : ¬ sid < 1024) : strmBase sid + 0x28 < 0x1000000 := by
  unfold strmBase; rw [if_neg h]; unfold btrBase dieBase; repeat' split
  all_goals omega

/-- A register of a core above its streams' is none that the end of a command writes. -/
theorem not_endWord_core {sid n o : Nat} (hs : sid < 1088) (h : 0x200 ≤ o) (h2 : o < 0x4000) : ¬ endWord sid (coreBase n + o) := by
  have h1 : Reg.colStepOk.off = 0x40000 := rfl
  have h3 : Reg.colVeto.off = 0x40004 := rfl
  by_cases hc : sid < 1024
  · have hb : strmBase sid = coreBase (sid / 4) + 0x100 + sid % 4 * 0x40 := if_pos hc
    unfold endWord dieWord stateWords
    rw [h1, h3, if_pos hc]
    simp only [List.mem_cons, List.not_mem_nil, or_false, Reg.strmState, Reg.coreArrHeld]
    rw [hb]
    unfold coreBase
    omega
  · have hb := strm_below hs hc
    unfold endWord dieWord stateWords
    rw [h1, h3, if_neg hc]
    simp only [List.mem_cons, List.not_mem_nil, or_false, Reg.strmState]
    unfold coreBase
    omega

theorem fld_startCmd (sid : Nat) (c : Cmd) (s : State) {f : Fld} (hw : f.w ≤ 32) (h : f.off < 0x6000 ∨ 0x7000 ≤ f.off) :
    (run (startCmd sid c) s).fld f = s.fld f := fld_of_writes (writes_startCmd sid c) s hw (by omega)

theorem fld_endCmd (sid : Nat) (c : Cmd) (st : Status) (sk : Bool) (s : State) {f : Fld} (hw : f.w ≤ 32) (h : ¬ endWord sid f.off) :
    (run (endCmd sid c st sk) s).fld f = s.fld f := fld_of_writes (writes_endCmd sid c st sk) s hw h

/-- The kinds of effects of a command's start and end. -/
def cmdKinds : List Kind := [.reg, .flag, .strm, .core, .line, .log, .send, .draw]

theorem within_start (sid : Nat) (c : Cmd) : Within cmdKinds (startCmd sid c) := within_startCmd (by decide) _ _

theorem within_end (sid : Nat) (c : Cmd) (st : Status) (sk : Bool) : Within cmdKinds (endCmd sid c st sk) := within_endCmd (by decide) _ _ _ _

theorem endedNow_runOk (sid : Nat) (c : Cmd) (w : Prog) (s : State) : EndedNow (run (runOk sid c w) s) (.stream sid) c.acc .ok := by
  unfold runOk
  rw [run_seqs_cons, run_seqs_cons, run_seqs_cons, run_seqs_nil]
  exact endedNow_endCmd ..

theorem writes_runOk {Q : Nat → Prop} (sid : Nat) (c : Cmd) {w : Prog} (hw : WritesWords Q w) (hq : ∀ o, endWord sid o → Q o) :
    WritesWords Q (runOk sid c w) :=
  writes_seqs_cons ((writes_startCmd sid c).mono fun o h => hq o (.inr (.inr (.inl h))))
    (writes_seqs_cons hw (writes_seqs_cons ((writes_endCmd sid c .ok false).mono hq) writes_seqs_nil))

theorem run_runOk (sid : Nat) (c : Cmd) (w : Prog) (s : State) :
    run (runOk sid c w) s = run (endCmd sid c .ok) (run w (run (startCmd sid c) s)) := by
  unfold runOk
  rw [run_seqs_cons, run_seqs_cons, run_seqs_cons, run_seqs_nil]

theorem keepsOutside_of_writes {P : Nat → Prop} {p : Prog} (h : WritesWords P p) (s : State) : KeepsOutside P s (run p s) :=
  fun _ ho => word_of_writes h s ho

theorem keepsBytes_of_stores {P : Nat → Prop} {p : Prog} (h : WritesBytes P p) (s : State) : KeepsBytes P s (run p s) :=
  fun _ ho => byte_of_writes h s ho

/-- A flag operation on a flag that exists, on a core in service. -/
theorem flagAt_flagOp {core f op v : Nat} {g : Signaller} {s : State} (h : core < 256) (hf : f < 48) (ho : s.outOfService core = false) :
    (run (flagOp core f op v g) s).flagAt core f = ⟨flagResult op (s.flagAt core f).val (BitVec.ofNat 32 v), g⟩ := by
  unfold flagOp
  rw [run_withS, if_neg (by simp [ho]; omega), run_seq, flagAt_keep (within_wakeWatchers (List.Subset.refl _) _) _ _ _]
  exact flagAt_flag ..

theorem out_keep {P : Nat → Prop} {p : Prog} (h : WritesWords P p) (s : State) (n : Nat) (hn : n < 256) (hp : ∀ i, i < 8 → ¬ P (Reg.csvOutOfService i).off) :
    (run p s).outOfService n = s.outOfService n := by
  unfold State.outOfService
  rw [fld_of_writes h s (Nat.le_of_ble_eq_true rfl) (hp _ (by omega))]

theorem flags_keep {ks : List Kind} {p : Prog} (hp : Within ks p) (s : State) (hk : Kind.flag ∉ ks := by decide) (hr : Kind.restart ∉ ks := by decide) :
    (run p s).flags = s.flags := changesOnly_of_within hp hr s .flag hk

/-- The end of a command with OK applies its signal (02 R51). -/
theorem flag_endOk {sid : Nat} {c : Cmd} {s : State} (h : dSigEn c.desc = true) (hf : dSigFlag c.desc < 48) (ho : s.outOfService (dSigCore c.desc) = false) :
    (run (endCmd sid c .ok) s).flagAt (dSigCore c.desc) (dSigFlag c.desc) =
      ⟨flagResult (dSigOp c.desc) (s.flagAt (dSigCore c.desc) (dSigFlag c.desc)).val (BitVec.ofNat 32 (dSigValue c.desc)), .stream sid c.acc⟩ := by
  unfold endCmd
  rw [run_withS]
  dsimp only
  rw [if_pos rfl, h, run_seqs_cons, run_seqs_cons, run_seqs_cons, run_seqs_cons, run_seqs_cons, run_seqs_nil,
    flagAt_keep (within_onlyIf fun _ => within_withS fun _ => within_sendIrq (ks := [.reg, .send]) (List.Subset.refl _) _) _ _ _,
    flagAt_keep (within_settle (ks := [.reg, .strm, .core, .line, .send, .draw]) (List.Subset.refl _) _) _ _ _,
    flagAt_keep (within_logEv (ks := [.reg, .log]) (List.Subset.refl _) _ _ _ _ _ _) _ _ _, run_onlyIf_true]
  have hc : dSigCore c.desc < 256 := by unfold dSigCore dfld bits; exact Nat.mod_lt _ (by decide)
  rw [flagAt_flagOp hc hf (by rw [← ho]; rfl)]
  rw [flagAt_keep (within_setStrm (List.Subset.refl _) _ _) _ _ _]

theorem noflag_endOk {sid : Nat} {c : Cmd} {s : State} {st : Status} (h : st = .ok → dSigEn c.desc = false) :
    (run (endCmd sid c st) s).flags = s.flags := by
  unfold endCmd
  rw [run_withS]
  dsimp only
  split
  · rename_i hst
    rw [h hst, run_seqs_cons, run_seqs_cons, run_onlyIf_false, ← run_seqs_cons]
    refine flags_keep (ks := [.reg, .strm, .core, .line, .log, .send, .draw]) (within_seqs_cons (within_setStrm (by decide) _ _) (within_seqs_cons (within_logEv (by decide) _ _ _ _ _ _)
      (within_seqs_cons (within_settle (by decide) _) (within_seqs_cons (within_onlyIf fun _ => within_withS fun _ => within_sendIrq (by decide) _) (within_seqs_nil _))))) _
  · refine flags_keep (ks := [.reg, .strm, .core, .line, .log, .send, .draw]) (within_seqs_cons (within_setStrm (by decide) _ _) (within_seqs_cons (within_setF (by decide) _ _) (within_seqs_cons
      (within_onlyIf fun _ => within_seq (within_setF48 (by decide) _ _ _) (within_vetoStep (by decide) _)) (within_seqs_cons (within_logEv (by decide) _ _ _ _ _ _)
      (within_seqs_cons (within_settle (by decide) _) (within_seqs_cons (within_withS fun _ => within_sendIrq (by decide) _) (within_seqs_nil _))))))) _

theorem start_keeps_out (sid : Nat) (c : Cmd) (s : State) (n : Nat) (hn : n < 256) : (run (startCmd sid c) s).outOfService n = s.outOfService n :=
  out_keep (writes_startCmd sid c) s n hn fun i hi => by show ¬ (_ ∧ _); simp only [Reg.csvOutOfService]; omega


theorem bit_true {s : State} {f : Fld} (h : s.fld f = 1) : s.flagBit f = true := by unfold State.flagBit; rw [h]; rfl
theorem bit_false {s : State} {f : Fld} (h : s.fld f = 0) : s.flagBit f = false := by unfold State.flagBit; rw [h]; rfl

theorem start_strm (sid : Nat) (c : Cmd) (s : State) (j : Nat) : ((run (startCmd sid c) s).strm j).resetting = (s.strm j).resetting := by
  unfold startCmd
  rw [run_withS]
  split
  · rfl
  · rw [run_seq, strm_keep (within_logStart (List.Subset.refl _) _ _ _ _), strm_setStrm]
    split
    · subst_vars; rfl
    · rfl

theorem wake_resetting (p : Block64 → Bool) (s : State) (j : Nat) : ((run (wakeWatchers p) s).strm j).resetting = (s.strm j).resetting := by
  unfold wakeWatchers
  rw [run_withS]
  have go : ∀ (l : List (Nat × Cmd)) (t : State), (∀ j, (t.strm j).resetting = (s.strm j).resetting) →
      ∀ j, ((run (forEach l fun w => if s.waitHolds w.2.desc then
      seq (setStrm w.1 { s.strm w.1 with wait := .woken (s.waitSig w.2.desc) }) (ungateSid w.1) else skip) t).strm j).resetting = (s.strm j).resetting := by
    intro l
    induction l with
    | nil => intro t h j; exact h j
    | cons w l ih =>
      intro t h
      intro j
      rw [run_forEach_cons]
      refine ih _ (fun j => ?_) j
      split
      · rw [run_seq, ungate_strm, strm_setStrm]
        split
        · subst_vars; rfl
        · exact h j
      · exact h j
  exact go _ s (fun _ => rfl) j

theorem flagOp_resetting (core f op v : Nat) (g : Signaller) (s : State) (j : Nat) : ((run (flagOp core f op v g) s).strm j).resetting = (s.strm j).resetting := by
  unfold flagOp
  rw [run_withS]
  split
  · rfl
  · rw [run_seq, wake_resetting]; rfl

theorem strmBase_apart {x y : Nat} (hx : x < 1088) (hy : y < 1088) (h : x ≠ y) : strmBase x + 0x40 ≤ strmBase y ∨ strmBase y + 0x40 ≤ strmBase x := by
  unfold strmBase
  repeat' split
  all_goals
    try simp only [coreBase, btrBase, dieBase]
    omega

theorem strmBase_ge (x : Nat) : 0x21000 ≤ strmBase x := by
  unfold strmBase
  repeat' split
  all_goals
    try simp only [coreBase, btrBase, dieBase]
    omega

theorem strmBase_die {x o : Nat} (hx : x < 1088) (ho : o < 0x40) : ¬ dieWord (strmBase x + o) ∧ (strmBase x + o < 0x40000 ∨ 0x41000 ≤ strmBase x + o) := by
  unfold dieWord strmBase
  repeat' split
  all_goals
    try simp only [coreBase, btrBase, dieBase]
    omega

theorem not_endWord_strm {x sid o : Nat} (hx : x < 1088) (hs : sid < 1088) (h : x ≠ sid) (ho : o < 0x40) : ¬ endWord sid (strmBase x + o) := by
  have h1 : Reg.colStepOk.off = 0x40000 := rfl
  have h3 : Reg.colVeto.off = 0x40004 := rfl
  have ha := strmBase_apart hx hs h
  have hd := strmBase_die hx ho
  have hg := strmBase_ge x
  have hs : strmBase x + o ∉ stateWords sid := by
    unfold stateWords
    split
    · simp only [List.mem_cons, List.not_mem_nil, or_false, Reg.strmState, Reg.coreArrHeld]
      rintro (h | h)
      · omega
      · revert h
        unfold strmBase coreBase
        repeat' split
        all_goals
          try simp only [btrBase, dieBase]
          omega
    · simp only [List.mem_cons, List.not_mem_nil, or_false, Reg.strmState]
      omega
  unfold endWord
  rw [h1, h3]
  rintro (h | h | h | h | h | h | h)
  · omega
  · exact hs h
  · omega
  · omega
  · omega
  · omega
  · exact hd.1 h

theorem tail_own {sid : Nat} (hs : sid < 1088) : ∀ {o}, o = (Reg.strmTail sid).off → (o ∉ stateWords sid ∧ ¬ dieWord o ∧ (0x7000 ≤ o) ∧ o ≠ Reg.colStepOk.off ∧ o ≠ Reg.colVeto.off ∧ ¬ (0x1A000 ≤ o ∧ o < 0x1B000)) := by
  intro o ho
  subst ho
  have h1 : Reg.colStepOk.off = 0x40000 := rfl
  have h3 : Reg.colVeto.off = 0x40004 := rfl
  have hd := strmBase_die (x := sid) (o := 0xC) hs (by decide)
  have hg := strmBase_ge sid
  refine ⟨not_stateWords (by decide), hd.1, ?_, ?_, ?_, ?_⟩
  · show 0x7000 ≤ strmBase sid + 0xc; omega
  · rw [h1]; show strmBase sid + 0xc ≠ _; omega
  · rw [h3]; show strmBase sid + 0xc ≠ _; omega
  · show ¬ (0x1A000 ≤ strmBase sid + 0xc ∧ strmBase sid + 0xc < 0x1B000); omega

theorem settle_tail {sid : Nat} {s : State} (h : (s.strm sid).resetting = false) (hs : sid < 1088) :
    (run (settle sid) s).fld (Reg.strmTail sid) = s.fld (Reg.strmTail sid) := by
  have T := fun {o} => @tail_own _ hs o
  have hy : ∀ v : State, (run (syncStrm sid) v).fld (Reg.strmTail sid) = v.fld (Reg.strmTail sid) := fun v =>
    fld_of_writes (writes_syncStrm sid) v (Nat.le_of_ble_eq_true rfl) (T rfl).1
  have hr : ∀ b (v : State), (run (resumeNow sid b) v).fld (Reg.strmTail sid) = v.fld (Reg.strmTail sid) := by
    intro b v
    refine fld_of_writes (P := fun o => o ≠ (Reg.strmTail sid).off) ?_ v (Nat.le_of_ble_eq_true rfl) (by simp)
    refine writes_withS fun s => writes_seqs_cons (writes_setStrm _ _) (writes_seqs_cons (writes_onlyIf fun _ => writes_forEach fun c _ => ?_) writes_seqs_nil)
    refine writes_withS fun s => writes_seqs_cons ((writes_touch _ _ _ _).mono fun o h e => (T e).2.1 h) (writes_seqs_cons ?_ (writes_seqs_cons ?_ writes_seqs_nil))
    · refine writes_seq (writes_setF _ (Nat.le_of_ble_eq_true rfl) ?_) (writes_setF _ (Nat.le_of_ble_eq_true rfl) ?_)
      · simp only [Reg.strmTail, Reg.strmAccNextLo, ne_eq]; omega
      · simp only [Reg.strmTail, Reg.strmAccNextHi, ne_eq]; omega
    · exact writes_withS fun t => writes_setStrm _ _
  unfold settle
  rw [run_seq, hy, run_withS]
  dsimp only
  rw [h]
  split
  · rfl
  · rw [if_neg (by simp)]
    split
    · rfl
    · rw [run_onlyIf]; split
      · exact hr _ _
      · rfl
    · rw [run_onlyIf]; split
      · exact hr _ _
      · rfl

theorem tail_end {sid : Nat} {c : Cmd} {s : State} {x : Nat} (hx : x < 1088) (h : x ≠ sid ∨ (s.strm sid).resetting = false) (hs : sid < 1088) (st : Status) :
    (run (endCmd sid c st) s).fld (Reg.strmTail x) = s.fld (Reg.strmTail x) := by
  by_cases hn : x = sid
  case neg => exact fld_endCmd _ _ _ _ _ (Nat.le_of_ble_eq_true rfl) (not_endWord_strm hx hs hn (by decide))
  subst hn
  have h := h.resolve_left (by simp)
  have T := fun {o} => @tail_own _ hs o
  have W : ∀ {P : Nat → Prop} {p : Prog} (_ : WritesWords P p) (v : State), ¬ P (Reg.strmTail x).off → (run p v).fld (Reg.strmTail x) = v.fld (Reg.strmTail x) :=
    fun hp v ho => fld_of_writes hp v (Nat.le_of_ble_eq_true rfl) ho
  have hi : ∀ v : State, (run (withS fun t => sendIrq (t.fld (Reg.strmIrqVec x))) v).fld (Reg.strmTail x) = v.fld (Reg.strmTail x) := fun v =>
    W (P := fun o => 0x1A000 ≤ o ∧ o < 0x1B000) (writes_withS fun t => writes_sendIrq (irqVec_lt t x)) v (T rfl).2.2.2.2.2
  have hl : ∀ (st : Status) (tag : Nat) (b : EvBody) (v : State), (run (logEv (.stream x) c.acc st tag false b) v).fld (Reg.strmTail x) = v.fld (Reg.strmTail x) := fun st tag b v =>
    W (writes_ledgerBlock) v (by have := (T rfl).2.2.1; omega)
  have hl' : ∀ (st : Status) (tag : Nat) (b : EvBody) (v : State), (run (logEv (.stream x) c.acc st tag false b) v).strm x = v.strm x := fun st tag b v =>
    strm_keep (within_logEv (List.Subset.refl _) _ _ _ _ _ _) _ _
  unfold endCmd
  rw [run_withS]
  dsimp only
  split
  · rw [run_seqs_cons, run_seqs_cons, run_seqs_cons, run_seqs_cons, run_seqs_cons, run_seqs_nil, run_onlyIf]
    have e : ∀ v : State, (if dIrq c.desc = true then run (withS fun t => sendIrq (t.fld (Reg.strmIrqVec x))) v else v).fld (Reg.strmTail x) = v.fld (Reg.strmTail x) := by
      intro v; split
      · exact hi v
      · rfl
    rw [e, settle_tail ?_ hs, hl, run_onlyIf]
    · split
      · rw [fld_keep (within_flagOp (List.Subset.refl _) _ _ _ _ _), fld_keep (within_setStrm (List.Subset.refl _) _ _)]
      · rw [fld_keep (within_setStrm (List.Subset.refl _) _ _)]
    · rw [hl', run_onlyIf]
      split
      · rw [flagOp_resetting, strm_setStrm, if_pos rfl]; exact h
      · rw [strm_setStrm, if_pos rfl]; exact h
  · rw [run_seqs_cons, run_seqs_cons, run_seqs_cons, run_seqs_cons, run_seqs_cons, run_seqs_cons, run_seqs_nil]
    rw [hi, settle_tail ?_ hs, hl]
    · refine (W (P := fun o => o ≠ (Reg.strmTail x).off) (writes_onlyIf fun _ => writes_seq (writes_seq (writes_setF _ (Nat.le_of_ble_eq_true rfl) ?_) (writes_setF _ (Nat.le_of_ble_eq_true rfl) ?_))
        (writes_seq (writes_setF _ (Nat.le_of_ble_eq_true rfl) ?_) (writes_withS fun t => writes_setF _ (Nat.le_of_ble_eq_true rfl) ?_))) _ (by simp)).trans ?_
      · simp only [Reg.strmTail, Reg.strmFaultAccLo, ne_eq]; omega
      · simp only [Reg.strmTail, Reg.strmFaultAccHi, ne_eq]; omega
      · exact fun e => (T rfl).2.2.2.1 e.symm
      · exact fun e => (T rfl).2.2.2.2.1 e.symm
      · rw [W (P := fun o => o ≠ (Reg.strmTail x).off) (writes_setF _ (Nat.le_of_ble_eq_true rfl) (by simp only [Reg.strmTail, Reg.strmLastStatus, ne_eq]; omega)) _ (by simp),
          fld_keep (within_setStrm (List.Subset.refl _) _ _)]
    · rw [hl', strm_keep (within_onlyIf fun _ => within_seq (within_setF48 (ks := [.reg]) (by decide) _ _ _) (within_vetoStep (by decide) _)), strm_keep (within_setF (List.Subset.refl _) _ _), strm_setStrm, if_pos rfl]
      exact h

end Sys2Proof.Machine
end

