-- ==== Sys2Proof/Laws/FpMemory.lean ====
section
/-! SUPPORT. Footprints of the operations of Machine/Memory.lean: the parts of the state each can change. -/

namespace Sys2Proof.Machine

theorem within_holdReq {ks : List Kind} (hs : [.vault] ⊆ ks) (d : Nat) (i : Instr) :
    Within ks (holdReq d i) := by
  unfold holdReq
  repeat' (first
    | with_reducible exact within_skip ks
    | with_reducible exact within_seqs_nil ks
    | with_reducible refine within_seqs_cons ?_ ?_
    | with_reducible refine within_seq ?_ ?_
    | with_reducible refine within_withS fun _ => ?_
    | with_reducible refine within_emit_cons ?_ ?_
    | with_reducible exact within_emit_nil ks
    | with_reducible refine within_emit_append ?_ ?_
    | with_reducible refine within_emit_map fun _ => ?_
    | exact kind_mem hs (by dsimp only [Eff.kind]; decide)
    | split
    | dsimp only)

theorem within_setDir {ks : List Kind} (hs : [.dir] ⊆ ks) (line : Nat) (e : Option DirEnt) :
    Within ks (setDir line e) := by
  unfold setDir
  repeat' (first
    | with_reducible exact within_skip ks
    | with_reducible exact within_seqs_nil ks
    | with_reducible refine within_seqs_cons ?_ ?_
    | with_reducible refine within_seq ?_ ?_
    | with_reducible refine within_withS fun _ => ?_
    | with_reducible refine within_emit_cons ?_ ?_
    | with_reducible exact within_emit_nil ks
    | with_reducible refine within_emit_append ?_ ?_
    | with_reducible refine within_emit_map fun _ => ?_
    | exact kind_mem hs (by dsimp only [Eff.kind]; decide)
    | split
    | dsimp only)

theorem within_sendInvalidates {ks : List Kind} (hs : [.send] ⊆ ks) (line : Nat) (ms : List (Nat × Nat)) :
    Within ks (sendInvalidates line ms) := by
  unfold sendInvalidates
  repeat' (first
    | with_reducible exact within_skip ks
    | with_reducible exact within_seqs_nil ks
    | with_reducible refine within_seqs_cons ?_ ?_
    | with_reducible refine within_seq ?_ ?_
    | with_reducible refine within_withS fun _ => ?_
    | with_reducible refine within_forEach fun _ _ => ?_
    | with_reducible refine within_emit_cons ?_ ?_
    | with_reducible exact within_emit_nil ks
    | with_reducible refine within_emit_append ?_ ?_
    | with_reducible refine within_emit_map fun _ => ?_
    | exact kind_mem hs (by dsimp only [Eff.kind]; decide)
    | split
    | dsimp only)

theorem within_beginLocal {ks : List Kind} (hs : [.dir, .send] ⊆ ks) (line : Nat) (e : DirEnt) (write : Bool) :
    Within ks (beginLocal line e write) := by
  unfold beginLocal
  repeat' (first
    | with_reducible exact within_skip ks
    | with_reducible exact within_seqs_nil ks
    | with_reducible refine within_sendInvalidates (List.Subset.trans (by decide) hs) _ _
    | with_reducible refine within_setDir (List.Subset.trans (by decide) hs) _ _
    | with_reducible refine within_seqs_cons ?_ ?_
    | with_reducible refine within_seq ?_ ?_
    | with_reducible refine within_withS fun _ => ?_
    | with_reducible refine within_emit_cons ?_ ?_
    | with_reducible exact within_emit_nil ks
    | with_reducible refine within_emit_append ?_ ?_
    | with_reducible refine within_emit_map fun _ => ?_
    | exact kind_mem hs (by dsimp only [Eff.kind]; decide)
    | split
    | dsimp only)

theorem within_beginClear {ks : List Kind} (hs : [.dir, .send] ⊆ ks) (exts : List Ext) :
    Within ks (beginClear exts) := by
  unfold beginClear
  repeat' (first
    | with_reducible exact within_skip ks
    | with_reducible exact within_seqs_nil ks
    | with_reducible refine within_beginLocal (List.Subset.trans (by decide) hs) _ _ _
    | with_reducible refine within_seqs_cons ?_ ?_
    | with_reducible refine within_seq ?_ ?_
    | with_reducible refine within_withS fun _ => ?_
    | with_reducible refine within_onlyIf fun _ => ?_
    | with_reducible refine within_forEach fun _ _ => ?_
    | with_reducible refine within_given fun _ => ?_
    | split
    | dsimp only)

theorem within_whenReady {ks : List Kind} (hs : [.dir, .send] ⊆ ks) (exts : List Ext) (k : Prog) (h_k : Within ks (k)) :
    Within ks (whenReady exts k) := by
  unfold whenReady
  repeat' (first
    | exact h_k
    | with_reducible exact within_skip ks
    | with_reducible exact within_seqs_nil ks
    | with_reducible refine within_beginClear (List.Subset.trans (by decide) hs) _
    | with_reducible refine within_seqs_cons ?_ ?_
    | with_reducible refine within_seq ?_ ?_
    | with_reducible refine within_withS fun _ => ?_
    | split
    | dsimp only)

theorem within_orHeld {ks : List Kind} (hs : [.dir, .vault, .send] ⊆ ks) (d : Nat) (i : Instr) (exts : List Ext) (k : Prog) (h_k : Within ks (k)) :
    Within ks (orHeld d i exts k) := by
  unfold orHeld
  repeat' (first
    | exact h_k
    | with_reducible exact within_skip ks
    | with_reducible exact within_seqs_nil ks
    | with_reducible refine within_beginClear (List.Subset.trans (by decide) hs) _
    | with_reducible refine within_holdReq (List.Subset.trans (by decide) hs) _ _
    | with_reducible refine within_seqs_cons ?_ ?_
    | with_reducible refine within_seq ?_ ?_
    | with_reducible refine within_withS fun _ => ?_
    | split
    | dsimp only)

theorem within_dirRefuse {ks : List Kind} (hs : [.dir, .send] ⊆ ks) (line member die : Nat) (st : Status) :
    Within ks (dirRefuse line member die st) := by
  unfold dirRefuse
  repeat' (first
    | with_reducible exact within_skip ks
    | with_reducible exact within_seqs_nil ks
    | with_reducible refine within_setDir (List.Subset.trans (by decide) hs) _ _
    | with_reducible refine within_seqs_cons ?_ ?_
    | with_reducible refine within_seq ?_ ?_
    | with_reducible refine within_withS fun _ => ?_
    | with_reducible refine within_onlyIf fun _ => ?_
    | with_reducible refine within_given fun _ => ?_
    | with_reducible refine within_emit_cons ?_ ?_
    | with_reducible exact within_emit_nil ks
    | with_reducible refine within_emit_append ?_ ?_
    | with_reducible refine within_emit_map fun _ => ?_
    | exact kind_mem hs (by dsimp only [Eff.kind]; decide)
    | split
    | dsimp only)

theorem within_dirServe {ks : List Kind} (hs : [.reg, .core, .line, .dir, .send, .draw] ⊆ ks) (kind : CohKind) (member die line : Nat) :
    Within ks (dirServe kind member die line) := by
  unfold dirServe
  repeat' (first
    | with_reducible exact within_skip ks
    | with_reducible exact within_seqs_nil ks
    | with_reducible refine within_dirRefuse (List.Subset.trans (by decide) hs) _ _ _ _
    | with_reducible refine within_sendInvalidates (List.Subset.trans (by decide) hs) _ _
    | with_reducible refine within_setDir (List.Subset.trans (by decide) hs) _ _
    | with_reducible refine within_touch (List.Subset.trans (by decide) hs) _ _ _ _
    | with_reducible refine within_seqs_cons ?_ ?_
    | with_reducible refine within_seq ?_ ?_
    | with_reducible refine within_withS fun _ => ?_
    | with_reducible refine within_emit_cons ?_ ?_
    | with_reducible exact within_emit_nil ks
    | with_reducible refine within_emit_append ?_ ?_
    | with_reducible refine within_emit_map fun _ => ?_
    | exact kind_mem hs (by dsimp only [Eff.kind]; decide)
    | split
    | dsimp only)

theorem within_dirAlloc {ks : List Kind} (hs : [.reg, .dir, .send, .draw] ⊆ ks) (line : Nat) (wait k : Prog) (h_wait : Within ks (wait)) (h_k : Within ks (k)) :
    Within ks (dirAlloc line wait k) := by
  unfold dirAlloc
  repeat' (first
    | exact h_wait
    | exact h_k
    | with_reducible exact within_skip ks
    | with_reducible exact within_seqs_nil ks
    | with_reducible refine within_beginLocal (List.Subset.trans (by decide) hs) _ _ _
    | with_reducible refine within_incF (List.Subset.trans (by decide) hs) _ _
    | with_reducible refine within_setDir (List.Subset.trans (by decide) hs) _ _
    | with_reducible refine within_seqs_cons ?_ ?_
    | with_reducible refine within_seq ?_ ?_
    | with_reducible refine within_withS fun _ => ?_
    | with_reducible refine within_onlyIf fun _ => ?_
    | with_reducible refine within_forEach fun _ _ => ?_
    | with_reducible refine within_given fun _ => ?_
    | split
    | dsimp only)

theorem within_cohRequest {ks : List Kind} (hs : [.reg, .core, .line, .dir, .vault, .send, .draw] ⊆ ks) (kind : CohKind) (member die line : Nat) :
    Within ks (cohRequest kind member die line) := by
  unfold cohRequest
  repeat' (first
    | with_reducible exact within_skip ks
    | with_reducible exact within_seqs_nil ks
    | with_reducible refine within_dirAlloc (List.Subset.trans (by decide) hs) _ _ _ ?_ ?_
    | with_reducible refine within_dirServe (List.Subset.trans (by decide) hs) _ _ _ _
    | with_reducible refine within_holdReq (List.Subset.trans (by decide) hs) _ _
    | with_reducible refine within_seqs_cons ?_ ?_
    | with_reducible refine within_seq ?_ ?_
    | with_reducible refine within_withS fun _ => ?_
    | with_reducible refine within_emit_cons ?_ ?_
    | with_reducible exact within_emit_nil ks
    | with_reducible refine within_emit_append ?_ ?_
    | with_reducible refine within_emit_map fun _ => ?_
    | exact kind_mem hs (by dsimp only [Eff.kind]; decide)
    | split
    | dsimp only)

theorem within_endTrans {ks : List Kind} (hs : [.reg, .core, .line, .dir, .vault, .send, .draw] ⊆ ks) (line : Nat) (e : DirEnt) (next : Option (CohKind × Nat × Nat)) :
    Within ks (endTrans line e next) := by
  unfold endTrans
  repeat' (first
    | with_reducible exact within_skip ks
    | with_reducible exact within_seqs_nil ks
    | with_reducible refine within_dirServe (List.Subset.trans (by decide) hs) _ _ _ _
    | with_reducible refine within_holdReq (List.Subset.trans (by decide) hs) _ _
    | with_reducible refine within_setDir (List.Subset.trans (by decide) hs) _ _
    | with_reducible refine within_seqs_cons ?_ ?_
    | with_reducible refine within_seq ?_ ?_
    | with_reducible refine within_withS fun _ => ?_
    | with_reducible refine within_forEach fun _ _ => ?_
    | split
    | dsimp only)

theorem within_cohReplyProg {ks : List Kind} (hs : [.reg, .mem, .core, .line, .dir, .vault, .hurt, .cons, .pow, .log, .send, .draw] ⊆ ks) (line member die : Nat) (data : Option (List Byte)) :
    Within ks (cohReplyProg line member die data) := by
  unfold cohReplyProg
  repeat' (first
    | with_reducible exact within_skip ks
    | with_reducible exact within_seqs_nil ks
    | with_reducible refine within_endTrans (List.Subset.trans (by decide) hs) _ _ _
    | with_reducible refine within_lateProg (List.Subset.trans (by decide) hs) _
    | with_reducible refine within_setDir (List.Subset.trans (by decide) hs) _ _
    | with_reducible refine within_writeBytes (List.Subset.trans (by decide) hs) _ _ _
    | with_reducible refine within_seqs_cons ?_ ?_
    | with_reducible refine within_seq ?_ ?_
    | with_reducible refine within_withS fun _ => ?_
    | with_reducible refine within_given fun _ => ?_
    | split
    | dsimp only)

theorem within_cohTimeoutProg {ks : List Kind} (hs : [.reg, .core, .line, .dir, .vault, .hurt, .log, .send, .draw] ⊆ ks) (line : Nat) :
    Within ks (cohTimeoutProg line) := by
  unfold cohTimeoutProg
  repeat' (first
    | with_reducible exact within_skip ks
    | with_reducible exact within_seqs_nil ks
    | with_reducible refine within_endTrans (List.Subset.trans (by decide) hs) _ _ _
    | with_reducible refine within_incF (List.Subset.trans (by decide) hs) _ _
    | with_reducible refine within_logEv (List.Subset.trans (by decide) hs) _ _ _ _ _ _
    | with_reducible refine within_seqs_cons ?_ ?_
    | with_reducible refine within_seq ?_ ?_
    | with_reducible refine within_withS fun _ => ?_
    | with_reducible refine within_forEach fun _ _ => ?_
    | with_reducible refine within_given fun _ => ?_
    | with_reducible refine within_emit_cons ?_ ?_
    | with_reducible exact within_emit_nil ks
    | with_reducible refine within_emit_append ?_ ?_
    | with_reducible refine within_emit_map fun _ => ?_
    | exact kind_mem hs (by dsimp only [Eff.kind]; decide)
    | split
    | dsimp only)

theorem within_cohRecallProg {ks : List Kind} (hs : [.line, .send] ⊆ ks) (line : Nat) (kind : CohRecall) (die : Nat) :
    Within ks (cohRecallProg line kind die) := by
  unfold cohRecallProg
  repeat' (first
    | with_reducible exact within_skip ks
    | with_reducible exact within_seqs_nil ks
    | with_reducible refine within_seqs_cons ?_ ?_
    | with_reducible refine within_seq ?_ ?_
    | with_reducible refine within_withS fun _ => ?_
    | with_reducible refine within_emit_cons ?_ ?_
    | with_reducible exact within_emit_nil ks
    | with_reducible refine within_emit_append ?_ ?_
    | with_reducible refine within_emit_map fun _ => ?_
    | exact kind_mem hs (by dsimp only [Eff.kind, cohNotice]; decide)
    | split
    | dsimp only)

theorem within_reply {ks : List Kind} (hs : [.send] ⊆ ks) (who : Requester) (a : Nat) (st : Status) (data : List Byte) :
    Within ks (reply who a st data) := by
  unfold reply
  repeat' (first
    | with_reducible exact within_skip ks
    | with_reducible exact within_seqs_nil ks
    | with_reducible refine within_seqs_cons ?_ ?_
    | with_reducible refine within_seq ?_ ?_
    | with_reducible refine within_withS fun _ => ?_
    | with_reducible refine within_emit_cons ?_ ?_
    | with_reducible exact within_emit_nil ks
    | with_reducible refine within_emit_append ?_ ?_
    | with_reducible refine within_emit_map fun _ => ?_
    | exact kind_mem hs (by dsimp only [Eff.kind]; decide)
    | split
    | dsimp only)

theorem within_vaultReadProg {ks : List Kind} (hs : [.reg, .core, .line, .send, .draw] ⊆ ks) (who : Requester) (a len : Nat) :
    Within ks (vaultReadProg who a len) := by
  unfold vaultReadProg
  repeat' (first
    | with_reducible exact within_skip ks
    | with_reducible exact within_seqs_nil ks
    | with_reducible refine within_reply (List.Subset.trans (by decide) hs) _ _ _ _
    | with_reducible refine within_touch (List.Subset.trans (by decide) hs) _ _ _ _
    | with_reducible refine within_seqs_cons ?_ ?_
    | with_reducible refine within_seq ?_ ?_
    | with_reducible refine within_withS fun _ => ?_
    | split
    | dsimp only)

theorem within_vaultWriteProg {ks : List Kind} (hs : [.reg, .mem, .core, .line, .hurt, .cons, .pow, .log, .send, .draw] ⊆ ks) (who : Requester) (a : Nat) (data : List Byte) :
    Within ks (vaultWriteProg who a data) := by
  unfold vaultWriteProg
  repeat' (first
    | with_reducible exact within_skip ks
    | with_reducible exact within_seqs_nil ks
    | with_reducible refine within_reply (List.Subset.trans (by decide) hs) _ _ _ _
    | with_reducible refine within_writeBytes (List.Subset.trans (by decide) hs) _ _ _
    | with_reducible refine within_seqs_cons ?_ ?_
    | with_reducible refine within_seq ?_ ?_
    | with_reducible refine within_withS fun _ => ?_
    | split
    | dsimp only)

theorem within_atomicApply {ks : List Kind} (hs : [.reg, .mem, .core, .line, .hurt, .cons, .pow, .log, .send, .draw] ⊆ ks) (who : Requester) (op a : Nat) (size8 : Bool) (v c : Nat) (k : Nat → Prog) (h_k : ∀ x0, Within ks (k x0)) :
    Within ks (atomicApply who op a size8 v c k) := by
  unfold atomicApply
  repeat' (first
    | exact h_k _
    | with_reducible exact within_skip ks
    | with_reducible exact within_seqs_nil ks
    | with_reducible refine within_incF (List.Subset.trans (by decide) hs) _ _
    | with_reducible refine within_writeBytes (List.Subset.trans (by decide) hs) _ _ _
    | with_reducible refine within_seqs_cons ?_ ?_
    | with_reducible refine within_seq ?_ ?_
    | with_reducible refine within_withS fun _ => ?_
    | split
    | dsimp only)

theorem within_atomicProg {ks : List Kind} (hs : [.reg, .mem, .core, .line, .hurt, .cons, .pow, .log, .send, .draw] ⊆ ks) (who : Requester) (op a : Nat) (size8 : Bool) (v c : Nat) :
    Within ks (atomicProg who op a size8 v c) := by
  unfold atomicProg
  repeat' (first
    | with_reducible exact within_skip ks
    | with_reducible exact within_seqs_nil ks
    | with_reducible refine within_atomicApply (List.Subset.trans (by decide) hs) _ _ _ _ _ _ _ (fun _ => ?_)
    | with_reducible refine within_reply (List.Subset.trans (by decide) hs) _ _ _ _
    | with_reducible refine within_seqs_cons ?_ ?_
    | with_reducible refine within_seq ?_ ?_
    | with_reducible refine within_withS fun _ => ?_
    | split
    | dsimp only)

theorem within_putBlock {ks : List Kind} (hs : [.reg, .mem, .core, .line, .hurt, .cons, .pow, .log, .send, .draw] ⊆ ks) (who : Requester) (a : Nat) (b : ExBlock) :
    Within ks (putBlock who a b) := by
  unfold putBlock
  repeat' (first
    | with_reducible exact within_skip ks
    | with_reducible exact within_seqs_nil ks
    | with_reducible refine within_incF (List.Subset.trans (by decide) hs) _ _
    | with_reducible refine within_writeBytes (List.Subset.trans (by decide) hs) _ _ _
    | with_reducible refine within_seqs_cons ?_ ?_
    | with_reducible refine within_seq ?_ ?_
    | with_reducible refine within_withS fun _ => ?_
    | split
    | dsimp only)

theorem within_exactAddProg {ks : List Kind} (hs : [.reg, .mem, .core, .line, .hurt, .cons, .pow, .log, .send, .draw] ⊆ ks) (who : Requester) (a mask : Nat) (xs : List Word) :
    Within ks (exactAddProg who a mask xs) := by
  unfold exactAddProg
  repeat' (first
    | with_reducible exact within_skip ks
    | with_reducible exact within_seqs_nil ks
    | with_reducible refine within_putBlock (List.Subset.trans (by decide) hs) _ _ _
    | with_reducible refine within_reply (List.Subset.trans (by decide) hs) _ _ _ _
    | with_reducible refine within_seqs_cons ?_ ?_
    | with_reducible refine within_seq ?_ ?_
    | with_reducible refine within_withS fun _ => ?_
    | split
    | dsimp only)

theorem within_exactReadProg {ks : List Kind} (hs : [.reg, .send, .draw] ⊆ ks) (who : Requester) (a : Nat) :
    Within ks (exactReadProg who a) := by
  unfold exactReadProg
  repeat' (first
    | with_reducible exact within_skip ks
    | with_reducible exact within_seqs_nil ks
    | with_reducible refine within_incF (List.Subset.trans (by decide) hs) _ _
    | with_reducible refine within_reply (List.Subset.trans (by decide) hs) _ _ _ _
    | with_reducible refine within_seqs_cons ?_ ?_
    | with_reducible refine within_seq ?_ ?_
    | with_reducible refine within_withS fun _ => ?_
    | split
    | dsimp only)

theorem within_exactClearProg {ks : List Kind} (hs : [.reg, .mem, .core, .line, .hurt, .cons, .pow, .log, .send, .draw] ⊆ ks) (who : Requester) (a : Nat) :
    Within ks (exactClearProg who a) := by
  unfold exactClearProg
  repeat' (first
    | with_reducible exact within_skip ks
    | with_reducible exact within_seqs_nil ks
    | with_reducible refine within_putBlock (List.Subset.trans (by decide) hs) _ _ _
    | with_reducible refine within_reply (List.Subset.trans (by decide) hs) _ _ _ _
    | with_reducible refine within_seqs_cons ?_ ?_
    | with_reducible refine within_seq ?_ ?_
    | with_reducible refine within_withS fun _ => ?_
    | split
    | dsimp only)

theorem within_serveReq {ks : List Kind} (hs : [.reg, .mem, .core, .line, .hurt, .cons, .pow, .log, .send, .draw] ⊆ ks) (y0 : Instr) :
    Within ks (serveReq y0) := by
  unfold serveReq
  repeat' (first
    | with_reducible exact within_skip ks
    | with_reducible exact within_seqs_nil ks
    | with_reducible refine within_atomicProg (List.Subset.trans (by decide) hs) _ _ _ _ _ _
    | with_reducible refine within_exactAddProg (List.Subset.trans (by decide) hs) _ _ _ _
    | with_reducible refine within_exactClearProg (List.Subset.trans (by decide) hs) _ _
    | with_reducible refine within_exactReadProg (List.Subset.trans (by decide) hs) _ _
    | with_reducible refine within_vaultReadProg (List.Subset.trans (by decide) hs) _ _ _
    | with_reducible refine within_vaultWriteProg (List.Subset.trans (by decide) hs) _ _ _
    | with_reducible refine within_seqs_cons ?_ ?_
    | with_reducible refine within_seq ?_ ?_
    | with_reducible refine within_withS fun _ => ?_
    | split
    | dsimp only)

theorem within_askGrants {ks : List Kind} (hs : [.slice] ⊆ ks) (i : Instr) :
    Within ks (askGrants i) := by
  unfold askGrants
  repeat' (first
    | with_reducible exact within_skip ks
    | with_reducible exact within_seqs_nil ks
    | with_reducible refine within_seqs_cons ?_ ?_
    | with_reducible refine within_seq ?_ ?_
    | with_reducible refine within_withS fun _ => ?_
    | with_reducible refine within_onlyIf fun _ => ?_
    | with_reducible refine within_given fun _ => ?_
    | with_reducible refine within_emit_cons ?_ ?_
    | with_reducible exact within_emit_nil ks
    | with_reducible refine within_emit_append ?_ ?_
    | with_reducible refine within_emit_map fun _ => ?_
    | exact kind_mem hs (by dsimp only [Eff.kind]; decide)
    | split
    | dsimp only)

theorem within_vaultReq {ks : List Kind} (hs : [.reg, .mem, .core, .line, .dir, .vault, .slice, .hurt, .cons, .pow, .log, .send, .draw] ⊆ ks) (i : Instr) :
    Within ks (vaultReq i) := by
  unfold vaultReq
  repeat' (first
    | with_reducible exact within_skip ks
    | with_reducible exact within_seqs_nil ks
    | with_reducible refine within_askGrants (List.Subset.trans (by decide) hs) _
    | with_reducible refine within_orHeld (List.Subset.trans (by decide) hs) _ _ _ _ ?_
    | with_reducible refine within_serveReq (List.Subset.trans (by decide) hs) _
    | with_reducible refine within_seqs_cons ?_ ?_
    | with_reducible refine within_seq ?_ ?_
    | with_reducible refine within_withS fun _ => ?_
    | with_reducible refine within_given fun _ => ?_
    | split
    | dsimp only)

theorem within_wipe {ks : List Kind} (hs : [.mem, .hurt] ⊆ ks) (lo hi : Nat) :
    Within ks (wipe lo hi) := by
  unfold wipe
  repeat' (first
    | with_reducible exact within_skip ks
    | with_reducible exact within_seqs_nil ks
    | with_reducible refine within_seqs_cons ?_ ?_
    | with_reducible refine within_seq ?_ ?_
    | with_reducible refine within_withS fun _ => ?_
    | with_reducible refine within_emit_cons ?_ ?_
    | with_reducible exact within_emit_nil ks
    | with_reducible refine within_emit_append ?_ ?_
    | with_reducible refine within_emit_map fun _ => ?_
    | exact kind_mem hs (by dsimp only [Eff.kind]; decide)
    | split
    | dsimp only)

theorem within_showSlices {ks : List Kind} (hs : [.reg] ⊆ ks) (d gib : Nat) :
    Within ks (showSlices d gib) := by
  unfold showSlices
  repeat' (first
    | with_reducible exact within_skip ks
    | with_reducible exact within_seqs_nil ks
    | with_reducible refine within_setF (List.Subset.trans (by decide) hs) _ _
    | with_reducible refine within_seqs_cons ?_ ?_
    | with_reducible refine within_seq ?_ ?_
    | with_reducible refine within_withS fun _ => ?_
    | with_reducible refine within_forEach fun _ _ => ?_
    | split
    | dsimp only)

theorem within_partitionProg {ks : List Kind} (hs : [.reg, .mem, .line, .hurt, .send, .draw] ⊆ ks) (d gib : Nat) :
    Within ks (partitionProg d gib) := by
  unfold partitionProg
  repeat' (first
    | with_reducible exact within_skip ks
    | with_reducible exact within_seqs_nil ks
    | with_reducible refine within_dropLine (List.Subset.trans (by decide) hs) _ _
    | with_reducible refine within_setF (List.Subset.trans (by decide) hs) _ _
    | with_reducible refine within_showSlices (List.Subset.trans (by decide) hs) _ _
    | with_reducible refine within_wipe (List.Subset.trans (by decide) hs) _ _
    | with_reducible refine within_seqs_cons ?_ ?_
    | with_reducible refine within_seq ?_ ?_
    | with_reducible refine within_withS fun _ => ?_
    | with_reducible refine within_onlyIf fun _ => ?_
    | with_reducible refine within_forEach fun _ _ => ?_
    | split
    | dsimp only)

theorem within_partitionDoneProg {ks : List Kind} (hs : [.reg] ⊆ ks) (d : Nat) :
    Within ks (partitionDoneProg d) := by
  unfold partitionDoneProg
  repeat' (first
    | with_reducible exact within_skip ks
    | with_reducible exact within_seqs_nil ks
    | with_reducible refine within_setF (List.Subset.trans (by decide) hs) _ _
    | with_reducible refine within_seqs_cons ?_ ?_
    | with_reducible refine within_seq ?_ ?_
    | with_reducible refine within_withS fun _ => ?_
    | with_reducible refine within_onlyIf fun _ => ?_
    | split
    | dsimp only)

theorem within_cleanLine {ks : List Kind} (hs : [.reg, .line, .send, .draw] ⊆ ks) (e : Nat × CLine) :
    Within ks (cleanLine e) := by
  unfold cleanLine
  repeat' (first
    | with_reducible exact within_skip ks
    | with_reducible exact within_seqs_nil ks
    | with_reducible refine within_countHbm (List.Subset.trans (by decide) hs) _ _ _ _
    | with_reducible refine within_seqs_cons ?_ ?_
    | with_reducible refine within_seq ?_ ?_
    | with_reducible refine within_withS fun _ => ?_
    | with_reducible refine within_onlyIf fun _ => ?_
    | with_reducible refine within_emit_cons ?_ ?_
    | with_reducible exact within_emit_nil ks
    | with_reducible refine within_emit_append ?_ ?_
    | with_reducible refine within_emit_map fun _ => ?_
    | exact kind_mem hs (by dsimp only [Eff.kind, cohNotice]; decide)
    | split
    | dsimp only)

theorem within_flushProg {ks : List Kind} (hs : [.reg, .line, .send, .draw] ⊆ ks) (d : Nat) (invalidate : Bool) :
    Within ks (flushProg d invalidate) := by
  unfold flushProg
  repeat' (first
    | with_reducible exact within_skip ks
    | with_reducible exact within_seqs_nil ks
    | with_reducible refine within_cleanLine (List.Subset.trans (by decide) hs) _
    | with_reducible refine within_dropLine (List.Subset.trans (by decide) hs) _ _
    | with_reducible refine within_setF (List.Subset.trans (by decide) hs) _ _
    | with_reducible refine within_seqs_cons ?_ ?_
    | with_reducible refine within_seq ?_ ?_
    | with_reducible refine within_withS fun _ => ?_
    | with_reducible refine within_forEach fun _ _ => ?_
    | split
    | dsimp only)

theorem within_flushDoneProg {ks : List Kind} (hs : [.reg] ⊆ ks) (d : Nat) :
    Within ks (flushDoneProg d) := by
  unfold flushDoneProg
  repeat' (first
    | with_reducible exact within_skip ks
    | with_reducible exact within_seqs_nil ks
    | with_reducible refine within_setF (List.Subset.trans (by decide) hs) _ _
    | with_reducible refine within_seqs_cons ?_ ?_
    | with_reducible refine within_seq ?_ ?_
    | with_reducible refine within_withS fun _ => ?_
    | with_reducible refine within_onlyIf fun _ => ?_
    | split
    | dsimp only)

theorem within_scrubPair {ks : List Kind} (hs : [.reg, .mem, .line, .vault, .hurt] ⊆ ks) (i : Nat) :
    Within ks (scrubPair i) := by
  unfold scrubPair
  repeat' (first
    | with_reducible exact within_skip ks
    | with_reducible exact within_seqs_nil ks
    | with_reducible refine within_setF (List.Subset.trans (by decide) hs) _ _
    | with_reducible refine within_wipe (List.Subset.trans (by decide) hs) _ _
    | with_reducible refine within_seqs_cons ?_ ?_
    | with_reducible refine within_seq ?_ ?_
    | with_reducible refine within_withS fun _ => ?_
    | with_reducible refine within_forEach fun _ _ => ?_
    | with_reducible refine within_emit_cons ?_ ?_
    | with_reducible exact within_emit_nil ks
    | with_reducible refine within_emit_append ?_ ?_
    | with_reducible refine within_emit_map fun _ => ?_
    | exact kind_mem hs (by dsimp only [Eff.kind]; decide)
    | split
    | dsimp only)

theorem within_pageAttrProg {ks : List Kind} (hs : [.reg, .mem, .line, .vault, .hurt, .draw] ⊆ ks) (d w value : Nat) :
    Within ks (pageAttrProg d w value) := by
  unfold pageAttrProg
  repeat' (first
    | with_reducible exact within_skip ks
    | with_reducible exact within_seqs_nil ks
    | with_reducible refine within_incF (List.Subset.trans (by decide) hs) _ _
    | with_reducible refine within_scrubPair (List.Subset.trans (by decide) hs) _
    | with_reducible refine within_setF (List.Subset.trans (by decide) hs) _ _
    | with_reducible refine within_seqs_cons ?_ ?_
    | with_reducible refine within_seq ?_ ?_
    | with_reducible refine within_withS fun _ => ?_
    | with_reducible refine within_onlyIf fun _ => ?_
    | with_reducible refine within_forEach fun _ _ => ?_
    | split
    | dsimp only)

theorem within_scrubDoneProg {ks : List Kind} (hs : [.reg, .vault] ⊆ ks) (i : Nat) :
    Within ks (scrubDoneProg i) := by
  unfold scrubDoneProg
  repeat' (first
    | with_reducible exact within_skip ks
    | with_reducible exact within_seqs_nil ks
    | with_reducible refine within_setF (List.Subset.trans (by decide) hs) _ _
    | with_reducible refine within_seqs_cons ?_ ?_
    | with_reducible refine within_seq ?_ ?_
    | with_reducible refine within_withS fun _ => ?_
    | with_reducible refine within_onlyIf fun _ => ?_
    | with_reducible refine within_emit_cons ?_ ?_
    | with_reducible exact within_emit_nil ks
    | with_reducible refine within_emit_append ?_ ?_
    | with_reducible refine within_emit_map fun _ => ?_
    | exact kind_mem hs (by dsimp only [Eff.kind]; decide)
    | split
    | dsimp only)

theorem within_arbitrationProg {ks : List Kind} (hs : [.reg, .slice, .draw] ⊆ ks) (d i rd wr : Nat) :
    Within ks (arbitrationProg d i rd wr) := by
  unfold arbitrationProg
  repeat' (first
    | with_reducible exact within_skip ks
    | with_reducible exact within_seqs_nil ks
    | with_reducible refine within_incF (List.Subset.trans (by decide) hs) _ _
    | with_reducible refine within_setF (List.Subset.trans (by decide) hs) _ _
    | with_reducible refine within_seqs_cons ?_ ?_
    | with_reducible refine within_seq ?_ ?_
    | with_reducible refine within_withS fun _ => ?_
    | with_reducible refine within_emit_cons ?_ ?_
    | with_reducible exact within_emit_nil ks
    | with_reducible refine within_emit_append ?_ ?_
    | with_reducible refine within_emit_map fun _ => ?_
    | exact kind_mem hs (by dsimp only [Eff.kind]; decide)
    | split
    | dsimp only)

theorem within_lfsrSeedProg {ks : List Kind} (hs : [.reg] ⊆ ks) (d i seed : Nat) :
    Within ks (lfsrSeedProg d i seed) := by
  unfold lfsrSeedProg
  repeat' (first
    | with_reducible exact within_skip ks
    | with_reducible exact within_seqs_nil ks
    | with_reducible refine within_setF (List.Subset.trans (by decide) hs) _ _
    | with_reducible refine within_seqs_cons ?_ ?_
    | with_reducible refine within_seq ?_ ?_
    | with_reducible refine within_withS fun _ => ?_
    | split
    | dsimp only)

theorem within_hbmClearProg {ks : List Kind} (hs : [.reg] ⊆ ks) (k : Nat) :
    Within ks (hbmClearProg k) := by
  unfold hbmClearProg
  repeat' (first
    | with_reducible exact within_skip ks
    | with_reducible exact within_seqs_nil ks
    | with_reducible refine within_setF (List.Subset.trans (by decide) hs) _ _
    | with_reducible refine within_seqs_cons ?_ ?_
    | with_reducible refine within_seq ?_ ?_
    | with_reducible refine within_withS fun _ => ?_
    | split
    | dsimp only)

theorem within_thermalProg {ks : List Kind} (hs : [.reg, .draw] ⊆ ks) (d : Nat) (slices hbms : List Nat) :
    Within ks (thermalProg d slices hbms) := by
  unfold thermalProg
  repeat' (first
    | with_reducible exact within_skip ks
    | with_reducible exact within_seqs_nil ks
    | with_reducible refine within_incF (List.Subset.trans (by decide) hs) _ _
    | with_reducible refine within_setBitF (List.Subset.trans (by decide) hs) _ _ _
    | with_reducible refine within_setF (List.Subset.trans (by decide) hs) _ _
    | with_reducible refine within_seqs_cons ?_ ?_
    | with_reducible refine within_seq ?_ ?_
    | with_reducible refine within_withS fun _ => ?_
    | with_reducible refine within_forEach fun _ _ => ?_
    | split
    | dsimp only)

end Sys2Proof.Machine
end

