-- ==== Sys2Proof/Laws/FpArrays.lean ====
section
/-! SUPPORT. Footprints of the operations of Machine/Arrays.lean: the parts of the state each can change. -/

namespace Sys2Proof.Machine

theorem within_stagePeak {ks : List Kind} (hs : [.reg, .draw] ⊆ ks) (j : DrainJob) :
    Within ks (stagePeak j) := by
  unfold stagePeak
  repeat' (first
    | with_reducible exact within_skip ks
    | with_reducible exact within_seqs_nil ks
    | with_reducible refine within_setF (List.Subset.trans (by decide) hs) _ _
    | with_reducible refine within_seqs_cons ?_ ?_
    | with_reducible refine within_seq ?_ ?_
    | with_reducible refine within_withS fun _ => ?_
    | with_reducible refine within_drawFree (kind_mem hs (by decide)) fun _ => ?_
    | split
    | dsimp only)

theorem within_countArrays {ks : List Kind} (hs : [.reg, .draw] ⊆ ks) (n tiles : Nat) (macs : Option Nat) :
    Within ks (countArrays n tiles macs) := by
  unfold countArrays
  repeat' (first
    | with_reducible exact within_skip ks
    | with_reducible exact within_seqs_nil ks
    | with_reducible refine within_incF (List.Subset.trans (by decide) hs) _ _
    | with_reducible refine within_timed (List.Subset.trans (by decide) hs) _
    | with_reducible refine within_seqs_cons ?_ ?_
    | with_reducible refine within_seq ?_ ?_
    | with_reducible refine within_withS fun _ => ?_
    | split
    | dsimp only)

theorem within_unstarve {ks : List Kind} (hs : [.core] ⊆ ks) (sid acc : Nat) :
    Within ks (unstarve sid acc) := by
  unfold unstarve
  repeat' (first
    | with_reducible exact within_skip ks
    | with_reducible exact within_seqs_nil ks
    | with_reducible refine within_seqs_cons ?_ ?_
    | with_reducible refine within_seq ?_ ?_
    | with_reducible refine within_withS fun _ => ?_
    | with_reducible refine within_onlyIf fun _ => ?_
    | with_reducible refine within_emit_cons ?_ ?_
    | with_reducible exact within_emit_nil ks
    | with_reducible refine within_emit_append ?_ ?_
    | with_reducible refine within_emit_map fun _ => ?_
    | exact kind_mem hs (by dsimp only [Eff.kind]; decide)
    | split
    | dsimp only)

theorem within_arrayWork {ks : List Kind} (hs : [.reg, .mem, .flag, .strm, .core, .line, .hurt, .cons, .pow, .log, .send, .draw] ⊆ ks) (sid : Nat) (c : Cmd) (a : ArrayJob) (j : DrainJob) :
    Within ks (arrayWork sid c a j) := by
  unfold arrayWork
  refine within_withS fun s => ?_
  dsimp only
  have hup : ∀ f v, Within ks (setF f v) := fun f v => within_setF (List.Subset.trans (by decide) hs) f v
  refine within_seq (within_startCmd (List.Subset.trans (by decide) hs) _ _) ?_
  have he : ∀ st, Within ks (endCmd sid c st) := fun st => within_endCmd (List.Subset.trans (by decide) hs) _ _ _ _
  generalize s.anyHurt _ = x
  cases x with
  | some st => exact he st
  | none =>
    generalize List.find? _ _ = y
    cases y with
    | some x => exact within_seqs_cons (hup _ _) (within_seqs_cons (within_useArmed (List.Subset.trans (by decide) hs) _ _ _ _ _ _
        fun _ => within_logDetect (List.Subset.trans (by decide) hs) _ _ _ _ _ _ _) (within_seqs_cons (he _) (within_seqs_nil ks)))
    | none =>
      refine within_ite (within_seq (within_useArmed (List.Subset.trans (by decide) hs) _ _ _ _ _ _
        fun _ => within_logDetect (List.Subset.trans (by decide) hs) _ _ _ _ _ _ _) (he _)) ?_
      refine within_seqs_cons (hup _ _) ?_
      refine within_seqs_cons (within_countArrays (List.Subset.trans (by decide) hs) _ _ _) ?_
      refine within_seqs_cons (within_stagePeak (List.Subset.trans (by decide) hs) _) ?_
      refine within_seqs_cons (within_unstarve (List.Subset.trans (by decide) hs) _ _) ?_
      refine within_seqs_cons ?_ (within_seqs_nil ks)
      generalize List.map _ _ = l
      exact within_drainEnd (List.Subset.trans (by decide) hs) _ _ _ _ _ _

theorem within_arrayGated {ks : List Kind} (hs : [.reg, .mem, .flag, .strm, .core, .line, .dir, .hurt, .cons, .pow, .log, .send, .draw] ⊆ ks) (sid : Nat) (c : Cmd) (a : ArrayJob) (j : DrainJob) :
    Within ks (arrayGated sid c a j) := by
  unfold arrayGated
  refine within_withS fun s => ?_
  have he : ∀ st b, Within ks (endCmd sid c st b) := fun st b => within_endCmd (List.Subset.trans (by decide) hs) _ _ _ _
  generalize Option.or _ _ = z
  cases z with
  | some st => exact he st _
  | none =>
    refine within_ite (within_skip ks) ?_
    generalize s.gate j = g
    cases g with
    | busy => exact within_beginClear (List.Subset.trans (by decide) hs) _
    | fault st => exact he st _
    | skip_ => exact within_seq (within_incF (List.Subset.trans (by decide) hs) _ _) (he _ _)
    | open_ => exact within_arrayWork (List.Subset.trans (by decide) hs) _ _ _ _

theorem within_arrayProg {ks : List Kind} (hs : [.reg, .mem, .flag, .strm, .core, .line, .dir, .hurt, .cons, .pow, .log, .send, .draw] ⊆ ks) (sid : Nat) (c : Cmd) (a : ArrayJob) :
    Within ks (arrayProg sid c a) := by
  unfold arrayProg
  refine within_withS fun s => ?_
  have he : ∀ st b, Within ks (endCmd sid c st b) := fun st b => within_endCmd (List.Subset.trans (by decide) hs) _ _ _ _
  generalize Option.or _ _ = x
  cases x with
  | some st => exact he st _
  | none =>
    refine within_ite (he _ _) (within_ite (he _ _) (within_ite (he _ _) ?_))
    generalize s.readHurt _ 64 = y
    cases y with
    | some st => exact he st _
    | none => exact within_arrayGated (List.Subset.trans (by decide) hs) _ _ _ _

theorem within_rampUpProg {ks : List Kind} (hs : [.reg] ⊆ ks) (n g : Nat) :
    Within ks (rampUpProg n g) := by
  unfold rampUpProg
  repeat' (first
    | with_reducible exact within_skip ks
    | with_reducible exact within_seqs_nil ks
    | with_reducible refine within_setF (List.Subset.trans (by decide) hs) _ _
    | with_reducible refine within_seqs_cons ?_ ?_
    | with_reducible refine within_seq ?_ ?_
    | with_reducible refine within_withS fun _ => ?_
    | with_reducible refine within_onlyIf fun _ => ?_
    | split
    | dsimp only)

theorem within_rampDownProg {ks : List Kind} (hs : [.reg] ⊆ ks) (n g : Nat) :
    Within ks (rampDownProg n g) := by
  unfold rampDownProg
  repeat' (first
    | with_reducible exact within_skip ks
    | with_reducible exact within_seqs_nil ks
    | with_reducible refine within_setF (List.Subset.trans (by decide) hs) _ _
    | with_reducible refine within_seqs_cons ?_ ?_
    | with_reducible refine within_seq ?_ ?_
    | with_reducible refine within_withS fun _ => ?_
    | with_reducible refine within_onlyIf fun _ => ?_
    | split
    | dsimp only)

theorem within_arrCntClearProg {ks : List Kind} (hs : [.reg, .core] ⊆ ks) (n : Nat) :
    Within ks (arrCntClearProg n) := by
  unfold arrCntClearProg
  repeat' (first
    | with_reducible exact within_skip ks
    | with_reducible exact within_seqs_nil ks
    | with_reducible refine within_setF (List.Subset.trans (by decide) hs) _ _
    | with_reducible refine within_ungate (List.Subset.trans (by decide) hs) _
    | with_reducible refine within_seqs_cons ?_ ?_
    | with_reducible refine within_seq ?_ ?_
    | with_reducible refine within_withS fun _ => ?_
    | split
    | dsimp only)

theorem within_deferStarveProg {ks : List Kind} (hs : [.core] ⊆ ks) (sid acc : Nat) :
    Within ks (deferStarveProg sid acc) := by
  unfold deferStarveProg
  repeat' (first
    | with_reducible exact within_skip ks
    | with_reducible exact within_seqs_nil ks
    | with_reducible refine within_seqs_cons ?_ ?_
    | with_reducible refine within_seq ?_ ?_
    | with_reducible refine within_withS fun _ => ?_
    | with_reducible refine within_onlyIf fun _ => ?_
    | with_reducible refine within_emit_cons ?_ ?_
    | with_reducible exact within_emit_nil ks
    | with_reducible refine within_emit_append ?_ ?_
    | with_reducible refine within_emit_map fun _ => ?_
    | exact kind_mem hs (by dsimp only [Eff.kind]; decide)
    | split
    | dsimp only)

theorem within_arraySpareProg {ks : List Kind} (hs : [.reg, .core, .cons, .log, .send, .draw] ⊆ ks) (n a : Nat) :
    Within ks (arraySpareProg n a) := by
  unfold arraySpareProg
  repeat' (first
    | with_reducible exact within_skip ks
    | with_reducible exact within_seqs_nil ks
    | with_reducible refine within_pendCore (List.Subset.trans (by decide) hs) _
    | with_reducible refine within_recordRepair (List.Subset.trans (by decide) hs) _
    | with_reducible refine within_setF (List.Subset.trans (by decide) hs) _ _
    | with_reducible refine within_seqs_cons ?_ ?_
    | with_reducible refine within_seq ?_ ?_
    | with_reducible refine within_withS fun _ => ?_
    | with_reducible refine within_onlyIf fun _ => ?_
    | with_reducible refine within_emit_cons ?_ ?_
    | with_reducible exact within_emit_nil ks
    | with_reducible refine within_emit_append ?_ ?_
    | with_reducible refine within_emit_map fun _ => ?_
    | exact kind_mem hs (by dsimp only [Eff.kind]; decide)
    | split
    | dsimp only)

theorem within_onArray {ks : List Kind} (hs : [.reg, .mem, .flag, .strm, .core, .line, .dir, .hurt, .cons, .pow, .log, .send, .draw] ⊆ ks) (sid acc cls op : Nat) (job : State → Nat → Block64 → ArrayJob) :
    Within ks (onArray sid acc cls op job) := by
  unfold onArray
  repeat' (first
    | with_reducible exact within_skip ks
    | with_reducible exact within_seqs_nil ks
    | with_reducible refine within_arrayProg (List.Subset.trans (by decide) hs) _ _ _
    | with_reducible refine within_onIssued (List.Subset.trans (by decide) hs) _ _ _ _ _ (fun _ => ?_)
    | with_reducible refine within_seqs_cons ?_ ?_
    | with_reducible refine within_seq ?_ ?_
    | with_reducible refine within_withS fun _ => ?_
    | split
    | dsimp only)

end Sys2Proof.Machine
end

