-- ==== Sys2Proof/Laws/FpVector.lean ====
section
/-! SUPPORT. Footprints of the operations of Machine/Vector.lean: the parts of the state each can change. -/

namespace Sys2Proof.Machine

theorem within_vectorWork {ks : List Kind} (hs : [.reg, .mem, .flag, .strm, .core, .line, .hurt, .cons, .pow, .log, .send, .draw] ⊆ ks) (sid : Nat) (c : Cmd) (v : VecJob) (j : DrainJob) :
    Within ks (vectorWork sid c v j) := by
  unfold vectorWork
  refine within_withS fun s => ?_
  refine within_seq (within_startCmd (List.Subset.trans (by decide) hs) _ _) ?_
  have he : ∀ st, Within ks (endCmd sid c st) := fun st => within_endCmd (List.Subset.trans (by decide) hs) _ _ _ _
  generalize s.anyHurt _ = x
  cases x with
  | some st => exact he st
  | none =>
    refine within_ite (within_seq (within_useArmed (List.Subset.trans (by decide) hs) _ _ _ _ _ _
      fun _ => within_logDetect (List.Subset.trans (by decide) hs) _ _ _ _ _ _ _) (he _)) ?_
    refine within_seqs_cons (within_timed (List.Subset.trans (by decide) hs) _) ?_
    refine within_seqs_cons (within_timed (List.Subset.trans (by decide) hs) _) ?_
    refine within_seqs_cons (within_stagePeak (List.Subset.trans (by decide) hs) _) ?_
    refine within_seqs_cons ?_ (within_seqs_nil ks)
    generalize List.map _ _ = l
    exact within_drainEnd (List.Subset.trans (by decide) hs) _ _ _ _ _ _

theorem within_vectorGated {ks : List Kind} (hs : [.reg, .mem, .flag, .strm, .core, .line, .dir, .hurt, .cons, .pow, .log, .send, .draw] ⊆ ks) (sid : Nat) (c : Cmd) (v : VecJob) (j : DrainJob) :
    Within ks (vectorGated sid c v j) := by
  unfold vectorGated
  refine within_withS fun s => ?_
  have he : ∀ st b, Within ks (endCmd sid c st b) := fun st b => within_endCmd (List.Subset.trans (by decide) hs) _ _ _ _
  generalize j.faults s 0 = z
  cases z with
  | some st => exact he st _
  | none =>
    generalize s.gate j = g
    cases g with
    | busy => exact within_beginClear (List.Subset.trans (by decide) hs) _
    | fault st => exact he st _
    | skip_ => exact within_seq (within_incF (List.Subset.trans (by decide) hs) _ _) (he _ _)
    | open_ => exact within_vectorWork (List.Subset.trans (by decide) hs) _ _ _ _

theorem within_vectorProg {ks : List Kind} (hs : [.reg, .mem, .flag, .strm, .core, .line, .dir, .hurt, .cons, .pow, .log, .send, .draw] ⊆ ks) (v : VecJob) (sid : Nat) (c : Cmd) :
    Within ks (vectorProg v sid c) := by
  unfold vectorProg
  refine within_withS fun s => ?_
  have he : ∀ st b, Within ks (endCmd sid c st b) := fun st b => within_endCmd (List.Subset.trans (by decide) hs) _ _ _ _
  generalize Option.or _ _ = x
  cases x with
  | some st => exact he st _
  | none =>
    refine within_ite (he _ _) (within_ite (he _ _) (within_ite (he _ _) ?_))
    generalize s.readHurt _ 64 = y
    cases y with
    | some st => exact he st _
    | none => exact within_vectorGated (List.Subset.trans (by decide) hs) _ _ _ _

theorem within_onVector {ks : List Kind} (hs : [.reg, .mem, .flag, .strm, .core, .line, .dir, .hurt, .cons, .pow, .log, .send, .draw] ⊆ ks) (sid acc op : Nat) (o : VecOp) :
    Within ks (onVector sid acc op o) := by
  unfold onVector
  repeat' (first
    | with_reducible exact within_skip ks
    | with_reducible exact within_seqs_nil ks
    | with_reducible refine within_onIssued (List.Subset.trans (by decide) hs) _ _ _ _ _ (fun _ => ?_)
    | with_reducible refine within_vectorProg (List.Subset.trans (by decide) hs) _ _ _
    | with_reducible refine within_seqs_cons ?_ ?_
    | with_reducible refine within_seq ?_ ?_
    | with_reducible refine within_withS fun _ => ?_
    | with_reducible refine within_onlyIf fun _ => ?_
    | split
    | dsimp only)

end Sys2Proof.Machine
end

