-- ==== Sys2Proof/Laws/Drain.lean ====
section
/-! SUPPORT. The drain: what a command that writes through it leaves of memory and registers. -/

namespace Sys2Proof.Machine

theorem wf_writeBytes (who : Requester) (a : Nat) (bs : List Byte) (s : State) (h : NMap.Rising s.mem) : NMap.Rising (run (writeBytes who a bs) s).mem := by
  have go : ∀ (l : List Eff) (s : State), NMap.Rising s.mem → (∀ e ∈ l, match e with | .restart _ => False | .cold => False | _ => True) → NMap.Rising (applyAll l s).mem := by
    intro l
    induction l with
    | nil => intro _ h _; exact h
    | cons e l ih =>
      intro s h hl
      refine ih _ ?_ fun e he => hl e (List.mem_cons_of_mem _ he)
      have := hl e (List.mem_cons_self ..)
      cases e <;> first | exact h | exact absurd this id | exact rising_setByte h _ _
  refine go _ s h fun e he => ?_
  have := stores_writeBytes who a bs s e he
  cases e <;> first | trivial | exact this

/-- Pieces written in order: each byte holds the last piece there. -/
theorem byte_pieces (who : Requester) (ps : List (Nat × List Byte)) (s : State) (h : NMap.Rising s.mem) (a : Nat) :
    byteAt (run (writePieces who ps) s).mem a = (lastByte ps a).getD (byteAt s.mem a) ∧ NMap.Rising (run (writePieces who ps) s).mem := by
  have go : ∀ (ps : List (Nat × List Byte)) (r : Option Byte) (b : Byte) (s : State), NMap.Rising s.mem → byteAt s.mem a = r.getD b →
      byteAt (run (writePieces who ps) s).mem a = (ps.foldl (fun r p => if p.1 ≤ a ∧ a < p.1 + p.2.length then p.2[a - p.1]? else r) r).getD b ∧ NMap.Rising (run (writePieces who ps) s).mem := by
    intro ps
    induction ps with
    | nil => intro r b s h e; exact ⟨e, h⟩
    | cons p ps ih =>
      intro r b s h e
      have hs : run (writePieces who (p :: ps)) s = run (writePieces who ps) (run (writeBytes who p.1 p.2) s) := run_forEach_cons _ _ _ _
      rw [hs, List.foldl_cons]
      refine ih _ _ _ (wf_writeBytes _ _ _ _ h) ?_
      split
      · rename_i hp
        have := byteAt_writeBytes who p.1 p.2 s h (a - p.1) (by omega)
        rw [show p.1 + (a - p.1) = a by omega] at this
        rw [this, List.getElem?_eq_getElem (by omega)]; rfl
      · rw [byte_of_writes (stores_writeBytes who p.1 p.2) s (by assumption)]; exact e
  exact go ps none _ s h rfl

theorem hurt_keep {ks : List Kind} {p : Prog} (hp : Within ks p) (s : State) (hk : Kind.hurt ∉ ks := by decide) (hr : Kind.restart ∉ ks := by decide) :
    (run p s).hurt = s.hurt := changesOnly_of_within hp hr s .hurt hk

theorem piecesHurt_congr {s t : State} (h : t.hurt = s.hurt) (ps : List (Nat × List Byte)) : t.piecesHurt ps = s.piecesHurt ps := by
  unfold State.piecesHurt State.writeHurt; rw [h]

theorem not_cmd {sid n o : Nat} (hs : sid < 1024) (h1 : 0x200 ≤ o) (h2 : o < 0x4000) : ¬ cmdWord sid (coreBase n + o) := by
  rintro (h | h | h)
  · exact not_endWord_core (by omega) h1 h2 h
  · revert h; unfold dieWord coreBase; omega
  · revert h; unfold coreBase; omega

theorem writes_markCmd (sid : Nat) (c : Cmd) (m : Nat) : WritesWords (cmdWord sid) (markCmd sid c m) :=
  writes_seq (writes_withS fun s => writes_setStrm _ _) (writes_logBlock.mono fun _ h => .inr h)

theorem sliceAtomics_die (sl : Nat × Nat) (hd : sl.1 < 2) (h2 : sl.2 < 64) : dieWord (Reg.vltAtomics sl.1 sl.2).off := by
  simp only [Reg.vltAtomics, dieBase, dieWord]; omega

theorem scratchSlice_lt (l : Nat) : scratchSlice l < 64 := by
  unfold scratchSlice
  refine xor_foldl_lt (k := 6) _ (fun x hx => ?_) (Nat.lt_of_lt_of_le (Nat.mod_lt _ (by decide)) (by decide))
  obtain ⟨i, _, rfl⟩ := List.mem_map.mp hx
  exact Nat.mod_lt _ (by decide)

theorem sliceOf_lt (s : State) (a : Nat) : (s.sliceOf a).1 < 2 ∧ (s.sliceOf a).2 < 64 := by
  unfold State.sliceOf
  split
  · exact ⟨homeDie_lt s a, cacheSlice_lt _⟩
  · exact ⟨homeDie_lt s a, scratchSlice_lt _⟩

theorem toBytes_length (c : Census) (h : c.hist.length = 8) : c.toBytes.length = 64 := by
  unfold Census.toBytes
  have hl : ∀ n v, (leBytes n v).length = n := by
    intro n
    induction n with
    | zero => intro v; rfl
    | succ n ih => intro v; simp [leBytes, ih]
  have hf : ∀ l : List Nat, (l.flatMap fun n => leBytes 4 (sat32 n)).length = 4 * l.length := by
    intro l
    induction l with
    | nil => rfl
    | cons x r ih => rw [List.flatMap_cons, List.length_append, ih, hl, List.length_cons]; omega
  simp only [List.length_append, hl, hf, h, List.length_cons, List.length_nil]


theorem writes_replay (j : DrainJob) (g : Nat) {sid : Nat} : WritesWords (cmdWord sid) (replayAtomics j g) := by
  refine writes_withS fun s => writes_seq ((writes_writeBytes _ _ _).mono fun _ h => .inr h) ?_
  have := sliceOf_lt s (j.replayAddr s)
  exact writes_incF _ (Nat.le_of_ble_eq_true rfl) (.inr (.inl (sliceAtomics_die _ this.1 this.2)))

theorem writes_census (j : DrainJob) (x : Census) {sid : Nat} (hn : j.core = sid / 4) : WritesWords (drainWord sid) (writeCensus j x) := by
  refine writes_withS fun s => writes_onlyIf fun _ => writes_seq (writes_incF _ (Nat.le_of_ble_eq_true rfl) ?_) ((writes_writeBytes _ _ _).mono fun _ h => .inl (.inr h))
  refine .inr (.inr (.inr (.inr (.inr ?_))))
  rw [hn]; exact ⟨Nat.add_le_add_left (Nat.le_of_ble_eq_true (n := 0x2010) (m := 0x2020) rfl) _, Nat.le_refl _⟩

/-- The words a drain changes. -/
theorem writes_drainEnd (j : DrainJob) (sid : Nat) (c : Cmd) (o : DrainOut) (save : List (Nat × List Byte)) (marks : List Nat) (hn : j.core = sid / 4) :
    WritesWords (drainWord sid) (drainEnd j sid c o save marks) := by
  have he : ∀ st, WritesWords (drainWord sid) (endCmd sid c st) := fun st => (writes_endCmd sid c st false).mono fun _ h => .inl (.inl h)
  have hl : ∀ {src : Src} {acc : Nat} {st : Status} {tag : Nat} {inj : Bool} {b : EvBody}, WritesWords (drainWord sid) (logEv src acc st tag inj b) := writes_logBlock.mono fun _ h => .inl (.inr h)
  have hd : ∀ f : Fld, f.w ≤ 32 → (∃ k, f.off = coreBase j.core + k ∧ 0x2010 ≤ k ∧ k ≤ 0x2020) → WritesWords (drainWord sid) (incF f) := by
    rintro f hw ⟨k, hf, h1, h2⟩
    refine writes_incF _ hw (.inr (.inr (.inr (.inr (.inr ?_)))))
    rw [hf, hn]; exact ⟨Nat.add_le_add_left h1 _, Nat.add_le_add_left h2 _⟩
  refine writes_withS fun s => ?_
  dsimp only
  split
  · exact he _
  · refine writes_seqs_cons ((writes_writePieces _ _).mono fun _ h => .inl (.inr h)) (writes_seqs_cons ((writes_writePieces _ _).mono fun _ h => .inl (.inr h))
      (writes_seqs_cons (writes_forEach fun m _ => (writes_markCmd sid c m).mono fun _ h => .inl h) (writes_seqs_cons ?_ writes_seqs_nil)))
    have hv : ∀ {st : Status} {b : EvBody}, WritesWords (drainWord sid)
        (seq (incF (Reg.drnOvfEvents j.core)) (logEv (.stream sid) c.acc st (dTag c.desc) false b)) := fun {_ _} =>
      writes_seq (hd _ (Nat.le_of_ble_eq_true rfl) ⟨0x2010, rfl, by decide, by decide⟩) hl
    split
    · exact writes_seq hv (he _)
    · refine writes_seqs_cons (writes_census j _ hn) (writes_seqs_cons (writes_onlyIf fun _ => writes_seq
        (writes_onlyIf fun _ => (writes_replay j _).mono fun _ h => .inl h) hv) (writes_seqs_cons ?_ writes_seqs_nil))
      exact writes_ite (fun _ => writes_seq (hd _ (Nat.le_of_ble_eq_true rfl) ⟨0x2018, rfl, by decide, by decide⟩) (he _)) fun _ => he _

theorem hist_merge (a b : Census) (ha : a.hist.length = 8) (hb : b.hist.length = 8) : (a.merge b).hist.length = 8 := by
  unfold Census.merge
  dsimp only
  split
  · simp [ha, hb]
  · exact hb

theorem replay_fld {s t : State} (j : DrainJob) (h : ∀ f : Fld, (f = Reg.drnReplayBaseLo j.core ∨ f = Reg.drnReplayBaseHi j.core) → t.fld f = s.fld f) : j.replayAddr t = j.replayAddr s := by
  unfold DrainJob.replayAddr
  rw [h _ (.inl rfl), h _ (.inr rfl)]

/-- What a drain leaves: the command ended, the bytes of its pieces, and every byte outside what it may write. -/
theorem drain_run (j : DrainJob) (sid : Nat) (c : Cmd) (o : DrainOut) (save : List (Nat × List Byte)) (marks : List Nat) (s : State) (hn : j.core = sid / 4) (hs : sid < 1024)
    (hm : NMap.Rising s.mem) (hp : s.piecesHurt (o.bytes ++ save) = none)
    (hq : (if j.replays o then s.readHurt (j.replayAddr s) 8 else none) = none) :
    EndedNow (run (drainEnd j sid c o save marks) s) (.stream sid) c.acc (if j.layer o = true then .layerFault else .ok) ∧
    (j.censusEn = false → j.event o = false → ∀ a, byteAt (run (drainEnd j sid c o save marks) s).mem a = (lastByte (save ++ o.bytes) a).getD (byteAt s.mem a)) ∧
    KeepsBytes (drainBytes j s (save ++ o.bytes)) s (run (drainEnd j sid c o save marks) s) := by
  have hr : ∀ (p : Prog) (t : State), WritesWords (drainWord sid) p → j.replayAddr (run p t) = j.replayAddr t := by
    intro p t h
    refine replay_fld j fun f hf => fld_of_writes h t (by rcases hf with rfl | rfl <;> exact Nat.le_of_ble_eq_true rfl) ?_
    rcases hf with rfl | rfl
    · rintro (h | h)
      · exact not_cmd (n := j.core) hs (o := 0x2008) (by decide) (by decide) h
      · rw [← hn] at h; revert h; unfold unitWord; simp only [Reg.drnReplayBaseLo]; omega
    · rintro (h | h)
      · exact not_cmd (n := j.core) hs (o := 0x200C) (by decide) (by decide) h
      · rw [← hn] at h; revert h; unfold unitWord; simp only [Reg.drnReplayBaseHi]; omega
  have e : run (drainEnd j sid c o save marks) s = run (if j.layer o then seq (incF (Reg.drnLayerFaults j.core)) (endCmd sid c .layerFault) else endCmd sid c .ok)
      (run (onlyIf (j.event o) (seq
        (onlyIf (j.replays o) (replayAtomics j (if j.gateEn then j.gateRung else 0)))
        (seq (incF (Reg.drnOvfEvents j.core)) (logEv (.stream sid) c.acc (if j.layer o then .layerFault else .ok) (dTag c.desc) false
          (.numeric j.tensorId o.overflows j.outFmt (if j.ovfAction = 1 then j.replayUnit else 0)
            (if j.replays o then j.newRung s (if j.gateEn then j.gateRung else 0) % 8 else if j.gateEn then j.gateRung else 0))))))
      (run (writeCensus j (censusOf j o.wrs (j.event o))) (run (forEach marks fun m => markCmd sid c m) (run (writePieces (.core j.core) o.bytes) (run (writePieces (.core j.core) save) s))))) := by
    unfold drainEnd
    rw [run_withS]
    dsimp only
    rw [hp]
    dsimp only
    rw [run_seqs_cons, run_seqs_cons, run_seqs_cons, run_seqs_cons, run_seqs_nil, hq]
    dsimp only
    rw [run_seqs_cons, run_seqs_cons, run_seqs_cons, run_seqs_nil]
  have hmk : ∀ t, (run (forEach marks fun m => markCmd sid c m) t).mem = t.mem := fun t =>
    mem_keep (within_forEach fun m _ => within_markCmd (List.Subset.refl _) _ _ _) t
  have hend : ∀ t, (run (if j.layer o then seq (incF (Reg.drnLayerFaults j.core)) (endCmd sid c .layerFault) else endCmd sid c .ok) t).mem = t.mem := by
    intro t
    split
    · rw [run_seq, mem_keep (within_end _ _ _ _), mem_keep (within_incF (List.Subset.refl _) _ _)]
    · exact mem_keep (within_end _ _ _ _) _
  have hpc : ∀ a, byteAt (run (writePieces (.core j.core) o.bytes) (run (writePieces (.core j.core) save) s)).mem a = (lastByte (save ++ o.bytes) a).getD (byteAt s.mem a) := by
    intro a
    have := byte_pieces (.core j.core) (save ++ o.bytes) s hm a
    have ha : ∀ (l : List (Nat × List Byte)) (u : State), run (writePieces (.core j.core) (l ++ o.bytes)) u = run (writePieces (.core j.core) o.bytes) (run (writePieces (.core j.core) l) u) := by
      intro l
      induction l with
      | nil => intro u; rfl
      | cons p l ih =>
        intro u
        have h1 : ∀ (p : Nat × List Byte) l u, run (writePieces (.core j.core) (p :: l)) u = run (writePieces (.core j.core) l) (run (writeBytes (.core j.core) p.1 p.2) u) := fun _ _ _ => run_forEach_cons _ _ _ _
        rw [List.cons_append, h1, h1, ih]
    rw [← ha]; exact this.1
  refine ⟨?_, fun h1 h2 a => ?_, ?_⟩
  · rw [e]
    split
    · rw [run_seq]; exact endedNow_endCmd ..
    · exact endedNow_endCmd ..
  · have hc : ∀ t, run (writeCensus j (censusOf j o.wrs (j.event o))) t = t := by
      intro t; unfold writeCensus; rw [run_withS, h1]; rfl
    rw [e, hend, h2, run_onlyIf_false]
    rw [h2] at hc
    rw [hc, hmk, hpc]
  · intro a ha
    rw [e, hend]
    have hP : ¬ ∃ p ∈ save ++ o.bytes, p.1 ≤ a ∧ a < p.1 + p.2.length := fun h => ha (.inl h)
    have hw : ∀ (ps : List (Nat × List Byte)) (t : State), (∀ p ∈ ps, p ∈ save ++ o.bytes) → byteAt (run (writePieces (.core j.core) ps) t).mem a = byteAt t.mem a := by
      intro ps t hps
      exact byte_of_writes (stores_writePieces _ ps) t fun ⟨p, hp, h⟩ => hP ⟨p, hps p hp, h⟩
    have hc : ∀ t, byteAt (run (writeCensus j (censusOf j o.wrs (j.event o))) t).mem a = byteAt t.mem a := by
      intro t
      unfold writeCensus
      rw [run_withS]
      dsimp only
      rw [run_onlyIf]
      split
      · rename_i hce
        rw [run_seq, byte_of_writes (stores_writeBytes _ _ _) _ ?_, mem_keep (within_incF (List.Subset.refl _) _ _)]
        intro h
        refine ha (.inr (.inl ⟨hce, h.1, ?_⟩))
        rw [toBytes_length] at h
        · exact h.2
        · have h8 : (censusOf j o.wrs (j.event o)).hist.length = 8 := by unfold censusOf; simp
          split
          · refine hist_merge _ _ ?_ h8
            unfold Census.ofBytes; simp
          · exact h8
      · rfl
    have hL : ∀ {src : Src} {acc : Nat} {st : Status} {tag : Nat} {inj : Bool} {b : EvBody} (t : State), (run (logEv src acc st tag inj b) t).mem = t.mem := fun t =>
      mem_keep (within_logEv (List.Subset.refl _) _ _ _ _ _ _) t
    rw [run_onlyIf]
    split
    · rw [run_seq, run_seq, hL, mem_keep (within_incF (List.Subset.refl _) _ _), run_onlyIf]
      split
      · rename_i hact
        unfold replayAtomics
        rw [run_withS]
        dsimp only
        rw [run_seq, mem_keep (within_incF (List.Subset.refl _) _ _), byte_of_writes (stores_writeBytes _ _ _) _ ?_, hc, hmk, hw _ _ fun p h => List.mem_append_right _ h, hw _ _ fun p h => List.mem_append_left _ h]
        intro h
        have h8 : ∀ v, (leBytes 8 v).length = 8 := fun v => rfl
        rw [h8] at h
        have hact' : j.ovfAction = 1 := by unfold DrainJob.replays at hact; simp at hact; exact hact.1.2
        rw [hr _ _ (writes_census j _ hn), hr _ _ (writes_forEach fun m _ => (writes_markCmd sid c m).mono fun _ h => .inl h), hr _ _ ((writes_writePieces _ _).mono fun _ h => .inl (.inr h)),
          hr _ _ ((writes_writePieces _ _).mono fun _ h => .inl (.inr h))] at h
        exact ha (.inr (.inr ⟨hact', h⟩))
      · rw [hc, hmk, hw _ _ fun p h => List.mem_append_right _ h, hw _ _ fun p h => List.mem_append_left _ h]
    · rw [hc, hmk, hw _ _ fun p h => List.mem_append_right _ h, hw _ _ fun p h => List.mem_append_left _ h]

end Sys2Proof.Machine
end

