-- ==== Sys2Proof/Laws/Compute.lean ====
section
/-! SUPPORT. VECTOR and array commands: which program each row runs, and what their course comes to when nothing stands in its way. -/

namespace Sys2Proof.Machine

theorem vec_exec : ∀ r ∈ vecRows, ∀ sid acc s, exec (r.2.2 sid acc) s = .next (run (onVector sid acc r.1 r.2.1) s) := by
  repeat refine List.forall_mem_cons.2 ⟨fun _ _ _ => rfl, ?_⟩
  intro r hr; cases hr

theorem count64 {sid : Nat} (f : Fld) (k : Nat) (h : ∃ o, f.off = coreBase (sid / 4) + o ∧ 0x1018 ≤ o ∧ o ≤ 0x1030) (hw : f.w = 64) : WritesWords (drainWord sid) (incF f k) := by
  obtain ⟨o, hf, h1, h2⟩ := h
  refine writes_incF64 k hw (.inr (.inr (.inr (.inr (.inl ?_))))) (.inr (.inr (.inr (.inr (.inl ?_))))) <;> rw [hf] <;> unfold coreBase <;> omega

theorem timed_writes {Q : Nat → Prop} {f : Fld} (hw : f.w ≤ 32) (h : Q f.off) : WritesWords Q (timed f) := writes_timed hw h

theorem peak_writes (j : DrainJob) {sid : Nat} (hn : j.core = sid / 4) : WritesWords (drainWord sid) (stagePeak j) := by
  have h : drainWord sid (Reg.drnStagePeak j.core).off := by
    refine .inr (.inr (.inr (.inr (.inr ?_))))
    rw [hn]
    exact ⟨Nat.add_le_add_left (Nat.le_of_ble_eq_true (n := 0x2010) (m := 0x201C) rfl) _, Nat.add_le_add_left (Nat.le_of_ble_eq_true (n := 0x201C) (m := 0x2020) rfl) _⟩
  refine writes_withS fun s => writes_ite (fun _ => writes_setF _ (Nat.le_of_ble_eq_true rfl) h) fun _ => writes_drawFree fun _ => writes_setF _ (Nat.le_of_ble_eq_true rfl) h

theorem end_frame {sid acc : Nat} {c : Cmd} (ha : c.acc = acc) (s : State) (st : Status) : EndedNow (run (endCmd sid c st) s) (.stream sid) acc st ∧ (run (endCmd sid c st) s).mem = s.mem ∧ KeepsOutside (endWord sid) s (run (endCmd sid c st) s) :=
  ⟨ha ▸ endedNow_endCmd .., mem_keep (within_end _ _ _ _) _, keepsOutside_of_writes (writes_endCmd _ _ _ _) _⟩

/-- A drain after work that leaves memory alone. -/
theorem drain_after {j : DrainJob} {sid : Nat} {c : Cmd} {o : DrainOut} {save : List (Nat × List Byte)} {marks : List Nat} {w : Prog} {s : State} (hn : j.core = sid / 4) (hs : sid < 1024)
    (hm : Memory.wf s.mem) (hp : s.piecesHurt (o.bytes ++ save) = none)
    (hq : (if j.replays o then s.readHurt (j.replayAddr s) 8 else none) = none) (hw : WritesWords (drainWord sid) w) {ks : List Kind} (hk : Within ks w) (h1 : Kind.mem ∉ ks) (h2 : Kind.hurt ∉ ks) (h3 : Kind.restart ∉ ks) :
    EndedNow (run (drainEnd j sid c o save marks) (run w s)) (.stream sid) c.acc (if j.layer o = true then .layerFault else .ok) ∧
    (j.censusEn = false → j.event o = false → ∀ a, byteAt (run (drainEnd j sid c o save marks) (run w s)).mem a = (lastByte (save ++ o.bytes) a).getD (byteAt s.mem a)) ∧
    KeepsBytes (drainBytes j s (save ++ o.bytes)) s (run (drainEnd j sid c o save marks) (run w s)) ∧ KeepsOutside (drainWord sid) s (run (drainEnd j sid c o save marks) (run w s)) := by
  have hmem : (run w s).mem = s.mem := mem_keep hk s h1 h3
  have hr : j.replayAddr (run w s) = j.replayAddr s := by
    refine replay_fld j fun f hf => fld_of_writes hw s (by rcases hf with rfl | rfl <;> exact Nat.le_of_ble_eq_true rfl) ?_
    rcases hf with rfl | rfl
    · rintro (h | h)
      · exact not_cmd (n := j.core) hs (o := 0x2008) (by decide) (by decide) h
      · rw [← hn] at h; revert h; unfold unitWord; simp only [Reg.drnReplayBaseLo]; omega
    · rintro (h | h)
      · exact not_cmd (n := j.core) hs (o := 0x200C) (by decide) (by decide) h
      · rw [← hn] at h; revert h; unfold unitWord; simp only [Reg.drnReplayBaseHi]; omega
  have hh : (run w s).readHurt (j.replayAddr s) 8 = s.readHurt (j.replayAddr s) 8 := by
    unfold State.readHurt; rw [hurt_keep hk s h2 h3]
  obtain ⟨a1, a2, a3⟩ := drain_run j sid c o save marks (run w s) hn hs (by rw [hmem]; exact hm.1)
    (by rw [piecesHurt_congr (hurt_keep hk s h2 h3)]; exact hp) (by rw [hr, hh]; exact hq)
  rw [hmem] at a2
  refine ⟨a1, a2, fun a ha => ?_, fun x hx => ?_⟩
  · rw [a3 a fun h => ha ?_, hmem]
    unfold drainBytes at h ⊢
    rw [hr] at h; exact h
  · rw [word_of_writes (writes_drainEnd j sid c o save marks hn) _ hx, word_of_writes hw _ hx]

/-- The work of a VECTOR command that meets no obstacle is its drain. -/
theorem run_vectorWork (sid : Nat) (c : Cmd) (v : VecJob) (j : DrainJob) (s : State) (h8 : s.anyHurt ((v.srcs.map fun x => (x.2.base, x.2.extent)) ++ drainReads j 0) = none) (h9 : s.isArmed 0x03 (sid / 4) = false) :
   run (vectorWork sid c v j) s = run (drainEnd j sid c (v.output j s).1 (v.output j s).2 v.marks)
        (run (seqs [startCmd sid c, timed (Reg.coreVecBusy (sid / 4)), timed (Reg.coreLsConflicts (sid / 4)), stagePeak j]) s) := by
  unfold vectorWork
  rw [run_withS]
  dsimp only
  rw [h8]
  dsimp only
  rw [h9, if_neg (by decide), run_seq, run_seqs_cons, run_seqs_cons, run_seqs_cons, run_seqs_cons, run_seqs_nil, run_seqs_cons, run_seqs_cons, run_seqs_cons, run_seqs_cons, run_seqs_nil]

/-- A VECTOR command whose gate is open does its work. -/
theorem run_vectorGated (sid : Nat) (c : Cmd) (v : VecJob) (j : DrainJob) (s : State) (h6 : j.faults s 0 = none) (h7 : s.gate j = .open_) :
  run (vectorGated sid c v j) s = run (vectorWork sid c v j) s := by
  unfold vectorGated
  rw [run_withS, h6]
  dsimp only
  rw [h7]

/-- A VECTOR command that passes its checks reads its drain record. -/
theorem run_vectorProg (sid : Nat) (c : Cmd) (v : VecJob) (s : State) (h1 : v.cls.or v.shapes = none) (h2 : v.count ≠ 0) (h3 : (v.drain sid 0).elemExtent ≤ v.room)
      (h4 : ∀ e ∈ v.exts sid, lsExtent e.1 e.2 = true) (h5 : s.readHurt (v.recAddr sid) 64 = none)  :
  run (vectorProg v sid c) s = run (vectorGated sid c v (v.drainOf sid s)) s := by
  unfold vectorProg
  rw [run_withS, h1]
  dsimp only
  rw [if_neg h2, if_neg (by omega), if_neg (by simpa using h4), h5]

theorem array_exec : ∀ r ∈ arrayRows, ∀ sid acc s, exec (r.2.2.2 sid acc) s = .next (run (onArray sid acc r.1 r.2.1 r.2.2.1) s) := by
  repeat refine List.forall_mem_cons.2 ⟨fun _ _ _ => rfl, ?_⟩
  intro r hr; cases hr

theorem array_core : ∀ r ∈ arrayRows, ∀ s sid d rec, ((r.2.2.1 s sid d).drain rec).core = sid / 4 := by
  repeat refine List.forall_mem_cons.2 ⟨fun _ _ _ _ => rfl, ?_⟩
  intro r hr; cases hr

end Sys2Proof.Machine
end

