-- ==== Sys2Proof/Laws/Exec.lean ====
section
/-! SUPPORT. Every command that completes runs a program of elementary effects; what every effect keeps, every command keeps. -/

namespace Sys2Proof.Machine

/-- A command that completes has run a program. -/
theorem exec_run {i : Instr} {s t : State} (h : exec i s = .next t) : ∃ p, t = run p s := by
  cases i
  all_goals exact ⟨_, (Host.Outcome.next.inj h).symm⟩

/-- What every effect keeps, every command that completes keeps. -/
theorem exec_keeps {P : State → Prop} (hP : ∀ (e : Eff) s, P s → P (e.apply s)) {i : Instr} {s t : State} (h : exec i s = .next t)
    (hs : P s) : P t := by
  obtain ⟨p, rfl⟩ := exec_run h
  exact run_keeps hP p s hs

/-- A relation that every effect respects, and that composes, holds between a state and what a command leaves. -/
theorem exec_rel {R : State → State → Prop} (refl : ∀ s, R s s) (trans : ∀ a b c, R a b → R b c → R a c)
    (hR : ∀ (e : Eff) s, R s (e.apply s)) {i : Instr} {s t : State} (h : exec i s = .next t) : R s t := by
  obtain ⟨p, rfl⟩ := exec_run h
  exact run_rel refl trans hR p s

end Sys2Proof.Machine
end

