-- ==== Sys2Proof/Laws/FpBeaters.lean ====
section
/-! SUPPORT. Footprints of the operations of Machine/Beaters.lean: the parts of the state each can change. -/

namespace Sys2Proof.Machine

theorem within_countBeater {ks : List Kind} (hs : [.reg, .draw] ⊆ ks) (k n : Nat) :
    Within ks (countBeater k n) := by
  unfold countBeater
  repeat' (first
    | with_reducible exact within_skip ks
    | with_reducible exact within_seqs_nil ks
    | with_reducible refine within_incF (List.Subset.trans (by decide) hs) _ _
    | with_reducible refine within_seqs_cons ?_ ?_
    | with_reducible refine within_seq ?_ ?_
    | with_reducible refine within_withS fun _ => ?_
    | split
    | dsimp only)

theorem within_stackTouchRead {ks : List Kind} (hs : [.reg, .line, .send, .draw] ⊆ ks) (k a n : Nat) :
    Within ks (stackTouchRead k a n) := by
  unfold stackTouchRead
  repeat' (first
    | with_reducible exact within_skip ks
    | with_reducible exact within_seqs_nil ks
    | with_reducible refine within_cleanLine (List.Subset.trans (by decide) hs) _
    | with_reducible refine within_countBeater (List.Subset.trans (by decide) hs) _ _
    | with_reducible refine within_seqs_cons ?_ ?_
    | with_reducible refine within_seq ?_ ?_
    | with_reducible refine within_withS fun _ => ?_
    | with_reducible refine within_forEach fun _ _ => ?_
    | with_reducible refine within_given fun _ => ?_
    | split
    | dsimp only)

theorem within_stackWrite {ks : List Kind} (hs : [.reg, .mem, .line, .hurt, .cons, .pow, .log, .send, .draw] ⊆ ks) (k a : Nat) (bs : List Byte) :
    Within ks (stackWrite k a bs) := by
  unfold stackWrite
  repeat' (first
    | with_reducible exact within_skip ks
    | with_reducible exact within_seqs_nil ks
    | with_reducible refine within_clearHurt (List.Subset.trans (by decide) hs) _ _
    | with_reducible refine within_countBeater (List.Subset.trans (by decide) hs) _ _
    | with_reducible refine within_dropLine (List.Subset.trans (by decide) hs) _ _
    | with_reducible refine within_injectWrite (List.Subset.trans (by decide) hs) _ _
    | with_reducible refine within_seqs_cons ?_ ?_
    | with_reducible refine within_seq ?_ ?_
    | with_reducible refine within_withS fun _ => ?_
    | with_reducible refine within_forEach fun _ _ => ?_
    | with_reducible refine within_given fun _ => ?_
    | with_reducible refine within_emit_cons ?_ ?_
    | with_reducible exact within_emit_nil ks
    | with_reducible refine within_emit_append ?_ ?_
    | with_reducible refine within_emit_map fun _ => ?_
    | exact kind_mem hs (by dsimp only [Eff.kind]; decide)
    | split
    | dsimp only)

theorem within_putEntry {ks : List Kind} (hs : [.reg, .mem, .core, .line, .hurt, .cons, .pow, .log, .send, .draw] ⊆ ks) (sid : Nat) (e : BEntry) :
    Within ks (putEntry sid e) := by
  unfold putEntry
  repeat' (first
    | with_reducible exact within_skip ks
    | with_reducible exact within_seqs_nil ks
    | with_reducible refine within_writeBytes (List.Subset.trans (by decide) hs) _ _ _
    | with_reducible refine within_seqs_cons ?_ ?_
    | with_reducible refine within_seq ?_ ?_
    | with_reducible refine within_withS fun _ => ?_
    | split
    | dsimp only)

theorem within_putWc {ks : List Kind} (hs : [.reg, .mem, .core, .line, .hurt, .cons, .pow, .log, .send, .draw] ⊆ ks) (sid k : Nat) (e : BEntry) (parity : Nat) (cs : List WCopy) :
    Within ks (putWc sid k e parity cs) := by
  unfold putWc
  repeat' (first
    | with_reducible exact within_skip ks
    | with_reducible exact within_seqs_nil ks
    | with_reducible refine within_stackWrite (List.Subset.trans (by decide) hs) _ _ _
    | with_reducible refine within_writeBytes (List.Subset.trans (by decide) hs) _ _ _
    | with_reducible refine within_seqs_cons ?_ ?_
    | with_reducible refine within_seq ?_ ?_
    | with_reducible refine within_withS fun _ => ?_
    | with_reducible refine within_forEach fun _ _ => ?_
    | split
    | dsimp only)

theorem within_readSlot {ks : List Kind} (hs : [.reg, .line, .send, .draw] ⊆ ks) (k slot : Nat) (ps : List (Nat × Nat)) :
    Within ks (readSlot k slot ps) := by
  unfold readSlot
  repeat' (first
    | with_reducible exact within_skip ks
    | with_reducible exact within_seqs_nil ks
    | with_reducible refine within_stackTouchRead (List.Subset.trans (by decide) hs) _ _ _
    | with_reducible refine within_seqs_cons ?_ ?_
    | with_reducible refine within_seq ?_ ?_
    | with_reducible refine within_withS fun _ => ?_
    | with_reducible refine within_forEach fun _ _ => ?_
    | split
    | dsimp only)

theorem within_readWc {ks : List Kind} (hs : [.reg, .core, .line, .send, .draw] ⊆ ks) (sid k : Nat) (e : BEntry) (parity : Nat) :
    Within ks (readWc sid k e parity) := by
  unfold readWc
  repeat' (first
    | with_reducible exact within_skip ks
    | with_reducible exact within_seqs_nil ks
    | with_reducible refine within_stackTouchRead (List.Subset.trans (by decide) hs) _ _ _
    | with_reducible refine within_touch (List.Subset.trans (by decide) hs) _ _ _ _
    | with_reducible refine within_seqs_cons ?_ ?_
    | with_reducible refine within_seq ?_ ?_
    | with_reducible refine within_withS fun _ => ?_
    | with_reducible refine within_forEach fun _ _ => ?_
    | split
    | dsimp only)

theorem within_updateBlock {ks : List Kind} (hs : [.reg, .mem, .flag, .strm, .core, .line, .hurt, .cons, .pow, .log, .send, .draw] ⊆ ks) (sid k : Nat) (c : Cmd) (o : OptRec) (ep : Nat) (a : Nat) (done : Nat) (next : Prog) (h_next : Within ks (next)) :
    Within ks (updateBlock sid k c o ep a done next) := by
  unfold updateBlock
  repeat' (first
    | exact h_next
    | with_reducible exact within_skip ks
    | with_reducible exact within_seqs_nil ks
    | with_reducible refine within_endCmd (List.Subset.trans (by decide) hs) _ _ _ _
    | with_reducible refine within_incF (List.Subset.trans (by decide) hs) _ _
    | with_reducible refine within_logEv (List.Subset.trans (by decide) hs) _ _ _ _ _ _
    | with_reducible refine within_markCmd (List.Subset.trans (by decide) hs) _ _ _
    | with_reducible refine within_putEntry (List.Subset.trans (by decide) hs) _ _
    | with_reducible refine within_putWc (List.Subset.trans (by decide) hs) _ _ _ _ _
    | with_reducible refine within_readSlot (List.Subset.trans (by decide) hs) _ _ _
    | with_reducible refine within_stackWrite (List.Subset.trans (by decide) hs) _ _ _
    | with_reducible refine within_touch (List.Subset.trans (by decide) hs) _ _ _ _
    | with_reducible refine within_seqs_cons ?_ ?_
    | with_reducible refine within_seq ?_ ?_
    | with_reducible refine within_withS fun _ => ?_
    | with_reducible refine within_onlyIf fun _ => ?_
    | split
    | dsimp only)

theorem within_updateBlocks {ks : List Kind} (hs : [.reg, .mem, .flag, .strm, .core, .line, .hurt, .cons, .pow, .log, .send, .draw] ⊆ ks) (sid k : Nat) (c : Cmd) (o : OptRec) (ep : Nat) (y0 : List (Nat × Nat)) :
    Within ks (updateBlocks sid k c o ep y0) := by
  induction y0 with
  | nil => exact within_endCmd (List.Subset.trans (by decide) hs) _ _ _ _
  | cons x r ih => exact within_updateBlock (List.Subset.trans (by decide) hs) _ _ _ _ _ _ _ _ ih

theorem within_regenBlock {ks : List Kind} (hs : [.reg, .mem, .flag, .strm, .core, .line, .hurt, .cons, .pow, .log, .send, .draw] ⊆ ks) (sid k : Nat) (c : Cmd) (a done : Nat) (next : Prog) (h_next : Within ks (next)) :
    Within ks (regenBlock sid k c a done next) := by
  unfold regenBlock
  repeat' (first
    | exact h_next
    | with_reducible exact within_skip ks
    | with_reducible exact within_seqs_nil ks
    | with_reducible refine within_endCmd (List.Subset.trans (by decide) hs) _ _ _ _
    | with_reducible refine within_incF (List.Subset.trans (by decide) hs) _ _
    | with_reducible refine within_markCmd (List.Subset.trans (by decide) hs) _ _ _
    | with_reducible refine within_putWc (List.Subset.trans (by decide) hs) _ _ _ _ _
    | with_reducible refine within_readSlot (List.Subset.trans (by decide) hs) _ _ _
    | with_reducible refine within_seqs_cons ?_ ?_
    | with_reducible refine within_seq ?_ ?_
    | with_reducible refine within_withS fun _ => ?_
    | split
    | dsimp only)

theorem within_regenBlocks {ks : List Kind} (hs : [.reg, .mem, .flag, .strm, .core, .line, .hurt, .cons, .pow, .log, .send, .draw] ⊆ ks) (sid k : Nat) (c : Cmd) (y0 : List (Nat × Nat)) :
    Within ks (regenBlocks sid k c y0) := by
  induction y0 with
  | nil => exact within_endCmd (List.Subset.trans (by decide) hs) _ _ _ _
  | cons x r ih => exact within_regenBlock (List.Subset.trans (by decide) hs) _ _ _ _ _ _ ih

theorem within_beaterProg {ks : List Kind} (hs : [.reg, .flag, .strm, .core, .line, .dir, .cons, .log, .send, .draw] ⊆ ks) (sid : Nat) (c : Cmd) (count : Nat) (shape : Option Status) (sizeBad : Bool) (addrBad : Option Status) (late : Option Status) (exts : List Ext) (work : Prog) (h_work : Within ks (work)) :
    Within ks (beaterProg sid c count shape sizeBad addrBad late exts work) := by
  unfold beaterProg
  repeat' (first
    | exact h_work
    | with_reducible exact within_skip ks
    | with_reducible exact within_seqs_nil ks
    | with_reducible refine within_endCmd (List.Subset.trans (by decide) hs) _ _ _ _
    | with_reducible refine within_logDetect (List.Subset.trans (by decide) hs) _ _ _ _ _ _ _
    | with_reducible refine within_startCmd (List.Subset.trans (by decide) hs) _ _
    | with_reducible refine within_useArmed (List.Subset.trans (by decide) hs) _ _ _ _ _ _ (fun _ => ?_)
    | with_reducible refine within_whenReady (List.Subset.trans (by decide) hs) _ _ ?_
    | with_reducible refine within_seqs_cons ?_ ?_
    | with_reducible refine within_seq ?_ ?_
    | with_reducible refine within_withS fun _ => ?_
    | split
    | dsimp only)

theorem within_digestRead {ks : List Kind} (hs : [.reg, .core, .line, .send, .draw] ⊆ ks) (sid k : Nat) (d : Block64) (e : BEntry) :
    Within ks (digestRead sid k d e) := by
  unfold digestRead
  repeat' (first
    | with_reducible exact within_skip ks
    | with_reducible exact within_seqs_nil ks
    | with_reducible refine within_readSlot (List.Subset.trans (by decide) hs) _ _ _
    | with_reducible refine within_readWc (List.Subset.trans (by decide) hs) _ _ _ _
    | with_reducible refine within_seqs_cons ?_ ?_
    | with_reducible refine within_seq ?_ ?_
    | with_reducible refine within_withS fun _ => ?_
    | with_reducible refine within_given fun _ => ?_
    | split
    | dsimp only)

theorem within_tableProg {ks : List Kind} (hs : [.reg, .mem, .flag, .strm, .core, .line, .dir, .hurt, .cons, .pow, .log, .send, .draw] ⊆ ks) (sid : Nat) (c : Cmd) (op : Nat) :
    Within ks (tableProg sid c op) := by
  unfold tableProg
  repeat' (first
    | with_reducible exact within_skip ks
    | with_reducible exact within_seqs_nil ks
    | with_reducible refine within_beaterProg (List.Subset.trans (by decide) hs) _ _ _ _ _ _ _ _ _ ?_
    | with_reducible refine within_digestRead (List.Subset.trans (by decide) hs) _ _ _ _
    | with_reducible refine within_endCmd (List.Subset.trans (by decide) hs) _ _ _ _
    | with_reducible refine within_markCmd (List.Subset.trans (by decide) hs) _ _ _
    | with_reducible refine within_regenBlocks (List.Subset.trans (by decide) hs) _ _ _ _
    | with_reducible refine within_updateBlocks (List.Subset.trans (by decide) hs) _ _ _ _ _ _
    | with_reducible refine within_writeBytes (List.Subset.trans (by decide) hs) _ _ _
    | with_reducible refine within_seqs_cons ?_ ?_
    | with_reducible refine within_seq ?_ ?_
    | with_reducible refine within_withS fun _ => ?_
    | with_reducible refine within_forEach fun _ _ => ?_
    | split
    | dsimp only)

theorem within_accumulateProg {ks : List Kind} (hs : [.reg, .mem, .flag, .strm, .core, .line, .dir, .hurt, .cons, .pow, .log, .send, .draw] ⊆ ks) (sid : Nat) (c : Cmd) :
    Within ks (accumulateProg sid c) := by
  unfold accumulateProg
  repeat' (first
    | with_reducible exact within_skip ks
    | with_reducible exact within_seqs_nil ks
    | with_reducible refine within_beaterProg (List.Subset.trans (by decide) hs) _ _ _ _ _ _ _ _ _ ?_
    | with_reducible refine within_endCmd (List.Subset.trans (by decide) hs) _ _ _ _
    | with_reducible refine within_putBlock (List.Subset.trans (by decide) hs) _ _ _
    | with_reducible refine within_seqs_cons ?_ ?_
    | with_reducible refine within_seq ?_ ?_
    | with_reducible refine within_withS fun _ => ?_
    | with_reducible refine within_forEach fun _ _ => ?_
    | split
    | dsimp only)

theorem within_clearBufProg {ks : List Kind} (hs : [.reg, .mem, .flag, .strm, .core, .line, .dir, .hurt, .cons, .pow, .log, .send, .draw] ⊆ ks) (sid : Nat) (c : Cmd) :
    Within ks (clearBufProg sid c) := by
  unfold clearBufProg
  repeat' (first
    | with_reducible exact within_skip ks
    | with_reducible exact within_seqs_nil ks
    | with_reducible refine within_beaterProg (List.Subset.trans (by decide) hs) _ _ _ _ _ _ _ _ _ ?_
    | with_reducible refine within_endCmd (List.Subset.trans (by decide) hs) _ _ _ _
    | with_reducible refine within_writeBytes (List.Subset.trans (by decide) hs) _ _ _
    | with_reducible refine within_seqs_cons ?_ ?_
    | with_reducible refine within_seq ?_ ?_
    | with_reducible refine within_withS fun _ => ?_
    | with_reducible refine within_forEach fun _ _ => ?_
    | split
    | dsimp only)

theorem within_btrCntClearProg {ks : List Kind} (hs : [.reg] ⊆ ks) (k : Nat) :
    Within ks (btrCntClearProg k) := by
  unfold btrCntClearProg
  repeat' (first
    | with_reducible exact within_skip ks
    | with_reducible exact within_seqs_nil ks
    | with_reducible refine within_setF (List.Subset.trans (by decide) hs) _ _
    | with_reducible refine within_seqs_cons ?_ ?_
    | with_reducible refine within_seq ?_ ?_
    | with_reducible refine within_withS fun _ => ?_
    | split
    | dsimp only)

theorem within_onBeater {ks : List Kind} (hs : [] ⊆ ks) (sid acc op : Nat) (k : Cmd → Prog) (h_k : ∀ x0, Within ks (k x0)) :
    Within ks (onBeater sid acc op k) := by
  unfold onBeater
  repeat' (first
    | exact h_k _
    | with_reducible exact within_skip ks
    | with_reducible exact within_seqs_nil ks
    | with_reducible refine within_onIssued (List.Subset.trans (by decide) hs) _ _ _ _ _ (fun _ => ?_)
    | with_reducible refine within_seqs_cons ?_ ?_
    | with_reducible refine within_seq ?_ ?_
    | with_reducible refine within_withS fun _ => ?_
    | with_reducible refine within_onlyIf fun _ => ?_
    | split
    | dsimp only)

end Sys2Proof.Machine
end

