-- ==== Sys2Proof/Laws/FpVat.lean ====
section
/-! SUPPORT. Footprints of the operations of Machine/Vat.lean: the parts of the state each can change. -/

namespace Sys2Proof.Machine

theorem within_setReach {ks : List Kind} (hs : [.reg] ⊆ ks) (i : Nat) (v : Bool) :
    Within ks (setReach i v) := by
  unfold setReach
  repeat' (first
    | with_reducible exact within_skip ks
    | with_reducible exact within_seqs_nil ks
    | with_reducible refine within_setF (List.Subset.trans (by decide) hs) _ _
    | with_reducible refine within_seqs_cons ?_ ?_
    | with_reducible refine within_seq ?_ ?_
    | with_reducible refine within_withS fun _ => ?_
    | split
    | dsimp only)

theorem within_setFab {ks : List Kind} (hs : [.fab] ⊆ ks) (x : FabX) :
    Within ks (setFab x) := by
  unfold setFab
  repeat' (first
    | with_reducible exact within_skip ks
    | with_reducible exact within_seqs_nil ks
    | with_reducible refine within_seqs_cons ?_ ?_
    | with_reducible refine within_seq ?_ ?_
    | with_reducible refine within_withS fun _ => ?_
    | with_reducible refine within_emit_cons ?_ ?_
    | with_reducible exact within_emit_nil ks
    | with_reducible refine within_emit_append ?_ ?_
    | with_reducible refine within_emit_map fun _ => ?_
    | exact kind_mem hs (by dsimp only [Eff.kind]; decide)
    | split
    | dsimp only)

theorem within_updFab {ks : List Kind} (hs : [.fab] ⊆ ks) (f : FabX → FabX) :
    Within ks (updFab f) := by
  unfold updFab
  repeat' (first
    | with_reducible exact within_skip ks
    | with_reducible exact within_seqs_nil ks
    | with_reducible refine within_setFab (List.Subset.trans (by decide) hs) _
    | with_reducible refine within_seqs_cons ?_ ?_
    | with_reducible refine within_seq ?_ ?_
    | with_reducible refine within_withS fun _ => ?_
    | split
    | dsimp only)

theorem within_setPort {ks : List Kind} (hs : [.port] ⊆ ks) (p : Nat) (x : Port) :
    Within ks (setPort p x) := by
  unfold setPort
  repeat' (first
    | with_reducible exact within_skip ks
    | with_reducible exact within_seqs_nil ks
    | with_reducible refine within_seqs_cons ?_ ?_
    | with_reducible refine within_seq ?_ ?_
    | with_reducible refine within_withS fun _ => ?_
    | with_reducible refine within_emit_cons ?_ ?_
    | with_reducible exact within_emit_nil ks
    | with_reducible refine within_emit_append ?_ ?_
    | with_reducible refine within_emit_map fun _ => ?_
    | exact kind_mem hs (by dsimp only [Eff.kind]; decide)
    | split
    | dsimp only)

theorem within_returnCredit {ks : List Kind} (hs : [.port] ⊆ ks) (hop : Nat × Nat) (n : Nat) :
    Within ks (returnCredit hop n) := by
  unfold returnCredit
  repeat' (first
    | with_reducible exact within_skip ks
    | with_reducible exact within_seqs_nil ks
    | with_reducible refine within_setPort (List.Subset.trans (by decide) hs) _ _
    | with_reducible refine within_seqs_cons ?_ ?_
    | with_reducible refine within_seq ?_ ?_
    | with_reducible refine within_withS fun _ => ?_
    | with_reducible refine within_given fun _ => ?_
    | split
    | dsimp only)

theorem within_raiseGrants {ks : List Kind} (hs : [.port] ⊆ ks)  :
    Within ks (raiseGrants ) := by
  unfold raiseGrants
  repeat' (first
    | with_reducible exact within_skip ks
    | with_reducible exact within_seqs_nil ks
    | with_reducible refine within_setPort (List.Subset.trans (by decide) hs) _ _
    | with_reducible refine within_seqs_cons ?_ ?_
    | with_reducible refine within_seq ?_ ?_
    | with_reducible refine within_withS fun _ => ?_
    | with_reducible refine within_forEach fun _ _ => ?_
    | with_reducible refine within_given fun _ => ?_
    | split
    | dsimp only)

theorem within_setUsed {ks : List Kind} (hs : [.reg, .port, .send, .draw] ⊆ ks) (p n : Nat) :
    Within ks (setUsed p n) := by
  unfold setUsed
  repeat' (first
    | with_reducible exact within_skip ks
    | with_reducible exact within_seqs_nil ks
    | with_reducible refine within_incF (List.Subset.trans (by decide) hs) _ _
    | with_reducible refine within_raiseGrants (List.Subset.trans (by decide) hs)
    | with_reducible refine within_sendIrq (List.Subset.trans (by decide) hs) _
    | with_reducible refine within_setF (List.Subset.trans (by decide) hs) _ _
    | with_reducible refine within_seqs_cons ?_ ?_
    | with_reducible refine within_seq ?_ ?_
    | with_reducible refine within_withS fun _ => ?_
    | with_reducible refine within_onlyIf fun _ => ?_
    | split
    | dsimp only)

theorem within_takeCells {ks : List Kind} (hs : [.reg, .port, .send, .draw] ⊆ ks) (p n : Nat) :
    Within ks (takeCells p n) := by
  unfold takeCells
  repeat' (first
    | with_reducible exact within_skip ks
    | with_reducible exact within_seqs_nil ks
    | with_reducible refine within_setUsed (List.Subset.trans (by decide) hs) _ _
    | with_reducible refine within_seqs_cons ?_ ?_
    | with_reducible refine within_seq ?_ ?_
    | with_reducible refine within_withS fun _ => ?_
    | split
    | dsimp only)

theorem within_freeCells {ks : List Kind} (hs : [.reg, .port, .send, .draw] ⊆ ks) (p n : Nat) :
    Within ks (freeCells p n) := by
  unfold freeCells
  repeat' (first
    | with_reducible exact within_skip ks
    | with_reducible exact within_seqs_nil ks
    | with_reducible refine within_setUsed (List.Subset.trans (by decide) hs) _ _
    | with_reducible refine within_seqs_cons ?_ ?_
    | with_reducible refine within_seq ?_ ?_
    | with_reducible refine within_withS fun _ => ?_
    | split
    | dsimp only)

theorem within_enterVat {ks : List Kind} (hs : [.reg, .fab, .port, .send, .draw] ⊆ ks) (pkt : Packet) (hop pool : Option (Nat × Nat)) :
    Within ks (enterVat pkt hop pool) := by
  unfold enterVat
  repeat' (first
    | with_reducible exact within_skip ks
    | with_reducible exact within_seqs_nil ks
    | with_reducible refine within_takeCells (List.Subset.trans (by decide) hs) _ _
    | with_reducible refine within_updFab (List.Subset.trans (by decide) hs) _
    | with_reducible refine within_seqs_cons ?_ ?_
    | with_reducible refine within_seq ?_ ?_
    | with_reducible refine within_withS fun _ => ?_
    | with_reducible refine within_given fun _ => ?_
    | split
    | dsimp only)

theorem within_leaveVat {ks : List Kind} (hs : [.reg, .fab, .port, .send, .draw] ⊆ ks) (pkt : Packet) :
    Within ks (leaveVat pkt) := by
  unfold leaveVat
  repeat' (first
    | with_reducible exact within_skip ks
    | with_reducible exact within_seqs_nil ks
    | with_reducible refine within_freeCells (List.Subset.trans (by decide) hs) _ _
    | with_reducible refine within_returnCredit (List.Subset.trans (by decide) hs) _ _
    | with_reducible refine within_takeCells (List.Subset.trans (by decide) hs) _ _
    | with_reducible refine within_updFab (List.Subset.trans (by decide) hs) _
    | with_reducible refine within_seqs_cons ?_ ?_
    | with_reducible refine within_seq ?_ ?_
    | with_reducible refine within_withS fun _ => ?_
    | with_reducible refine within_given fun _ => ?_
    | split
    | dsimp only)

theorem within_vatCell {ks : List Kind} (hs : [.reg, .cons, .pow, .log, .draw] ⊆ ks) (k : Prog) (h_k : Within ks (k)) :
    Within ks (vatCell k) := by
  unfold vatCell
  repeat' (first
    | exact h_k
    | with_reducible exact within_skip ks
    | with_reducible exact within_seqs_nil ks
    | with_reducible refine within_incF (List.Subset.trans (by decide) hs) _ _
    | with_reducible refine within_logDetect (List.Subset.trans (by decide) hs) _ _ _ _ _ _ _
    | with_reducible refine within_uncorrectable (List.Subset.trans (by decide) hs)
    | with_reducible refine within_useArmed (List.Subset.trans (by decide) hs) _ _ _ _ _ _ (fun _ => ?_)
    | with_reducible refine within_seqs_cons ?_ ?_
    | with_reducible refine within_seq ?_ ?_
    | with_reducible refine within_withS fun _ => ?_
    | with_reducible refine within_onlyIf fun _ => ?_
    | split
    | dsimp only)

theorem within_sendPacket {ks : List Kind} (hs : [.reg, .cons, .fab, .port, .pow, .log, .send, .draw] ⊆ ks) (p : Packet) :
    Within ks (sendPacket p) := by
  unfold sendPacket
  repeat' (first
    | with_reducible exact within_skip ks
    | with_reducible exact within_seqs_nil ks
    | with_reducible refine within_enterVat (List.Subset.trans (by decide) hs) _ _ _
    | with_reducible refine within_vatCell (List.Subset.trans (by decide) hs) _ ?_
    | with_reducible refine within_seqs_cons ?_ ?_
    | with_reducible refine within_seq ?_ ?_
    | with_reducible refine within_withS fun _ => ?_
    | with_reducible refine within_emit_cons ?_ ?_
    | with_reducible exact within_emit_nil ks
    | with_reducible refine within_emit_append ?_ ?_
    | with_reducible refine within_emit_map fun _ => ?_
    | exact kind_mem hs (by dsimp only [Eff.kind]; decide)
    | split
    | dsimp only)

end Sys2Proof.Machine
end

