-- ==== Sys2Proof/Laws/FpStages.lean ====
section
/-! SUPPORT. Footprints of the operations of Machine/Stages.lean: the parts of the state each can change. -/

namespace Sys2Proof.Machine

theorem within_groupCreateProg {ks : List Kind} (hs : [.reg, .fab, .port, .send, .draw] ⊆ ks) (g : Nat) :
    Within ks (groupCreateProg g) := by
  unfold groupCreateProg
  repeat' (first
    | with_reducible exact within_skip ks
    | with_reducible exact within_seqs_nil ks
    | with_reducible refine within_incF (List.Subset.trans (by decide) hs) _ _
    | with_reducible refine within_setF (List.Subset.trans (by decide) hs) _ _
    | with_reducible refine within_takeCells (List.Subset.trans (by decide) hs) _ _
    | with_reducible refine within_seqs_cons ?_ ?_
    | with_reducible refine within_seq ?_ ?_
    | with_reducible refine within_withS fun _ => ?_
    | with_reducible refine within_onlyIf fun _ => ?_
    | with_reducible refine within_emit_cons ?_ ?_
    | with_reducible exact within_emit_nil ks
    | with_reducible refine within_emit_append ?_ ?_
    | with_reducible refine within_emit_map fun _ => ?_
    | exact kind_mem hs (by dsimp only [Eff.kind]; decide)
    | split
    | dsimp only)

theorem within_groupReleaseProg {ks : List Kind} (hs : [.reg, .fab, .port, .send, .draw] ⊆ ks) (g : Nat) :
    Within ks (groupReleaseProg g) := by
  unfold groupReleaseProg
  repeat' (first
    | with_reducible exact within_skip ks
    | with_reducible exact within_seqs_nil ks
    | with_reducible refine within_freeCells (List.Subset.trans (by decide) hs) _ _
    | with_reducible refine within_setF (List.Subset.trans (by decide) hs) _ _
    | with_reducible refine within_seqs_cons ?_ ?_
    | with_reducible refine within_seq ?_ ?_
    | with_reducible refine within_withS fun _ => ?_
    | with_reducible refine within_emit_cons ?_ ?_
    | with_reducible exact within_emit_nil ks
    | with_reducible refine within_emit_append ?_ ?_
    | with_reducible refine within_emit_map fun _ => ?_
    | exact kind_mem hs (by dsimp only [Eff.kind]; decide)
    | split
    | dsimp only)

theorem within_nextSeqProg {ks : List Kind} (hs : [.reg] ⊆ ks) (g v : Nat) :
    Within ks (nextSeqProg g v) := by
  unfold nextSeqProg
  repeat' (first
    | with_reducible exact within_skip ks
    | with_reducible exact within_seqs_nil ks
    | with_reducible refine within_setF (List.Subset.trans (by decide) hs) _ _
    | with_reducible refine within_seqs_cons ?_ ?_
    | with_reducible refine within_seq ?_ ?_
    | with_reducible refine within_withS fun _ => ?_
    | with_reducible refine within_onlyIf fun _ => ?_
    | split
    | dsimp only)

theorem within_stepOkProg {ks : List Kind} (hs : [.reg] ⊆ ks) (v : Nat) :
    Within ks (stepOkProg v) := by
  unfold stepOkProg
  repeat' (first
    | with_reducible exact within_skip ks
    | with_reducible exact within_seqs_nil ks
    | with_reducible refine within_setF (List.Subset.trans (by decide) hs) _ _
    | with_reducible refine within_seqs_cons ?_ ?_
    | with_reducible refine within_seq ?_ ?_
    | with_reducible refine within_withS fun _ => ?_
    | split
    | dsimp only)

theorem within_updStage {ks : List Kind} (hs : [.stage] ⊆ ks) (g sn : Nat) (f : Stage → Stage) :
    Within ks (updStage g sn f) := by
  unfold updStage
  repeat' (first
    | with_reducible exact within_skip ks
    | with_reducible exact within_seqs_nil ks
    | with_reducible refine within_seqs_cons ?_ ?_
    | with_reducible refine within_seq ?_ ?_
    | with_reducible refine within_withS fun _ => ?_
    | with_reducible refine within_emit_cons ?_ ?_
    | with_reducible exact within_emit_nil ks
    | with_reducible refine within_emit_append ?_ ?_
    | with_reducible refine within_emit_map fun _ => ?_
    | exact kind_mem hs (by dsimp only [Eff.kind]; decide)
    | split
    | dsimp only)

theorem within_onStage {ks : List Kind} (hs : [] ⊆ ks) (g sn : Nat) (k : Ctx → Prog) (h_k : ∀ x0, Within ks (k x0)) :
    Within ks (onStage g sn k) := by
  unfold onStage
  repeat' (first
    | exact h_k _
    | with_reducible exact within_skip ks
    | with_reducible exact within_seqs_nil ks
    | with_reducible refine within_seqs_cons ?_ ?_
    | with_reducible refine within_seq ?_ ?_
    | with_reducible refine within_withS fun _ => ?_
    | with_reducible refine within_given fun _ => ?_
    | split
    | dsimp only)

theorem within_tell {ks : List Kind} (hs : [.send] ⊆ ks) (x : Ctx) (r : Nat) (m : StageMsg) :
    Within ks (tell x r m) := by
  unfold tell
  repeat' (first
    | with_reducible exact within_skip ks
    | with_reducible exact within_seqs_nil ks
    | with_reducible refine within_seqs_cons ?_ ?_
    | with_reducible refine within_seq ?_ ?_
    | with_reducible refine within_withS fun _ => ?_
    | with_reducible refine within_emit_cons ?_ ?_
    | with_reducible exact within_emit_nil ks
    | with_reducible refine within_emit_append ?_ ?_
    | with_reducible refine within_emit_map fun _ => ?_
    | exact kind_mem hs (by dsimp only [Eff.kind]; decide)
    | split
    | dsimp only)

theorem within_tellAll {ks : List Kind} (hs : [.send] ⊆ ks) (x : Ctx) (m : StageMsg) :
    Within ks (tellAll x m) := by
  unfold tellAll
  repeat' (first
    | with_reducible exact within_skip ks
    | with_reducible exact within_seqs_nil ks
    | with_reducible refine within_tell (List.Subset.trans (by decide) hs) _ _ _
    | with_reducible refine within_seqs_cons ?_ ?_
    | with_reducible refine within_seq ?_ ?_
    | with_reducible refine within_withS fun _ => ?_
    | with_reducible refine within_forEach fun _ _ => ?_
    | split
    | dsimp only)

theorem within_touchAll {ks : List Kind} (hs : [.reg, .core, .line, .send, .draw] ⊆ ks) (who : Requester) (es : List (Nat × Nat)) :
    Within ks (touchAll who es) := by
  unfold touchAll
  repeat' (first
    | with_reducible exact within_skip ks
    | with_reducible exact within_seqs_nil ks
    | with_reducible refine within_touch (List.Subset.trans (by decide) hs) _ _ _ _
    | with_reducible refine within_seqs_cons ?_ ?_
    | with_reducible refine within_seq ?_ ?_
    | with_reducible refine within_withS fun _ => ?_
    | with_reducible refine within_forEach fun _ _ => ?_
    | split
    | dsimp only)

theorem within_orderDone {ks : List Kind} (hs : [.order] ⊆ ks) (x : Ctx) :
    Within ks (orderDone x) := by
  unfold orderDone
  repeat' (first
    | with_reducible exact within_skip ks
    | with_reducible exact within_seqs_nil ks
    | with_reducible refine within_seqs_cons ?_ ?_
    | with_reducible refine within_seq ?_ ?_
    | with_reducible refine within_withS fun _ => ?_
    | with_reducible refine within_onlyIf fun _ => ?_
    | with_reducible refine within_given fun _ => ?_
    | with_reducible refine within_emit_cons ?_ ?_
    | with_reducible exact within_emit_nil ks
    | with_reducible refine within_emit_append ?_ ?_
    | with_reducible refine within_emit_map fun _ => ?_
    | exact kind_mem hs (by dsimp only [Eff.kind]; decide)
    | split
    | dsimp only)

theorem within_showPart {ks : List Kind} (hs : [.reg] ⊆ ks) (x : Ctx) (part : Nat) :
    Within ks (showPart x part) := by
  unfold showPart
  repeat' (first
    | with_reducible exact within_skip ks
    | with_reducible exact within_seqs_nil ks
    | with_reducible refine within_setF (List.Subset.trans (by decide) hs) _ _
    | with_reducible refine within_seqs_cons ?_ ?_
    | with_reducible refine within_seq ?_ ?_
    | with_reducible refine within_withS fun _ => ?_
    | with_reducible refine within_onlyIf fun _ => ?_
    | split
    | dsimp only)

theorem within_endStage {ks : List Kind} (hs : [.reg, .flag, .strm, .core, .line, .stage, .order, .log, .send, .draw] ⊆ ks) (x : Ctx) (st : Status) :
    Within ks (endStage x st) := by
  unfold endStage
  repeat' (first
    | with_reducible exact within_skip ks
    | with_reducible exact within_seqs_nil ks
    | with_reducible refine within_endCmd (List.Subset.trans (by decide) hs) _ _ _ _
    | with_reducible refine within_orderDone (List.Subset.trans (by decide) hs) _
    | with_reducible refine within_setF (List.Subset.trans (by decide) hs) _ _
    | with_reducible refine within_showPart (List.Subset.trans (by decide) hs) _ _
    | with_reducible refine within_updStage (List.Subset.trans (by decide) hs) _ _ _
    | with_reducible refine within_seqs_cons ?_ ?_
    | with_reducible refine within_seq ?_ ?_
    | with_reducible refine within_withS fun _ => ?_
    | with_reducible refine within_onlyIf fun _ => ?_
    | split
    | dsimp only)

theorem within_failStage {ks : List Kind} (hs : [.reg, .flag, .strm, .core, .line, .stage, .order, .log, .send, .draw] ⊆ ks) (x : Ctx) (st : Status) :
    Within ks (failStage x st) := by
  unfold failStage
  repeat' (first
    | with_reducible exact within_skip ks
    | with_reducible exact within_seqs_nil ks
    | with_reducible refine within_endStage (List.Subset.trans (by decide) hs) _ _
    | with_reducible refine within_incF (List.Subset.trans (by decide) hs) _ _
    | with_reducible refine within_vetoStep (List.Subset.trans (by decide) hs) _
    | with_reducible refine within_seqs_cons ?_ ?_
    | with_reducible refine within_seq ?_ ?_
    | with_reducible refine within_withS fun _ => ?_
    | split
    | dsimp only)

theorem within_taintStage {ks : List Kind} (hs : [.reg, .log, .send, .draw] ⊆ ks) (sid acc : Nat) :
    Within ks (taintStage sid acc) := by
  unfold taintStage
  repeat' (first
    | with_reducible exact within_skip ks
    | with_reducible exact within_seqs_nil ks
    | with_reducible refine within_incF (List.Subset.trans (by decide) hs) _ _
    | with_reducible refine within_logEv (List.Subset.trans (by decide) hs) _ _ _ _ _ _
    | with_reducible refine within_markTaint (List.Subset.trans (by decide) hs) _ _
    | with_reducible refine within_sendIrq (List.Subset.trans (by decide) hs) _
    | with_reducible refine within_spreadTaint (List.Subset.trans (by decide) hs) _
    | with_reducible refine within_vetoStep (List.Subset.trans (by decide) hs) _
    | with_reducible refine within_seqs_cons ?_ ?_
    | with_reducible refine within_seq ?_ ?_
    | with_reducible refine within_withS fun _ => ?_
    | split
    | dsimp only)

theorem within_lateStage {ks : List Kind} (hs : [.reg, .log, .draw] ⊆ ks) (g sn : Nat) :
    Within ks (lateStage g sn) := by
  unfold lateStage
  repeat' (first
    | with_reducible exact within_skip ks
    | with_reducible exact within_seqs_nil ks
    | with_reducible refine within_lateProg (List.Subset.trans (by decide) hs) _
    | with_reducible refine within_seqs_cons ?_ ?_
    | with_reducible refine within_seq ?_ ?_
    | with_reducible refine within_withS fun _ => ?_
    | split
    | dsimp only)

theorem within_ifOverdue {ks : List Kind} (hs : [.reg, .log, .draw] ⊆ ks) (g sn : Nat) :
    Within ks (ifOverdue g sn) := by
  unfold ifOverdue
  repeat' (first
    | with_reducible exact within_skip ks
    | with_reducible exact within_seqs_nil ks
    | with_reducible refine within_lateStage (List.Subset.trans (by decide) hs) _ _
    | with_reducible refine within_seqs_cons ?_ ?_
    | with_reducible refine within_seq ?_ ?_
    | with_reducible refine within_withS fun _ => ?_
    | with_reducible refine within_onlyIf fun _ => ?_
    | split
    | dsimp only)

theorem within_failHere {ks : List Kind} (hs : [.reg, .flag, .strm, .core, .line, .stage, .order, .log, .send, .draw] ⊆ ks) (g sn : Nat) (st : Status) :
    Within ks (failHere g sn st) := by
  unfold failHere
  repeat' (first
    | with_reducible exact within_skip ks
    | with_reducible exact within_seqs_nil ks
    | with_reducible refine within_failStage (List.Subset.trans (by decide) hs) _ _
    | with_reducible refine within_ifOverdue (List.Subset.trans (by decide) hs) _ _
    | with_reducible refine within_taintStage (List.Subset.trans (by decide) hs) _ _
    | with_reducible refine within_updStage (List.Subset.trans (by decide) hs) _ _ _
    | with_reducible refine within_seqs_cons ?_ ?_
    | with_reducible refine within_seq ?_ ?_
    | with_reducible refine within_withS fun _ => ?_
    | split
    | dsimp only)

theorem within_coordFail {ks : List Kind} (hs : [.reg, .flag, .strm, .core, .line, .stage, .order, .log, .send, .draw] ⊆ ks) (g sn : Nat) (st : Status) :
    Within ks (coordFail g sn st) := by
  unfold coordFail
  repeat' (first
    | with_reducible exact within_skip ks
    | with_reducible exact within_seqs_nil ks
    | with_reducible refine within_failHere (List.Subset.trans (by decide) hs) _ _ _
    | with_reducible refine within_updStage (List.Subset.trans (by decide) hs) _ _ _
    | with_reducible refine within_seqs_cons ?_ ?_
    | with_reducible refine within_seq ?_ ?_
    | with_reducible refine within_withS fun _ => ?_
    | with_reducible refine within_forEach fun _ _ => ?_
    | with_reducible refine within_emit_cons ?_ ?_
    | with_reducible exact within_emit_nil ks
    | with_reducible refine within_emit_append ?_ ?_
    | with_reducible refine within_emit_map fun _ => ?_
    | exact kind_mem hs (by dsimp only [Eff.kind]; decide)
    | split
    | dsimp only)

theorem within_reportFail {ks : List Kind} (hs : [.reg, .flag, .strm, .core, .line, .stage, .order, .log, .send, .draw] ⊆ ks) (x : Ctx) (st : Status) :
    Within ks (reportFail x st) := by
  unfold reportFail
  repeat' (first
    | with_reducible exact within_skip ks
    | with_reducible exact within_seqs_nil ks
    | with_reducible refine within_coordFail (List.Subset.trans (by decide) hs) _ _ _
    | with_reducible refine within_tell (List.Subset.trans (by decide) hs) _ _ _
    | with_reducible refine within_updStage (List.Subset.trans (by decide) hs) _ _ _
    | with_reducible refine within_seqs_cons ?_ ?_
    | with_reducible refine within_seq ?_ ?_
    | with_reducible refine within_withS fun _ => ?_
    | split
    | dsimp only)

theorem within_stageFault {ks : List Kind} (hs : [.reg, .flag, .strm, .core, .line, .stage, .order, .log, .send, .draw] ⊆ ks) (x : Ctx) (st : Status) :
    Within ks (stageFault x st) := by
  unfold stageFault
  repeat' (first
    | with_reducible exact within_skip ks
    | with_reducible exact within_seqs_nil ks
    | with_reducible refine within_onStage (List.Subset.trans (by decide) hs) _ _ _ (fun _ => ?_)
    | with_reducible refine within_reportFail (List.Subset.trans (by decide) hs) _ _
    | with_reducible refine within_seqs_cons ?_ ?_
    | with_reducible refine within_seq ?_ ?_
    | with_reducible refine within_withS fun _ => ?_
    | split
    | dsimp only)

theorem within_storeBytes {ks : List Kind} (hs : [.reg, .mem, .flag, .strm, .core, .line, .hurt, .cons, .stage, .order, .pow, .log, .send, .draw] ⊆ ks) (x : Ctx) (a : Nat) (bs : List Byte) :
    Within ks (storeBytes x a bs) := by
  unfold storeBytes
  repeat' (first
    | with_reducible exact within_skip ks
    | with_reducible exact within_seqs_nil ks
    | with_reducible refine within_stageFault (List.Subset.trans (by decide) hs) _ _
    | with_reducible refine within_writeBytes (List.Subset.trans (by decide) hs) _ _ _
    | with_reducible refine within_seqs_cons ?_ ?_
    | with_reducible refine within_seq ?_ ?_
    | with_reducible refine within_withS fun _ => ?_
    | split
    | dsimp only)

theorem within_addExact {ks : List Kind} (hs : [.reg, .mem, .flag, .strm, .core, .line, .hurt, .cons, .stage, .order, .pow, .log, .send, .draw] ⊆ ks) (x : Ctx) (e0 : Nat) (vals : List Nat) (flags : List Byte) :
    Within ks (addExact x e0 vals flags) := by
  unfold addExact
  repeat' (first
    | with_reducible exact within_skip ks
    | with_reducible exact within_seqs_nil ks
    | with_reducible refine within_putBlock (List.Subset.trans (by decide) hs) _ _ _
    | with_reducible refine within_stageFault (List.Subset.trans (by decide) hs) _ _
    | with_reducible refine within_seqs_cons ?_ ?_
    | with_reducible refine within_seq ?_ ?_
    | with_reducible refine within_withS fun _ => ?_
    | with_reducible refine within_forEach fun _ _ => ?_
    | split
    | dsimp only)

theorem within_putReturned {ks : List Kind} (hs : [.reg, .mem, .flag, .strm, .core, .line, .hurt, .cons, .stage, .order, .pow, .log, .send, .draw] ⊆ ks) (x : Ctx) (bs : List Byte) :
    Within ks (putReturned x bs) := by
  unfold putReturned
  repeat' (first
    | with_reducible exact within_skip ks
    | with_reducible exact within_seqs_nil ks
    | with_reducible refine within_storeBytes (List.Subset.trans (by decide) hs) _ _ _
    | with_reducible refine within_seqs_cons ?_ ?_
    | with_reducible refine within_seq ?_ ?_
    | with_reducible refine within_withS fun _ => ?_
    | with_reducible refine within_onlyIf fun _ => ?_
    | with_reducible refine within_forEach fun _ _ => ?_
    | split
    | dsimp only)

theorem within_putRows {ks : List Kind} (hs : [.reg, .mem, .flag, .strm, .core, .line, .hurt, .cons, .stage, .order, .pow, .log, .send, .draw] ⊆ ks) (x : Ctx) (bs : List Byte) :
    Within ks (putRows x bs) := by
  unfold putRows
  repeat' (first
    | with_reducible exact within_skip ks
    | with_reducible exact within_seqs_nil ks
    | with_reducible refine within_putReturned (List.Subset.trans (by decide) hs) _ _
    | with_reducible refine within_seqs_cons ?_ ?_
    | with_reducible refine within_seq ?_ ?_
    | with_reducible refine within_withS fun _ => ?_
    | with_reducible refine within_forEach fun _ _ => ?_
    | split
    | dsimp only)

theorem within_useRows {ks : List Kind} (hs : [.reg, .mem, .flag, .strm, .core, .line, .hurt, .cons, .stage, .order, .pow, .log, .send, .draw] ⊆ ks) (x : Ctx) (q o : Nat) (bs : List Byte) :
    Within ks (useRows x q o bs) := by
  unfold useRows
  repeat' (first
    | with_reducible exact within_skip ks
    | with_reducible exact within_seqs_nil ks
    | with_reducible refine within_putRows (List.Subset.trans (by decide) hs) _ _
    | with_reducible refine within_updStage (List.Subset.trans (by decide) hs) _ _ _
    | with_reducible refine within_seqs_cons ?_ ?_
    | with_reducible refine within_seq ?_ ?_
    | with_reducible refine within_withS fun _ => ?_
    | split
    | dsimp only)

theorem within_useChunk {ks : List Kind} (hs : [.reg, .mem, .flag, .strm, .core, .line, .hurt, .cons, .stage, .order, .pow, .log, .send, .draw] ⊆ ks) (x : Ctx) (q : Nat) (gather : Bool) (o : Nat) (bs flags : List Byte) :
    Within ks (useChunk x q gather o bs flags) := by
  unfold useChunk
  repeat' (first
    | with_reducible exact within_skip ks
    | with_reducible exact within_seqs_nil ks
    | with_reducible refine within_addExact (List.Subset.trans (by decide) hs) _ _ _ _
    | with_reducible refine within_atomicApply (List.Subset.trans (by decide) hs) _ _ _ _ _ _ _ (fun _ => ?_)
    | with_reducible refine within_stageFault (List.Subset.trans (by decide) hs) _ _
    | with_reducible refine within_storeBytes (List.Subset.trans (by decide) hs) _ _ _
    | with_reducible refine within_useRows (List.Subset.trans (by decide) hs) _ _ _ _
    | with_reducible refine within_seqs_cons ?_ ?_
    | with_reducible refine within_seq ?_ ?_
    | with_reducible refine within_withS fun _ => ?_
    | with_reducible refine within_forEach fun _ _ => ?_
    | split
    | dsimp only)

theorem within_useOwn {ks : List Kind} (hs : [.reg, .mem, .flag, .strm, .core, .line, .hurt, .cons, .stage, .order, .pow, .log, .send, .draw] ⊆ ks) (x : Ctx) :
    Within ks (useOwn x) := by
  unfold useOwn
  repeat' (first
    | with_reducible exact within_skip ks
    | with_reducible exact within_seqs_nil ks
    | with_reducible refine within_putRows (List.Subset.trans (by decide) hs) _ _
    | with_reducible refine within_storeBytes (List.Subset.trans (by decide) hs) _ _ _
    | with_reducible refine within_useChunk (List.Subset.trans (by decide) hs) _ _ _ _ _ _
    | with_reducible refine within_seqs_cons ?_ ?_
    | with_reducible refine within_seq ?_ ?_
    | with_reducible refine within_withS fun _ => ?_
    | with_reducible refine within_onlyIf fun _ => ?_
    | split
    | dsimp only)

theorem within_putToken {ks : List Kind} (hs : [.reg, .mem, .flag, .strm, .core, .line, .hurt, .cons, .stage, .order, .pow, .log, .send, .draw] ⊆ ks) (x : Ctx) (q : Nat) (header row : List Byte) :
    Within ks (putToken x q header row) := by
  unfold putToken
  repeat' (first
    | with_reducible exact within_skip ks
    | with_reducible exact within_seqs_nil ks
    | with_reducible refine within_incF (List.Subset.trans (by decide) hs) _ _
    | with_reducible refine within_storeBytes (List.Subset.trans (by decide) hs) _ _ _
    | with_reducible refine within_updStage (List.Subset.trans (by decide) hs) _ _ _
    | with_reducible refine within_seqs_cons ?_ ?_
    | with_reducible refine within_seq ?_ ?_
    | with_reducible refine within_withS fun _ => ?_
    | with_reducible refine within_forEach fun _ _ => ?_
    | with_reducible refine within_given fun _ => ?_
    | split
    | dsimp only)

theorem within_histAdd {ks : List Kind} (hs : [.reg, .mem, .core, .line, .hurt, .cons, .pow, .log, .send, .draw] ⊆ ks) (x : Ctx) (op expert word v : Nat) :
    Within ks (histAdd x op expert word v) := by
  unfold histAdd
  repeat' (first
    | with_reducible exact within_skip ks
    | with_reducible exact within_seqs_nil ks
    | with_reducible refine within_atomicApply (List.Subset.trans (by decide) hs) _ _ _ _ _ _ _ (fun _ => ?_)
    | with_reducible refine within_seqs_cons ?_ ?_
    | with_reducible refine within_seq ?_ ?_
    | with_reducible refine within_withS fun _ => ?_
    | with_reducible refine within_onlyIf fun _ => ?_
    | split
    | dsimp only)

theorem within_grantFinish {ks : List Kind} (hs : [.reg, .mem, .flag, .strm, .core, .line, .hurt, .cons, .stage, .order, .pow, .log, .send, .draw] ⊆ ks) (x : Ctx) :
    Within ks (grantFinish x) := by
  unfold grantFinish
  repeat' (first
    | with_reducible exact within_skip ks
    | with_reducible exact within_seqs_nil ks
    | with_reducible refine within_histAdd (List.Subset.trans (by decide) hs) _ _ _ _ _
    | with_reducible refine within_incF (List.Subset.trans (by decide) hs) _ _
    | with_reducible refine within_storeBytes (List.Subset.trans (by decide) hs) _ _ _
    | with_reducible refine within_seqs_cons ?_ ?_
    | with_reducible refine within_seq ?_ ?_
    | with_reducible refine within_withS fun _ => ?_
    | with_reducible refine within_onlyIf fun _ => ?_
    | with_reducible refine within_forEach fun _ _ => ?_
    | with_reducible refine within_drawFree (kind_mem hs (by decide)) fun _ => ?_
    | split
    | dsimp only)

theorem within_admitStage {ks : List Kind} (hs : [.reg, .strm, .stage, .log, .send, .draw] ⊆ ks) (g sn : Nat) :
    Within ks (admitStage g sn) := by
  unfold admitStage
  repeat' (first
    | with_reducible exact within_skip ks
    | with_reducible exact within_seqs_nil ks
    | with_reducible refine within_incF (List.Subset.trans (by decide) hs) _ _
    | with_reducible refine within_onStage (List.Subset.trans (by decide) hs) _ _ _ (fun _ => ?_)
    | with_reducible refine within_startCmd (List.Subset.trans (by decide) hs) _ _
    | with_reducible refine within_tell (List.Subset.trans (by decide) hs) _ _ _
    | with_reducible refine within_updStage (List.Subset.trans (by decide) hs) _ _ _
    | with_reducible refine within_seqs_cons ?_ ?_
    | with_reducible refine within_seq ?_ ?_
    | with_reducible refine within_withS fun _ => ?_
    | with_reducible refine within_onlyIf fun _ => ?_
    | with_reducible refine within_forEach fun _ _ => ?_
    | split
    | dsimp only)

theorem within_goHere {ks : List Kind} (hs : [.reg, .strm, .stage, .log] ⊆ ks) (g sn : Nat) (info : List Nat) :
    Within ks (goHere g sn info) := by
  unfold goHere
  repeat' (first
    | with_reducible exact within_skip ks
    | with_reducible exact within_seqs_nil ks
    | with_reducible refine within_markCmd (List.Subset.trans (by decide) hs) _ _ _
    | with_reducible refine within_onStage (List.Subset.trans (by decide) hs) _ _ _ (fun _ => ?_)
    | with_reducible refine within_showPart (List.Subset.trans (by decide) hs) _ _
    | with_reducible refine within_updStage (List.Subset.trans (by decide) hs) _ _ _
    | with_reducible refine within_seqs_cons ?_ ?_
    | with_reducible refine within_seq ?_ ?_
    | with_reducible refine within_withS fun _ => ?_
    | split
    | dsimp only)

theorem within_decisionHere {ks : List Kind} (hs : [.reg, .flag, .strm, .core, .line, .stage, .order, .log, .send, .draw] ⊆ ks) (g sn : Nat) (commit : Bool) (epoch : Nat) :
    Within ks (decisionHere g sn commit epoch) := by
  unfold decisionHere
  repeat' (first
    | with_reducible exact within_skip ks
    | with_reducible exact within_seqs_nil ks
    | with_reducible refine within_endStage (List.Subset.trans (by decide) hs) _ _
    | with_reducible refine within_logEv (List.Subset.trans (by decide) hs) _ _ _ _ _ _
    | with_reducible refine within_markCmd (List.Subset.trans (by decide) hs) _ _ _
    | with_reducible refine within_onStage (List.Subset.trans (by decide) hs) _ _ _ (fun _ => ?_)
    | with_reducible refine within_setF (List.Subset.trans (by decide) hs) _ _
    | with_reducible refine within_seqs_cons ?_ ?_
    | with_reducible refine within_seq ?_ ?_
    | with_reducible refine within_withS fun _ => ?_
    | with_reducible refine within_forEach fun _ _ => ?_
    | split
    | dsimp only)

theorem within_decide_ {ks : List Kind} (hs : [.reg, .flag, .strm, .core, .line, .stage, .order, .log, .send, .draw] ⊆ ks) (g sn : Nat) (atTimeout : Bool) :
    Within ks (decide_ g sn atTimeout) := by
  unfold decide_
  repeat' (first
    | with_reducible exact within_skip ks
    | with_reducible exact within_seqs_nil ks
    | with_reducible refine within_decisionHere (List.Subset.trans (by decide) hs) _ _ _ _
    | with_reducible refine within_failHere (List.Subset.trans (by decide) hs) _ _ _
    | with_reducible refine within_goHere (List.Subset.trans (by decide) hs) _ _ _
    | with_reducible refine within_logEv (List.Subset.trans (by decide) hs) _ _ _ _ _ _
    | with_reducible refine within_onStage (List.Subset.trans (by decide) hs) _ _ _ (fun _ => ?_)
    | with_reducible refine within_tellAll (List.Subset.trans (by decide) hs) _ _
    | with_reducible refine within_updStage (List.Subset.trans (by decide) hs) _ _ _
    | with_reducible refine within_seqs_cons ?_ ?_
    | with_reducible refine within_seq ?_ ?_
    | with_reducible refine within_withS fun _ => ?_
    | split
    | dsimp only)

theorem within_begin {ks : List Kind} (hs : [.reg, .mem, .flag, .strm, .core, .line, .dir, .hurt, .cons, .stage, .order, .pow, .log, .send, .draw] ⊆ ks) (g sn : Nat) :
    Within ks (begin g sn) := by
  unfold begin
  repeat' (first
    | with_reducible exact within_skip ks
    | with_reducible exact within_seqs_nil ks
    | with_reducible refine within_grantFinish (List.Subset.trans (by decide) hs) _
    | with_reducible refine within_incF (List.Subset.trans (by decide) hs) _ _
    | with_reducible refine within_onStage (List.Subset.trans (by decide) hs) _ _ _ (fun _ => ?_)
    | with_reducible refine within_reportFail (List.Subset.trans (by decide) hs) _ _
    | with_reducible refine within_storeBytes (List.Subset.trans (by decide) hs) _ _ _
    | with_reducible refine within_touch (List.Subset.trans (by decide) hs) _ _ _ _
    | with_reducible refine within_touchAll (List.Subset.trans (by decide) hs) _ _
    | with_reducible refine within_updStage (List.Subset.trans (by decide) hs) _ _ _
    | with_reducible refine within_useOwn (List.Subset.trans (by decide) hs) _
    | with_reducible refine within_whenReady (List.Subset.trans (by decide) hs) _ _ ?_
    | with_reducible refine within_writeBytes (List.Subset.trans (by decide) hs) _ _ _
    | with_reducible refine within_seqs_cons ?_ ?_
    | with_reducible refine within_seq ?_ ?_
    | with_reducible refine within_withS fun _ => ?_
    | with_reducible refine within_onlyIf fun _ => ?_
    | with_reducible refine within_forEach fun _ _ => ?_
    | split
    | dsimp only)

theorem within_sendChunk {ks : List Kind} (hs : [.reg, .cons, .send, .draw] ⊆ ks) (x : Ctx) (r n : Nat) (h : Held) :
    Within ks (sendChunk x r n h) := by
  unfold sendChunk
  repeat' (first
    | with_reducible exact within_skip ks
    | with_reducible exact within_seqs_nil ks
    | with_reducible refine within_tell (List.Subset.trans (by decide) hs) _ _ _
    | with_reducible refine within_useArmed (List.Subset.trans (by decide) hs) _ _ _ _ _ _ (fun _ => ?_)
    | with_reducible refine within_seqs_cons ?_ ?_
    | with_reducible refine within_seq ?_ ?_
    | with_reducible refine within_withS fun _ => ?_
    | split
    | dsimp only)

theorem within_sendDue {ks : List Kind} (hs : [.reg, .cons, .stage, .send, .draw] ⊆ ks) (g sn : Nat) :
    Within ks (sendDue g sn) := by
  unfold sendDue
  repeat' (first
    | with_reducible exact within_skip ks
    | with_reducible exact within_seqs_nil ks
    | with_reducible refine within_onStage (List.Subset.trans (by decide) hs) _ _ _ (fun _ => ?_)
    | with_reducible refine within_sendChunk (List.Subset.trans (by decide) hs) _ _ _ _
    | with_reducible refine within_updStage (List.Subset.trans (by decide) hs) _ _ _
    | with_reducible refine within_seqs_cons ?_ ?_
    | with_reducible refine within_seq ?_ ?_
    | with_reducible refine within_withS fun _ => ?_
    | with_reducible refine within_forEach fun _ _ => ?_
    | split
    | dsimp only)

theorem within_takePiece {ks : List Kind} (hs : [.reg, .mem, .flag, .strm, .core, .line, .dir, .hurt, .cons, .stage, .order, .pow, .log, .send, .draw] ⊆ ks) (g sn k : Nat) (first : Bool) (p : Piece) :
    Within ks (takePiece g sn k first p) := by
  unfold takePiece
  repeat' (first
    | with_reducible exact within_skip ks
    | with_reducible exact within_seqs_nil ks
    | with_reducible refine within_onStage (List.Subset.trans (by decide) hs) _ _ _ (fun _ => ?_)
    | with_reducible refine within_reportFail (List.Subset.trans (by decide) hs) _ _
    | with_reducible refine within_touch (List.Subset.trans (by decide) hs) _ _ _ _
    | with_reducible refine within_updStage (List.Subset.trans (by decide) hs) _ _ _
    | with_reducible refine within_useChunk (List.Subset.trans (by decide) hs) _ _ _ _ _ _
    | with_reducible refine within_whenReady (List.Subset.trans (by decide) hs) _ _ ?_
    | with_reducible refine within_seqs_cons ?_ ?_
    | with_reducible refine within_seq ?_ ?_
    | with_reducible refine within_withS fun _ => ?_
    | with_reducible refine within_onlyIf fun _ => ?_
    | split
    | dsimp only)

theorem within_sendRows {ks : List Kind} (hs : [.reg, .stage, .send, .draw] ⊆ ks) (g sn : Nat) :
    Within ks (sendRows g sn) := by
  unfold sendRows
  repeat' (first
    | with_reducible exact within_skip ks
    | with_reducible exact within_seqs_nil ks
    | with_reducible refine within_incF (List.Subset.trans (by decide) hs) _ _
    | with_reducible refine within_onStage (List.Subset.trans (by decide) hs) _ _ _ (fun _ => ?_)
    | with_reducible refine within_tell (List.Subset.trans (by decide) hs) _ _ _
    | with_reducible refine within_updStage (List.Subset.trans (by decide) hs) _ _ _
    | with_reducible refine within_seqs_cons ?_ ?_
    | with_reducible refine within_seq ?_ ?_
    | with_reducible refine within_withS fun _ => ?_
    | with_reducible refine within_onlyIf fun _ => ?_
    | with_reducible refine within_forEach fun _ _ => ?_
    | split
    | dsimp only)

theorem within_sendFirst {ks : List Kind} (hs : [.reg, .mem, .flag, .strm, .core, .line, .dir, .hurt, .cons, .stage, .order, .pow, .log, .send, .draw] ⊆ ks) (g sn : Nat) :
    Within ks (sendFirst g sn) := by
  unfold sendFirst
  repeat' (first
    | with_reducible exact within_skip ks
    | with_reducible exact within_seqs_nil ks
    | with_reducible refine within_onStage (List.Subset.trans (by decide) hs) _ _ _ (fun _ => ?_)
    | with_reducible refine within_sendDue (List.Subset.trans (by decide) hs) _ _
    | with_reducible refine within_sendRows (List.Subset.trans (by decide) hs) _ _
    | with_reducible refine within_takePiece (List.Subset.trans (by decide) hs) _ _ _ _ _
    | with_reducible refine within_seqs_cons ?_ ?_
    | with_reducible refine within_seq ?_ ?_
    | with_reducible refine within_withS fun _ => ?_
    | with_reducible refine within_forEach fun _ _ => ?_
    | split
    | dsimp only)

theorem within_applyOwn {ks : List Kind} (hs : [.reg, .mem, .flag, .strm, .core, .line, .dir, .hurt, .cons, .stage, .order, .pow, .log, .send, .draw] ⊆ ks) (g sn : Nat) :
    Within ks (applyOwn g sn) := by
  unfold applyOwn
  repeat' (first
    | with_reducible exact within_skip ks
    | with_reducible exact within_seqs_nil ks
    | with_reducible refine within_onStage (List.Subset.trans (by decide) hs) _ _ _ (fun _ => ?_)
    | with_reducible refine within_reportFail (List.Subset.trans (by decide) hs) _ _
    | with_reducible refine within_touch (List.Subset.trans (by decide) hs) _ _ _ _
    | with_reducible refine within_updStage (List.Subset.trans (by decide) hs) _ _ _
    | with_reducible refine within_useOwn (List.Subset.trans (by decide) hs) _
    | with_reducible refine within_whenReady (List.Subset.trans (by decide) hs) _ _ ?_
    | with_reducible refine within_seqs_cons ?_ ?_
    | with_reducible refine within_seq ?_ ?_
    | with_reducible refine within_withS fun _ => ?_
    | split
    | dsimp only)

theorem within_useFrom {ks : List Kind} (hs : [.reg, .mem, .flag, .strm, .core, .line, .dir, .hurt, .cons, .stage, .order, .pow, .log, .send, .draw] ⊆ ks) (g sn q : Nat) :
    Within ks (useFrom g sn q) := by
  unfold useFrom
  repeat' (first
    | with_reducible exact within_skip ks
    | with_reducible exact within_seqs_nil ks
    | with_reducible refine within_onStage (List.Subset.trans (by decide) hs) _ _ _ (fun _ => ?_)
    | with_reducible refine within_putToken (List.Subset.trans (by decide) hs) _ _ _ _
    | with_reducible refine within_tell (List.Subset.trans (by decide) hs) _ _ _
    | with_reducible refine within_updStage (List.Subset.trans (by decide) hs) _ _ _
    | with_reducible refine within_useChunk (List.Subset.trans (by decide) hs) _ _ _ _ _ _
    | with_reducible refine within_whenReady (List.Subset.trans (by decide) hs) _ _ ?_
    | with_reducible refine within_seqs_cons ?_ ?_
    | with_reducible refine within_seq ?_ ?_
    | with_reducible refine within_withS fun _ => ?_
    | with_reducible refine within_forEach fun _ _ => ?_
    | with_reducible refine within_given fun _ => ?_
    | split
    | dsimp only)

theorem within_useEarly {ks : List Kind} (hs : [.reg, .mem, .flag, .strm, .core, .line, .dir, .hurt, .cons, .stage, .order, .pow, .log, .send, .draw] ⊆ ks) (g sn : Nat) :
    Within ks (useEarly g sn) := by
  unfold useEarly
  repeat' (first
    | with_reducible exact within_skip ks
    | with_reducible exact within_seqs_nil ks
    | with_reducible refine within_applyOwn (List.Subset.trans (by decide) hs) _ _
    | with_reducible refine within_onStage (List.Subset.trans (by decide) hs) _ _ _ (fun _ => ?_)
    | with_reducible refine within_useFrom (List.Subset.trans (by decide) hs) _ _ _
    | with_reducible refine within_seqs_cons ?_ ?_
    | with_reducible refine within_seq ?_ ?_
    | with_reducible refine within_withS fun _ => ?_
    | with_reducible refine within_forEach fun _ _ => ?_
    | split
    | dsimp only)

theorem within_settleShard {ks : List Kind} (hs : [.reg, .mem, .flag, .strm, .core, .line, .dir, .hurt, .cons, .stage, .order, .pow, .log, .send, .draw] ⊆ ks) (g sn : Nat) :
    Within ks (settleShard g sn) := by
  unfold settleShard
  repeat' (first
    | with_reducible exact within_skip ks
    | with_reducible exact within_seqs_nil ks
    | with_reducible refine within_onStage (List.Subset.trans (by decide) hs) _ _ _ (fun _ => ?_)
    | with_reducible refine within_storeBytes (List.Subset.trans (by decide) hs) _ _ _
    | with_reducible refine within_updStage (List.Subset.trans (by decide) hs) _ _ _
    | with_reducible refine within_whenReady (List.Subset.trans (by decide) hs) _ _ ?_
    | with_reducible refine within_seqs_cons ?_ ?_
    | with_reducible refine within_seq ?_ ?_
    | with_reducible refine within_withS fun _ => ?_
    | split
    | dsimp only)

theorem within_sendSecond {ks : List Kind} (hs : [.reg, .mem, .flag, .strm, .core, .line, .dir, .hurt, .cons, .stage, .order, .pow, .log, .send, .draw] ⊆ ks) (g sn : Nat) :
    Within ks (sendSecond g sn) := by
  unfold sendSecond
  repeat' (first
    | with_reducible exact within_skip ks
    | with_reducible exact within_seqs_nil ks
    | with_reducible refine within_onStage (List.Subset.trans (by decide) hs) _ _ _ (fun _ => ?_)
    | with_reducible refine within_sendDue (List.Subset.trans (by decide) hs) _ _
    | with_reducible refine within_takePiece (List.Subset.trans (by decide) hs) _ _ _ _ _
    | with_reducible refine within_seqs_cons ?_ ?_
    | with_reducible refine within_seq ?_ ?_
    | with_reducible refine within_withS fun _ => ?_
    | with_reducible refine within_forEach fun _ _ => ?_
    | split
    | dsimp only)

theorem within_complete {ks : List Kind} (hs : [.reg, .flag, .strm, .core, .line, .stage, .order, .log, .send, .draw] ⊆ ks) (g sn : Nat) :
    Within ks (complete g sn) := by
  unfold complete
  repeat' (first
    | with_reducible exact within_skip ks
    | with_reducible exact within_seqs_nil ks
    | with_reducible refine within_endStage (List.Subset.trans (by decide) hs) _ _
    | with_reducible refine within_markCmd (List.Subset.trans (by decide) hs) _ _ _
    | with_reducible refine within_onStage (List.Subset.trans (by decide) hs) _ _ _ (fun _ => ?_)
    | with_reducible refine within_showPart (List.Subset.trans (by decide) hs) _ _
    | with_reducible refine within_tell (List.Subset.trans (by decide) hs) _ _ _
    | with_reducible refine within_updStage (List.Subset.trans (by decide) hs) _ _ _
    | with_reducible refine within_seqs_cons ?_ ?_
    | with_reducible refine within_seq ?_ ?_
    | with_reducible refine within_withS fun _ => ?_
    | with_reducible refine within_onlyIf fun _ => ?_
    | split
    | dsimp only)

theorem within_advance {ks : List Kind} (hs : [.reg, .mem, .flag, .strm, .core, .line, .dir, .hurt, .cons, .stage, .order, .pow, .log, .send, .draw] ⊆ ks) (g sn : Nat) :
    Within ks (advance g sn) := by
  unfold advance
  repeat' (first
    | with_reducible exact within_skip ks
    | with_reducible exact within_seqs_nil ks
    | with_reducible refine within_admitStage (List.Subset.trans (by decide) hs) _ _
    | with_reducible refine within_begin (List.Subset.trans (by decide) hs) _ _
    | with_reducible refine within_complete (List.Subset.trans (by decide) hs) _ _
    | with_reducible refine within_decide_ (List.Subset.trans (by decide) hs) _ _ _
    | with_reducible refine within_sendFirst (List.Subset.trans (by decide) hs) _ _
    | with_reducible refine within_sendSecond (List.Subset.trans (by decide) hs) _ _
    | with_reducible refine within_settleShard (List.Subset.trans (by decide) hs) _ _
    | with_reducible refine within_useEarly (List.Subset.trans (by decide) hs) _ _
    | with_reducible refine within_seqs_cons ?_ ?_
    | with_reducible refine within_seq ?_ ?_
    | with_reducible refine within_withS fun _ => ?_
    | split
    | dsimp only)

theorem within_takeStage {ks : List Kind} (hs : [.reg, .strm, .stage] ⊆ ks) (g sn sid : Nat) (c : Cmd) (layer : Nat) (route : Nat × Nat) (count : Nat) (shape : Option Status) (sends : List Nat) :
    Within ks (takeStage g sn sid c layer route count shape sends) := by
  unfold takeStage
  repeat' (first
    | with_reducible exact within_skip ks
    | with_reducible exact within_seqs_nil ks
    | with_reducible refine within_setF (List.Subset.trans (by decide) hs) _ _
    | with_reducible refine within_updCmd (List.Subset.trans (by decide) hs) _ _ _
    | with_reducible refine within_updStage (List.Subset.trans (by decide) hs) _ _ _
    | with_reducible refine within_seqs_cons ?_ ?_
    | with_reducible refine within_seq ?_ ?_
    | with_reducible refine within_withS fun _ => ?_
    | split
    | dsimp only)

theorem within_sendCounts {ks : List Kind} (hs : [.stage, .send] ⊆ ks) (g sn : Nat) :
    Within ks (sendCounts g sn) := by
  unfold sendCounts
  repeat' (first
    | with_reducible exact within_skip ks
    | with_reducible exact within_seqs_nil ks
    | with_reducible refine within_onStage (List.Subset.trans (by decide) hs) _ _ _ (fun _ => ?_)
    | with_reducible refine within_tell (List.Subset.trans (by decide) hs) _ _ _
    | with_reducible refine within_updStage (List.Subset.trans (by decide) hs) _ _ _
    | with_reducible refine within_seqs_cons ?_ ?_
    | with_reducible refine within_seq ?_ ?_
    | with_reducible refine within_withS fun _ => ?_
    | with_reducible refine within_onlyIf fun _ => ?_
    | with_reducible refine within_forEach fun _ _ => ?_
    | split
    | dsimp only)

theorem within_collectiveProg {ks : List Kind} (hs : [.reg, .mem, .flag, .strm, .core, .line, .dir, .hurt, .cons, .stage, .order, .pow, .log, .send, .draw] ⊆ ks) (sid : Nat) (c : Cmd) :
    Within ks (collectiveProg sid c) := by
  unfold collectiveProg
  repeat' (first
    | with_reducible exact within_skip ks
    | with_reducible exact within_seqs_nil ks
    | with_reducible refine within_advance (List.Subset.trans (by decide) hs) _ _
    | with_reducible refine within_endCmd (List.Subset.trans (by decide) hs) _ _ _ _
    | with_reducible refine within_sendCounts (List.Subset.trans (by decide) hs) _ _
    | with_reducible refine within_setF (List.Subset.trans (by decide) hs) _ _
    | with_reducible refine within_takeStage (List.Subset.trans (by decide) hs) _ _ _ _ _ _ _ _ _
    | with_reducible refine within_seqs_cons ?_ ?_
    | with_reducible refine within_seq ?_ ?_
    | with_reducible refine within_withS fun _ => ?_
    | split
    | dsimp only)

theorem within_showCurator {ks : List Kind} (hs : [.reg] ⊆ ks) (sid a op wave sn : Nat) :
    Within ks (showCurator sid a op wave sn) := by
  unfold showCurator
  repeat' (first
    | with_reducible exact within_skip ks
    | with_reducible exact within_seqs_nil ks
    | with_reducible refine within_setF (List.Subset.trans (by decide) hs) _ _
    | with_reducible refine within_seqs_cons ?_ ?_
    | with_reducible refine within_seq ?_ ?_
    | with_reducible refine within_withS fun _ => ?_
    | split
    | dsimp only)

theorem within_exchangeProg {ks : List Kind} (hs : [.reg, .mem, .flag, .strm, .core, .line, .dir, .hurt, .cons, .stage, .order, .pow, .log, .send, .draw] ⊆ ks) (sid : Nat) (c : Cmd) :
    Within ks (exchangeProg sid c) := by
  unfold exchangeProg
  repeat' (first
    | with_reducible exact within_skip ks
    | with_reducible exact within_seqs_nil ks
    | with_reducible refine within_advance (List.Subset.trans (by decide) hs) _ _
    | with_reducible refine within_endCmd (List.Subset.trans (by decide) hs) _ _ _ _
    | with_reducible refine within_sendCounts (List.Subset.trans (by decide) hs) _ _
    | with_reducible refine within_setF (List.Subset.trans (by decide) hs) _ _
    | with_reducible refine within_showCurator (List.Subset.trans (by decide) hs) _ _ _ _ _
    | with_reducible refine within_takeStage (List.Subset.trans (by decide) hs) _ _ _ _ _ _ _ _ _
    | with_reducible refine within_touch (List.Subset.trans (by decide) hs) _ _ _ _
    | with_reducible refine within_seqs_cons ?_ ?_
    | with_reducible refine within_seq ?_ ?_
    | with_reducible refine within_withS fun _ => ?_
    | with_reducible refine within_given fun _ => ?_
    | with_reducible refine within_emit_cons ?_ ?_
    | with_reducible exact within_emit_nil ks
    | with_reducible refine within_emit_append ?_ ?_
    | with_reducible refine within_emit_map fun _ => ?_
    | exact kind_mem hs (by dsimp only [Eff.kind]; decide)
    | split
    | dsimp only)

theorem within_freshen {ks : List Kind} (hs : [.stage] ⊆ ks) (g sn : Nat) :
    Within ks (freshen g sn) := by
  unfold freshen
  repeat' (first
    | with_reducible exact within_skip ks
    | with_reducible exact within_seqs_nil ks
    | with_reducible refine within_seqs_cons ?_ ?_
    | with_reducible refine within_seq ?_ ?_
    | with_reducible refine within_withS fun _ => ?_
    | with_reducible refine within_onlyIf fun _ => ?_
    | with_reducible refine within_emit_cons ?_ ?_
    | with_reducible exact within_emit_nil ks
    | with_reducible refine within_emit_append ?_ ?_
    | with_reducible refine within_emit_map fun _ => ?_
    | exact kind_mem hs (by dsimp only [Eff.kind]; decide)
    | split
    | dsimp only)

theorem within_admissionProg {ks : List Kind} (hs : [.reg, .mem, .flag, .strm, .core, .line, .dir, .hurt, .cons, .stage, .order, .pow, .log, .send, .draw] ⊆ ks) (g sn rank : Nat) (sig : StageSig) (ref : Option Status) (counts : List Nat) :
    Within ks (admissionProg g sn rank sig ref counts) := by
  unfold admissionProg
  repeat' (first
    | with_reducible exact within_skip ks
    | with_reducible exact within_seqs_nil ks
    | with_reducible refine within_advance (List.Subset.trans (by decide) hs) _ _
    | with_reducible refine within_freshen (List.Subset.trans (by decide) hs) _ _
    | with_reducible refine within_lateStage (List.Subset.trans (by decide) hs) _ _
    | with_reducible refine within_updStage (List.Subset.trans (by decide) hs) _ _ _
    | with_reducible refine within_seqs_cons ?_ ?_
    | with_reducible refine within_seq ?_ ?_
    | with_reducible refine within_withS fun _ => ?_
    | with_reducible refine within_onlyIf fun _ => ?_
    | split
    | dsimp only)

theorem within_goProg {ks : List Kind} (hs : [.reg, .mem, .flag, .strm, .core, .line, .dir, .hurt, .cons, .stage, .order, .pow, .log, .send, .draw] ⊆ ks) (g sn : Nat) (info : List Nat) :
    Within ks (goProg g sn info) := by
  unfold goProg
  repeat' (first
    | with_reducible exact within_skip ks
    | with_reducible exact within_seqs_nil ks
    | with_reducible refine within_advance (List.Subset.trans (by decide) hs) _ _
    | with_reducible refine within_goHere (List.Subset.trans (by decide) hs) _ _ _
    | with_reducible refine within_ifOverdue (List.Subset.trans (by decide) hs) _ _
    | with_reducible refine within_seqs_cons ?_ ?_
    | with_reducible refine within_seq ?_ ?_
    | with_reducible refine within_withS fun _ => ?_
    | with_reducible refine within_onlyIf fun _ => ?_
    | split
    | dsimp only)

theorem within_stageTimeoutProg {ks : List Kind} (hs : [.reg, .flag, .strm, .core, .line, .stage, .order, .log, .send, .draw] ⊆ ks) (g sn : Nat) :
    Within ks (stageTimeoutProg g sn) := by
  unfold stageTimeoutProg
  repeat' (first
    | with_reducible exact within_skip ks
    | with_reducible exact within_seqs_nil ks
    | with_reducible refine within_coordFail (List.Subset.trans (by decide) hs) _ _ _
    | with_reducible refine within_decide_ (List.Subset.trans (by decide) hs) _ _ _
    | with_reducible refine within_failStage (List.Subset.trans (by decide) hs) _ _
    | with_reducible refine within_onStage (List.Subset.trans (by decide) hs) _ _ _ (fun _ => ?_)
    | with_reducible refine within_tell (List.Subset.trans (by decide) hs) _ _ _
    | with_reducible refine within_updStage (List.Subset.trans (by decide) hs) _ _ _
    | with_reducible refine within_seqs_cons ?_ ?_
    | with_reducible refine within_seq ?_ ?_
    | with_reducible refine within_withS fun _ => ?_
    | with_reducible refine within_onlyIf fun _ => ?_
    | split
    | dsimp only)

theorem within_chunkProg {ks : List Kind} (hs : [.reg, .mem, .flag, .strm, .core, .line, .dir, .hurt, .cons, .stage, .order, .pow, .log, .send, .draw] ⊆ ks) (g sn q n : Nat) (payload : List Byte) (check : BitVec 64) :
    Within ks (chunkProg g sn q n payload check) := by
  unfold chunkProg
  repeat' (first
    | with_reducible exact within_skip ks
    | with_reducible exact within_seqs_nil ks
    | with_reducible refine within_advance (List.Subset.trans (by decide) hs) _ _
    | with_reducible refine within_incF (List.Subset.trans (by decide) hs) _ _
    | with_reducible refine within_lateStage (List.Subset.trans (by decide) hs) _ _
    | with_reducible refine within_logDetect (List.Subset.trans (by decide) hs) _ _ _ _ _ _ _
    | with_reducible refine within_reportFail (List.Subset.trans (by decide) hs) _ _
    | with_reducible refine within_tell (List.Subset.trans (by decide) hs) _ _ _
    | with_reducible refine within_updStage (List.Subset.trans (by decide) hs) _ _ _
    | with_reducible refine within_seqs_cons ?_ ?_
    | with_reducible refine within_seq ?_ ?_
    | with_reducible refine within_withS fun _ => ?_
    | with_reducible refine within_onlyIf fun _ => ?_
    | with_reducible refine within_given fun _ => ?_
    | split
    | dsimp only)

theorem within_askMissing {ks : List Kind} (hs : [.reg, .send, .draw] ⊆ ks)  :
    Within ks (askMissing ) := by
  unfold askMissing
  repeat' (first
    | with_reducible exact within_skip ks
    | with_reducible exact within_seqs_nil ks
    | with_reducible refine within_incF (List.Subset.trans (by decide) hs) _ _
    | with_reducible refine within_onStage (List.Subset.trans (by decide) hs) _ _ _ (fun _ => ?_)
    | with_reducible refine within_tell (List.Subset.trans (by decide) hs) _ _ _
    | with_reducible refine within_seqs_cons ?_ ?_
    | with_reducible refine within_seq ?_ ?_
    | with_reducible refine within_withS fun _ => ?_
    | with_reducible refine within_onlyIf fun _ => ?_
    | with_reducible refine within_forEach fun _ _ => ?_
    | split
    | dsimp only)

theorem within_portRow {ks : List Kind} (hs : [.reg, .send, .draw] ⊆ ks) (p : Nat) (k : Prog) (h_k : Within ks (k)) :
    Within ks (portRow p k) := by
  unfold portRow
  repeat' (first
    | exact h_k
    | with_reducible exact within_skip ks
    | with_reducible exact within_seqs_nil ks
    | with_reducible refine within_askMissing (List.Subset.trans (by decide) hs)
    | with_reducible refine within_seqs_cons ?_ ?_
    | with_reducible refine within_seq ?_ ?_
    | with_reducible refine within_withS fun _ => ?_
    | with_reducible refine within_onlyIf fun _ => ?_
    | split
    | dsimp only)

theorem within_retransmitProg {ks : List Kind} (hs : [.reg, .cons, .send, .draw] ⊆ ks) (g sn r n : Nat) :
    Within ks (retransmitProg g sn r n) := by
  unfold retransmitProg
  repeat' (first
    | with_reducible exact within_skip ks
    | with_reducible exact within_seqs_nil ks
    | with_reducible refine within_onStage (List.Subset.trans (by decide) hs) _ _ _ (fun _ => ?_)
    | with_reducible refine within_sendChunk (List.Subset.trans (by decide) hs) _ _ _ _
    | with_reducible refine within_seqs_cons ?_ ?_
    | with_reducible refine within_seq ?_ ?_
    | with_reducible refine within_withS fun _ => ?_
    | with_reducible refine within_given fun _ => ?_
    | split
    | dsimp only)

theorem within_chunkAckProg {ks : List Kind} (hs : [.reg, .mem, .flag, .strm, .core, .line, .dir, .hurt, .cons, .stage, .order, .pow, .log, .send, .draw] ⊆ ks) (g sn r n : Nat) :
    Within ks (chunkAckProg g sn r n) := by
  unfold chunkAckProg
  repeat' (first
    | with_reducible exact within_skip ks
    | with_reducible exact within_seqs_nil ks
    | with_reducible refine within_advance (List.Subset.trans (by decide) hs) _ _
    | with_reducible refine within_ifOverdue (List.Subset.trans (by decide) hs) _ _
    | with_reducible refine within_onStage (List.Subset.trans (by decide) hs) _ _ _ (fun _ => ?_)
    | with_reducible refine within_tell (List.Subset.trans (by decide) hs) _ _ _
    | with_reducible refine within_updStage (List.Subset.trans (by decide) hs) _ _ _
    | with_reducible refine within_seqs_cons ?_ ?_
    | with_reducible refine within_seq ?_ ?_
    | with_reducible refine within_withS fun _ => ?_
    | with_reducible refine within_forEach fun _ _ => ?_
    | with_reducible refine within_given fun _ => ?_
    | split
    | dsimp only)

theorem within_creditProg {ks : List Kind} (hs : [.reg, .mem, .flag, .strm, .core, .line, .dir, .hurt, .cons, .stage, .order, .pow, .log, .send, .draw] ⊆ ks) (g sn receiver source : Nat) :
    Within ks (creditProg g sn receiver source) := by
  unfold creditProg
  repeat' (first
    | with_reducible exact within_skip ks
    | with_reducible exact within_seqs_nil ks
    | with_reducible refine within_advance (List.Subset.trans (by decide) hs) _ _
    | with_reducible refine within_freshen (List.Subset.trans (by decide) hs) _ _
    | with_reducible refine within_ifOverdue (List.Subset.trans (by decide) hs) _ _
    | with_reducible refine within_onStage (List.Subset.trans (by decide) hs) _ _ _ (fun _ => ?_)
    | with_reducible refine within_tell (List.Subset.trans (by decide) hs) _ _ _
    | with_reducible refine within_updStage (List.Subset.trans (by decide) hs) _ _ _
    | with_reducible refine within_seqs_cons ?_ ?_
    | with_reducible refine within_seq ?_ ?_
    | with_reducible refine within_withS fun _ => ?_
    | with_reducible refine within_onlyIf fun _ => ?_
    | split
    | dsimp only)

theorem within_reportProg {ks : List Kind} (hs : [.reg, .mem, .flag, .strm, .core, .line, .dir, .hurt, .cons, .stage, .order, .pow, .log, .send, .draw] ⊆ ks) (g sn rank : Nat) (st : Status) :
    Within ks (reportProg g sn rank st) := by
  unfold reportProg
  repeat' (first
    | with_reducible exact within_skip ks
    | with_reducible exact within_seqs_nil ks
    | with_reducible refine within_advance (List.Subset.trans (by decide) hs) _ _
    | with_reducible refine within_coordFail (List.Subset.trans (by decide) hs) _ _ _
    | with_reducible refine within_updStage (List.Subset.trans (by decide) hs) _ _ _
    | with_reducible refine within_seqs_cons ?_ ?_
    | with_reducible refine within_seq ?_ ?_
    | with_reducible refine within_withS fun _ => ?_
    | with_reducible refine within_onlyIf fun _ => ?_
    | split
    | dsimp only)

theorem within_decisionProg {ks : List Kind} (hs : [.reg, .flag, .strm, .core, .line, .stage, .order, .log, .send, .draw] ⊆ ks) (g sn : Nat) (commit : Bool) (epoch : Nat) :
    Within ks (decisionProg g sn commit epoch) := by
  unfold decisionProg
  repeat' (first
    | with_reducible exact within_skip ks
    | with_reducible exact within_seqs_nil ks
    | with_reducible refine within_decisionHere (List.Subset.trans (by decide) hs) _ _ _ _
    | with_reducible refine within_ifOverdue (List.Subset.trans (by decide) hs) _ _
    | with_reducible refine within_onStage (List.Subset.trans (by decide) hs) _ _ _ (fun _ => ?_)
    | with_reducible refine within_seqs_cons ?_ ?_
    | with_reducible refine within_seq ?_ ?_
    | with_reducible refine within_withS fun _ => ?_
    | with_reducible refine within_onlyIf fun _ => ?_
    | split
    | dsimp only)

theorem within_commitTimeoutProg {ks : List Kind} (hs : [.reg, .flag, .strm, .core, .line, .stage, .order, .log, .send, .draw] ⊆ ks) (g sn : Nat) :
    Within ks (commitTimeoutProg g sn) := by
  unfold commitTimeoutProg
  repeat' (first
    | with_reducible exact within_skip ks
    | with_reducible exact within_seqs_nil ks
    | with_reducible refine within_decide_ (List.Subset.trans (by decide) hs) _ _ _
    | with_reducible refine within_endStage (List.Subset.trans (by decide) hs) _ _
    | with_reducible refine within_onStage (List.Subset.trans (by decide) hs) _ _ _ (fun _ => ?_)
    | with_reducible refine within_setF (List.Subset.trans (by decide) hs) _ _
    | with_reducible refine within_seqs_cons ?_ ?_
    | with_reducible refine within_seq ?_ ?_
    | with_reducible refine within_withS fun _ => ?_
    | split
    | dsimp only)

theorem within_stageDead {ks : List Kind} (hs : [.reg, .flag, .strm, .core, .line, .stage, .order, .log, .send, .draw] ⊆ ks) (pkg : Nat) :
    Within ks (stageDead pkg) := by
  unfold stageDead
  repeat' (first
    | with_reducible exact within_skip ks
    | with_reducible exact within_seqs_nil ks
    | with_reducible refine within_onStage (List.Subset.trans (by decide) hs) _ _ _ (fun _ => ?_)
    | with_reducible refine within_reportFail (List.Subset.trans (by decide) hs) _ _
    | with_reducible refine within_seqs_cons ?_ ?_
    | with_reducible refine within_seq ?_ ?_
    | with_reducible refine within_withS fun _ => ?_
    | with_reducible refine within_onlyIf fun _ => ?_
    | with_reducible refine within_forEach fun _ _ => ?_
    | split
    | dsimp only)

theorem within_tokenProg {ks : List Kind} (hs : [.reg, .mem, .flag, .strm, .core, .line, .dir, .hurt, .cons, .stage, .order, .pow, .log, .send, .draw] ⊆ ks) (g sn q token : Nat) (copies : List CopyEntry) (row : List Byte) :
    Within ks (tokenProg g sn q token copies row) := by
  unfold tokenProg
  repeat' (first
    | with_reducible exact within_skip ks
    | with_reducible exact within_seqs_nil ks
    | with_reducible refine within_advance (List.Subset.trans (by decide) hs) _ _
    | with_reducible refine within_lateStage (List.Subset.trans (by decide) hs) _ _
    | with_reducible refine within_updStage (List.Subset.trans (by decide) hs) _ _ _
    | with_reducible refine within_seqs_cons ?_ ?_
    | with_reducible refine within_seq ?_ ?_
    | with_reducible refine within_withS fun _ => ?_
    | with_reducible refine within_onlyIf fun _ => ?_
    | split
    | dsimp only)

end Sys2Proof.Machine
end

