-- ==== Sys2Proof/Laws/FpCurator.lean ====
section
/-! SUPPORT. Footprints of the operations of Machine/Curator.lean: the parts of the state each can change. -/

namespace Sys2Proof.Machine

theorem within_routeEnd {ks : List Kind} (hs : [.reg, .flag, .strm, .core, .line, .order, .log, .send, .draw] ⊆ ks) (sid : Nat) (c : Cmd) (l : Layer) (st : Status) :
    Within ks (routeEnd sid c l st) := by
  unfold routeEnd
  repeat' (first
    | with_reducible exact within_skip ks
    | with_reducible exact within_seqs_nil ks
    | with_reducible refine within_endCmd (List.Subset.trans (by decide) hs) _ _ _ _
    | with_reducible refine within_seqs_cons ?_ ?_
    | with_reducible refine within_seq ?_ ?_
    | with_reducible refine within_withS fun _ => ?_
    | with_reducible refine within_emit_cons ?_ ?_
    | with_reducible exact within_emit_nil ks
    | with_reducible refine within_emit_append ?_ ?_
    | with_reducible refine within_emit_map fun _ => ?_
    | exact kind_mem hs (by dsimp only [Eff.kind]; decide)
    | split
    | dsimp only)

theorem within_routeRows {ks : List Kind} (hs : [.reg, .mem, .core, .line, .hurt, .cons, .pow, .log, .send, .draw] ⊆ ks) (who : Requester) (l : Layer) (m : Nat) (k : List (Nat × List Slot) → Option Nat → Prog) (y0 : List Nat) (y1 : List Nat) (y2 : List (Nat × List Slot)) (h_k : ∀ x0 x1, Within ks (k x0 x1)) :
    Within ks (routeRows who l m k y0 y1 y2) := by
  induction y0 generalizing y1 y2 with
  | nil => exact h_k _ _
  | cons t r ih =>
    unfold routeRows
    refine within_withS fun s => ?_
    split
    · exact h_k _ _
    · exact within_seq (within_forEach fun _ _ => within_writeBytes (List.Subset.trans (by decide) hs) _ _ _) (ih _ _)

theorem within_routeMarks {ks : List Kind} (hs : [.reg, .strm, .log] ⊆ ks) (sid : Nat) (c : Cmd) (tokens : Nat) :
    Within ks (routeMarks sid c tokens) := by
  unfold routeMarks
  repeat' (first
    | with_reducible exact within_skip ks
    | with_reducible exact within_seqs_nil ks
    | with_reducible refine within_markCmd (List.Subset.trans (by decide) hs) _ _ _
    | with_reducible refine within_seqs_cons ?_ ?_
    | with_reducible refine within_seq ?_ ?_
    | with_reducible refine within_withS fun _ => ?_
    | with_reducible refine within_forEach fun _ _ => ?_
    | split
    | dsimp only)

theorem within_addChosen {ks : List Kind} (hs : [.reg, .mem, .core, .line, .hurt, .cons, .pow, .log, .send, .draw] ⊆ ks) (who : Requester) (l : Layer) (ts : List (Nat × List Slot)) :
    Within ks (addChosen who l ts) := by
  unfold addChosen
  repeat' (first
    | with_reducible exact within_skip ks
    | with_reducible exact within_seqs_nil ks
    | with_reducible refine within_atomicApply (List.Subset.trans (by decide) hs) _ _ _ _ _ _ _ (fun _ => ?_)
    | with_reducible refine within_seqs_cons ?_ ?_
    | with_reducible refine within_seq ?_ ?_
    | with_reducible refine within_withS fun _ => ?_
    | with_reducible refine within_onlyIf fun _ => ?_
    | with_reducible refine within_forEach fun _ _ => ?_
    | split
    | dsimp only)

theorem within_routeWork {ks : List Kind} (hs : [.reg, .mem, .flag, .strm, .core, .line, .hurt, .cons, .order, .pow, .log, .send, .draw] ⊆ ks) (sid : Nat) (c : Cmd) (l : Layer) (m : Nat) :
    Within ks (routeWork sid c l m) := by
  unfold routeWork
  repeat' (first
    | with_reducible exact within_skip ks
    | with_reducible exact within_seqs_nil ks
    | with_reducible refine within_addChosen (List.Subset.trans (by decide) hs) _ _ _
    | with_reducible refine within_incF (List.Subset.trans (by decide) hs) _ _
    | with_reducible refine within_logEv (List.Subset.trans (by decide) hs) _ _ _ _ _ _
    | with_reducible refine within_routeEnd (List.Subset.trans (by decide) hs) _ _ _ _
    | with_reducible refine within_routeMarks (List.Subset.trans (by decide) hs) _ _ _
    | with_reducible refine within_routeRows (List.Subset.trans (by decide) hs) _ _ _ _ _ _ _ (fun _ _ => ?_)
    | with_reducible refine within_writeBytes (List.Subset.trans (by decide) hs) _ _ _
    | with_reducible refine within_seqs_cons ?_ ?_
    | with_reducible refine within_seq ?_ ?_
    | with_reducible refine within_withS fun _ => ?_
    | split
    | dsimp only)

theorem within_routeProg {ks : List Kind} (hs : [.reg, .mem, .flag, .strm, .core, .line, .dir, .hurt, .cons, .order, .pow, .log, .send, .draw] ⊆ ks) (sid : Nat) (c : Cmd) :
    Within ks (routeProg sid c) := by
  unfold routeProg
  repeat' (first
    | with_reducible exact within_skip ks
    | with_reducible exact within_seqs_nil ks
    | with_reducible refine within_endCmd (List.Subset.trans (by decide) hs) _ _ _ _
    | with_reducible refine within_routeEnd (List.Subset.trans (by decide) hs) _ _ _ _
    | with_reducible refine within_routeWork (List.Subset.trans (by decide) hs) _ _ _ _
    | with_reducible refine within_showCurator (List.Subset.trans (by decide) hs) _ _ _ _ _
    | with_reducible refine within_startCmd (List.Subset.trans (by decide) hs) _ _
    | with_reducible refine within_touch (List.Subset.trans (by decide) hs) _ _ _ _
    | with_reducible refine within_touchAll (List.Subset.trans (by decide) hs) _ _
    | with_reducible refine within_whenReady (List.Subset.trans (by decide) hs) _ _ ?_
    | with_reducible refine within_seqs_cons ?_ ?_
    | with_reducible refine within_seq ?_ ?_
    | with_reducible refine within_withS fun _ => ?_
    | split
    | dsimp only)

theorem within_sumEnd {ks : List Kind} (hs : [.reg, .flag, .strm, .core, .line, .order, .log, .send, .draw] ⊆ ks) (sid : Nat) (c : Cmd) (l : Layer) :
    Within ks (sumEnd sid c l) := by
  unfold sumEnd
  repeat' (first
    | with_reducible exact within_skip ks
    | with_reducible exact within_seqs_nil ks
    | with_reducible refine within_endCmd (List.Subset.trans (by decide) hs) _ _ _ _
    | with_reducible refine within_seqs_cons ?_ ?_
    | with_reducible refine within_seq ?_ ?_
    | with_reducible refine within_withS fun _ => ?_
    | with_reducible refine within_given fun _ => ?_
    | with_reducible refine within_emit_cons ?_ ?_
    | with_reducible exact within_emit_nil ks
    | with_reducible refine within_emit_append ?_ ?_
    | with_reducible refine within_emit_map fun _ => ?_
    | exact kind_mem hs (by dsimp only [Eff.kind]; decide)
    | split
    | dsimp only)

theorem within_sumProg {ks : List Kind} (hs : [.reg, .mem, .flag, .strm, .core, .line, .dir, .hurt, .cons, .order, .pow, .log, .send, .draw] ⊆ ks) (sid : Nat) (c : Cmd) :
    Within ks (sumProg sid c) := by
  unfold sumProg
  repeat' (first
    | with_reducible exact within_skip ks
    | with_reducible exact within_seqs_nil ks
    | with_reducible refine within_endCmd (List.Subset.trans (by decide) hs) _ _ _ _
    | with_reducible refine within_showCurator (List.Subset.trans (by decide) hs) _ _ _ _ _
    | with_reducible refine within_startCmd (List.Subset.trans (by decide) hs) _ _
    | with_reducible refine within_sumEnd (List.Subset.trans (by decide) hs) _ _ _
    | with_reducible refine within_touch (List.Subset.trans (by decide) hs) _ _ _ _
    | with_reducible refine within_touchAll (List.Subset.trans (by decide) hs) _ _
    | with_reducible refine within_whenReady (List.Subset.trans (by decide) hs) _ _ ?_
    | with_reducible refine within_writeBytes (List.Subset.trans (by decide) hs) _ _ _
    | with_reducible refine within_seqs_cons ?_ ?_
    | with_reducible refine within_seq ?_ ?_
    | with_reducible refine within_withS fun _ => ?_
    | with_reducible refine within_forEach fun _ _ => ?_
    | split
    | dsimp only)

theorem within_curClearProg {ks : List Kind} (hs : [.reg] ⊆ ks)  :
    Within ks (curClearProg ) := by
  unfold curClearProg
  repeat' (first
    | with_reducible exact within_skip ks
    | with_reducible exact within_seqs_nil ks
    | with_reducible refine within_setF (List.Subset.trans (by decide) hs) _ _
    | with_reducible refine within_seqs_cons ?_ ?_
    | with_reducible refine within_seq ?_ ?_
    | with_reducible refine within_withS fun _ => ?_
    | split
    | dsimp only)

end Sys2Proof.Machine
end

