-- ==== Sys2Proof/Laws/FpFabric.lean ====
section
/-! SUPPORT. Footprints of the operations of Machine/Fabric.lean: the parts of the state each can change. -/

namespace Sys2Proof.Machine

theorem within_setTarget {ks : List Kind} (hs : [.fab] ⊆ ks) (d src : Nat) (t : Target) :
    Within ks (setTarget d src t) := by
  unfold setTarget
  repeat' (first
    | with_reducible exact within_skip ks
    | with_reducible exact within_seqs_nil ks
    | with_reducible refine within_updFab (List.Subset.trans (by decide) hs) _
    | with_reducible refine within_seqs_cons ?_ ?_
    | with_reducible refine within_seq ?_ ?_
    | with_reducible refine within_withS fun _ => ?_
    | split
    | dsimp only)

theorem within_setOrder {ks : List Kind} (hs : [.fab] ⊆ ks) (src : Nat) (o : Order) :
    Within ks (setOrder src o) := by
  unfold setOrder
  repeat' (first
    | with_reducible exact within_skip ks
    | with_reducible exact within_seqs_nil ks
    | with_reducible refine within_updFab (List.Subset.trans (by decide) hs) _
    | with_reducible refine within_seqs_cons ?_ ?_
    | with_reducible refine within_seq ?_ ?_
    | with_reducible refine within_withS fun _ => ?_
    | split
    | dsimp only)

theorem within_logRun {ks : List Kind} (hs : [.reg, .log] ⊆ ks) (d src : Nat) (run : Option (Nat × Nat)) :
    Within ks (logRun d src run) := by
  unfold logRun
  repeat' (first
    | with_reducible exact within_skip ks
    | with_reducible exact within_seqs_nil ks
    | with_reducible refine within_logEv (List.Subset.trans (by decide) hs) _ _ _ _ _ _
    | with_reducible refine within_seqs_cons ?_ ?_
    | with_reducible refine within_seq ?_ ?_
    | with_reducible refine within_withS fun _ => ?_
    | with_reducible refine within_given fun _ => ?_
    | split
    | dsimp only)

theorem within_evict {ks : List Kind} (hs : [.reg, .log] ⊆ ks) (d src : Nat) (e : Nat × Status × Nat) (run : Option (Nat × Nat)) (k : Option (Nat × Nat) → Prog) (h_k : ∀ x0, Within ks (k x0)) :
    Within ks (evict d src e run k) := by
  unfold evict
  repeat' (first
    | exact h_k _
    | with_reducible exact within_skip ks
    | with_reducible exact within_seqs_nil ks
    | with_reducible refine within_logRun (List.Subset.trans (by decide) hs) _ _ _
    | with_reducible refine within_seqs_cons ?_ ?_
    | with_reducible refine within_seq ?_ ?_
    | with_reducible refine within_withS fun _ => ?_
    | split
    | dsimp only)

theorem within_insertApplied {ks : List Kind} (hs : [.reg, .fab, .log] ⊆ ks) (d src : Nat) (e : Nat × Status × Nat) :
    Within ks (insertApplied d src e) := by
  unfold insertApplied
  repeat' (first
    | with_reducible exact within_skip ks
    | with_reducible exact within_seqs_nil ks
    | with_reducible refine within_evict (List.Subset.trans (by decide) hs) _ _ _ _ _ (fun _ => ?_)
    | with_reducible refine within_setTarget (List.Subset.trans (by decide) hs) _ _ _
    | with_reducible refine within_seqs_cons ?_ ?_
    | with_reducible refine within_seq ?_ ?_
    | with_reducible refine within_withS fun _ => ?_
    | split
    | dsimp only)

theorem within_respond {ks : List Kind} (hs : [.reg, .cons, .fab, .port, .pow, .log, .send, .draw] ⊆ ks) (p : Packet) (type : PktType) (st : Status) (v : Nat) (data : List Byte) :
    Within ks (respond p type st v data) := by
  unfold respond
  repeat' (first
    | with_reducible exact within_skip ks
    | with_reducible exact within_seqs_nil ks
    | with_reducible refine within_sendPacket (List.Subset.trans (by decide) hs) _
    | with_reducible refine within_seqs_cons ?_ ?_
    | with_reducible refine within_seq ?_ ?_
    | with_reducible refine within_withS fun _ => ?_
    | split
    | dsimp only)

theorem within_respondResult {ks : List Kind} (hs : [.reg, .cons, .fab, .port, .pow, .log, .send, .draw] ⊆ ks) (p : Packet) (st : Status) (old : Nat) :
    Within ks (respondResult p st old) := by
  unfold respondResult
  repeat' (first
    | with_reducible exact within_skip ks
    | with_reducible exact within_seqs_nil ks
    | with_reducible refine within_respond (List.Subset.trans (by decide) hs) _ _ _ _ _
    | with_reducible refine within_seqs_cons ?_ ?_
    | with_reducible refine within_seq ?_ ?_
    | with_reducible refine within_withS fun _ => ?_
    | split
    | dsimp only)

theorem within_applyRequest {ks : List Kind} (hs : [.reg, .mem, .flag, .strm, .core, .line, .hurt, .cons, .pow, .log, .send, .draw] ⊆ ks) (p : Packet) (k : Status → Nat → Prog) (h_k : ∀ x0 x1, Within ks (k x0 x1)) :
    Within ks (applyRequest p k) := by
  unfold applyRequest
  repeat' (first
    | exact h_k _ _
    | with_reducible exact within_skip ks
    | with_reducible exact within_seqs_nil ks
    | with_reducible refine within_atomicApply (List.Subset.trans (by decide) hs) _ _ _ _ _ _ _ (fun _ => ?_)
    | with_reducible refine within_flagOp (List.Subset.trans (by decide) hs) _ _ _ _ _
    | with_reducible refine within_writeBytes (List.Subset.trans (by decide) hs) _ _ _
    | with_reducible refine within_seqs_cons ?_ ?_
    | with_reducible refine within_seq ?_ ?_
    | with_reducible refine within_withS fun _ => ?_
    | split
    | dsimp only)

theorem within_serveRequest {ks : List Kind} (hs : [.reg, .mem, .flag, .strm, .core, .line, .dir, .vault, .hurt, .cons, .fab, .port, .pow, .log, .send, .draw] ⊆ ks) (p : Packet) (done : Prog) (h_done : Within ks (done)) :
    Within ks (serveRequest p done) := by
  unfold serveRequest
  repeat' (first
    | exact h_done
    | with_reducible exact within_skip ks
    | with_reducible exact within_seqs_nil ks
    | with_reducible refine within_applyRequest (List.Subset.trans (by decide) hs) _ _ (fun _ _ => ?_)
    | with_reducible refine within_incF (List.Subset.trans (by decide) hs) _ _
    | with_reducible refine within_insertApplied (List.Subset.trans (by decide) hs) _ _ _
    | with_reducible refine within_orHeld (List.Subset.trans (by decide) hs) _ _ _ _ ?_
    | with_reducible refine within_respond (List.Subset.trans (by decide) hs) _ _ _ _ _
    | with_reducible refine within_respondResult (List.Subset.trans (by decide) hs) _ _ _
    | with_reducible refine within_seqs_cons ?_ ?_
    | with_reducible refine within_seq ?_ ?_
    | with_reducible refine within_withS fun _ => ?_
    | split
    | dsimp only)

theorem within_showHeld {ks : List Kind} (hs : [.reg] ⊆ ks)  :
    Within ks (showHeld ) := by
  unfold showHeld
  repeat' (first
    | with_reducible exact within_skip ks
    | with_reducible exact within_seqs_nil ks
    | with_reducible refine within_setF (List.Subset.trans (by decide) hs) _ _
    | with_reducible refine within_seqs_cons ?_ ?_
    | with_reducible refine within_seq ?_ ?_
    | with_reducible refine within_withS fun _ => ?_
    | split
    | dsimp only)

theorem within_dropHeld {ks : List Kind} (hs : [.reg, .port, .send, .draw] ⊆ ks) (ps : List Packet) :
    Within ks (dropHeld ps) := by
  unfold dropHeld
  repeat' (first
    | with_reducible exact within_skip ks
    | with_reducible exact within_seqs_nil ks
    | with_reducible refine within_freeCells (List.Subset.trans (by decide) hs) _ _
    | with_reducible refine within_showHeld (List.Subset.trans (by decide) hs)
    | with_reducible refine within_seqs_cons ?_ ?_
    | with_reducible refine within_seq ?_ ?_
    | with_reducible refine within_withS fun _ => ?_
    | with_reducible refine within_forEach fun _ _ => ?_
    | split
    | dsimp only)

theorem within_markServed {ks : List Kind} (hs : [.fab] ⊆ ks) (p : Packet) :
    Within ks (markServed p) := by
  unfold markServed
  repeat' (first
    | with_reducible exact within_skip ks
    | with_reducible exact within_seqs_nil ks
    | with_reducible refine within_setOrder (List.Subset.trans (by decide) hs) _ _
    | with_reducible refine within_seqs_cons ?_ ?_
    | with_reducible refine within_seq ?_ ?_
    | with_reducible refine within_withS fun _ => ?_
    | split
    | dsimp only)

theorem within_releaseHeldOrders {ks : List Kind} (hs : [.reg, .mem, .flag, .strm, .core, .line, .dir, .vault, .hurt, .cons, .fab, .port, .pow, .log, .send, .draw] ⊆ ks) (y0 : Nat) (y1 : Nat) :
    Within ks (releaseHeldOrders y0 y1) := by
  induction y0 with
  | zero => exact within_skip ks
  | succ n ih =>
    unfold releaseHeldOrders
    refine within_withS fun s => ?_
    dsimp only
    generalize List.find? _ (State.orderOf s y1).held = x
    cases x with
    | none => exact within_skip ks
    | some p => exact within_seqs_cons (within_setOrder (List.Subset.trans (by decide) hs) _ _) (within_seqs_cons
        (within_dropHeld (List.Subset.trans (by decide) hs) _) (within_seqs_cons (within_serveRequest (List.Subset.trans (by decide) hs) _ _
        (within_markServed (List.Subset.trans (by decide) hs) _)) (within_seqs_cons ih (within_seqs_nil ks))))

theorem within_serveOrdered {ks : List Kind} (hs : [.reg, .mem, .flag, .strm, .core, .line, .dir, .vault, .hurt, .cons, .fab, .port, .pow, .log, .send, .draw] ⊆ ks) (p : Packet) :
    Within ks (serveOrdered p) := by
  unfold serveOrdered
  repeat' (first
    | with_reducible exact within_skip ks
    | with_reducible exact within_seqs_nil ks
    | with_reducible refine within_markServed (List.Subset.trans (by decide) hs) _
    | with_reducible refine within_releaseHeldOrders (List.Subset.trans (by decide) hs) _ _
    | with_reducible refine within_serveRequest (List.Subset.trans (by decide) hs) _ _ ?_
    | with_reducible refine within_seqs_cons ?_ ?_
    | with_reducible refine within_seq ?_ ?_
    | with_reducible refine within_withS fun _ => ?_
    | split
    | dsimp only)

theorem within_effectfulArrival {ks : List Kind} (hs : [.reg, .mem, .flag, .strm, .core, .line, .dir, .vault, .hurt, .cons, .fab, .port, .pow, .log, .send, .draw] ⊆ ks) (p : Packet) :
    Within ks (effectfulArrival p) := by
  unfold effectfulArrival
  repeat' (first
    | with_reducible exact within_skip ks
    | with_reducible exact within_seqs_nil ks
    | with_reducible refine within_incF (List.Subset.trans (by decide) hs) _ _
    | with_reducible refine within_lateProg (List.Subset.trans (by decide) hs) _
    | with_reducible refine within_respond (List.Subset.trans (by decide) hs) _ _ _ _ _
    | with_reducible refine within_serveOrdered (List.Subset.trans (by decide) hs) _
    | with_reducible refine within_setOrder (List.Subset.trans (by decide) hs) _ _
    | with_reducible refine within_showHeld (List.Subset.trans (by decide) hs)
    | with_reducible refine within_takeCells (List.Subset.trans (by decide) hs) _ _
    | with_reducible refine within_seqs_cons ?_ ?_
    | with_reducible refine within_seq ?_ ?_
    | with_reducible refine within_withS fun _ => ?_
    | split
    | dsimp only)

theorem within_requestProg {ks : List Kind} (hs : [.reg, .mem, .flag, .strm, .core, .line, .dir, .vault, .hurt, .cons, .fab, .port, .pow, .log, .send, .draw] ⊆ ks) (type : PktType) (p : Packet) :
    Within ks (requestProg type p) := by
  unfold requestProg
  repeat' (first
    | with_reducible exact within_skip ks
    | with_reducible exact within_seqs_nil ks
    | with_reducible refine within_effectfulArrival (List.Subset.trans (by decide) hs) _
    | with_reducible refine within_leaveVat (List.Subset.trans (by decide) hs) _
    | with_reducible refine within_seqs_cons ?_ ?_
    | with_reducible refine within_seq ?_ ?_
    | with_reducible refine within_withS fun _ => ?_
    | with_reducible refine within_onlyIf fun _ => ?_
    | split
    | dsimp only)

theorem within_serveRead {ks : List Kind} (hs : [.reg, .core, .line, .dir, .vault, .cons, .fab, .port, .pow, .log, .send, .draw] ⊆ ks) (p : Packet) :
    Within ks (serveRead p) := by
  unfold serveRead
  repeat' (first
    | with_reducible exact within_skip ks
    | with_reducible exact within_seqs_nil ks
    | with_reducible refine within_orHeld (List.Subset.trans (by decide) hs) _ _ _ _ ?_
    | with_reducible refine within_respond (List.Subset.trans (by decide) hs) _ _ _ _ _
    | with_reducible refine within_touch (List.Subset.trans (by decide) hs) _ _ _ _
    | with_reducible refine within_seqs_cons ?_ ?_
    | with_reducible refine within_seq ?_ ?_
    | with_reducible refine within_withS fun _ => ?_
    | split
    | dsimp only)

theorem within_readProg {ks : List Kind} (hs : [.reg, .core, .line, .dir, .vault, .cons, .fab, .port, .pow, .log, .send, .draw] ⊆ ks) (p : Packet) :
    Within ks (readProg p) := by
  unfold readProg
  repeat' (first
    | with_reducible exact within_skip ks
    | with_reducible exact within_seqs_nil ks
    | with_reducible refine within_leaveVat (List.Subset.trans (by decide) hs) _
    | with_reducible refine within_serveRead (List.Subset.trans (by decide) hs) _
    | with_reducible refine within_seqs_cons ?_ ?_
    | with_reducible refine within_seq ?_ ?_
    | with_reducible refine within_withS fun _ => ?_
    | with_reducible refine within_onlyIf fun _ => ?_
    | split
    | dsimp only)

theorem within_orderTimeoutProg {ks : List Kind} (hs : [.reg, .cons, .fab, .port, .pow, .log, .send, .draw] ⊆ ks) (src acc : Nat) :
    Within ks (orderTimeoutProg src acc) := by
  unfold orderTimeoutProg
  repeat' (first
    | with_reducible exact within_skip ks
    | with_reducible exact within_seqs_nil ks
    | with_reducible refine within_dropHeld (List.Subset.trans (by decide) hs) _
    | with_reducible refine within_incF (List.Subset.trans (by decide) hs) _ _
    | with_reducible refine within_logEv (List.Subset.trans (by decide) hs) _ _ _ _ _ _
    | with_reducible refine within_respond (List.Subset.trans (by decide) hs) _ _ _ _ _
    | with_reducible refine within_setOrder (List.Subset.trans (by decide) hs) _ _
    | with_reducible refine within_seqs_cons ?_ ?_
    | with_reducible refine within_seq ?_ ?_
    | with_reducible refine within_withS fun _ => ?_
    | with_reducible refine within_forEach fun _ _ => ?_
    | with_reducible refine within_given fun _ => ?_
    | split
    | dsimp only)

theorem within_resyncAtTargetProg {ks : List Kind} (hs : [.reg, .fab, .port, .send, .draw] ⊆ ks) (src ordSeq : Nat) :
    Within ks (resyncAtTargetProg src ordSeq) := by
  unfold resyncAtTargetProg
  repeat' (first
    | with_reducible exact within_skip ks
    | with_reducible exact within_seqs_nil ks
    | with_reducible refine within_dropHeld (List.Subset.trans (by decide) hs) _
    | with_reducible refine within_incF (List.Subset.trans (by decide) hs) _ _
    | with_reducible refine within_setOrder (List.Subset.trans (by decide) hs) _ _
    | with_reducible refine within_seqs_cons ?_ ?_
    | with_reducible refine within_seq ?_ ?_
    | with_reducible refine within_withS fun _ => ?_
    | with_reducible refine within_onlyIf fun _ => ?_
    | with_reducible refine within_emit_cons ?_ ?_
    | with_reducible exact within_emit_nil ks
    | with_reducible refine within_emit_append ?_ ?_
    | with_reducible refine within_emit_map fun _ => ?_
    | exact kind_mem hs (by dsimp only [Eff.kind]; decide)
    | split
    | dsimp only)

theorem within_forgetSource {ks : List Kind} (hs : [.reg, .fab, .port, .log, .send, .draw] ⊆ ks) (src : Nat) :
    Within ks (forgetSource src) := by
  refine within_seqs_cons (within_forEach fun d _ => within_withS fun s => ?_) (within_seqs_cons
    (within_logEv (List.Subset.trans (by decide) hs) _ _ _ _ _ _) (within_seqs_cons (within_withS fun s => ?_) (within_seqs_nil ks)))
  · refine within_seq ?_ (within_setTarget (List.Subset.trans (by decide) hs) _ _ _)
    have go : ∀ (l : List (Nat × Status × Nat)) (run : Option (Nat × Nat)), Within ks
        (l.foldr (fun e k run => evict d src e run k) (fun run => logRun d src run) run) := by
      intro l
      induction l with
      | nil => exact fun run => within_logRun (List.Subset.trans (by decide) hs) _ _ _
      | cons e l ih => exact fun run => within_evict (List.Subset.trans (by decide) hs) _ _ _ _ _ ih
    exact go _ _
  · exact within_seqs_cons (within_setOrder (List.Subset.trans (by decide) hs) _ _) (within_seqs_cons
      (within_incF (List.Subset.trans (by decide) hs) _ _) (within_seqs_cons (within_dropHeld (List.Subset.trans (by decide) hs) _)
      (within_seqs_nil ks)))

theorem within_showBroken {ks : List Kind} (hs : [.reg] ⊆ ks)  :
    Within ks (showBroken ) := by
  unfold showBroken
  repeat' (first
    | with_reducible exact within_skip ks
    | with_reducible exact within_seqs_nil ks
    | with_reducible refine within_setF (List.Subset.trans (by decide) hs) _ _
    | with_reducible refine within_seqs_cons ?_ ?_
    | with_reducible refine within_seq ?_ ?_
    | with_reducible refine within_withS fun _ => ?_
    | split
    | dsimp only)

theorem within_markBroken {ks : List Kind} (hs : [.reg, .fab] ⊆ ks) (dst : Nat) (st : Status) :
    Within ks (markBroken dst st) := by
  unfold markBroken
  repeat' (first
    | with_reducible exact within_skip ks
    | with_reducible exact within_seqs_nil ks
    | with_reducible refine within_showBroken (List.Subset.trans (by decide) hs)
    | with_reducible refine within_updFab (List.Subset.trans (by decide) hs) _
    | with_reducible refine within_seqs_cons ?_ ?_
    | with_reducible refine within_seq ?_ ?_
    | with_reducible refine within_withS fun _ => ?_
    | split
    | dsimp only)

theorem within_endResync {ks : List Kind} (hs : [.reg, .fab] ⊆ ks) (st : Status) :
    Within ks (endResync st) := by
  unfold endResync
  repeat' (first
    | with_reducible exact within_skip ks
    | with_reducible exact within_seqs_nil ks
    | with_reducible refine within_setF (List.Subset.trans (by decide) hs) _ _
    | with_reducible refine within_updFab (List.Subset.trans (by decide) hs) _
    | with_reducible refine within_seqs_cons ?_ ?_
    | with_reducible refine within_seq ?_ ?_
    | with_reducible refine within_withS fun _ => ?_
    | split
    | dsimp only)

theorem within_resyncGoProg {ks : List Kind} (hs : [.reg, .fab, .send] ⊆ ks) (dest : Nat) :
    Within ks (resyncGoProg dest) := by
  unfold resyncGoProg
  repeat' (first
    | with_reducible exact within_skip ks
    | with_reducible exact within_seqs_nil ks
    | with_reducible refine within_endResync (List.Subset.trans (by decide) hs) _
    | with_reducible refine within_setF (List.Subset.trans (by decide) hs) _ _
    | with_reducible refine within_updFab (List.Subset.trans (by decide) hs) _
    | with_reducible refine within_seqs_cons ?_ ?_
    | with_reducible refine within_seq ?_ ?_
    | with_reducible refine within_withS fun _ => ?_
    | with_reducible refine within_emit_cons ?_ ?_
    | with_reducible exact within_emit_nil ks
    | with_reducible refine within_emit_append ?_ ?_
    | with_reducible refine within_emit_map fun _ => ?_
    | exact kind_mem hs (by dsimp only [Eff.kind]; decide)
    | split
    | dsimp only)

theorem within_resyncAckProg {ks : List Kind} (hs : [.reg, .fab] ⊆ ks) (dest : Nat) :
    Within ks (resyncAckProg dest) := by
  unfold resyncAckProg
  repeat' (first
    | with_reducible exact within_skip ks
    | with_reducible exact within_seqs_nil ks
    | with_reducible refine within_endResync (List.Subset.trans (by decide) hs) _
    | with_reducible refine within_showBroken (List.Subset.trans (by decide) hs)
    | with_reducible refine within_updFab (List.Subset.trans (by decide) hs) _
    | with_reducible refine within_seqs_cons ?_ ?_
    | with_reducible refine within_seq ?_ ?_
    | with_reducible refine within_withS fun _ => ?_
    | with_reducible refine within_onlyIf fun _ => ?_
    | split
    | dsimp only)

theorem within_endFences {ks : List Kind} (hs : [.reg, .flag, .strm, .core, .line, .fab, .log, .send, .draw] ⊆ ks)  :
    Within ks (endFences ) := by
  unfold endFences
  repeat' (first
    | with_reducible exact within_skip ks
    | with_reducible exact within_seqs_nil ks
    | with_reducible refine within_endCmd (List.Subset.trans (by decide) hs) _ _ _ _
    | with_reducible refine within_updFab (List.Subset.trans (by decide) hs) _
    | with_reducible refine within_seqs_cons ?_ ?_
    | with_reducible refine within_seq ?_ ?_
    | with_reducible refine within_withS fun _ => ?_
    | with_reducible refine within_forEach fun _ _ => ?_
    | with_reducible refine within_given fun _ => ?_
    | split
    | dsimp only)

theorem within_tellFences {ks : List Kind} (hs : [.reg, .flag, .strm, .core, .line, .fab, .log, .send, .draw] ⊆ ks) (acc : Nat) (st : Status) :
    Within ks (tellFences acc st) := by
  unfold tellFences
  repeat' (first
    | with_reducible exact within_skip ks
    | with_reducible exact within_seqs_nil ks
    | with_reducible refine within_endFences (List.Subset.trans (by decide) hs)
    | with_reducible refine within_updFab (List.Subset.trans (by decide) hs) _
    | with_reducible refine within_seqs_cons ?_ ?_
    | with_reducible refine within_seq ?_ ?_
    | with_reducible refine within_withS fun _ => ?_
    | split
    | dsimp only)

theorem within_endReissue {ks : List Kind} (hs : [.reg, .flag, .strm, .core, .line, .fab, .port, .log, .send, .draw] ⊆ ks) (dst : Nat) (st : Status) (old : Nat) (gave : Bool) :
    Within ks (endReissue dst st old gave) := by
  unfold endReissue
  repeat' (first
    | with_reducible exact within_skip ks
    | with_reducible exact within_seqs_nil ks
    | with_reducible refine within_freeCells (List.Subset.trans (by decide) hs) _ _
    | with_reducible refine within_incF (List.Subset.trans (by decide) hs) _ _
    | with_reducible refine within_markBroken (List.Subset.trans (by decide) hs) _ _
    | with_reducible refine within_setF (List.Subset.trans (by decide) hs) _ _
    | with_reducible refine within_tellFences (List.Subset.trans (by decide) hs) _ _
    | with_reducible refine within_updFab (List.Subset.trans (by decide) hs) _
    | with_reducible refine within_seqs_cons ?_ ?_
    | with_reducible refine within_seq ?_ ?_
    | with_reducible refine within_withS fun _ => ?_
    | with_reducible refine within_onlyIf fun _ => ?_
    | with_reducible refine within_given fun _ => ?_
    | split
    | dsimp only)

theorem within_sendReissue {ks : List Kind} (hs : [.reg, .cons, .fab, .port, .pow, .log, .send, .draw] ⊆ ks) (p : Packet) :
    Within ks (sendReissue p) := by
  unfold sendReissue
  repeat' (first
    | with_reducible exact within_skip ks
    | with_reducible exact within_seqs_nil ks
    | with_reducible refine within_sendPacket (List.Subset.trans (by decide) hs) _
    | with_reducible refine within_setF (List.Subset.trans (by decide) hs) _ _
    | with_reducible refine within_takeCells (List.Subset.trans (by decide) hs) _ _
    | with_reducible refine within_updFab (List.Subset.trans (by decide) hs) _
    | with_reducible refine within_seqs_cons ?_ ?_
    | with_reducible refine within_seq ?_ ?_
    | with_reducible refine within_withS fun _ => ?_
    | split
    | dsimp only)

theorem within_reissueProg {ks : List Kind} (hs : [.reg, .mem, .flag, .strm, .core, .line, .dir, .vault, .hurt, .cons, .fab, .port, .pow, .log, .send, .draw] ⊆ ks)  :
    Within ks (reissueProg ) := by
  unfold reissueProg
  repeat' (first
    | with_reducible exact within_skip ks
    | with_reducible exact within_seqs_nil ks
    | with_reducible refine within_atomicApply (List.Subset.trans (by decide) hs) _ _ _ _ _ _ _ (fun _ => ?_)
    | with_reducible refine within_endReissue (List.Subset.trans (by decide) hs) _ _ _ _
    | with_reducible refine within_orHeld (List.Subset.trans (by decide) hs) _ _ _ _ ?_
    | with_reducible refine within_sendReissue (List.Subset.trans (by decide) hs) _
    | with_reducible refine within_setF (List.Subset.trans (by decide) hs) _ _
    | with_reducible refine within_updFab (List.Subset.trans (by decide) hs) _
    | with_reducible refine within_seqs_cons ?_ ?_
    | with_reducible refine within_seq ?_ ?_
    | with_reducible refine within_withS fun _ => ?_
    | split
    | dsimp only)

theorem within_showMaster {ks : List Kind} (hs : [.reg] ⊆ ks)  :
    Within ks (showMaster ) := by
  unfold showMaster
  repeat' (first
    | with_reducible exact within_skip ks
    | with_reducible exact within_seqs_nil ks
    | with_reducible refine within_setF (List.Subset.trans (by decide) hs) _ _
    | with_reducible refine within_seqs_cons ?_ ?_
    | with_reducible refine within_seq ?_ ?_
    | with_reducible refine within_withS fun _ => ?_
    | split
    | dsimp only)

theorem within_sendCtl {ks : List Kind} (hs : [.reg, .cons, .fab, .port, .pow, .log, .send, .draw] ⊆ ks) (dst kind value : Nat) :
    Within ks (sendCtl dst kind value) := by
  unfold sendCtl
  repeat' (first
    | with_reducible exact within_skip ks
    | with_reducible exact within_seqs_nil ks
    | with_reducible refine within_sendPacket (List.Subset.trans (by decide) hs) _
    | with_reducible refine within_seqs_cons ?_ ?_
    | with_reducible refine within_seq ?_ ?_
    | with_reducible refine within_withS fun _ => ?_
    | split
    | dsimp only)

theorem within_reportPorts {ks : List Kind} (hs : [.reg, .cons, .fab, .port, .pow, .log, .send, .draw] ⊆ ks)  :
    Within ks (reportPorts ) := by
  unfold reportPorts
  repeat' (first
    | with_reducible exact within_skip ks
    | with_reducible exact within_seqs_nil ks
    | with_reducible refine within_sendCtl (List.Subset.trans (by decide) hs) _ _ _
    | with_reducible refine within_updFab (List.Subset.trans (by decide) hs) _
    | with_reducible refine within_seqs_cons ?_ ?_
    | with_reducible refine within_seq ?_ ?_
    | with_reducible refine within_withS fun _ => ?_
    | split
    | dsimp only)

theorem within_fabricEnProg {ks : List Kind} (hs : [.reg, .cons, .fab, .port, .pow, .log, .send, .draw] ⊆ ks) (v : Nat) :
    Within ks (fabricEnProg v) := by
  unfold fabricEnProg
  repeat' (first
    | with_reducible exact within_skip ks
    | with_reducible exact within_seqs_nil ks
    | with_reducible refine within_reportPorts (List.Subset.trans (by decide) hs)
    | with_reducible refine within_setF (List.Subset.trans (by decide) hs) _ _
    | with_reducible refine within_setReach (List.Subset.trans (by decide) hs) _ _
    | with_reducible refine within_seqs_cons ?_ ?_
    | with_reducible refine within_seq ?_ ?_
    | with_reducible refine within_withS fun _ => ?_
    | with_reducible refine within_onlyIf fun _ => ?_
    | split
    | dsimp only)

theorem within_portTo {ks : List Kind} (hs : [.reg, .cons, .fab, .port, .pow, .log, .send, .draw] ⊆ ks) (p new : Nat) :
    Within ks (portTo p new) := by
  unfold portTo
  repeat' (first
    | with_reducible exact within_skip ks
    | with_reducible exact within_seqs_nil ks
    | with_reducible refine within_logEv (List.Subset.trans (by decide) hs) _ _ _ _ _ _
    | with_reducible refine within_reportPorts (List.Subset.trans (by decide) hs)
    | with_reducible refine within_setF (List.Subset.trans (by decide) hs) _ _
    | with_reducible refine within_seqs_cons ?_ ?_
    | with_reducible refine within_seq ?_ ?_
    | with_reducible refine within_withS fun _ => ?_
    | with_reducible refine within_onlyIf fun _ => ?_
    | split
    | dsimp only)

theorem within_showCredit {ks : List Kind} (hs : [.reg] ⊆ ks) (p : Nat) :
    Within ks (showCredit p) := by
  unfold showCredit
  repeat' (first
    | with_reducible exact within_skip ks
    | with_reducible exact within_seqs_nil ks
    | with_reducible refine within_setF (List.Subset.trans (by decide) hs) _ _
    | with_reducible refine within_seqs_cons ?_ ?_
    | with_reducible refine within_seq ?_ ?_
    | with_reducible refine within_withS fun _ => ?_
    | with_reducible refine within_forEach fun _ _ => ?_
    | split
    | dsimp only)

theorem within_stopPort {ks : List Kind} (hs : [.reg, .cons, .fab, .port, .pow, .log, .send, .draw] ⊆ ks) (p new : Nat) :
    Within ks (stopPort p new) := by
  unfold stopPort
  repeat' (first
    | with_reducible exact within_skip ks
    | with_reducible exact within_seqs_nil ks
    | with_reducible refine within_portTo (List.Subset.trans (by decide) hs) _ _
    | with_reducible refine within_setPort (List.Subset.trans (by decide) hs) _ _
    | with_reducible refine within_showCredit (List.Subset.trans (by decide) hs) _
    | with_reducible refine within_updFab (List.Subset.trans (by decide) hs) _
    | with_reducible refine within_seqs_cons ?_ ?_
    | with_reducible refine within_seq ?_ ?_
    | with_reducible refine within_withS fun _ => ?_
    | split
    | dsimp only)

theorem within_downProg {ks : List Kind} (hs : [.reg, .cons, .fab, .port, .pow, .log, .send, .draw] ⊆ ks) (p : Nat) :
    Within ks (downProg p) := by
  unfold downProg
  repeat' (first
    | with_reducible exact within_skip ks
    | with_reducible exact within_seqs_nil ks
    | with_reducible refine within_portTo (List.Subset.trans (by decide) hs) _ _
    | with_reducible refine within_setPort (List.Subset.trans (by decide) hs) _ _
    | with_reducible refine within_stopPort (List.Subset.trans (by decide) hs) _ _
    | with_reducible refine within_seqs_cons ?_ ?_
    | with_reducible refine within_seq ?_ ?_
    | with_reducible refine within_withS fun _ => ?_
    | with_reducible refine within_onlyIf fun _ => ?_
    | split
    | dsimp only)

theorem within_portEnableProg {ks : List Kind} (hs : [.reg, .cons, .fab, .port, .pow, .log, .send, .draw] ⊆ ks) (p v : Nat) :
    Within ks (portEnableProg p v) := by
  unfold portEnableProg
  repeat' (first
    | with_reducible exact within_skip ks
    | with_reducible exact within_seqs_nil ks
    | with_reducible refine within_portTo (List.Subset.trans (by decide) hs) _ _
    | with_reducible refine within_setF (List.Subset.trans (by decide) hs) _ _
    | with_reducible refine within_setPort (List.Subset.trans (by decide) hs) _ _
    | with_reducible refine within_stopPort (List.Subset.trans (by decide) hs) _ _
    | with_reducible refine within_seqs_cons ?_ ?_
    | with_reducible refine within_seq ?_ ?_
    | with_reducible refine within_withS fun _ => ?_
    | with_reducible refine within_onlyIf fun _ => ?_
    | split
    | dsimp only)

theorem within_retrainProg {ks : List Kind} (hs : [.reg, .cons, .fab, .port, .pow, .log, .send, .draw] ⊆ ks) (p : Nat) :
    Within ks (retrainProg p) := by
  unfold retrainProg
  repeat' (first
    | with_reducible exact within_skip ks
    | with_reducible exact within_seqs_nil ks
    | with_reducible refine within_setPort (List.Subset.trans (by decide) hs) _ _
    | with_reducible refine within_stopPort (List.Subset.trans (by decide) hs) _ _
    | with_reducible refine within_seqs_cons ?_ ?_
    | with_reducible refine within_seq ?_ ?_
    | with_reducible refine within_withS fun _ => ?_
    | split
    | dsimp only)

theorem within_attemptFailed {ks : List Kind} (hs : [.reg, .cons, .fab, .port, .pow, .log, .send, .draw] ⊆ ks) (p : Nat) :
    Within ks (attemptFailed p) := by
  unfold attemptFailed
  repeat' (first
    | with_reducible exact within_skip ks
    | with_reducible exact within_seqs_nil ks
    | with_reducible refine within_incF (List.Subset.trans (by decide) hs) _ _
    | with_reducible refine within_portTo (List.Subset.trans (by decide) hs) _ _
    | with_reducible refine within_setPort (List.Subset.trans (by decide) hs) _ _
    | with_reducible refine within_seqs_cons ?_ ?_
    | with_reducible refine within_seq ?_ ?_
    | with_reducible refine within_withS fun _ => ?_
    | split
    | dsimp only)

theorem within_trainTimeoutProg {ks : List Kind} (hs : [.reg, .cons, .fab, .port, .pow, .log, .send, .draw] ⊆ ks) (p : Nat) :
    Within ks (trainTimeoutProg p) := by
  unfold trainTimeoutProg
  repeat' (first
    | with_reducible exact within_skip ks
    | with_reducible exact within_seqs_nil ks
    | with_reducible refine within_attemptFailed (List.Subset.trans (by decide) hs) _
    | with_reducible refine within_seqs_cons ?_ ?_
    | with_reducible refine within_seq ?_ ?_
    | with_reducible refine within_withS fun _ => ?_
    | with_reducible refine within_onlyIf fun _ => ?_
    | split
    | dsimp only)

theorem within_setWidth {ks : List Kind} (hs : [.port] ⊆ ks) (p w : Nat) :
    Within ks (setWidth p w) := by
  unfold setWidth
  repeat' (first
    | with_reducible exact within_skip ks
    | with_reducible exact within_seqs_nil ks
    | with_reducible refine within_setPort (List.Subset.trans (by decide) hs) _ _
    | with_reducible refine within_seqs_cons ?_ ?_
    | with_reducible refine within_seq ?_ ?_
    | with_reducible refine within_withS fun _ => ?_
    | split
    | dsimp only)

theorem within_mapLanes {ks : List Kind} (hs : [.reg, .port] ⊆ ks) (p : Nat) (ls : List Nat) :
    Within ks (mapLanes p ls) := by
  unfold mapLanes
  repeat' (first
    | with_reducible exact within_skip ks
    | with_reducible exact within_seqs_nil ks
    | with_reducible refine within_setF (List.Subset.trans (by decide) hs) _ _
    | with_reducible refine within_setWidth (List.Subset.trans (by decide) hs) _ _
    | with_reducible refine within_seqs_cons ?_ ?_
    | with_reducible refine within_seq ?_ ?_
    | with_reducible refine within_withS fun _ => ?_
    | split
    | dsimp only)

theorem within_repairPort {ks : List Kind} (hs : [.reg, .cons, .log, .send, .draw] ⊆ ks) (p kind lane spare : Nat) :
    Within ks (repairPort p kind lane spare) := by
  unfold repairPort
  repeat' (first
    | with_reducible exact within_skip ks
    | with_reducible exact within_seqs_nil ks
    | with_reducible refine within_recordRepair (List.Subset.trans (by decide) hs) _
    | with_reducible refine within_seqs_cons ?_ ?_
    | with_reducible refine within_seq ?_ ?_
    | with_reducible refine within_withS fun _ => ?_
    | split
    | dsimp only)

theorem within_narrow {ks : List Kind} (hs : [.reg, .port] ⊆ ks) (p : Nat) (good : List Nat) :
    Within ks (narrow p good) := by
  unfold narrow
  repeat' (first
    | with_reducible exact within_skip ks
    | with_reducible exact within_seqs_nil ks
    | with_reducible refine within_setF (List.Subset.trans (by decide) hs) _ _
    | with_reducible refine within_setWidth (List.Subset.trans (by decide) hs) _ _
    | with_reducible refine within_seqs_cons ?_ ?_
    | with_reducible refine within_seq ?_ ?_
    | with_reducible refine within_withS fun _ => ?_
    | split
    | dsimp only)

theorem within_reportLanes {ks : List Kind} (hs : [.reg, .cons, .log, .send, .draw] ⊆ ks) (p oldWidth oldMap : Nat) :
    Within ks (reportLanes p oldWidth oldMap) := by
  unfold reportLanes
  repeat' (first
    | with_reducible exact within_skip ks
    | with_reducible exact within_seqs_nil ks
    | with_reducible refine within_repairPort (List.Subset.trans (by decide) hs) _ _ _ _
    | with_reducible refine within_seqs_cons ?_ ?_
    | with_reducible refine within_seq ?_ ?_
    | with_reducible refine within_withS fun _ => ?_
    | with_reducible refine within_given fun _ => ?_
    | split
    | dsimp only)

theorem within_setKeys {ks : List Kind} (hs : [.port, .draw] ⊆ ks) (p : Nat) (next : Prog) (h_next : Within ks (next)) :
    Within ks (setKeys p next) := by
  unfold setKeys
  repeat' (first
    | exact h_next
    | with_reducible exact within_skip ks
    | with_reducible exact within_seqs_nil ks
    | with_reducible refine within_setPort (List.Subset.trans (by decide) hs) _ _
    | with_reducible refine within_seqs_cons ?_ ?_
    | with_reducible refine within_seq ?_ ?_
    | with_reducible refine within_withS fun _ => ?_
    | with_reducible refine within_drawFree (kind_mem hs (by decide)) fun _ => ?_
    | split
    | dsimp only)

theorem within_trainDoneProg {ks : List Kind} (hs : [.reg, .cons, .fab, .port, .pow, .log, .send, .draw] ⊆ ks) (p : Nat) (r : TrainResult) :
    Within ks (trainDoneProg p r) := by
  unfold trainDoneProg
  repeat' (first
    | with_reducible exact within_skip ks
    | with_reducible exact within_seqs_nil ks
    | with_reducible refine within_attemptFailed (List.Subset.trans (by decide) hs) _
    | with_reducible refine within_logEv (List.Subset.trans (by decide) hs) _ _ _ _ _ _
    | with_reducible refine within_mapLanes (List.Subset.trans (by decide) hs) _ _
    | with_reducible refine within_narrow (List.Subset.trans (by decide) hs) _ _
    | with_reducible refine within_portTo (List.Subset.trans (by decide) hs) _ _
    | with_reducible refine within_reportLanes (List.Subset.trans (by decide) hs) _ _ _
    | with_reducible refine within_setF (List.Subset.trans (by decide) hs) _ _
    | with_reducible refine within_setKeys (List.Subset.trans (by decide) hs) _ _ ?_
    | with_reducible refine within_setPort (List.Subset.trans (by decide) hs) _ _
    | with_reducible refine within_showCredit (List.Subset.trans (by decide) hs) _
    | with_reducible refine within_seqs_cons ?_ ?_
    | with_reducible refine within_seq ?_ ?_
    | with_reducible refine within_withS fun _ => ?_
    | with_reducible refine within_onlyIf fun _ => ?_
    | with_reducible refine within_given fun _ => ?_
    | with_reducible refine within_emit_cons ?_ ?_
    | with_reducible exact within_emit_nil ks
    | with_reducible refine within_emit_append ?_ ?_
    | with_reducible refine within_emit_map fun _ => ?_
    | exact kind_mem hs (by dsimp only [Eff.kind]; decide)
    | split
    | dsimp only)

theorem within_replayAll {ks : List Kind} (hs : [.reg, .send, .draw] ⊆ ks) (p : Nat) :
    Within ks (replayAll p) := by
  unfold replayAll
  repeat' (first
    | with_reducible exact within_skip ks
    | with_reducible exact within_seqs_nil ks
    | with_reducible refine within_incF (List.Subset.trans (by decide) hs) _ _
    | with_reducible refine within_seqs_cons ?_ ?_
    | with_reducible refine within_seq ?_ ?_
    | with_reducible refine within_withS fun _ => ?_
    | with_reducible refine within_forEach fun _ _ => ?_
    | with_reducible refine within_emit_cons ?_ ?_
    | with_reducible exact within_emit_nil ks
    | with_reducible refine within_emit_append ?_ ?_
    | with_reducible refine within_emit_map fun _ => ?_
    | exact kind_mem hs (by dsimp only [Eff.kind]; decide)
    | split
    | dsimp only)

theorem within_laneCheckProg {ks : List Kind} (hs : [.reg, .cons, .fab, .port, .pow, .log, .send, .draw] ⊆ ks) (p : Nat) (errs : List Nat) (lockMask : Nat) :
    Within ks (laneCheckProg p errs lockMask) := by
  unfold laneCheckProg
  repeat' (first
    | with_reducible exact within_skip ks
    | with_reducible exact within_seqs_nil ks
    | with_reducible refine within_downProg (List.Subset.trans (by decide) hs) _
    | with_reducible refine within_mapLanes (List.Subset.trans (by decide) hs) _ _
    | with_reducible refine within_narrow (List.Subset.trans (by decide) hs) _ _
    | with_reducible refine within_portTo (List.Subset.trans (by decide) hs) _ _
    | with_reducible refine within_repairPort (List.Subset.trans (by decide) hs) _ _ _ _
    | with_reducible refine within_replayAll (List.Subset.trans (by decide) hs) _
    | with_reducible refine within_seqs_cons ?_ ?_
    | with_reducible refine within_seq ?_ ?_
    | with_reducible refine within_withS fun _ => ?_
    | with_reducible refine within_emit_cons ?_ ?_
    | with_reducible exact within_emit_nil ks
    | with_reducible refine within_emit_append ?_ ?_
    | with_reducible refine within_emit_map fun _ => ?_
    | exact kind_mem hs (by dsimp only [Eff.kind]; decide)
    | split
    | dsimp only)

theorem within_sendFrame {ks : List Kind} (hs : [.port, .send] ⊆ ks) (p : Nat) :
    Within ks (sendFrame p) := by
  unfold sendFrame
  repeat' (first
    | with_reducible exact within_skip ks
    | with_reducible exact within_seqs_nil ks
    | with_reducible refine within_setPort (List.Subset.trans (by decide) hs) _ _
    | with_reducible refine within_seqs_cons ?_ ?_
    | with_reducible refine within_seq ?_ ?_
    | with_reducible refine within_withS fun _ => ?_
    | with_reducible refine within_onlyIf fun _ => ?_
    | with_reducible refine within_emit_cons ?_ ?_
    | with_reducible exact within_emit_nil ks
    | with_reducible refine within_emit_append ?_ ?_
    | with_reducible refine within_emit_map fun _ => ?_
    | exact kind_mem hs (by dsimp only [Eff.kind]; decide)
    | split
    | dsimp only)

theorem within_flushPort {ks : List Kind} (hs : [.port, .send] ⊆ ks) (p : Nat) (all : Bool) :
    Within ks (flushPort p all) := by
  unfold flushPort
  repeat' (first
    | with_reducible exact within_skip ks
    | with_reducible exact within_seqs_nil ks
    | with_reducible refine within_sendFrame (List.Subset.trans (by decide) hs) _
    | with_reducible refine within_seqs_cons ?_ ?_
    | with_reducible refine within_seq ?_ ?_
    | with_reducible refine within_withS fun _ => ?_
    | with_reducible refine within_onlyIf fun _ => ?_
    | with_reducible refine within_forEach fun _ _ => ?_
    | split
    | dsimp only)

theorem within_linkInjected {ks : List Kind} (hs : [.reg, .cons, .log, .draw] ⊆ ks) (code p : Nat) (k : Nat → Prog) (h_k : ∀ x0, Within ks (k x0)) :
    Within ks (linkInjected code p k) := by
  unfold linkInjected
  repeat' (first
    | exact h_k _
    | with_reducible exact within_skip ks
    | with_reducible exact within_seqs_nil ks
    | with_reducible refine within_logDetect (List.Subset.trans (by decide) hs) _ _ _ _ _ _ _
    | with_reducible refine within_useArmed (List.Subset.trans (by decide) hs) _ _ _ _ _ _ (fun _ => ?_)
    | with_reducible refine within_seqs_cons ?_ ?_
    | with_reducible refine within_seq ?_ ?_
    | with_reducible refine within_withS fun _ => ?_
    | split
    | dsimp only)

theorem within_takePacket {ks : List Kind} (hs : [.reg, .fab, .port, .send, .draw] ⊆ ks) (ctl : Packet → Prog) (p : Nat) (k : Packet) (h_ctl : ∀ x0, Within ks (ctl x0)) :
    Within ks (takePacket ctl p k) := by
  unfold takePacket
  repeat' (first
    | exact h_ctl _
    | with_reducible exact within_skip ks
    | with_reducible exact within_seqs_nil ks
    | with_reducible refine within_enterVat (List.Subset.trans (by decide) hs) _ _ _
    | with_reducible refine within_incF (List.Subset.trans (by decide) hs) _ _
    | with_reducible refine within_returnCredit (List.Subset.trans (by decide) hs) _ _
    | with_reducible refine within_seqs_cons ?_ ?_
    | with_reducible refine within_seq ?_ ?_
    | with_reducible refine within_withS fun _ => ?_
    | with_reducible refine within_onlyIf fun _ => ?_
    | split
    | dsimp only)

theorem within_acceptFrame {ks : List Kind} (hs : [.reg, .fab, .port, .send, .draw] ⊆ ks) (ctl : Packet → Prog) (p lastSeen : Nat) (credits : List Nat) (pkts : List Packet) (h_ctl : ∀ x0, Within ks (ctl x0)) :
    Within ks (acceptFrame ctl p lastSeen credits pkts) := by
  unfold acceptFrame
  repeat' (first
    | exact h_ctl _
    | with_reducible exact within_skip ks
    | with_reducible exact within_seqs_nil ks
    | with_reducible refine within_flushPort (List.Subset.trans (by decide) hs) _ _
    | with_reducible refine within_sendFrame (List.Subset.trans (by decide) hs) _
    | with_reducible refine within_setPort (List.Subset.trans (by decide) hs) _ _
    | with_reducible refine within_showCredit (List.Subset.trans (by decide) hs) _
    | with_reducible refine within_takePacket (List.Subset.trans (by decide) hs) _ _ _ (fun _ => ?_)
    | with_reducible refine within_seqs_cons ?_ ?_
    | with_reducible refine within_seq ?_ ?_
    | with_reducible refine within_withS fun _ => ?_
    | with_reducible refine within_onlyIf fun _ => ?_
    | with_reducible refine within_forEach fun _ _ => ?_
    | split
    | dsimp only)

theorem within_frameReceiveProg {ks : List Kind} (hs : [.reg, .cons, .fab, .port, .pow, .log, .send, .draw] ⊆ ks) (ctl : Packet → Prog) (p seq_ lastSeen : Nat) (credits : List Nat) (fecFixed : Nat) (crcOk tagOk : Bool) (pkts : List Packet) (h_ctl : ∀ x0, Within ks (ctl x0)) :
    Within ks (frameReceiveProg ctl p seq_ lastSeen credits fecFixed crcOk tagOk pkts) := by
  unfold frameReceiveProg
  repeat' (first
    | exact h_ctl _
    | with_reducible exact within_skip ks
    | with_reducible exact within_seqs_nil ks
    | with_reducible refine within_acceptFrame (List.Subset.trans (by decide) hs) _ _ _ _ _ (fun _ => ?_)
    | with_reducible refine within_downProg (List.Subset.trans (by decide) hs) _
    | with_reducible refine within_incF (List.Subset.trans (by decide) hs) _ _
    | with_reducible refine within_linkInjected (List.Subset.trans (by decide) hs) _ _ _ (fun _ => ?_)
    | with_reducible refine within_seqs_cons ?_ ?_
    | with_reducible refine within_seq ?_ ?_
    | with_reducible refine within_withS fun _ => ?_
    | split
    | dsimp only)

theorem within_frameReplayProg {ks : List Kind} (hs : [.reg, .cons, .fab, .port, .pow, .log, .send, .draw] ⊆ ks) (p seq_ : Nat) (ok : Bool) :
    Within ks (frameReplayProg p seq_ ok) := by
  unfold frameReplayProg
  repeat' (first
    | with_reducible exact within_skip ks
    | with_reducible exact within_seqs_nil ks
    | with_reducible refine within_downProg (List.Subset.trans (by decide) hs) _
    | with_reducible refine within_incF (List.Subset.trans (by decide) hs) _ _
    | with_reducible refine within_setPort (List.Subset.trans (by decide) hs) _ _
    | with_reducible refine within_seqs_cons ?_ ?_
    | with_reducible refine within_seq ?_ ?_
    | with_reducible refine within_withS fun _ => ?_
    | with_reducible refine within_onlyIf fun _ => ?_
    | with_reducible refine within_given fun _ => ?_
    | with_reducible refine within_emit_cons ?_ ?_
    | with_reducible exact within_emit_nil ks
    | with_reducible refine within_emit_append ?_ ?_
    | with_reducible refine within_emit_map fun _ => ?_
    | exact kind_mem hs (by dsimp only [Eff.kind]; decide)
    | split
    | dsimp only)

theorem within_rekeyProg {ks : List Kind} (hs : [.reg, .cons, .fab, .port, .pow, .log, .send, .draw] ⊆ ks) (p : Nat) (ok : Bool) :
    Within ks (rekeyProg p ok) := by
  unfold rekeyProg
  repeat' (first
    | with_reducible exact within_skip ks
    | with_reducible exact within_seqs_nil ks
    | with_reducible refine within_downProg (List.Subset.trans (by decide) hs) _
    | with_reducible refine within_incF (List.Subset.trans (by decide) hs) _ _
    | with_reducible refine within_setKeys (List.Subset.trans (by decide) hs) _ _ ?_
    | with_reducible refine within_seqs_cons ?_ ?_
    | with_reducible refine within_seq ?_ ?_
    | with_reducible refine within_withS fun _ => ?_
    | with_reducible refine within_onlyIf fun _ => ?_
    | split
    | dsimp only)

theorem within_waitInVat {ks : List Kind} (hs : [.reg, .fab, .port, .send, .draw] ⊆ ks) (pkt : Packet) :
    Within ks (waitInVat pkt) := by
  unfold waitInVat
  repeat' (first
    | with_reducible exact within_skip ks
    | with_reducible exact within_seqs_nil ks
    | with_reducible refine within_enterVat (List.Subset.trans (by decide) hs) _ _ _
    | with_reducible refine within_seqs_cons ?_ ?_
    | with_reducible refine within_seq ?_ ?_
    | with_reducible refine within_withS fun _ => ?_
    | with_reducible refine within_onlyIf fun _ => ?_
    | split
    | dsimp only)

theorem within_forwardProg {ks : List Kind} (hs : [.reg, .cons, .fab, .port, .pow, .log, .send, .draw] ⊆ ks) (pkt : Packet) (queued : List Nat) :
    Within ks (forwardProg pkt queued) := by
  unfold forwardProg
  repeat' (first
    | with_reducible exact within_skip ks
    | with_reducible exact within_seqs_nil ks
    | with_reducible refine within_flushPort (List.Subset.trans (by decide) hs) _ _
    | with_reducible refine within_incF (List.Subset.trans (by decide) hs) _ _
    | with_reducible refine within_leaveVat (List.Subset.trans (by decide) hs) _
    | with_reducible refine within_setPort (List.Subset.trans (by decide) hs) _ _
    | with_reducible refine within_showCredit (List.Subset.trans (by decide) hs) _
    | with_reducible refine within_vatCell (List.Subset.trans (by decide) hs) _ ?_
    | with_reducible refine within_waitInVat (List.Subset.trans (by decide) hs) _
    | with_reducible refine within_seqs_cons ?_ ?_
    | with_reducible refine within_seq ?_ ?_
    | with_reducible refine within_withS fun _ => ?_
    | split
    | dsimp only)

end Sys2Proof.Machine
end

