-- ==== Sys2Proof/Laws/FpReliability.lean ====
section
/-! SUPPORT. Footprints of the operations of Machine/Reliability.lean: the parts of the state each can change. -/

namespace Sys2Proof.Machine

theorem within_updCons {ks : List Kind} (hs : [.cons] ⊆ ks) (f : ConsX → ConsX) :
    Within ks (updCons f) := by
  unfold updCons
  repeat' (first
    | with_reducible exact within_skip ks
    | with_reducible exact within_seqs_nil ks
    | with_reducible refine within_seqs_cons ?_ ?_
    | with_reducible refine within_seq ?_ ?_
    | with_reducible refine within_withS fun _ => ?_
    | with_reducible refine within_emit_cons ?_ ?_
    | with_reducible exact within_emit_nil ks
    | with_reducible refine within_emit_append ?_ ?_
    | with_reducible refine within_emit_map fun _ => ?_
    | exact kind_mem hs (by dsimp only [Eff.kind]; decide)
    | split
    | dsimp only)

theorem within_failStream {ks : List Kind} (hs : [.reg, .strm, .core, .line, .log, .send, .draw] ⊆ ks) (sid : Nat) :
    Within ks (failStream sid) := by
  unfold failStream
  repeat' (first
    | with_reducible exact within_skip ks
    | with_reducible exact within_seqs_nil ks
    | with_reducible refine within_logEv (List.Subset.trans (by decide) hs) _ _ _ _ _ _
    | with_reducible refine within_sendIrq (List.Subset.trans (by decide) hs) _
    | with_reducible refine within_setF (List.Subset.trans (by decide) hs) _ _
    | with_reducible refine within_setF48 (List.Subset.trans (by decide) hs) _ _ _
    | with_reducible refine within_setStrm (List.Subset.trans (by decide) hs) _ _
    | with_reducible refine within_settle (List.Subset.trans (by decide) hs) _
    | with_reducible refine within_vetoStep (List.Subset.trans (by decide) hs) _
    | with_reducible refine within_seqs_cons ?_ ?_
    | with_reducible refine within_seq ?_ ?_
    | with_reducible refine within_withS fun _ => ?_
    | with_reducible refine within_onlyIf fun _ => ?_
    | with_reducible refine within_forEach fun _ _ => ?_
    | with_reducible refine within_given fun _ => ?_
    | split
    | dsimp only)

theorem within_zeroCore {ks : List Kind} (hs : [.mem, .flag, .strm, .core, .hurt] ⊆ ks) (n : Nat) :
    Within ks (zeroCore n) := by
  unfold zeroCore
  repeat' (first
    | with_reducible exact within_skip ks
    | with_reducible exact within_seqs_nil ks
    | with_reducible refine within_wakeWatchers (List.Subset.trans (by decide) hs) _
    | with_reducible refine within_seqs_cons ?_ ?_
    | with_reducible refine within_seq ?_ ?_
    | with_reducible refine within_withS fun _ => ?_
    | with_reducible refine within_emit_cons ?_ ?_
    | with_reducible exact within_emit_nil ks
    | with_reducible refine within_emit_append ?_ ?_
    | with_reducible refine within_emit_map fun _ => ?_
    | exact kind_mem hs (by dsimp only [Eff.kind]; decide)
    | split
    | dsimp only)

theorem within_resetCoreBlocks {ks : List Kind} (hs : [.reg] ⊆ ks) (n : Nat) :
    Within ks (resetCoreBlocks n) := by
  unfold resetCoreBlocks
  repeat' (first
    | with_reducible exact within_skip ks
    | with_reducible exact within_seqs_nil ks
    | with_reducible refine within_seqs_cons ?_ ?_
    | with_reducible refine within_seq ?_ ?_
    | with_reducible refine within_withS fun _ => ?_
    | with_reducible refine within_emit_cons ?_ ?_
    | with_reducible exact within_emit_nil ks
    | with_reducible refine within_emit_append ?_ ?_
    | with_reducible refine within_emit_map fun _ => ?_
    | exact kind_mem hs (by dsimp only [Eff.kind]; decide)
    | split
    | dsimp only)

theorem within_showArrays {ks : List Kind} (hs : [.reg] ⊆ ks) (n p : Nat) :
    Within ks (showArrays n p) := by
  unfold showArrays
  repeat' (first
    | with_reducible exact within_skip ks
    | with_reducible exact within_seqs_nil ks
    | with_reducible refine within_setF (List.Subset.trans (by decide) hs) _ _
    | with_reducible refine within_seqs_cons ?_ ?_
    | with_reducible refine within_seq ?_ ?_
    | with_reducible refine within_withS fun _ => ?_
    | with_reducible refine within_forEach fun _ _ => ?_
    | split
    | dsimp only)

theorem within_adoptCore {ks : List Kind} (hs : [.reg, .mem, .flag, .strm, .core, .hurt, .cons, .log, .send, .draw] ⊆ ks) (n p cause : Nat) :
    Within ks (adoptCore n p cause) := by
  unfold adoptCore
  repeat' (first
    | with_reducible exact within_skip ks
    | with_reducible exact within_seqs_nil ks
    | with_reducible refine within_logEv (List.Subset.trans (by decide) hs) _ _ _ _ _ _
    | with_reducible refine within_recordRepair (List.Subset.trans (by decide) hs) _
    | with_reducible refine within_resetCoreBlocks (List.Subset.trans (by decide) hs) _
    | with_reducible refine within_setBitF (List.Subset.trans (by decide) hs) _ _ _
    | with_reducible refine within_setF (List.Subset.trans (by decide) hs) _ _
    | with_reducible refine within_setStrm (List.Subset.trans (by decide) hs) _ _
    | with_reducible refine within_showArrays (List.Subset.trans (by decide) hs) _ _
    | with_reducible refine within_zeroCore (List.Subset.trans (by decide) hs) _
    | with_reducible refine within_seqs_cons ?_ ?_
    | with_reducible refine within_seq ?_ ?_
    | with_reducible refine within_withS fun _ => ?_
    | with_reducible refine within_forEach fun _ _ => ?_
    | with_reducible refine within_emit_cons ?_ ?_
    | with_reducible exact within_emit_nil ks
    | with_reducible refine within_emit_append ?_ ?_
    | with_reducible refine within_emit_map fun _ => ?_
    | exact kind_mem hs (by dsimp only [Eff.kind]; decide)
    | split
    | dsimp only)

theorem within_beginReplace {ks : List Kind} (hs : [.mem, .flag, .strm, .core, .hurt] ⊆ ks) (n cause : Nat) :
    Within ks (beginReplace n cause) := by
  unfold beginReplace
  repeat' (first
    | with_reducible exact within_skip ks
    | with_reducible exact within_seqs_nil ks
    | with_reducible refine within_zeroCore (List.Subset.trans (by decide) hs) _
    | with_reducible refine within_seqs_cons ?_ ?_
    | with_reducible refine within_seq ?_ ?_
    | with_reducible refine within_withS fun _ => ?_
    | with_reducible refine within_onlyIf fun _ => ?_
    | with_reducible refine within_emit_cons ?_ ?_
    | with_reducible exact within_emit_nil ks
    | with_reducible refine within_emit_append ?_ ?_
    | with_reducible refine within_emit_map fun _ => ?_
    | exact kind_mem hs (by dsimp only [Eff.kind]; decide)
    | split
    | dsimp only)

theorem within_coreReplaceProg {ks : List Kind} (hs : [.reg, .mem, .flag, .strm, .core, .hurt, .cons, .log, .send, .draw] ⊆ ks) (n : Nat) :
    Within ks (coreReplaceProg n) := by
  unfold coreReplaceProg
  repeat' (first
    | with_reducible exact within_skip ks
    | with_reducible exact within_seqs_nil ks
    | with_reducible refine within_adoptCore (List.Subset.trans (by decide) hs) _ _ _
    | with_reducible refine within_setBitF (List.Subset.trans (by decide) hs) _ _ _
    | with_reducible refine within_seqs_cons ?_ ?_
    | with_reducible refine within_seq ?_ ?_
    | with_reducible refine within_withS fun _ => ?_
    | with_reducible refine within_onlyIf fun _ => ?_
    | with_reducible refine within_given fun _ => ?_
    | with_reducible refine within_emit_cons ?_ ?_
    | with_reducible exact within_emit_nil ks
    | with_reducible refine within_emit_append ?_ ?_
    | with_reducible refine within_emit_map fun _ => ?_
    | exact kind_mem hs (by dsimp only [Eff.kind]; decide)
    | split
    | dsimp only)

theorem within_replaceGoProg {ks : List Kind} (hs : [.reg, .mem, .flag, .strm, .core, .hurt] ⊆ ks) (n : Nat) :
    Within ks (replaceGoProg n) := by
  unfold replaceGoProg
  repeat' (first
    | with_reducible exact within_skip ks
    | with_reducible exact within_seqs_nil ks
    | with_reducible refine within_beginReplace (List.Subset.trans (by decide) hs) _ _
    | with_reducible refine within_setF (List.Subset.trans (by decide) hs) _ _
    | with_reducible refine within_seqs_cons ?_ ?_
    | with_reducible refine within_seq ?_ ?_
    | with_reducible refine within_withS fun _ => ?_
    | with_reducible refine within_onlyIf fun _ => ?_
    | split
    | dsimp only)

theorem within_controlFail {ks : List Kind} (hs : [.draw] ⊆ ks) (endMailbox : Nat → Prog) (h_endMailbox : ∀ x0, Within ks (endMailbox x0)) :
    Within ks (controlFail endMailbox) := by
  unfold controlFail
  repeat' (first
    | exact h_endMailbox _
    | with_reducible exact within_skip ks
    | with_reducible exact within_seqs_nil ks
    | with_reducible refine within_seqs_cons ?_ ?_
    | with_reducible refine within_seq ?_ ?_
    | with_reducible refine within_withS fun _ => ?_
    | with_reducible refine within_onlyIf fun _ => ?_
    | with_reducible refine within_forEach fun _ _ => ?_
    | with_reducible refine within_drawFree (kind_mem hs (by decide)) fun _ => ?_
    | split
    | dsimp only)

theorem within_controlSpareProg {ks : List Kind} (hs : [.reg, .cons, .log, .send, .draw] ⊆ ks) (i cause : Nat) :
    Within ks (controlSpareProg i cause) := by
  unfold controlSpareProg
  repeat' (first
    | with_reducible exact within_skip ks
    | with_reducible exact within_seqs_nil ks
    | with_reducible refine within_raiseEvent (List.Subset.trans (by decide) hs) _
    | with_reducible refine within_recordRepair (List.Subset.trans (by decide) hs) _
    | with_reducible refine within_setBitF (List.Subset.trans (by decide) hs) _ _ _
    | with_reducible refine within_setF (List.Subset.trans (by decide) hs) _ _
    | with_reducible refine within_seqs_cons ?_ ?_
    | with_reducible refine within_seq ?_ ?_
    | with_reducible refine within_withS fun _ => ?_
    | with_reducible refine within_onlyIf fun _ => ?_
    | split
    | dsimp only)

theorem within_moduleRemoveProg {ks : List Kind} (hs : [.reg, .strm, .core, .line, .cons, .pow, .log, .send, .draw] ⊆ ks) (die m : Nat) (cause : Nat) :
    Within ks (moduleRemoveProg die m cause) := by
  unfold moduleRemoveProg
  repeat' (first
    | with_reducible exact within_skip ks
    | with_reducible exact within_seqs_nil ks
    | with_reducible refine within_failStream (List.Subset.trans (by decide) hs) _
    | with_reducible refine within_recordRepair (List.Subset.trans (by decide) hs) _
    | with_reducible refine within_setBitF (List.Subset.trans (by decide) hs) _ _ _
    | with_reducible refine within_updCons (List.Subset.trans (by decide) hs) _
    | with_reducible refine within_updPow (List.Subset.trans (by decide) hs) _
    | with_reducible refine within_seqs_cons ?_ ?_
    | with_reducible refine within_seq ?_ ?_
    | with_reducible refine within_withS fun _ => ?_
    | with_reducible refine within_onlyIf fun _ => ?_
    | with_reducible refine within_forEach fun _ _ => ?_
    | with_reducible refine within_given fun _ => ?_
    | split
    | dsimp only)

theorem within_bankSpareProg {ks : List Kind} (hs : [.reg, .cons, .log, .send, .draw] ⊆ ks) (d slice bank cause : Nat) (force : Bool) :
    Within ks (bankSpareProg d slice bank cause force) := by
  unfold bankSpareProg
  repeat' (first
    | with_reducible exact within_skip ks
    | with_reducible exact within_seqs_nil ks
    | with_reducible refine within_recordRepair (List.Subset.trans (by decide) hs) _
    | with_reducible refine within_updCons (List.Subset.trans (by decide) hs) _
    | with_reducible refine within_seqs_cons ?_ ?_
    | with_reducible refine within_seq ?_ ?_
    | with_reducible refine within_withS fun _ => ?_
    | with_reducible refine within_onlyIf fun _ => ?_
    | split
    | dsimp only)

theorem within_rowRepairProg {ks : List Kind} (hs : [.reg, .cons, .log, .send, .draw] ⊆ ks) (k : Nat) (r : Nat × Nat) (n cause : Nat) (force : Bool) :
    Within ks (rowRepairProg k r n cause force) := by
  unfold rowRepairProg
  repeat' (first
    | with_reducible exact within_skip ks
    | with_reducible exact within_seqs_nil ks
    | with_reducible refine within_recordRepair (List.Subset.trans (by decide) hs) _
    | with_reducible refine within_updCons (List.Subset.trans (by decide) hs) _
    | with_reducible refine within_seqs_cons ?_ ?_
    | with_reducible refine within_seq ?_ ?_
    | with_reducible refine within_withS fun _ => ?_
    | with_reducible refine within_onlyIf fun _ => ?_
    | split
    | dsimp only)

theorem within_laneSpareProg {ks : List Kind} (hs : [.reg, .cons, .log, .send, .draw] ⊆ ks) (k lane cause : Nat) (force : Bool) :
    Within ks (laneSpareProg k lane cause force) := by
  unfold laneSpareProg
  repeat' (first
    | with_reducible exact within_skip ks
    | with_reducible exact within_seqs_nil ks
    | with_reducible refine within_recordRepair (List.Subset.trans (by decide) hs) _
    | with_reducible refine within_setF (List.Subset.trans (by decide) hs) _ _
    | with_reducible refine within_updCons (List.Subset.trans (by decide) hs) _
    | with_reducible refine within_seqs_cons ?_ ?_
    | with_reducible refine within_seq ?_ ?_
    | with_reducible refine within_withS fun _ => ?_
    | with_reducible refine within_onlyIf fun _ => ?_
    | split
    | dsimp only)

theorem within_injArmProg {ks : List Kind} (hs : [.reg, .cons, .log, .draw] ⊆ ks) (endMailbox : Nat → Prog) (h_endMailbox : ∀ x0, Within ks (endMailbox x0)) :
    Within ks (injArmProg endMailbox) := by
  unfold injArmProg
  repeat' (first
    | exact h_endMailbox _
    | with_reducible exact within_skip ks
    | with_reducible exact within_seqs_nil ks
    | with_reducible refine within_controlFail (List.Subset.trans (by decide) hs) _ (fun _ => ?_)
    | with_reducible refine within_incF (List.Subset.trans (by decide) hs) _ _
    | with_reducible refine within_logDetect (List.Subset.trans (by decide) hs) _ _ _ _ _ _ _
    | with_reducible refine within_updCons (List.Subset.trans (by decide) hs) _
    | with_reducible refine within_seqs_cons ?_ ?_
    | with_reducible refine within_seq ?_ ?_
    | with_reducible refine within_withS fun _ => ?_
    | with_reducible refine within_forEach fun _ _ => ?_
    | split
    | dsimp only)

theorem within_correctableProg {ks : List Kind} (hs : [.reg, .cons, .log, .draw] ⊆ ks) (det die unit item : Nat) :
    Within ks (correctableProg det die unit item) := by
  unfold correctableProg
  repeat' (first
    | with_reducible exact within_skip ks
    | with_reducible exact within_seqs_nil ks
    | with_reducible refine within_incF (List.Subset.trans (by decide) hs) _ _
    | with_reducible refine within_logDetect (List.Subset.trans (by decide) hs) _ _ _ _ _ _ _
    | with_reducible refine within_updCons (List.Subset.trans (by decide) hs) _
    | with_reducible refine within_useArmed (List.Subset.trans (by decide) hs) _ _ _ _ _ _ (fun _ => ?_)
    | with_reducible refine within_seqs_cons ?_ ?_
    | with_reducible refine within_seq ?_ ?_
    | with_reducible refine within_withS fun _ => ?_
    | with_reducible refine within_onlyIf fun _ => ?_
    | with_reducible refine within_drawFree (kind_mem hs (by decide)) fun _ => ?_
    | split
    | dsimp only)

theorem within_endStarted {ks : List Kind} (hs : [.reg, .flag, .strm, .core, .line, .log, .send, .draw] ⊆ ks) (sid : Nat) (st : Status) :
    Within ks (endStarted sid st) := by
  unfold endStarted
  repeat' (first
    | with_reducible exact within_skip ks
    | with_reducible exact within_seqs_nil ks
    | with_reducible refine within_endCmd (List.Subset.trans (by decide) hs) _ _ _ _
    | with_reducible refine within_seqs_cons ?_ ?_
    | with_reducible refine within_seq ?_ ?_
    | with_reducible refine within_withS fun _ => ?_
    | with_reducible refine within_forEach fun _ _ => ?_
    | split
    | dsimp only)

theorem within_storeError {ks : List Kind} (hs : [.reg, .core, .hurt, .pow, .draw] ⊆ ks) (n a : Nat) :
    Within ks (storeError n a) := by
  unfold storeError
  repeat' (first
    | with_reducible exact within_skip ks
    | with_reducible exact within_seqs_nil ks
    | with_reducible refine within_pendCore (List.Subset.trans (by decide) hs) _
    | with_reducible refine within_uncorrectable (List.Subset.trans (by decide) hs)
    | with_reducible refine within_seqs_cons ?_ ?_
    | with_reducible refine within_seq ?_ ?_
    | with_reducible refine within_withS fun _ => ?_
    | with_reducible refine within_onlyIf fun _ => ?_
    | with_reducible refine within_emit_cons ?_ ?_
    | with_reducible exact within_emit_nil ks
    | with_reducible refine within_emit_append ?_ ?_
    | with_reducible refine within_emit_map fun _ => ?_
    | exact kind_mem hs (by dsimp only [Eff.kind]; decide)
    | split
    | dsimp only)

theorem within_lineError {ks : List Kind} (hs : [.reg, .hurt, .pow, .draw] ⊆ ks) (a : Nat) :
    Within ks (lineError a) := by
  unfold lineError
  repeat' (first
    | with_reducible exact within_skip ks
    | with_reducible exact within_seqs_nil ks
    | with_reducible refine within_uncorrectable (List.Subset.trans (by decide) hs)
    | with_reducible refine within_seqs_cons ?_ ?_
    | with_reducible refine within_seq ?_ ?_
    | with_reducible refine within_withS fun _ => ?_
    | with_reducible refine within_emit_cons ?_ ?_
    | with_reducible exact within_emit_nil ks
    | with_reducible refine within_emit_append ?_ ?_
    | with_reducible refine within_emit_map fun _ => ?_
    | exact kind_mem hs (by dsimp only [Eff.kind]; decide)
    | split
    | dsimp only)

theorem within_conservatorRead {ks : List Kind} (hs : [.reg, .core, .line, .cons, .send, .draw] ⊆ ks) (k : Nat) (e : BEntry) :
    Within ks (conservatorRead k e) := by
  unfold conservatorRead
  repeat' (first
    | with_reducible exact within_skip ks
    | with_reducible exact within_seqs_nil ks
    | with_reducible refine within_touch (List.Subset.trans (by decide) hs) _ _ _ _
    | with_reducible refine within_updCons (List.Subset.trans (by decide) hs) _
    | with_reducible refine within_seqs_cons ?_ ?_
    | with_reducible refine within_seq ?_ ?_
    | with_reducible refine within_withS fun _ => ?_
    | with_reducible refine within_onlyIf fun _ => ?_
    | with_reducible refine within_forEach fun _ _ => ?_
    | split
    | dsimp only)

theorem within_arrayFault {ks : List Kind} (hs : [.reg, .flag, .strm, .core, .line, .log, .send, .draw] ⊆ ks) (n a : Nat) :
    Within ks (arrayFault n a) := by
  unfold arrayFault
  repeat' (first
    | with_reducible exact within_skip ks
    | with_reducible exact within_seqs_nil ks
    | with_reducible refine within_endCmd (List.Subset.trans (by decide) hs) _ _ _ _
    | with_reducible refine within_startCmd (List.Subset.trans (by decide) hs) _ _
    | with_reducible refine within_seqs_cons ?_ ?_
    | with_reducible refine within_seq ?_ ?_
    | with_reducible refine within_withS fun _ => ?_
    | with_reducible refine within_forEach fun _ _ => ?_
    | with_reducible refine within_drawFree (kind_mem hs (by decide)) fun _ => ?_
    | with_reducible refine within_emit_cons ?_ ?_
    | with_reducible exact within_emit_nil ks
    | with_reducible refine within_emit_append ?_ ?_
    | with_reducible refine within_emit_map fun _ => ?_
    | exact kind_mem hs (by dsimp only [Eff.kind]; decide)
    | split
    | dsimp only)

theorem within_uncorrectableProg {ks : List Kind} (hs : [.reg, .mem, .flag, .strm, .core, .line, .hurt, .cons, .fab, .port, .pow, .log, .send, .draw] ⊆ ks) (endMailbox : Nat → Prog) (det die unit item : Nat) (h_endMailbox : ∀ x0, Within ks (endMailbox x0)) :
    Within ks (uncorrectableProg endMailbox det die unit item) := by
  unfold uncorrectableProg
  repeat' (first
    | exact h_endMailbox _
    | with_reducible exact within_skip ks
    | with_reducible exact within_seqs_nil ks
    | with_reducible refine within_arrayFault (List.Subset.trans (by decide) hs) _ _
    | with_reducible refine within_beginReplace (List.Subset.trans (by decide) hs) _ _
    | with_reducible refine within_controlFail (List.Subset.trans (by decide) hs) _ (fun _ => ?_)
    | with_reducible refine within_downProg (List.Subset.trans (by decide) hs) _
    | with_reducible refine within_endCmd (List.Subset.trans (by decide) hs) _ _ _ _
    | with_reducible refine within_endStarted (List.Subset.trans (by decide) hs) _ _
    | with_reducible refine within_failStream (List.Subset.trans (by decide) hs) _
    | with_reducible refine within_incF (List.Subset.trans (by decide) hs) _ _
    | with_reducible refine within_leaveVat (List.Subset.trans (by decide) hs) _
    | with_reducible refine within_lineError (List.Subset.trans (by decide) hs) _
    | with_reducible refine within_logDetect (List.Subset.trans (by decide) hs) _ _ _ _ _ _ _
    | with_reducible refine within_setBitF (List.Subset.trans (by decide) hs) _ _ _
    | with_reducible refine within_startCmd (List.Subset.trans (by decide) hs) _ _
    | with_reducible refine within_storeError (List.Subset.trans (by decide) hs) _ _
    | with_reducible refine within_uncorrectable (List.Subset.trans (by decide) hs)
    | with_reducible refine within_updCons (List.Subset.trans (by decide) hs) _
    | with_reducible refine within_updPow (List.Subset.trans (by decide) hs) _
    | with_reducible refine within_useArmed (List.Subset.trans (by decide) hs) _ _ _ _ _ _ (fun _ => ?_)
    | with_reducible refine within_seqs_cons ?_ ?_
    | with_reducible refine within_seq ?_ ?_
    | with_reducible refine within_withS fun _ => ?_
    | with_reducible refine within_onlyIf fun _ => ?_
    | with_reducible refine within_forEach fun _ _ => ?_
    | with_reducible refine within_given fun _ => ?_
    | split
    | dsimp only)

end Sys2Proof.Machine
end

