-- ==== Sys2Proof/Laws/FpJob.lean ====
section
/-! SUPPORT. Footprints of the operations of Machine/Job.lean: the parts of the state each can change. -/

namespace Sys2Proof.Machine

theorem within_updJob {ks : List Kind} (hs : [.job] ⊆ ks) (f : JobX → JobX) :
    Within ks (updJob f) := by
  unfold updJob
  repeat' (first
    | with_reducible exact within_skip ks
    | with_reducible exact within_seqs_nil ks
    | with_reducible refine within_seqs_cons ?_ ?_
    | with_reducible refine within_seq ?_ ?_
    | with_reducible refine within_withS fun _ => ?_
    | with_reducible refine within_emit_cons ?_ ?_
    | with_reducible exact within_emit_nil ks
    | with_reducible refine within_emit_append ?_ ?_
    | with_reducible refine within_emit_map fun _ => ?_
    | exact kind_mem hs (by dsimp only [Eff.kind]; decide)
    | split
    | dsimp only)

theorem within_writeDef {ks : List Kind} (hs : [.reg] ⊆ ks) (e : GroupEnt) :
    Within ks (writeDef e) := by
  unfold writeDef
  repeat' (first
    | with_reducible exact within_skip ks
    | with_reducible exact within_seqs_nil ks
    | with_reducible refine within_setF (List.Subset.trans (by decide) hs) _ _
    | with_reducible refine within_seqs_cons ?_ ?_
    | with_reducible refine within_seq ?_ ?_
    | with_reducible refine within_withS fun _ => ?_
    | with_reducible refine within_onlyIf fun _ => ?_
    | with_reducible refine within_emit_cons ?_ ?_
    | with_reducible exact within_emit_nil ks
    | with_reducible refine within_emit_append ?_ ?_
    | with_reducible refine within_emit_map fun _ => ?_
    | exact kind_mem hs (by dsimp only [Eff.kind]; decide)
    | split
    | dsimp only)

theorem within_createGroups {ks : List Kind} (hs : [.reg, .fab, .port, .send, .draw] ⊆ ks) (k : Option Status → List Nat → Prog) (y0 : List Nat) (y1 : List GroupEnt) (h_k : ∀ x0 x1, Within ks (k x0 x1)) :
    Within ks (createGroups k y0 y1) := by
  induction y1 generalizing y0 with
  | nil => exact h_k _ _
  | cons e r ih =>
    unfold createGroups
    refine within_withS fun s => within_seqs_cons (within_writeDef (List.Subset.trans (by decide) hs) _) (within_seqs_cons
      (within_groupCreateProg (List.Subset.trans (by decide) hs) _) (within_seqs_cons (within_withS fun s => ?_) (within_seqs_nil ks)))
    exact within_ite (ih _) (h_k _ _)

theorem within_releaseGroups {ks : List Kind} (hs : [.reg, .fab, .port, .send, .draw] ⊆ ks) (gs : List Nat) :
    Within ks (releaseGroups gs) := by
  unfold releaseGroups
  repeat' (first
    | with_reducible exact within_skip ks
    | with_reducible exact within_seqs_nil ks
    | with_reducible refine within_groupReleaseProg (List.Subset.trans (by decide) hs) _
    | with_reducible refine within_seqs_cons ?_ ?_
    | with_reducible refine within_seq ?_ ?_
    | with_reducible refine within_withS fun _ => ?_
    | with_reducible refine within_forEach fun _ _ => ?_
    | split
    | dsimp only)

theorem within_setEpochAll {ks : List Kind} (hs : [.reg] ⊆ ks) (n : Nat) :
    Within ks (setEpochAll n) := by
  unfold setEpochAll
  repeat' (first
    | with_reducible exact within_skip ks
    | with_reducible exact within_seqs_nil ks
    | with_reducible refine within_setF (List.Subset.trans (by decide) hs) _ _
    | with_reducible refine within_seqs_cons ?_ ?_
    | with_reducible refine within_seq ?_ ?_
    | with_reducible refine within_withS fun _ => ?_
    | with_reducible refine within_forEach fun _ _ => ?_
    | split
    | dsimp only)

theorem within_setLender {ks : List Kind} (hs : [.reg] ⊆ ks) (on : Bool) (master : Nat) :
    Within ks (setLender on master) := by
  unfold setLender
  repeat' (first
    | with_reducible exact within_skip ks
    | with_reducible exact within_seqs_nil ks
    | with_reducible refine within_setF (List.Subset.trans (by decide) hs) _ _
    | with_reducible refine within_seqs_cons ?_ ?_
    | with_reducible refine within_seq ?_ ?_
    | with_reducible refine within_withS fun _ => ?_
    | with_reducible refine within_forEach fun _ _ => ?_
    | split
    | dsimp only)

theorem within_placeMemory {ks : List Kind} (hs : [.reg, .mem, .line, .vault, .hurt, .send, .draw] ⊆ ks) (table : Nat) :
    Within ks (placeMemory table) := by
  unfold placeMemory
  repeat' (first
    | with_reducible exact within_skip ks
    | with_reducible exact within_seqs_nil ks
    | with_reducible refine within_pageAttrProg (List.Subset.trans (by decide) hs) _ _ _
    | with_reducible refine within_partitionProg (List.Subset.trans (by decide) hs) _ _
    | with_reducible refine within_seqs_cons ?_ ?_
    | with_reducible refine within_seq ?_ ?_
    | with_reducible refine within_withS fun _ => ?_
    | with_reducible refine within_forEach fun _ _ => ?_
    | with_reducible refine within_given fun _ => ?_
    | split
    | dsimp only)

theorem within_jobLoad {ks : List Kind} (hs : [.reg, .mem, .line, .vault, .hurt, .fab, .port, .job, .send, .draw] ⊆ ks) (record cap : Nat) (k : Status → Prog) (h_k : ∀ x0, Within ks (k x0)) :
    Within ks (jobLoad record cap k) := by
  unfold jobLoad
  repeat' (first
    | exact h_k _
    | with_reducible exact within_skip ks
    | with_reducible exact within_seqs_nil ks
    | with_reducible refine within_createGroups (List.Subset.trans (by decide) hs) _ _ _ (fun _ _ => ?_)
    | with_reducible refine within_extendMeas (List.Subset.trans (by decide) hs) _ _
    | with_reducible refine within_placeMemory (List.Subset.trans (by decide) hs) _
    | with_reducible refine within_releaseGroups (List.Subset.trans (by decide) hs) _
    | with_reducible refine within_setEpochAll (List.Subset.trans (by decide) hs) _
    | with_reducible refine within_setF (List.Subset.trans (by decide) hs) _ _
    | with_reducible refine within_setLender (List.Subset.trans (by decide) hs) _ _
    | with_reducible refine within_seqs_cons ?_ ?_
    | with_reducible refine within_seq ?_ ?_
    | with_reducible refine within_withS fun _ => ?_
    | with_reducible refine within_forEach fun _ _ => ?_
    | with_reducible refine within_drawFree (kind_mem hs (by decide)) fun _ => ?_
    | with_reducible refine within_emit_cons ?_ ?_
    | with_reducible exact within_emit_nil ks
    | with_reducible refine within_emit_append ?_ ?_
    | with_reducible refine within_emit_map fun _ => ?_
    | exact kind_mem hs (by dsimp only [Eff.kind]; decide)
    | split
    | dsimp only)

theorem within_ringStream {ks : List Kind} (hs : [.reg, .core] ⊆ ks) (e : Nat × Nat × Nat × Nat) :
    Within ks (ringStream e) := by
  unfold ringStream
  repeat' (first
    | with_reducible exact within_skip ks
    | with_reducible exact within_seqs_nil ks
    | with_reducible refine within_doorbellProg (List.Subset.trans (by decide) hs) _ _
    | with_reducible refine within_enableProg (List.Subset.trans (by decide) hs) _
    | with_reducible refine within_setF (List.Subset.trans (by decide) hs) _ _
    | with_reducible refine within_seqs_cons ?_ ?_
    | with_reducible refine within_seq ?_ ?_
    | with_reducible refine within_withS fun _ => ?_
    | with_reducible refine within_onlyIf fun _ => ?_
    | split
    | dsimp only)

theorem within_setEndFlag {ks : List Kind} (hs : [.flag, .strm, .core] ⊆ ks) (v : Nat) :
    Within ks (setEndFlag v) := by
  unfold setEndFlag
  repeat' (first
    | with_reducible exact within_skip ks
    | with_reducible exact within_seqs_nil ks
    | with_reducible refine within_flagOp (List.Subset.trans (by decide) hs) _ _ _ _ _
    | with_reducible refine within_seqs_cons ?_ ?_
    | with_reducible refine within_seq ?_ ?_
    | with_reducible refine within_withS fun _ => ?_
    | split
    | dsimp only)

theorem within_stopJob {ks : List Kind} (hs : [.reg, .job, .mbox, .log, .send] ⊆ ks)  :
    Within ks (stopJob ) := by
  unfold stopJob
  repeat' (first
    | with_reducible exact within_skip ks
    | with_reducible exact within_seqs_nil ks
    | with_reducible refine within_endMailbox (List.Subset.trans (by decide) hs) _ _ _
    | with_reducible refine within_raiseEvent (List.Subset.trans (by decide) hs) _
    | with_reducible refine within_setF (List.Subset.trans (by decide) hs) _ _
    | with_reducible refine within_updJob (List.Subset.trans (by decide) hs) _
    | with_reducible refine within_seqs_cons ?_ ?_
    | with_reducible refine within_seq ?_ ?_
    | with_reducible refine within_withS fun _ => ?_
    | with_reducible refine within_given fun _ => ?_
    | with_reducible refine within_emit_cons ?_ ?_
    | with_reducible exact within_emit_nil ks
    | with_reducible refine within_emit_append ?_ ?_
    | with_reducible refine within_emit_map fun _ => ?_
    | exact kind_mem hs (by dsimp only [Eff.kind]; decide)
    | split
    | dsimp only)

theorem within_regenOwn {ks : List Kind} (hs : [.reg, .mem, .core, .line, .hurt, .cons, .pow, .log, .send, .draw] ⊆ ks) (k entry : Nat) (stochastic : Bool) :
    Within ks (regenOwn k entry stochastic) := by
  unfold regenOwn
  repeat' (first
    | with_reducible exact within_skip ks
    | with_reducible exact within_seqs_nil ks
    | with_reducible refine within_incF (List.Subset.trans (by decide) hs) _ _
    | with_reducible refine within_putWc (List.Subset.trans (by decide) hs) _ _ _ _ _
    | with_reducible refine within_readSlot (List.Subset.trans (by decide) hs) _ _ _
    | with_reducible refine within_seqs_cons ?_ ?_
    | with_reducible refine within_seq ?_ ?_
    | with_reducible refine within_withS fun _ => ?_
    | with_reducible refine within_onlyIf fun _ => ?_
    | with_reducible refine within_given fun _ => ?_
    | split
    | dsimp only)

theorem within_sendCopy {ks : List Kind} (hs : [.reg, .mem, .core, .line, .hurt, .cons, .pow, .log, .send, .draw] ⊆ ks) (k entry : Nat) (stochastic : Bool) (dsts : List Nat) :
    Within ks (sendCopy k entry stochastic dsts) := by
  unfold sendCopy
  repeat' (first
    | with_reducible exact within_skip ks
    | with_reducible exact within_seqs_nil ks
    | with_reducible refine within_regenOwn (List.Subset.trans (by decide) hs) _ _ _
    | with_reducible refine within_seqs_cons ?_ ?_
    | with_reducible refine within_seq ?_ ?_
    | with_reducible refine within_withS fun _ => ?_
    | with_reducible refine within_emit_cons ?_ ?_
    | with_reducible exact within_emit_nil ks
    | with_reducible refine within_emit_append ?_ ?_
    | with_reducible refine within_emit_map fun _ => ?_
    | exact kind_mem hs (by dsimp only [Eff.kind]; decide)
    | split
    | dsimp only)

theorem within_writeTable {ks : List Kind} (hs : [.reg, .mem, .core, .line, .hurt, .cons, .pow, .log, .send, .draw] ⊆ ks) (r : Revised) :
    Within ks (writeTable r) := by
  unfold writeTable
  repeat' (first
    | with_reducible exact within_skip ks
    | with_reducible exact within_seqs_nil ks
    | with_reducible refine within_sendCopy (List.Subset.trans (by decide) hs) _ _ _ _
    | with_reducible refine within_writeBytes (List.Subset.trans (by decide) hs) _ _ _
    | with_reducible refine within_seqs_cons ?_ ?_
    | with_reducible refine within_seq ?_ ?_
    | with_reducible refine within_withS fun _ => ?_
    | with_reducible refine within_forEach fun _ _ => ?_
    | split
    | dsimp only)

theorem within_chooseAnchors {ks : List Kind} (hs : [.job] ⊆ ks)  :
    Within ks (chooseAnchors ) := by
  unfold chooseAnchors
  repeat' (first
    | with_reducible exact within_skip ks
    | with_reducible exact within_seqs_nil ks
    | with_reducible refine within_updJob (List.Subset.trans (by decide) hs) _
    | with_reducible refine within_seqs_cons ?_ ?_
    | with_reducible refine within_seq ?_ ?_
    | with_reducible refine within_withS fun _ => ?_
    | split
    | dsimp only)

theorem within_stepWrites {ks : List Kind} (hs : [.reg, .mem, .core, .line, .hurt, .cons, .pow, .log, .send, .draw] ⊆ ks) (n : Nat) :
    Within ks (stepWrites n) := by
  unfold stepWrites
  repeat' (first
    | with_reducible exact within_skip ks
    | with_reducible exact within_seqs_nil ks
    | with_reducible refine within_writeBytes (List.Subset.trans (by decide) hs) _ _ _
    | with_reducible refine within_seqs_cons ?_ ?_
    | with_reducible refine within_seq ?_ ?_
    | with_reducible refine within_withS fun _ => ?_
    | with_reducible refine within_onlyIf fun _ => ?_
    | with_reducible refine within_forEach fun _ _ => ?_
    | split
    | dsimp only)

theorem within_beginAttempt {ks : List Kind} (hs : [.reg, .mem, .flag, .strm, .core, .line, .hurt, .cons, .job, .pow, .log, .send, .draw] ⊆ ks)  :
    Within ks (beginAttempt ) := by
  unfold beginAttempt
  repeat' (first
    | with_reducible exact within_skip ks
    | with_reducible exact within_seqs_nil ks
    | with_reducible refine within_enableProg (List.Subset.trans (by decide) hs) _
    | with_reducible refine within_raiseEvent (List.Subset.trans (by decide) hs) _
    | with_reducible refine within_ringBy (List.Subset.trans (by decide) hs) _ _
    | with_reducible refine within_ringStream (List.Subset.trans (by decide) hs) _
    | with_reducible refine within_setEndFlag (List.Subset.trans (by decide) hs) _
    | with_reducible refine within_setF (List.Subset.trans (by decide) hs) _ _
    | with_reducible refine within_stepOkProg (List.Subset.trans (by decide) hs) _
    | with_reducible refine within_stepWrites (List.Subset.trans (by decide) hs) _
    | with_reducible refine within_updJob (List.Subset.trans (by decide) hs) _
    | with_reducible refine within_writeBytes (List.Subset.trans (by decide) hs) _ _ _
    | with_reducible refine within_writeTable (List.Subset.trans (by decide) hs) _
    | with_reducible refine within_seqs_cons ?_ ?_
    | with_reducible refine within_seq ?_ ?_
    | with_reducible refine within_withS fun _ => ?_
    | with_reducible refine within_onlyIf fun _ => ?_
    | with_reducible refine within_forEach fun _ _ => ?_
    | split
    | dsimp only)

theorem within_restoreBegin {ks : List Kind} (hs : [.reg, .strm, .core, .line, .job, .log, .send, .draw] ⊆ ks)  :
    Within ks (restoreBegin ) := by
  unfold restoreBegin
  repeat' (first
    | with_reducible exact within_skip ks
    | with_reducible exact within_seqs_nil ks
    | with_reducible refine within_resetProg (List.Subset.trans (by decide) hs) _
    | with_reducible refine within_updJob (List.Subset.trans (by decide) hs) _
    | with_reducible refine within_seqs_cons ?_ ?_
    | with_reducible refine within_seq ?_ ?_
    | with_reducible refine within_withS fun _ => ?_
    | with_reducible refine within_forEach fun _ _ => ?_
    | split
    | dsimp only)

theorem within_restoreEnd {ks : List Kind} (hs : [.reg, .mem, .flag, .strm, .core, .line, .hurt, .cons, .pow, .log, .send, .draw] ⊆ ks)  :
    Within ks (restoreEnd ) := by
  unfold restoreEnd
  repeat' (first
    | with_reducible exact within_skip ks
    | with_reducible exact within_seqs_nil ks
    | with_reducible refine within_closeTask (List.Subset.trans (by decide) hs) _ _ _ _ _ (fun _ => ?_)
    | with_reducible refine within_flagOp (List.Subset.trans (by decide) hs) _ _ _ _ _
    | with_reducible refine within_nextSeqProg (List.Subset.trans (by decide) hs) _ _
    | with_reducible refine within_setF (List.Subset.trans (by decide) hs) _ _
    | with_reducible refine within_writeBytes (List.Subset.trans (by decide) hs) _ _ _
    | with_reducible refine within_seqs_cons ?_ ?_
    | with_reducible refine within_seq ?_ ?_
    | with_reducible refine within_withS fun _ => ?_
    | with_reducible refine within_onlyIf fun _ => ?_
    | with_reducible refine within_forEach fun _ _ => ?_
    | split
    | dsimp only)

theorem within_discarded {ks : List Kind} (hs : [.reg, .strm, .core, .line, .job, .mbox, .log, .send, .draw] ⊆ ks) (st : Status) :
    Within ks (discarded st) := by
  unfold discarded
  repeat' (first
    | with_reducible exact within_skip ks
    | with_reducible exact within_seqs_nil ks
    | with_reducible refine within_restoreBegin (List.Subset.trans (by decide) hs)
    | with_reducible refine within_stopJob (List.Subset.trans (by decide) hs)
    | with_reducible refine within_updJob (List.Subset.trans (by decide) hs) _
    | with_reducible refine within_seqs_cons ?_ ?_
    | with_reducible refine within_seq ?_ ?_
    | with_reducible refine within_withS fun _ => ?_
    | split
    | dsimp only)

theorem within_committed {ks : List Kind} (hs : [.job] ⊆ ks)  :
    Within ks (committed ) := by
  unfold committed
  repeat' (first
    | with_reducible exact within_skip ks
    | with_reducible exact within_seqs_nil ks
    | with_reducible refine within_chooseAnchors (List.Subset.trans (by decide) hs)
    | with_reducible refine within_updJob (List.Subset.trans (by decide) hs) _
    | with_reducible refine within_seqs_cons ?_ ?_
    | with_reducible refine within_seq ?_ ?_
    | with_reducible refine within_withS fun _ => ?_
    | split
    | dsimp only)

theorem within_askDecision {ks : List Kind} (hs : [.reg, .job, .mbox, .log, .send] ⊆ ks) (sn : Nat) (left : List Nat) :
    Within ks (askDecision sn left) := by
  unfold askDecision
  repeat' (first
    | with_reducible exact within_skip ks
    | with_reducible exact within_seqs_nil ks
    | with_reducible refine within_stopJob (List.Subset.trans (by decide) hs)
    | with_reducible refine within_updJob (List.Subset.trans (by decide) hs) _
    | with_reducible refine within_seqs_cons ?_ ?_
    | with_reducible refine within_seq ?_ ?_
    | with_reducible refine within_withS fun _ => ?_
    | with_reducible refine within_emit_cons ?_ ?_
    | with_reducible exact within_emit_nil ks
    | with_reducible refine within_emit_append ?_ ?_
    | with_reducible refine within_emit_map fun _ => ?_
    | exact kind_mem hs (by dsimp only [Eff.kind]; decide)
    | split
    | dsimp only)

theorem within_decisionTold {ks : List Kind} (hs : [.reg, .strm, .core, .line, .job, .mbox, .log, .send, .draw] ⊆ ks) (answer : Nat) :
    Within ks (decisionTold answer) := by
  unfold decisionTold
  repeat' (first
    | with_reducible exact within_skip ks
    | with_reducible exact within_seqs_nil ks
    | with_reducible refine within_askDecision (List.Subset.trans (by decide) hs) _ _
    | with_reducible refine within_committed (List.Subset.trans (by decide) hs)
    | with_reducible refine within_discarded (List.Subset.trans (by decide) hs) _
    | with_reducible refine within_setEpochAll (List.Subset.trans (by decide) hs) _
    | with_reducible refine within_seqs_cons ?_ ?_
    | with_reducible refine within_seq ?_ ?_
    | with_reducible refine within_withS fun _ => ?_
    | split
    | dsimp only)

theorem within_afterCommit {ks : List Kind} (hs : [.reg, .strm, .core, .line, .job, .mbox, .log, .send, .draw] ⊆ ks) (sn : Nat) (st : Status) :
    Within ks (afterCommit sn st) := by
  unfold afterCommit
  repeat' (first
    | with_reducible exact within_skip ks
    | with_reducible exact within_seqs_nil ks
    | with_reducible refine within_committed (List.Subset.trans (by decide) hs)
    | with_reducible refine within_decisionTold (List.Subset.trans (by decide) hs) _
    | with_reducible refine within_discarded (List.Subset.trans (by decide) hs) _
    | with_reducible refine within_updJob (List.Subset.trans (by decide) hs) _
    | with_reducible refine within_seqs_cons ?_ ?_
    | with_reducible refine within_seq ?_ ?_
    | with_reducible refine within_withS fun _ => ?_
    | split
    | dsimp only)

theorem within_tryRelease {ks : List Kind} (hs : [.flag, .strm, .core, .job] ⊆ ks)  :
    Within ks (tryRelease ) := by
  unfold tryRelease
  repeat' (first
    | with_reducible exact within_skip ks
    | with_reducible exact within_seqs_nil ks
    | with_reducible refine within_setEndFlag (List.Subset.trans (by decide) hs) _
    | with_reducible refine within_updJob (List.Subset.trans (by decide) hs) _
    | with_reducible refine within_seqs_cons ?_ ?_
    | with_reducible refine within_seq ?_ ?_
    | with_reducible refine within_withS fun _ => ?_
    | with_reducible refine within_onlyIf fun _ => ?_
    | split
    | dsimp only)

theorem within_releaseCommit {ks : List Kind} (hs : [.reg, .flag, .strm, .core, .job] ⊆ ks)  :
    Within ks (releaseCommit ) := by
  unfold releaseCommit
  repeat' (first
    | with_reducible exact within_skip ks
    | with_reducible exact within_seqs_nil ks
    | with_reducible refine within_stepOkProg (List.Subset.trans (by decide) hs) _
    | with_reducible refine within_tryRelease (List.Subset.trans (by decide) hs)
    | with_reducible refine within_updJob (List.Subset.trans (by decide) hs) _
    | with_reducible refine within_seqs_cons ?_ ?_
    | with_reducible refine within_seq ?_ ?_
    | with_reducible refine within_withS fun _ => ?_
    | split
    | dsimp only)

theorem within_stepAttemptProg {ks : List Kind} (hs : [.reg, .mem, .flag, .strm, .core, .line, .hurt, .cons, .job, .mbox, .pow, .log, .send, .draw] ⊆ ks)  :
    Within ks (stepAttemptProg ) := by
  unfold stepAttemptProg
  repeat' (first
    | with_reducible exact within_skip ks
    | with_reducible exact within_seqs_nil ks
    | with_reducible refine within_afterCommit (List.Subset.trans (by decide) hs) _ _
    | with_reducible refine within_beginAttempt (List.Subset.trans (by decide) hs)
    | with_reducible refine within_restoreEnd (List.Subset.trans (by decide) hs)
    | with_reducible refine within_stopJob (List.Subset.trans (by decide) hs)
    | with_reducible refine within_tryRelease (List.Subset.trans (by decide) hs)
    | with_reducible refine within_updJob (List.Subset.trans (by decide) hs) _
    | with_reducible refine within_seqs_cons ?_ ?_
    | with_reducible refine within_seq ?_ ?_
    | with_reducible refine within_withS fun _ => ?_
    | with_reducible refine within_onlyIf fun _ => ?_
    | split
    | dsimp only)

theorem within_stepTimeoutProg {ks : List Kind} (hs : [.reg, .flag, .strm, .core, .job] ⊆ ks)  :
    Within ks (stepTimeoutProg ) := by
  unfold stepTimeoutProg
  repeat' (first
    | with_reducible exact within_skip ks
    | with_reducible exact within_seqs_nil ks
    | with_reducible refine within_releaseCommit (List.Subset.trans (by decide) hs)
    | with_reducible refine within_seqs_cons ?_ ?_
    | with_reducible refine within_seq ?_ ?_
    | with_reducible refine within_withS fun _ => ?_
    | with_reducible refine within_onlyIf fun _ => ?_
    | split
    | dsimp only)

theorem within_commitReleaseProg {ks : List Kind} (hs : [.reg, .flag, .strm, .core, .job] ⊆ ks)  :
    Within ks (commitReleaseProg ) := by
  unfold commitReleaseProg
  repeat' (first
    | with_reducible exact within_skip ks
    | with_reducible exact within_seqs_nil ks
    | with_reducible refine within_releaseCommit (List.Subset.trans (by decide) hs)
    | with_reducible refine within_tryRelease (List.Subset.trans (by decide) hs)
    | with_reducible refine within_seqs_cons ?_ ?_
    | with_reducible refine within_seq ?_ ?_
    | with_reducible refine within_withS fun _ => ?_
    | with_reducible refine within_onlyIf fun _ => ?_
    | split
    | dsimp only)

theorem within_wmRepair {ks : List Kind} (hs : [.reg, .mem, .core, .line, .hurt, .cons, .pow, .log, .send, .draw] ⊆ ks) (t : Config.BlockTable) (block own : Nat) (told : List (Nat × Nat)) :
    Within ks (wmRepair t block own told) := by
  unfold wmRepair
  repeat' (first
    | with_reducible exact within_skip ks
    | with_reducible exact within_seqs_nil ks
    | with_reducible refine within_conservatorRead (List.Subset.trans (by decide) hs) _ _
    | with_reducible refine within_digestRead (List.Subset.trans (by decide) hs) _ _ _ _
    | with_reducible refine within_incF (List.Subset.trans (by decide) hs) _ _
    | with_reducible refine within_logDetect (List.Subset.trans (by decide) hs) _ _ _ _ _ _ _
    | with_reducible refine within_logEv (List.Subset.trans (by decide) hs) _ _ _ _ _ _
    | with_reducible refine within_raiseEvent (List.Subset.trans (by decide) hs) _
    | with_reducible refine within_sendCopy (List.Subset.trans (by decide) hs) _ _ _ _
    | with_reducible refine within_updPow (List.Subset.trans (by decide) hs) _
    | with_reducible refine within_seqs_cons ?_ ?_
    | with_reducible refine within_seq ?_ ?_
    | with_reducible refine within_withS fun _ => ?_
    | with_reducible refine within_onlyIf fun _ => ?_
    | split
    | dsimp only)

theorem within_wmCompare {ks : List Kind} (hs : [.reg, .mem, .core, .line, .hurt, .cons, .pow, .log, .send, .draw] ⊆ ks) (peers : List WmPeer) (t : Config.BlockTable) :
    Within ks (wmCompare peers t) := by
  unfold wmCompare
  repeat' (first
    | with_reducible exact within_skip ks
    | with_reducible exact within_seqs_nil ks
    | with_reducible refine within_digestRead (List.Subset.trans (by decide) hs) _ _ _ _
    | with_reducible refine within_wmRepair (List.Subset.trans (by decide) hs) _ _ _ _
    | with_reducible refine within_seqs_cons ?_ ?_
    | with_reducible refine within_seq ?_ ?_
    | with_reducible refine within_withS fun _ => ?_
    | with_reducible refine within_onlyIf fun _ => ?_
    | with_reducible refine within_forEach fun _ _ => ?_
    | split
    | dsimp only)

theorem within_reviseLayer {ks : List Kind} (hs : [.reg, .mem, .core, .line, .hurt, .cons, .job, .pow, .log, .send, .draw] ⊆ ks) (v : Revision) :
    Within ks (reviseLayer v) := by
  unfold reviseLayer
  repeat' (first
    | with_reducible exact within_skip ks
    | with_reducible exact within_seqs_nil ks
    | with_reducible refine within_updJob (List.Subset.trans (by decide) hs) _
    | with_reducible refine within_writeBytes (List.Subset.trans (by decide) hs) _ _ _
    | with_reducible refine within_seqs_cons ?_ ?_
    | with_reducible refine within_seq ?_ ?_
    | with_reducible refine within_withS fun _ => ?_
    | with_reducible refine within_onlyIf fun _ => ?_
    | split
    | dsimp only)

theorem within_takeCheckpoint {ks : List Kind} (hs : [.reg, .core, .line, .send, .draw] ⊆ ks)  :
    Within ks (takeCheckpoint ) := by
  unfold takeCheckpoint
  repeat' (first
    | with_reducible exact within_skip ks
    | with_reducible exact within_seqs_nil ks
    | with_reducible refine within_touch (List.Subset.trans (by decide) hs) _ _ _ _
    | with_reducible refine within_seqs_cons ?_ ?_
    | with_reducible refine within_seq ?_ ?_
    | with_reducible refine within_withS fun _ => ?_
    | with_reducible refine within_forEach fun _ _ => ?_
    | with_reducible refine within_emit_cons ?_ ?_
    | with_reducible exact within_emit_nil ks
    | with_reducible refine within_emit_append ?_ ?_
    | with_reducible refine within_emit_map fun _ => ?_
    | exact kind_mem hs (by dsimp only [Eff.kind]; decide)
    | split
    | dsimp only)

theorem within_boundaryProg {ks : List Kind} (hs : [.reg, .mem, .core, .line, .dir, .hurt, .cons, .job, .mbox, .pow, .log, .send, .draw] ⊆ ks) (peers : List WmPeer) (revisions : List Revision) (work : BoundaryWork) :
    Within ks (boundaryProg peers revisions work) := by
  unfold boundaryProg
  repeat' (first
    | with_reducible exact within_skip ks
    | with_reducible exact within_seqs_nil ks
    | with_reducible refine within_reviseLayer (List.Subset.trans (by decide) hs) _
    | with_reducible refine within_stopJob (List.Subset.trans (by decide) hs)
    | with_reducible refine within_takeCheckpoint (List.Subset.trans (by decide) hs)
    | with_reducible refine within_updJob (List.Subset.trans (by decide) hs) _
    | with_reducible refine within_whenReady (List.Subset.trans (by decide) hs) _ _ ?_
    | with_reducible refine within_wmCompare (List.Subset.trans (by decide) hs) _ _
    | with_reducible refine within_seqs_cons ?_ ?_
    | with_reducible refine within_seq ?_ ?_
    | with_reducible refine within_withS fun _ => ?_
    | with_reducible refine within_onlyIf fun _ => ?_
    | with_reducible refine within_forEach fun _ _ => ?_
    | split
    | dsimp only)

theorem within_jobStartProg {ks : List Kind} (hs : [.reg, .job, .log, .send, .draw] ⊆ ks) (c : Served) :
    Within ks (jobStartProg c) := by
  unfold jobStartProg
  repeat' (first
    | with_reducible exact within_skip ks
    | with_reducible exact within_seqs_nil ks
    | with_reducible refine within_answer (List.Subset.trans (by decide) hs) _ _ _
    | with_reducible refine within_chooseAnchors (List.Subset.trans (by decide) hs)
    | with_reducible refine within_serveOk (List.Subset.trans (by decide) hs) _ _ _ ?_
    | with_reducible refine within_setF (List.Subset.trans (by decide) hs) _ _
    | with_reducible refine within_updJob (List.Subset.trans (by decide) hs) _
    | with_reducible refine within_seqs_cons ?_ ?_
    | with_reducible refine within_seq ?_ ?_
    | with_reducible refine within_withS fun _ => ?_
    | split
    | dsimp only)

theorem within_jobStopProg {ks : List Kind} (hs : [.reg, .flag, .strm, .core, .line, .job, .mbox, .log, .send, .draw] ⊆ ks) (c : Served) (m : Nat) (now : Bool) :
    Within ks (jobStopProg c m now) := by
  unfold jobStopProg
  repeat' (first
    | with_reducible exact within_skip ks
    | with_reducible exact within_seqs_nil ks
    | with_reducible refine within_answer (List.Subset.trans (by decide) hs) _ _ _
    | with_reducible refine within_releaseCommit (List.Subset.trans (by decide) hs)
    | with_reducible refine within_restoreBegin (List.Subset.trans (by decide) hs)
    | with_reducible refine within_serveOk (List.Subset.trans (by decide) hs) _ _ _ ?_
    | with_reducible refine within_setF (List.Subset.trans (by decide) hs) _ _
    | with_reducible refine within_startServed (List.Subset.trans (by decide) hs) _
    | with_reducible refine within_stopJob (List.Subset.trans (by decide) hs)
    | with_reducible refine within_updJob (List.Subset.trans (by decide) hs) _
    | with_reducible refine within_seqs_cons ?_ ?_
    | with_reducible refine within_seq ?_ ?_
    | with_reducible refine within_withS fun _ => ?_
    | with_reducible refine within_onlyIf fun _ => ?_
    | with_reducible refine within_emit_cons ?_ ?_
    | with_reducible exact within_emit_nil ks
    | with_reducible refine within_emit_append ?_ ?_
    | with_reducible refine within_emit_map fun _ => ?_
    | exact kind_mem hs (by dsimp only [Eff.kind]; decide)
    | split
    | dsimp only)

theorem within_jobUnloadProg {ks : List Kind} (hs : [.reg, .strm, .core, .fab, .port, .job, .log, .send, .draw] ⊆ ks) (c : Served) :
    Within ks (jobUnloadProg c) := by
  unfold jobUnloadProg
  repeat' (first
    | with_reducible exact within_skip ks
    | with_reducible exact within_seqs_nil ks
    | with_reducible refine within_answer (List.Subset.trans (by decide) hs) _ _ _
    | with_reducible refine within_disableProg (List.Subset.trans (by decide) hs) _
    | with_reducible refine within_releaseGroups (List.Subset.trans (by decide) hs) _
    | with_reducible refine within_serveOk (List.Subset.trans (by decide) hs) _ _ _ ?_
    | with_reducible refine within_setF (List.Subset.trans (by decide) hs) _ _
    | with_reducible refine within_setLender (List.Subset.trans (by decide) hs) _ _
    | with_reducible refine within_seqs_cons ?_ ?_
    | with_reducible refine within_seq ?_ ?_
    | with_reducible refine within_withS fun _ => ?_
    | with_reducible refine within_forEach fun _ _ => ?_
    | with_reducible refine within_emit_cons ?_ ?_
    | with_reducible exact within_emit_nil ks
    | with_reducible refine within_emit_append ?_ ?_
    | with_reducible refine within_emit_map fun _ => ?_
    | exact kind_mem hs (by dsimp only [Eff.kind]; decide)
    | split
    | dsimp only)

theorem within_setEpochProg {ks : List Kind} (hs : [.reg, .log, .send, .draw] ⊆ ks) (c : Served) :
    Within ks (setEpochProg c) := by
  unfold setEpochProg
  repeat' (first
    | with_reducible exact within_skip ks
    | with_reducible exact within_seqs_nil ks
    | with_reducible refine within_answer (List.Subset.trans (by decide) hs) _ _ _
    | with_reducible refine within_serveOk (List.Subset.trans (by decide) hs) _ _ _ ?_
    | with_reducible refine within_setEpochAll (List.Subset.trans (by decide) hs) _
    | with_reducible refine within_seqs_cons ?_ ?_
    | with_reducible refine within_seq ?_ ?_
    | with_reducible refine within_withS fun _ => ?_
    | split
    | dsimp only)

end Sys2Proof.Machine
end

