-- ==== Sys2Proof/Laws/FpRegistrar.lean ====
section
/-! SUPPORT. Footprints of the operations of Machine/Registrar.lean: the parts of the state each can change. -/

namespace Sys2Proof.Machine

theorem within_loadFirmware {ks : List Kind} (hs : [.reg, .sec, .log, .send, .draw] ⊆ ks) (c : Served) (m : Nat) :
    Within ks (loadFirmware c m) := by
  unfold loadFirmware
  repeat' (first
    | with_reducible exact within_skip ks
    | with_reducible exact within_seqs_nil ks
    | with_reducible refine within_answer (List.Subset.trans (by decide) hs) _ _ _
    | with_reducible refine within_deriveAlias (List.Subset.trans (by decide) hs)
    | with_reducible refine within_incF (List.Subset.trans (by decide) hs) _ _
    | with_reducible refine within_logEv (List.Subset.trans (by decide) hs) _ _ _ _ _ _
    | with_reducible refine within_setF (List.Subset.trans (by decide) hs) _ _
    | with_reducible refine within_setMeas (List.Subset.trans (by decide) hs) _ _
    | with_reducible refine within_startServed (List.Subset.trans (by decide) hs) _
    | with_reducible refine within_seqs_cons ?_ ?_
    | with_reducible refine within_seq ?_ ?_
    | with_reducible refine within_withS fun _ => ?_
    | with_reducible refine within_forEach fun _ _ => ?_
    | with_reducible refine within_drawFree (kind_mem hs (by decide)) fun _ => ?_
    | split
    | dsimp only)

theorem within_ownClaim {ks : List Kind} (hs : [.reg, .log, .send, .draw] ⊆ ks) (c : Served) (m : Nat) :
    Within ks (ownClaim c m) := by
  unfold ownClaim
  repeat' (first
    | with_reducible exact within_skip ks
    | with_reducible exact within_seqs_nil ks
    | with_reducible refine within_answer (List.Subset.trans (by decide) hs) _ _ _
    | with_reducible refine within_serveOk (List.Subset.trans (by decide) hs) _ _ _ ?_
    | with_reducible refine within_setF (List.Subset.trans (by decide) hs) _ _
    | with_reducible refine within_seqs_cons ?_ ?_
    | with_reducible refine within_seq ?_ ?_
    | with_reducible refine within_withS fun _ => ?_
    | with_reducible refine within_forEach fun _ _ => ?_
    | split
    | dsimp only)

theorem within_applyRepair {ks : List Kind} (hs : [.reg, .mem, .flag, .strm, .core, .line, .hurt, .cons, .port, .pow, .log, .send, .draw] ⊆ ks) (r : RepairRec) :
    Within ks (applyRepair r) := by
  unfold applyRepair
  repeat' (first
    | with_reducible exact within_skip ks
    | with_reducible exact within_seqs_nil ks
    | with_reducible refine within_adoptCore (List.Subset.trans (by decide) hs) _ _ _
    | with_reducible refine within_bankSpareProg (List.Subset.trans (by decide) hs) _ _ _ _ _
    | with_reducible refine within_controlSpareProg (List.Subset.trans (by decide) hs) _ _
    | with_reducible refine within_laneSpareProg (List.Subset.trans (by decide) hs) _ _ _ _
    | with_reducible refine within_mapLanes (List.Subset.trans (by decide) hs) _ _
    | with_reducible refine within_moduleRemoveProg (List.Subset.trans (by decide) hs) _ _ _
    | with_reducible refine within_narrow (List.Subset.trans (by decide) hs) _ _
    | with_reducible refine within_recordRepair (List.Subset.trans (by decide) hs) _
    | with_reducible refine within_rowRepairProg (List.Subset.trans (by decide) hs) _ _ _ _ _
    | with_reducible refine within_setF (List.Subset.trans (by decide) hs) _ _
    | with_reducible refine within_seqs_cons ?_ ?_
    | with_reducible refine within_seq ?_ ?_
    | with_reducible refine within_withS fun _ => ?_
    | with_reducible refine within_given fun _ => ?_
    | split
    | dsimp only)

theorem within_repairApply {ks : List Kind} (hs : [.reg, .mem, .flag, .strm, .core, .line, .hurt, .cons, .port, .pow, .log, .send, .draw] ⊆ ks) (c : Served) :
    Within ks (repairApply c) := by
  unfold repairApply
  repeat' (first
    | with_reducible exact within_skip ks
    | with_reducible exact within_seqs_nil ks
    | with_reducible refine within_answer (List.Subset.trans (by decide) hs) _ _ _
    | with_reducible refine within_applyRepair (List.Subset.trans (by decide) hs) _
    | with_reducible refine within_extendMeas (List.Subset.trans (by decide) hs) _ _
    | with_reducible refine within_serveOk (List.Subset.trans (by decide) hs) _ _ _ ?_
    | with_reducible refine within_seqs_cons ?_ ?_
    | with_reducible refine within_seq ?_ ?_
    | with_reducible refine within_withS fun _ => ?_
    | with_reducible refine within_onlyIf fun _ => ?_
    | with_reducible refine within_forEach fun _ _ => ?_
    | with_reducible refine within_drawFree (kind_mem hs (by decide)) fun _ => ?_
    | split
    | dsimp only)

theorem within_repairRead {ks : List Kind} (hs : [.reg, .log, .send, .draw] ⊆ ks) (c : Served) :
    Within ks (repairRead c) := by
  unfold repairRead
  repeat' (first
    | with_reducible exact within_skip ks
    | with_reducible exact within_seqs_nil ks
    | with_reducible refine within_serveOk (List.Subset.trans (by decide) hs) _ _ _ ?_
    | with_reducible refine within_seqs_cons ?_ ?_
    | with_reducible refine within_seq ?_ ?_
    | with_reducible refine within_withS fun _ => ?_
    | split
    | dsimp only)

theorem within_healthProg {ks : List Kind} (hs : [.reg, .log, .send, .draw] ⊆ ks) (c : Served) :
    Within ks (healthProg c) := by
  unfold healthProg
  repeat' (first
    | with_reducible exact within_skip ks
    | with_reducible exact within_seqs_nil ks
    | with_reducible refine within_serveOk (List.Subset.trans (by decide) hs) _ _ _ ?_
    | with_reducible refine within_seqs_cons ?_ ?_
    | with_reducible refine within_seq ?_ ?_
    | with_reducible refine within_withS fun _ => ?_
    | with_reducible refine within_drawFree (kind_mem hs (by decide)) fun _ => ?_
    | split
    | dsimp only)

theorem within_refuseLater {ks : List Kind} (hs : [.reg, .fab, .log] ⊆ ks) (d src acc : Nat) :
    Within ks (refuseLater d src acc) := by
  unfold refuseLater
  repeat' (first
    | with_reducible exact within_skip ks
    | with_reducible exact within_seqs_nil ks
    | with_reducible refine within_evict (List.Subset.trans (by decide) hs) _ _ _ _ _ (fun _ => ?_)
    | with_reducible refine within_setTarget (List.Subset.trans (by decide) hs) _ _ _
    | with_reducible refine within_seqs_cons ?_ ?_
    | with_reducible refine within_seq ?_ ?_
    | with_reducible refine within_withS fun _ => ?_
    | split
    | dsimp only)

theorem within_remoteQuery {ks : List Kind} (hs : [.reg, .fab, .log] ⊆ ks) (src acc : Nat) (k : List Byte → Prog) (h_k : ∀ x0, Within ks (k x0)) :
    Within ks (remoteQuery src acc k) := by
  unfold remoteQuery
  repeat' (first
    | exact h_k _
    | with_reducible exact within_skip ks
    | with_reducible exact within_seqs_nil ks
    | with_reducible refine within_refuseLater (List.Subset.trans (by decide) hs) _ _ _
    | with_reducible refine within_seqs_cons ?_ ?_
    | with_reducible refine within_seq ?_ ?_
    | with_reducible refine within_withS fun _ => ?_
    | with_reducible refine within_onlyIf fun _ => ?_
    | split
    | dsimp only)

theorem within_localQuery {ks : List Kind} (hs : [.reg, .fab, .log, .draw] ⊆ ks) (req : List Byte) (fail : Prog) (k : List Byte → Prog) (h_fail : Within ks (fail)) (h_k : ∀ x0, Within ks (k x0)) :
    Within ks (localQuery req fail k) := by
  unfold localQuery
  repeat' (first
    | exact h_fail
    | exact h_k _
    | with_reducible exact within_skip ks
    | with_reducible exact within_seqs_nil ks
    | with_reducible refine within_remoteQuery (List.Subset.trans (by decide) hs) _ _ _ (fun _ => ?_)
    | with_reducible refine within_seqs_cons ?_ ?_
    | with_reducible refine within_seq ?_ ?_
    | with_reducible refine within_withS fun _ => ?_
    | with_reducible refine within_drawFree (kind_mem hs (by decide)) fun _ => ?_
    | split
    | dsimp only)

theorem within_ledgerQuery {ks : List Kind} (hs : [.reg, .fab, .mbox, .log, .send, .draw] ⊆ ks) (c : Served) (m : Nat) :
    Within ks (ledgerQuery c m) := by
  unfold ledgerQuery
  repeat' (first
    | with_reducible exact within_skip ks
    | with_reducible exact within_seqs_nil ks
    | with_reducible refine within_answer (List.Subset.trans (by decide) hs) _ _ _
    | with_reducible refine within_incF (List.Subset.trans (by decide) hs) _ _
    | with_reducible refine within_localQuery (List.Subset.trans (by decide) hs) _ _ _ ?_ (fun _ => ?_)
    | with_reducible refine within_startServed (List.Subset.trans (by decide) hs) _
    | with_reducible refine within_seqs_cons ?_ ?_
    | with_reducible refine within_seq ?_ ?_
    | with_reducible refine within_withS fun _ => ?_
    | with_reducible refine within_emit_cons ?_ ?_
    | with_reducible exact within_emit_nil ks
    | with_reducible refine within_emit_append ?_ ?_
    | with_reducible refine within_emit_map fun _ => ?_
    | exact kind_mem hs (by dsimp only [Eff.kind]; decide)
    | split
    | dsimp only)

theorem within_fwdQueryProg {ks : List Kind} (hs : [.reg, .fab, .log, .send, .draw] ⊆ ks) (src : Nat) (req : List Byte) :
    Within ks (fwdQueryProg src req) := by
  unfold fwdQueryProg
  repeat' (first
    | with_reducible exact within_skip ks
    | with_reducible exact within_seqs_nil ks
    | with_reducible refine within_incF (List.Subset.trans (by decide) hs) _ _
    | with_reducible refine within_localQuery (List.Subset.trans (by decide) hs) _ _ _ ?_ (fun _ => ?_)
    | with_reducible refine within_seqs_cons ?_ ?_
    | with_reducible refine within_seq ?_ ?_
    | with_reducible refine within_withS fun _ => ?_
    | with_reducible refine within_onlyIf fun _ => ?_
    | with_reducible refine within_emit_cons ?_ ?_
    | with_reducible exact within_emit_nil ks
    | with_reducible refine within_emit_append ?_ ?_
    | with_reducible refine within_emit_map fun _ => ?_
    | exact kind_mem hs (by dsimp only [Eff.kind]; decide)
    | split
    | dsimp only)

theorem within_fwdEndProg {ks : List Kind} (hs : [.reg, .strm, .core, .line, .job, .mbox, .log, .send, .draw] ⊆ ks) (m : Nat) (reply : Option (List Byte)) :
    Within ks (fwdEndProg m reply) := by
  unfold fwdEndProg
  refine within_withS fun s => ?_
  have hd : ∀ n, Within ks (decisionTold n) := fun n => within_decisionTold (List.Subset.trans (by decide) hs) n
  have he : ∀ m st r, Within ks (endMailbox m st r) := fun m st r => within_endMailbox (List.Subset.trans (by decide) hs) m st r
  have hm : ∀ x, Within ks (emit [.mbox x]) := fun x => within_emit_cons (kind_mem hs (by dsimp only [Eff.kind]; decide)) (within_emit_nil ks)
  refine within_ite (hd _) (within_ite ?_ (within_onlyIf fun _ => within_seq (hm _) (within_logEv (List.Subset.trans (by decide) hs) _ _ _ _ _ _)))
  exact within_seqs_cons (hm _) (within_seqs_cons (within_ite (he _ _ _) (within_seq (within_incF (List.Subset.trans (by decide) hs) _ _)
    (he _ _ _))) (within_seqs_nil ks))

theorem within_debugUnlock {ks : List Kind} (hs : [.reg, .sec, .log, .send, .draw] ⊆ ks) (c : Served) :
    Within ks (debugUnlock c) := by
  unfold debugUnlock
  repeat' (first
    | with_reducible exact within_skip ks
    | with_reducible exact within_seqs_nil ks
    | with_reducible refine within_answer (List.Subset.trans (by decide) hs) _ _ _
    | with_reducible refine within_serveOk (List.Subset.trans (by decide) hs) _ _ _ ?_
    | with_reducible refine within_setF (List.Subset.trans (by decide) hs) _ _
    | with_reducible refine within_seqs_cons ?_ ?_
    | with_reducible refine within_seq ?_ ?_
    | with_reducible refine within_withS fun _ => ?_
    | with_reducible refine within_drawFree (kind_mem hs (by decide)) fun _ => ?_
    | with_reducible refine within_emit_cons ?_ ?_
    | with_reducible exact within_emit_nil ks
    | with_reducible refine within_emit_append ?_ ?_
    | with_reducible refine within_emit_map fun _ => ?_
    | exact kind_mem hs (by dsimp only [Eff.kind]; decide)
    | split
    | dsimp only)

theorem within_spdmAnswer {ks : List Kind} (hs : [.reg, .log, .send] ⊆ ks) (c : Served) (bs : List Byte) :
    Within ks (spdmAnswer c bs) := by
  unfold spdmAnswer
  repeat' (first
    | with_reducible exact within_skip ks
    | with_reducible exact within_seqs_nil ks
    | with_reducible refine within_answer (List.Subset.trans (by decide) hs) _ _ _
    | with_reducible refine within_seqs_cons ?_ ?_
    | with_reducible refine within_seq ?_ ?_
    | with_reducible refine within_withS fun _ => ?_
    | with_reducible refine within_emit_cons ?_ ?_
    | with_reducible exact within_emit_nil ks
    | with_reducible refine within_emit_append ?_ ?_
    | with_reducible refine within_emit_map fun _ => ?_
    | exact kind_mem hs (by dsimp only [Eff.kind]; decide)
    | split
    | dsimp only)

theorem within_setSpdm {ks : List Kind} (hs : [.sec] ⊆ ks) (n phase : Nat) :
    Within ks (setSpdm n phase) := by
  unfold setSpdm
  repeat' (first
    | with_reducible exact within_skip ks
    | with_reducible exact within_seqs_nil ks
    | with_reducible refine within_seqs_cons ?_ ?_
    | with_reducible refine within_seq ?_ ?_
    | with_reducible refine within_withS fun _ => ?_
    | with_reducible refine within_emit_cons ?_ ?_
    | with_reducible exact within_emit_nil ks
    | with_reducible refine within_emit_append ?_ ?_
    | with_reducible refine within_emit_map fun _ => ?_
    | exact kind_mem hs (by dsimp only [Eff.kind]; decide)
    | split
    | dsimp only)

theorem within_spdmServe {ks : List Kind} (hs : [.reg, .sec, .log, .send, .draw] ⊆ ks) (c : Served) :
    Within ks (spdmServe c) := by
  unfold spdmServe
  repeat' (first
    | with_reducible exact within_skip ks
    | with_reducible exact within_seqs_nil ks
    | with_reducible refine within_incF (List.Subset.trans (by decide) hs) _ _
    | with_reducible refine within_setSpdm (List.Subset.trans (by decide) hs) _ _
    | with_reducible refine within_spdmAnswer (List.Subset.trans (by decide) hs) _ _
    | with_reducible refine within_startServed (List.Subset.trans (by decide) hs) _
    | with_reducible refine within_seqs_cons ?_ ?_
    | with_reducible refine within_seq ?_ ?_
    | with_reducible refine within_withS fun _ => ?_
    | with_reducible refine within_onlyIf fun _ => ?_
    | with_reducible refine within_drawFree (kind_mem hs (by decide)) fun _ => ?_
    | split
    | dsimp only)

theorem within_flushBoth {ks : List Kind} (hs : [.reg, .line, .send, .draw] ⊆ ks)  :
    Within ks (flushBoth ) := by
  unfold flushBoth
  repeat' (first
    | with_reducible exact within_skip ks
    | with_reducible exact within_seqs_nil ks
    | with_reducible refine within_dropLine (List.Subset.trans (by decide) hs) _ _
    | with_reducible refine within_seqs_cons ?_ ?_
    | with_reducible refine within_seq ?_ ?_
    | with_reducible refine within_withS fun _ => ?_
    | with_reducible refine within_forEach fun _ _ => ?_
    | split
    | dsimp only)

theorem within_custServe {ks : List Kind} (hs : [.reg, .line, .cons, .pow, .restart, .log, .send, .draw] ⊆ ks) (c : Served) (flushOk : Option Bool) :
    Within ks (custServe c flushOk) := by
  unfold custServe
  repeat' (first
    | with_reducible exact within_skip ks
    | with_reducible exact within_seqs_nil ks
    | with_reducible refine within_flushBoth (List.Subset.trans (by decide) hs)
    | with_reducible refine within_incF (List.Subset.trans (by decide) hs) _ _
    | with_reducible refine within_packageReset (List.Subset.trans (by decide) hs) _ _
    | with_reducible refine within_serveOk (List.Subset.trans (by decide) hs) _ _ _ ?_
    | with_reducible refine within_setF (List.Subset.trans (by decide) hs) _ _
    | with_reducible refine within_updCons (List.Subset.trans (by decide) hs) _
    | with_reducible refine within_updPow (List.Subset.trans (by decide) hs) _
    | with_reducible refine within_seqs_cons ?_ ?_
    | with_reducible refine within_seq ?_ ?_
    | with_reducible refine within_withS fun _ => ?_
    | with_reducible refine within_onlyIf fun _ => ?_
    | with_reducible refine within_drawFree (kind_mem hs (by decide)) fun _ => ?_
    | with_reducible refine within_emit_cons ?_ ?_
    | with_reducible exact within_emit_nil ks
    | with_reducible refine within_emit_append ?_ ?_
    | with_reducible refine within_emit_map fun _ => ?_
    | exact kind_mem hs (by dsimp only [Eff.kind]; decide)
    | split
    | dsimp only)

theorem within_serve {ks : List Kind} (hs : [.reg, .mem, .flag, .strm, .core, .line, .vault, .hurt, .cons, .fab, .port, .job, .mbox, .sec, .pow, .restart, .log, .send, .draw] ⊆ ks) (c : Served) (m : Nat) (flushOk : Option Bool) :
    Within ks (serve c m flushOk) := by
  unfold serve
  repeat' (first
    | with_reducible exact within_skip ks
    | with_reducible exact within_seqs_nil ks
    | with_reducible refine within_answer (List.Subset.trans (by decide) hs) _ _ _
    | with_reducible refine within_custServe (List.Subset.trans (by decide) hs) _ _
    | with_reducible refine within_debugUnlock (List.Subset.trans (by decide) hs) _
    | with_reducible refine within_endOwnership (List.Subset.trans (by decide) hs)
    | with_reducible refine within_healthProg (List.Subset.trans (by decide) hs) _
    | with_reducible refine within_jobLoad (List.Subset.trans (by decide) hs) _ _ _ (fun _ => ?_)
    | with_reducible refine within_jobStartProg (List.Subset.trans (by decide) hs) _
    | with_reducible refine within_jobStopProg (List.Subset.trans (by decide) hs) _ _ _
    | with_reducible refine within_jobUnloadProg (List.Subset.trans (by decide) hs) _
    | with_reducible refine within_ledgerQuery (List.Subset.trans (by decide) hs) _ _
    | with_reducible refine within_loadFirmware (List.Subset.trans (by decide) hs) _ _
    | with_reducible refine within_ownClaim (List.Subset.trans (by decide) hs) _ _
    | with_reducible refine within_repairApply (List.Subset.trans (by decide) hs) _
    | with_reducible refine within_repairRead (List.Subset.trans (by decide) hs) _
    | with_reducible refine within_serveOk (List.Subset.trans (by decide) hs) _ _ _ ?_
    | with_reducible refine within_setEpochProg (List.Subset.trans (by decide) hs) _
    | with_reducible refine within_spdmServe (List.Subset.trans (by decide) hs) _
    | with_reducible refine within_startServed (List.Subset.trans (by decide) hs) _
    | with_reducible refine within_seqs_cons ?_ ?_
    | with_reducible refine within_seq ?_ ?_
    | with_reducible refine within_withS fun _ => ?_
    | split
    | dsimp only)

theorem within_drainWaiting {ks : List Kind} (hs : [.reg, .mem, .flag, .strm, .core, .line, .vault, .hurt, .cons, .fab, .port, .job, .mbox, .sec, .pow, .restart, .log, .send, .draw] ⊆ ks) (y0 : Nat) :
    Within ks (drainWaiting y0) := by
  induction y0 with
  | zero => exact within_skip ks
  | succ n ih =>
    unfold drainWaiting
    refine within_withS fun s => ?_
    split
    · exact within_seqs_cons (within_emit_cons (kind_mem hs (by dsimp only [Eff.kind]; decide)) (within_emit_nil ks)) (within_seqs_cons
        (within_serve (List.Subset.trans (by decide) hs) _ _ _) (within_seqs_cons ih (within_seqs_nil ks)))
    · exact within_skip ks

theorem within_thenWaiting {ks : List Kind} (hs : [.reg, .mem, .flag, .strm, .core, .line, .vault, .hurt, .cons, .fab, .port, .job, .mbox, .sec, .pow, .restart, .log, .send, .draw] ⊆ ks) (p : Prog) (h_p : Within ks (p)) :
    Within ks (thenWaiting p) := by
  unfold thenWaiting
  repeat' (first
    | exact h_p
    | with_reducible exact within_skip ks
    | with_reducible exact within_seqs_nil ks
    | with_reducible refine within_drainWaiting (List.Subset.trans (by decide) hs) _
    | with_reducible refine within_seqs_cons ?_ ?_
    | with_reducible refine within_seq ?_ ?_
    | with_reducible refine within_withS fun _ => ?_
    | split
    | dsimp only)

theorem within_fwdEnded {ks : List Kind} (hs : [.reg, .mem, .flag, .strm, .core, .line, .vault, .hurt, .cons, .fab, .port, .job, .mbox, .sec, .pow, .restart, .log, .send, .draw] ⊆ ks) (m : Nat) (reply : Option (List Byte)) :
    Within ks (fwdEnded m reply) := by
  unfold fwdEnded
  repeat' (first
    | with_reducible exact within_skip ks
    | with_reducible exact within_seqs_nil ks
    | with_reducible refine within_fwdEndProg (List.Subset.trans (by decide) hs) _ _
    | with_reducible refine within_thenWaiting (List.Subset.trans (by decide) hs) _ ?_
    | with_reducible refine within_seqs_cons ?_ ?_
    | with_reducible refine within_seq ?_ ?_
    | with_reducible refine within_withS fun _ => ?_
    | split
    | dsimp only)

theorem within_goBegin {ks : List Kind} (hs : [.reg, .mbox, .log] ⊆ ks) (m : Nat) :
    Within ks (goBegin m) := by
  unfold goBegin
  repeat' (first
    | with_reducible exact within_skip ks
    | with_reducible exact within_seqs_nil ks
    | with_reducible refine within_logEv (List.Subset.trans (by decide) hs) _ _ _ _ _ _
    | with_reducible refine within_setF (List.Subset.trans (by decide) hs) _ _
    | with_reducible refine within_setF48 (List.Subset.trans (by decide) hs) _ _ _
    | with_reducible refine within_seqs_cons ?_ ?_
    | with_reducible refine within_seq ?_ ?_
    | with_reducible refine within_withS fun _ => ?_
    | with_reducible refine within_emit_cons ?_ ?_
    | with_reducible exact within_emit_nil ks
    | with_reducible refine within_emit_append ?_ ?_
    | with_reducible refine within_emit_map fun _ => ?_
    | exact kind_mem hs (by dsimp only [Eff.kind]; decide)
    | split
    | dsimp only)

theorem within_goMailbox {ks : List Kind} (hs : [.reg, .mem, .flag, .strm, .core, .line, .vault, .hurt, .cons, .fab, .port, .job, .mbox, .sec, .pow, .restart, .log, .send, .draw] ⊆ ks) (m : Nat) (flushOk : Option Bool) :
    Within ks (goMailbox m flushOk) := by
  unfold goMailbox
  repeat' (first
    | with_reducible exact within_skip ks
    | with_reducible exact within_seqs_nil ks
    | with_reducible refine within_answer (List.Subset.trans (by decide) hs) _ _ _
    | with_reducible refine within_goBegin (List.Subset.trans (by decide) hs) _
    | with_reducible refine within_incF (List.Subset.trans (by decide) hs) _ _
    | with_reducible refine within_serve (List.Subset.trans (by decide) hs) _ _ _
    | with_reducible refine within_thenWaiting (List.Subset.trans (by decide) hs) _ ?_
    | with_reducible refine within_seqs_cons ?_ ?_
    | with_reducible refine within_seq ?_ ?_
    | with_reducible refine within_withS fun _ => ?_
    | with_reducible refine within_emit_cons ?_ ?_
    | with_reducible exact within_emit_nil ks
    | with_reducible refine within_emit_append ?_ ?_
    | with_reducible refine within_emit_map fun _ => ?_
    | exact kind_mem hs (by dsimp only [Eff.kind]; decide)
    | split
    | dsimp only)

theorem within_i3cServe {ks : List Kind} (hs : [.reg, .mem, .flag, .strm, .core, .line, .vault, .hurt, .cons, .fab, .port, .job, .mbox, .sec, .pow, .restart, .log, .send, .draw] ⊆ ks) (op tag : Nat) (req : List Byte) (flushOk : Option Bool) :
    Within ks (i3cServe op tag req flushOk) := by
  unfold i3cServe
  repeat' (first
    | with_reducible exact within_skip ks
    | with_reducible exact within_seqs_nil ks
    | with_reducible refine within_answer (List.Subset.trans (by decide) hs) _ _ _
    | with_reducible refine within_serve (List.Subset.trans (by decide) hs) _ _ _
    | with_reducible refine within_seqs_cons ?_ ?_
    | with_reducible refine within_seq ?_ ?_
    | with_reducible refine within_withS fun _ => ?_
    | split
    | dsimp only)

theorem within_onVia {ks : List Kind} (hs : [.reg, .mem, .flag, .strm, .core, .line, .vault, .hurt, .cons, .fab, .port, .job, .mbox, .sec, .pow, .restart, .log, .send, .draw] ⊆ ks) (via : Via) (op : Nat) (what : List Byte → Bool) (flushOk : Option Bool) :
    Within ks (onVia via op what flushOk) := by
  unfold onVia
  repeat' (first
    | with_reducible exact within_skip ks
    | with_reducible exact within_seqs_nil ks
    | with_reducible refine within_goMailbox (List.Subset.trans (by decide) hs) _ _
    | with_reducible refine within_i3cServe (List.Subset.trans (by decide) hs) _ _ _ _
    | with_reducible refine within_seqs_cons ?_ ?_
    | with_reducible refine within_seq ?_ ?_
    | with_reducible refine within_withS fun _ => ?_
    | with_reducible refine within_onlyIf fun _ => ?_
    | split
    | dsimp only)

theorem within_goUnassigned {ks : List Kind} (hs : [.reg, .mem, .flag, .strm, .core, .line, .vault, .hurt, .cons, .fab, .port, .job, .mbox, .sec, .pow, .restart, .log, .send, .draw] ⊆ ks) (m : Nat) (ag : Agent) :
    Within ks (goUnassigned m ag) := by
  unfold goUnassigned
  repeat' (first
    | with_reducible exact within_skip ks
    | with_reducible exact within_seqs_nil ks
    | with_reducible refine within_goMailbox (List.Subset.trans (by decide) hs) _ _
    | with_reducible refine within_winRefuse (List.Subset.trans (by decide) hs) _
    | with_reducible refine within_seqs_cons ?_ ?_
    | with_reducible refine within_seq ?_ ?_
    | with_reducible refine within_withS fun _ => ?_
    | with_reducible refine within_onlyIf fun _ => ?_
    | split
    | dsimp only)

theorem within_failMailbox {ks : List Kind} (hs : [.reg, .mbox, .log, .send] ⊆ ks) (m : Nat) :
    Within ks (failMailbox m) := by
  unfold failMailbox
  repeat' (first
    | with_reducible exact within_skip ks
    | with_reducible exact within_seqs_nil ks
    | with_reducible refine within_endMailbox (List.Subset.trans (by decide) hs) _ _ _
    | with_reducible refine within_seqs_cons ?_ ?_
    | with_reducible refine within_seq ?_ ?_
    | with_reducible refine within_withS fun _ => ?_
    | with_reducible refine within_emit_cons ?_ ?_
    | with_reducible exact within_emit_nil ks
    | with_reducible refine within_emit_append ?_ ?_
    | with_reducible refine within_emit_map fun _ => ?_
    | exact kind_mem hs (by dsimp only [Eff.kind]; decide)
    | split
    | dsimp only)

theorem within_entdaaProg {ks : List Kind} (hs : [.pow] ⊆ ks) (address : Nat) :
    Within ks (entdaaProg address) := by
  unfold entdaaProg
  repeat' (first
    | with_reducible exact within_skip ks
    | with_reducible exact within_seqs_nil ks
    | with_reducible refine within_updPow (List.Subset.trans (by decide) hs) _
    | with_reducible refine within_seqs_cons ?_ ?_
    | with_reducible refine within_seq ?_ ?_
    | with_reducible refine within_withS fun _ => ?_
    | with_reducible refine within_onlyIf fun _ => ?_
    | split
    | dsimp only)

theorem within_i3cDiscardProg {ks : List Kind} (hs : [.reg, .draw] ⊆ ks)  :
    Within ks (i3cDiscardProg ) := by
  unfold i3cDiscardProg
  repeat' (first
    | with_reducible exact within_skip ks
    | with_reducible exact within_seqs_nil ks
    | with_reducible refine within_incF (List.Subset.trans (by decide) hs) _ _
    | with_reducible refine within_setBitF (List.Subset.trans (by decide) hs) _ _ _
    | with_reducible refine within_seqs_cons ?_ ?_
    | with_reducible refine within_seq ?_ ?_
    | with_reducible refine within_withS fun _ => ?_
    | with_reducible refine within_onlyIf fun _ => ?_
    | split
    | dsimp only)

theorem within_heartbeatProg {ks : List Kind} (hs : [.reg, .pow, .draw] ⊆ ks)  :
    Within ks (heartbeatProg ) := by
  unfold heartbeatProg
  repeat' (first
    | with_reducible exact within_skip ks
    | with_reducible exact within_seqs_nil ks
    | with_reducible refine within_incF (List.Subset.trans (by decide) hs) _ _
    | with_reducible refine within_updPow (List.Subset.trans (by decide) hs) _
    | with_reducible refine within_seqs_cons ?_ ?_
    | with_reducible refine within_seq ?_ ?_
    | with_reducible refine within_withS fun _ => ?_
    | with_reducible refine within_onlyIf fun _ => ?_
    | split
    | dsimp only)

theorem within_stallProg {ks : List Kind} (hs : [.reg, .pow, .log] ⊆ ks)  :
    Within ks (stallProg ) := by
  unfold stallProg
  repeat' (first
    | with_reducible exact within_skip ks
    | with_reducible exact within_seqs_nil ks
    | with_reducible refine within_logDetect (List.Subset.trans (by decide) hs) _ _ _ _ _ _ _
    | with_reducible refine within_setBitF (List.Subset.trans (by decide) hs) _ _ _
    | with_reducible refine within_updPow (List.Subset.trans (by decide) hs) _
    | with_reducible refine within_seqs_cons ?_ ?_
    | with_reducible refine within_seq ?_ ?_
    | with_reducible refine within_withS fun _ => ?_
    | with_reducible refine within_onlyIf fun _ => ?_
    | split
    | dsimp only)

end Sys2Proof.Machine
end

