-- ==== Sys2Proof/Laws/FpRegisterWrite.lean ====
section
/-! SUPPORT. Footprints of the operations of Machine/RegisterWrite.lean: the parts of the state each can change. -/

namespace Sys2Proof.Machine

theorem within_plainWrite {ks : List Kind} (hs : [.reg] ⊆ ks) (off v : Nat) :
    Within ks (plainWrite off v) := by
  unfold plainWrite
  repeat' (first
    | with_reducible exact within_skip ks
    | with_reducible exact within_seqs_nil ks
    | with_reducible refine within_seqs_cons ?_ ?_
    | with_reducible refine within_seq ?_ ?_
    | with_reducible refine within_withS fun _ => ?_
    | with_reducible refine within_emit_cons ?_ ?_
    | with_reducible exact within_emit_nil ks
    | with_reducible refine within_emit_append ?_ ?_
    | with_reducible refine within_emit_map fun _ => ?_
    | exact kind_mem hs (by dsimp only [Eff.kind]; decide)
    | split
    | dsimp only)

theorem within_writeUnless {ks : List Kind} (hs : [.reg] ⊆ ks) (fixed : Bool) (off v : Nat) :
    Within ks (writeUnless fixed off v) := by
  unfold writeUnless
  repeat' (first
    | with_reducible exact within_skip ks
    | with_reducible exact within_seqs_nil ks
    | with_reducible refine within_plainWrite (List.Subset.trans (by decide) hs) _ _
    | with_reducible refine within_seqs_cons ?_ ?_
    | with_reducible refine within_seq ?_ ?_
    | with_reducible refine within_withS fun _ => ?_
    | with_reducible refine within_onlyIf fun _ => ?_
    | split
    | dsimp only)

theorem within_streamControl {ks : List Kind} (hs : [.reg, .strm, .core, .line, .log, .send, .draw] ⊆ ks) (sid v : Nat) :
    Within ks (streamControl sid v) := by
  unfold streamControl
  repeat' (first
    | with_reducible exact within_skip ks
    | with_reducible exact within_seqs_nil ks
    | with_reducible refine within_disableProg (List.Subset.trans (by decide) hs) _
    | with_reducible refine within_enableProg (List.Subset.trans (by decide) hs) _
    | with_reducible refine within_resetProg (List.Subset.trans (by decide) hs) _
    | with_reducible refine within_resumeProg (List.Subset.trans (by decide) hs) _ _
    | with_reducible refine within_seqs_cons ?_ ?_
    | with_reducible refine within_seq ?_ ?_
    | with_reducible refine within_withS fun _ => ?_
    | split
    | dsimp only)

theorem within_streamWord {ks : List Kind} (hs : [.reg, .strm, .core, .line, .log, .send, .draw] ⊆ ks) (sid r v : Nat) :
    Within ks (streamWord sid r v) := by
  unfold streamWord
  repeat' (first
    | with_reducible exact within_skip ks
    | with_reducible exact within_seqs_nil ks
    | with_reducible refine within_doorbellProg (List.Subset.trans (by decide) hs) _ _
    | with_reducible refine within_plainWrite (List.Subset.trans (by decide) hs) _ _
    | with_reducible refine within_streamControl (List.Subset.trans (by decide) hs) _ _
    | with_reducible refine within_writeUnless (List.Subset.trans (by decide) hs) _ _ _
    | with_reducible refine within_seqs_cons ?_ ?_
    | with_reducible refine within_seq ?_ ?_
    | with_reducible refine within_withS fun _ => ?_
    | split
    | dsimp only)

theorem within_powerWord {ks : List Kind} (hs : [.reg] ⊆ ks) (r off v : Nat) :
    Within ks (powerWord r off v) := by
  unfold powerWord
  repeat' (first
    | with_reducible exact within_skip ks
    | with_reducible exact within_seqs_nil ks
    | with_reducible refine within_plainWrite (List.Subset.trans (by decide) hs) _ _
    | with_reducible refine within_seqs_cons ?_ ?_
    | with_reducible refine within_seq ?_ ?_
    | with_reducible refine within_withS fun _ => ?_
    | split
    | dsimp only)

theorem within_securityWord {ks : List Kind} (hs : [.reg] ⊆ ks) (r off v : Nat) :
    Within ks (securityWord r off v) := by
  unfold securityWord
  repeat' (first
    | with_reducible exact within_skip ks
    | with_reducible exact within_seqs_nil ks
    | with_reducible refine within_linkMeas (List.Subset.trans (by decide) hs)
    | with_reducible refine within_plainWrite (List.Subset.trans (by decide) hs) _ _
    | with_reducible refine within_seqs_cons ?_ ?_
    | with_reducible refine within_seq ?_ ?_
    | with_reducible refine within_withS fun _ => ?_
    | with_reducible refine within_onlyIf fun _ => ?_
    | split
    | dsimp only)

theorem within_registrarWord {ks : List Kind} (hs : [.reg, .bar] ⊆ ks) (r off v : Nat) :
    Within ks (registrarWord r off v) := by
  unfold registrarWord
  repeat' (first
    | with_reducible exact within_skip ks
    | with_reducible exact within_seqs_nil ks
    | with_reducible refine within_barClearProg (List.Subset.trans (by decide) hs) _
    | with_reducible refine within_plainWrite (List.Subset.trans (by decide) hs) _ _
    | with_reducible refine within_setF (List.Subset.trans (by decide) hs) _ _
    | with_reducible refine within_writeUnless (List.Subset.trans (by decide) hs) _ _ _
    | with_reducible refine within_seqs_cons ?_ ?_
    | with_reducible refine within_seq ?_ ?_
    | with_reducible refine within_withS fun _ => ?_
    | with_reducible refine within_onlyIf fun _ => ?_
    | split
    | dsimp only)

theorem within_conservatorWord {ks : List Kind} (hs : [.reg, .mem, .flag, .strm, .core, .line, .vault, .hurt, .cons, .fab, .port, .job, .mbox, .sec, .pow, .restart, .log, .send, .draw] ⊆ ks) (r off v : Nat) :
    Within ks (conservatorWord r off v) := by
  unfold conservatorWord
  repeat' (first
    | with_reducible exact within_skip ks
    | with_reducible exact within_seqs_nil ks
    | with_reducible refine within_failMailbox (List.Subset.trans (by decide) hs) _
    | with_reducible refine within_injArmProg (List.Subset.trans (by decide) hs) _ (fun _ => ?_)
    | with_reducible refine within_plainWrite (List.Subset.trans (by decide) hs) _ _
    | with_reducible refine within_replaceGoProg (List.Subset.trans (by decide) hs) _
    | with_reducible refine within_thenWaiting (List.Subset.trans (by decide) hs) _ ?_
    | with_reducible refine within_seqs_cons ?_ ?_
    | with_reducible refine within_seq ?_ ?_
    | with_reducible refine within_withS fun _ => ?_
    | with_reducible refine within_onlyIf fun _ => ?_
    | split
    | dsimp only)

theorem within_transportWord {ks : List Kind} (hs : [.reg, .sq] ⊆ ks) (ag : Agent) (r off v : Nat) :
    Within ks (transportWord ag r off v) := by
  unfold transportWord
  repeat' (first
    | with_reducible exact within_skip ks
    | with_reducible exact within_seqs_nil ks
    | with_reducible refine within_endOwnership (List.Subset.trans (by decide) hs)
    | with_reducible refine within_plainWrite (List.Subset.trans (by decide) hs) _ _
    | with_reducible refine within_sqControlProg (List.Subset.trans (by decide) hs) _ _
    | with_reducible refine within_writeUnless (List.Subset.trans (by decide) hs) _ _ _
    | with_reducible refine within_seqs_cons ?_ ?_
    | with_reducible refine within_seq ?_ ?_
    | with_reducible refine within_withS fun _ => ?_
    | with_reducible refine within_onlyIf fun _ => ?_
    | split
    | dsimp only)

theorem within_mailboxWord {ks : List Kind} (hs : [.reg, .mem, .flag, .strm, .core, .line, .vault, .hurt, .cons, .fab, .port, .job, .mbox, .sec, .pow, .restart, .log, .send, .draw] ⊆ ks) (m r off v : Nat) :
    Within ks (mailboxWord m r off v) := by
  unfold mailboxWord
  repeat' (first
    | with_reducible exact within_skip ks
    | with_reducible exact within_seqs_nil ks
    | with_reducible refine within_goMailbox (List.Subset.trans (by decide) hs) _ _
    | with_reducible refine within_incF (List.Subset.trans (by decide) hs) _ _
    | with_reducible refine within_plainWrite (List.Subset.trans (by decide) hs) _ _
    | with_reducible refine within_seqs_cons ?_ ?_
    | with_reducible refine within_seq ?_ ?_
    | with_reducible refine within_withS fun _ => ?_
    | with_reducible refine within_onlyIf fun _ => ?_
    | split
    | dsimp only)

theorem within_collectivesWord {ks : List Kind} (hs : [.reg] ⊆ ks) (r off v : Nat) :
    Within ks (collectivesWord r off v) := by
  unfold collectivesWord
  repeat' (first
    | with_reducible exact within_skip ks
    | with_reducible exact within_seqs_nil ks
    | with_reducible refine within_plainWrite (List.Subset.trans (by decide) hs) _ _
    | with_reducible refine within_stepOkProg (List.Subset.trans (by decide) hs) _
    | with_reducible refine within_seqs_cons ?_ ?_
    | with_reducible refine within_seq ?_ ?_
    | with_reducible refine within_withS fun _ => ?_
    | split
    | dsimp only)

theorem within_groupWord {ks : List Kind} (hs : [.reg, .fab, .port, .send, .draw] ⊆ ks) (g r off v : Nat) :
    Within ks (groupWord g r off v) := by
  unfold groupWord
  repeat' (first
    | with_reducible exact within_skip ks
    | with_reducible exact within_seqs_nil ks
    | with_reducible refine within_groupCreateProg (List.Subset.trans (by decide) hs) _
    | with_reducible refine within_groupReleaseProg (List.Subset.trans (by decide) hs) _
    | with_reducible refine within_nextSeqProg (List.Subset.trans (by decide) hs) _ _
    | with_reducible refine within_plainWrite (List.Subset.trans (by decide) hs) _ _
    | with_reducible refine within_writeUnless (List.Subset.trans (by decide) hs) _ _ _
    | with_reducible refine within_seqs_cons ?_ ?_
    | with_reducible refine within_seq ?_ ?_
    | with_reducible refine within_withS fun _ => ?_
    | split
    | dsimp only)

theorem within_poolSize {ks : List Kind} (hs : [.reg, .port, .send, .draw] ⊆ ks) (p v : Nat) :
    Within ks (poolSize p v) := by
  unfold poolSize
  repeat' (first
    | with_reducible exact within_skip ks
    | with_reducible exact within_seqs_nil ks
    | with_reducible refine within_setF (List.Subset.trans (by decide) hs) _ _
    | with_reducible refine within_setUsed (List.Subset.trans (by decide) hs) _ _
    | with_reducible refine within_seqs_cons ?_ ?_
    | with_reducible refine within_seq ?_ ?_
    | with_reducible refine within_withS fun _ => ?_
    | with_reducible refine within_onlyIf fun _ => ?_
    | split
    | dsimp only)

theorem within_fabricWord {ks : List Kind} (hs : [.reg, .mem, .flag, .strm, .core, .line, .dir, .vault, .hurt, .cons, .fab, .port, .pow, .log, .send, .draw] ⊆ ks) (r off v : Nat) :
    Within ks (fabricWord r off v) := by
  unfold fabricWord
  repeat' (first
    | with_reducible exact within_skip ks
    | with_reducible exact within_seqs_nil ks
    | with_reducible refine within_fabricEnProg (List.Subset.trans (by decide) hs) _
    | with_reducible refine within_plainWrite (List.Subset.trans (by decide) hs) _ _
    | with_reducible refine within_reissueProg (List.Subset.trans (by decide) hs)
    | with_reducible refine within_resyncGoProg (List.Subset.trans (by decide) hs) _
    | with_reducible refine within_writeUnless (List.Subset.trans (by decide) hs) _ _ _
    | with_reducible refine within_seqs_cons ?_ ?_
    | with_reducible refine within_seq ?_ ?_
    | with_reducible refine within_withS fun _ => ?_
    | with_reducible refine within_onlyIf fun _ => ?_
    | split
    | dsimp only)

theorem within_portWord {ks : List Kind} (hs : [.reg, .cons, .fab, .port, .pow, .log, .send, .draw] ⊆ ks) (p r off v : Nat) :
    Within ks (portWord p r off v) := by
  unfold portWord
  repeat' (first
    | with_reducible exact within_skip ks
    | with_reducible exact within_seqs_nil ks
    | with_reducible refine within_plainWrite (List.Subset.trans (by decide) hs) _ _
    | with_reducible refine within_portEnableProg (List.Subset.trans (by decide) hs) _ _
    | with_reducible refine within_portRow (List.Subset.trans (by decide) hs) _ _ ?_
    | with_reducible refine within_retrainProg (List.Subset.trans (by decide) hs) _
    | with_reducible refine within_seqs_cons ?_ ?_
    | with_reducible refine within_seq ?_ ?_
    | with_reducible refine within_withS fun _ => ?_
    | with_reducible refine within_onlyIf fun _ => ?_
    | split
    | dsimp only)

theorem within_vaultWord {ks : List Kind} (hs : [.reg, .mem, .line, .vault, .hurt, .send, .draw] ⊆ ks) (d r off v : Nat) :
    Within ks (vaultWord d r off v) := by
  unfold vaultWord
  repeat' (first
    | with_reducible exact within_skip ks
    | with_reducible exact within_seqs_nil ks
    | with_reducible refine within_flushProg (List.Subset.trans (by decide) hs) _ _
    | with_reducible refine within_pageAttrProg (List.Subset.trans (by decide) hs) _ _ _
    | with_reducible refine within_partitionProg (List.Subset.trans (by decide) hs) _ _
    | with_reducible refine within_plainWrite (List.Subset.trans (by decide) hs) _ _
    | with_reducible refine within_setF (List.Subset.trans (by decide) hs) _ _
    | with_reducible refine within_seqs_cons ?_ ?_
    | with_reducible refine within_seq ?_ ?_
    | with_reducible refine within_withS fun _ => ?_
    | with_reducible refine within_onlyIf fun _ => ?_
    | split
    | dsimp only)

theorem within_coreWord {ks : List Kind} (hs : [.reg, .strm, .core, .line, .log, .send, .draw] ⊆ ks) (n r off v : Nat) :
    Within ks (coreWord n r off v) := by
  unfold coreWord
  repeat' (first
    | with_reducible exact within_skip ks
    | with_reducible exact within_seqs_nil ks
    | with_reducible refine within_plainWrite (List.Subset.trans (by decide) hs) _ _
    | with_reducible refine within_streamWord (List.Subset.trans (by decide) hs) _ _ _
    | with_reducible refine within_seqs_cons ?_ ?_
    | with_reducible refine within_seq ?_ ?_
    | with_reducible refine within_withS fun _ => ?_
    | split
    | dsimp only)

theorem within_arrayWord {ks : List Kind} (hs : [.reg, .core] ⊆ ks) (n r off v : Nat) :
    Within ks (arrayWord n r off v) := by
  unfold arrayWord
  repeat' (first
    | with_reducible exact within_skip ks
    | with_reducible exact within_seqs_nil ks
    | with_reducible refine within_arrCntClearProg (List.Subset.trans (by decide) hs) _
    | with_reducible refine within_plainWrite (List.Subset.trans (by decide) hs) _ _
    | with_reducible refine within_seqs_cons ?_ ?_
    | with_reducible refine within_seq ?_ ?_
    | with_reducible refine within_withS fun _ => ?_
    | with_reducible refine within_onlyIf fun _ => ?_
    | split
    | dsimp only)

theorem within_wordWrite {ks : List Kind} (hs : [.reg, .mem, .flag, .strm, .core, .bar, .line, .dir, .vault, .hurt, .cons, .fab, .port, .job, .mbox, .sq, .sec, .pow, .restart, .log, .send, .draw] ⊆ ks) (ag : Agent) (off v : Nat) :
    Within ks (wordWrite ag off v) := by
  unfold wordWrite
  repeat' (first
    | with_reducible exact within_skip ks
    | with_reducible exact within_seqs_nil ks
    | with_reducible refine within_arrayWord (List.Subset.trans (by decide) hs) _ _ _ _
    | with_reducible refine within_btrCntClearProg (List.Subset.trans (by decide) hs) _
    | with_reducible refine within_collectivesWord (List.Subset.trans (by decide) hs) _ _ _
    | with_reducible refine within_conservatorWord (List.Subset.trans (by decide) hs) _ _ _
    | with_reducible refine within_coreWord (List.Subset.trans (by decide) hs) _ _ _ _
    | with_reducible refine within_cqHeadProg (List.Subset.trans (by decide) hs) _ _
    | with_reducible refine within_curClearProg (List.Subset.trans (by decide) hs)
    | with_reducible refine within_fabricWord (List.Subset.trans (by decide) hs) _ _ _
    | with_reducible refine within_groupWord (List.Subset.trans (by decide) hs) _ _ _ _
    | with_reducible refine within_hbmClearProg (List.Subset.trans (by decide) hs) _
    | with_reducible refine within_imWrite (List.Subset.trans (by decide) hs) _ _
    | with_reducible refine within_lfsrSeedProg (List.Subset.trans (by decide) hs) _ _ _
    | with_reducible refine within_mailboxWord (List.Subset.trans (by decide) hs) _ _ _ _
    | with_reducible refine within_plainWrite (List.Subset.trans (by decide) hs) _ _
    | with_reducible refine within_poolSize (List.Subset.trans (by decide) hs) _ _
    | with_reducible refine within_portWord (List.Subset.trans (by decide) hs) _ _ _ _
    | with_reducible refine within_powerWord (List.Subset.trans (by decide) hs) _ _ _
    | with_reducible refine within_registrarWord (List.Subset.trans (by decide) hs) _ _ _
    | with_reducible refine within_securityWord (List.Subset.trans (by decide) hs) _ _ _
    | with_reducible refine within_setF (List.Subset.trans (by decide) hs) _ _
    | with_reducible refine within_sqTailProg (List.Subset.trans (by decide) hs) _ _
    | with_reducible refine within_streamWord (List.Subset.trans (by decide) hs) _ _ _
    | with_reducible refine within_transportWord (List.Subset.trans (by decide) hs) _ _ _ _
    | with_reducible refine within_vaultWord (List.Subset.trans (by decide) hs) _ _ _ _
    | with_reducible refine within_seqs_cons ?_ ?_
    | with_reducible refine within_seq ?_ ?_
    | with_reducible refine within_withS fun _ => ?_
    | with_reducible refine within_onlyIf fun _ => ?_
    | split
    | dsimp only)

theorem within_writeWords {ks : List Kind} (hs : [.reg, .mem, .flag, .strm, .core, .bar, .line, .dir, .vault, .hurt, .cons, .fab, .port, .job, .mbox, .sq, .sec, .pow, .restart, .log, .send, .draw] ⊆ ks) (ag : Agent) (off size v : Nat) :
    Within ks (writeWords ag off size v) := by
  unfold writeWords
  repeat' (first
    | with_reducible exact within_skip ks
    | with_reducible exact within_seqs_nil ks
    | with_reducible refine within_wordWrite (List.Subset.trans (by decide) hs) _ _ _
    | with_reducible refine within_seqs_cons ?_ ?_
    | with_reducible refine within_seq ?_ ?_
    | with_reducible refine within_withS fun _ => ?_
    | with_reducible refine within_forEach fun _ _ => ?_
    | split
    | dsimp only)

theorem within_ungateBlock {ks : List Kind} (hs : [.core] ⊆ ks) (off : Nat) :
    Within ks (ungateBlock off) := by
  unfold ungateBlock
  repeat' (first
    | with_reducible exact within_skip ks
    | with_reducible exact within_seqs_nil ks
    | with_reducible refine within_ungate (List.Subset.trans (by decide) hs) _
    | with_reducible refine within_seqs_cons ?_ ?_
    | with_reducible refine within_seq ?_ ?_
    | with_reducible refine within_withS fun _ => ?_
    | split
    | dsimp only)

theorem within_registerWriteProg {ks : List Kind} (hs : [.reg, .mem, .flag, .strm, .core, .bar, .line, .dir, .vault, .hurt, .cons, .fab, .port, .job, .mbox, .sq, .sec, .pow, .restart, .log, .send, .draw] ⊆ ks) (ag : Agent) (off size v : Nat) :
    Within ks (registerWriteProg ag off size v) := by
  unfold registerWriteProg
  repeat' (first
    | with_reducible exact within_skip ks
    | with_reducible exact within_seqs_nil ks
    | with_reducible refine within_reply (List.Subset.trans (by decide) hs) _ _ _ _
    | with_reducible refine within_ungateBlock (List.Subset.trans (by decide) hs) _
    | with_reducible refine within_winRefuse (List.Subset.trans (by decide) hs) _
    | with_reducible refine within_writeWords (List.Subset.trans (by decide) hs) _ _ _ _
    | with_reducible refine within_seqs_cons ?_ ?_
    | with_reducible refine within_seq ?_ ?_
    | with_reducible refine within_withS fun _ => ?_
    | with_reducible refine within_onlyIf fun _ => ?_
    | split
    | dsimp only)

theorem within_runClocks {ks : List Kind} (hs : [.reg, .draw] ⊆ ks) (off len : Nat) :
    Within ks (runClocks off len) := by
  unfold runClocks
  repeat' (first
    | with_reducible exact within_skip ks
    | with_reducible exact within_seqs_nil ks
    | with_reducible refine within_timed (List.Subset.trans (by decide) hs) _
    | with_reducible refine within_seqs_cons ?_ ?_
    | with_reducible refine within_seq ?_ ?_
    | with_reducible refine within_withS fun _ => ?_
    | with_reducible refine within_forEach fun _ _ => ?_
    | split
    | dsimp only)

theorem within_clearRead {ks : List Kind} (hs : [.reg] ⊆ ks) (off : Nat) :
    Within ks (clearRead off) := by
  unfold clearRead
  repeat' (first
    | with_reducible exact within_skip ks
    | with_reducible exact within_seqs_nil ks
    | with_reducible refine within_seqs_cons ?_ ?_
    | with_reducible refine within_seq ?_ ?_
    | with_reducible refine within_withS fun _ => ?_
    | with_reducible refine within_onlyIf fun _ => ?_
    | with_reducible refine within_emit_cons ?_ ?_
    | with_reducible exact within_emit_nil ks
    | with_reducible refine within_emit_append ?_ ?_
    | with_reducible refine within_emit_map fun _ => ?_
    | exact kind_mem hs (by dsimp only [Eff.kind]; decide)
    | split
    | dsimp only)

theorem within_registerReadProg {ks : List Kind} (hs : [.reg, .core, .send, .draw] ⊆ ks) (ag : Agent) (off size : Nat) :
    Within ks (registerReadProg ag off size) := by
  unfold registerReadProg
  repeat' (first
    | with_reducible exact within_skip ks
    | with_reducible exact within_seqs_nil ks
    | with_reducible refine within_clearRead (List.Subset.trans (by decide) hs) _
    | with_reducible refine within_reply (List.Subset.trans (by decide) hs) _ _ _ _
    | with_reducible refine within_runClocks (List.Subset.trans (by decide) hs) _ _
    | with_reducible refine within_ungateBlock (List.Subset.trans (by decide) hs) _
    | with_reducible refine within_winRefuse (List.Subset.trans (by decide) hs) _
    | with_reducible refine within_seqs_cons ?_ ?_
    | with_reducible refine within_seq ?_ ?_
    | with_reducible refine within_withS fun _ => ?_
    | with_reducible refine within_forEach fun _ _ => ?_
    | split
    | dsimp only)

theorem within_clocksAt {ks : List Kind} (hs : [.reg, .draw] ⊆ ks) (a len : Nat) :
    Within ks (clocksAt a len) := by
  unfold clocksAt
  repeat' (first
    | with_reducible exact within_skip ks
    | with_reducible exact within_seqs_nil ks
    | with_reducible refine within_runClocks (List.Subset.trans (by decide) hs) _ _
    | with_reducible refine within_seqs_cons ?_ ?_
    | with_reducible refine within_seq ?_ ?_
    | with_reducible refine within_withS fun _ => ?_
    | split
    | dsimp only)

theorem within_readEffects {ks : List Kind} (hs : [.reg, .core, .line, .send, .draw] ⊆ ks) (who : Requester) (a len : Nat) :
    Within ks (readEffects who a len) := by
  unfold readEffects
  repeat' (first
    | with_reducible exact within_skip ks
    | with_reducible exact within_seqs_nil ks
    | with_reducible refine within_clearRead (List.Subset.trans (by decide) hs) _
    | with_reducible refine within_touch (List.Subset.trans (by decide) hs) _ _ _ _
    | with_reducible refine within_seqs_cons ?_ ?_
    | with_reducible refine within_seq ?_ ?_
    | with_reducible refine within_withS fun _ => ?_
    | with_reducible refine within_forEach fun _ _ => ?_
    | split
    | dsimp only)

theorem within_writeAny {ks : List Kind} (hs : [.reg, .mem, .flag, .strm, .core, .bar, .line, .dir, .vault, .hurt, .cons, .fab, .port, .job, .mbox, .sq, .sec, .pow, .restart, .log, .send, .draw] ⊆ ks) (who : Requester) (ag : Agent) (a : Nat) (bs : List Byte) :
    Within ks (writeAny who ag a bs) := by
  unfold writeAny
  repeat' (first
    | with_reducible exact within_skip ks
    | with_reducible exact within_seqs_nil ks
    | with_reducible refine within_flagOp (List.Subset.trans (by decide) hs) _ _ _ _ _
    | with_reducible refine within_wordWrite (List.Subset.trans (by decide) hs) _ _ _
    | with_reducible refine within_writeBytes (List.Subset.trans (by decide) hs) _ _ _
    | with_reducible refine within_seqs_cons ?_ ?_
    | with_reducible refine within_seq ?_ ?_
    | with_reducible refine within_withS fun _ => ?_
    | with_reducible refine within_forEach fun _ _ => ?_
    | split
    | dsimp only)

theorem within_debugProg {ks : List Kind} (hs : [.reg, .mem, .flag, .strm, .core, .bar, .line, .dir, .vault, .hurt, .cons, .fab, .port, .job, .mbox, .sq, .sec, .pow, .restart, .log, .send, .draw] ⊆ ks) (a : DebugAccess) :
    Within ks (debugProg a) := by
  unfold debugProg
  repeat' (first
    | with_reducible exact within_skip ks
    | with_reducible exact within_seqs_nil ks
    | with_reducible refine within_clocksAt (List.Subset.trans (by decide) hs) _ _
    | with_reducible refine within_orHeld (List.Subset.trans (by decide) hs) _ _ _ _ ?_
    | with_reducible refine within_readEffects (List.Subset.trans (by decide) hs) _ _ _
    | with_reducible refine within_reply (List.Subset.trans (by decide) hs) _ _ _ _
    | with_reducible refine within_writeAny (List.Subset.trans (by decide) hs) _ _ _ _
    | with_reducible refine within_seqs_cons ?_ ?_
    | with_reducible refine within_seq ?_ ?_
    | with_reducible refine within_withS fun _ => ?_
    | with_reducible refine within_onlyIf fun _ => ?_
    | with_reducible refine within_drawFree (kind_mem hs (by decide)) fun _ => ?_
    | with_reducible refine within_emit_cons ?_ ?_
    | with_reducible exact within_emit_nil ks
    | with_reducible refine within_emit_append ?_ ?_
    | with_reducible refine within_emit_map fun _ => ?_
    | exact kind_mem hs (by dsimp only [Eff.kind]; decide)
    | split
    | dsimp only)

end Sys2Proof.Machine
end

