-- ==== Sys2Proof/Laws/FpTransfers.lean ====
section
/-! SUPPORT. Footprints of the operations of Machine/Transfers.lean: the parts of the state each can change. -/

namespace Sys2Proof.Machine

theorem within_localCopy {ks : List Kind} (hs : [.reg, .mem, .flag, .strm, .core, .bar, .line, .dir, .vault, .hurt, .cons, .fab, .port, .job, .mbox, .sq, .sec, .pow, .restart, .log, .send, .draw] ⊆ ks) (sid : Nat) (c : Cmd) (src dst len : Nat) :
    Within ks (localCopy sid c src dst len) := by
  unfold localCopy
  repeat' (first
    | with_reducible exact within_skip ks
    | with_reducible exact within_seqs_nil ks
    | with_reducible refine within_checked (List.Subset.trans (by decide) hs) _ _ _ _ ?_
    | with_reducible refine within_clocksAt (List.Subset.trans (by decide) hs) _ _
    | with_reducible refine within_markCmd (List.Subset.trans (by decide) hs) _ _ _
    | with_reducible refine within_readEffects (List.Subset.trans (by decide) hs) _ _ _
    | with_reducible refine within_runOk (List.Subset.trans (by decide) hs) _ _ _ ?_
    | with_reducible refine within_whenReady (List.Subset.trans (by decide) hs) _ _ ?_
    | with_reducible refine within_writeAny (List.Subset.trans (by decide) hs) _ _ _ _
    | with_reducible refine within_seqs_cons ?_ ?_
    | with_reducible refine within_seq ?_ ?_
    | with_reducible refine within_withS fun _ => ?_
    | with_reducible refine within_forEach fun _ _ => ?_
    | split
    | dsimp only)

theorem within_dmaBusy {ks : List Kind} (hs : [.reg, .draw] ⊆ ks) (sid : Nat) :
    Within ks (dmaBusy sid) := by
  unfold dmaBusy
  repeat' (first
    | with_reducible exact within_skip ks
    | with_reducible exact within_seqs_nil ks
    | with_reducible refine within_timed (List.Subset.trans (by decide) hs) _
    | with_reducible refine within_seqs_cons ?_ ?_
    | with_reducible refine within_seq ?_ ?_
    | with_reducible refine within_withS fun _ => ?_
    | with_reducible refine within_given fun _ => ?_
    | split
    | dsimp only)

theorem within_onDma {ks : List Kind} (hs : [.reg, .draw] ⊆ ks) (sid acc op : Nat) (k : Cmd → Prog) (h_k : ∀ x0, Within ks (k x0)) :
    Within ks (onDma sid acc op k) := by
  unfold onDma
  repeat' (first
    | exact h_k _
    | with_reducible exact within_skip ks
    | with_reducible exact within_seqs_nil ks
    | with_reducible refine within_dmaBusy (List.Subset.trans (by decide) hs) _
    | with_reducible refine within_onIssued (List.Subset.trans (by decide) hs) _ _ _ _ _ (fun _ => ?_)
    | with_reducible refine within_seqs_cons ?_ ?_
    | with_reducible refine within_seq ?_ ?_
    | with_reducible refine within_withS fun _ => ?_
    | split
    | dsimp only)

theorem within_submit {ks : List Kind} (hs : [.reg, .strm, .cons, .fab, .port, .pow, .log, .send, .draw] ⊆ ks) (sid : Nat) (c : Cmd) (r : Packet × Option Nat × Nat) (posted : Bool) :
    Within ks (submit sid c r posted) := by
  unfold submit
  repeat' (first
    | with_reducible exact within_skip ks
    | with_reducible exact within_seqs_nil ks
    | with_reducible refine within_sendPacket (List.Subset.trans (by decide) hs) _
    | with_reducible refine within_setF (List.Subset.trans (by decide) hs) _ _
    | with_reducible refine within_setF48 (List.Subset.trans (by decide) hs) _ _ _
    | with_reducible refine within_takeCells (List.Subset.trans (by decide) hs) _ _
    | with_reducible refine within_updCmd (List.Subset.trans (by decide) hs) _ _ _
    | with_reducible refine within_updFab (List.Subset.trans (by decide) hs) _
    | with_reducible refine within_seqs_cons ?_ ?_
    | with_reducible refine within_seq ?_ ?_
    | with_reducible refine within_withS fun _ => ?_
    | split
    | dsimp only)

theorem within_forgetReqs {ks : List Kind} (hs : [.fab] ⊆ ks) (sid acc : Nat) :
    Within ks (forgetReqs sid acc) := by
  unfold forgetReqs
  repeat' (first
    | with_reducible exact within_skip ks
    | with_reducible exact within_seqs_nil ks
    | with_reducible refine within_updFab (List.Subset.trans (by decide) hs) _
    | with_reducible refine within_seqs_cons ?_ ?_
    | with_reducible refine within_seq ?_ ?_
    | with_reducible refine within_withS fun _ => ?_
    | split
    | dsimp only)

theorem within_abandonRest {ks : List Kind} (hs : [.reg, .mem, .flag, .strm, .core, .bar, .line, .dir, .vault, .hurt, .cons, .fab, .port, .job, .mbox, .sq, .sec, .pow, .restart, .log, .send, .draw] ⊆ ks) (sid : Nat) (c : Cmd) (st : Status) (unreachable : Bool) :
    Within ks (abandonRest sid c st unreachable) := by
  unfold abandonRest
  repeat' (first
    | with_reducible exact within_skip ks
    | with_reducible exact within_seqs_nil ks
    | with_reducible refine within_incF (List.Subset.trans (by decide) hs) _ _
    | with_reducible refine within_markBroken (List.Subset.trans (by decide) hs) _ _
    | with_reducible refine within_updCmd (List.Subset.trans (by decide) hs) _ _ _
    | with_reducible refine within_writeAny (List.Subset.trans (by decide) hs) _ _ _ _
    | with_reducible refine within_seqs_cons ?_ ?_
    | with_reducible refine within_seq ?_ ?_
    | with_reducible refine within_withS fun _ => ?_
    | with_reducible refine within_onlyIf fun _ => ?_
    | with_reducible refine within_given fun _ => ?_
    | split
    | dsimp only)

theorem within_inject {ks : List Kind} (hs : [.reg, .mem, .flag, .strm, .core, .bar, .line, .dir, .vault, .hurt, .cons, .fab, .port, .job, .mbox, .sq, .sec, .pow, .restart, .log, .send, .draw] ⊆ ks) (sid acc : Nat) (y0 : Nat) :
    Within ks (inject sid acc y0) := by
  induction y0 with
  | zero => exact within_skip ks
  | succ n ih =>
    unfold inject
    refine within_withS fun s => within_given fun c => ?_
    dsimp only
    refine within_ite (within_skip ks) ?_
    generalize s.brokenFor _ = x
    cases x with
    | some st => exact within_abandonRest (List.Subset.trans (by decide) hs) _ _ _ _
    | none =>
      refine within_ite (within_abandonRest (List.Subset.trans (by decide) hs) _ _ _ _) (within_ite (within_skip ks) ?_)
      exact within_seqs_cons (within_submit (List.Subset.trans (by decide) hs) _ _ _ _) (within_seqs_cons (within_onlyIf fun _ =>
        within_readEffects (List.Subset.trans (by decide) hs) _ _ _) (within_seqs_cons ih (within_seqs_nil ks)))

theorem within_finishDma {ks : List Kind} (hs : [.reg, .flag, .strm, .core, .line, .fab, .log, .send, .draw] ⊆ ks) (sid acc : Nat) :
    Within ks (finishDma sid acc) := by
  unfold finishDma
  repeat' (first
    | with_reducible exact within_skip ks
    | with_reducible exact within_seqs_nil ks
    | with_reducible refine within_endCmd (List.Subset.trans (by decide) hs) _ _ _ _
    | with_reducible refine within_forgetReqs (List.Subset.trans (by decide) hs) _ _
    | with_reducible refine within_seqs_cons ?_ ?_
    | with_reducible refine within_seq ?_ ?_
    | with_reducible refine within_withS fun _ => ?_
    | with_reducible refine within_onlyIf fun _ => ?_
    | with_reducible refine within_given fun _ => ?_
    | split
    | dsimp only)

theorem within_askLine {ks : List Kind} (hs : [.fab, .send] ⊆ ks) (kind : CohKind) (die fpa : Nat) :
    Within ks (askLine kind die fpa) := by
  unfold askLine
  repeat' (first
    | with_reducible exact within_skip ks
    | with_reducible exact within_seqs_nil ks
    | with_reducible refine within_updFab (List.Subset.trans (by decide) hs) _
    | with_reducible refine within_seqs_cons ?_ ?_
    | with_reducible refine within_seq ?_ ?_
    | with_reducible refine within_withS fun _ => ?_
    | with_reducible refine within_onlyIf fun _ => ?_
    | with_reducible refine within_emit_cons ?_ ?_
    | with_reducible exact within_emit_nil ks
    | with_reducible refine within_emit_append ?_ ?_
    | with_reducible refine within_emit_map fun _ => ?_
    | exact kind_mem hs (by dsimp only [Eff.kind]; decide)
    | split
    | dsimp only)

theorem within_movePiece {ks : List Kind} (hs : [.reg, .mem, .flag, .strm, .core, .bar, .line, .dir, .vault, .hurt, .cons, .fab, .port, .job, .mbox, .sq, .sec, .pow, .restart, .log, .send, .draw] ⊆ ks) (sid : Nat) (out : Bool) (near len key o : Nat) (x : CLine) :
    Within ks (movePiece sid out near len key o x) := by
  unfold movePiece
  repeat' (first
    | with_reducible exact within_skip ks
    | with_reducible exact within_seqs_nil ks
    | with_reducible refine within_readEffects (List.Subset.trans (by decide) hs) _ _ _
    | with_reducible refine within_writeAny (List.Subset.trans (by decide) hs) _ _ _ _
    | with_reducible refine within_seqs_cons ?_ ?_
    | with_reducible refine within_seq ?_ ?_
    | with_reducible refine within_withS fun _ => ?_
    | with_reducible refine within_emit_cons ?_ ?_
    | with_reducible exact within_emit_nil ks
    | with_reducible refine within_emit_append ?_ ?_
    | with_reducible refine within_emit_map fun _ => ?_
    | exact kind_mem hs (by dsimp only [Eff.kind]; decide)
    | split
    | dsimp only)

theorem within_runCached {ks : List Kind} (hs : [.reg, .mem, .flag, .strm, .core, .bar, .line, .dir, .vault, .hurt, .cons, .fab, .port, .job, .mbox, .sq, .sec, .pow, .restart, .log, .send, .draw] ⊆ ks) (sid acc : Nat) (y0 : Nat) :
    Within ks (runCached sid acc y0) := by
  induction y0 with
  | zero => exact within_skip ks
  | succ n ih =>
    unfold runCached
    refine within_withS fun s => within_given fun c => ?_
    have he : ∀ st, Within ks (endCmd sid c st) := fun st => within_endCmd (List.Subset.trans (by decide) hs) _ _ _ _
    have ha : ∀ k d a, Within ks (askLine k d a) := fun k d a => within_askLine (List.Subset.trans (by decide) hs) k d a
    dsimp only
    refine within_ite (he _) (within_ite (within_skip ks) ?_)
    generalize nget s.cache _ = x
    cases x with
    | none => exact ha _ _ _
    | some x =>
      refine within_ite (ha _ _ _) ?_
      generalize Option.or _ _ = y
      cases y with
      | some st => exact he st
      | none => exact within_whenReady (List.Subset.trans (by decide) hs) _ _ (within_seqs_cons
          (within_movePiece (List.Subset.trans (by decide) hs) _ _ _ _ _ _ _) (within_seqs_cons
          (within_onlyIf fun _ => within_markCmd (List.Subset.trans (by decide) hs) _ _ _) (within_seqs_cons
          (within_updCmd (List.Subset.trans (by decide) hs) _ _ _) (within_seqs_cons ih (within_seqs_nil ks)))))

theorem within_endCached {ks : List Kind} (hs : [.reg, .mem, .flag, .strm, .core, .bar, .line, .dir, .vault, .hurt, .cons, .fab, .port, .job, .mbox, .sq, .sec, .pow, .restart, .log, .send, .draw] ⊆ ks) (sid : Nat) (c : Cmd) (st : Status) (fill : Bool) :
    Within ks (endCached sid c st fill) := by
  unfold endCached
  repeat' (first
    | with_reducible exact within_skip ks
    | with_reducible exact within_seqs_nil ks
    | with_reducible refine within_endCmd (List.Subset.trans (by decide) hs) _ _ _ _
    | with_reducible refine within_writeAny (List.Subset.trans (by decide) hs) _ _ _ _
    | with_reducible refine within_seqs_cons ?_ ?_
    | with_reducible refine within_seq ?_ ?_
    | with_reducible refine within_withS fun _ => ?_
    | with_reducible refine within_onlyIf fun _ => ?_
    | split
    | dsimp only)

theorem within_pump {ks : List Kind} (hs : [.reg, .mem, .flag, .strm, .core, .bar, .line, .dir, .vault, .hurt, .cons, .fab, .port, .job, .mbox, .sq, .sec, .pow, .restart, .log, .send, .draw] ⊆ ks) (sid acc : Nat) :
    Within ks (pump sid acc) := by
  unfold pump
  repeat' (first
    | with_reducible exact within_skip ks
    | with_reducible exact within_seqs_nil ks
    | with_reducible refine within_finishDma (List.Subset.trans (by decide) hs) _ _
    | with_reducible refine within_inject (List.Subset.trans (by decide) hs) _ _ _
    | with_reducible refine within_runCached (List.Subset.trans (by decide) hs) _ _ _
    | with_reducible refine within_seqs_cons ?_ ?_
    | with_reducible refine within_seq ?_ ?_
    | with_reducible refine within_withS fun _ => ?_
    | with_reducible refine within_given fun _ => ?_
    | split
    | dsimp only)

theorem within_pumpAll {ks : List Kind} (hs : [.reg, .mem, .flag, .strm, .core, .bar, .line, .dir, .vault, .hurt, .cons, .fab, .port, .job, .mbox, .sq, .sec, .pow, .restart, .log, .send, .draw] ⊆ ks)  :
    Within ks (pumpAll ) := by
  unfold pumpAll
  repeat' (first
    | with_reducible exact within_skip ks
    | with_reducible exact within_seqs_nil ks
    | with_reducible refine within_pump (List.Subset.trans (by decide) hs) _ _
    | with_reducible refine within_sendReissue (List.Subset.trans (by decide) hs) _
    | with_reducible refine within_seqs_cons ?_ ?_
    | with_reducible refine within_seq ?_ ?_
    | with_reducible refine within_withS fun _ => ?_
    | with_reducible refine within_onlyIf fun _ => ?_
    | with_reducible refine within_forEach fun _ _ => ?_
    | with_reducible refine within_given fun _ => ?_
    | split
    | dsimp only)

theorem within_quireAnswer {ks : List Kind} (hs : [.reg, .mem, .flag, .strm, .core, .bar, .line, .dir, .vault, .hurt, .cons, .fab, .port, .job, .mbox, .sq, .sec, .pow, .restart, .log, .send, .draw] ⊆ ks) (p : Packet) :
    Within ks (quireAnswer p) := by
  unfold quireAnswer
  repeat' (first
    | with_reducible exact within_skip ks
    | with_reducible exact within_seqs_nil ks
    | with_reducible refine within_endCached (List.Subset.trans (by decide) hs) _ _ _ _
    | with_reducible refine within_pumpAll (List.Subset.trans (by decide) hs)
    | with_reducible refine within_takeWay (List.Subset.trans (by decide) hs) _ _ _ _ (fun _ => ?_)
    | with_reducible refine within_updFab (List.Subset.trans (by decide) hs) _
    | with_reducible refine within_seqs_cons ?_ ?_
    | with_reducible refine within_seq ?_ ?_
    | with_reducible refine within_withS fun _ => ?_
    | with_reducible refine within_onlyIf fun _ => ?_
    | with_reducible refine within_forEach fun _ _ => ?_
    | with_reducible refine within_emit_cons ?_ ?_
    | with_reducible exact within_emit_nil ks
    | with_reducible refine within_emit_append ?_ ?_
    | with_reducible refine within_emit_map fun _ => ?_
    | exact kind_mem hs (by dsimp only [Eff.kind, cohNotice]; decide)
    | split
    | dsimp only)

theorem within_startRemote {ks : List Kind} (hs : [.reg, .mem, .flag, .strm, .core, .bar, .line, .dir, .vault, .hurt, .cons, .fab, .port, .job, .mbox, .sq, .sec, .pow, .restart, .log, .send, .draw] ⊆ ks) (sid : Nat) (c : Cmd) (len : Nat) :
    Within ks (startRemote sid c len) := by
  unfold startRemote
  repeat' (first
    | with_reducible exact within_skip ks
    | with_reducible exact within_seqs_nil ks
    | with_reducible refine within_pump (List.Subset.trans (by decide) hs) _ _
    | with_reducible refine within_startCmd (List.Subset.trans (by decide) hs) _ _
    | with_reducible refine within_updCmd (List.Subset.trans (by decide) hs) _ _ _
    | with_reducible refine within_seqs_cons ?_ ?_
    | with_reducible refine within_seq ?_ ?_
    | with_reducible refine within_withS fun _ => ?_
    | split
    | dsimp only)

theorem within_deadAtIssue {ks : List Kind} (hs : [.reg, .flag, .strm, .core, .line, .fab, .log, .send, .draw] ⊆ ks) (sid : Nat) (c : Cmd) (dst n : Nat) (eff : Bool) (fill : Prog) (h_fill : Within ks (fill)) :
    Within ks (deadAtIssue sid c dst n eff fill) := by
  unfold deadAtIssue
  repeat' (first
    | exact h_fill
    | with_reducible exact within_skip ks
    | with_reducible exact within_seqs_nil ks
    | with_reducible refine within_endCmd (List.Subset.trans (by decide) hs) _ _ _ _
    | with_reducible refine within_incF (List.Subset.trans (by decide) hs) _ _
    | with_reducible refine within_markBroken (List.Subset.trans (by decide) hs) _ _
    | with_reducible refine within_seqs_cons ?_ ?_
    | with_reducible refine within_seq ?_ ?_
    | with_reducible refine within_withS fun _ => ?_
    | with_reducible refine within_onlyIf fun _ => ?_
    | split
    | dsimp only)

theorem within_copyProg {ks : List Kind} (hs : [.reg, .mem, .flag, .strm, .core, .bar, .line, .dir, .vault, .hurt, .cons, .fab, .port, .job, .mbox, .sq, .sec, .pow, .restart, .log, .send, .draw] ⊆ ks) (sid : Nat) (c : Cmd) :
    Within ks (copyProg sid c) := by
  unfold copyProg
  repeat' (first
    | with_reducible exact within_skip ks
    | with_reducible exact within_seqs_nil ks
    | with_reducible refine within_deadAtIssue (List.Subset.trans (by decide) hs) _ _ _ _ _ _ ?_
    | with_reducible refine within_endCmd (List.Subset.trans (by decide) hs) _ _ _ _
    | with_reducible refine within_localCopy (List.Subset.trans (by decide) hs) _ _ _ _ _
    | with_reducible refine within_pump (List.Subset.trans (by decide) hs) _ _
    | with_reducible refine within_startRemote (List.Subset.trans (by decide) hs) _ _ _
    | with_reducible refine within_whenReady (List.Subset.trans (by decide) hs) _ _ ?_
    | with_reducible refine within_writeAny (List.Subset.trans (by decide) hs) _ _ _ _
    | with_reducible refine within_seqs_cons ?_ ?_
    | with_reducible refine within_seq ?_ ?_
    | with_reducible refine within_withS fun _ => ?_
    | with_reducible refine within_onlyIf fun _ => ?_
    | split
    | dsimp only)

theorem within_dmaAtomicProg {ks : List Kind} (hs : [.reg, .mem, .flag, .strm, .core, .bar, .line, .dir, .vault, .hurt, .cons, .fab, .port, .job, .mbox, .sq, .sec, .pow, .restart, .log, .send, .draw] ⊆ ks) (sid : Nat) (c : Cmd) :
    Within ks (dmaAtomicProg sid c) := by
  unfold dmaAtomicProg
  repeat' (first
    | with_reducible exact within_skip ks
    | with_reducible exact within_seqs_nil ks
    | with_reducible refine within_atomicApply (List.Subset.trans (by decide) hs) _ _ _ _ _ _ _ (fun _ => ?_)
    | with_reducible refine within_checked (List.Subset.trans (by decide) hs) _ _ _ _ ?_
    | with_reducible refine within_deadAtIssue (List.Subset.trans (by decide) hs) _ _ _ _ _ _ ?_
    | with_reducible refine within_endCmd (List.Subset.trans (by decide) hs) _ _ _ _
    | with_reducible refine within_pump (List.Subset.trans (by decide) hs) _ _
    | with_reducible refine within_runOk (List.Subset.trans (by decide) hs) _ _ _ ?_
    | with_reducible refine within_startRemote (List.Subset.trans (by decide) hs) _ _ _
    | with_reducible refine within_whenReady (List.Subset.trans (by decide) hs) _ _ ?_
    | with_reducible refine within_writeAny (List.Subset.trans (by decide) hs) _ _ _ _
    | with_reducible refine within_seqs_cons ?_ ?_
    | with_reducible refine within_seq ?_ ?_
    | with_reducible refine within_withS fun _ => ?_
    | with_reducible refine within_given fun _ => ?_
    | split
    | dsimp only)

theorem within_flagStoreProg {ks : List Kind} (hs : [.reg, .mem, .flag, .strm, .core, .bar, .line, .dir, .vault, .hurt, .cons, .fab, .port, .job, .mbox, .sq, .sec, .pow, .restart, .log, .send, .draw] ⊆ ks) (sid : Nat) (c : Cmd) :
    Within ks (flagStoreProg sid c) := by
  unfold flagStoreProg
  repeat' (first
    | with_reducible exact within_skip ks
    | with_reducible exact within_seqs_nil ks
    | with_reducible refine within_deadAtIssue (List.Subset.trans (by decide) hs) _ _ _ _ _ _ ?_
    | with_reducible refine within_endCmd (List.Subset.trans (by decide) hs) _ _ _ _
    | with_reducible refine within_flagOp (List.Subset.trans (by decide) hs) _ _ _ _ _
    | with_reducible refine within_pump (List.Subset.trans (by decide) hs) _ _
    | with_reducible refine within_runOk (List.Subset.trans (by decide) hs) _ _ _ ?_
    | with_reducible refine within_startRemote (List.Subset.trans (by decide) hs) _ _ _
    | with_reducible refine within_seqs_cons ?_ ?_
    | with_reducible refine within_seq ?_ ?_
    | with_reducible refine within_withS fun _ => ?_
    | split
    | dsimp only)

theorem within_fenceProg {ks : List Kind} (hs : [.reg, .flag, .strm, .core, .line, .fab, .log, .send, .draw] ⊆ ks) (sid : Nat) (c : Cmd) :
    Within ks (fenceProg sid c) := by
  unfold fenceProg
  repeat' (first
    | with_reducible exact within_skip ks
    | with_reducible exact within_seqs_nil ks
    | with_reducible refine within_endCmd (List.Subset.trans (by decide) hs) _ _ _ _
    | with_reducible refine within_runOk (List.Subset.trans (by decide) hs) _ _ _ ?_
    | with_reducible refine within_startCmd (List.Subset.trans (by decide) hs) _ _
    | with_reducible refine within_updCmd (List.Subset.trans (by decide) hs) _ _ _
    | with_reducible refine within_updFab (List.Subset.trans (by decide) hs) _
    | with_reducible refine within_seqs_cons ?_ ?_
    | with_reducible refine within_seq ?_ ?_
    | with_reducible refine within_withS fun _ => ?_
    | split
    | dsimp only)

theorem within_remoteMarks {ks : List Kind} (hs : [.reg, .strm, .log] ⊆ ks) (sid acc : Nat) :
    Within ks (remoteMarks sid acc) := by
  unfold remoteMarks
  repeat' (first
    | with_reducible exact within_skip ks
    | with_reducible exact within_seqs_nil ks
    | with_reducible refine within_markCmd (List.Subset.trans (by decide) hs) _ _ _
    | with_reducible refine within_seqs_cons ?_ ?_
    | with_reducible refine within_seq ?_ ?_
    | with_reducible refine within_withS fun _ => ?_
    | with_reducible refine within_onlyIf fun _ => ?_
    | with_reducible refine within_forEach fun _ _ => ?_
    | with_reducible refine within_given fun _ => ?_
    | split
    | dsimp only)

theorem within_postedFailed {ks : List Kind} (hs : [.reg, .strm, .core, .line, .send, .draw] ⊆ ks) (r : Req) (st : Status) :
    Within ks (postedFailed r st) := by
  unfold postedFailed
  repeat' (first
    | with_reducible exact within_skip ks
    | with_reducible exact within_seqs_nil ks
    | with_reducible refine within_sendIrq (List.Subset.trans (by decide) hs) _
    | with_reducible refine within_setF (List.Subset.trans (by decide) hs) _ _
    | with_reducible refine within_setF48 (List.Subset.trans (by decide) hs) _ _ _
    | with_reducible refine within_setStrm (List.Subset.trans (by decide) hs) _ _
    | with_reducible refine within_settle (List.Subset.trans (by decide) hs) _
    | with_reducible refine within_vetoStep (List.Subset.trans (by decide) hs) _
    | with_reducible refine within_seqs_cons ?_ ?_
    | with_reducible refine within_seq ?_ ?_
    | with_reducible refine within_withS fun _ => ?_
    | with_reducible refine within_onlyIf fun _ => ?_
    | split
    | dsimp only)

theorem within_endReq {ks : List Kind} (hs : [.reg, .mem, .flag, .strm, .core, .bar, .line, .dir, .vault, .hurt, .cons, .fab, .port, .job, .mbox, .sq, .sec, .pow, .restart, .log, .send, .draw] ⊆ ks) (acc : Nat) (st : Status) (old : Nat) (data : List Byte) (gave : Bool) :
    Within ks (endReq acc st old data gave) := by
  unfold endReq
  repeat' (first
    | with_reducible exact within_skip ks
    | with_reducible exact within_seqs_nil ks
    | with_reducible refine within_forgetReqs (List.Subset.trans (by decide) hs) _ _
    | with_reducible refine within_freeCells (List.Subset.trans (by decide) hs) _ _
    | with_reducible refine within_holdReq (List.Subset.trans (by decide) hs) _ _
    | with_reducible refine within_incF (List.Subset.trans (by decide) hs) _ _
    | with_reducible refine within_markBroken (List.Subset.trans (by decide) hs) _ _
    | with_reducible refine within_postedFailed (List.Subset.trans (by decide) hs) _ _
    | with_reducible refine within_pumpAll (List.Subset.trans (by decide) hs)
    | with_reducible refine within_remoteMarks (List.Subset.trans (by decide) hs) _ _
    | with_reducible refine within_setF (List.Subset.trans (by decide) hs) _ _
    | with_reducible refine within_tellFences (List.Subset.trans (by decide) hs) _ _
    | with_reducible refine within_updFab (List.Subset.trans (by decide) hs) _
    | with_reducible refine within_writeAny (List.Subset.trans (by decide) hs) _ _ _ _
    | with_reducible refine within_seqs_cons ?_ ?_
    | with_reducible refine within_seq ?_ ?_
    | with_reducible refine within_withS fun _ => ?_
    | with_reducible refine within_onlyIf fun _ => ?_
    | with_reducible refine within_given fun _ => ?_
    | split
    | dsimp only)

theorem within_responseProg {ks : List Kind} (hs : [.reg, .mem, .flag, .strm, .core, .bar, .line, .dir, .vault, .hurt, .cons, .fab, .port, .job, .mbox, .sq, .sec, .pow, .restart, .log, .send, .draw] ⊆ ks) (p : Packet) :
    Within ks (responseProg p) := by
  unfold responseProg
  repeat' (first
    | with_reducible exact within_skip ks
    | with_reducible exact within_seqs_nil ks
    | with_reducible refine within_endReissue (List.Subset.trans (by decide) hs) _ _ _ _
    | with_reducible refine within_endReq (List.Subset.trans (by decide) hs) _ _ _ _ _
    | with_reducible refine within_lateProg (List.Subset.trans (by decide) hs) _
    | with_reducible refine within_leaveVat (List.Subset.trans (by decide) hs) _
    | with_reducible refine within_orHeld (List.Subset.trans (by decide) hs) _ _ _ _ ?_
    | with_reducible refine within_pumpAll (List.Subset.trans (by decide) hs)
    | with_reducible refine within_quireAnswer (List.Subset.trans (by decide) hs) _
    | with_reducible refine within_seqs_cons ?_ ?_
    | with_reducible refine within_seq ?_ ?_
    | with_reducible refine within_withS fun _ => ?_
    | with_reducible refine within_onlyIf fun _ => ?_
    | split
    | dsimp only)

theorem within_retryProg {ks : List Kind} (hs : [.reg, .cons, .fab, .port, .pow, .log, .send, .draw] ⊆ ks) (acc : Nat) :
    Within ks (retryProg acc) := by
  unfold retryProg
  repeat' (first
    | with_reducible exact within_skip ks
    | with_reducible exact within_seqs_nil ks
    | with_reducible refine within_incF (List.Subset.trans (by decide) hs) _ _
    | with_reducible refine within_sendPacket (List.Subset.trans (by decide) hs) _
    | with_reducible refine within_seqs_cons ?_ ?_
    | with_reducible refine within_seq ?_ ?_
    | with_reducible refine within_withS fun _ => ?_
    | with_reducible refine within_given fun _ => ?_
    | with_reducible refine within_emit_cons ?_ ?_
    | with_reducible exact within_emit_nil ks
    | with_reducible refine within_emit_append ?_ ?_
    | with_reducible refine within_emit_map fun _ => ?_
    | exact kind_mem hs (by dsimp only [Eff.kind]; decide)
    | split
    | dsimp only)

theorem within_budgetProg {ks : List Kind} (hs : [.reg, .mem, .flag, .strm, .core, .bar, .line, .dir, .vault, .hurt, .cons, .fab, .port, .job, .mbox, .sq, .sec, .pow, .restart, .log, .send, .draw] ⊆ ks) (acc : Nat) :
    Within ks (budgetProg acc) := by
  unfold budgetProg
  repeat' (first
    | with_reducible exact within_skip ks
    | with_reducible exact within_seqs_nil ks
    | with_reducible refine within_endReissue (List.Subset.trans (by decide) hs) _ _ _ _
    | with_reducible refine within_endReq (List.Subset.trans (by decide) hs) _ _ _ _ _
    | with_reducible refine within_endResync (List.Subset.trans (by decide) hs) _
    | with_reducible refine within_pumpAll (List.Subset.trans (by decide) hs)
    | with_reducible refine within_seqs_cons ?_ ?_
    | with_reducible refine within_seq ?_ ?_
    | with_reducible refine within_withS fun _ => ?_
    | with_reducible refine within_onlyIf fun _ => ?_
    | split
    | dsimp only)

theorem within_losePackage {ks : List Kind} (hs : [.reg, .mem, .flag, .strm, .core, .bar, .line, .dir, .vault, .hurt, .cons, .stage, .order, .fab, .port, .job, .mbox, .sq, .sec, .pow, .restart, .log, .send, .draw] ⊆ ks) (g : Nat) :
    Within ks (losePackage g) := by
  unfold losePackage
  repeat' (first
    | with_reducible exact within_skip ks
    | with_reducible exact within_seqs_nil ks
    | with_reducible refine within_endCached (List.Subset.trans (by decide) hs) _ _ _ _
    | with_reducible refine within_endReissue (List.Subset.trans (by decide) hs) _ _ _ _
    | with_reducible refine within_endReq (List.Subset.trans (by decide) hs) _ _ _ _ _
    | with_reducible refine within_endResync (List.Subset.trans (by decide) hs) _
    | with_reducible refine within_forgetSource (List.Subset.trans (by decide) hs) _
    | with_reducible refine within_stageDead (List.Subset.trans (by decide) hs) _
    | with_reducible refine within_updFab (List.Subset.trans (by decide) hs) _
    | with_reducible refine within_seqs_cons ?_ ?_
    | with_reducible refine within_seq ?_ ?_
    | with_reducible refine within_withS fun _ => ?_
    | with_reducible refine within_onlyIf fun _ => ?_
    | with_reducible refine within_forEach fun _ _ => ?_
    | split
    | dsimp only)

theorem within_applyReach {ks : List Kind} (hs : [.reg, .mem, .flag, .strm, .core, .bar, .line, .dir, .vault, .hurt, .cons, .stage, .order, .fab, .port, .job, .mbox, .sq, .sec, .pow, .restart, .log, .send, .draw] ⊆ ks) (gen mask : Nat) :
    Within ks (applyReach gen mask) := by
  unfold applyReach
  repeat' (first
    | with_reducible exact within_skip ks
    | with_reducible exact within_seqs_nil ks
    | with_reducible refine within_losePackage (List.Subset.trans (by decide) hs) _
    | with_reducible refine within_setF (List.Subset.trans (by decide) hs) _ _
    | with_reducible refine within_showMaster (List.Subset.trans (by decide) hs)
    | with_reducible refine within_seqs_cons ?_ ?_
    | with_reducible refine within_seq ?_ ?_
    | with_reducible refine within_withS fun _ => ?_
    | with_reducible refine within_onlyIf fun _ => ?_
    | with_reducible refine within_forEach fun _ _ => ?_
    | split
    | dsimp only)

theorem within_reachProg {ks : List Kind} (hs : [.reg, .mem, .flag, .strm, .core, .bar, .line, .dir, .vault, .hurt, .cons, .stage, .order, .fab, .port, .job, .mbox, .sq, .sec, .pow, .restart, .log, .send, .draw] ⊆ ks) (gen mask : Nat) :
    Within ks (reachProg gen mask) := by
  unfold reachProg
  repeat' (first
    | with_reducible exact within_skip ks
    | with_reducible exact within_seqs_nil ks
    | with_reducible refine within_applyReach (List.Subset.trans (by decide) hs) _ _
    | with_reducible refine within_seqs_cons ?_ ?_
    | with_reducible refine within_seq ?_ ?_
    | with_reducible refine within_withS fun _ => ?_
    | with_reducible refine within_onlyIf fun _ => ?_
    | split
    | dsimp only)

theorem within_declare {ks : List Kind} (hs : [.reg, .mem, .flag, .strm, .core, .bar, .line, .dir, .vault, .hurt, .cons, .stage, .order, .fab, .port, .job, .mbox, .sq, .sec, .pow, .restart, .log, .send, .draw] ⊆ ks) (pkg : Nat) :
    Within ks (declare pkg) := by
  unfold declare
  repeat' (first
    | with_reducible exact within_skip ks
    | with_reducible exact within_seqs_nil ks
    | with_reducible refine within_applyReach (List.Subset.trans (by decide) hs) _ _
    | with_reducible refine within_sendCtl (List.Subset.trans (by decide) hs) _ _ _
    | with_reducible refine within_seqs_cons ?_ ?_
    | with_reducible refine within_seq ?_ ?_
    | with_reducible refine within_withS fun _ => ?_
    | with_reducible refine within_onlyIf fun _ => ?_
    | with_reducible refine within_emit_cons ?_ ?_
    | with_reducible exact within_emit_nil ks
    | with_reducible refine within_emit_append ?_ ?_
    | with_reducible refine within_emit_map fun _ => ?_
    | exact kind_mem hs (by dsimp only [Eff.kind]; decide)
    | split
    | dsimp only)

theorem within_liveTimeoutProg {ks : List Kind} (hs : [.reg, .mem, .flag, .strm, .core, .bar, .line, .dir, .vault, .hurt, .cons, .stage, .order, .fab, .port, .job, .mbox, .sq, .sec, .pow, .restart, .log, .send, .draw] ⊆ ks) (pkg : Nat) :
    Within ks (liveTimeoutProg pkg) := by
  unfold liveTimeoutProg
  repeat' (first
    | with_reducible exact within_skip ks
    | with_reducible exact within_seqs_nil ks
    | with_reducible refine within_declare (List.Subset.trans (by decide) hs) _
    | with_reducible refine within_seqs_cons ?_ ?_
    | with_reducible refine within_seq ?_ ?_
    | with_reducible refine within_withS fun _ => ?_
    | with_reducible refine within_onlyIf fun _ => ?_
    | split
    | dsimp only)

theorem within_writeLists {ks : List Kind} (hs : [.reg, .cons, .fab, .port, .pow, .log, .send, .draw] ⊆ ks) (i : Nat) :
    Within ks (writeLists i) := by
  unfold writeLists
  repeat' (first
    | with_reducible exact within_skip ks
    | with_reducible exact within_seqs_nil ks
    | with_reducible refine within_sendCtl (List.Subset.trans (by decide) hs) _ _ _
    | with_reducible refine within_setF (List.Subset.trans (by decide) hs) _ _
    | with_reducible refine within_updFab (List.Subset.trans (by decide) hs) _
    | with_reducible refine within_seqs_cons ?_ ?_
    | with_reducible refine within_seq ?_ ?_
    | with_reducible refine within_withS fun _ => ?_
    | with_reducible refine within_onlyIf fun _ => ?_
    | with_reducible refine within_forEach fun _ _ => ?_
    | split
    | dsimp only)

theorem within_masterWork {ks : List Kind} (hs : [.reg, .mem, .flag, .strm, .core, .bar, .line, .dir, .vault, .hurt, .cons, .stage, .order, .fab, .port, .job, .mbox, .sq, .sec, .pow, .restart, .log, .send, .draw] ⊆ ks)  :
    Within ks (masterWork ) := by
  unfold masterWork
  repeat' (first
    | with_reducible exact within_skip ks
    | with_reducible exact within_seqs_nil ks
    | with_reducible refine within_declare (List.Subset.trans (by decide) hs) _
    | with_reducible refine within_writeLists (List.Subset.trans (by decide) hs) _
    | with_reducible refine within_seqs_cons ?_ ?_
    | with_reducible refine within_seq ?_ ?_
    | with_reducible refine within_withS fun _ => ?_
    | with_reducible refine within_onlyIf fun _ => ?_
    | with_reducible refine within_forEach fun _ _ => ?_
    | split
    | dsimp only)

theorem within_probeProg {ks : List Kind} (hs : [.reg, .mem, .flag, .strm, .core, .bar, .line, .dir, .vault, .hurt, .cons, .stage, .order, .fab, .port, .job, .mbox, .sq, .sec, .pow, .restart, .log, .send, .draw] ⊆ ks)  :
    Within ks (probeProg ) := by
  unfold probeProg
  repeat' (first
    | with_reducible exact within_skip ks
    | with_reducible exact within_seqs_nil ks
    | with_reducible refine within_masterWork (List.Subset.trans (by decide) hs)
    | with_reducible refine within_reportPorts (List.Subset.trans (by decide) hs)
    | with_reducible refine within_seqs_cons ?_ ?_
    | with_reducible refine within_seq ?_ ?_
    | with_reducible refine within_withS fun _ => ?_
    | with_reducible refine within_onlyIf fun _ => ?_
    | with_reducible refine within_forEach fun _ _ => ?_
    | with_reducible refine within_emit_cons ?_ ?_
    | with_reducible exact within_emit_nil ks
    | with_reducible refine within_emit_append ?_ ?_
    | with_reducible refine within_emit_map fun _ => ?_
    | exact kind_mem hs (by dsimp only [Eff.kind]; decide)
    | split
    | dsimp only)

theorem within_ctlArrival {ks : List Kind} (hs : [.reg, .mem, .flag, .strm, .core, .bar, .line, .dir, .vault, .hurt, .cons, .stage, .order, .fab, .port, .job, .mbox, .sq, .sec, .pow, .restart, .log, .send, .draw] ⊆ ks) (p : Packet) :
    Within ks (ctlArrival p) := by
  unfold ctlArrival
  repeat' (first
    | with_reducible exact within_skip ks
    | with_reducible exact within_seqs_nil ks
    | with_reducible refine within_declare (List.Subset.trans (by decide) hs) _
    | with_reducible refine within_masterWork (List.Subset.trans (by decide) hs)
    | with_reducible refine within_sendCtl (List.Subset.trans (by decide) hs) _ _ _
    | with_reducible refine within_setF (List.Subset.trans (by decide) hs) _ _
    | with_reducible refine within_updFab (List.Subset.trans (by decide) hs) _
    | with_reducible refine within_seqs_cons ?_ ?_
    | with_reducible refine within_seq ?_ ?_
    | with_reducible refine within_withS fun _ => ?_
    | with_reducible refine within_onlyIf fun _ => ?_
    | split
    | dsimp only)

theorem within_sqCopyProg {ks : List Kind} (hs : [.reg, .mem, .host, .flag, .strm, .core, .bar, .line, .dir, .vault, .hurt, .cons, .fab, .port, .job, .mbox, .sq, .sec, .pow, .restart, .log, .send, .draw] ⊆ ks) (q : Nat) (e : SqEnt) (into : Bool) :
    Within ks (sqCopyProg q e into) := by
  unfold sqCopyProg
  repeat' (first
    | with_reducible exact within_skip ks
    | with_reducible exact within_seqs_nil ks
    | with_reducible refine within_endEntry (List.Subset.trans (by decide) hs) _ _ _ _
    | with_reducible refine within_hostWrite (List.Subset.trans (by decide) hs) _ _
    | with_reducible refine within_incF (List.Subset.trans (by decide) hs) _ _
    | with_reducible refine within_logEv (List.Subset.trans (by decide) hs) _ _ _ _ _ _
    | with_reducible refine within_logStart (List.Subset.trans (by decide) hs) _ _ _ _
    | with_reducible refine within_readEffects (List.Subset.trans (by decide) hs) _ _ _
    | with_reducible refine within_whenReady (List.Subset.trans (by decide) hs) _ _ ?_
    | with_reducible refine within_writeAny (List.Subset.trans (by decide) hs) _ _ _ _
    | with_reducible refine within_seqs_cons ?_ ?_
    | with_reducible refine within_seq ?_ ?_
    | with_reducible refine within_withS fun _ => ?_
    | with_reducible refine within_forEach fun _ _ => ?_
    | with_reducible refine within_drawFree (kind_mem hs (by decide)) fun _ => ?_
    | split
    | dsimp only)

end Sys2Proof.Machine
end

