-- ==== Sys2Proof/Laws/FpHeld.lean ====
section
/-! SUPPORT. Footprints of the operations of Machine/Held.lean: the parts of the state each can change. -/

namespace Sys2Proof.Machine

theorem within_serveHeld {ks : List Kind} (hs : [.reg, .mem, .flag, .strm, .core, .bar, .line, .dir, .vault, .slice, .hurt, .cons, .fab, .port, .job, .mbox, .sq, .sec, .pow, .restart, .log, .send, .draw] ⊆ ks) (y0 : Instr) :
    Within ks (serveHeld y0) := by
  unfold serveHeld
  repeat' (first
    | with_reducible exact within_skip ks
    | with_reducible exact within_seqs_nil ks
    | with_reducible refine within_cohRequest (List.Subset.trans (by decide) hs) _ _ _ _
    | with_reducible refine within_debugProg (List.Subset.trans (by decide) hs) _
    | with_reducible refine within_reissueProg (List.Subset.trans (by decide) hs)
    | with_reducible refine within_responseProg (List.Subset.trans (by decide) hs) _
    | with_reducible refine within_serveOrdered (List.Subset.trans (by decide) hs) _
    | with_reducible refine within_serveRead (List.Subset.trans (by decide) hs) _
    | with_reducible refine within_vaultReq (List.Subset.trans (by decide) hs) _
    | with_reducible refine within_seqs_cons ?_ ?_
    | with_reducible refine within_seq ?_ ?_
    | with_reducible refine within_withS fun _ => ?_
    | split
    | dsimp only)

theorem within_releaseHeld {ks : List Kind} (hs : [.reg, .mem, .flag, .strm, .core, .bar, .line, .dir, .vault, .slice, .hurt, .cons, .fab, .port, .job, .mbox, .sq, .sec, .pow, .restart, .log, .send, .draw] ⊆ ks) (d : Nat) :
    Within ks (releaseHeld d) := by
  unfold releaseHeld
  repeat' (first
    | with_reducible exact within_skip ks
    | with_reducible exact within_seqs_nil ks
    | with_reducible refine within_serveHeld (List.Subset.trans (by decide) hs) _
    | with_reducible refine within_seqs_cons ?_ ?_
    | with_reducible refine within_seq ?_ ?_
    | with_reducible refine within_withS fun _ => ?_
    | with_reducible refine within_forEach fun _ _ => ?_
    | with_reducible refine within_emit_cons ?_ ?_
    | with_reducible exact within_emit_nil ks
    | with_reducible refine within_emit_append ?_ ?_
    | with_reducible refine within_emit_map fun _ => ?_
    | exact kind_mem hs (by dsimp only [Eff.kind]; decide)
    | split
    | dsimp only)

theorem within_thenRelease {ks : List Kind} (hs : [.reg, .mem, .flag, .strm, .core, .bar, .line, .dir, .vault, .slice, .hurt, .cons, .fab, .port, .job, .mbox, .sq, .sec, .pow, .restart, .log, .send, .draw] ⊆ ks) (k : Prog) (h_k : Within ks (k)) :
    Within ks (thenRelease k) := by
  unfold thenRelease
  repeat' (first
    | exact h_k
    | with_reducible exact within_skip ks
    | with_reducible exact within_seqs_nil ks
    | with_reducible refine within_releaseHeld (List.Subset.trans (by decide) hs) _
    | with_reducible refine within_seqs_cons ?_ ?_
    | with_reducible refine within_seq ?_ ?_
    | with_reducible refine within_withS fun _ => ?_
    | split
    | dsimp only)

end Sys2Proof.Machine
end

