-- ==== Sys2Proof/Laws/FpPress.lean ====
section
/-! SUPPORT. Footprints of the operations of Machine/Press.lean: the parts of the state each can change. -/

namespace Sys2Proof.Machine

theorem within_readAll {ks : List Kind} (hs : [.reg, .core, .line, .send, .draw] ⊆ ks) (sid : Nat) (es : List (Nat × Nat)) :
    Within ks (readAll sid es) := by
  unfold readAll
  repeat' (first
    | with_reducible exact within_skip ks
    | with_reducible exact within_seqs_nil ks
    | with_reducible refine within_touch (List.Subset.trans (by decide) hs) _ _ _ _
    | with_reducible refine within_seqs_cons ?_ ?_
    | with_reducible refine within_seq ?_ ?_
    | with_reducible refine within_withS fun _ => ?_
    | with_reducible refine within_forEach fun _ _ => ?_
    | split
    | dsimp only)

theorem within_keepStatus {ks : List Kind} (hs : [.strm] ⊆ ks) (sid acc : Nat) (st : Status) :
    Within ks (keepStatus sid acc st) := by
  unfold keepStatus
  repeat' (first
    | with_reducible exact within_skip ks
    | with_reducible exact within_seqs_nil ks
    | with_reducible refine within_updCmd (List.Subset.trans (by decide) hs) _ _ _
    | with_reducible refine within_seqs_cons ?_ ?_
    | with_reducible refine within_seq ?_ ?_
    | with_reducible refine within_withS fun _ => ?_
    | split
    | dsimp only)

theorem within_writeSolution {ks : List Kind} (hs : [.reg, .mem, .strm, .core, .line, .hurt, .cons, .pow, .log, .send, .draw] ⊆ ks) (sid acc d : Nat) (p : Prob) (k : Nat) (r : Qp × Outcome) (cfg : Settings) :
    Within ks (writeSolution sid acc d p k r cfg) := by
  unfold writeSolution
  repeat' (first
    | with_reducible exact within_skip ks
    | with_reducible exact within_seqs_nil ks
    | with_reducible refine within_incF (List.Subset.trans (by decide) hs) _ _
    | with_reducible refine within_keepStatus (List.Subset.trans (by decide) hs) _ _ _
    | with_reducible refine within_setF (List.Subset.trans (by decide) hs) _ _
    | with_reducible refine within_writeBytes (List.Subset.trans (by decide) hs) _ _ _
    | with_reducible refine within_seqs_cons ?_ ?_
    | with_reducible refine within_seq ?_ ?_
    | with_reducible refine within_withS fun _ => ?_
    | with_reducible refine within_onlyIf fun _ => ?_
    | with_reducible refine within_forEach fun _ _ => ?_
    | with_reducible refine within_drawFree (kind_mem hs (by decide)) fun _ => ?_
    | split
    | dsimp only)

theorem within_backwardProblem {ks : List Kind} (hs : [.reg, .mem, .strm, .core, .line, .hurt, .cons, .pow, .log, .send, .draw] ⊆ ks) (sid acc d : Nat) (cfg : Settings) (p : Prob) (k count : Nat) :
    Within ks (backwardProblem sid acc d cfg p k count) := by
  unfold backwardProblem
  repeat' (first
    | with_reducible exact within_skip ks
    | with_reducible exact within_seqs_nil ks
    | with_reducible refine within_incF (List.Subset.trans (by decide) hs) _ _
    | with_reducible refine within_keepStatus (List.Subset.trans (by decide) hs) _ _ _
    | with_reducible refine within_setF (List.Subset.trans (by decide) hs) _ _
    | with_reducible refine within_writeBytes (List.Subset.trans (by decide) hs) _ _ _
    | with_reducible refine within_seqs_cons ?_ ?_
    | with_reducible refine within_seq ?_ ?_
    | with_reducible refine within_withS fun _ => ?_
    | with_reducible refine within_onlyIf fun _ => ?_
    | with_reducible refine within_drawFree (kind_mem hs (by decide)) fun _ => ?_
    | split
    | dsimp only)

theorem within_pressGroups {ks : List Kind} (hs : [.reg, .strm, .log, .draw] ⊆ ks) (sid : Nat) (c : Cmd) (size count : Nat) (one : Nat → Prog) (done : Prog) (y0 : Nat) (y1 : Nat) (h_one : ∀ x0, Within ks (one x0)) (h_done : Within ks (done)) :
    Within ks (pressGroups sid c size count one done y0 y1) := by
  induction y0 generalizing y1 with
  | zero => exact h_done
  | succ n ih =>
    refine within_seqs_cons (within_forEach fun _ _ => h_one _) (within_seqs_cons (within_markCmd (List.Subset.trans (by decide) hs) _ _ _)
      (within_seqs_cons (within_ite h_done (within_withS fun s => within_ite ?_ (ih _))) (within_seqs_nil ks)))
    exact within_seq (within_incF (List.Subset.trans (by decide) hs) _ _) (within_updCmd (List.Subset.trans (by decide) hs) _ _ _)

theorem within_pressInjected {ks : List Kind} (hs : [.reg, .cons, .log, .draw] ⊆ ks) (d : Nat) (bad good : Prog) (h_bad : Within ks (bad)) (h_good : Within ks (good)) :
    Within ks (pressInjected d bad good) := by
  unfold pressInjected
  repeat' (first
    | exact h_bad
    | exact h_good
    | with_reducible exact within_skip ks
    | with_reducible exact within_seqs_nil ks
    | with_reducible refine within_incF (List.Subset.trans (by decide) hs) _ _
    | with_reducible refine within_logDetect (List.Subset.trans (by decide) hs) _ _ _ _ _ _ _
    | with_reducible refine within_useArmed (List.Subset.trans (by decide) hs) _ _ _ _ _ _ (fun _ => ?_)
    | with_reducible refine within_seqs_cons ?_ ?_
    | with_reducible refine within_seq ?_ ?_
    | with_reducible refine within_withS fun _ => ?_
    | split
    | dsimp only)

theorem within_pressDone {ks : List Kind} (hs : [.reg, .flag, .strm, .core, .line, .log, .send, .draw] ⊆ ks) (sid : Nat) (c : Cmd) :
    Within ks (pressDone sid c) := by
  unfold pressDone
  repeat' (first
    | with_reducible exact within_skip ks
    | with_reducible exact within_seqs_nil ks
    | with_reducible refine within_endCmd (List.Subset.trans (by decide) hs) _ _ _ _
    | with_reducible refine within_timed (List.Subset.trans (by decide) hs) _
    | with_reducible refine within_seqs_cons ?_ ?_
    | with_reducible refine within_seq ?_ ?_
    | with_reducible refine within_withS fun _ => ?_
    | split
    | dsimp only)

theorem within_pressProg {ks : List Kind} (hs : [.reg, .flag, .strm, .core, .line, .dir, .cons, .log, .send, .draw] ⊆ ks) (sid : Nat) (c : Cmd) (op : Nat) (one : Prob → Settings → Nat → Nat → Prog) (h_one : ∀ x0 x1 x2 x3, Within ks (one x0 x1 x2 x3)) :
    Within ks (pressProg sid c op one) := by
  unfold pressProg
  refine within_withS fun s => ?_
  dsimp only
  have he : ∀ st, Within ks (endCmd sid c st) := fun st => within_endCmd (List.Subset.trans (by decide) hs) _ _ _ _
  have hr : ∀ l, Within ks (readAll sid l) := fun l => within_readAll (List.Subset.trans (by decide) hs) sid l
  have hg : ∀ size count p (reads : Nat → List (Nat × Nat)) cfg n fuel first, Within ks
      (pressGroups sid c size count (fun k => seq (readAll sid (reads k)) (one p cfg n k)) (pressDone sid c) fuel first) :=
    fun size count p reads cfg n fuel first => within_pressGroups (List.Subset.trans (by decide) hs) _ _ _ _ _ _ _ _
      (fun k => within_seq (hr _) (h_one _ _ _ _)) (within_pressDone (List.Subset.trans (by decide) hs) _ _)
  refine within_ite (within_skip ks) (within_ite (hg _ _ _ _ _ _ _ _) ?_)
  generalize s.pressFault sid c op = x
  cases x with
  | some st => exact he st
  | none =>
    refine within_ite (he _) ?_
    generalize List.findSome? _ _ = y
    cases y with
    | some st => exact he st
    | none =>
      exact within_whenReady (List.Subset.trans (by decide) hs) _ _ (within_seqs_cons (within_startCmd (List.Subset.trans (by decide) hs) _ _)
        (within_seqs_cons (within_updCmd (List.Subset.trans (by decide) hs) _ _ _) (within_seqs_cons (hr _)
        (within_seqs_cons (within_pressInjected (List.Subset.trans (by decide) hs) _ _ _ (he _) (hg _ _ _ _ _ _ _ _))
        (within_seqs_nil ks)))))

theorem within_solveProg {ks : List Kind} (hs : [.reg, .mem, .flag, .strm, .core, .line, .dir, .hurt, .cons, .pow, .log, .send, .draw] ⊆ ks) (sid asm : Nat) (c : Cmd) :
    Within ks (solveProg sid asm c) := by
  unfold solveProg
  repeat' (first
    | with_reducible exact within_skip ks
    | with_reducible exact within_seqs_nil ks
    | with_reducible refine within_pressProg (List.Subset.trans (by decide) hs) _ _ _ _ (fun _ _ _ _ => ?_)
    | with_reducible refine within_writeSolution (List.Subset.trans (by decide) hs) _ _ _ _ _ _ _
    | with_reducible refine within_seqs_cons ?_ ?_
    | with_reducible refine within_seq ?_ ?_
    | with_reducible refine within_withS fun _ => ?_
    | split
    | dsimp only)

theorem within_backwardProg {ks : List Kind} (hs : [.reg, .mem, .flag, .strm, .core, .line, .dir, .hurt, .cons, .pow, .log, .send, .draw] ⊆ ks) (sid : Nat) (c : Cmd) :
    Within ks (backwardProg sid c) := by
  unfold backwardProg
  repeat' (first
    | with_reducible exact within_skip ks
    | with_reducible exact within_seqs_nil ks
    | with_reducible refine within_backwardProblem (List.Subset.trans (by decide) hs) _ _ _ _ _ _ _
    | with_reducible refine within_pressProg (List.Subset.trans (by decide) hs) _ _ _ _ (fun _ _ _ _ => ?_)
    | with_reducible refine within_seqs_cons ?_ ?_
    | with_reducible refine within_seq ?_ ?_
    | with_reducible refine within_withS fun _ => ?_
    | split
    | dsimp only)

theorem within_deadlineProg {ks : List Kind} (hs : [.reg, .mem, .flag, .strm, .core, .line, .dir, .hurt, .cons, .pow, .log, .send, .draw] ⊆ ks) (sid cyc iter : Nat) (c : Cmd) :
    Within ks (deadlineProg sid cyc iter c) := by
  unfold deadlineProg
  repeat' (first
    | with_reducible exact within_skip ks
    | with_reducible exact within_seqs_nil ks
    | with_reducible refine within_endCmd (List.Subset.trans (by decide) hs) _ _ _ _
    | with_reducible refine within_readAll (List.Subset.trans (by decide) hs) _ _
    | with_reducible refine within_startCmd (List.Subset.trans (by decide) hs) _ _
    | with_reducible refine within_timed (List.Subset.trans (by decide) hs) _
    | with_reducible refine within_whenReady (List.Subset.trans (by decide) hs) _ _ ?_
    | with_reducible refine within_writeSolution (List.Subset.trans (by decide) hs) _ _ _ _ _ _ _
    | with_reducible refine within_seqs_cons ?_ ?_
    | with_reducible refine within_seq ?_ ?_
    | with_reducible refine within_withS fun _ => ?_
    | with_reducible refine within_onlyIf fun _ => ?_
    | split
    | dsimp only)

theorem within_onPress {ks : List Kind} (hs : [] ⊆ ks) (sid acc op : Nat) (k : Cmd → Prog) (h_k : ∀ x0, Within ks (k x0)) :
    Within ks (onPress sid acc op k) := by
  unfold onPress
  repeat' (first
    | exact h_k _
    | with_reducible exact within_skip ks
    | with_reducible exact within_seqs_nil ks
    | with_reducible refine within_onIssued (List.Subset.trans (by decide) hs) _ _ _ _ _ (fun _ => ?_)
    | with_reducible refine within_seqs_cons ?_ ?_
    | with_reducible refine within_seq ?_ ?_
    | with_reducible refine within_withS fun _ => ?_
    | with_reducible refine within_onlyIf fun _ => ?_
    | split
    | dsimp only)

end Sys2Proof.Machine
end

