-- ==== Sys2Proof/Laws/Invariant.lean ====
section
/-! SUPPORT. The parts of the invariant: the canonical forms a power-up leaves, and the Ledger's numbering. -/

namespace Sys2Proof.Machine

theorem and_wordMask (v : Word) (off : Nat) : (v &&& wordMask off) &&& wordMask off = v &&& wordMask off := by
  rw [BitVec.and_assoc, BitVec.and_self]

theorem words_nset {m : NMap Word} (h : ∀ e ∈ m, e.2 &&& wordMask e.1 = e.2) (off : Nat) (v : Word) :
    ∀ e ∈ nset m off (v &&& wordMask off), e.2 &&& wordMask e.1 = e.2 := by
  intro e he
  rcases mem_nset he with rfl | he
  · exact and_wordMask v off
  · exact h e he

theorem words_ndel {m : NMap Word} (h : ∀ e ∈ m, e.2 &&& wordMask e.1 = e.2) (off : Nat) :
    ∀ e ∈ ndel m off, e.2 &&& wordMask e.1 = e.2 := fun e he => h e (mem_ndel he)

theorem dense_reset : Ledger.reset.Dense := by intro i e h; simp [Ledger.reset] at h

theorem push_events (l : Ledger) (e : Ev) : (l.push e).events = ({ e with seq := l.next } :: l.events).take 1048576 := rfl

theorem dense_push {l : Ledger} (h : l.Dense) (e : Ev) : (l.push e).Dense := by
  intro i x hx
  rw [push_events, List.getElem?_take] at hx
  split at hx
  · cases i with
    | zero =>
      have : x = { e with seq := l.next } := by simpa using hx.symm
      subst this; rfl
    | succ i =>
      have := h i x (by simpa using hx)
      show x.seq + (i + 1) + 1 = l.next + 1
      omega
  · cases hx

theorem ring_push (l : Ledger) (e : Ev) : (l.push e).events.length ≤ 1048576 := by
  rw [push_events]; exact List.length_take_le _ _

theorem tail_push (l : Ledger) (e : Ev) : (l.push e).tail.length ≤ 4096 := by
  show (List.take 4096 _).length ≤ 4096
  exact List.length_take_le _ _

theorem live_push {l : Ledger} (h : ∀ c ∈ l.live, c ∈ l.taint) (e : Ev) : ∀ c ∈ (l.push e).live, c ∈ (l.push e).taint := by
  intro c hc
  show c ∈ l.taint
  have : c ∈ (match e.body with
    | .commit _ _ _ _ => []
    | _ => l.live) := hc
  split at this
  · cases this
  · exact h c this

end Sys2Proof.Machine
end

