-- ==== Sys2Proof/WellFormed.lean ====
section
/-! DEFINITION. The well-formed commands: every operand in the range that the spec's field for it admits. `exec` answers for the others
too, so nothing rests on this. -/

namespace Sys2Proof

/-- A core names itself by a logical number (01 R30). -/
def Agent.wf : Agent → Bool
  | .core n => decide (n < 256)
  | _ => true

/-- Cores, streams and packages by their numbers. -/
def Requester.wf : Requester → Bool
  | .core n => decide (n < 256)
  | .engine sid => decide (1024 ≤ sid) && decide (sid < 1088)
  | .remote p => decide (p < 4096)
  | _ => true

/-- Accession numbers are 48 bits wide (02 R47). -/
def Signaller.wf : Signaller → Bool
  | .stream sid acc => decide (sid < 1088) && decide (acc < 2 ^ 48)
  | .queue q acc => decide (q < 64) && decide (acc < 2 ^ 48)
  | .remote p acc => decide (p < 4096) && decide (acc < 2 ^ 48)
  | .barrier c gen => decide (c < 8) && decide (gen < 2 ^ 32)
  | _ => true

/-- A mailbox, or a request on I3C of at most a mailbox's bytes (13 R380). -/
def Via.wf : Via → Bool
  | .mailbox m => decide (m < 8)
  | .i3c tag req => decide (tag < 2 ^ 16) && decide (req.length ≤ 4032)

/-- The units that count late arrivals. -/
def LateUnit.wf : LateUnit → Bool
  | .stream sid => decide (sid < 1088)
  | .group g => decide (g < 64)
  | .coherence d => decide (d < 2)
  | _ => true

/-- A packet header's fields (10 R291 Table 3). -/
def Packet.wf (p : Packet) : Bool :=
  (match p.type with | .unassigned c => decide (12 ≤ c) && decide (c < 16) | _ => true) &&
  decide (p.cls < 8) && decide (p.src < 4096) && decide (p.dst < 4096) && decide (p.length < 2 ^ 13) && decide (p.acc < 2 ^ 48) &&
  decide (p.ordSeq < 2 ^ 32) && decide (p.lpa < 2 ^ 44) && decide (p.atomicOp < 16) && decide (p.fop < 4) && decide (p.v < 2 ^ 64) &&
  decide (p.c < 2 ^ 64) && decide (p.group < 64) && decide (p.rank < 2 ^ 13) && decide (p.chunk < 2 ^ 32) && decide (p.tag < 2 ^ 128)

/-- A stage signature's fields (09 R270). -/
def StageSig.wf (x : StageSig) : Bool :=
  decide (x.opcode < 256) && decide (x.dtype < 16) && decide (x.rop < 16) && decide (x.root < 4100) && decide (x.count < 2 ^ 64)

/-- A copy entry's fields (06 R174 Table 8). -/
def CopyEntry.wf (x : CopyEntry) : Bool :=
  decide (x.core < 256) && decide (x.slot < 2 ^ 16) && decide (x.rank < 4100) && decide (x.row < 2 ^ 32)

/-- What training found (10 R288, R289). -/
def TrainResult.wf : TrainResult → Bool
  | .lanes m => decide (m < 512)
  | .peer i p => decide (i < 4096) && decide (p < 36)
  | .credits cells => decide (cells.length ≤ 10) && cells.all fun n => decide (n < 2 ^ 16)
  | _ => true

/-- The clocks of each die or stack (14 R404). -/
def ClockDom.wf : ClockDom → Bool
  | .core d => decide (d < 2)
  | .vault d => decide (d < 2)
  | .hbm k => decide (k < 8)
  | .beater k => decide (k < 8)

/-- An access on the debug lands (15 R437). -/
def DebugAccess.wf : DebugAccess → Bool
  | .haltCore i => decide (i < 4)
  | .stepCore i => decide (i < 4)
  | .readMem a len => decide (a < 2 ^ 44) && decide (len < 2 ^ 32)
  | .writeMem a _ => decide (a < 2 ^ 44)
  | _ => true

/-- A replica's digests (08 R255). -/
def WmPeer.wf (x : WmPeer) : Bool := decide (x.beater < 8) && decide (x.pkg < 4096) && x.leaves.all (· < 2 ^ 61)

/-- A revision (06 R185). -/
def Revision.wf (x : Revision) : Bool := decide (x.layer < 2 ^ 44) && x.served.all (· < 2 ^ 64)

/-- The rail groups and rails of 14 R400. -/
def RailCause.wf : RailCause → Bool
  | .groupOrder g => decide (g < 16)
  | .outOfTolerance r => decide (r < 256)
  | .pwrokFell => true

/-- Every operand of a command is one its field can hold. -/
def Instr.wf : Instr → Bool
  | .registerWrite ag off size value => ag.wf && decide (off < 2 ^ 28) && [1, 2, 4, 8].contains size && decide (value < 2 ^ 64)
  | .doorbell sid tail => decide (sid < 1088) && decide (tail < 2 ^ 32)
  | .streamEnable sid => decide (sid < 1088)
  | .streamDisable sid => decide (sid < 1088)
  | .resumeSkip sid => decide (sid < 1088)
  | .resumeRetry sid => decide (sid < 1088)
  | .streamReset sid => decide (sid < 1088)
  | .commandFetch sid => decide (sid < 1088)
  | .commandIssue sid => decide (sid < 1088)
  | .waitTimeout sid acc => decide (sid < 1088) && decide (acc < 2 ^ 48)
  | .lateArrival u => u.wf
  | .flagSet core flag value by_ => decide (core < 256) && decide (flag < 48) && decide (value < 2 ^ 32) && by_.wf
  | .flagAdd core flag value by_ => decide (core < 256) && decide (flag < 48) && decide (value < 2 ^ 32) && by_.wf
  | .flagMax core flag value by_ => decide (core < 256) && decide (flag < 48) && decide (value < 2 ^ 32) && by_.wf
  | .watchPoll sid => decide (sid < 1088)
  | .coreGate n => decide (n < 256)
  | .nop sid acc => decide (sid < 1088) && decide (acc < 2 ^ 48)
  | .barrierArrive sid acc => decide (sid < 1088) && decide (acc < 2 ^ 48)
  | .arriveWait sid acc => decide (sid < 1088) && decide (acc < 2 ^ 48)
  | .rgsBarClear c => decide (c < 8)
  | .syncDoorbell sid acc => decide (sid < 1088) && decide (acc < 2 ^ 48)
  | .taskBegin sid acc => decide (sid < 1088) && decide (acc < 2 ^ 48)
  | .taskEnd sid acc => decide (sid < 1088) && decide (acc < 2 ^ 48)
  | .shapeWrite sid acc => decide (sid < 1088) && decide (acc < 2 ^ 48)
  | .copy sid acc => decide (sid < 1088) && decide (acc < 2 ^ 48)
  | .atomic sid acc => decide (sid < 1088) && decide (acc < 2 ^ 48)
  | .flagStore sid acc => decide (sid < 1088) && decide (acc < 2 ^ 48)
  | .fence sid acc => decide (sid < 1088) && decide (acc < 2 ^ 48)
  | .gemm sid acc => decide (sid < 1088) && decide (acc < 2 ^ 48)
  | .eltwise sid acc => decide (sid < 1088) && decide (acc < 2 ^ 48)
  | .grouped sid acc => decide (sid < 1088) && decide (acc < 2 ^ 48)
  | .wgrad sid acc => decide (sid < 1088) && decide (acc < 2 ^ 48)
  | .wgradRagged sid acc => decide (sid < 1088) && decide (acc < 2 ^ 48)
  | .vecAdd sid acc => decide (sid < 1088) && decide (acc < 2 ^ 48)
  | .vecSub sid acc => decide (sid < 1088) && decide (acc < 2 ^ 48)
  | .vecMul sid acc => decide (sid < 1088) && decide (acc < 2 ^ 48)
  | .vecFma sid acc => decide (sid < 1088) && decide (acc < 2 ^ 48)
  | .vecMax sid acc => decide (sid < 1088) && decide (acc < 2 ^ 48)
  | .vecMin sid acc => decide (sid < 1088) && decide (acc < 2 ^ 48)
  | .vecScale sid acc => decide (sid < 1088) && decide (acc < 2 ^ 48)
  | .vecConvert sid acc => decide (sid < 1088) && decide (acc < 2 ^ 48)
  | .vecExp sid acc => decide (sid < 1088) && decide (acc < 2 ^ 48)
  | .vecLog sid acc => decide (sid < 1088) && decide (acc < 2 ^ 48)
  | .vecRecip sid acc => decide (sid < 1088) && decide (acc < 2 ^ 48)
  | .vecRsqrt sid acc => decide (sid < 1088) && decide (acc < 2 ^ 48)
  | .vecSqrt sid acc => decide (sid < 1088) && decide (acc < 2 ^ 48)
  | .vecTanh sid acc => decide (sid < 1088) && decide (acc < 2 ^ 48)
  | .vecSigmoid sid acc => decide (sid < 1088) && decide (acc < 2 ^ 48)
  | .vecErf sid acc => decide (sid < 1088) && decide (acc < 2 ^ 48)
  | .rowSum sid acc => decide (sid < 1088) && decide (acc < 2 ^ 48)
  | .rowMax sid acc => decide (sid < 1088) && decide (acc < 2 ^ 48)
  | .rowSumsq sid acc => decide (sid < 1088) && decide (acc < 2 ^ 48)
  | .rowSoftmax sid acc => decide (sid < 1088) && decide (acc < 2 ^ 48)
  | .rampGroupUp n g => decide (n < 256) && decide (g < 8)
  | .rampGroupDown n g => decide (n < 256) && decide (g < 8)
  | .arrCntClear n => decide (n < 256)
  | .deferStarve sid acc => decide (sid < 1088) && decide (acc < 2 ^ 48)
  | .arraySpareMap n a => decide (n < 256) && decide (a < 24)
  | .route sid acc => decide (sid < 1088) && decide (acc < 2 ^ 48)
  | .grant sid acc => decide (sid < 1088) && decide (acc < 2 ^ 48)
  | .dispatch sid acc => decide (sid < 1088) && decide (acc < 2 ^ 48)
  | .tokenArrival g seq srcRank token copies _ => decide (g < 64) && decide (seq < 2 ^ 32) && decide (srcRank < 4100) && decide (token < 2 ^ 32) && copies.all (·.wf)
  | .returnRows sid acc => decide (sid < 1088) && decide (acc < 2 ^ 48)
  | .sum sid acc => decide (sid < 1088) && decide (acc < 2 ^ 48)
  | .curCntClear => true
  | .vaultRead r addr len => r.wf && decide (addr < 2 ^ 44) && decide (len < 2 ^ 32)
  | .vaultWrite r addr _ => r.wf && decide (addr < 2 ^ 44)
  | .sliceArbitration d slice readMask writeMask => decide (d < 2) && decide (slice < 64) && decide (readMask < 256) && decide (writeMask < 256)
  | .add r addr _ v => r.wf && decide (addr < 2 ^ 44) && decide (v < 2 ^ 64)
  | .maxU r addr _ v => r.wf && decide (addr < 2 ^ 44) && decide (v < 2 ^ 64)
  | .minU r addr _ v => r.wf && decide (addr < 2 ^ 44) && decide (v < 2 ^ 64)
  | .maxS r addr _ v => r.wf && decide (addr < 2 ^ 44) && decide (v < 2 ^ 64)
  | .minS r addr _ v => r.wf && decide (addr < 2 ^ 44) && decide (v < 2 ^ 64)
  | .and r addr _ v => r.wf && decide (addr < 2 ^ 44) && decide (v < 2 ^ 64)
  | .or r addr _ v => r.wf && decide (addr < 2 ^ 44) && decide (v < 2 ^ 64)
  | .xor r addr _ v => r.wf && decide (addr < 2 ^ 44) && decide (v < 2 ^ 64)
  | .fmax r addr _ v => r.wf && decide (addr < 2 ^ 44) && decide (v < 2 ^ 64)
  | .fmin r addr _ v => r.wf && decide (addr < 2 ^ 44) && decide (v < 2 ^ 64)
  | .swap r addr _ v => r.wf && decide (addr < 2 ^ 44) && decide (v < 2 ^ 64)
  | .cas r addr _ v c => r.wf && decide (addr < 2 ^ 44) && decide (v < 2 ^ 64) && decide (c < 2 ^ 64)
  | .exactAdd r addr mask addends => r.wf && decide (addr < 2 ^ 44) && decide (mask < 2 ^ 32) && decide (addends.length ≤ 32)
  | .exactRead r addr => r.wf && decide (addr < 2 ^ 44)
  | .exactClear r addr => r.wf && decide (addr < 2 ^ 44)
  | .partitionChange d gib => decide (d < 2) && decide (gib < 64)
  | .partitionChangeDone d => decide (d < 2)
  | .vltFlush d => decide (d < 2)
  | .vltInvalidate d => decide (d < 2)
  | .flushDone d => decide (d < 2)
  | .pageAttrWrite d w value => decide (d < 2) && decide (w < 64) && decide (value < 2 ^ 32)
  | .pageScrubDone pair => decide (pair < 1024)
  | .vltAttrLock => true
  | .vltLfsrSeed d slice seed => decide (d < 2) && decide (slice < 64) && decide (seed < 2 ^ 32)
  | .hbmCntClear k => decide (k < 8)
  | .cohRemoteRequest _ member die line => decide (member < 4) && decide (die < 2) && decide (line < 2 ^ 44)
  | .cohReply line member die _ => decide (line < 2 ^ 44) && decide (member < 4) && decide (die < 2)
  | .cohTimeout line => decide (line < 2 ^ 44)
  | .thermalSample d slices hbms => decide (d < 2) && slices.all (· < 256) && hbms.all (· < 256)
  | .clockStep dom => dom.wf
  | .update sid acc => decide (sid < 1088) && decide (acc < 2 ^ 48)
  | .regen sid acc => decide (sid < 1088) && decide (acc < 2 ^ 48)
  | .digest sid acc => decide (sid < 1088) && decide (acc < 2 ^ 48)
  | .accumulate sid acc => decide (sid < 1088) && decide (acc < 2 ^ 48)
  | .clearBuf sid acc => decide (sid < 1088) && decide (acc < 2 ^ 48)
  | .btrCntClear k => decide (k < 8)
  | .groupCreate g => decide (g < 64)
  | .groupRelease g => decide (g < 64)
  | .colGrpNextSeqWrite g value => decide (g < 64) && decide (value < 2 ^ 32)
  | .allReduce sid acc => decide (sid < 1088) && decide (acc < 2 ^ 48)
  | .reduceScatter sid acc => decide (sid < 1088) && decide (acc < 2 ^ 48)
  | .allGather sid acc => decide (sid < 1088) && decide (acc < 2 ^ 48)
  | .allToAllV sid acc => decide (sid < 1088) && decide (acc < 2 ^ 48)
  | .broadcast sid acc => decide (sid < 1088) && decide (acc < 2 ^ 48)
  | .barrier sid acc => decide (sid < 1088) && decide (acc < 2 ^ 48)
  | .commit sid acc => decide (sid < 1088) && decide (acc < 2 ^ 48)
  | .stageAdmission g seq rank sig _ counts => decide (g < 64) && decide (seq < 2 ^ 32) && decide (rank < 4100) && sig.wf && counts.all (· < 2 ^ 32)
  | .stageGo g seq _ => decide (g < 64) && decide (seq < 2 ^ 32)
  | .stageFail g seq _ => decide (g < 64) && decide (seq < 2 ^ 32)
  | .stageTaint g seq _ => decide (g < 64) && decide (seq < 2 ^ 32)
  | .stageTimeout g seq => decide (g < 64) && decide (seq < 2 ^ 32)
  | .chunkArrival g seq srcRank chunk _ _ => decide (g < 64) && decide (seq < 2 ^ 32) && decide (srcRank < 4100) && decide (chunk < 2 ^ 32)
  | .chunkRetransmit g seq dstRank chunk => decide (g < 64) && decide (seq < 2 ^ 32) && decide (dstRank < 4100) && decide (chunk < 2 ^ 32)
  | .chunkAck g seq dstRank chunk => decide (g < 64) && decide (seq < 2 ^ 32) && decide (dstRank < 4100) && decide (chunk < 2 ^ 32)
  | .creditGrant g seq receiver source => decide (g < 64) && decide (seq < 2 ^ 32) && decide (receiver < 4100) && decide (source < 4100)
  | .stageCompletionReport g seq rank _ => decide (g < 64) && decide (seq < 2 ^ 32) && decide (rank < 4100)
  | .commitDecision g seq _ epoch => decide (g < 64) && decide (seq < 2 ^ 32) && decide (epoch < 2 ^ 32)
  | .commitTimeout g seq => decide (g < 64) && decide (seq < 2 ^ 32)
  | .colStepOkWrite value => decide (value < 2 ^ 32)
  | .portEnable p value => decide (p < 36) && decide (value < 2 ^ 32)
  | .chnPortRetrain p => decide (p < 36)
  | .trainStateDone p r => decide (p < 36) && r.wf
  | .trainStateTimeout p => decide (p < 36)
  | .frameReceive p seq lastSeen credits fecFixed _ _ pkts => decide (p < 36) && decide (seq < 4096) && decide (lastSeen < 4096) && decide (credits.length ≤ 10) && decide (fecFixed < 2 ^ 16) && pkts.all (·.wf)
  | .frameReplay p seq _ => decide (p < 36) && decide (seq < 4096)
  | .laneSerCheck p errs lockMask => decide (p < 36) && decide (errs.length ≤ 9) && decide (lockMask < 512)
  | .portDown p => decide (p < 36)
  | .linkRekey p _ => decide (p < 36)
  | .packetForward pkt queued => pkt.wf && decide (queued.length ≤ 36)
  | .read pkt => pkt.wf
  | .write pkt => pkt.wf
  | .remoteAtomic pkt => pkt.wf
  | .remoteFlag pkt => pkt.wf
  | .responseArrival pkt => pkt.wf
  | .requestRetry acc => decide (acc < 2 ^ 48)
  | .requestBudgetExpiry acc => decide (acc < 2 ^ 48)
  | .orderTimeout src acc => decide (src < 4096) && decide (acc < 2 ^ 48)
  | .chnResyncGo dest => decide (dest < 64)
  | .resyncAck dest => decide (dest < 4096)
  | .chnRiGo => true
  | .livenessProbe => true
  | .liveTimeout pkg => decide (pkg < 4096)
  | .reachDeclaration gen mask => decide (gen < 2 ^ 32) && decide (mask < 2 ^ 4096)
  | .chnFabricEn value => decide (value < 2 ^ 32)
  | .stepAttempt => true
  | .stepTimeout => true
  | .commitRelease => true
  | .stepBoundaryWork peers revisions _ => peers.all (·.wf) && revisions.all (·.wf)
  | .solve sid acc _ => decide (sid < 1088) && decide (acc < 2 ^ 48)
  | .backward sid acc => decide (sid < 1088) && decide (acc < 2 ^ 48)
  | .pressDeadlineCheck sid acc _ iter => decide (sid < 1088) && decide (acc < 2 ^ 48) && decide (iter < 2 ^ 32)
  | .prsCntClear d => decide (d < 2)
  | .getIdentity via => via.wf
  | .getVersion via => via.wf
  | .loadFirmware via => via.wf
  | .ownClaim via => via.wf
  | .ownRelease via => via.wf
  | .htxOwnBreak ag => ag.wf
  | .repairApply via => via.wf
  | .repairRead via => via.wf
  | .jobLoad via => via.wf
  | .jobStart via => via.wf
  | .jobStopBoundary via => via.wf
  | .jobStopNow via => via.wf
  | .jobUnload via => via.wf
  | .jobStatus via => via.wf
  | .setEpoch via => via.wf
  | .ledgerQueryCommand via => via.wf
  | .ledgerQueryRemote via => via.wf
  | .ledgerQueryCommit via => via.wf
  | .ledgerQueryRead via => via.wf
  | .ledgerFwdQuery src req => decide (src < 4096) && decide (req.length ≤ 4032)
  | .ledgerFwdTimeout m => decide (m < 9)
  | .health via => via.wf
  | .debugUnlockChallenge via => via.wf
  | .debugUnlockSubmit via => via.wf
  | .debugUnlockCancel via => via.wf
  | .spdmGetVersion via => via.wf
  | .spdmGetCapabilities via => via.wf
  | .spdmNegotiateAlgorithms via => via.wf
  | .spdmGetDigests via => via.wf
  | .spdmGetCertificate via => via.wf
  | .spdmChallenge via => via.wf
  | .spdmGetMeasurements via => via.wf
  | .spdmUnsupported via => via.wf
  | .custIdentity via => via.wf
  | .custQuote via => via.wf
  | .custHealth via => via.wf
  | .custLedgerTail via => via.wf
  | .custReset via => via.wf
  | .custResetKeepHbm via => via.wf
  | .custPowerDown via _ => via.wf
  | .custInjectOff via => via.wf
  | .custTime via => via.wf
  | .i3cEntdaa address => decide (address < 128)
  | .i3cRequestDiscard => true
  | .htxSqTail q value => decide (q < 64) && decide (value < 2 ^ 32)
  | .htxCqHead q value => decide (q < 64) && decide (value < 2 ^ 32)
  | .htxSqEnable q value => decide (q < 64) && decide (value < 2 ^ 32)
  | .htxSqResume q => decide (q < 64)
  | .htxSqReset q => decide (q < 64)
  | .sqNop q acc => decide (q < 64) && decide (acc < 2 ^ 48)
  | .sqCopyIn q acc => decide (q < 64) && decide (acc < 2 ^ 48)
  | .sqCopyOut q acc => decide (q < 64) && decide (acc < 2 ^ 48)
  | .sqRing q acc => decide (q < 64) && decide (acc < 2 ^ 48)
  | .sqFlag q acc => decide (q < 64) && decide (acc < 2 ^ 48)
  | .htxImEnable v => decide (v < 1024)
  | .heartbeatAdvance => true
  | .heartbeatStall => true
  | .coldPowerUp => true
  | .mainRailPowerUp => true
  | .pkgReset => true
  | .pkgResetRelease => true
  | .pkgPwrokRise _ => true
  | .railFault cause => cause.wf
  | .referenceFault => true
  | .custRefclkLoss => true
  | .mainRailRemoval => true
  | .bootStageEnd => true
  | .bootHalt _ die item => decide (die < 16) && decide (item < 2 ^ 32)
  | .powerSample watts => decide (watts < 2 ^ 16)
  | .powerLimitStep => true
  | .pwrDutyStep => true
  | .edcEvent d => decide (d < 2)
  | .rampWindow d requests => decide (d < 2) && requests.all (· < 136)
  | .thermalTrip => true
  | .thermTripRelease hottest => decide (hottest < 256)
  | .correctableError det die unit item => decide (1 ≤ det) && decide (det ≤ 0x11) && decide (die < 16) && decide (unit < 2 ^ 16) && decide (item < 2 ^ 48)
  | .uncorrectableError det die unit item => decide (1 ≤ det) && decide (det ≤ 0x11) && decide (die < 16) && decide (unit < 2 ^ 16) && decide (item < 2 ^ 48)
  | .csvInjArm => true
  | .csvReplaceGo n => decide (n < 256)
  | .coreReplace n => decide (n < 256)
  | .controlCoreSpare index => decide (index < 4)
  | .ucieModuleRemove die module_ => decide (die < 4) && decide (module_ < 40)
  | .vaultBankSpare d slice bank => decide (d < 2) && decide (slice < 64) && decide (bank < 2 ^ 16)
  | .hbmRowRepair k addr resource => decide (k < 8) && decide (addr < 2 ^ 36) && decide (resource < 2 ^ 16)
  | .beaterLaneSpare k lane => decide (k < 8) && decide (lane < 68)
  | .readClear ag off size => ag.wf && decide (off < 2 ^ 28) && [1, 2, 4, 8].contains size
  | .custodianRailLoss => true
  | .debugPortAccess a => a.wf
  | .cohRecall line _ die => decide (line < 2 ^ 50) && decide (die < 2)
  | .resyncAtTarget src ordSeq => decide (src < 4096) && decide (ordSeq < 2 ^ 32)
  | .mailboxGoUnassigned m ag => decide (m < 8) && ag.wf
  | .submissionEntryFetch q => decide (q < 64)
  | .ledgerFwdReply m reply => decide (m < 9) && decide (reply.length ≤ 4032)

/-- A well-formed command. -/
def WellFormed (i : Instr) : Prop := i.wf = true

end Sys2Proof
end

