-- ==== Sys2Proof/Tests/Slice0.lean ====
section
/-! SUPPORT. Small tests: an ill-formed operand for each kind of check of `Instr.wf`, and for each statement a state and operands that
meet the hypotheses of its clauses; where the manual gives a value, what one command leaves. -/

namespace Sys2Proof.Machine

set_option Elab.async false

/-! Small states. -/

/-- Fields written. -/
def withRegs (l : List (Fld × Nat)) (s : State := State.reset) : State := l.foldl (fun s e => run (setF e.1 e.2) s) s

/-- A command from its words. -/
def descOf (ws : List (Nat × Nat)) : Block64 := BitVec.ofNat 512 (ws.foldl (fun n w => n + w.2 * 2 ^ (32 * w.1)) 0)

/-- Word 0 of a command: CLASS, OPCODE and the bits above. -/
def hdr (cls op : Nat) (above : Nat := 0) : Nat × Nat := (0, cls + 256 * op + above)

/-- A fetched command. -/
def cmdOf (acc : Nat) (ws : List (Nat × Nat)) : Cmd := ⟨acc, descOf ws, 0, none, acc, none, .none, false, 0, 0, none, 0, []⟩

/-- A stream that has issued these commands. -/
def withIssued (sid : Nat) (cs : List Cmd) (s : State := State.reset) : State :=
  { s with strms := nset s.strms sid { s.strm sid with issued := cs } }

/-- A stream that holds these commands. -/
def withHeld (sid : Nat) (cs : List Cmd) (s : State := State.reset) : State :=
  { s with strms := nset s.strms sid { s.strm sid with ahead := cs } }

/-- Bytes in device memory. -/
def withMem (a : Nat) (bs : List Byte) (s : State := State.reset) : State :=
  { s with mem := bs.zipIdx.foldl (fun m b => setByte m (a + b.2) b.1) s.mem }

/-- The command completes, and the state it leaves passes the test. -/
def after (i : Instr) (s : State) (p : State → Bool) : Bool :=
  match exec i s with
  | .next t => p t
  | _ => false

/-- The newest event is the END of this command. -/
def isEnd (src : Src) (acc : Nat) (st : Status) (t : State) : Bool :=
  match t.ledger.events with
  | e :: _ => e.src == src && e.acc == acc && e.status == st && (match e.body with | .fin _ _ _ => true | _ => false)
  | [] => false

/-! Well-formed operands. -/

theorem test_wf_refuses_stream : (Instr.doorbell 1088 0).wf = false ∧ (Instr.doorbell 1087 0).wf = true ∧ (Instr.nop 0 (2 ^ 48)).wf = false := by decide
theorem test_wf_refuses_flag : (Instr.flagSet 256 0 0 .none).wf = false ∧ (Instr.flagSet 0 48 0 .none).wf = false ∧ (Instr.flagSet 0 47 (2 ^ 32) .none).wf = false ∧
    (Instr.flagSet 0 0 0 (.barrier 8 0)).wf = false ∧ (Instr.flagSet 255 47 0 (.barrier 7 0)).wf = true := by decide
theorem test_wf_refuses_access : (Instr.registerWrite (.core 256) 0 4 0).wf = false ∧ (Instr.registerWrite .registrar 0 3 0).wf = false ∧
    (Instr.registerWrite .registrar (2 ^ 28) 4 0).wf = false ∧ (Instr.readClear .registrar 0 16).wf = false ∧
    (Instr.registerWrite .registrar 0 8 (2 ^ 64)).wf = false := by decide
theorem test_wf_refuses_unit : (Instr.coreGate 256).wf = false ∧ (Instr.rampGroupUp 0 8).wf = false ∧ (Instr.arraySpareMap 0 24).wf = false ∧
    (Instr.lateArrival (.group 64)).wf = false ∧ (Instr.lateArrival (.coherence 2)).wf = false ∧ (Instr.groupCreate 64).wf = false := by decide
theorem test_wf_refuses_memory : (Instr.vaultRead .host (2 ^ 44) 1).wf = false ∧ (Instr.vaultRead (.engine 1023) 0 1).wf = false ∧
    (Instr.vaultWrite (.remote 4096) 0 []).wf = false ∧ (Instr.exactAdd .registrar 0 0 (List.replicate 33 0)).wf = false ∧
    (Instr.pageAttrWrite 0 64 0).wf = false ∧ (Instr.sliceArbitration 0 64 0 0).wf = false ∧ (Instr.cohTimeout (2 ^ 44)).wf = false := by decide
theorem test_wf_refuses_stage : (Instr.stageAdmission 0 0 4100 ⟨0, 0, 0, 0, 0, 0, 0⟩ none []).wf = false ∧
    (Instr.stageAdmission 0 0 0 ⟨0, 256, 0, 0, 0, 0, 0⟩ none []).wf = false ∧ (Instr.tokenArrival 0 0 0 0 [⟨256, 0, 0, 0, 0⟩] []).wf = false ∧
    (Instr.chunkAck 0 0 0 (2 ^ 32)).wf = false := by decide
theorem test_wf_refuses_port : (Instr.portEnable 36 1).wf = false ∧ (Instr.trainStateDone 0 (.lanes 512)).wf = false ∧
    (Instr.trainStateDone 0 (.peer 4096 0)).wf = false ∧ (Instr.frameReceive 0 4096 0 [] 0 true true []).wf = false ∧
    (Instr.read { Packet.blank with type := .unassigned 11 }).wf = false ∧ (Instr.laneSerCheck 0 (List.replicate 10 0) 0).wf = false := by decide
theorem test_wf_refuses_job : (Instr.stepBoundaryWork [⟨8, 0, []⟩] [] ⟨true, false⟩).wf = false ∧
    (Instr.stepBoundaryWork [] [⟨0, [2 ^ 64]⟩] ⟨true, false⟩).wf = false ∧ (Instr.getIdentity (.mailbox 8)).wf = false ∧
    (Instr.getIdentity (.i3c (2 ^ 16) [])).wf = false ∧ (Instr.i3cEntdaa 128).wf = false ∧ (Instr.htxImEnable 1024).wf = false := by decide
theorem test_wf_refuses_power : (Instr.clockStep (.hbm 8)).wf = false ∧ (Instr.railFault (.groupOrder 16)).wf = false ∧ (Instr.powerSample 65536).wf = false ∧
    (Instr.rampWindow 0 [136]).wf = false ∧ (Instr.thermTripRelease 256).wf = false ∧ (Instr.debugPortAccess (.haltCore 4)).wf = false ∧
    (Instr.correctableError 0 0 0 0).wf = false ∧ (Instr.ucieModuleRemove 0 40).wf = false := by decide +kernel

/-! The queue, the invariant, the reserved bits. -/

theorem witness_queue : ({ State.reset with pending := [.doorbell 0 3] } : State).pending = Instr.doorbell 0 3 :: [] ∧ State.reset.pending = [] := ⟨rfl, rfl⟩
theorem witness_completes : after (.doorbell 0 3) State.reset (fun _ => true) = true := by decide +kernel
theorem witness_invariant : StateInv { State.reset with pending := [.doorbell 0 3] } ∧
    step { State.reset with pending := [.doorbell 0 3] } = exec (.doorbell 0 3) State.reset := by
  refine ⟨?_, rfl⟩
  constructor <;> first | exact dense_reset | decide
theorem test_reserved_bits_ignored : after (.registerWrite .registrar (Reg.strmEnable 0).off 4 0xFFFFFFF1) State.reset
    (fun t => (t.word (Reg.strmEnable 0).off).toNat ≤ 1) = true := by decide +kernel

/-! Streams, flags and the SYNC class (02). -/

theorem witness_flags : State.reset.outOfService 0 = false ∧ State.reset.outOfService 255 = false ∧
    (withRegs [(Reg.csvOutOfService 7, 2 ^ 31)]).outOfService 255 = true ∧
    after (.flagAdd 255 47 1 .store) { State.reset with flags := [(64 * 255 + 47, ⟨0xFFFFFFFF, .none⟩)] } (fun t => t.flagAt 255 47 == ⟨0, .store⟩) = true ∧
    after (.flagMax 0 0 3 .store) { State.reset with flags := [(0, ⟨5, .none⟩)] } (fun t => t.flagAt 0 0 == ⟨5, .store⟩) = true := by decide +kernel
/-- 02 R42: bits at and above STRM_SIZE are ignored. -/
theorem witness_doorbell : after (.doorbell 1087 0x35) (withRegs [(Reg.strmSize 1087, 4)]) (fun t => t.fld (Reg.strmTail 1087) == 5) = true := by decide +kernel
theorem witness_enable :
    (let s := withRegs [(Reg.strmBaseLo 0, 1)]
     s.outOfService 0 = false ∧ s.fld (Reg.btrLendMode 0) = 0 ∧ s.ringOk 0 = true ∧ after (.streamEnable 0) s (fun t => t.fld (Reg.strmEnable 0) == 1) = true) ∧
    (withRegs [(Reg.strmBaseHi 1087, 0x90)]).ringOk 1087 = false ∧
    after (.streamEnable 1023) (withRegs [(Reg.csvOutOfService 7, 2 ^ 31)]) (fun t => t.fld (Reg.strmLastStatus 1023) == 0x32) = true ∧
    after (.streamEnable 0) (withRegs [(Reg.btrLendMode 0, 1)]) (fun t => t.fld (Reg.strmLastStatus 0) == 4) = true := by decide +kernel
/-- A halted stream with a faulted command behind a held one. -/
def haltedStream (issued : List Cmd) : State :=
  { State.reset with strms := [(0, { Strm.reset with halted := true, faulted := [cmdOf 1 [hdr 1 0]], ahead := [cmdOf 2 [hdr 1 0]], issued := issued })] }
theorem witness_resume : ((haltedStream []).strm 0).halted = true ∧ ((haltedStream []).strm 0).issued = [] ∧ ((haltedStream []).strm 0).resetting = false ∧
    ((haltedStream [cmdOf 3 [hdr 1 0]]).strm 0).issued ≠ [] ∧ (State.reset.strm 1087).halted = false ∧
    after (.resumeRetry 0) (haltedStream []) (fun t => ((t.strm 0).ahead.map (·.pred)) == [some 1, none]) = true ∧
    after (.streamReset 0) (haltedStream []) (fun t => t.strm 0 == Strm.reset && t.ledger.next == 1) = true := by decide +kernel
/-- A stream with one command in its ring in HBM at 0x1000. -/
def fetching : State := withRegs [(Reg.strmBaseLo 0, 1), (Reg.strmEnable 0, 1), (Reg.strmTail 0, 1)]
theorem witness_fetch : fetching.mayIssue 0 = true ∧ fetching.fld (Reg.strmHead 0) ≠ fetching.fld (Reg.strmTail 0) ∧ (fetching.strm 0).ahead.length < 8 ∧
    State.reset.mayIssue 0 = false ∧ ((withHeld 0 (List.replicate 8 (cmdOf 1 [])) fetching).strm 0).ahead.length = 8 := by decide +kernel
/-- 02 R43, R47: the slot at the head, under number 1. -/
theorem test_fetch : after (.commandFetch 0) (withMem 0x1000 [0x01, 0x00] fetching)
    (fun t => ((t.strm 0).ahead.map fun c => (c.acc, dClass c.desc)) == [(1, 1)] && t.fld (Reg.strmHead 0) == 1 && t.accNext 0 == 2) = true := by decide +kernel
/-- An enabled stream that holds one command. -/
def holding (c : Cmd) : State := withHeld 0 [c] (withRegs [(Reg.strmBaseLo 0, 1), (Reg.strmEnable 0, 1)])
/-- A NOP that waits for flag 3 of core 2 to reach 5. -/
def waitingNop : Cmd := cmdOf 1 [hdr 1 0, (1, 2 + 3 * 2 ^ 8 + 2 ^ 16), (2, 5), (5, 1)]
theorem witness_issue :
    (let c := cmdOf 1 [hdr 1 0]
     (holding c).mayIssue 0 = true ∧ ((holding c).strm 0).ahead = [c] ∧ (holding c).earlyFault 0 c = none ∧ ((holding c).strm 0).wait = .idle ∧
     dWaitCond c.desc = 0 ∧ (holding c).unitHasRoom 0 c.desc = true ∧ isOrdered c.desc = false ∧ (holding c).hasTurn 0 = true ∧
     (withHeld 1 [c] (withRegs [(Reg.strmBaseLo 1, 1), (Reg.strmEnable 1, 1)] (holding c))).hasTurn 1 = false) ∧
    (let c := cmdOf 1 [hdr 0x7F 0]
     (holding c).earlyFault 0 c = some .descriptorFault) ∧
    ((holding waitingNop).earlyFault 0 waitingNop = none ∧ dWaitCond waitingNop.desc ≠ 0 ∧ (holding waitingNop).waitHolds waitingNop.desc = false) := by decide +kernel
/-- 02 R58: the stream watches the flag, and a SET to 5 wakes it with its signaller. -/
theorem test_watch : after (.commandIssue 0) (holding waitingNop) (fun t => (t.strm 0).wait == .watching &&
    after (.flagSet 2 3 5 (.stream 9 7)) t (fun u => (u.strm 0).wait == .woken (.stream 9 7))) = true := by decide +kernel
/-- The same stream while it watches or polls, with the flag at a value. -/
def watchingNop (w : Wait) (v : Word) : State :=
  { State.reset with strms := [(0, { Strm.reset with ahead := [waitingNop], wait := w })], flags := [(64 * 2 + 3, ⟨v, .store⟩)] }
theorem witness_waits : dTimeout waitingNop.desc ≠ 0 ∧ (watchingNop .watching 4).waitHolds waitingNop.desc = false ∧
    (watchingNop .polling 5).waitHolds waitingNop.desc = true ∧ State.reset.fld (lateFld (.stream 1087)) + 1 < 2 ^ (lateFld (.stream 1087)).w ∧
    State.reset.fld (lateFld (.group 63)) + 1 < 2 ^ (lateFld (.group 63)).w ∧ (withRegs [(Reg.strmEnable 1020, 1), (Reg.strmEnable 1021, 1), (Reg.strmEnable 1022, 1), (Reg.strmEnable 1023, 1)]).mayGate 255 = true ∧
    after (.waitTimeout 0 1) (watchingNop .watching 4) (isEnd (.stream 0) 1 .timeout) = true ∧
    after (.watchPoll 0) (watchingNop .polling 5) (fun t => (t.strm 0).wait == .woken .store) = true := by decide +kernel
/-- 02 R57: ADD to flag 47 of core 255 wraps. -/
theorem witness_nop :
    let c := cmdOf 1 [hdr 1 0 (2 ^ 19), (3, 255 + 47 * 2 ^ 8 + 2 ^ 16), (4, 2)]
    let s := withIssued 0 [c] { State.reset with flags := [(64 * 255 + 47, ⟨0xFFFFFFFF, .none⟩)] }
    s.issuedCmd 0 1 0x01 0 = some c ∧ dSigEn c.desc = true ∧ dSigFlag c.desc < 48 ∧ s.outOfService (dSigCore c.desc) = false ∧
    after (.nop 0 1) s (fun t => isEnd (.stream 0) 1 .ok t && t.flagAt 255 47 == ⟨1, .stream 0 1⟩) = true := by decide +kernel
/-- 02 R53: the tail and ADVANCE modulo the entry count. -/
theorem witness_sync_doorbell :
    let c := cmdOf 1 [hdr 1 3, (8, 1087), (9, 0xFFFF)]
    let s := withIssued 0 [c] (withRegs [(Reg.strmTail 1087, 3)])
    s.issuedCmd 0 1 0x01 3 = some c ∧ dfld c.desc 8 0 11 = 1087 ∧ dfld c.desc 9 0 16 ≠ 0 ∧ fetching.mayIssue 0 = true ∧
    State.reset.fld (Reg.strmEnable 1087) = 0 ∧ (withIssued 0 [cmdOf 1 [hdr 1 3]]).issuedCmd 0 1 0x01 3 = some (cmdOf 1 [hdr 1 3]) ∧
    after (.syncDoorbell 0 1) s (fun t => isEnd (.stream 0) 1 .ok t && t.fld (Reg.strmTail 1087) == 2) = true := by decide +kernel
/-- Channel 7 with the participants of cores 0 and 1, by MASK bits of the participants, with some arrived. -/
def barState (op : Nat) (en : Bool) (mask : Nat) (arrived : List Nat) (gen : Nat := 0) (phase : Nat := 0) : State :=
  let s := withIssued 0 [{ cmdOf 1 [hdr 1 op, (8, 7), (9, gen)] with phase := phase }]
    (withRegs [(Reg.rgsBarEnable 7, if en then 1 else 0), (Reg.rgsBarCores 7 0, mask)])
  { s with bars := [(7, ⟨arrived, []⟩)] }
theorem witness_barrier :
    (barState 1 true 3 []).issuedCmd 0 1 0x01 1 = some (cmdOf 1 [hdr 1 1, (8, 7)]) ∧
    (barState 1 true 3 []).judgeArrival 7 (participantOf 0) 0 = .counted ∧
    (((barState 1 true 3 []).participants 7).all fun p => [participantOf 0].contains p) = false ∧
    (((barState 1 true 1 []).participants 7).all fun p => [participantOf 0].contains p) = true ∧
    (barState 1 true 1 []).judgeArrival 7 (participantOf 0) 0 = .counted ∧
    (barState 1 true 0 []).judgeArrival 7 (participantOf 0) 0 = .empty ∧
    (barState 1 false 3 []).judgeArrival 7 (participantOf 0) 0 = .refused .flagFault ∧
    (barState 2 true 1 []).issuedCmd 0 1 0x01 2 = some (cmdOf 1 [hdr 1 2, (8, 7)]) ∧ (barState 2 true 1 []).barrierWaiters 7 = [] ∧
    condHolds 1 ((barState 2 true 1 [] 0xFFFFFFFF 1).fld (Reg.rgsBarGen 7)) ((0xFFFFFFFF + 1) % 2 ^ 32) = true ∧
    after (.barrierArrive 0 1) (barState 1 true 1 []) (fun t => isEnd (.stream 0) 1 .ok t && t.fld (Reg.rgsBarGen 7) == 1) = true ∧
    after (.arriveWait 0 1) (barState 2 true 3 []) (fun t => t.ledger.events.isEmpty && (t.bar 7).arrived == [participantOf 0]) = true := by decide +kernel
/-- A core whose stream 3 has issued TASK_BEGIN or TASK_END. -/
def taskState (op : Nat) (opened flt : Nat) (snap : List (Nat × Word)) : State :=
  let s := withIssued 1023 [cmdOf 1 [hdr 1 op, (8, 0), (9, 2 ^ 15)]] (withRegs [(Reg.coreTaskOpen 255, opened), (Reg.coreFlagFault 255, flt)])
  { s with cores := [(255, { CoreX.reset with snap := snap })] }
theorem witness_task : (taskState 4 0 0 []).issuedCmd 1023 1 0x01 4 = some (cmdOf 1 [hdr 1 4, (9, 2 ^ 15)]) ∧
    (taskState 4 0 0 []).fld (Reg.coreTaskOpen 255) = 0 ∧ (taskState 4 0 0 []).fld (Reg.coreFlagFault 255) = 0 ∧ (taskState 4 0 1 []).fld (Reg.coreFlagFault 255) = 1 ∧
    (taskState 5 1 0 [(47, 1)]).issuedCmd 1023 1 0x01 5 = some (cmdOf 1 [hdr 1 5, (9, 2 ^ 15)]) ∧ (taskState 5 1 0 [(47, 1)]).fld (Reg.coreTaskOpen 255) = 1 ∧
    ((taskState 5 1 0 [(47, 1)]).flagAt 255 47).val ≠ 1 ∧ ((taskState 5 1 0 [(47, 0)]).flagAt 255 47).val = 0 ∧ (taskState 5 1 0 [(47, 1)]).waitersOn 255 [47] = [] ∧
    after (.taskBegin 1023 1) (taskState 4 0 0 []) (fun t => (t.core 255).snap == [(47, 0)]) = true ∧
    after (.taskEnd 1023 1) (taskState 5 1 0 [(47, 1)]) (fun t => isEnd (.stream 1023) 1 .flagFault t && t.fld (Reg.coreFlagResidueHi 255) == 2 ^ 15) = true := by
  decide +kernel
/-- 02 R54: COUNT, TAG and the stream's id. -/
theorem witness_shape :
    let c := cmdOf 1 [hdr 1 6 (0xAB * 2 ^ 24), (8, 7), (10, 0x1000)]
    let s := withIssued 1023 [c]
    Memory.wf s.mem ∧ s.issuedCmd 1023 1 0x01 6 = some c ∧ daddr c.desc 10 11 12 = 0x1000 ∧ shapeRange (s.extent 0x1000 8) = true ∧
    s.reach (requesterOf 1023) .write 0x1000 8 = true ∧ coreOfAddr 0x1000 = none ∧ s.writeHurt 0x1000 8 = none ∧
    after (.shapeWrite 1023 1) s (fun t => bytesAt t.mem 0x1000 8 == [7, 0, 0, 0, 0xAB, 0xFF, 3, 0]) = true ∧
    after (.shapeWrite 0 1) (withIssued 0 [cmdOf 1 [hdr 1 6, (10, 0x1004)]]) (isEnd (.stream 0) 1 .addressFault) = true := by decide +kernel
theorem witness_shape_fails :
    let c := cmdOf 1 [hdr 1 6, (11, 0x90)]
    let s := withIssued 0 [c]
    daddr c.desc 10 11 12 = lsAddr 0 0 ∧ shapeRange (s.extent (lsAddr 0 0) 8) = true ∧ s.reach (requesterOf 0) .write (lsAddr 0 0) 8 = true ∧
    coreOfAddr (lsAddr 0 0) = some 0 ∧ (withRegs [(Reg.csvOutOfService 0, 1)]).outOfService 0 = true ∧
    { s with hurt := [(lsAddr 0 0, ⟨true, false⟩)] }.writeHurt (lsAddr 0 0) 8 = some .memoryFault ∧
    after (.shapeWrite 0 1) (withIssued 0 [c] (withRegs [(Reg.csvOutOfService 0, 1)])) (isEnd (.stream 0) 1 .unitFault) = true ∧
    after (.shapeWrite 0 1) { s with hurt := [(lsAddr 0 0, ⟨true, false⟩)] } (isEnd (.stream 0) 1 .memoryFault) = true := by decide +kernel

/-! Vector and array commands (03–05). -/

/-- VEC_ADD of two FP32 elements on core 0, its drain record of zeros at 0xC0. -/
def vecCmd : Cmd := cmdOf 1 [hdr 5 0, (8, 0xF * 2 ^ 22), (9, 0x40 + 0xF * 2 ^ 22), (10, 0x80 + 0xF * 2 ^ 22), (11, 2), (14, 3 * 2 ^ 16), (15, 64)]
/-- 1, 2 and 2, 4 as its sources. -/
def vecState : State := withMem 0x09000000040 [0, 0, 0, 0x40, 0, 0, 0x80, 0x40]
  (withMem 0x09000000000 [0, 0, 0x80, 0x3F, 0, 0, 0, 0x40] (withIssued 0 [vecCmd]))
/-- The same command asked of no elements, and of a format code not assigned. -/
def vecCmdOf (fmt n : Nat) : Cmd := cmdOf 1 [hdr 5 0, (8, fmt * 2 ^ 22), (9, 0xF * 2 ^ 22), (10, 0xF * 2 ^ 22), (11, n)]
theorem witness_vector :
    let v := VecOp.add.job vecState 0 vecCmd.desc
    let j := v.drainOf 0 vecState
    let o := v.output j vecState
    Memory.wf vecState.mem ∧ vecState.issuedCmd 0 1 0x05 0x00 = some vecCmd ∧ vecState.vectorTurn 0 vecCmd = true ∧ v.cls.or v.shapes = none ∧ v.count ≠ 0 ∧ (v.drain 0 0).elemExtent ≤ v.room ∧
    (∀ e ∈ v.exts 0, lsExtent e.1 e.2 = true) ∧ vecState.readHurt (v.recAddr 0) 64 = none ∧ j.faults vecState 0 = none ∧ vecState.gate j = .open_ ∧
    vecState.anyHurt ((v.srcs.map fun x => (x.2.base, x.2.extent)) ++ drainReads j 0) = none ∧ vecState.isArmed 0x03 0 = false ∧
    vecState.piecesHurt (o.1.bytes ++ o.2) = none ∧ j.layer o.1 = false ∧ j.event o.1 = false ∧ j.censusEn = false ∧
    o.2 ++ o.1.bytes = [(0x09000000080, [0, 0, 0x40, 0x40, 0, 0, 0xC0, 0x40])] := by decide +kernel
theorem witness_vector_turn :
    let s := withIssued 1 [{ vecCmd with turn := 1 }] (withIssued 0 [vecCmd])
    s.issuedCmd 1 1 0x05 0x00 = some { vecCmd with turn := 1 } ∧ s.vectorTurn 1 { vecCmd with turn := 1 } = false ∧
    after (.vecAdd 1 1) s (· == s) = true := by decide +kernel
theorem witness_vector_checks :
    (VecOp.add.job (withIssued 0 [vecCmdOf 0xC 1]) 0 (vecCmdOf 0xC 1).desc).cls = some .descriptorFault ∧
    (let v := VecOp.add.job (withIssued 0 [vecCmdOf 0xF 0]) 0 (vecCmdOf 0xF 0).desc
     v.cls.or v.shapes = none ∧ v.count = 0) ∧
    after (.vecAdd 0 1) (withIssued 0 [vecCmdOf 0xC 1]) (isEnd (.stream 0) 1 .descriptorFault) = true ∧
    after (.vecAdd 0 1) (withIssued 0 [vecCmdOf 0xF 0]) (isEnd (.stream 0) 1 .ok) = true := by decide +kernel
/-- 03 R93: element operations on FP32 codes. -/
theorem test_vector_elements :
    (VecOp.sub.element 0x40400000 0x3F800000 0 0 0).1 = 0x40000000 ∧ (VecOp.mul.element 0x40400000 0xC0000000 0 0 0).1 = 0xC0C00000 ∧
    (VecOp.fma.element 0x40000000 0x40400000 0x3F800000 0 0).1 = 0x40E00000 ∧ (VecOp.max.element 0x80000000 0 0 0 0).1 = 0 ∧
    (VecOp.min.element 0x3F800000 0x40000000 0 0 0).1 = 0x3F800000 ∧ VecOp.mul.element 0x7F000000 0x40000000 0 0 0 = (0x7F800000, 1) ∧
    rowMaxOf [0x3F800000, 0x40000000, 0xC0000000] = 0x40000000 ∧ (rowSumOf [(0x3F800000, 0), (0x40000000, 0)]).1 = 0x40400000 ∧
    (rowSumsqOf [(0x40000000, 0), (0x40400000, 0)]).1 = 0x41500000 := by decide +kernel
/-- GEMM of one BF16 product on core 255: A at 0, B at 0x200, the FP32 output at 0x400, the drain record of zeros at 0x800. -/
def gemmCmd : Cmd :=
  cmdOf 1 [hdr 3 0, (9, 0x200), (10, 0x400 + 0xF * 2 ^ 22), (11, 1 + 2 ^ 16), (12, 1), (13, 2 ^ 23), (14, 0x20), (15, 1024)]
/-- A is 1.5, B is 2. -/
def gemmState : State := withMem 0x0903FC00200 [0, 0x40] (withMem 0x0903FC00000 [0xC0, 0x3F] (withIssued 1023 [gemmCmd]))
theorem witness_array :
    let v := gemmJob gemmState 1023 gemmCmd.desc
    let j := v.drainOf 1023 gemmState
    let o := v.out j gemmState
    let used := arraysUsed v.mask (v.tiles j gemmState)
    Memory.wf gemmState.mem ∧ gemmState.issuedCmd 1023 1 0x03 0 = some gemmCmd ∧ v.cls.or v.shapes = none ∧ v.empty = false ∧ v.big = false ∧
    (∀ e ∈ v.exts ++ [(64 * v.drainOff, 64)], lsExtent e.1 e.2 = true) ∧ gemmState.readHurt (v.recAddr 1023) 64 = none ∧
    j.faults gemmState v.gradRows = none ∧ Nat.land v.mask (gemmState.fld (Reg.arrFailed 255)) = 0 ∧ used = [23] ∧
    (∀ a ∈ used, a ∉ (gemmState.core 255).sparing ∧ gemmState.isArmed 0x02 (32 * 255 + a) = false) ∧
    gemmState.yields 1023 gemmCmd used = false ∧ gemmState.gate j = .open_ ∧ gemmState.anyHurt (v.reads ++ v.accs j gemmState ++ drainReads j v.gradRows) = none ∧
    gemmState.isArmed 0x03 255 = false ∧ gemmState.piecesHurt (o.1.bytes ++ o.2) = none ∧ j.layer o.1 = false ∧ j.event o.1 = false ∧ j.censusEn = false ∧
    lastByte (o.2 ++ o.1.bytes) 0x0903FC00403 = some 0x40 ∧ lastByte (o.2 ++ o.1.bytes) 0x0903FC00402 = some 0x40 := by decide +kernel
/-- A GEMM on the same array is served first, or its array waits for the spare. -/
theorem witness_array_turn :
    let c := { gemmCmd with turn := 1 }
    let s := withIssued 1023 [c] (withIssued 1022 [gemmCmd])
    let w := { gemmState with cores := [(255, { CoreX.reset with sparing := [23] })] }
    s.issuedCmd 1023 1 0x03 0 = some c ∧ s.yields 1023 c [23] = true ∧ after (.gemm 1023 1) s (· == s) = true ∧
    after (.gemm 1023 1) w (· == w) = true := by decide +kernel
/-- Commands of the five rows that ask for nothing, or that name no array. -/
theorem witness_array_checks :
    (∀ r ∈ arrayRows, let c := cmdOf 1 [hdr r.1 r.2.1]
      let v := r.2.2.1 (withIssued 0 [c]) 0 c.desc
      v.cls.or v.shapes = some .descriptorFault) ∧
    (∀ r ∈ [((3, 0, gemmJob) : Nat × Nat × (State → Nat → Block64 → ArrayJob)), (3, 1, eltwiseJob)], let c := cmdOf 1 [hdr r.1 r.2.1, (10, 0xF * 2 ^ 22), (13, 1)]
      let v := r.2.2 (withIssued 0 [c]) 0 c.desc
      v.cls.or v.shapes = none ∧ v.empty = true) ∧
    after (.gemm 0 1) (withIssued 0 [cmdOf 1 [hdr 3 0, (10, 0xF * 2 ^ 22), (13, 1)]]) (isEnd (.stream 0) 1 .ok) = true := by decide +kernel
/-- A core whose GEMM of two tiles uses arrays 0 and 23, with array groups up. -/
def rampState (up : Nat) : State :=
  withIssued 1020 [cmdOf 1 [hdr 3 0, (9, 0x1000), (10, 0x2000 + 0xF * 2 ^ 22), (11, 17 + 2 ^ 16), (12, 1), (13, 1 + 2 ^ 23), (14, 0x100), (15, 2048)]]
    (withRegs [(Reg.arrUp 255, up)])
/-- A core one of whose arrays waits for the spare. -/
def sparingState (used : Nat) : State := 
  { State.reset with ctl := [((Reg.arrFailed 255).off, 0), ((Reg.arrSpareUsed 255).off, BitVec.ofNat 32 used)], cores := [(255, { CoreX.reset with sparing := [23] })] }
theorem witness_arrays :
    ((rampState 7).heldArray 255).map (fun h => (rampState 7).arraysOfCmd h.1 h.2) = [[0, 23]] ∧ (rampState 7).fld (Reg.arrUp 255) = 7 ∧
    (withRegs [(Reg.arrUp 255, 0xE00E07)]).heldArray 255 = [] ∧ State.reset.fld (Reg.arrDeferStarve 255) ≠ 0 ∧
    dDefer (cmdOf 1 [hdr 6 0, (10, 2 ^ 28)]).desc = true ∧ 23 ∈ ((sparingState 0).core 255).sparing ∧ (sparingState 0).fld (Reg.arrSpareUsed 255) = 0 ∧
    (sparingState 1).fld (Reg.arrSpareUsed 255) = 1 ∧
    after (.rampGroupUp 255 7) (rampState 7) (fun t => t.fld (Reg.arrUp 255) == 0xE00007) = true ∧
    after (.rampGroupUp 255 7) (rampState 0) (· == rampState 0) = true ∧
    after (.rampGroupDown 255 3) (rampState 0xE00E07) (fun t => t.fld (Reg.arrUp 255) == 0xE00007) = true ∧
    after (.rampGroupDown 255 7) (rampState 0xE00E07) (· == rampState 0xE00E07) = true ∧
    after (.arrCntClear 255) (withRegs [(Reg.arrTiles 255, 3)]) (fun t => t.fld (Reg.arrTiles 255) == 0) = true ∧
    after (.deferStarve 1023 1) (withIssued 1023 [cmdOf 1 [hdr 6 0, (10, 2 ^ 28)]]) (fun t => (t.core 255).starved == [1023 + 2048]) = true ∧
    after (.arraySpareMap 255 22) (sparingState 0) (· == sparingState 0) = true ∧
    after (.arraySpareMap 255 23) (sparingState 0) (fun t => t.fld (Reg.arrSpareFor 255) == 23) = true ∧
    after (.arraySpareMap 255 23) (sparingState 1) (fun t => t.fld (Reg.arrFailed 255) == 2 ^ 23 && t.fld (Reg.csvPending 7) == 2 ^ 31) = true := by decide +kernel

/-! The Curator (06) and the groups (09). -/

/-- `n` bytes made of words. -/
def recOf (n : Nat) (ws : List (Nat × Nat)) : List Byte := leBytes n (ws.foldl (fun k w => k + w.2 * 2 ^ (32 * w.1)) 0)

/-- Fields that form group 63 of `n` members along X, this package being the one of rank `me`. -/
def groupRegs (n me : Nat) : List (Fld × Nat) :=
  [(Reg.chnX, me), (Reg.grpExtX 63, n), (Reg.grpExtY 63, 1), (Reg.grpExtZ 63, 1), (Reg.grpStrideX 63, 1), (Reg.grpStrideY 63, 1), (Reg.grpStrideZ 63, 1),
   (Reg.colGrpState 63, 2), (Reg.colGrpMyRank 63, me)]

/-- A layer of two experts, one of them chosen, on one member of group 63: its record at 0x1000, its placement table at 0x2000, one token's
FP32 logits at 0x3000, its route record at 0x4000 and its send lists at 0x6000. -/
def layerMem (logit0 : Nat) (s : State) : State :=
  withMem 0x3000 (recOf 8 [(0, logit0), (1, 0x3F800000)]) (withMem 0x2000 (recOf 132 [(1, 2), (2, 2), (16, 2 ^ 31), (32, 2 ^ 31 + 2 ^ 16)])
    (withMem 0x1000 (recOf 128 [(0, 0x3000), (1, 0xF000), (4, 0x2000), (6, 0x4000), (8, 0x6000), (10, 0xA000), (14, 80), (15, 2056), (16, 2 + 2 ^ 13),
      (17, 16), (18, 1), (19, 256 + 2 ^ 16), (20, 2 ^ 8 + 63 * 2 ^ 17)]) s))
/-- A Curator command of that layer on stream 1039. -/
def curCmd (op : Nat) (ws : List (Nat × Nat)) : Cmd := cmdOf 1 ([hdr 0x10 op, (8, 0x1000)] ++ ws)
/-- The layer, with a command issued. -/
def curState (c : Cmd) (logit0 : Nat := 0) (regs : List (Fld × Nat) := []) : State := layerMem logit0 (withIssued 1039 [c] (withRegs (groupRegs 1 0 ++ regs)))

theorem witness_route :
    let c := curCmd 0 [(10, 1)]
    let s := curState c
    let l := s.layer 0x1000
    Memory.wf s.mem ∧ s.issuedCmd 1039 1 0x10 0 = some c ∧ s.layerFault 0x1000 = none ∧ s.shapeFault 1039 c.desc = none ∧ s.countOf 1039 c.desc 0 (dword c.desc 10) = 1 ∧
    64 + 16 * 1 * l.k ≤ lfld l 14 0 32 ∧ 2048 + 8 * 1 * min l.k l.members ≤ lfld l 15 0 32 ∧ s.routeExtentsOk (requesterOf 1039) l 1 = true ∧
    s.placeOk l = true ∧ NMap.Rising s.orders ∧
    s.ready ([(true, l.routeAddr, 64 + 16 * 1 * l.k), (true, l.sendAddr, 2048 + 8 * 1 * min l.k l.members)] ++ l.histExts ++ readExts (routeReads l 1)) = true ∧
    s.anyHurt (routeReads l 1 ++ [(l.routeAddr, 64 + 16 * 1 * l.k)]) = none ∧ s.histFault (requesterOf 1039) l = none ∧ l.histEn = false ∧
    s.cons.armed = [] ∧ s.writeHurt l.sendAddr 2056 = none ∧
    (sendBytes (sendLists l.members (routeOn l 1 (List.replicate l.experts 0) (List.range 1) s.mem s).2.1)).length = 2056 ∧
    (routeOn l 1 (List.replicate l.experts 0) (List.range 1) s.mem s).2.2 = none ∧
    (routeOn l 1 (List.replicate l.experts 0) (List.range 1) (curState c 0x7FC00000).mem (curState c 0x7FC00000)).2.2 = some 0 := by decide +kernel
theorem witness_route_checks :
    (curState (curCmd 0 [])).countOf 1039 (curCmd 0 []).desc 0 0 = 0 ∧ (curState (curCmd 0 [(10, 2)])).countOf 1039 (curCmd 0 [(10, 2)]).desc 0 2 = 2 ∧
    State.reset.layerFault 0x1000 = some .descriptorFault ∧ 262144 < (curState (curCmd 0 [(10, 2 ^ 18 + 1)])).countOf 1039 (curCmd 0 [(10, 2 ^ 18 + 1)]).desc 0 (2 ^ 18 + 1) ∧
    after (.route 1039 1) (curState (curCmd 0 [(10, 2 ^ 18 + 1)])) (isEnd (.stream 1039) 1 .descriptorFault) = true ∧
    after (.route 1039 1) (curState (curCmd 0 [])) (fun t => isEnd (.stream 1039) 1 .ok t && nget t.orders 0x4000 == some (RouteOrder.fresh 1039 1)) = true ∧
    after (.route 1039 1) (curState (curCmd 0 [(10, 2)])) (isEnd (.stream 1039) 1 .sizeFault) = true ∧
    after (.route 1039 1) (curState (curCmd 0 [(10, 1)]) 0x7FC00000) (isEnd (.stream 1039) 1 .numericFail) = true := by decide +kernel
/-- 06 R161: the higher score first, ties to the lower expert; an expert is kept once. -/
theorem test_route_choice : choose 2 [0x3F800000, 0x40000000, 0x40000000] = [1, 2] ∧ choose 1 [0, 0x80000000] = [0] := by decide +kernel
/-- A SUM of one token whose route came back, with a 1 in the route buffer at 0x8000. -/
def sumState (c : Cmd) (m : Nat) : State :=
  { withMem 0x8000 [0x80, 0x3F] (withMem 0x4000 (recOf 4 [(0, m)]) (curState c)) with orders := [(0x4000, { RouteOrder.fresh 1039 1 with done := [(1, 0)] })] }
theorem witness_sum :
    let c := curCmd 4 [(12, 0x8000), (14, 0x9000), (15, 2 ^ 12)]
    let s := sumState c 1
    let l := s.layer 0x1000
    let sm := routeBuffer l 0x8000 0 1
    let om : Mat := ⟨0x9000, 0, 16, false, false, 1, l.h⟩
    s.issuedCmd 1039 1 0x10 4 = some c ∧ s.outOfOrder l 4 0 false = false ∧ s.recordTokens l 0 = 1 ∧ om.tileBytes ≤ 4096 * dfld c.desc 15 12 20 ∧
    s.reach (requesterOf 1039) .read sm.base sm.tileBytes = true ∧ s.reach (requesterOf 1039) .write om.base om.tileBytes = true ∧
    s.reach (requesterOf 1039) .read l.routeAddr (64 + 16 * 1 * l.k) = true ∧ s.ready [(true, om.base, om.tileBytes), (false, sm.base, sm.tileBytes), (false, l.routeAddr, 64 + 16 * 1 * l.k)] = true ∧
    s.anyHurt [(sm.base, sm.tileBytes), (l.routeAddr, 64 + 16 * 1 * l.k)] = none ∧ sm.base + sm.tileBytes ≤ om.base ∧
    s.piecesHurt ((List.range 1).flatMap fun t => rowPieces om t (List.replicate l.h 0)) = none ∧
    l.routeAddr + (64 + 16 * 1 * l.k) ≤ om.base ∧ (curState c).outOfOrder l 4 0 false = true ∧ (sumState c 0).recordTokens l 0 = 0 ∧
    after (.sum 1039 1) s (fun t => isEnd (.stream 1039) 1 .ok t && bytesAt t.mem 0x9000 4 == [0x80, 0x3F, 0, 0]) = true := by decide +kernel
/-- An exchange command of the layer, in its record's order. -/
def exchState (op : Nat) (o : RouteOrder) (inflight : Nat := 0) (sn : Nat := 0) : State :=
  { curState (curCmd op [(10, sn)]) 0 [(Reg.colGrpInflight 63, inflight)] with orders := [(0x4000, o)] }
theorem witness_exchange :
    (let s := exchState 1 (RouteOrder.fresh 1039 0)
     let l := s.layer 0x1000
     s.issuedCmd 1039 1 0x10 1 = some (curCmd 1 [(10, 0)]) ∧ s.layerFault 0x1000 = none ∧ s.outOfOrder l 1 0 false = false ∧ l.group = 63 ∧
     s.fld (Reg.colGrpNextSeq 63) = 0 ∧ s.fld (Reg.colGrpInflight 63) < 4) ∧
    (let s := exchState 2 { RouteOrder.fresh 1039 0 with granted := true }
     s.outOfOrder (s.layer 0x1000) 2 0 false = false) ∧
    (let s := exchState 3 { RouteOrder.fresh 1039 0 with granted := true, issued := [(0, 0)], done := [(0, 0)] }
     s.outOfOrder (s.layer 0x1000) 3 0 false = false) ∧
    (exchState 1 (RouteOrder.fresh 1039 0) 4).fld (Reg.colGrpInflight 63) = 4 ∧
    after (.grant 1039 1) (exchState 1 { RouteOrder.fresh 1039 0 with grantIssued := true }) (isEnd (.stream 1039) 1 .sequenceFault) = true ∧
    after (.dispatch 1039 1) (exchState 2 { RouteOrder.fresh 1039 0 with granted := true } 0 1) (isEnd (.stream 1039) 1 .sequenceFault) = true ∧
    after (.returnRows 1039 1) State.reset (· == State.reset) = true := by decide +kernel
/-- Collectives of group 63: one member, and two with this one of rank `me`. -/
def colCmd (op : Nat) (ws : List (Nat × Nat)) (f8 : Nat := 0) : Cmd := cmdOf 1 ([hdr 0x11 op, (8, 63 + f8)] ++ ws)
def colState (c : Cmd) (n me : Nat) (regs : List (Fld × Nat) := []) : State := withIssued 1055 [c] (withRegs (groupRegs n me ++ regs))
theorem witness_collective :
    (∀ op ∈ [0, 1, 2, 4, 5, 6], let c := colCmd op []
      (colState c 1 0).colFieldsBad c.desc = false) ∧
    (let c := colCmd 3 []
     (colState c 1 0).colFieldsBad c.desc = true) ∧
    (let c := cmdOf 1 [hdr 0x11 3 (2 ^ 20), (8, 63)]
     (colState c 1 0).colFieldsBad c.desc = false) ∧
    (let c := colCmd 5 []
     let s := colState c 1 0
     s.issuedCmd 1055 1 0x11 5 = some c ∧ s.fld (Reg.colGrpState 63) = 2 ∧ s.fld (Reg.colGrpNextSeq 63) = dword c.desc 9 ∧ s.fld (Reg.colGrpInflight 63) < 4 ∧
     s.members 63 = [s.me] ∧ s.fld (Reg.colGrpMyRank 63) = 0 ∧ s.stage 63 0 = Stage.empty ∧ dShapeEn c.desc = false) ∧
    (colState (colCmd 5 []) 1 0 [(Reg.colGrpInflight 63, 4)]).fld (Reg.colGrpInflight 63) = 4 ∧
    (colState (colCmd 6 []) 1 0 [(Reg.colStepOk, 1)]).fld Reg.colStepOk = 1 ∧ (colState (colCmd 6 []) 1 0 [(Reg.colStepOk, 1)]).updateOpen = false ∧
    (colState (colCmd 6 []) 1 0 [(Reg.colStepOk, 0)]).fld Reg.colStepOk = 0 ∧
    after (.barrier 1055 1) (colState (colCmd 5 [(9, 1)]) 1 0) (isEnd (.stream 1055) 1 .sequenceFault) = true := by decide +kernel
theorem test_barrier_alone : after (.barrier 1055 1) (colState (colCmd 5 []) 1 0) (isEnd (.stream 1055) 1 .ok) = true := by decide +kernel
/-- 09 R280, 08 R248: the epochs rise modulo 2^32. -/
theorem test_commit_alone : after (.commit 1055 1) (colState (colCmd 6 []) 1 0 [(Reg.colStepOk, 1), (Reg.btrEpoch 7, 0xFFFFFFFF)])
    (fun t => isEnd (.stream 1055) 1 .ok t && t.fld (Reg.btrEpoch 7) == 0 && t.fld (Reg.btrEpoch 0) == 1) = true := by decide +kernel
/-- A broadcast of four bytes from 0x1000 to 0x2000 in a group of one. -/
def bcast : Cmd := colCmd 4 [(10, 0x1000), (12, 0x2000), (14, 4), (15, 1)] (7 * 2 ^ 6)
theorem witness_copying_collective :
    let s := withMem 0x1000 [1, 2, 3, 4] (colState bcast 1 0)
    Memory.wf s.mem ∧ s.issuedCmd 1055 1 0x11 4 = some bcast ∧ s.colFieldsBad bcast.desc = false ∧ dword bcast.desc 14 * dtBytes (dfld bcast.desc 8 6 4) = 4 ∧
    4 ≤ 64 * dword bcast.desc 15 ∧ s.stagePlace (requesterOf 1055) .read true 0x1000 4 = true ∧ s.stagePlace (requesterOf 1055) .write true 0x2000 4 = true ∧
    coreOfAddr 0x1000 = none ∧ coreOfAddr 0x2000 = none ∧ s.ready [(false, 0x1000, 4), (true, 0x2000, 4)] = true ∧ s.anyHurt [(0x1000, 4), (0x2000, 4)] = none ∧ s.cons.armed = [] ∧
    (let c := colCmd 0 [(10, 0x1000), (12, 0x2000), (14, 1), (15, 1)] (3 * 2 ^ 6)
     (colState c 1 0).colFieldsBad c.desc = false ∧ ¬ (dfld c.desc 8 10 3 = 0 ∧ dfld c.desc 8 6 4 ≤ 2) ∧
     (colState c 1 0).stagePlace (requesterOf 1055) .write false 0x2000 4 = true) := by decide +kernel
theorem test_broadcast_alone : after (.broadcast 1055 1) (withMem 0x1000 [1, 2, 3, 4] (colState bcast 1 0))
    (fun t => isEnd (.stream 1055) 1 .ok t && bytesAt t.mem 0x2000 5 == [1, 2, 3, 4, 0]) = true := by decide +kernel
/-- Group 63 of this package alone, its fabric on, in a state of its creation. -/
def groupState (st : Nat) (regs : List (Fld × Nat) := []) : State := withRegs (groupRegs 1 0 ++ [(Reg.colGrpState 63, st), (Reg.chnReach 0, 1), (Reg.vatCells 3, 1000), (Reg.colGrpCells 63, 0)] ++ regs)
theorem witness_groups :
    (groupState 0).groupStatus 63 ((groupState 0).groupCells 63) = none ∧
    (withRegs (groupRegs 1 0 ++ [(Reg.colGrpState 63, 3)])).groupStatus 63 276 = some .addressFault ∧ (groupState 3 [(Reg.vatCells 3, 284)]).groupStatus 63 276 = some .sizeFault ∧
    (groupState 2).fld (Reg.colGrpInflight 63) = 0 ∧ (groupState 2 [(Reg.colGrpInflight 63, 1)]).fld (Reg.colGrpInflight 63) = 1 ∧
    after (.groupCreate 63) (groupState 0) (fun t => t.fld (Reg.colGrpState 63) == 2 && t.fld (Reg.colGrpMembers 63) == 1 && t.fld (Reg.vatUsed 3) == 276) = true ∧
    after (.groupCreate 63) (groupState 3 [(Reg.vatCells 3, 284)]) (fun t => t.fld (Reg.colGrpState 63) == 3 && t.fld (Reg.colGrpStatus 63) == 3) = true ∧
    after (.groupRelease 63) (groupState 2) (fun t => t.fld (Reg.colGrpState 63) == 0) = true ∧
    after (.colGrpNextSeqWrite 63 (2 ^ 32 - 1)) (groupState 2) (fun t => t.fld (Reg.colGrpNextSeq 63) == 2 ^ 32 - 1) = true ∧
    after (.colStepOkWrite 3) (groupState 2) (fun t => t.fld Reg.colStepOk == 1 && t.fld Reg.colVeto == 0) = true := by decide +kernel

/-- A stage of group 63 with number 0 on this member. -/
def withStage (y : Stage) (s : State) : State := { s with stages := [(stageKey 63 0, y)] }
/-- A running ALL_GATHER of one 32-bit element among two members, this one of rank `me`. -/
def gatherState (me : Nat) (y : Stage → Stage) (op : Nat := 2) : State :=
  withStage (y { Stage.empty with cmd := some (1055, 1), count := 1, admitted := true })
    (colState (colCmd op [(10, 0x1000), (12, 0x2000), (14, 1), (15, 1)] (3 * 2 ^ 6)) 2 me [(Reg.colGrpNextSeq 63, 1), (Reg.colGrpInflight 63, 1), (Reg.colStepOk, 1)])
theorem witness_stage_outcome :
    (let s := withRegs (groupRegs 2 0)
     s.fld (Reg.colGrpState 63) = 2 ∧ (s.members 63).length = 2 ∧ s.fld (Reg.colGrpMyRank 63) = 0 ∧ (s.stage 63 0).cmd = none ∧ s.coordinates 63 = true ∧
     after (.stageAdmission 63 0 1 ⟨0, 5, 0, 0, 0, 0, 0⟩ none []) s (fun t => (t.stage 63 0).adms == [⟨1, ⟨0, 5, 0, 0, 0, 0, 0⟩, none, []⟩]) = true ∧
     after (.stageAdmission 63 0 1 ⟨0, 3, 0, 0, 0, 0, 0⟩ none [7]) s (fun t => nget (t.stage 63 0).counts 1 == some [7]) = true) ∧
    (gatherState 1 id).isFuture 63 0 = false ∧ ((gatherState 1 id).ctx 63 0).isSome = true ∧
    (((gatherState 1 id).ctx 63 0).map fun x => (x.isCommit, x.me, x.isCur)) = some (false, 1, false) ∧ ((gatherState 1 id).stage 63 0).go = false ∧
    (gatherState 1 id).fld (Reg.colGrpTimeout 63) ≠ 0 ∧
    (let s := gatherState 0 fun y => { y with decided := true }
     s.coordinates 63 = true ∧ (s.stage 63 0).decided = true ∧ (s.stage 63 0).failSent = false ∧ s.closed 63 0 = false ∧
     after (.stageCompletionReport 63 0 1 .ok) s (fun t => (t.stage 63 0).reports == [1]) = true ∧
     after (.stageCompletionReport 63 0 1 .timeout) s (fun t => (t.stage 63 0).failSent) = true) ∧
    after (.stageGo 63 0 [5]) (gatherState 1 id) (fun t => (t.stage 63 0).go && (t.stage 63 0).info == [5]) = true ∧
    after (.stageFail 63 0 .deadTarget) (gatherState 1 id) (fun t => isEnd (.stream 1055) 1 .deadTarget t && t.fld Reg.colStepOk == 0 && bit (t.fld Reg.colVeto) 2) = true ∧
    after (.stageTaint 63 0 .tainted) (gatherState 1 fun y => { y with result := some .ok })
      (fun t => t.tainted (.stream 1055, 1) && t.fld Reg.colStepOk == 0 && bit (t.fld Reg.colVeto) 3) = true ∧
    after (.stageTimeout 63 0) (gatherState 1 id) (isEnd (.stream 1055) 1 .timeout) = true ∧
    after (.stageTimeout 63 0) (gatherState 0 id) (fun t => (t.stage 63 0).decided) = true := by decide +kernel
/-- The same stage with its payload under way. -/
def payloadState (y : Stage → Stage) : State := gatherState 1 fun z => y { z with go := true, begun := true, granted := [0, 1] }
theorem witness_payload :
    let s := payloadState id
    let h := payloadState fun y => { y with held := [⟨[1, 2, 3, 4], 4, [], [(0, 0)], none⟩], acksOnly := true, own := true, sentTo := [0, 1], taken := List.range 8 }
    (s.ctx 63 0).isSome = true ∧ s.fld (Reg.colGrpState 63) = 2 ∧ (((s.ctx 63 0).bind fun x => x.chunkLen s 0 0) = some (false, 0, 4)) ∧
    (s.stage 63 0).got.contains (0, 0) = false ∧ ((s.stage 63 0).fails.filter (· == (0, 0))).length < s.fld Reg.colRetryLimit ∧
    s.isFuture 63 0 = false ∧ (s.stage 63 0).credits.contains 0 = false ∧ s.cons.armed.any (·.target == 0x0B) = false ∧
    ((h.stage 63 0).held.find? (·.out.contains (0, 0))).isSome = true ∧ (h.stage 63 0).held.all (fun z => z.due.isEmpty && z.out.all (· == (0, 0))) = true ∧ (h.stage 63 0).acksOnly = true ∧ (h.stage 63 0).early = [] ∧
    (List.range 2).all ((h.stage 63 0).sentTo.contains ·) = true ∧ ((h.ctx 63 0).map fun x => x.isCol 0) = some false ∧
    ((h.ctx 63 0).map fun x => decide ((x.firstPieces h).length + x.secondPieces.length ≤ 8)) = some true ∧
    after (.creditGrant 63 0 1 0) (gatherState 1 id) (fun t => (t.stage 63 0).granted == [0]) = true ∧
    after (.creditGrant 63 0 0 1) s (fun t => (t.stage 63 0).credits.contains 0) = true ∧
    after (.chunkArrival 63 0 0 0 [1, 2, 3, 4] (crc64 [1, 2, 3, 4])) s (fun t => (t.stage 63 0).got == [(0, 0)] && bytesAt t.mem 0x2000 5 == [1, 2, 3, 4, 0]) = true ∧
    after (.chunkArrival 63 0 0 0 [1, 2, 3, 4] 0) s (fun t => t.sent == [.stage 63 0 0 (.retransmit 0)] && t.mem.isEmpty) = true ∧
    after (.chunkRetransmit 63 0 0 0) h (fun t => t.sent == [.stage 63 0 0 (.chunk 0 1 [1, 2, 3, 4] (crc64 [1, 2, 3, 4]))]) = true ∧
    after (.chunkAck 63 0 0 0) h (isEnd (.stream 1055) 1 .ok) = true := by decide +kernel
/-- The check value of "123456789" (09 R277: CRC-64/ECMA-182). -/
theorem test_crc64 : crc64 [0x31, 0x32, 0x33, 0x34, 0x35, 0x36, 0x37, 0x38, 0x39] = 0x6C40DF5F0B497347#64 := by decide +kernel
/-- A begun DISPATCH of the layer on two members: both replicas here on core 0, one live row expected in slot 0, its region at 0xC000 and its
arrival records at 0xD000. -/
def dispatchState : State :=
  let mem := withMem 0xB000 (recOf 4 [(0, 1)]) (withMem 0xA000 (recOf 64 [(0, 0xC000), (8, 0xD000), (10, 0xB000), (12, 4)])
    (withMem 0x2000 (recOf 132 [(1, 2), (2, 2), (16, 2 ^ 31 + 1), (32, 2 ^ 31 + 1 + 2 ^ 16)])
      (withIssued 1039 [curCmd 2 []] (withRegs (groupRegs 2 1 ++ [(Reg.colGrpNextSeq 63, 1)])))))
  withStage { Stage.empty with cmd := some (1039, 1), admitted := true, go := true, begun := true, granted := [0, 1],
                               layer := leNat (recOf 128 [(4, 0x2000), (6, 0x4000), (10, 0xA000), (16, 2 + 2 ^ 13), (17, 16), (18, 1), (19, 256 + 2 ^ 16),
                                 (20, 1 + 2 * 2 ^ 8 + 63 * 2 ^ 17)]) } mem
theorem witness_token :
    let s := dispatchState
    Memory.wf s.mem ∧ ((s.ctx 63 0).map fun x => (x.isStage 2, x.me, x.reverse, x.wave)) = some (true, 1, false, 0) ∧
    ((s.ctx 63 0).map fun x => ((s.layoutOf x.layer 0 (slotsOf (s.placedOn x.layer 1) 0) 0).1[0]?, coresOf (s.placedOn x.layer 1),
      s.ready [(true, 0xC000, (s.regionMat x.layer 0 0 0 x.layer.tokFmt).tileBytes)])) = some (some 0, [0], true) ∧
    s.cons.armed = [] ∧ s.piecesHurt [(0xC000, [0x80, 0x3F]), (0xD000, arrivalBytes 0 9 0)] = none ∧
    after (.tokenArrival 63 0 0 9 [⟨0, 0, 0, 0, 0⟩] [0x80, 0x3F]) s
      (fun t => bytesAt t.mem 0xC000 2 == [0x80, 0x3F] && bytesAt t.mem 0xD000 4 == [0, 9, 0, 0x80]) = true := by decide +kernel
/-- A running COMMIT of two members. -/
def commitState (me : Nat) : State := gatherState me id 6
theorem witness_commit :
    ((commitState 1).ctx 63 0).isSome = true ∧ (((commitState 1).ctx 63 0).map fun x => (x.isCommit, x.me)) = some (true, 1) ∧
    (((commitState 0).ctx 63 0).map fun x => (x.isCommit, x.me, x.st.decided)) = some (true, 0, false) ∧
    after (.commitDecision 63 0 true 1) (commitState 1) (fun t => isEnd (.stream 1055) 1 .ok t && t.fld Reg.colDecision == 1 && t.fld (Reg.btrEpoch 7) == 1) = true ∧
    after (.commitDecision 63 0 false 0) (commitState 1) (fun t => isEnd (.stream 1055) 1 .stepDiscarded t && t.fld (Reg.btrEpoch 7) == 0) = true ∧
    after (.commitTimeout 63 0) (commitState 1) (fun t => isEnd (.stream 1055) 1 .unknown t && t.fld Reg.colDecision == 3) = true := by decide +kernel
/-- 01 R26, 09 R271: a decision after UNKNOWN, a taint of a command tainted before, and a FAIL of a stage that failed. -/
theorem witness_late_outcomes :
    (let s := gatherState 1 (fun y => { y with result := some .unknown }) 6
     (s.stage 63 0).cmd = some (1055, 1) ∧ (s.stage 63 0).result = some .unknown ∧
     after (.commitDecision 63 0 true 1) s (fun t => t.fld (Reg.colGrpLate 63) == 1 && t.fld (Reg.btrEpoch 0) == 0) = true) ∧
    (let s := gatherState 1 fun y => { y with result := some .ok }
     after (.stageTaint 63 0 .tainted) { s with ledger := { s.ledger with taint := [(.stream 1055, 1)] } } (fun t => t.fld Reg.colTaintEvents == 1) = true) ∧
    after (.stageFail 63 0 .deadTarget) (gatherState 1 fun y => { y with result := some .timeout }) (fun t => t.fld (Reg.colGrpLate 63) == 1) = true := by decide +kernel

/-! Beaters (08). -/

/-- A command on Beater 7, with 64 lanes, a scratchpad of 1 GiB on CD0 and page pair 0 placed on the die of its page. -/
def btrState (lanes : Nat) (c : Cmd) : State :=
  let s := withRegs [(Reg.vltScratchGib 0, 1), (Reg.vltPageAttr 0 0, 1)] { State.reset with ctl := [((Reg.btrLanes 7).off, putBits 0 (Reg.btrLanes 7).lo (Reg.btrLanes 7).w lanes)] }
  withIssued 1063 [c] s
/-- A Beater command: the table at the scratchpad's start. -/
def btrCmd (op : Nat) (ws : List (Nat × Nat)) : Cmd := cmdOf 1 ([hdr 0x12 op, (9, 0x80)] ++ ws)
/-- A block of one tile, committed in slot 0 under epoch 0, its gradient at 0x2000 of the scratchpad and its working copies at 0x4000. -/
def blockMem (grad : List Byte) (s : State) : State :=
  withMem 0x08000002000 grad (withMem 0x0800000100E [0x80, 0x3F] (withMem 0x08000000000 (recOf 64 [(1, 2 ^ 8), (4, 1), (5, 0x2000), (6, 0x80), (9, 1 + 2 ^ 16), (10, 0x4000), (11, 0x80 + 2 ^ 31),
    (12, 0x4000), (13, 0x80 + 2 ^ 31)]) s))
/-- UPDATE of that block to epoch 1, by the record at 0x1000, of zeros but for an EPS of 1. -/
def updateCmd : Cmd := btrCmd 0 [(11, 1), (12, 0x1000), (13, 0x80), (14, 1), (15, 64)]
theorem witness_beaters_judged :
    (∀ r ∈ [(0, 11), (1, 11), (2, 11), (3, 12), (4, 12)], let c := btrCmd r.1 []
      ((btrState 48 c).strm 1063).issued = [c] ∧ (btrState 48 c).fld (Reg.btrLanes 7) = 48 ∧ (btrState 47 c).fld (Reg.btrLanes 7) = 47 ∧
      (btrState 48 c).shapeFault 1063 c.desc = none ∧ (btrState 48 c).countOf 1063 c.desc 0 (dword c.desc r.2) = 0) ∧
    (let c := btrCmd 0 [(11, 1), (15, 63)]
     (btrState 48 c).countOf 1063 c.desc 0 (dword c.desc 11) = 1 ∧ dword c.desc 15 < 64 * (dfld c.desc 10 0 20 + 1)) ∧
    after (.update 1063 1) (btrState 47 (btrCmd 0 [])) (isEnd (.stream 1063) 1 .unitFault) = true ∧
    after (.regen 1063 1) (btrState 48 (btrCmd 1 [])) (isEnd (.stream 1063) 1 .ok) = true ∧
    after (.digest 1063 1) (btrState 48 (btrCmd 2 [(11, 1), (15, 63)])) (isEnd (.stream 1063) 1 .sizeFault) = true ∧
    after (.btrCntClear 7) (withRegs [(Reg.btrBlocksUpdated 7, 5)]) (fun t => t.fld (Reg.btrBlocksUpdated 7) == 0) = true := by decide +kernel
theorem witness_update_checks :
    let c := updateCmd
    let s := blockMem [] (btrState 48 c)
    let e := s.bEntry 0x08000000000
    Memory.wf s.mem ∧ (s.strm 1063).issued = [c] ∧ s.countOf 1063 c.desc 0 (dword c.desc 11) = 1 ∧ 64 ≤ dword c.desc 15 ∧
    s.inScratch 0x08000000000 64 = true ∧ s.inScratch 0x08000001000 64 = true ∧ s.readHurt 0x08000001000 64 = none ∧ (s.optRec 0x08000001000).bad = false ∧
    dword c.desc 14 = (s.fld (Reg.btrEpoch 7) + 1) % 2 ^ 32 ∧ s.entriesFault 7 true [(0x08000000000, 0)] = none ∧
    s.ready ((true, 0x08000000000, 64) :: (false, 0x08000001000, 64) :: s.blockExts 7 0 c.desc (s.optRec 0x08000001000) e) = true ∧
    s.laneArmed 7 = none ∧ e.tiles = 1 ∧ e.committed 0 = some 0 ∧ s.blockHurt 7 e 0 (some (s.optRec 0x08000001000).opt) = none ∧
    s.shadowHurt 7 e 0 (s.optRec 0x08000001000).opt 1 = none ∧ e.wcLpa 1 = true ∧
    e.exact = false := by decide +kernel
/-- The three values an UPDATE gives element `i` of the small block. -/
def updateVals (s : State) (i : Nat) : Nat × Nat × Nat :=
  let o := s.optRec 0x08000001000
  let e := s.bEntry 0x08000000000
  let r := o.apply (s.gradAt e i) (s.master 7 (e.slot 0) i) (s.moment 7 (e.slot 0) 0x100000 0x180000 e4m3 i) (s.moment 7 (e.slot 0) 0x140000 0x180800 e5m2 i)
  (r.1, r.2.1, r.2.2.1)
/-- The values of an UPDATE: those of zeros are finite, and a gradient that is not a number makes one that is not. -/
theorem witness_update_values :
    ((List.range 256).all fun i => fFinite fp32 (updateVals (blockMem [] (btrState 48 updateCmd)) i).1 &&
      fFinite fp32 (updateVals (blockMem [] (btrState 48 updateCmd)) i).2.1 && fFinite fp32 (updateVals (blockMem [] (btrState 48 updateCmd)) i).2.2) = true ∧
    fFinite fp32 (updateVals (blockMem [0, 0, 0xC0, 0x7F] (btrState 48 updateCmd)) 0).1 = false := by decide +kernel
/-- 08 R246: the newest valid slot not above the epoch; one above it never. -/
theorem witness_committed :
    (⟨0, descOf [(1, 3 * 2 ^ 8), (2, 4), (3, 5)]⟩ : BEntry).committed 5 = some 1 ∧ (⟨0, descOf [(1, 3 * 2 ^ 8), (2, 4), (3, 6)]⟩ : BEntry).committed 5 = some 0 ∧
    (⟨0, descOf [(1, 2 ^ 9), (3, 6)]⟩ : BEntry).committed 5 = none := by decide +kernel
theorem witness_beater_work :
    (let c := btrCmd 1 [(11, 1), (15, 64)]
     let s := blockMem [] (btrState 48 c)
     let e := s.bEntry 0x08000000000
     s.entriesFault 7 true (entryAddrs c.desc 1) = none ∧ s.blockHurt 7 e 0 none = none ∧ s.wcWriteHurt 7 e 0 = none ∧ e.wcLpa 0 = true ∧
     s.ready ((false, 0x08000000000, 64) :: s.blockExts 7 1 c.desc (s.optRec (daddr c.desc 12 13 12)) e) = true) ∧
    (let c := btrCmd 2 [(11, 1), (12, 0x1000), (13, 0x80), (14, 4), (15, 64)]
     let s := blockMem [] (btrState 48 c)
     dfld c.desc 14 0 1 = 0 ∧ s.inScratch 0x08000001000 (wmExtent 1) = true ∧ wmExtent 1 ≤ 64 * dfld c.desc 14 2 30 ∧ s.digestHurt 7 c.desc (s.bEntry 0x08000000000) = none ∧ s.writeHurt 0x08000001000 64 = none ∧
     s.ready ((false, 0x08000000000, 64) :: (true, 0x08000001000, 64) :: s.blockExts 7 2 c.desc (s.optRec 0x08000001000) (s.bEntry 0x08000000000)) = true ∧ s.entriesFault 7 false (entryAddrs c.desc 1) = none) ∧
    (let c := cmdOf 1 [hdr 0x12 3, (9, 0x90), (11, 0x80), (12, 1), (13, 1)]
     let s := btrState 48 c
     s.countOf 1063 c.desc 0 1 = 1 ∧ daddr c.desc 8 9 12 = 0x09000000000 ∧ s.extent 0x09000000000 1024 = some .ls ∧ s.outOfService 0 = false ∧
     s.inScratch 0x08000000000 4096 = true ∧ s.ready [(true, 0x08000000000, 4096)] = true ∧ s.readHurt 0x09000000000 1024 = none ∧ s.readHurt 0x08000000000 4096 = none) ∧
    (let c := cmdOf 1 [hdr 0x12 4, (11, 0x80), (12, 1), (13, 1), (14, 3)]
     let s := btrState 48 c
     512 * 1 ≤ 4096 * dword c.desc 13 ∧ s.inScratch 0x08000000000 512 = true ∧ s.ready [(true, 0x08000000000, 512)] = true) := by decide +kernel
/-- 04 R128: CLEAR_BUF writes ANCHOR at byte 384. -/
theorem test_clear_buf : after (.clearBuf 1063 1) (btrState 48 (cmdOf 1 [hdr 0x12 4, (11, 0x80), (12, 1), (13, 1), (14, 3)]))
    (fun t => isEnd (.stream 1063) 1 .ok t && bytesAt t.mem (0x08000000000 + 384) 2 == [3, 0]) = true := by decide +kernel


/-! The fabric (10). -/

/-- Port 35, enabled, in a training state. -/
def portState (st : Nat) : State := withRegs [(Reg.chnPortEnable 35, 1), (Reg.chnPortState 35, st)]
theorem witness_ports :
    (portState 7).fld (Reg.chnPortEnable 35) = 1 ∧ State.reset.fld (Reg.chnPortEnable 35) = 0 ∧ mapEight 0x1EF = some [0, 1, 2, 3, 8, 5, 6, 7] ∧
    mapEight 0xF = none ∧ ((List.range 9).filter fun l => bit 0xF l).length = 4 ∧ ((List.range 9).filter fun l => bit 7 l).length = 3 ∧
    after (.portEnable 35 1) State.reset (fun t => t.fld (Reg.chnPortState 35) == 1) = true ∧
    after (.trainStateDone 35 .noFarEnd) (portState 1) (fun t => t.fld (Reg.chnPortState 35) == 9) = true ∧
    after (.trainStateDone 35 (.lanes 0x1EF)) (portState 3) (fun t => t.fld (Reg.chnLaneMap 35) == 0x76583210 && t.fld (Reg.chnPortState 35) == 4) = true ∧
    after (.trainStateDone 35 (.lanes 7)) (portState 3) (fun t => t.fld (Reg.chnPortState 35) == 8) = true ∧
    after (.trainStateDone 35 (.credits [4, 5])) (portState 6) (fun t => t.fld (Reg.chnPortState 35) == 7 && (t.port 35).credit == [(0, 4), (1, 5)]) = true ∧
    after (.portDown 35) (portState 7) (fun t => t.fld (Reg.chnPortState 35) == 1) = true ∧
    after (.linkRekey 35 false) (portState 7) (fun t => t.fld (Reg.chnPortState 35) == 1) = true := by decide +kernel
/-- 10 R290: the peer's index and port. Port 35 lies on Z-, and faces port 29 of the last package of the Z line. -/
theorem test_peer_check :
    after (.trainStateDone 35 (.peer (3 * 256) 29)) (portState 4) (fun t => t.fld (Reg.chnPortState 35) == 5) = true ∧
    after (.trainStateDone 35 (.peer (3 * 256) 35)) (portState 4) (fun t => t.fld (Reg.chnPortState 35) == 10) = true := by decide +kernel
/-- An ACTIVE port 0, on X+, of the enabled fabric with one frame to replay and credit. -/
def activePort (fails : NMap Nat) : State :=
  { withRegs [(Reg.chnFabricEn, 1), (Reg.chnPortEnable 0, 1), (Reg.chnPortState 0, 7), (Reg.chnPortWidth 0, 8), (Reg.chnLaneMap 0, 0x76543210)] with
    ports := [(0, { Port.reset with replay := [(0, [])], fails := fails, width := 8, nextSeq := 1, credit := [(0, 2)] })] }
/-- A WRITE of two bytes to the next package on X. -/
def writeOut : Packet := { Packet.blank with type := .write, cls := 0, dst := 1, acc := 1, ordSeq := 1, lpa := 0x1000, length := 2, payload := [7, 8] }
theorem witness_frames :
    let s := activePort []
    s.cons.armed = [] ∧ s.fld (Reg.chnPortState 0) = 7 ∧ (s.port 0).replay.any (·.1 == 0) = true ∧ creditAt (s.port 0).fails 0 < 7 ∧ creditAt ((activePort [(0, 7)]).port 0).fails 0 = 7 ∧
    s.fld (Reg.chnSpareUsed 0) = 0 ∧ s.exitPort 1 true [] = some 0 ∧ s.crossesDateline 0 = false ∧ packetCells writeOut ≤ 2 ∧
    after (.frameReceive 0 0 4095 [1] 8 true true []) s (fun t => (t.port 0).rxSeq == 1 && (t.port 0).replay.length == 1 && nget (t.port 0).credit 0 == some 3) = true ∧
    after (.frameReceive 0 0 0 [] 9 true true []) s (fun t => t.port 0 == s.port 0) = true ∧
    after (.frameReceive 0 0 0 [] 0 true false []) s (fun t => t.fld (Reg.chnPortState 0) == 1) = true ∧
    after (.frameReplay 0 0 false) (activePort [(0, 7)]) (fun t => t.fld (Reg.chnPortState 0) == 1) = true ∧
    after (.frameReplay 0 0 true) s (fun t => t.sent == [.frame 0 []]) = true ∧
    after (.laneSerCheck 0 [0] 0x1FE) s (fun t => t.fld (Reg.chnLaneMap 0) == 0x76543218 && t.fld (Reg.chnSpareUsed 0) == 1) = true ∧
    after (.laneSerCheck 0 [0] 0x0F) s (fun t => t.fld (Reg.chnPortState 0) == 1 && (t.port 0).width == 4) = true ∧
    after (.laneSerCheck 0 [0] 0x07) s (fun t => t.fld (Reg.chnPortState 0) == 1) = true ∧
    after (.packetForward writeOut []) s (fun t => (t.port 0).nextSeq == 2 && (t.port 0).packets == 1) = true ∧
    after (.packetForward writeOut []) { s with ports := [(0, { Port.reset with width := 8 })] } (fun t => t.sent.isEmpty) = true := by decide +kernel
/-- The fabric enabled; a request of package 1 to this one. -/
def target (o : Order) (w : Target) : State :=
  let s := withRegs [(Reg.chnFabricEn, 1)]
  { s with fab := { s.fab with orders := [(1, o)], targets := [(1, w)] } }
def request (type : PktType) (acc ord : Nat) : Packet :=
  { Packet.blank with type := type, cls := 0, src := 1, dst := 0, acc := acc, ordSeq := ord, lpa := 0x1000, length := 4, payload := [1, 2, 3, 4], v := 5 }
theorem witness_target :
    let s := target Order.fresh Target.fresh
    let p := request .write 1 1
    s.atTarget p .write = true ∧ s.cons.armed = [] ∧ Memory.wf s.mem ∧ (s.orderOf 1).ranges = [] ∧ (s.orderOf 1).held = [] ∧ s.dieOfPacket p = some 0 ∧
    s.targetFault p = none ∧ s.targetFault { p with lpa := 0x0B000000000 } = some .addressFault ∧ s.ready (packetExts p) = true ∧ s.fld (Reg.vatLevel 4) < 3 ∧
    (s.target 0 1).refuses p = false ∧ (s.target 0 1).floor = 0 ∧ (s.target 0 1).window = [] ∧
    after32 1 (s.orderOf 1).mark = true ∧ after (.write { p with ordSeq := 2, ordered := true }) s (fun t => ((t.orderOf 1).held.map (·.acc)) == [1] && t.mem.isEmpty) = true ∧
    after (.write p) s (fun t => bytesAt t.mem 0x1000 4 == [1, 2, 3, 4] && (t.target 0 1).window.map (·.1) == [1]) = true ∧
    after (.write p) (target Order.fresh ⟨[(1, .ok, 0)], none, 1, 1⟩) (fun t => t.mem.isEmpty && (t.sent.getLast?.map fun m => match m with | .packet q => q.type == .ack | _ => false) == some true) = true ∧
    (⟨[], none, 9, 5⟩ : Target).refuses { p with acc := 4 } = true ∧
    after (.write { p with acc := 4 }) (target Order.fresh ⟨[], none, 9, 5⟩) (fun t => t.mem.isEmpty &&
      (t.sent.getLast?.map fun m => match m with | .packet q => q.type == .refuse && q.status == .staleAccession | _ => false) == some true) = true ∧
    after (.remoteFlag { p with type := .flag, lpa := 0x091000000BC, fop := 0 }) s (fun t => t.flagAt 0 47 == ⟨5, .remote 1 1⟩) = true ∧
    after (.read { p with type := .read, lpa := 0x1001 }) (withMem 0x1000 [9, 8] s)
      (fun t => (t.sent.getLast?.map fun m => match m with | .packet q => q.payload == [8, 0, 0, 0] | _ => false) == some true) = true := by decide +kernel
/-- 10 R302: an atomic ADD answers with the old value. -/
theorem test_remote_atomic : after (.remoteAtomic (request .atomic 1 1)) (withMem 0x1000 [3] (target Order.fresh Target.fresh))
    (fun t => bytesAt t.mem 0x1000 4 == [8, 0, 0, 0] && (t.sent.getLast?.map fun m => match m with | .packet q => q.v == 3 | _ => false) == some true) = true := by decide +kernel
/-- The fabric enabled with package 1 reachable. -/
def reaching (l : List (Fld × Nat)) : State := withRegs ([(Reg.chnFabricEn, 1), (Reg.chnReach 0, 3)] ++ l)
theorem witness_orders :
    let s := target { Order.fresh with mark := 1, held := [request .write 9 4] } Target.fresh
    NMap.Rising s.fab.broken ∧ ((s.orderOf 1).held.find? (·.acc == 9)).isSome = true ∧ (reaching []).canReach 1 = true ∧ (reaching []).canReach 2 = false ∧
    (reaching []).fld Reg.chnResyncBusy = 0 ∧ (reaching []).fld Reg.chnRiBusy = 0 ∧ (reaching []).isMaster = true ∧ (reaching [(Reg.chnRackMasterAct, 63)]).isMaster = false ∧
    ¬ (reaching [(Reg.chnAccNextLo, 2)]).fld48 Reg.chnAccNextLo Reg.chnAccNextHi ≤ 0 ∧
    (reaching []).atomicFault .registrar 0 0x1000 false = none ∧
    after (.orderTimeout 1 9) s (fun t => t.orderOf 1 == ⟨1, [], [], true, [(2, 3)]⟩) = true ∧
    after (.resyncAtTarget 1 9) s (fun t => t.orderOf 1 == ⟨9, [], [], false, []⟩) = true ∧
    after (.chnResyncGo 1) (reaching []) (fun t => t.fab.resync == some (1, 0) && t.fld Reg.chnResyncBusy == 1) = true ∧
    after (.chnResyncGo 2) (reaching []) (fun t => t.fld Reg.chnResyncStatus == statusCode .deadTarget) = true ∧
    after .chnRiGo (reaching [(Reg.chnAccNextLo, 2), (Reg.chnRiTgtLo, 0x1000), (Reg.chnRiV, 5)]) (fun t => bytesAt t.mem 0x1000 1 == [5] && t.fld Reg.chnRiBusy == 0) = true ∧
    after .chnRiGo (reaching [(Reg.chnAccNextLo, 2), (Reg.chnRiTgtHi, 2 ^ 12)]) (fun t => t.fld Reg.chnRiBusy == 1 && t.fab.ri.isSome) = true ∧
    after .chnRiGo (reaching [(Reg.chnAccNextLo, 2), (Reg.chnRiOp, 12)]) (fun t => t.fld Reg.chnRiStatus == statusCode .descriptorFault) = true ∧
    after (.chnFabricEn 1) (withRegs [(Reg.chnRackMaster, 5)]) (fun t => t.reachable 0 && t.fld Reg.chnRackMasterAct == 5) = true := by decide +kernel
theorem witness_resync_ack :
    let s : State := { reaching [(Reg.chnResyncBusy, 1)] with fab := { FabX.reset with resync := some (1, 7), broken := [(1, .unknown)] } }
    NMap.Rising s.fab.broken ∧ s.fab.resync = some (1, 7) ∧ after (.resyncAck 1) s (fun t => t.fab.broken == [] && t.fld Reg.chnResyncBusy == 0) = true := by decide +kernel
/-- 15 R434: a debug-unlocked peer fails a check that SEC_LINK_POLICY may leave out. -/
theorem witness_keys :
    State.reset.makesCheck .debugLocked = true ∧ (withRegs [(Reg.secLinkAllowDebug, 1)]).makesCheck .debugLocked = false ∧
    after (.trainStateDone 35 .done) (portState 5) (fun t => t.fld (Reg.chnPortState 35) == 6 && (t.port 35).packets == 0) = true ∧
    after (.trainStateDone 35 (.keysFailed .debugLocked)) (portState 5) (fun t => t.fld (Reg.chnPortState 35) == 1 && (t.port 35).tries == 1) = true ∧
    after (.trainStateDone 35 (.keysFailed .debugLocked)) (withRegs [(Reg.secLinkAllowDebug, 1)] (portState 5)) (fun t => t.fld (Reg.chnPortState 35) == 5) = true := by
  decide +kernel
/-- What waits: a packet with no ACTIVE port, requests at a busy Vault, a reissue at the limit of requests in flight. -/
theorem witness_fabric_waits :
    (let s := withRegs [(Reg.chnFabricEn, 1)]
     s.exitPort 1 true [] = none ∧ after (.packetForward writeOut []) s (fun t => t.fab.transit.map (·.pkt) == [writeOut]) = true) ∧
    (let s := withRegs [(Reg.vltFlushBusy 0, 1)] (target Order.fresh Target.fresh)
     let p := request .write 1 1
     s.ready (packetExts p) = false ∧ after (.write p) s (fun t => (t.vault 0).held == [.write p] && t.mem.isEmpty) = true ∧
     after (.read (request .read 1 0)) s (fun t => (t.vault 0).held == [.read (request .read 1 0)]) = true) ∧
    (let s := reaching [(Reg.chnAccNextLo, 2), (Reg.vltFlushBusy 0, 1)]
     s.ready [(true, 0, 4)] = false ∧ after .chnRiGo s (fun t => (t.vault 0).held == [.chnRiGo]) = true) ∧
    (let s := reaching [(Reg.chnAccNextLo, 2), (Reg.chnRiTgtHi, 2 ^ 12), (Reg.chnOutstanding, 8192)]
     after .chnRiGo s (fun t => t.fab.riWaits && t.sent.isEmpty) = true) ∧
    after .chnRiGo (reaching [(Reg.chnAccNextLo, 2), (Reg.chnRiTgtLo, 0x1002)]) (fun t => t.fld Reg.chnRiStatus == statusCode .addressFault) = true := by decide +kernel

/-! The DMA class (10). -/

/-- A DMA command on stream 1087. -/
def dmaState (c : Cmd) (l : List (Fld × Nat) := []) : State := withIssued 1087 [c] (reaching ([(Reg.chnAccNextLo, 7)] ++ l))
/-- A COPY of three bytes within the package, from 0x1000 to 0x1003. -/
def copyCmd (ws : List (Nat × Nat)) : Cmd := cmdOf 1 ([hdr 2 0, (8, 0x1000), (10, 0x1003), (12, 3), (13, 3)] ++ ws)
theorem witness_copy :
    let c := copyCmd []
    let s := withMem 0x1000 [1, 2, 3] (dmaState c)
    Memory.wf s.mem ∧ s.issuedCmd 1087 1 0x02 0 = some c ∧ fpaPkg (dSrcFpa c.desc) = s.myIndex ∧ fpaPkg (dDstFpa c.desc) = s.myIndex ∧
    s.shapeFault 1087 c.desc = none ∧ s.copyLen 1087 c.desc = 3 ∧ s.mayMove (requesterOf 1087) false 0x1000 3 = true ∧
    s.mayMove (requesterOf 1087) true 0x1003 3 = true ∧ s.storeOut 0x1000 = false ∧ s.readHurt 0x1000 3 = none ∧ s.writeHurt 0x1003 3 = none ∧
    s.ready (vaultExt false 0x1000 3 ++ vaultExt true 0x1003 3) = true ∧
    after (.copy 1087 1) s (fun t => isEnd (.stream 1087) 1 .ok t && bytesAt t.mem 0x1000 7 == [1, 2, 3, 1, 2, 3, 0]) = true ∧
    after (.copy 1087 1) (dmaState (copyCmd [(9, 2 ^ 12), (11, 2 ^ 12)])) (isEnd (.stream 1087) 1 .descriptorFault) = true := by decide +kernel
/-- A COPY without a byte, and one over its capacity. -/
theorem witness_copy_sizes :
    (dmaState (cmdOf 1 [hdr 2 0])).copyLen 1087 (cmdOf 1 [hdr 2 0]).desc = 0 ∧
    after (.copy 1087 1) (dmaState (cmdOf 1 [hdr 2 0])) (isEnd (.stream 1087) 1 .ok) = true ∧
    after (.copy 1087 1) (dmaState (cmdOf 1 [hdr 2 0, (12, 3), (13, 2)])) (isEnd (.stream 1087) 1 .sizeFault) = true := by decide +kernel
/-- An ATOMIC ADD of 5 to the word at 0x1000, its old value to 0x2000. -/
def atomicCmd (ws : List (Nat × Nat)) : Cmd := cmdOf 1 ([hdr 2 1, (10, 5)] ++ ws)
theorem witness_atomic_command :
    let c := atomicCmd [(8, 0x1000), (14, 0x2000), (15, 2 ^ 12)]
    let s := withMem 0x1000 [3] (dmaState c)
    s.issuedCmd 1087 1 0x02 1 = some c ∧ dAtResult c.desc = some 0x2000 ∧ dAtResult (atomicCmd []).desc = none ∧ dAtOp c.desc = 0 ∧
    s.atomicFault (requesterOf 1087) 0 0x1000 false = none ∧ s.atomicFault (requesterOf 1087) 0 0x1002 false = some .addressFault ∧
    s.mayMove (requesterOf 1087) true 0x2000 16 = true ∧ s.storeOut 0x2000 = false ∧ s.writeHurt 0x2000 12 = none ∧
    s.ready ([(true, 0x1000, 4)] ++ vaultExt true 0x2000 12) = true ∧
    after (.atomic 1087 1) s (fun t => isEnd (.stream 1087) 1 .ok t && bytesAt t.mem 0x1000 1 == [8] && bytesAt t.mem 0x2000 1 == [3]) = true := by decide +kernel
/-- A FLAG_STORE of 9 to flag 47 of core 255. -/
def flagCmd (ws : List (Nat × Nat)) : Cmd := cmdOf 1 ([hdr 2 2, (9, 9)] ++ ws)
theorem witness_flag_store :
    let c := flagCmd [(8, 255 + 47 * 2 ^ 8)]
    (dmaState c).issuedCmd 1087 1 0x02 2 = some c ∧ dfld c.desc 8 16 6 = (dmaState c).myIndex ∧ dSigEn c.desc = false ∧ (dmaState c).outOfService 255 = false ∧
    after (.flagStore 1087 1) (dmaState c) (fun t => isEnd (.stream 1087) 1 .ok t && t.flagAt 255 47 == ⟨9, .stream 1087 1⟩) = true ∧
    after (.flagStore 1087 1) (dmaState (flagCmd [(8, 255 + 48 * 2 ^ 8)])) (isEnd (.stream 1087) 1 .descriptorFault) = true ∧
    after (.flagStore 1087 1) (dmaState c [(Reg.csvOutOfService 7, 2 ^ 31)]) (isEnd (.stream 1087) 1 .unitFault) = true := by decide +kernel
/-- A request of command 2 of stream 1087 to package 1, under number 5. -/
def openReq (type : PktType) : Req :=
  ⟨1087, 2, { Packet.blank with type := type, cls := 0, dst := 1, acc := 5, ordSeq := 3, lpa := 0x1000, length := 2 }, if type = .read then some 0x2000 else none, 0, false, 1, none, false, 0, 0⟩
theorem witness_fence :
    let c := cmdOf 1 [hdr 2 3, (8, 1)]
    let s := dmaState c
    let w : State := { s with fab := { s.fab with reqs := [(5, openReq .write)] } }
    let b : State := { s with fab := { s.fab with broken := [(1, .unknown)] } }
    s.issuedCmd 1087 1 0x02 3 = some c ∧ dfld c.desc 8 8 1 ≠ 1 ∧ s.inMyRack (dfld c.desc 8 0 6) = 1 ∧ s.farFault 1 true = none ∧
    s.openReqs = [] ∧ w.openReqs.length = 1 ∧ b.farFault 1 true = some .unknown ∧
    after (.fence 1087 1) s (isEnd (.stream 1087) 1 .ok) = true ∧ after (.fence 1087 1) b (isEnd (.stream 1087) 1 .unknown) = true ∧
    after (.fence 1087 1) w (fun t => t.fab.fences == [(1087, 1, [5], none)]) = true := by decide +kernel
theorem witness_remote :
    let cells := [(Reg.vatCells 2, 100)]
    let c := copyCmd [(11, 2 ^ 12)]
    let a := atomicCmd [(8, 0x1000), (9, 2 ^ 12)]
    let f := flagCmd [(8, 255 + 47 * 2 ^ 8 + 2 ^ 16)]
    let s := dmaState c cells
    let d := c.desc
    s.copyOut d = true ∧ (s.copyOut d = ! (fpaPkg (dDstFpa d) == s.myIndex)) ∧ s.copyLen 1087 d = 3 ∧ remoteRange 0x1003 3 = true ∧ s.reqsOf 1087 1 = [] ∧
    s.dmaDest d = 1 ∧ s.canReach 1 = true ∧ nget s.fab.broken 1 = none ∧ s.mayInject (s.dmaRequest (bakeLen d 3) 0).1 = true ∧ s.copyPosted d = false ∧
    s.copyPosted (copyCmd [(11, 2 ^ 12), (15, 1)]).desc = true ∧ (dmaState c [(Reg.chnReach 0, 1)]).canReach 1 = false ∧
    fpaPkg (dSrcFpa a.desc) ≠ s.myIndex ∧ remoteRange 0x1000 4 = true ∧ dAtResult a.desc = none ∧ dfld f.desc 8 16 6 ≠ s.myIndex ∧
    (dmaState a cells).mayInject ((dmaState a cells).dmaRequest a.desc 0).1 = true ∧ (dmaState f cells).mayInject ((dmaState f cells).dmaRequest f.desc 0).1 = true ∧
    after (.copy 1087 1) s (fun t => t.fabAcc == 8 && nget t.fab.ordNext 1 == some 2 && ((nget t.fab.reqs 7).map (·.pkt.payload)) == some [0, 0, 0]) = true ∧
    after (.atomic 1087 1) (dmaState a cells) (fun t => ((nget t.fab.reqs 7).map fun q => (q.pkt.type, q.pkt.v)) == some (.atomic, 5)) = true ∧
    after (.flagStore 1087 1) (dmaState f cells) (fun t => ((nget t.fab.reqs 7).map (·.pkt.lpa)) == some (0x09100000000 + 0x100 * 255 + 4 * 47)) = true ∧
    after (.copy 1087 1) (dmaState c [(Reg.chnReach 0, 1)]) (isEnd (.stream 1087) 1 .deadTarget) = true := by decide +kernel
/-- 07 R207: a core's COPY from a package of its quire asks the home for its line. -/
theorem witness_cached_copy :
    let c := cmdOf 1 [hdr 2 0, (8, 0x1000), (9, 2 ^ 12), (10, 0x2000), (12, 3), (13, 3)]
    let s := withIssued 0 [c] (reaching [(Reg.vltQuireEn 0, 1), (Reg.chnAccNextLo, 7)])
    s.issuedCmd 0 1 0x02 0 = some c ∧ s.throughCache 0 c.desc = true ∧ s.throughCache 1087 c.desc = false ∧ s.vaultBusy 0 = false ∧
    s.cachedLine c.desc 0 = ((0, 3), 2 ^ 44 + 0x1000) ∧ nget s.cache (remoteKey 0 (2 ^ 44 + 0x1000)) = none ∧ s.fab.asks = [] ∧
    after (.copy 0 1) s (fun t => t.sent == [.cohAsk .read 1 0 0x1000] && ((t.strm 0).issued.map (·.phase)) == [cachedFrom]) = true := by decide +kernel
/-- A remote COPY from package 1 that waits for the response to its one READ. -/
def waitingRead : State :=
  let c := { cmdOf 2 [hdr 2 0, (8, 0x1000), (9, 2 ^ 12), (10, 0x2000), (12, 2), (13, 2)] with phase := 2 }
  let s := withIssued 1087 [c] (reaching [])
  { s with fab := { s.fab with reqs := [(5, openReq .read)] } }
theorem witness_response :
    NMap.Rising waitingRead.strms ∧ Memory.wf waitingRead.mem ∧ (openReq .read).ended = none ∧
    ((waitingRead.strm 1087).issued.map fun c => (c.acc, dClass c.desc, dOp c.desc)) = [(2, 2, 0)] ∧
    ((waitingRead.strm 1087).issued.map fun c => (c.phase, waitingRead.dmaCount c.desc + 1, waitingRead.copyPosted c.desc)) = [(2, 2, false)] ∧
    waitingRead.reqsOf 1087 2 = [(5, openReq .read)] ∧ waitingRead.fab.fences = [] ∧ waitingRead.landFault 1087 0x2000 0 = none ∧
    waitingRead.landFault 1087 0x2000 4096 = none ∧ waitingRead.ready (vaultExt true 0x2000 4096) = true ∧ answers .read .readData = true := by decide +kernel
/-- 10 R315: the data land in ascending order, a refusal stores nothing; silence is DEAD_TARGET for a read. -/
theorem test_response :
    after (.responseArrival { Packet.blank with type := .readData, cls := 1, src := 1, acc := 5, length := 2, payload := [6, 7] }) waitingRead
      (fun t => isEnd (.stream 1087) 2 .ok t && bytesAt t.mem 0x2000 2 == [6, 7]) = true ∧
    after (.responseArrival { Packet.blank with type := .refuse, cls := 1, src := 1, acc := 5, status := .addressFault }) waitingRead
      (fun t => isEnd (.stream 1087) 2 .addressFault t && t.mem.isEmpty) = true ∧
    after (.requestBudgetExpiry 5) waitingRead (isEnd (.stream 1087) 2 .deadTarget) = true := by decide +kernel
/-- 10 R314, R316: a FENCE waits for a reissue, and the answer to one given up on is late. -/
theorem witness_reissued :
    (let c := cmdOf 1 [hdr 2 3, (8, 1)]
     let s := dmaState c
     let w : State := { s with fab := { s.fab with ri := some { Packet.blank with type := .atomic, cls := 0, dst := 1, acc := 9 } } }
     w.reissued.isSome = true ∧ after (.fence 1087 1) w (fun t => t.fab.fences == [(1087, 1, [9], none)]) = true) ∧
    (let s : State := { reaching [] with fab := { FabX.reset with riPast := [(9, 1)] } }
     s.fab.riPast.contains (9, 1) = true ∧ after (.responseArrival { Packet.blank with type := .atomicData, cls := 1, src := 1, acc := 9 }) s
       (fun t => t.ledger.events.length == 1) = true) := by decide +kernel
/-- A WRITE given up on. -/
def gaveUp : State :=
  { reaching [] with fab := { FabX.reset with reqs := [(5, { openReq .write with ended := some .unknown, gaveUp := true })] } }
theorem witness_silence :
    (reaching []).openReqs = [] ∧ (reaching []).fab.ri = none ∧ (reaching []).fab.resync = none ∧ (reaching []).cachedCopies = [] ∧ (reaching []).isMaster = true ∧
    (reaching []).reachable 1 = true ∧ (reaching []).reachable 2 = false ∧ rackOf 1 = rackOf (reaching []).me ∧ gaveUp.fab.ri = none ∧
    after (.responseArrival { Packet.blank with type := .ack, cls := 1, src := 1, acc := 5 }) gaveUp (fun t => t.ledger.events.length == 1) = true := by decide +kernel

/-! The Vault and HBM (07). -/

/-- The newest output is this reply to the Registrar. -/
def replied (a : Nat) (st : Status) (bs : List Byte) (t : State) : Bool := t.sent.getLast? == some (.memReply .registrar a st bs)
theorem witness_vault_requests :
    let s := State.reset
    let b := withRegs [(Reg.vltPartBusy 0, 1)]
    Memory.wf s.mem ∧ reqExt (.vaultRead .registrar 0 4) = some (false, 0, 4) ∧ (linesOf 0 4).any b.heldAt = true ∧
    s.ready [(false, 0x1000, 4)] = true ∧ s.ready [(true, 0x1000, 4)] = true ∧ s.ready [(true, 0x1000, 512)] = true ∧ s.atVault 0x1000 4 = true ∧
    s.reach .registrar .read 0x1000 4 = true ∧ s.reach .registrar .write 0x1000 4 = true ∧ s.atVault 0x0B000000000 4 = false ∧ s.readHurt 0x1000 4 = none ∧
    ({ s with hurt := [(0x1000, ⟨true, false⟩)] } : State).readHurt 0x1000 4 = some .memoryFault ∧
    s.atomicFault .registrar 0xB 0x1000 true = none ∧ s.atomicFault .registrar 0xB 0x1004 true = some .addressFault ∧
    (withRegs [(Reg.vltScratchGib 0, 1)]).exactFault (.engine 1040) 0x08000000000 = none ∧ s.exactFault .registrar 0x08000000000 = some .addressFault ∧
    after (.vaultRead .registrar 0 4) b (fun t => (t.vault 0).held == [.vaultRead .registrar 0 4]) = true ∧
    after (.vaultRead .registrar 0x1000 4) (withMem 0x1000 [7] s) (replied 0x1000 .ok [7, 0, 0, 0]) = true ∧
    after (.vaultWrite .registrar 0x1000 [7]) s (fun t => bytesAt t.mem 0x1000 2 == [7, 0]) = true ∧
    after (.vaultRead .registrar 0x0B000000000 4) s (replied 0x0B000000000 .addressFault []) = true := by decide +kernel
/-- The twelve atomics of 07 R218 on a word: the value left. -/
theorem test_atomics :
    let left := fun (i : Instr) (m : List Byte) (l : List Byte) => after i (withMem 0x1000 m State.reset) (fun t => bytesAt t.mem 0x1000 4 == l && replied 0x1000 .ok m t)
    left (.add .registrar 0x1000 false 2) [0xFF, 0xFF, 0xFF, 0xFF] [1, 0, 0, 0] = true ∧ left (.maxS .registrar 0x1000 false 2) [0xFF, 0xFF, 0xFF, 0xFF] [2, 0, 0, 0] = true ∧
    left (.maxU .registrar 0x1000 false 2) [0xFF, 0xFF, 0xFF, 0xFF] [0xFF, 0xFF, 0xFF, 0xFF] = true ∧ left (.minU .registrar 0x1000 false 2) [3, 0, 0, 0] [2, 0, 0, 0] = true ∧
    left (.minS .registrar 0x1000 false 2) [0xFF, 0xFF, 0xFF, 0xFF] [0xFF, 0xFF, 0xFF, 0xFF] = true ∧ left (.and .registrar 0x1000 false 6) [3, 0, 0, 0] [2, 0, 0, 0] = true ∧
    left (.or .registrar 0x1000 false 6) [3, 0, 0, 0] [7, 0, 0, 0] = true ∧ left (.xor .registrar 0x1000 false 6) [3, 0, 0, 0] [5, 0, 0, 0] = true ∧
    left (.swap .registrar 0x1000 false 6) [3, 0, 0, 0] [6, 0, 0, 0] = true ∧ left (.cas .registrar 0x1000 false 6 3) [3, 0, 0, 0] [6, 0, 0, 0] = true ∧
    left (.cas .registrar 0x1000 false 6 4) [3, 0, 0, 0] [3, 0, 0, 0] = true ∧ left (.fmax .registrar 0x1000 false 0x3F800000) [0, 0, 0, 0x40] [0, 0, 0, 0x40] = true := by decide +kernel
/-- 04 R129: an addend is added and read back; a mask of no slot adds nothing. -/
theorem test_exact :
    after (.exactAdd (.engine 1040) 0x08000000000 1 [0x3F800000]) (withRegs [(Reg.vltScratchGib 0, 1)])
      (fun t => after (.exactRead (.engine 1040) 0x08000000000) t fun u =>
        (u.sent.getLast?.map fun m => match m with | .memReply _ _ _ bs => bs.take 4 | _ => []) == some [0, 0, 0x80, 0x3F]) = true ∧
    after (.exactAdd (.engine 1040) 0x08000000000 (2 ^ 32) [0x3F800000]) (withRegs [(Reg.vltScratchGib 0, 1)])
      (fun t => t.mem.isEmpty && t.sent == [.memReply (.engine 1040) 0x08000000000 .ok []]) = true := by decide +kernel
theorem witness_partition :
    let s := withRegs [(Reg.vltScratchGib 1, 32)]
    NMap.Rising s.cache ∧ s.fld (Reg.vltScratchGib 1) = 32 ∧ s.fld (Reg.vltPartBusy 1) = 0 ∧ min 63 32 = 32 ∧ s.vaultBusy 1 = false ∧
    (withRegs [(Reg.vltFlushBusy 1, 1)]).vaultBusy 1 = true ∧
    exec (.partitionChange 1 63) s = .next s ∧ after (.vltFlush 1) s (fun t => t.fld (Reg.vltFlushBusy 1) == 1) = true ∧
    after (.vltInvalidate 1) { s with cache := [(7, ⟨1, 0, true, true, false, []⟩)] } (fun t => t.cache == []) = true ∧
    after (.flushDone 1) { withRegs [(Reg.vltFlushBusy 1, 1)] with vaults := [(1, ⟨[.vaultWrite .registrar 0x08800000000 [7]], []⟩)] }
      (fun t => t.fld (Reg.vltFlushBusy 1) == 0 && (t.vault 1).held.isEmpty) = true ∧
    after (.hbmCntClear 7) (withRegs [(Reg.hbmReadBytes 7, 9)]) (fun t => t.fld (Reg.hbmReadBytes 7) == 0) = true := by
  and_intros <;> first | rfl | decide +kernel
/-- 07 R204: a field of 3 keeps its value and is counted; word 63's pair 1,023 is fixed. -/
theorem witness_placement :
    State.reset.fld (Reg.vltAttrLock 0) = 0 ∧ (withRegs [(Reg.vltAttrLock 0, 1)]).fld (Reg.vltAttrLock 0) = 1 ∧
    State.reset.fld (Reg.vltAttrRefused 0) + 1 < 2 ^ 16 ∧ State.reset.pairAttr 0 = 0 ∧
    (withRegs [(Reg.vltPageAttr 0 0, 1)]).pairAttr 0 = 1 ∧ ((withRegs [(Reg.vltPageAttr 0 0, 1)]).placeOf 0x10000000).1 / 4 = 1 ∧
    ((withRegs [(Reg.vltPageAttr 0 0, 2)]).placeOf 0x10000000).1 / 4 = 0 ∧
    after (.pageAttrWrite 0 0 (3 + 4 * 2)) State.reset (fun t => t.pairAttr 0 == 0 && t.pairAttr 1 == 2 && t.fld (Reg.vltAttrRefused 0) == 1 &&
      t.fld (Reg.vltPageAttr 1 0) == t.fld (Reg.vltPageAttr 0 0)) = true := by decide +kernel
theorem witness_scrub :
    let s := withMem 0x20000000 [1] (withMem 0x1FFFFFFF [1] State.reset)
    let c : State := { withRegs [(Reg.vltScrubBusy 0, 1)] with vaults := [(0, ⟨[], [5]⟩)] }
    Memory.wf s.mem ∧ 5 ∈ (c.vault 0).scrubbed ∧ (c.vault 0).held = [] ∧ (c.vault 1).held = [] ∧ 6 ∉ (c.vault 0).scrubbed ∧
    after (.pageAttrWrite 0 0 4) s (fun t => byteAt t.mem 0x20000000 == 0 && byteAt t.mem 0x1FFFFFFF == 1 && (t.vault 0).scrubbed == [1] && t.fld (Reg.vltScrubBusy 0) == 1) = true ∧
    after (.pageScrubDone 5) c (fun t => t.fld (Reg.vltScrubBusy 0) == 0 && (t.vault 0).scrubbed == []) = true ∧
    after .vltAttrLock s (fun t => after (.pageAttrWrite 0 0 4) t fun u => u.pairAttr 1 == 0 && u.fld (Reg.vltAttrRefused 0) == 1) = true := by decide +kernel
/-- Slice 63 of CD1 with losses in the read direction and tickets. -/
def contest (loss : List Nat) (tickets : Nat) : State :=
  { withRegs [(Reg.vltTickets 1 63, tickets)] with slices := [(127, ⟨loss, List.replicate 8 0, none, none, [], []⟩)] }
/-- 07 R213, R214: the requests of one direction, the losses before, and the port that wins. -/
theorem witness_arbitration :
    let s := contest
    after (.sliceArbitration 1 63 0 0) (s (List.replicate 8 0) 0) (fun t => (t.slice 1 63).rdWin == none) = true ∧
    after (.sliceArbitration 1 63 0xFF 0) (s [0, 63, 64, 0, 0, 64, 0, 0] 0x11111111) (fun t => (t.slice 1 63).rdWin == some 2 && (t.slice 1 63).rdLoss == [1, 64, 0, 1, 1, 65, 1, 1]) = true ∧
    after (.sliceArbitration 1 63 0x80 0) (s (List.replicate 8 0) 0) (fun t => (t.slice 1 63).rdWin == some 7) = true ∧
    after (.sliceArbitration 1 63 0x81 0) (s (List.replicate 8 0) 0) (fun t => (t.slice 1 63).rdWin == none) = true ∧
    after (.sliceArbitration 1 63 0x81 0) (s (List.replicate 8 0) 0x30000000) (fun t => (t.slice 1 63).rdWin == some 7) = true ∧
    after (.vltLfsrSeed 1 63 (2 ^ 32)) State.reset (fun t => t.fld (Reg.vltLfsr 1 63) == 1) = true := by decide +kernel
/-- 07 R223: at 92 the second threshold is reached; 3 degrees below it, it is left. -/
theorem test_thermal : thermNext 1 92 85 92 98 = 2 ∧ thermNext 2 90 85 92 98 = 2 ∧ thermNext 2 88 85 92 98 = 1 ∧
    after (.thermalSample 1 [92] [0, 0, 0, 99]) State.reset (fun t => t.fld (Reg.vltThermState 1) == 3 && t.fld (Reg.hbmRefreshMult 7) == 2) = true := by decide +kernel
/-- The line at 0x1000 with a directory entry. -/
def lineState (e : DirEnt) : State := { withRegs [(Reg.vltCohTimeout 0, 1), (Reg.vltCohTimeout 1, 1)] with dir := [(0x1000, e)] }
theorem witness_directory :
    let s := State.reset
    let owned := lineState { DirEnt.empty with owner := some (1, 0) }
    let shared := lineState { DirEnt.empty with sharers := [(1, 0)] }
    NMap.Rising s.dir ∧ s.atVault 0x1000 128 = true ∧ s.atVault 0x0B000000000 128 = false ∧ (s.dirPeers 0x1000).length < 16 ∧ s.readHurt 0x1000 128 = none ∧
    (({ DirEnt.empty with sharers := [(1, 0)] } : DirEnt).sharers.filter (· != (2, 0))) ≠ [] ∧ s.fld (Reg.vltCohTimeout (s.homeDie 0x1000)) ≠ 0 ∧
    after (.cohRemoteRequest .read 2 0 0x1000) s (fun t => (t.sent.getLast?.map fun m => match m with | .cohGrant l m d e _ => (l, m, d, e) | _ => (0, 0, 0, true)) == some (0x1000, 2, 0, false)) = true ∧
    after (.cohRemoteRequest .read 2 0 0x1000) owned (fun t => t.sent == [.cohRecall 0x1000 1 0 .recallKeepShared]) = true ∧
    after (.cohRemoteRequest .upgrade 2 0 0x1000) shared (fun t => t.sent == [.cohRecall 0x1000 1 0 .invalidate]) = true := by decide +kernel
theorem witness_directory_replies :
    let inv := lineState { DirEnt.empty with sharers := [(1, 0), (2, 0)], trans := .invalidating [(1, 0), (2, 0)] none }
    let rec_ := lineState { DirEnt.empty with owner := some (1, 0), trans := .recalling false none }
    let key := remoteKey 1 0x1000
    let held : State := { State.reset with cache := [(key, ⟨1, 0, true, true, true, [7]⟩)] }
    after (.cohReply 0x1000 1 0 none) inv (fun t => ((nget t.dir 0x1000).map (·.sharers)) == some [(2, 0)]) = true ∧
    after (.cohReply 0x1000 1 0 (some [7])) rec_ (fun t => byteAt t.mem 0x1000 == 7 && ((nget t.dir 0x1000).map (·.sharers)) == some [(1, 0)]) = true ∧
    after (.cohReply 0x1000 3 0 none) inv (fun t => t.ledger.events.length == 1) = true ∧
    after (.cohTimeout 0x1000) rec_ (fun t => ((nget t.hurt 0x1000).map (·.poisoned)) == some true) = true ∧
    after (.cohTimeout 0x1000) inv (fun t => nget t.dir 0x1000 == none) = true ∧ NMap.Rising held.cache ∧
    after (.cohRecall 0x1000 .recallKeepShared 1) held (fun t => t.sent == [.coh 0x20 1 (some [7])] && ((nget t.cache key).map (·.dirty)) == some false) = true ∧
    after (.cohRecall 0x1000 .invalidate 0) held (fun t => t.sent == [.coh 0x20 0 none]) = true := by decide +kernel
/-- 07 R212, R213: a read asks its slice for a read grant on its requester's port, and a grant on the winning port is taken. -/
theorem witness_grants :
    let s := State.reset
    let sl := s.sliceOf 0x1000
    reqExt (.vaultRead .registrar 0x1000 4) = some (false, 0x1000, 4) ∧ s.ready [(false, 0x1000, 4)] = true ∧
    after (.vaultRead .registrar 0x1000 4) s (fun t => (t.slice sl.1 sl.2).asked == [(s.portOf sl.1 sl.2 .registrar, false)]) = true ∧
    after (.sliceArbitration 1 63 0x80 0) { s with slices := [(127, ⟨List.replicate 8 0, List.replicate 8 0, none, none, [], [(7, true), (7, false)]⟩)] }
      (fun t => (t.slice 1 63).asked == [(7, true)]) = true := by decide +kernel
/-- The set of the line at 0x1000, full of other lines of its slice, each shared by a member. -/
def fullSet : State :=
  { State.reset with dir := [65, 130, 195, 520, 585, 650, 715, 1040, 1105, 1170, 1235, 1560, 1625, 1690, 1755, 2080].zipIdx.map fun k =>
      (0x1000 + 2 ^ 24 * k.1, { DirEnt.empty with sharers := [(1, 0)], way := k.2 }) }
theorem witness_directory_waits :
    let i := Instr.cohRemoteRequest .read 2 0 0x1000
    let busy := withRegs [(Reg.vltFlushBusy 0, 1)]
    State.reset.quireIndex = 0 ∧ after (.cohRemoteRequest .read 0 0 0x1000) State.reset (· == State.reset) = true ∧
    busy.waitsFor (false, 0x1000, 128) = true ∧ after i busy (fun t => (t.vault 0).held == [i]) = true ∧
    (fullSet.dirPeers 0x1000).length = 16 ∧ (fullSet.dirPeers 0x1000).any (·.2.trans.frees) = false ∧ nget fullSet.dir 0x1000 = none ∧
    ((fullSet.dirPeers 0x1000).any fun p => p.2.way == (dirVictim (fullSet.dirPeers 0x1000)).1) = true ∧
    after i fullSet (fun t => (t.vault 0).held == [i] && t.dir.any (·.2.trans != .none)) = true := by decide +kernel
/-- 07 R209: the last reply gives the line to who waits for it; a notice of eviction frees its entry. -/
theorem witness_directory_hands_on :
    let inv := lineState { DirEnt.empty with sharers := [(1, 0)], trans := .invalidating [(1, 0)] (some (.write, 2, 0)) }
    let own := lineState { DirEnt.empty with owner := some (1, 0) }
    (inv.vault 0).held = [] ∧ (inv.vault 1).held = [] ∧ inv.readHurt 0x1000 128 = none ∧
    after (.cohReply 0x1000 1 0 none) inv (fun t => ((nget t.dir 0x1000).map fun x => (x.owner, x.sharers)) == some (some (2, 0), []) &&
      (t.sent.getLast?.map fun m => match m with | .cohGrant l m d e _ => (l, m, d, e) | _ => (0, 0, 0, false)) == some (0x1000, 2, 0, true)) = true ∧
    after (.cohReply 0x1000 1 0 (some [7])) own (fun t => nget t.dir 0x1000 == none && byteAt t.mem 0x1000 == 7) = true := by decide +kernel

/-! Power, clocks and reset (14, 17). -/

/-- Power that differs from reset's. -/
def withPow (f : PowX → PowX) (s : State := State.reset) : State := { s with pow := f s.pow }
/-- The power limit, whose word at reset is fused. -/
def limited (l : List (Fld × Nat)) : State := withRegs l { State.reset with ctl := [(Reg.pwrLimit.off, putBits 0 Reg.pwrLimit.lo Reg.pwrLimit.w 2200)] }
theorem witness_clocks :
    let s := State.reset
    let hot := limited [(Reg.pwrNow, 2300)]
    let slow := limited [(Reg.pwrNow, 2300), (coreMhz 0, 700), (coreMhz 1, 700), (Reg.pwrDuty, 16)]
    s.fld (coreMhz 0) ∈ corePoints ∧ s.fld (coreMhz 1) ∈ corePoints ∧ s.clk.limit.length = 2 ∧ s.clk.limit.getD 1 1400 ∈ corePoints ∧
    hot.fld Reg.pwrLimit < hot.fld Reg.pwrNow ∧ 700 < hot.fld (coreMhz 0) ∧ 100 * 2100 < 98 * 2200 ∧ ¬ 100 * 2156 < 98 * 2200 ∧
    after (.clockStep (.core 1)) (withRegs [(Reg.vltThermState 1, 2)]) (fun t => t.fld (coreMhz 1) == 1300 && t.fld Reg.clkSteps == 1) = true ∧
    after (.clockStep (.hbm 7)) (withRegs [(Reg.hbmThermState 7, 3)]) (fun t => t.fld (Reg.clkHbmMhz 7) == 1000) = true ∧
    after (.clockStep (.core 0)) s (· == s) = true ∧
    after (.powerSample 500) { s with clk := { s.clk with samples := [400] } } (fun t => t.fld Reg.pwrNow == 450 && t.fld Reg.pwrPeak == 450) = true ∧
    after .powerLimitStep hot (fun t => t.fld (coreMhz 0) == 1300 && t.clk.limit == [1300, 1300]) = true ∧
    after .pwrDutyStep slow (fun t => t.fld Reg.pwrDuty == 8 && bit (t.fld Reg.pwrCapCause) 5) = true ∧
    after (.edcEvent 1) s (fun t => t.fld (coreMhz 1) == 700 && t.fld (coreMhz 0) == 1400 && bit (t.fld Reg.pwrCapCause) 2) = true ∧
    after (.rampWindow 0 (List.range 40)) s (fun t => t.fld Reg.pwrRampWaits == 8 && t.clk.served == [31, 135]) = true := by decide +kernel
theorem witness_power_ups :
    let s := State.reset
    s.held = false ∧ s.fld Reg.pwrBootCount + 1 < 2 ^ 32 ∧ s.pow.custUp = true ∧ s.pow.pwrok = true ∧ s.pow.mainUp = true ∧
    (withPow fun x => { x with mainUp := false, cause := some 15 }).pow.cause = some 15 ∧ (withPow fun x => { x with resetLow := true }).held = true ∧
    after .pkgReset (withMem 0 [1] s) (fun t => t.mem.isEmpty && t.held && t.fld Reg.pwrResetCause == 2 && t.fld Reg.pwrBootStage == 1) = true ∧
    after .pkgResetRelease (withPow fun x => { x with resetLow := true }) (fun t => !t.held) = true ∧
    after .mainRailPowerUp (withPow fun x => { x with mainUp := false, pwrok := false }) (fun t => t.fld Reg.pwrResetCause == 1 && t.pow.mainUp) = true ∧
    after (.pkgPwrokRise true) (withPow fun x => { x with pwrok := false }) (fun t => t.pow.pwrok) = true ∧
    after .coldPowerUp (withMem 0 [1] s) (fun t => t.mem.isEmpty && t.fld Reg.pwrBootCount == 1 && t.held) = true ∧
    after .mainRailRemoval (withPow fun x => { x with trip := some false }) (fun t => t.pow.trip == some true) = true ∧
    after .custodianRailLoss s (fun t => t.lands == [false, false, false, false]) = true := by decide +kernel
theorem witness_faults :
    let s := State.reset
    let low := withPow fun x => { x with resetLow := true }
    s.pow.custUp = true ∧ s.pow.resetLow = false ∧ low.pow.resetLow = true ∧ low.held = true ∧ s.held = false ∧ s.fld Reg.pwrBootCount + 1 < 2 ^ 32 ∧
    after (.railFault (.groupOrder 15)) low (fun t => t.fld Reg.pwrResetCause == 4 && t.lands[0]? == some false && ((t.ledger.tail.head?.map (·.body)) == some (.power 4 15 0))) = true ∧
    after (.railFault (.outOfTolerance 3)) low (· == low) = true ∧
    after .referenceFault s (fun t => t.fld Reg.pwrResetCause == 5 && t.lands[0]? == some false) = true ∧
    after .custRefclkLoss s (fun t => t.pow.internalOsc && t.lands[3]? == some false) = true ∧
    after .thermalTrip s (fun t => t.fld Reg.pwrResetCause == 6 && t.lands[1]? == some false && t.lands[2]? == some false && t.pow.trip == some false) = true ∧
    after (.thermTripRelease 84) (withPow fun x => { x with trip := some true }) (fun t => t.pow.trip == none) = true ∧
    after (.thermTripRelease 85) (withPow fun x => { x with trip := some true }) (fun t => t.pow.trip == some true) = true := by decide +kernel
theorem witness_boot :
    let s := fun n => withRegs [(Reg.pwrBootStage, n)]
    State.reset.held = false ∧ State.reset.fld Reg.pwrBootStage = 1 ∧
    after .bootStageEnd State.reset (fun t => t.fld Reg.pwrBootStage == 2 && t.fld Reg.clkLock == 2 ^ 30 - 1) = true ∧
    after .bootStageEnd (s 3) (fun t => t.pow.linksUp && t.fld (Reg.htxMbState 0) == 1 && t.fld Reg.pwrBootStage == 4) = true ∧
    after .bootStageEnd (s 5) (fun t => t.fld Reg.secKeyHbm == 1 && t.fld Reg.pwrBootStage == 6) = true ∧ exec .bootStageEnd (s 6) = .next (s 6) ∧
    after (.bootHalt .unitFault 15 255) (s 5) (fun t => t.fld Reg.pwrBootStage == 15 && t.fld Reg.pwrBootFault == 0x32 && t.lands[0]? == some false) = true := by
  and_intros <;> first | rfl | decide +kernel
/-- 17 R470 Table 4: what the lands show while the package boots, with the main rails down and with the Custodian down. -/
theorem test_land_levels :
    [OutLand.perstN, .dbgTdo, .chnTx 35].map State.reset.landLevel = [.driven, .high, .idle] ∧
    after .mainRailRemoval State.reset (fun t => [OutLand.perstN, .spiCsIo, .custI3cSda, .pcieTx].map t.landLevel == [.low, .followsVddio, .driven, .highImpedance]) = true ∧
    after .custodianRailLoss State.reset (fun t => [OutLand.spiClk, .custI3cSda, .hdI3cSda].map t.landLevel == [.low, .highImpedance, .highImpedance]) = true := by
  decide +kernel

/-! The Presses (12). -/

/-- A problem of one variable and no constraint, whose program is one END: its record at 0x1000, the program at 0x2000, the output block at 0x3000,
the upstream gradient at 0x4000 and the gradient block at 0x5000. -/
def problem (kind n : Nat) : List Byte :=
  recOf 256 [(0, kind), (1, n), (2, 0x2000), (4, 1), (7, 1), (9, 0x3FF00000), (11, 0x3FF00000), (13, 0x3FF00000), (15, 0x3FF00000), (17, 0x3FF00000),
    (18, 0x3000), (20, 2), (32, 0x4000), (35, 0x5000), (37, 2)]
/-- A PRESS command of that problem on stream 1071. -/
def pressState (op kind n deadline : Nat) : State :=
  withMem 0x1000 (problem kind n) (withIssued 1071 [cmdOf 1 [hdr 0x13 op, (8, 0x1000), (10, 1), (11, deadline)]] State.reset)
def pressCmd (op deadline : Nat) : Cmd := cmdOf 1 [hdr 0x13 op, (8, 0x1000), (10, 1), (11, deadline)]
theorem witness_solve :
    let s := pressState 0 0 1 0
    let p := s.readProb 0x1000
    Memory.wf s.mem ∧ s.issuedCmd 1071 1 0x13 0 = some (pressCmd 0 0) ∧ (s.strm 1071).issued.head?.map (·.acc) = some 1 ∧ s.lowerStream 1071 = false ∧ s.pressFault 1071 (pressCmd 0 0) 0 = none ∧
    s.countOf 1071 (pressCmd 0 0).desc 0 1 = 1 ∧ (p.exts 0 1).all (fun e => (if e.1 then s.writeHurt e.2.1 e.2.2 else s.readHurt e.2.1 e.2.2) == none) = true ∧
    s.ready (p.exts 0 1) = true ∧ s.cons.armed = [] ∧ p.xOutEn = false ∧ p.sources.length = 0 ∧ p.blockBytes = 128 ∧
    (pressState 0 0 0 0).pressFault 1071 (pressCmd 0 0) 0 = some .descriptorFault ∧
    (withIssued 1068 [pressCmd 0 0] s).lowerStream 1071 = true ∧
    ((withIssued 1071 [cmdOf 2 [hdr 0x13 0], pressCmd 0 0] s).strm 1071).issued.head?.map (·.acc) = some 2 := by decide +kernel
theorem witness_backward :
    let s := pressState 1 1 1 0
    let p := s.readProb 0x1000
    s.issuedCmd 1071 1 0x13 1 = some (pressCmd 1 0) ∧ (s.strm 1071).issued.head?.map (·.acc) = some 1 ∧ s.pressFault 1071 (pressCmd 1 0) 1 = none ∧ s.lowerStream 1071 = false ∧
    (p.exts 1 1).all (fun e => (if e.1 then s.writeHurt e.2.1 e.2.2 else s.readHurt e.2.1 e.2.2) == none) = true ∧ s.ready (p.exts 1 1) = true ∧
    p.dgrad = 0x5000 ∧ p.gradBytes = 128 := by decide +kernel
/-- 12 R356: a record of no variable; a constraint matrix of the kind ADMM weighs (12 R360): no bound, an equality, and the rest. -/
theorem test_press :
    after (.solve 1071 1 0) (pressState 0 0 0 0) (isEnd (.stream 1071) 1 .descriptorFault) = true ∧
    (⟨false, 1, d0, d0, d1, d1, d1, d1, 0⟩ : Settings).weights ⟨1, 3, [], [], [], [dNegInf, d1, d0], [dInf, d1, d1]⟩ =
      [0x3EB0000000000000, 0x408F400000000000, d1] := by decide +kernel
/-- 12 R364: the factorisation that the deadline finds under way is abandoned. -/
theorem witness_deadline :
    let s := pressState 0 0 1 5
    let p := s.readProb 0x1000
    (s.solveProblem { s.settings 1 p 5 with deadline := 0 } p 0 0 (some (1, 9))).2.status = .factorAbandoned ∧
    (s.strm 1071).issued.head?.map (·.acc) = some 1 ∧ s.pressFault 1071 (pressCmd 0 5) 0 = none ∧
    (p.exts 0 1).all (fun e => (if e.1 then s.writeHurt e.2.1 e.2.2 else s.readHurt e.2.1 e.2.2) == none) = true ∧ s.ready (p.exts 0 1) = true ∧
    (withRegs [(Reg.vltFlushBusy 0, 1)] s).ready (p.exts 0 1) = false ∧
    after (.pressDeadlineCheck 1071 1 4 1) s (· == s) = true ∧
    after (.prsCntClear 1) (withRegs [(Reg.prsBusyCycles 1, 9)]) (fun t => t.fld (Reg.prsBusyCycles 1) == 0) = true := by decide +kernel

/-! The host interface, registers and queues (13, 01). -/

/-- The package owned, with its host link up. -/
def owned (l : List (Fld × Nat) := []) : State := withPow (fun x => { x with linksUp := true }) (withRegs ([(Reg.htxOwned, 1), (Reg.htxSqSize 63, 12)] ++ l))
/-- One entry in progress on queue 63. -/
def entryState (ws : List (Nat × Nat)) (l : List (Fld × Nat) := []) (f : SqX → SqX := id) : State :=
  { owned l with sqs := [(63, f { SqX.reset with entries := [⟨7, 3, descOf ws⟩], next := 8 })] }
theorem witness_queue_controls :
    let s := owned
    s.pow.linksUp = true ∧ State.reset.pow.linksUp = false ∧ s.fld Reg.htxOwned = 1 ∧ State.reset.fld Reg.htxOwned = 0 ∧ s.fld (Reg.htxSqSize 63) ≤ 12 ∧
    (s.sq 63).entries = [] ∧ ((entryState []).sq 63).entries ≠ [] ∧ (s.sq 63).halted = false ∧ ((entryState [] [] fun x => { x with halted := true }).sq 63).halted = true ∧
    after (.htxSqTail 63 0x1003) s (fun t => t.fld (Reg.htxSqTail 63) == 3) = true ∧
    after (.htxCqHead 63 2) (entryState [] [] fun x => { x with held := 3 }) (fun t => (t.sq 63).held == 1 && t.fld (Reg.htxCqHead 63) == 2) = true ∧
    after (.htxSqEnable 63 (0x100 + 15)) s (fun t => t.fld (Reg.htxSqEnable 63) == 1 && t.fld (Reg.htxSqSize 63) == 12 && (t.sq 63).phase) = true ∧
    after (.htxSqResume 63) (entryState [] [] fun x => { x with halted := true }) (fun t => !(t.sq 63).halted) = true ∧
    after (.htxSqReset 63) (entryState []) (fun t => (t.sq 63).resetting) = true ∧
    after (.htxImEnable 1023) (owned [(Reg.htxImPending 1023, 1), (Reg.htxImHart 1023, 5)]) (fun t => (t.sent.map fun m => match m with | .irq h e _ => (h, e) | _ => (0, 0)) == [(5, 1)]) = true ∧
    after (.htxOwnBreak .window0) s (fun t => t.fld Reg.htxOwned == 0) = true ∧
    after (.htxSqTail 63 1) (withPow fun x => { x with linksUp := true }) (fun t => t.fld Reg.htxWinRefused == 1 && t.fld Reg.htxWinRefusedOffset == 0x19000 + 8 * 63) = true := by decide +kernel
/-- Queue 63 may fetch, whatever its slot holds and however its page translates: no entry is in progress. -/
theorem witness_entry_fetch :
    (owned [(Reg.htxSqEnable 63, 1), (Reg.htxSqTail 63, 1)]).mayFetchEntry 63 = true ∧ ((owned [(Reg.htxSqEnable 63, 1), (Reg.htxSqTail 63, 1)]).sq 63).entries = [] ∧
    (owned [(Reg.htxSqEnable 63, 1)]).mayFetchEntry 63 = false ∧ Memory.wf State.reset.hostMem ∧ Memory.wf State.reset.mem ∧
    entryBad (descOf [(0, 5)]) = true ∧ entryBad (descOf [(0, 4), (8, 47 * 2 ^ 8)]) = false ∧ entryBad (descOf [(0, 4), (8, 48 * 2 ^ 8)]) = true := by decide +kernel
theorem witness_entries :
    let find := fun (s : State) acc op => ((s.sq 63).entries.find? fun e => e.acc == acc && eOp e.desc == op).isSome
    find (entryState []) 7 0 = true ∧ find (entryState [(0, 3), (8, 1087), (9, 2)]) 7 3 = true ∧ find (entryState [(0, 4), (8, 255 + 47 * 2 ^ 8)]) 7 4 = true ∧
    ((entryState []).sq 63).resetting = false ∧ (entryState []).outOfService 255 = false ∧ (entryState [] [(Reg.csvOutOfService 7, 2 ^ 31)]).outOfService 255 = true ∧
    find (entryState [(0, 1), (4, 0x1000), (6, 8), (7, 8)]) 7 1 = true ∧ (entryState []).mayMove .host true 0x1000 8 = true ∧ (entryState []).mayMove .host true (2 ^ 43) 8 = false ∧
    (entryState []).storeOut 0x1000 = false ∧ (entryState []).moveHurt true 0x1000 8 = none ∧ (entryState []).ready (vaultExt true 0x1000 8) = true ∧
    ({ entryState [] with hurt := [(0x1000, ⟨true, false⟩)] } : State).moveHurt true 0x1000 8 = some .memoryFault := by decide +kernel
theorem witness_registers :
    let s := owned
    State.reset.accepts .registrar (Reg.pwrLimit).off = true ∧ accessOk (Reg.pwrLimit).off 4 = true ∧ accessOk ((Reg.pwrLimit).off + 2) 4 = false ∧
    s.accepts .window0 (Reg.pwrLimit).off = true ∧ s.accepts .window1 (Reg.pwrLimit).off = false ∧ s.pow.linksUp = true ∧ coreReaches 0 (Reg.strmTail 0).off = true ∧
    coreReaches 0 (Reg.strmTail 4).off = false ∧ (accessWords (Reg.pwrLimit).off 8).length = 2 ∧ (limited []).word Reg.pwrWindow.off &&& ~~~ wordMask Reg.pwrWindow.off = 0 ∧
    (State.reset.fld (Reg.strmEnable 1087) = 0 ∧ (State.reset.strm 1087).ahead = []) ∧ (withRegs [(Reg.strmEnable 1087, 1)]).fld (Reg.strmEnable 1087) = 1 ∧
    (withRegs [(Reg.chnFabricEn, 1)]).fld Reg.chnFabricEn = 1 ∧
    (State.reset.core 255).gated = false ∧ State.reset.accepts .registrar (Reg.coreGateDelay 255).off = true ∧
    (Reg.coreGateDelay 255).off = 0x1000000 + 255 * 0x4000 + (Reg.coreGateDelay 255).off % 0x4000 ∧
    after (.registerWrite .registrar 2 4 0) State.reset (fun t => t.sent == [.memReply .registrar (ctlBase + 2) .addressFault []]) = true ∧
    after (.registerWrite (.core 3) (Reg.pwrLimit).off 4 0) State.reset (fun t => t.sent == [.memReply (.core 3) (ctlBase + Reg.pwrLimit.off) .addressFault []]) = true ∧
    (clockFlds.any fun f => decide (Reg.pwrWindow.off < f.off + 8) && decide (f.off < Reg.pwrWindow.off + 4)) = false ∧
    (clockFlds.any fun f => decide (Reg.cstTime.off < f.off + 8) && decide (f.off < Reg.cstTime.off + 4)) = true ∧
    after (.registerWrite .registrar Reg.pwrWindow.off 4 127) State.reset (fun t => t.fld Reg.pwrWindow == 100) = true ∧
    after (.registerWrite .registrar (Reg.strmSize 1087).off 4 31) State.reset (fun t => t.fld (Reg.strmSize 1087) == 16) = true ∧
    after (.registerWrite .window1 Reg.pwrWindow.off 4 5) s (fun t => t.fld Reg.pwrWindow == 10 && t.fld Reg.htxWinRefused == 1) = true ∧
    after (.readClear .registrar Reg.pwrWindow.off 4) State.reset (fun t => t.sent == [.memReply .registrar (ctlBase + Reg.pwrWindow.off) .ok [10, 0, 0, 0]]) = true ∧
    after (.readClear .window0 Reg.pwrWindow.off 4) State.reset (fun t => t.sent == [.memReply .host (ctlBase + Reg.pwrWindow.off) .ok [0xFF, 0xFF, 0xFF, 0xFF]]) = true := by decide +kernel
/-- The fused limit is one of two (14 R413); a state that has it. -/
theorem witness_fused_limit : ({ State.reset with ctl := [(Reg.pwrLimitFused.off, putBits 0 Reg.pwrLimitFused.lo Reg.pwrLimitFused.w 2200)] } : State).fld Reg.pwrLimitFused = 2200 := by
  decide +kernel
theorem witness_debug_port :
    let open_ := withRegs [(Reg.secDebugState, 1)]
    State.reset.fld Reg.secDebugState = 0 ∧ open_.fld Reg.secDebugState ≠ 0 ∧ open_.mayMove .registrar true 0x1000 4 = true ∧ open_.mayMove .registrar true (2 ^ 43) 4 = false ∧
    open_.readHurt 0x1000 4 = none ∧ open_.writeHurt 0x1000 4 = none ∧ ({ open_ with hurt := [(0x1000, ⟨true, false⟩)] } : State).readHurt 0x1000 4 = some .memoryFault ∧
    after (.debugPortAccess (.haltCore 3)) open_ (fun t => t.sec.halted == [3]) = true ∧ after (.debugPortAccess (.haltCore 3)) State.reset (fun t => t.sec.halted == []) = true ∧
    after (.debugPortAccess (.writeMem 0x1000 [1, 2, 3, 4])) open_ (fun t => bytesAt t.mem 0x1000 4 == [1, 2, 3, 4]) = true ∧
    after (.debugPortAccess .scan) open_ (fun t => match t.sent with | [.memReply who a st bs] => (who, a, st, bs.length) == (.registrar, 0, .ok, 4) | _ => false) = true ∧
    after (.debugPortAccess (.stepCore 3)) open_ (· == open_) = true ∧
    (let s : State := { open_ with sec := { open_.sec with halted := [3] } }
     after (.debugPortAccess (.stepCore 3)) s (fun t => t.sent == [.memReply .registrar 0 .ok []] && t.sec.halted == [3]) = true) ∧
    open_.ready (vaultExt false 0x1000 4) = true ∧ open_.ready (vaultExt true 0x1000 4) = true ∧
    (let s := withRegs [(Reg.secDebugState, 1), (Reg.vltFlushBusy (open_.homeDie 0x1000), 1)]
     s.ready (vaultExt false 0x1000 4) = false ∧ s.ready (vaultExt true 0x1000 4) = false ∧
     after (.debugPortAccess (.readMem 0x1000 4)) s (fun t => (t.vault (s.homeDie 0x1000)).held == [.debugPortAccess (.readMem 0x1000 4)]) = true) ∧
    after (.rgsBarClear 7) { withRegs [(Reg.rgsBarArrived 7, 2)] with bars := [(7, ⟨[1, 2], []⟩)] } (fun t => t.fld (Reg.rgsBarArrived 7) == 0 && (t.bar 7).arrived == []) = true := by
  and_intros <;> first | rfl | decide +kernel

/-! Mailboxes and the Custodian (13, 15, 16). -/

/-- Mailbox `m`, bound, holding a request under an opcode; the firmware runs on four control cores, booted, the package owned. -/
def mbState (m op : Nat) (req : List Byte) (l : List (Fld × Nat) := []) : State :=
  let data := (List.range ((req.length + 3) / 4)).map fun i => (mbBase m + 0x40 + 4 * i, BitVec.ofNat 32 (leNat ((req.drop (4 * i)).take 4)))
  withPow (fun x => { x with linksUp := true, i3c := some 8 })
    (withRegs ([(Reg.rgsFwState, 2), (Reg.pwrBootStage, 7), (Reg.htxOwned, 1), (Reg.htxMbBound m, 1), (Reg.htxMbOpcode m, op), (Reg.htxMbReqLen m, req.length)] ++ l)
      { State.reset with ctl := data.foldl (fun c e => nset c e.1 e.2) [(Reg.rgsCores.off, putBits 0 Reg.rgsCores.lo Reg.rgsCores.w 15)] })
/-- The command on mailbox `m` is done, with its status and this reply. -/
def mbShows (m : Nat) (st : Status) (bs : List Byte) (t : State) : Bool :=
  t.fld (Reg.htxMbState m) == 2 && t.fld (Reg.htxMbStatus m) == statusCode st && t.fld (Reg.htxMbReplyLen m) == bs.length &&
  (t.ctlBytes (mbBase m + 0x40) (bs.length + 3)).take bs.length == bs
theorem witness_mailbox :
    let s := mbState 6 0x02 []
    s.fld (Reg.htxMbOpcode 6) = 0x02 ∧ s.fld (Reg.htxMbState 6) ≠ 1 ∧ s.mbReq 6 = [] ∧ s.mbox.running = none ∧ s.mbox.waiting = [] ∧
    s.mbFault 6 0x02 0 = none ∧ s.pow.custUp = true ∧ s.pow.i3c.isSome = true ∧ s.fwRunning = true ∧ State.reset.fwRunning = false ∧
    (mbState 6 0x02 [] [(Reg.htxMbState 6, 1)]).fld (Reg.htxMbState 6) = 1 ∧ (mbState 6 0x99 []).mbFault 6 0x99 0 = some .descriptorFault ∧
    (mbState 6 0x30 [] [(Reg.htxMbBound 6, 0)]).mbFault 6 0x30 0 = some .ownerFault ∧ serialOp 0x31 = true ∧ opAt 6 0x99 = false ∧ opAt 6 0x03 = false ∧
    after (.getVersion (.mailbox 6)) (mbState 6 0x02 [] [(Reg.htxMbState 6, 1)]) (fun t => t.fld (Reg.htxMbIgnored 6) == 1) = true ∧
    after (.jobStart (.mailbox 6)) { mbState 6 0x31 [] with mbox := { State.reset.mbox with running := some 0 } } (fun t => t.mbox.waiting == [6] && t.fld (Reg.htxMbState 6) == 1) = true ∧
    after (.mailboxGoUnassigned 6 .window0) (mbState 6 0x99 []) (mbShows 6 .descriptorFault []) = true := by decide +kernel
/-- Every mailbox opcode with a request that reaches its row. -/
theorem witness_rows :
    (∀ e ∈ [(0x01, 0), (0x02, 0), (0x10, 4), (0x11, 0), (0x20, 12), (0x21, 4), (0x30, 12), (0x31, 0), (0x32, 4), (0x33, 0), (0x34, 0), (0x35, 4), (0x40, 24), (0x41, 0), (0x50, 0), (0x51, 4)],
      (mbState 6 e.1 []).mbFault 6 e.1 e.2 = none) ∧
    (mbState 0 3 [] [(Reg.rgsFwState, 0), (Reg.pwrBootStage, 6)]).mbFault 0 3 12 = none ∧
    (∀ e ∈ [(0x50, 0), (0xF00, 0), (0xF01, 48), (0xF02, 0), (0xF03, 8), (0xF04, 4), (0xF05, 0), (0xF06, 0), (0xF07, 0)], (mbState 7 e.1 []).mbFault 7 e.1 e.2 = none) := by
  decide +kernel
theorem witness_mailbox_rows :
    after (.jobStatus (.mailbox 6)) (mbState 6 0x34 []) (fun t => t.fld (Reg.htxMbState 6) == 2) = true ∧
    after (.ownClaim (.mailbox 6)) (mbState 6 0x10 [1, 0, 0, 0] [(Reg.htxOwned, 0)]) (fun t => mbShows 6 .ok [0x41, 0, 0, 0] t && t.fld (Reg.htxMbBound 0) == 1) = true ∧
    after (.ownClaim (.mailbox 6)) (mbState 6 0x10 [1, 0, 0, 0]) (mbShows 6 .ownerFault []) = true ∧
    after (.ownRelease (.mailbox 6)) (mbState 6 0x11 []) (fun t => t.fld Reg.htxOwned == 0 && t.fld (Reg.htxMbBound 6) == 0) = true ∧
    after (.loadFirmware (.mailbox 0)) (mbState 0 3 (List.replicate 12 0) [(Reg.rgsFwState, 0), (Reg.pwrBootStage, 6)]) (mbShows 0 .ok []) = true ∧
    after (.repairApply (.mailbox 6)) (mbState 6 0x20 (leBytes 8 0 ++ leBytes 4 17)) (mbShows 6 .descriptorFault []) = true ∧
    after (.repairApply (.mailbox 6)) (mbState 6 0x20 (List.replicate 12 0) [(Reg.rgsJobState, 1)]) (mbShows 6 .sequenceFault []) = true ∧
    after (.repairRead (.mailbox 6)) (mbState 6 0x21 [0, 0, 0, 0]) (mbShows 6 .ok (List.replicate 16 0)) = true := by decide +kernel
/-- A Ledger query about command 7 of stream 5 of this package. -/
def query (kind pkg : Nat) : List Byte := leBytes 4 kind ++ leBytes 2 pkg ++ leBytes 2 0 ++ leBytes 2 0 ++ leBytes 2 5 ++ leBytes 4 0 ++ leBytes 8 7
theorem witness_ledger :
    let s := mbState 6 0x40 (query 0 0xFFFF) [(Reg.strmAccNextLo 5, 8)]
    let e : Ev := ⟨1, 1, .stream 5, 7, .timeout, 0, false, false, .fin false 0 none⟩
    let d : State := { s with ledger := { s.ledger with events := [e, { e with seq := 0, status := .ok, body := .start .store }] } }
    (query 0 0xFFFF).length = 24 ∧ s.nextAcc 0 5 = some 8 ∧ (mbState 6 0x40 (query 0 0xFFFF)).nextAcc 0 5 = some 1 ∧ s.stillHeld (.stream 5) 7 = false ∧
    (withHeld 5 [cmdOf 7 []] s).stillHeld (.stream 5) 7 = true ∧ s.ledger.events.length + 2 ≤ 1048576 ∧ s.me ≠ 1 ∧ s.reachable 1 = false ∧
    (mbState 6 0x40 (query 0 1) [(Reg.chnReach 0, 2)]).reachable 1 = true ∧ s.commitAnswer 5 7 = none ∧
    after (.ledgerQueryCommand (.mailbox 6)) s (fun t => (t.ctlBytes (mbBase 6 + 0x40) 4).take 2 == [3, 0]) = true ∧
    after (.ledgerQueryCommand (.mailbox 6)) d (fun t => (t.ctlBytes (mbBase 6 + 0x40) 4) == leBytes 2 1 ++ leBytes 2 (statusCode .timeout)) = true ∧
    after (.ledgerQueryCommand (.mailbox 6)) (mbState 6 0x40 (query 0 0xFFFF)) (mbShows 6 .descriptorFault []) = true ∧
    after (.ledgerQueryCommand (.mailbox 6)) (mbState 6 0x40 (query 0 1)) (mbShows 6 .ok unknownReply) = true ∧
    after (.ledgerQueryCommand (.mailbox 6)) (mbState 6 0x40 (query 0 1) [(Reg.chnReach 0, 2)]) (fun t => t.sent == [.ledgerFwd 1 (query 0 1)] && t.mbox.fwd == [6]) = true ∧
    after (.ledgerFwdTimeout 6) { mbState 6 0x40 (query 0 1) with mbox := { State.reset.mbox with fwd := [6] } } (mbShows 6 .ok unknownReply) = true ∧
    after (.ledgerFwdReply 6 [1, 2]) { mbState 6 0x40 (query 0 1) with mbox := { State.reset.mbox with fwd := [6] } } (mbShows 6 .ok [1, 2]) = true ∧
    after (.ledgerFwdReply 6 []) { mbState 6 0x40 (query 0 1) with mbox := { State.reset.mbox with fwd := [6] } } (mbShows 6 .descriptorFault []) = true ∧
    after (.ledgerFwdReply 6 [1]) { s with mbox := { s.mbox with past := [6, 2] } } (fun t => t.mbox.past == [2] && t.mbox.late == 1 &&
      (t.ledger.events.map (·.body)) == [.lateReply 6 1]) = true ∧
    after (.ledgerFwdReply 6 [1]) s (· == s) = true := by
  and_intros <;> first | rfl | decide +kernel
/-- 02 R39: a query that names a stream that does not exist, whichever package it is of. -/
theorem test_ledger_nowhere :
    let q := leBytes 4 0 ++ leBytes 2 1 ++ leBytes 2 0 ++ leBytes 2 0 ++ leBytes 2 1088 ++ leBytes 4 0 ++ leBytes 8 7
    (mbState 6 0x40 q).nextAcc 0 1088 = none ∧ (mbState 6 0x40 q).nextAcc 0 1087 = some 1 ∧
    after (.ledgerQueryCommand (.mailbox 6)) (mbState 6 0x40 q [(Reg.chnReach 0, 2)]) (mbShows 6 .descriptorFault []) = true ∧
    after (.ledgerFwdQuery 1 q) (mbState 6 0 []) (fun t => t.sent == [.ledgerFwd 1 []]) = true := by
  and_intros <;> first | rfl | decide +kernel
theorem witness_ledger_kinds :
    (∀ k ∈ [1, 2, 3], numAt (query k 0xFFFF) 0 4 = k) ∧ (mbState 6 0x40 (query 1 0xFFFF)).mbReq 6 = query 1 0xFFFF ∧
    after (.ledgerQueryCommit (.mailbox 6)) (mbState 6 0x40 (query 2 0xFFFF)) (mbShows 6 .ok unknownReply) = true ∧
    after (.ledgerQueryRemote (.mailbox 6)) (mbState 6 0x40 (query 1 0xFFFF)) (fun t => t.fld (Reg.htxMbState 6) == 2) = true ∧
    after (.ledgerFwdQuery 1 (query 2 0)) (mbState 6 0 []) (fun t => t.sent == [.ledgerFwd 1 unknownReply]) = true := by decide +kernel

/-- A debug token for a package of zero serial, its nonce 5. -/
def tokenReq : List Byte := leBytes 8 1 ++ List.replicate 256 0
theorem witness_debug_unlock :
    let s := mbState 6 0x51 tokenReq
    s.mbReq 6 = tokenReq ∧ tokenReq.length = 264 ∧ s.mbFault 6 0x51 264 = none ∧ numAt tokenReq 0 4 = 1 ∧ s.sec.nonce = none ∧ s.fld Reg.rgsJobState = 0 ∧
    after (.debugUnlockSubmit (.mailbox 6)) s (mbShows 6 .sequenceFault []) = true ∧
    after (.debugUnlockSubmit (.mailbox 6)) { s with ctl := nset s.ctl 0x10 1, sec := { s.sec with nonce := some 5 } } (fun t => mbShows 6 .authFault [] t && t.sec.nonce == none) = true ∧
    after (.debugUnlockSubmit (.mailbox 6)) (mbState 6 0x51 [1, 0, 0, 0]) (mbShows 6 .descriptorFault []) = true ∧
    after (.debugUnlockCancel (.mailbox 6)) (mbState 6 0x51 [2, 0, 0, 0] [(Reg.secDebugPending, 1)]) (fun t => mbShows 6 .ok [] t && t.fld Reg.secDebugPending == 0) = true := by
  decide +kernel
/-- An SPDM request on mailbox 6 whose connection has come to a phase. -/
def spdmState (req : List Byte) (phase : Nat) (stale : Bool := false) : State :=
  let s := mbState 6 0x50 req
  { s with sec := { s.sec with spdm := [(6, ⟨phase, stale⟩)] } }
theorem witness_spdm :
    (spdmState [0x13, 0xE3, 0, 0] 2).spdm 6 = ⟨2, false⟩ ∧ (spdmState [0x13, 0xE3, 0, 0] 3 true).spdm 6 = ⟨3, true⟩ ∧ (mbState 6 0x50 []).spdm 6 = ⟨0, false⟩ ∧
    (mbState 6 0x50 [0x10, 0x84, 0, 0]).mbFault 6 0x50 4 = none ∧ spdmCodes.any (fun c => spdmIs c [0x13, 0x85, 0, 0]) = false ∧
    after (.spdmGetVersion (.mailbox 6)) (spdmState [0x10, 0x84, 0, 0] 0) (fun t => mbShows 6 .ok [0x10, 0x04, 0, 0, 0, 1, 0x00, 0x13] t && t.spdm 6 == ⟨1, false⟩) = true ∧
    after (.spdmGetCapabilities (.mailbox 6)) (spdmState [0x13, 0xE1, 0, 0] 0) (mbShows 6 .ok [0x13, 0x7F, 0x04, 0]) = true ∧
    after (.spdmGetDigests (.mailbox 6)) (spdmState [0x13, 0x81, 0, 0] 3 true) (mbShows 6 .ok [0x13, 0x7F, 0x43, 0]) = true ∧
    after (.spdmNegotiateAlgorithms (.mailbox 6)) (spdmState ([0x13, 0xE3, 0, 0, 0, 0, 0, 0, 0x80, 0, 0, 0, 2, 0, 0, 0]) 2) (fun t => t.spdm 6 == ⟨3, false⟩ && t.fld (Reg.htxMbReplyLen 6) == 36) = true ∧
    after (.spdmGetCertificate (.mailbox 6)) (spdmState [0x13, 0x82, 1, 0] 3) (mbShows 6 .ok [0x13, 0x7F, 0x01, 0]) = true ∧
    after (.spdmUnsupported (.mailbox 6)) (spdmState [0x13, 0x85, 0, 0] 3) (mbShows 6 .ok [0x13, 0x7F, 0x07, 0]) = true ∧
    after (.spdmUnsupported (.i3c 1 [0x13])) (mbState 6 0 []) (fun t => t.sent == [.i3c [0x13, 0x7F, 0x01, 0]]) = true := by decide +kernel
theorem witness_custodian :
    let s := mbState 7 0xF06 []
    s.mbFault 7 0xF06 0 = none ∧ s.pow.mainUp = true ∧ s.boot + 1 < 2 ^ 32 ∧ Memory.wf s.mem ∧ s.ledger.tail.length ≤ 4096 ∧ numAt [1, 0, 0, 0] 0 4 % 2 = 1 ∧
    (s.cache.all fun e => e.2.dirty == false) = true ∧
    after (.custInjectOff (.mailbox 7)) s (fun t => mbShows 7 .ok [] t && t.fld Reg.csvInjLock == 1) = true ∧
    after (.custReset (.i3c 1 [0, 0, 0, 0])) (withMem 0 [1] s) (fun t => t.fld Reg.pwrResetCause == 3 && t.mem.isEmpty && t.fld Reg.pwrBootStage == 1) = true ∧
    after (.custResetKeepHbm (.mailbox 7)) (withMem 0 [1] (mbState 7 0xF04 [1, 0, 0, 0])) (fun t => mbShows 7 .ok [] t && t.fld Reg.pwrHbmKept == 1 && byteAt t.mem 0 == 1) = true ∧
    after (.custPowerDown (.mailbox 7) true) (mbState 7 0xF05 []) (fun t => mbShows 7 .ok [1] t && t.pow.off && t.held) = true := by decide +kernel
theorem witness_custodian_events :
    let s := mbState 7 0 []
    after (.i3cEntdaa 9) s (fun t => t.pow.i3c == some 9) = true ∧ after .i3cRequestDiscard s (fun t => bit (t.fld Reg.cstAlertCause) 3 && t.fld Reg.cstI3cDropped == 1) = true ∧
    after .heartbeatStall s (fun t => t.pow.stalled && t.lands[3]? == some false) = true ∧ s.fwRunning = true ∧ bit (s.fld Reg.rgsCores) 3 = true ∧ s.sec.halted = [] ∧
    after .heartbeatAdvance s (fun t => t.fld Reg.rgsHeartbeat == 1) = true ∧ exec .heartbeatAdvance State.reset = .next State.reset := by
  and_intros <;> first | rfl | decide +kernel
/-- FIPS 180-4: the digest of "abc". -/
theorem test_sha384 : (sha384 [0x61, 0x62, 0x63]).take 8 = [0xCB, 0x00, 0x75, 0x3F, 0x45, 0xA3, 0x5E, 0x8B] := by decide +kernel

/-! The job and its steps (11, 13). -/

/-- A loaded job of no group: its record at 0x1000. -/
def jobMem (bad : Nat) : State := withMem 0x1000 (recOf 64 [(0, 5), (4, 3), (6, 7), (16, bad)]) (mbState 6 0x30 (leBytes 8 0x1000 ++ leBytes 4 64))
/-- The step loop in a phase. -/
def jobState (st : Nat) (f : JobX → JobX) : State :=
  let s := mbState 6 0x31 [] [(Reg.rgsJobState, st)]
  { s with job := f { s.job with hdr := List.replicate 16 0 } }
theorem witness_job_load :
    let s := jobMem 0
    s.mbFault 6 0x30 12 = none ∧ s.atVault 0x1000 64 = true ∧ (s.readHurt 0x1000 64).isNone = true ∧ s.fld Reg.rgsJobState = 0 ∧
    after (.jobLoad (.mailbox 6)) (mbState 6 0x30 (leBytes 8 0x1001 ++ leBytes 4 64)) (mbShows 6 .addressFault []) = true ∧
    after (.jobLoad (.mailbox 6)) (mbState 6 0x30 (leBytes 8 0x1000 ++ leBytes 4 63)) (mbShows 6 .sizeFault []) = true ∧
    after (.jobLoad (.mailbox 6)) { s with hurt := [(0x1000, ⟨true, false⟩)] } (mbShows 6 .memoryFault []) = true ∧
    (jobState 1 id).fld Reg.rgsJobState = 1 ∧ (jobState 4 id).fld Reg.rgsJobState = 4 ∧
    after (.jobStart (.mailbox 6)) (jobState 4 id) (fun t => mbShows 6 .ok [] t && t.fld Reg.rgsJobState == 2 && t.job.phase == .ready) = true ∧
    after (.jobStart (.mailbox 6)) (jobState 2 id) (mbShows 6 .sequenceFault []) = true ∧
    after (.setEpoch (.mailbox 6)) { mbState 6 0x35 [9, 0, 0, 0] [(Reg.rgsJobState, 1)] with free := 0 } (fun t => mbShows 6 .ok [] t && t.fld (Reg.btrEpoch 7) == 9) = true := by
  decide +kernel
theorem witness_streams_at_rest : ∀ s : State, s = jobState 3 (fun j => { j with phase := .restoring, stopping := some true }) →
    s.mbox.waiting = [] ∧ s.job.phase = .restoring ∧ s.noneInFlight = true ∧ s.job.stopping = some true ∧ ∀ sid ∈ s.job.streams, s.strmStateOf sid ≤ 1 := by
  rintro s rfl
  refine ⟨rfl, rfl, rfl, rfl, fun sid h => ?_⟩
  have all : ((List.range 1088).all fun sid => decide ((jobState 3 fun j => { j with phase := .restoring, stopping := some true }).strmStateOf sid ≤ 1)) = true := by
    decide +kernel
  simp only [JobX.streams, List.mem_eraseDups, List.mem_filter, decide_eq_true_eq] at h
  exact of_decide_eq_true (List.all_eq_true.mp all sid (List.mem_range.mpr h.2))
/-- A COMMIT of the job that has ended, on stream 1040. -/
def ended (st : Status) (attempt : Nat) (more : List Ev) : State :=
  let s := jobState 2 fun j => { j with phase := .waiting 7 9, attempt := attempt }
  { s with ledger := { s.ledger with events := ⟨1, 1, .stream 1040, 7, st, 0, false, false, .fin false 0 none⟩ :: more } }
theorem witness_steps :
    (jobState 2 fun j => { j with phase := .ready, attempt := 1 }).job.limit = 1 ∧ (ended .ok 1 []).job.commitStream = 1040 ∧
    (ended .unknown 1 []).commitAnswer 0 9 = none ∧ ((ended .unknown 1 [⟨0, 1, .stream 1040, 7, .ok, 0, false, false, .commit 0 9 true 5⟩]).commitAnswer 0 9).isSome = true ∧
    after .stepAttempt (jobState 2 fun j => { j with phase := .ready, attempt := 1 }) (fun t => t.fld Reg.rgsJobState == 4 && t.job.phase == .idle && bit (t.fld Reg.rgsEvents) 0) = true ∧
    after .stepAttempt (ended .ok 1 []) (fun t => t.job.phase == .boundary && t.job.steps == 1) = true ∧
    after .stepAttempt (ended .unknown 1 []) (fun t => t.fld Reg.rgsJobState == 4) = true ∧
    after .stepAttempt (ended .unknown 1 [⟨0, 1, .stream 1040, 7, .ok, 0, false, false, .commit 0 9 true 5⟩]) (fun t => t.fld (Reg.btrEpoch 7) == 1 && t.job.phase == .boundary) = true ∧
    after .stepAttempt (ended .stepDiscarded 1 []) (fun t => t.fld Reg.rgsJobState == 4) = true ∧
    (ended .stepDiscarded 0 []).job.attempt < (ended .stepDiscarded 0 []).job.limit := by decide +kernel
/-- The loop asks member 1 for COMMIT 9's decision, and no member after it. -/
def askingState : State := { jobState 2 fun j => { j with phase := .asking 9 [1], attempt := 1 } with ctl := nset State.reset.ctl (Reg.chnReach 0).off 2 }
theorem witness_asking :
    askingState.job.phase = .asking 9 [1] ∧ [1].filter askingState.reachable = [1] ∧ [1].filter State.reset.reachable = [] ∧ numAt [6, 0] 0 2 = 6 ∧ numAt [7, 0] 0 2 = 7 ∧
    after (.ledgerFwdReply 8 [6, 0]) askingState (fun t => t.fld (Reg.btrEpoch 7) == 1 && t.job.phase == .boundary && t.job.steps == 1) = true ∧
    after (.ledgerFwdReply 8 [7, 0]) askingState (fun t => t.job.phase == .idle && t.fld Reg.rgsJobState == 4) = true ∧
    after (.ledgerFwdReply 8 [3, 0]) askingState (fun t => t.job.phase == .asking 9 [] && t.sent == [.ledgerFwd 1 (commitRequest 1 0 9)]) = true ∧
    after (.ledgerFwdTimeout 8) (jobState 2 fun j => { j with phase := .asking 9 [] }) (fun t => t.job.phase == .idle) = true := by decide +kernel
theorem witness_release :
    let w := jobState 2 fun j => { j with hdr := (List.replicate 16 0).set 13 1, phase := .waiting 7 9 }
    let r := jobState 2 fun j => { j with phase := .waiting 7 9, releasing := true }
    w.job.hdr.getD 13 0 ≠ 0 ∧ r.job.releasing = true ∧ r.noneInFlight = true ∧ w.outOfService (hfld w.job.hdr 12 0 8) = false ∧ hfld w.job.hdr 12 8 6 < 48 ∧
    after .stepTimeout { w with ctl := nset w.ctl Reg.colStepOk.off 1 } (fun t => t.fld Reg.colStepOk == 0 && (t.flagAt 0 0).val == 1) = true ∧
    after .commitRelease r (fun t => !t.job.releasing && (t.flagAt 0 0).val == 1) = true := by decide +kernel
theorem witness_boundary :
    let b := jobState 2 fun j => { j with phase := .boundary, steps := 3 }
    let last := jobState 2 fun j => { j with hdr := (List.replicate 16 0).set 5 3, phase := .boundary, steps := 3 }
    b.job.phase = .boundary ∧ b.job.stopping = none ∧ b.job.hdr.getD 5 0 = 0 ∧ last.job.hdr.getD 5 0 = 3 ∧ b.mbox.waiting = [] ∧
    b.isDueEvery 0 = false ∧ (jobState 2 fun j => { j with phase := .asking 9 [1] }).job.phase = .asking 9 [1] := by decide +kernel
/-- Under an epoch that is no multiple of BTR_WM_PERIOD no comparison is due (08 R255), whatever the block tables are. -/
theorem witness_no_comparison :
    let s := withRegs [(Reg.btrEpoch 0, 1)]
    s.dueTables = [] ∧ s.ready [] = true := by
  have all : ∀ k < 8, (withRegs [(Reg.btrEpoch 0, 1)]).isDueEvery ((withRegs [(Reg.btrEpoch 0, 1)]).fld (Reg.btrWmPeriod k)) = false := by decide +kernel
  refine ⟨List.filter_eq_nil_iff.mpr fun t _ => ?_, rfl⟩
  simp only [Bool.and_eq_true, decide_eq_true_eq, not_and, Bool.not_eq_true]
  exact all _
/-- One block table of one block on Beater 7, its comparison due every step, where the job has that table alone. -/
def markTable : Config.BlockTable := ⟨7, 0x08000000000, 1, false⟩
def markState : State :=
  let s := blockMem [] (withRegs [(Reg.btrWmPeriod 7, 1), (Reg.vltScratchGib 0, 1), (Reg.vltPageAttr 0 0, 1)])
  { s with job := { s.job with phase := .boundary } }
theorem witness_comparison (h : Config.blockTables markState.job.table = [markTable]) :
    let s := markState
    let d := digestWords 0 false
    let es := (entriesOf markTable).map s.bEntry
    let own := es.map (leafDigest s 7 d)
    s.dueTables = [markTable] ∧ s.ready (s.dueTables.flatMap s.wmExts) = true ∧ (es.all fun x => (s.digestHurt 7 d x).isNone) = true ∧
    differing (s.fld (Reg.btrWmKeyLo 7) + 2 ^ 32 * s.fld (Reg.btrWmKeyHi 7)) 1 [own, [own.getD 0 0 + 1]] = [0] ∧
    ((s.bEntry markTable.addr).committed (s.fld (Reg.btrEpoch 7))).isSome = true := by
  have due : markState.dueTables = [markTable] := by
    simp only [State.dueTables, h]
    decide +kernel
  exact ⟨due, by rw [due]; decide +kernel, by decide +kernel, by decide +kernel, by decide +kernel⟩
/-- A record of one group, COMMIT's: this package alone, which groups and pools allow. -/
def soundJob : State :=
  withMem 0x1000 (recOf 96 [(0, 5 + 2 ^ 16), (1, 0x2001), (2, 0x2001), (3, 1), (16, 63), (17, 0x421000), (18, 0x111)])
    (mbState 6 0x30 (leBytes 8 0x1000 ++ leBytes 4 96) [(Reg.chnReach 0, 1), (Reg.vatCells 3, 1000)])
theorem witness_job_completes :
    let s := soundJob
    let h := s.words 0x1000 16
    let es := [s.groupEnt 0x1000 0]
    let u := run (seq (writeDef (es.getD 0 ⟨0, 0, [], 0, 0⟩)) (groupCreateProg 63)) (s.loading (.mailbox 6))
    s.mbFault 6 0x30 12 = none ∧ s.atVault 0x1000 96 = true ∧ (s.readHurt 0x1000 96).isNone = true ∧ hfld h 0 16 7 = 1 ∧ es.map (·.group) = [63] ∧
    recordBad h es (((es.find? (·.role == 0)).map (·.box)).getD 0) = false ∧ u.fld (Reg.colGrpState 63) = 2 ∧ es.all (u.roleOk h 63) = true := by
  decide +kernel

/-! Errors, injection and spares (16). -/

theorem witness_errors :
    let s := State.reset
    s.pointArmed 0x04 0 0 = false ∧ s.mbox.waiting = [] ∧ s.mbox.running = none ∧ s.mbox.fwd = [] ∧ Memory.wf s.mem ∧ coreOfAddr 0x0903FFFFFC0 = some 255 ∧
    s.atVault 0x1000 1 = true ∧ s.atVault 0x0B000000000 1 = false ∧ ({ s with cores := [(255, { s.core 255 with lsErrors := 2 })] } : State).core 255 = { s.core 255 with lsErrors := 2 } ∧
    after (.uncorrectableError 0x01 0 255 0x0903FFFFFC0) { s with cores := [(255, { s.core 255 with lsErrors := 2 })] }
      (fun t => bit (t.fld (Reg.csvPending 7)) 31 && ((nget t.hurt 0x0903FFFFFC0).map (·.damaged)) == some true) = true ∧
    after (.uncorrectableError 0x06 1 63 0x1000) s (fun t => t.cons.due == [(0x06, 1, 63)] && ((nget t.hurt 0x1000).map (·.damaged)) == some true) = true ∧
    after (.uncorrectableError 0x04 0 0 1087) (withIssued 1087 [cmdOf 7 [hdr 2 0]]) (isEnd (.stream 1087) 7 .unitFault) = true ∧
    after (.uncorrectableError 0x0F 0 0 5) s (fun t => t.pow.memFault) = true := by decide +kernel
/-- Three held commands of one stream: an error of the array reaches the first two it serves at most. -/
theorem witness_array_victims :
    let c := fun (n : Nat) => cmdOf n [hdr 2 1, (10, 0xFFFFFF)]
    let s := withIssued 1020 [c 1, c 2, c 3]
    (255 * 32 + 23) / 32 < 256 ∧ (255 * 32 + 23) % 32 < 24 ∧ (s.strm 1020).issued.length = 3 ∧ c 3 ∈ (s.strm 1020).issued ∧
    (((s.arrayQueue 255 23).take 2).all fun x => x.1 == 1020 && x.2.acc != 3) = true := by decide +kernel
theorem witness_injection :
    let s := withRegs [(Reg.csvInjTarget, 1), (Reg.csvInjUnit, 255), (Reg.csvInjCount, 2)]
    s.fld Reg.csvInjLock = 0 ∧ s.injectable 1 255 0 = true ∧ s.injectable 1 256 0 = false ∧
    after .csvInjArm s (fun t => t.cons.armed == [⟨1, 255, 0, 0, 2⟩]) = true ∧ after .csvInjArm (withRegs [(Reg.csvInjLock, 1)] s) (fun t => t.cons.armed == []) = true := by decide +kernel
theorem witness_replacement :
    let s := withRegs [(Reg.csvPending 7, 2 ^ 31)]
    bit (s.fld (Reg.csvPending 7)) 31 = true ∧ (sidsOfCore 255).all (fun sid => s.strmStateOf sid == 0 || s.strmStateOf sid == 4) = true ∧ s.issuedOf 255 isArrayClass = 0 ∧
    (({ s with cores := [(255, { s.core 255 with replacing := some 1 })] } : State).core 255).replacing = some 1 ∧ (s.core 255).replacing = none ∧
    after (.csvReplaceGo 254) s (fun t => t.fld Reg.csvReplaceStatus == statusCode .sequenceFault) = true := by decide +kernel
/-- No spare is left on CD1, whatever the factory left out. -/
theorem witness_no_spare : ({ State.reset with
    cores := (List.range 8).map fun k => (128 + k, { State.reset.core 0 with phys := some (128 + k) }) } : State).freeSpares 1 = [] := by
  have gone : ((List.range 8).all fun k => ((List.range 8).map fun k => (128 + k, { State.reset.core 0 with phys := some (128 + k) })).any
      fun e => decide (e.1 / 128 = 1) && e.2.phys == some (128 + k)) = true := by decide +kernel
  simp only [State.freeSpares, List.map_eq_nil_iff, List.filter_eq_nil_iff]
  intro k hk
  simp only [List.all_eq_true.mp gone k hk, Bool.not_true, Bool.and_false, Bool.false_eq_true, not_false_eq_true]
theorem witness_spares :
    let s := State.reset
    let due : State := { s with cons := { s.cons with due := [(0x06, 1, 63), (0x07, 7, 0), (0x0C, 7, 63)] } }
    let one : State := { s with cons := { s.cons with modules := [(3, 0), (3, 1), (3, 2)] } }
    moduleOf 1 40 = none ∧ moduleOf 3 3 = some (3, 3) ∧ (3, 3) ∉ s.cons.modules ∧ ((((3, 3) :: one.cons.modules).filter fun y => y.1 == 3).length = linkModules 3) ∧ due.isDue 0x06 1 63 = true ∧ due.isDue 0x07 7 0 = true ∧
    due.isDue 0x0C 7 63 = true ∧ s.cons.banks = [] ∧
    after (.ucieModuleRemove 3 3) s (fun t => t.cons.modules == [(3, 3)] && t.pow == s.pow) = true ∧
    after (.vaultBankSpare 1 63 255) due (fun t => t.cons.banks == [(1, 63, 255)] && t.cons.due == [(0x07, 7, 0), (0x0C, 7, 63)]) = true ∧
    (rowPlace 0x1FFF).1 = 63 ∧ (rowPlace 0x3FFFF).1 = 1 ∧
    after (.hbmRowRepair 7 0x1FFF 3) due (fun t => t.cons.due == [(0x06, 1, 63), (0x0C, 7, 63)] && t.cons.repairs.map (fun r => (r.die, r.stack, r.unit, r.spare)) == [(1, 7, 63, 3)]) = true ∧
    after (.hbmRowRepair 7 0 3) s (fun t => t.cons.repairs == []) = true ∧
    after (.beaterLaneSpare 7 63) { due with ctl := [((Reg.btrSpares 7).off, putBits 0 (Reg.btrSpares 7).lo (Reg.btrSpares 7).w 4)] }
      (fun t => t.fld (Reg.btrSpares 7) == 3 && ((t.cons.repairs.head?.map (·.spare)) == some 64)) = true := by decide +kernel
theorem witness_control_core :
    let s : State := { State.reset with ctl := [(Reg.rgsCores.off, putBits 0 Reg.rgsCores.lo Reg.rgsCores.w 7)] }
    s.fld Reg.rgsSpareUsed = 0 ∧ bit (s.fld Reg.rgsCores) 2 = true ∧
    after (.controlCoreSpare 2) s (fun t => t.fld Reg.rgsCores == 11 && t.fld Reg.rgsSpareUsed == 1) = true ∧
    after (.controlCoreSpare 1) (withRegs [(Reg.rgsSpareUsed, 1)] s) (fun t => t.fld Reg.rgsCores == 5) = true := by decide +kernel
end Sys2Proof.Machine
end

section
/-! PROOF. The invariant (00 R10, 16 R446, R449): reset holds it, every elementary effect keeps it, so every step keeps it; under it no
word reads a bit outside the fields its register table gives it. -/

namespace Sys2Proof.Machine

/-! The invariant, effect by effect. -/

theorem stateInv_reset : StateInv State.reset where
  ctl    := .nil
  words  := fun _ he => nomatch he
  mem    := ⟨.nil, fun _ hc => nomatch hc⟩
  host   := ⟨.nil, fun _ hc => nomatch hc⟩
  flags  := .nil
  strms  := .nil
  cores  := .nil
  bars   := .nil
  cache  := .nil
  dir    := .nil
  vaults := .nil
  slices := .nil
  hurt   := .nil
  stages := .nil
  orders := .nil
  ports  := .nil
  sqs    := .nil
  ring   := Nat.zero_le _
  tail   := Nat.zero_le _
  dense  := dense_reset
  taint  := fun _ hc => nomatch hc

/-- A cold power-up keeps of the state only what the invariant does not speak of: the queue, the outputs and the counter of free values. -/
theorem stateInv_cold (s : State) : StateInv s.cold := { stateInv_reset with }

/-- A power-up keeps part of the registers, of HBM and of its damage, and the Custodian's copy of the Ledger (14 R407, R408); all else is
as at reset. -/
theorem stateInv_restart {s : State} (hs : StateInv s) (keepHbm : Bool) : StateInv (s.restart keepHbm) :=
  have hmem : Memory.wf (s.restart keepHbm).mem := by
    cases keepHbm
    · exact stateInv_reset.mem
    · exact wf_keptHbm hs.mem
  have hhurt : NMap.Rising (s.restart keepHbm).hurt := by
    cases keepHbm
    · exact stateInv_reset.hurt
    · exact rising_filter hs.hurt _
  { stateInv_reset with
    ctl := rising_filter hs.ctl _
    words := fun e he => hs.words e (List.mem_filter.mp he).1
    mem := hmem
    hurt := hhurt
    tail := hs.tail }

/-- An event takes the next number and pushes the oldest out of a full ring (16 R446). -/
theorem stateInv_log {s : State} (hs : StateInv s) (e : Ev) : StateInv ((Eff.log e).apply s) :=
  { hs with
    ring := ring_push s.ledger e
    tail := tail_push s.ledger e
    dense := dense_push hs.dense e
    taint := live_push hs.taint e }

/-- A command marked TAINTED is recorded and followed at once (16 R449). -/
theorem stateInv_mark {s : State} (hs : StateInv s) (c : Src × Nat) : StateInv ((Eff.mark c).apply s) :=
  have htaint : ∀ x ∈ c :: s.ledger.live, x ∈ c :: s.ledger.taint := List.cons_subset_cons c hs.taint
  { hs with dense := hs.dense, taint := htaint }

/-- Every effect keeps the invariant: the part it changes keeps its form, and the others are as they were. -/
theorem stateInv_apply (e : Eff) (s : State) (hs : StateInv s) : StateInv (e.apply s) := by
  cases e with
  | reg off v => exact { hs with ctl := rising_nset hs.ctl _ _, words := words_nset hs.words off v }
  | regReset off => exact { hs with ctl := rising_ndel hs.ctl _, words := words_ndel hs.words off }
  | memB a b => exact { hs with mem := wf_setByte hs.mem a b }
  | hostB a b => exact { hs with host := wf_setByte hs.host a b }
  | flag k x => exact { hs with flags := rising_nset hs.flags k x }
  | strm k x => exact { hs with strms := rising_nset hs.strms k x }
  | core k x => exact { hs with cores := rising_nset hs.cores k x }
  | bar k x => exact { hs with bars := rising_nset hs.bars k x }
  | line k x => exact { hs with cache := rising_nput hs.cache k x }
  | dir k x => exact { hs with dir := rising_nput hs.dir k x }
  | vault k x => exact { hs with vaults := rising_nset hs.vaults k x }
  | slice k x => exact { hs with slices := rising_nset hs.slices k x }
  | hurt k x => exact { hs with hurt := rising_nput hs.hurt k x }
  | stage k x => exact { hs with stages := rising_nset hs.stages k x }
  | order k x => exact { hs with orders := rising_nput hs.orders k x }
  | port k x => exact { hs with ports := rising_nset hs.ports k x }
  | sq k x => exact { hs with sqs := rising_nset hs.sqs k x }
  | restart keepHbm => exact stateInv_restart hs keepHbm
  | cold => exact stateInv_cold s
  | log ev => exact stateInv_log hs ev
  | mark c => exact stateInv_mark hs c
  | cons _ | fab _ | job _ | mbox _ | sec _ | pow _ | clk _ | send _ | draw => exact { hs with }

/-! The invariant, step by step. -/

theorem stateInv_popped {s : State} (hs : StateInv s) (rest : List Instr) : StateInv (s.popped rest) := { hs with }

theorem stateInv_exec {i : Instr} {s t : State} (hs : StateInv s) (h : exec i s = .next t) : StateInv t :=
  exec_keeps stateInv_apply h hs

theorem stateInv_step {s t : State} (hs : StateInv s) (h : step s = .next t) : StateInv t := by
  unfold step at h
  split at h
  · cases h; exact hs
  · exact stateInv_exec (stateInv_popped hs _) h

/-! Reserved bits. -/

theorem mem_of_nget {α : Type} {m : NMap α} {k : Nat} {v : α} (h : nget m k = some v) : (k, v) ∈ m := by
  induction m with
  | nil => cases h
  | cons e r ih =>
    unfold nget at h
    split at h
    case isTrue hk => cases h; subst hk; exact List.mem_cons_self ..
    case isFalse => exact List.mem_cons_of_mem _ (ih h)

/-- A word inside a mask has no bit outside it. -/
theorem and_not_mask {v m : Word} (h : v &&& m = v) : v &&& ~~~m = 0 := by
  rw [← h, BitVec.and_assoc, BitVec.and_not_self]
  exact BitVec.and_zero

/-- Under the invariant a word, listed or at its reset value, holds only bits its table gives it (00 R10). -/
theorem word_masked {s : State} (hs : StateInv s) (o : Nat) : s.word o &&& wordMask o = s.word o := by
  unfold State.word
  cases h : nget s.ctl o with
  | none => exact resetWord_masked o
  | some v => exact hs.words _ (mem_of_nget h)

theorem word_reserved_zero {s : State} (hs : StateInv s) (o : Nat) : s.word o &&& ~~~ wordMask o = 0 := and_not_mask (word_masked hs o)

theorem word_reg_same (s : State) (off : Nat) (v : Word) : ((Eff.reg off v).apply s).word off = v &&& wordMask off := by
  rw [word_reg, if_pos rfl]

/-! The statements of the scope (chapter 00). -/

/-- Settles O5: every map and every list is empty at reset. -/
theorem resetHoldsTheInvariant : Obligations.ResetHoldsTheInvariant := stateInv_reset

/-- Settles O6: a step runs a program of elementary effects on the state without the front of its queue, and each effect keeps the
invariant. -/
theorem everyStepKeepsTheInvariant : Obligations.EveryStepKeepsTheInvariant := fun _ _ hs h => stateInv_step hs h

/-- Settles O7: the words clause of the invariant and the masked reset values leave no bit outside a word's mask, and a write masks its
value. -/
theorem reservedRegisterBitsReadZero : Obligations.ReservedRegisterBitsReadZero :=
  ⟨fun _ _ hs h o => word_reserved_zero (stateInv_step hs h) o, word_reserved_zero stateInv_reset, word_reg_same⟩

end Sys2Proof.Machine
end

section
/-! PROOF. Waits that end (01 R26, 02 R50, R58) and clock gating (02 R60): the timeout of a held command, a poll that finds its condition
holding, a late arrival, and a core that gates its clocks. -/

namespace Sys2Proof.Machine

/-- An event counter with room for one more event is set to one more. -/
theorem run_incF_one {f : Fld} {s : State} (h : s.fld f + 1 < 2 ^ f.w) : run (incF f) s = run (setF f (s.fld f + 1)) s := by
  unfold run incF
  simp only [Nat.one_ne_zero, if_false, if_pos h]

/-! Late arrivals. -/

/-- The late-arrival counter of a unit that exists is held whole by its register table. -/
theorem live_lateFld {u : LateUnit} (h : u.wf = true) : (lateFld u).live = true := by
  cases u with
  | stream sid => exact live_strmLate (of_decide_eq_true h)
  | group g => exact live_colGrpLate (of_decide_eq_true h)
  | curator => exact live_curXchgLate
  | coherence d => exact live_vltCohLate d (of_decide_eq_true h)
  | response => exact live_chnLate
  | order => exact live_chnOrderLate
  | liveness => exact live_chnLiveLate

/-- A stream's registers lie above the Ledger's block. -/
theorem strmBase_above_ledger (sid : Nat) : 0x21000 ≤ strmBase sid := by
  unfold strmBase
  split
  · unfold coreBase; omega
  · unfold btrBase dieBase
    repeat' split
    all_goals omega

theorem lateFld_above_ledger (u : LateUnit) : 0x20000 ≤ (lateFld u).off := by
  cases u with
  | stream sid =>
    have h := strmBase_above_ledger sid
    simp only [lateFld, Reg.strmLate]; omega
  | group g => simp only [lateFld, Reg.colGrpLate]; omega
  | curator => decide
  | coherence d => simp only [lateFld, Reg.vltCohLate, dieBase]; omega
  | response => decide
  | order => decide
  | liveness => decide

/-- No late-arrival counter lies among the Ledger's words. -/
theorem lateFld_not_ledger (u : LateUnit) : (lateFld u).off ∉ ledgerWords := by
  have above := lateFld_above_ledger u
  simp only [ledgerWords, List.mem_cons, List.not_mem_nil, or_false]
  omega

/-- A late arrival with room in its counter counts one and is logged with the new count. -/
theorem run_lateProg {u : LateUnit} {s : State} (hl : (lateFld u).live = true) (h : s.fld (lateFld u) + 1 < 2 ^ (lateFld u).w) :
    run (lateProg u) s = run (seq (setF (lateFld u) (s.fld (lateFld u) + 1))
      (logEv (lateSrc u) 0 .timeout 0 false (.late u (s.fld (lateFld u) + 1)))) s := by
  have hf : (run (incF (lateFld u)) s).fld (lateFld u) = s.fld (lateFld u) + 1 := fld_incF hl h
  unfold lateProg
  rw [run_seq, run_withS, hf, run_seq, run_incF_one h]

theorem lateArrival_counts {u : LateUnit} {s : State} (hl : (lateFld u).live = true) (h : s.fld (lateFld u) + 1 < 2 ^ (lateFld u).w) :
    (run (lateProg u) s).fld (lateFld u) = s.fld (lateFld u) + 1 := by
  rw [run_lateProg hl h, run_seq, fld_of_writes (writes_logEv _ _ _ _ _ _) _ ((live_le hl).1) (lateFld_not_ledger u), fld_setF hl,
    Nat.mod_eq_of_lt h]

theorem lateArrival_logged {u : LateUnit} {s : State} (hl : (lateFld u).live = true) (h : s.fld (lateFld u) + 1 < 2 ^ (lateFld u).w) :
    Logged (run (lateProg u) s) (lateSrc u) 0 .timeout (.late u (s.fld (lateFld u) + 1)) := by
  rw [run_lateProg hl h, run_seq]
  exact logged_logEv ..

theorem lateArrival_changesOnly {u : LateUnit} {s : State} (hl : (lateFld u).live = true) (h : s.fld (lateFld u) + 1 < 2 ^ (lateFld u).w) :
    ChangesOnly [.reg, .log] s (run (lateProg u) s) := by
  rw [run_lateProg hl h]
  exact changesOnly_of_within (ks := [.reg, .log]) (within_seq (within_setF (by decide) _ _) (within_logEv (by decide) _ _ _ _ _ _)) (by decide) s

/-! Held commands that wait. -/

/-- The timeout of the oldest held command, while it waits in vain, counts in its stream and ends the command. -/
theorem run_timeoutProg {sid : Nat} {s : State} {c : Cmd} {r : List Cmd} (ha : (s.strm sid).ahead = c :: r) (ht : dTimeout c.desc ≠ 0)
    (hw : (s.strm sid).wait = .watching ∨ (s.strm sid).wait = .polling) (hn : s.waitHolds c.desc = false) :
    run (timeoutProg sid c.acc) s = run (endCmd sid c .timeout) (run (incF (Reg.strmWaitTimeouts sid)) s) := by
  unfold timeoutProg
  rw [run_withS]
  simp only [ha]
  rw [if_pos ⟨trivial, ht, hw⟩, hn]
  exact run_seq ..

/-- A poll that finds the condition holding wakes the stream, and its core runs again. -/
theorem run_pollProg {sid : Nat} {s : State} {c : Cmd} {r : List Cmd} (ha : (s.strm sid).ahead = c :: r)
    (hw : (s.strm sid).wait = .polling) (hc : s.waitHolds c.desc = true) :
    run (pollProg sid) s = run (ungateSid sid) (run (setStrm sid { s.strm sid with wait := .woken (s.waitSig c.desc) }) s) := by
  unfold pollProg
  rw [run_withS]
  simp only [ha, hw, hc, decide_true, Bool.and_self, run_onlyIf_true, run_seq]

/-! Clock gating. -/

theorem run_gateProg {n : Nat} {s : State} (hn : n < 256) (h : s.mayGate n = true) :
    run (gateProg n) s = (Eff.core n { s.core n with gated := true }).apply s := by
  unfold gateProg
  rw [run_withS]
  simp only [hn, h, decide_true, Bool.and_self, run_onlyIf_true, run_emit_one]

/-! The statement. -/

/-- Settles O14: each of the four commands is brought to the effects it makes under its premises, and each clause is read off them. -/
theorem waitsEndAndLateArrivals : Obligations.WaitsEndAndLateArrivals := by
  unfold Obligations.WaitsEndAndLateArrivals
  refine ⟨fun sid acc s c r _ ha hacc ht hw hn => ?_, fun sid s c r ha hw hc => ?_, fun u s hu h => ?_, fun n s hn h => ?_⟩
  · subst hacc
    refine ⟨_, rfl, ?_⟩
    rw [run_timeoutProg ha ht hw hn]
    exact endedNow_endCmd ..
  · refine ⟨_, rfl, ?_, fun j hj => ?_, changesOnly_of_within (within_pollProg (by decide) sid) (by decide) s⟩
    · rw [run_pollProg ha hw hc, ungate_strm, strm_setStrm, if_pos rfl]
    · rw [run_pollProg ha hw hc, ungate_strm, strm_setStrm, if_neg hj.symm]
  · have hwf : u.wf = true := by
      cases u with
      | stream sid => exact decide_eq_true hu
      | group g => exact decide_eq_true hu
      | coherence d => exact decide_eq_true hu
      | curator | response | order | liveness => rfl
    have hl := live_lateFld hwf
    exact ⟨_, rfl, lateArrival_counts hl h, lateArrival_logged hl h, lateArrival_changesOnly hl h⟩
  · refine ⟨_, rfl, ?_, fun m hm => ?_, changesOnly_of_within (within_gateProg (by decide) n) (by decide) s⟩
    · rw [run_gateProg hn h, core_core, if_pos rfl]
    · rw [run_gateProg hn h, core_core, if_neg hm.symm]

end Sys2Proof.Machine
end

section
/-! PROOF. VECTOR commands (03 R68, R84, R93) and array commands (03 R84–R92, 05 R137–R151): which checks end them, when they wait, and
what they leave once their drain has run. -/

namespace Sys2Proof.Machine

/-! The registers of a core's units. -/

/-- START writes none but words a command may change. -/
theorem drainWrites_startCmd (sid : Nat) (c : Cmd) : WritesWords (drainWord sid) (startCmd sid c) :=
  (writes_startCmd sid c).mono fun _ h => .inl (.inl (.inr (.inr (.inl h))))

theorem drainWrites_conflicts (sid : Nat) : WritesWords (drainWord sid) (timed (Reg.coreLsConflicts (sid / 4))) :=
  writes_timed (Nat.le_of_ble_eq_true rfl) (.inr (.inl rfl))

theorem drainWrites_vecBusy (sid : Nat) : WritesWords (drainWord sid) (timed (Reg.coreVecBusy (sid / 4))) :=
  writes_timed (Nat.le_of_ble_eq_true rfl) (.inr (.inr (.inl rfl)))

/-- A write of a 64-bit field writes its two words. -/
theorem writes_setF64 {P : Nat → Prop} {f : Fld} (v : Nat) (hw : f.w = 64) (h : P f.off) (h4 : P (f.off + 4)) : WritesWords P (setF f v) := by
  intro s e he
  unfold setF at he
  rw [if_pos hw, List.mem_cons, List.mem_singleton] at he
  rcases he with rfl | rfl
  · exact h
  · exact h4

/-- A time of 64 bits among the counters of a core's arrays runs on. -/
theorem drainWrites_arrayTime {sid : Nat} {f : Fld} (h : ∃ o, f.off = coreBase (sid / 4) + o ∧ 0x1018 ≤ o ∧ o ≤ 0x1030) (hw : f.w = 64) :
    WritesWords (drainWord sid) (timed f) := by
  obtain ⟨o, hf, hlo, hhi⟩ := h
  exact writes_drawFree fun _ => writes_withS fun _ => writes_setF64 _ hw (.inr (.inr (.inr (.inr (.inl ⟨by omega, by omega⟩)))))
    (.inr (.inr (.inr (.inr (.inl ⟨by omega, by omega⟩)))))

theorem drainWrites_countArrays (sid tiles : Nat) (macs : Option Nat) : WritesWords (drainWord sid) (countArrays (sid / 4) tiles macs) := by
  refine writes_seqs_cons (count64 _ _ ⟨0x1018, rfl, by decide, by decide⟩ rfl) (writes_seqs_cons ?macs
    (writes_seqs_cons (drainWrites_arrayTime ⟨0x1028, rfl, by decide, by decide⟩ rfl)
      (writes_seqs_cons (drainWrites_arrayTime ⟨0x1030, rfl, by decide, by decide⟩ rfl)
        (writes_seqs_cons (drainWrites_conflicts sid) writes_seqs_nil))))
  cases macs with
  | some m => exact count64 _ _ ⟨0x1020, rfl, by decide, by decide⟩ rfl
  | none => exact drainWrites_arrayTime ⟨0x1020, rfl, by decide, by decide⟩ rfl

/-! VECTOR commands. -/

/-- What a VECTOR command does before its drain: START, and its units' times. -/
def vectorLead (sid : Nat) (c : Cmd) (j : DrainJob) : Prog :=
  seqs [startCmd sid c, timed (Reg.coreVecBusy (sid / 4)), timed (Reg.coreLsConflicts (sid / 4)), stagePeak j]

theorem writes_vectorLead (sid : Nat) (c : Cmd) {j : DrainJob} (hn : j.core = sid / 4) : WritesWords (drainWord sid) (vectorLead sid c j) :=
  writes_seqs_cons (drainWrites_startCmd sid c) (writes_seqs_cons (drainWrites_vecBusy sid)
    (writes_seqs_cons (drainWrites_conflicts sid) (writes_seqs_cons (peak_writes j hn) writes_seqs_nil)))

theorem within_vectorLead (sid : Nat) (c : Cmd) (j : DrainJob) : Within cmdKinds (vectorLead sid c j) :=
  within_seqs_cons (within_start sid c) (within_seqs_cons (within_timed (by decide) _)
    (within_seqs_cons (within_timed (by decide) _) (within_seqs_cons (within_stagePeak (by decide) j) (within_seqs_nil _))))

/-- The row of an issued VECTOR command runs it in its turn, and does nothing before it. -/
theorem run_onVector {s : State} {sid acc op : Nat} {c : Cmd} (h : s.issuedCmd sid acc 0x05 op = some c) (o : VecOp) :
    run (onVector sid acc op o) s = if s.vectorTurn sid c then run (vectorProg (o.job s sid c.desc) sid c) s else s := by
  unfold onVector
  rw [run_onIssued h, run_withS, run_onlyIf]

/-- A VECTOR command that fails a check of its class or its shape word ends with that status. -/
theorem run_vectorProg_fault {v : VecJob} {s : State} {st : Status} (h : v.cls.or v.shapes = some st) (sid : Nat) (c : Cmd) :
    run (vectorProg v sid c) s = run (endCmd sid c st) s := by
  unfold vectorProg
  rw [run_withS, h]

/-- A VECTOR command of no elements ends with OK. -/
theorem run_vectorProg_none {v : VecJob} {s : State} (h : v.cls.or v.shapes = none) (h0 : v.count = 0) (sid : Nat) (c : Cmd) :
    run (vectorProg v sid c) s = run (endCmd sid c .ok) s := by
  unfold vectorProg
  rw [run_withS, h]
  dsimp only
  rw [if_pos h0]

/-- Settles O20: a row in its turn is its command's course, which either ends at a check or, with nothing in its way, is the lead and the
drain; what the drain leaves after a lead that stores nothing is `drain_after`. -/
theorem vectorCommandsComplete : Obligations.VectorCommandsComplete := by
  unfold Obligations.VectorCommandsComplete
  intro r hr sid acc s c hm hs hc v j o ps
  have hrun := run_onVector hc r.2.1
  have hacc : c.acc = acc := (issuedCmd_acc hc).1
  have hexec := vec_exec r hr sid acc s
  refine ⟨fun ht => ?wait, fun ht => ?_⟩
  case wait => rw [hexec, hrun, ht, if_neg (by decide)]
  rw [ht, if_pos rfl] at hrun
  refine ⟨fun st hst => ?fault, fun hok h0 => ?none, fun hok h0 hroom hexts hrec hfaults hgate hread harm hpieces hreplay => ?work⟩
  case fault =>
    refine ⟨_, hexec, ?_⟩
    rw [hrun, run_vectorProg_fault hst]
    exact end_frame hacc s st
  case none =>
    refine ⟨_, hexec, ?_⟩
    rw [hrun, run_vectorProg_none hok h0]
    exact end_frame hacc s .ok
  case work =>
    have hq : (if j.replays o.1 then s.readHurt (j.replayAddr s) 8 else none) = none := by
      split
      · exact hreplay ‹_›
      · rfl
    have hcourse : run (vectorProg v sid c) s = run (drainEnd j sid c o.1 o.2 v.marks) (run (vectorLead sid c j) s) := by
      rw [run_vectorProg sid c v s hok h0 hroom hexts hrec, run_vectorGated sid c v j s hfaults hgate, run_vectorWork sid c v j s hread harm]
      rfl
    refine ⟨_, hexec, ?_⟩
    rw [hrun, hcourse, ← hacc]
    exact drain_after rfl hs hm hpieces hq (writes_vectorLead sid c rfl) (within_vectorLead sid c j) (by decide) (by decide) (by decide)

/-! Array commands. -/

/-- What an array command does before its drain: START, its ramp groups up, its counters, and its turn as a deferred command used. -/
def arrayLead (sid : Nat) (c : Cmd) (a : ArrayJob) (j : DrainJob) (s : State) : Prog :=
  seqs [startCmd sid c, setF (Reg.arrUp (sid / 4)) (s.fld (Reg.arrUp (sid / 4)) ||| groupMask (arraysUsed a.mask (a.tiles j s))),
    countArrays (sid / 4) (a.tiles j s) (a.macs j s), stagePeak j, unstarve sid c.acc]

theorem writes_arrayLead (sid : Nat) (c : Cmd) (a : ArrayJob) {j : DrainJob} (s : State) (hn : j.core = sid / 4) :
    WritesWords (drainWord sid) (arrayLead sid c a j s) :=
  writes_seqs_cons (drainWrites_startCmd sid c) (writes_seqs_cons (writes_setF _ (Nat.le_of_ble_eq_true rfl) (.inr (.inr (.inr (.inl rfl)))))
    (writes_seqs_cons (drainWrites_countArrays sid _ _) (writes_seqs_cons (peak_writes j hn)
      (writes_seqs_cons (writes_noReg (within_unstarve (List.Subset.refl _) _ _)) writes_seqs_nil))))

theorem within_arrayLead (sid : Nat) (c : Cmd) (a : ArrayJob) (j : DrainJob) (s : State) : Within cmdKinds (arrayLead sid c a j s) :=
  within_seqs_cons (within_start sid c) (within_seqs_cons (within_setF (by decide) _ _) (within_seqs_cons (within_countArrays (by decide) _ _ _)
    (within_seqs_cons (within_stagePeak (by decide) j) (within_seqs_cons (within_unstarve (by decide) _ _) (within_seqs_nil _)))))

/-- The row of an issued array command runs its program. -/
theorem run_onArray {s : State} {sid acc cls op : Nat} {c : Cmd} (h : s.issuedCmd sid acc cls op = some c)
    (job : State → Nat → Block64 → ArrayJob) : run (onArray sid acc cls op job) s = run (arrayProg sid c (job s sid c.desc)) s := by
  unfold onArray
  rw [run_onIssued h, run_withS]

/-- An array command that fails a check of its class or its shape words ends with that status. -/
theorem run_arrayProg_fault {a : ArrayJob} {s : State} {st : Status} (h : a.cls.or a.shapes = some st) (sid : Nat) (c : Cmd) :
    run (arrayProg sid c a) s = run (endCmd sid c st) s := by
  unfold arrayProg
  rw [run_withS, h]

/-- An array command with nothing to do ends with OK. -/
theorem run_arrayProg_empty {a : ArrayJob} {s : State} (h : a.cls.or a.shapes = none) (he : a.empty = true) (sid : Nat) (c : Cmd) :
    run (arrayProg sid c a) s = run (endCmd sid c .ok) s := by
  unfold arrayProg
  rw [run_withS, h]
  dsimp only
  rw [if_pos he]

/-- An array command that passes its checks reads its drain record. -/
theorem run_arrayProg {a : ArrayJob} {s : State} {sid : Nat} (c : Cmd) (h : a.cls.or a.shapes = none) (he : a.empty = false)
    (hb : a.big = false) (hexts : ∀ e ∈ a.exts ++ [(64 * a.drainOff, 64)], lsExtent e.1 e.2 = true)
    (hrec : s.readHurt (a.recAddr sid) 64 = none) :
    run (arrayProg sid c a) s = run (arrayGated sid c a (a.drainOf sid s)) s := by
  have hin : (a.exts ++ [(64 * a.drainOff, 64)]).any (fun e => !lsExtent e.1 e.2) = false :=
    List.any_eq_false.mpr fun e he => by simp [hexts e he]
  unfold arrayProg
  rw [run_withS, h]
  dsimp only
  rw [he, hb, hin, hrec]
  rfl

section
variable {a : ArrayJob} {j : DrainJob} {s : State} {sid : Nat} {c : Cmd}
  (hfaults : j.faults s a.gradRows = none) (hmask : Nat.land a.mask (s.fld (Reg.arrFailed (sid / 4))) = 0)
include hfaults hmask

/-- An array command stays issued while an array it uses waits for the spare or belongs to a command served before it. -/
theorem run_arrayGated_held (h : (∃ x ∈ arraysUsed a.mask (a.tiles j s), x ∈ (s.core (sid / 4)).sparing) ∨
    s.yields sid c (arraysUsed a.mask (a.tiles j s)) = true) : run (arrayGated sid c a j) s = s := by
  have hheld : ((arraysUsed a.mask (a.tiles j s)).any (s.core (sid / 4)).sparing.contains ||
      s.yields sid c (arraysUsed a.mask (a.tiles j s))) = true := by
    rw [Bool.or_eq_true]
    refine h.imp_left fun ⟨x, hx, hsp⟩ => List.any_eq_true.mpr ⟨x, hx, ?_⟩
    exact List.contains_iff_mem.mpr hsp
  unfold arrayGated
  rw [run_withS, hfaults, hmask]
  dsimp only [ne_eq]
  rw [if_neg (by decide)]
  dsimp only [Option.or]
  rw [if_pos hheld, run_skip]

/-- An array command in its turn whose gate is open does its work. -/
theorem run_arrayGated_open (hsp : ∀ x ∈ arraysUsed a.mask (a.tiles j s), x ∉ (s.core (sid / 4)).sparing)
    (hy : s.yields sid c (arraysUsed a.mask (a.tiles j s)) = false) (hgate : s.gate j = .open_) :
    run (arrayGated sid c a j) s = run (arrayWork sid c a j) s := by
  have hfree : ((arraysUsed a.mask (a.tiles j s)).any (s.core (sid / 4)).sparing.contains ||
      s.yields sid c (arraysUsed a.mask (a.tiles j s))) = false := by
    rw [Bool.or_eq_false_iff]
    refine ⟨List.any_eq_false.mpr fun x hx => ?_, hy⟩
    exact fun hc => hsp x hx (List.contains_iff_mem.mp hc)
  unfold arrayGated
  rw [run_withS, hfaults, hmask]
  dsimp only [ne_eq]
  rw [if_neg (by decide)]
  dsimp only [Option.or]
  rw [hfree, if_neg (by decide), hgate]
end

/-- The work of an array command that reads no damaged line and meets no armed injection is its lead and its drain. -/
theorem run_arrayWork {a : ArrayJob} {j : DrainJob} {s : State} {sid : Nat} (c : Cmd)
    (hread : s.anyHurt (a.reads ++ a.accs j s ++ drainReads j a.gradRows) = none)
    (hspare : ∀ x ∈ arraysUsed a.mask (a.tiles j s), s.isArmed 0x02 (32 * (sid / 4) + x) = false) (harm : s.isArmed 0x03 (sid / 4) = false) :
    run (arrayWork sid c a j) s = run (drainEnd j sid c (a.out j s).1 (a.out j s).2 ((List.range (a.tiles j s / 64)).map fun i => 64 * (i + 1)))
      (run (arrayLead sid c a j s) s) := by
  have hfind : (arraysUsed a.mask (a.tiles j s)).find? (fun x => s.isArmed 0x02 (32 * (sid / 4) + x)) = none :=
    List.find?_eq_none.mpr fun x hx => by rw [hspare x hx]; decide
  unfold arrayWork arrayLead
  rw [run_withS]
  dsimp only
  rw [hread]
  dsimp only
  rw [hfind]
  dsimp only
  rw [harm, if_neg (by decide)]
  simp only [run_seq, run_seqs_cons, run_seqs_nil]

/-- Settles O21: a row is its command's course, which ends at a check, stays held, or is the lead and the drain; what the drain leaves after
a lead that stores nothing is `drain_after`. -/
theorem arrayCommandsComplete : Obligations.ArrayCommandsComplete := by
  unfold Obligations.ArrayCommandsComplete
  intro r hr sid acc s c hm hs hc v j o ps used
  have hrun : run (onArray sid acc r.1 r.2.1 r.2.2.1) s = run (arrayProg sid c v) s := run_onArray hc r.2.2.1
  have hacc : c.acc = acc := (issuedCmd_acc hc).1
  have hexec := array_exec r hr sid acc s
  have hcore : j.core = sid / 4 := array_core r hr s sid c.desc _
  refine ⟨fun st hst => ?fault, fun hok he => ?empty, fun hok he hb hexts hrec hfaults hmask => ?_⟩
  case fault =>
    refine ⟨_, hexec, ?_⟩
    rw [hrun, run_arrayProg_fault hst]
    exact end_frame hacc s st
  case empty =>
    refine ⟨_, hexec, ?_⟩
    rw [hrun, run_arrayProg_empty hok he]
    exact end_frame hacc s .ok
  have hgated : run (arrayProg sid c v) s = run (arrayGated sid c v j) s := run_arrayProg c hok he hb hexts hrec
  refine ⟨fun h => ?held, fun hfree hy hgate hread harm hpieces hreplay => ?work⟩
  case held => rw [hexec, hrun, hgated, run_arrayGated_held hfaults hmask h]
  case work =>
    have hq : (if j.replays o.1 then s.readHurt (j.replayAddr s) 8 else none) = none := by
      split
      · exact hreplay ‹_›
      · rfl
    refine ⟨_, hexec, ?_⟩
    rw [hrun, hgated, run_arrayGated_open hfaults hmask (fun x hx => (hfree x hx).1) hy hgate,
      run_arrayWork c hread (fun x hx => (hfree x hx).2) harm, ← hacc]
    exact drain_after hcore hs hm hpieces hq (writes_arrayLead sid c v s hcore) (within_arrayLead sid c v j s) (by decide) (by decide) (by decide)

end Sys2Proof.Machine
end

section
/-! PROOF. The arrays of a core beside their commands: ramp groups (03 R96, R97), the spare array (03 R98, R99, 16 R458), the counters
(03 R101) and deferred commands that starve (05 R148). -/

namespace Sys2Proof.Machine

/-! The registers of the arrays. -/

theorem live_arrUp {n : Nat} (hn : n < 256) : (Reg.arrUp n).live = true :=
  live_core 0x1000 0 24 rfl rfl hn (by decide) rfl (by decide +kernel)

theorem live_arrFailed {n : Nat} (hn : n < 256) : (Reg.arrFailed n).live = true :=
  live_core 0x1004 0 24 rfl rfl hn (by decide) rfl (by decide +kernel)

theorem live_arrSpareUsed {n : Nat} (hn : n < 256) : (Reg.arrSpareUsed n).live = true :=
  live_core 0x1008 0 1 rfl rfl hn (by decide) rfl (by decide +kernel)

theorem live_arrSpareFor {n : Nat} (hn : n < 256) : (Reg.arrSpareFor n).live = true :=
  live_core 0x1008 8 5 rfl rfl hn (by decide) rfl (by decide +kernel)

theorem live_arrPhys {n a : Nat} (hn : n < 256) (ha : a < 24) : (Reg.arrPhys n a).live = true := by
  have h : ∀ a < 24, liveAt (coreBlockKind ((0x1040 + a * 4) / 0x1000)) ((0x1040 + a * 4) % 0x1000) 0 5 = true := by decide +kernel
  exact live_core (0x1040 + a * 4) 0 5 rfl rfl hn (by omega) (by simp only [Reg.arrPhys]; omega) (h a ha)

theorem live_csvPending : ∀ i < 8, (Reg.csvPending i).live = true := by decide +kernel

theorem live_rgsEvents : Reg.rgsEvents.live = true := by decide +kernel

/-- A write of a field that fits it is read back, and changes its word alone. -/
theorem setF_frame {f : Fld} (hl : f.live = true) {v : Nat} (hv : v < 2 ^ f.w) (s : State) :
    (run (setF f v) s).fld f = v ∧ KeepsWords [f.off] s (run (setF f v) s) ∧ ChangesOnly [.reg] s (run (setF f v) s) := by
  refine ⟨?_, keepsWords_of_writes (writes_setF v (live_le hl).1 (List.mem_singleton.mpr rfl)) s,
    changesOnly_of_within (within_setF (List.Subset.refl _) _ _) (by decide) s⟩
  rw [fld_setF hl, Nat.mod_eq_of_lt hv]

/-- A write of a field leaves the fields of other words. -/
theorem fld_setF_other {f g : Fld} (hf : f.w ≤ 32) (hg : g.w ≤ 32) (h : g.off ≠ f.off) (v : Nat) (s : State) :
    (run (setF f v) s).fld g = s.fld g := fld_of_writes (writes_setF (P := (· = f.off)) v hf rfl) s hg h

/-- A mask of bits in a field's range keeps the field within its width. -/
theorem fld_or_lt {f : Fld} (hw : f.w ≤ 32) {m : Nat} (hm : m < 2 ^ f.w) (s : State) : s.fld f ||| m < 2 ^ f.w :=
  Nat.or_lt_two_pow (fld_lt f s hw) hm

/-! Ramp groups. -/

theorem needsGroup_iff (s : State) (n x : Nat) :
    s.needsGroup n x = true ↔ ∃ h ∈ s.heldArray n, ∃ a ∈ s.arraysOfCmd h.1 h.2, a / 3 = x := by
  simp only [State.needsGroup, List.any_eq_true, beq_iff_eq]

theorem groupUp_iff (s : State) (n x : Nat) : s.groupUp n x = true ↔ s.fld (Reg.arrUp n) / 2 ^ (3 * x) % 8 = 7 := by
  simp only [State.groupUp, beq_iff_eq]

theorem mayRise_iff (s : State) {n g : Nat} (hn : n < 256) (hg : g < 8) :
    s.mayRise n g = true ↔ s.needsGroup n g = true ∧ ∀ x, x < g → s.needsGroup n x = true → s.groupUp n x = true := by
  simp only [State.mayRise, hn, hg, decide_true, Bool.true_and, Bool.and_eq_true, List.all_eq_true, List.mem_range, Bool.or_eq_true,
    Bool.not_eq_true', ← Bool.not_eq_true, Decidable.imp_iff_not_or]

theorem mayFall_iff (s : State) {n g : Nat} (hn : n < 256) (hg : g < 8) :
    s.mayFall n g = true ↔ s.groupUp n g = true ∧ ¬ s.needsGroup n g = true ∧
      ∀ x, g < x → x < 8 → s.groupUp n x = true → s.needsGroup n x = true := by
  simp only [State.mayFall, hn, hg, decide_true, Bool.true_and, Bool.and_eq_true, List.all_eq_true, List.mem_range, Bool.or_eq_true,
    Bool.not_eq_true', Bool.and_eq_false_iff, Bool.not_eq_false', decide_eq_true_eq, Bool.not_eq_true]
  refine ⟨fun ⟨⟨hup, hidle⟩, hall⟩ => ⟨hup, hidle, fun x hgx hx hux => ?_⟩, fun ⟨hup, hidle, hall⟩ => ⟨⟨hup, hidle⟩, fun x hx => ?_⟩⟩
  · rcases hall x hx with hle | hdown | hneed
    · omega
    · rw [hdown] at hux; cases hux
    · exact hneed
  · by_cases hle : x ≤ g
    · exact .inl hle
    · cases hux : s.groupUp n x with
      | false => exact .inr (.inl rfl)
      | true => exact .inr (.inr (hall x (by omega) hx hux))

/-- The three bits of a ramp group lie in ARR_UP. -/
theorem groupBits_lt {g : Nat} (hg : g < 8) : 7 * 2 ^ (3 * g) < 2 ^ 24 :=
  calc 7 * 2 ^ (3 * g) < 8 * 2 ^ (3 * g) := Nat.mul_lt_mul_of_pos_right (by decide) (Nat.two_pow_pos _)
    _ = 2 ^ (3 * (g + 1)) := by rw [Nat.mul_add, Nat.pow_add, Nat.mul_comm]
    _ ≤ 2 ^ 24 := Nat.pow_le_pow_right (by decide) (by omega)

theorem rampUp_rises {s : State} {n g : Nat} (hn : n < 256) (hg : g < 8) (h : s.mayRise n g = true) :
    (run (rampUpProg n g) s).fld (Reg.arrUp n) = s.fld (Reg.arrUp n) ||| 7 * 2 ^ (3 * g) ∧
    KeepsWords [(Reg.arrUp n).off] s (run (rampUpProg n g) s) ∧ ChangesOnly [.reg] s (run (rampUpProg n g) s) := by
  have hrun : run (rampUpProg n g) s = run (setF (Reg.arrUp n) (s.fld (Reg.arrUp n) ||| 7 * 2 ^ (3 * g))) s := by
    unfold rampUpProg
    rw [run_withS, h, run_onlyIf_true]
  rw [hrun]
  exact setF_frame (live_arrUp hn) (fld_or_lt (f := Reg.arrUp n) (Nat.le_of_ble_eq_true rfl) (groupBits_lt hg) s) s

theorem rampDown_falls {s : State} {n g : Nat} (hn : n < 256) (h : s.mayFall n g = true) :
    (run (rampDownProg n g) s).fld (Reg.arrUp n) = s.fld (Reg.arrUp n) - 7 * 2 ^ (3 * g) ∧
    KeepsWords [(Reg.arrUp n).off] s (run (rampDownProg n g) s) ∧ ChangesOnly [.reg] s (run (rampDownProg n g) s) := by
  have hrun : run (rampDownProg n g) s = run (setF (Reg.arrUp n) (s.fld (Reg.arrUp n) - 7 * 2 ^ (3 * g))) s := by
    unfold rampDownProg
    rw [run_withS, h, run_onlyIf_true]
  rw [hrun]
  exact setF_frame (live_arrUp hn) (Nat.lt_of_le_of_lt (Nat.sub_le _ _) (fld_lt (Reg.arrUp n) s (Nat.le_of_ble_eq_true rfl))) s

theorem rampUp_stays {s : State} {n g : Nat} (h : ¬ s.mayRise n g = true) : run (rampUpProg n g) s = s := by
  unfold rampUpProg
  rw [run_withS, eq_false_of_ne_true h, run_onlyIf_false]

theorem rampDown_stays {s : State} {n g : Nat} (h : ¬ s.mayFall n g = true) : run (rampDownProg n g) s = s := by
  unfold rampDownProg
  rw [run_withS, eq_false_of_ne_true h, run_onlyIf_false]

/-! The counters. -/

theorem run_setF64 {f : Fld} (hw : f.w = 64) (v : Nat) (s : State) :
    run (setF f v) s = (Eff.reg (f.off + 4) (BitVec.ofNat 32 (v / 2 ^ 32))).apply ((Eff.reg f.off (BitVec.ofNat 32 v)).apply s) := by
  unfold run setF
  rw [if_pos hw]
  rfl

/-- A 64-bit field that is cleared reads 0. -/
theorem fld_clear64 {f : Fld} (hw : f.w = 64) (s : State) : (run (setF f 0) s).fld f = 0 := by
  have hne : f.off + 4 ≠ f.off := by omega
  rw [run_setF64 hw]
  unfold State.fld
  rw [if_pos hw, word_reg, word_reg, word_reg, if_neg hne, if_pos rfl, if_pos rfl]
  simp

/-- A write of one 64-bit field leaves the 64-bit fields of other words. -/
theorem fld_setF64_apart {f g : Fld} (hf : f.w = 64) (h : f.off + 8 ≤ g.off ∨ g.off + 8 ≤ f.off) (v : Nat) (s : State) :
    (run (setF f v) s).fld g = s.fld g := by
  have hw : WritesWords (fun o => o = f.off ∨ o = f.off + 4) (setF f v) := writes_setF64 v hf (.inl rfl) (.inr rfl)
  exact fld_congr (word_of_writes hw s (by omega)) fun _ => word_of_writes hw s (by omega)

/-- A core whose clocks are made to run is not gated. -/
theorem ungate_runs (n : Nat) (s : State) : ((run (ungate n) s).core n).gated = false := by
  unfold ungate
  rw [run_withS]
  cases h : (s.core n).gated with
  | false => exact h
  | true => rw [run_onlyIf_true, run_emit_one, core_core, if_pos rfl]

/-- The counters of a core's arrays, cleared one by one once its clocks run. -/
theorem run_arrCntClearProg {n : Nat} (hn : n < 256) (s : State) :
    run (arrCntClearProg n) s = run (setF (Reg.arrStallCycles n) 0) (run (setF (Reg.arrBusyCycles n) 0)
      (run (setF (Reg.arrMacCycles n) 0) (run (setF (Reg.arrTiles n) 0) (run (ungate n) s)))) := by
  unfold arrCntClearProg
  rw [if_neg (by omega), run_seqs_cons, run_seqs_cons, run_seqs_cons, run_seqs_cons, run_seqs_cons, run_seqs_nil]

theorem writes_arrCntClear {n : Nat} (hn : n < 256) :
    WritesWords (fun o => coreBase n + 0x1018 ≤ o ∧ o < coreBase n + 0x1038) (arrCntClearProg n) := by
  have clear : ∀ {f : Fld}, f.w = 64 → coreBase n + 0x1018 ≤ f.off → f.off + 4 < coreBase n + 0x1038 →
      WritesWords (fun o => coreBase n + 0x1018 ≤ o ∧ o < coreBase n + 0x1038) (setF f 0) :=
    fun hw h1 h2 => writes_setF64 0 hw ⟨h1, by omega⟩ ⟨by omega, h2⟩
  unfold arrCntClearProg
  rw [if_neg (by omega)]
  refine writes_seqs_cons (writes_ungate n) (writes_seqs_cons (clear rfl ?_ ?_) (writes_seqs_cons (clear rfl ?_ ?_)
    (writes_seqs_cons (clear rfl ?_ ?_) (writes_seqs_cons (clear rfl ?_ ?_) writes_seqs_nil))))
  all_goals simp only [Reg.arrTiles, Reg.arrMacCycles, Reg.arrBusyCycles, Reg.arrStallCycles]; omega

/-- After ARR_CNT_CLEAR the four counters of a core's arrays read 0. -/
theorem arrCntClear_zero {n : Nat} (hn : n < 256) (s : State) :
    (run (arrCntClearProg n) s).fld (Reg.arrTiles n) = 0 ∧ (run (arrCntClearProg n) s).fld (Reg.arrMacCycles n) = 0 ∧
    (run (arrCntClearProg n) s).fld (Reg.arrBusyCycles n) = 0 ∧ (run (arrCntClearProg n) s).fld (Reg.arrStallCycles n) = 0 := by
  have stall : ∀ {g : Fld}, g.off + 8 ≤ coreBase n + 0x1030 → ∀ u, (run (setF (Reg.arrStallCycles n) 0) u).fld g = u.fld g :=
    fun h u => fld_setF64_apart rfl (.inr h) 0 u
  have busy : ∀ {g : Fld}, g.off + 8 ≤ coreBase n + 0x1028 → ∀ u, (run (setF (Reg.arrBusyCycles n) 0) u).fld g = u.fld g :=
    fun h u => fld_setF64_apart rfl (.inr h) 0 u
  have mac : ∀ {g : Fld}, g.off + 8 ≤ coreBase n + 0x1020 → ∀ u, (run (setF (Reg.arrMacCycles n) 0) u).fld g = u.fld g :=
    fun h u => fld_setF64_apart rfl (.inr h) 0 u
  rw [run_arrCntClearProg hn]
  refine ⟨?_, ?_, ?_, fld_clear64 rfl _⟩
  · rw [stall (by simp only [Reg.arrTiles]; omega), busy (by simp only [Reg.arrTiles]; omega), mac (by simp only [Reg.arrTiles]; omega)]
    exact fld_clear64 rfl _
  · rw [stall (by simp only [Reg.arrMacCycles]; omega), busy (by simp only [Reg.arrMacCycles]; omega)]
    exact fld_clear64 rfl _
  · rw [stall (by simp only [Reg.arrBusyCycles]; omega)]
    exact fld_clear64 rfl _

theorem arrCntClear_runs {n : Nat} (hn : n < 256) (s : State) : ((run (arrCntClearProg n) s).core n).gated = false := by
  have keep : ∀ (f : Fld) (u : State), (run (setF f 0) u).core n = u.core n := fun f u => core_keep (within_setF (List.Subset.refl _) f 0) u n
  rw [run_arrCntClearProg hn, keep, keep, keep, keep]
  exact ungate_runs n s

/-! Deferred commands that starve. -/

/-- The condition under which DEFER_STARVE serves a command as DEFER 0. -/
theorem starves_iff (s : State) {sid : Nat} (acc : Nat) (hs : sid < 1024) :
    (decide (sid < 1024) && s.fld (Reg.arrDeferStarve (sid / 4)) != 0 && (s.strm sid).issued.any fun c => c.acc == acc && dDefer c.desc) = true ↔
      s.fld (Reg.arrDeferStarve (sid / 4)) ≠ 0 ∧ ∃ c ∈ (s.strm sid).issued, c.acc = acc ∧ dDefer c.desc = true := by
  simp only [hs, decide_true, Bool.true_and, Bool.and_eq_true, bne_iff_ne, List.any_eq_true, beq_iff_eq]

theorem run_deferStarve {s : State} {sid acc : Nat} (hs : sid < 1024)
    (h : s.fld (Reg.arrDeferStarve (sid / 4)) ≠ 0 ∧ ∃ c ∈ (s.strm sid).issued, c.acc = acc ∧ dDefer c.desc = true) :
    run (deferStarveProg sid acc) s = (Eff.core (sid / 4) { s.core (sid / 4) with
      starved := (sid + 2048 * acc) :: (s.core (sid / 4)).starved.filter (· != sid + 2048 * acc) }).apply s := by
  unfold deferStarveProg
  rw [run_withS]
  dsimp only
  rw [(starves_iff s acc hs).mpr h, run_onlyIf_true, run_emit_one]

theorem deferStarve_stays {s : State} {sid acc : Nat} (hs : sid < 1024)
    (h : ¬ (s.fld (Reg.arrDeferStarve (sid / 4)) ≠ 0 ∧ ∃ c ∈ (s.strm sid).issued, c.acc = acc ∧ dDefer c.desc = true)) :
    run (deferStarveProg sid acc) s = s := by
  unfold deferStarveProg
  rw [run_withS]
  dsimp only
  rw [eq_false_of_ne_true fun hb => h ((starves_iff s acc hs).mp hb), run_onlyIf_false]

/-! Repairs. -/

theorem bit_eq_testBit (v i : Nat) : bit v i = v.testBit i := by
  rw [bit, Nat.testBit_eq_decide_div_mod_eq]
  rfl

theorem writes_eventIrq (s : State) : WritesWords (fun o => 0x1A000 ≤ o ∧ o < 0x1B000) (sendIrq (s.fld Reg.rgsEventIrqVec)) :=
  writes_sendIrq (fld_lt Reg.rgsEventIrqVec s (by decide))

/-- An event that is raised shows in RGS_EVENTS. -/
theorem raiseEvent_shows {i : Nat} (hi : i < 5) (s : State) : bit ((run (raiseEvent i) s).fld Reg.rgsEvents) i = true := by
  have hirq : WritesWords (fun o => 0x1A000 ≤ o ∧ o < 0x1B000)
      (onlyIf (s.flagBit Reg.rgsEventIrqEn && !bit (s.fld Reg.rgsEvents) i) (sendIrq (s.fld Reg.rgsEventIrqVec))) :=
    writes_onlyIf fun _ => writes_eventIrq s
  unfold raiseEvent
  rw [run_withS, run_seq, fld_of_writes hirq _ (by decide) (by decide), fld_setF live_rgsEvents, bit_eq_testBit,
    Nat.testBit_mod_two_pow, Nat.testBit_or, Nat.testBit_two_pow_self, Bool.or_true, Bool.and_true]
  exact decide_eq_true hi

/-- A repair writes registers of the blocks below the Curator's alone. -/
theorem writes_recordRepair (r : RepairRec) : WritesWords (· < 0x20000) (recordRepair r) := by
  refine writes_withS fun s => writes_seqs_cons (writes_noReg (ks := [.cons]) (within_emit fun e he => ?cons))
    (writes_seqs_cons (writes_incF _ (by decide) (by decide)) (writes_seqs_cons (writes_ledgerBlock.mono fun o ho => by omega)
      (writes_seqs_cons (writes_withS fun t => writes_seq (writes_setF _ (by decide) (by decide)) (writes_onlyIf fun _ => ?irq))
        writes_seqs_nil)))
  case cons => exact List.mem_singleton.mpr (congrArg Eff.kind (List.mem_singleton.mp he))
  case irq => exact (writes_eventIrq t).mono fun o ho => by omega

/-- A repair is recorded, logged and reported. -/
theorem recordRepair_recorded (r : RepairRec) (s : State) :
    (run (recordRepair r) s).cons.repairs = r :: s.cons.repairs ∧ Logged (run (recordRepair r) s) (.unit 0x170) 0 .ok (.repair r) ∧
    bit ((run (recordRepair r) s).fld Reg.rgsEvents) 1 = true := by
  have hrun : run (recordRepair r) s = run (raiseEvent 1) (run (logEv (.unit 0x170) 0 .ok 0 false (.repair r))
      (run (incF Reg.csvRepairs) ((Eff.cons { s.cons with repairs := r :: s.cons.repairs }).apply s))) := by
    unfold recordRepair
    rw [run_withS, run_seqs_cons, run_seqs_cons, run_seqs_cons, run_seqs_cons, run_seqs_nil, run_emit_one]
  have keep : ∀ {p : Prog} (_ : Within [.reg, .log, .send, .draw] p) (u : State), (run p u).cons = u.cons :=
    fun hp u => changesOnly_of_within hp (by decide) u .cons (by decide)
  rw [hrun]
  refine ⟨?_, (logged_logEv ..).keep (within_raiseEvent (List.Subset.refl _) 1), raiseEvent_shows (by decide) _⟩
  rw [keep (within_raiseEvent (by decide) 1), keep (within_logEv (by decide) _ _ _ _ _ _), keep (within_incF (by decide) _ _), apply_cons]

/-! The spare array. -/

/-- The core's record once array `a` no longer waits for the spare. -/
def State.unspared (s : State) (n a : Nat) : CoreX := { s.core n with sparing := (s.core n).sparing.filter (· != a) }

theorem arraySpare_stays {s : State} {n a : Nat} (h : a ∉ (s.core n).sparing) : run (arraySpareProg n a) s = s := by
  have hc : (s.core n).sparing.contains a = false := eq_false_of_ne_true fun hc => h (List.contains_iff_mem.mp hc)
  unfold arraySpareProg
  rw [run_withS]
  dsimp only
  rw [hc, Bool.and_false, run_onlyIf_false]

/-- A faulted array that waits for an unused spare gets it, and the repair is recorded. -/
theorem run_arraySpare_repair {s : State} {n a : Nat} (hn : n < 256) (h : a ∈ (s.core n).sparing) (hu : s.fld (Reg.arrSpareUsed n) = 0) :
    run (arraySpareProg n a) s =
      run (recordRepair ⟨2, n / 128, 0, s.fld (Reg.corePhysical n), s.fld (Reg.arrPhys n a), 24, 2, s.boot⟩)
        (run (setF (Reg.arrPhys n a) 24) (run (setF (Reg.arrSpareFor n) a) (run (setF (Reg.arrSpareUsed n) 1)
          ((Eff.core n (s.unspared n a)).apply s)))) := by
  unfold arraySpareProg
  rw [run_withS]
  dsimp only
  rw [List.contains_iff_mem.mpr h, decide_eq_true hn, Bool.true_and, run_onlyIf_true, run_seq, run_emit_one, bit_false hu, if_neg (by decide),
    run_seqs_cons, run_seqs_cons, run_seqs_cons, run_seqs_cons, run_seqs_nil, State.unspared]

/-- What the repair of an array leaves in the array registers and the core's record. -/
theorem arraySpare_repair_regs {s : State} {n a : Nat} (hn : n < 256) (ha : a < 24) (h : a ∈ (s.core n).sparing)
    (hu : s.fld (Reg.arrSpareUsed n) = 0) :
    let t := run (arraySpareProg n a) s
    t.fld (Reg.arrSpareUsed n) = 1 ∧ t.fld (Reg.arrSpareFor n) = a ∧ t.fld (Reg.arrPhys n a) = 24 ∧ t.core n = s.unspared n a := by
  dsimp only
  rw [run_arraySpare_repair hn h hu]
  have hrep : ∀ {f : Fld} (r : RepairRec) (u : State), f.w ≤ 32 → 0x20000 ≤ f.off → (run (recordRepair r) u).fld f = u.fld f :=
    fun r u hw ho => fld_of_writes (writes_recordRepair r) u hw (by omega)
  have hphys : ∀ {f : Fld} (u : State), f.w ≤ 32 → f.off = coreBase n + 0x1008 → (run (setF (Reg.arrPhys n a) 24) u).fld f = u.fld f :=
    fun u hw ho => fld_setF_other (Nat.le_of_ble_eq_true rfl) hw (by simp only [Reg.arrPhys]; omega) 24 u
  have hfor : (Reg.arrSpareFor n).apart (Reg.arrSpareUsed n) :=
    ⟨Nat.le_of_ble_eq_true rfl, Nat.le_of_ble_eq_true rfl, .inr ⟨.inr (Nat.le_of_ble_eq_true rfl), live_arrSpareUsed hn⟩⟩
  refine ⟨?used, ?for_, ?phys, ?core⟩
  case used =>
    rw [hrep _ _ (Nat.le_of_ble_eq_true rfl) (by simp only [Reg.arrSpareUsed, coreBase]; omega), hphys _ (Nat.le_of_ble_eq_true rfl) rfl,
      fld_setF_apart hfor _ _ (Nat.le_of_ble_eq_true rfl), fld_setF (live_arrSpareUsed hn)]
    rfl
  case for_ =>
    rw [hrep _ _ (Nat.le_of_ble_eq_true rfl) (by simp only [Reg.arrSpareFor, coreBase]; omega), hphys _ (Nat.le_of_ble_eq_true rfl) rfl,
      fld_setF (live_arrSpareFor hn)]
    exact Nat.mod_eq_of_lt (by simp only [Reg.arrSpareFor]; omega)
  case phys =>
    rw [hrep _ _ (Nat.le_of_ble_eq_true rfl) (by simp only [Reg.arrPhys, coreBase]; omega), fld_setF (live_arrPhys hn ha)]
    rfl
  case core =>
    rw [core_keep (within_recordRepair (List.Subset.refl _) _), core_keep (within_setF (List.Subset.refl _) _ _),
      core_keep (within_setF (List.Subset.refl _) _ _), core_keep (within_setF (List.Subset.refl _) _ _), core_core, if_pos rfl]

theorem arraySpare_repair_recorded {s : State} {n a : Nat} (hn : n < 256) (h : a ∈ (s.core n).sparing)
    (hu : s.fld (Reg.arrSpareUsed n) = 0) :
    let t := run (arraySpareProg n a) s
    let r : RepairRec := ⟨2, n / 128, 0, s.fld (Reg.corePhysical n), s.fld (Reg.arrPhys n a), 24, 2, s.boot⟩
    t.cons.repairs = r :: s.cons.repairs ∧ Logged t (.unit 0x170) 0 .ok (.repair r) ∧ bit (t.fld Reg.rgsEvents) 1 = true := by
  dsimp only
  rw [run_arraySpare_repair hn h hu]
  obtain ⟨hcons, hlog, hevent⟩ := recordRepair_recorded ⟨2, n / 128, 0, s.fld (Reg.corePhysical n), s.fld (Reg.arrPhys n a), 24, 2, s.boot⟩
    (run (setF (Reg.arrPhys n a) 24) (run (setF (Reg.arrSpareFor n) a) (run (setF (Reg.arrSpareUsed n) 1)
      ((Eff.core n (s.unspared n a)).apply s))))
  have keep : ∀ (f : Fld) (v : Nat) (u : State), (run (setF f v) u).cons = u.cons :=
    fun f v u => changesOnly_of_within (within_setF (List.Subset.refl _) f v) (by decide) u .cons (by decide)
  rw [keep, keep, keep] at hcons
  exact ⟨hcons, hlog, hevent⟩

/-- Marking array `a` failed and its core as waiting for replacement, once the array no longer waits for the spare. -/
def markArrayFailed (s : State) (n a : Nat) : Prog :=
  seqs [emit [.core n (s.unspared n a)], setF (Reg.arrFailed n) (s.fld (Reg.arrFailed n) ||| 2 ^ a), pendCore n]

theorem writes_markArrayFailed (s : State) (n a : Nat) :
    WritesWords (· ∈ [(Reg.arrFailed n).off, (Reg.csvPending (n / 32)).off]) (markArrayFailed s n a) :=
  writes_seqs_cons (writes_emit fun e he => by rw [List.mem_singleton.mp he]; trivial)
    (writes_seqs_cons (writes_setF _ (Nat.le_of_ble_eq_true rfl) (List.mem_cons_self ..))
      (writes_seqs_cons (writes_withS fun _ => writes_setF _ (Nat.le_of_ble_eq_true rfl) (List.mem_cons_of_mem _ (List.mem_cons_self ..)))
        writes_seqs_nil))

theorem within_markArrayFailed (s : State) (n a : Nat) : Within [.reg, .core] (markArrayFailed s n a) :=
  within_seqs_cons (within_emit fun e he => by rw [List.mem_singleton.mp he]; exact List.mem_cons_of_mem _ (List.mem_cons_self ..))
    (within_seqs_cons (within_setF (by decide) _ _) (within_seqs_cons (within_pendCore (by decide) n) (within_seqs_nil _)))

/-- A faulted array that finds the spare used is marked failed, and its core waits for replacement. -/
theorem run_arraySpare_failed {s : State} {n a : Nat} (hn : n < 256) (h : a ∈ (s.core n).sparing) (hu : s.fld (Reg.arrSpareUsed n) = 1) :
    run (arraySpareProg n a) s = run (markArrayFailed s n a) s := by
  unfold arraySpareProg markArrayFailed
  rw [run_withS]
  dsimp only
  rw [List.contains_iff_mem.mpr h, decide_eq_true hn, Bool.true_and, run_onlyIf_true, bit_true hu, if_pos rfl, run_seq, run_seq,
    run_seqs_cons, run_seqs_cons, run_seqs_cons, run_seqs_nil, State.unspared]

theorem markArrayFailed_regs (s : State) {n a : Nat} (hn : n < 256) (ha : a < 24) :
    (run (markArrayFailed s n a) s).fld (Reg.arrFailed n) = s.fld (Reg.arrFailed n) ||| 2 ^ a ∧
    (run (markArrayFailed s n a) s).fld (Reg.csvPending (n / 32)) = s.fld (Reg.csvPending (n / 32)) ||| 2 ^ (n % 32) := by
  have hne : (Reg.csvPending (n / 32)).off ≠ (Reg.arrFailed n).off := by simp only [Reg.csvPending, Reg.arrFailed, coreBase]; omega
  have hw1 : (Reg.arrFailed n).w ≤ 32 := Nat.le_of_ble_eq_true rfl
  have hw2 : (Reg.csvPending (n / 32)).w ≤ 32 := Nat.le_of_ble_eq_true rfl
  have hcore : ∀ f : Fld, ((Eff.core n (s.unspared n a)).apply s).fld f = s.fld f := fun f => fld_ctl (apply_ctl _ _) f
  unfold markArrayFailed pendCore
  rw [run_seqs_cons, run_seqs_cons, run_seqs_cons, run_seqs_nil, run_emit_one, run_withS]
  refine ⟨?failed, ?pending⟩
  case failed =>
    rw [fld_setF_other hw2 hw1 hne.symm, fld_setF (live_arrFailed hn)]
    exact Nat.mod_eq_of_lt (fld_or_lt hw1 (Nat.pow_lt_pow_right (by decide) ha) s)
  case pending =>
    rw [fld_setF (live_csvPending (n / 32) (by omega)), fld_setF_other hw1 hw2 hne, hcore]
    exact Nat.mod_eq_of_lt (fld_or_lt hw2 (Nat.pow_lt_pow_right (by decide) (Nat.mod_lt n (y := 32) (by decide))) s)

theorem markArrayFailed_core (s : State) (n a : Nat) : (run (markArrayFailed s n a) s).core n = s.unspared n a := by
  unfold markArrayFailed
  rw [run_seqs_cons, run_seqs_cons, run_seqs_cons, run_seqs_nil, run_emit_one, core_keep (within_pendCore (List.Subset.refl _) n),
    core_keep (within_setF (List.Subset.refl _) _ _), core_core, if_pos rfl]

/-- What a faulted array that finds the spare used leaves: it is marked failed, its core waits, and nothing else changes. -/
theorem arraySpare_failed {s : State} {n a : Nat} (hn : n < 256) (ha : a < 24) (h : a ∈ (s.core n).sparing)
    (hu : s.fld (Reg.arrSpareUsed n) = 1) :
    let t := run (arraySpareProg n a) s
    t.fld (Reg.arrFailed n) = s.fld (Reg.arrFailed n) ||| 2 ^ a ∧
    t.fld (Reg.csvPending (n / 32)) = s.fld (Reg.csvPending (n / 32)) ||| 2 ^ (n % 32) ∧ t.core n = s.unspared n a ∧
    KeepsWords [(Reg.arrFailed n).off, (Reg.csvPending (n / 32)).off] s t ∧ ChangesOnly [.reg, .core] s t := by
  dsimp only
  rw [run_arraySpare_failed hn h hu]
  obtain ⟨hfailed, hpending⟩ := markArrayFailed_regs s hn ha
  exact ⟨hfailed, hpending, markArrayFailed_core s n a, keepsWords_of_writes (writes_markArrayFailed s n a) s,
    changesOnly_of_within (within_markArrayFailed s n a) (by decide) s⟩

/-! The statement. -/

/-- Settles O22: each command is brought to the effects it makes under its premises, and each clause is read off them. -/
theorem arraysRampSpareAndCount : Obligations.ArraysRampSpareAndCount := by
  unfold Obligations.ArraysRampSpareAndCount
  intro n s hn
  refine ⟨fun g hg => ?ramp, ?count, fun sid acc hsid => ?starve, fun a ha => ?spare⟩
  case ramp =>
    intro need up isUp rises falls
    have hrise : s.mayRise n g = true ↔ rises := by
      rw [mayRise_iff s hn hg]
      simp only [needsGroup_iff, groupUp_iff]
      rfl
    have hfall : s.mayFall n g = true ↔ falls := by
      rw [mayFall_iff s hn hg]
      simp only [needsGroup_iff, groupUp_iff]
      rfl
    refine ⟨fun h => ⟨_, rfl, rampUp_rises hn hg (hrise.mpr h)⟩, fun h => ?_, fun h => ⟨_, rfl, rampDown_falls hn (hfall.mpr h)⟩, fun h => ?_⟩
    · exact congrArg Host.Outcome.next (rampUp_stays fun hr => h (hrise.mp hr))
    · exact congrArg Host.Outcome.next (rampDown_stays fun hf => h (hfall.mp hf))
  case count =>
    obtain ⟨htiles, hmac, hbusy, hstall⟩ := arrCntClear_zero hn s
    exact ⟨_, rfl, htiles, hmac, hbusy, hstall, arrCntClear_runs hn s, keepsOutside_of_writes (writes_arrCntClear hn) s,
      changesOnly_of_within (within_arrCntClearProg (List.Subset.refl _) n) (by decide) s⟩
  case starve =>
    subst hsid
    have hs : sid < 1024 := by omega
    refine ⟨fun h => ⟨_, rfl, ?_, fun m hm => ?_, changesOnly_of_within (within_deferStarveProg (List.Subset.refl _) sid acc) (by decide) s⟩,
      fun h => congrArg Host.Outcome.next (deferStarve_stays hs h)⟩
    · rw [run_deferStarve hs h, core_core, if_pos rfl]
    · rw [run_deferStarve hs h, core_core, if_neg hm.symm]
  case spare =>
    refine ⟨fun h => congrArg Host.Outcome.next (arraySpare_stays h), fun h hu => ⟨_, rfl, ?_⟩, fun h hu => ⟨_, rfl, arraySpare_failed hn ha h hu⟩⟩
    obtain ⟨hused, hfor, hphys, hcore⟩ := arraySpare_repair_regs hn ha h hu
    exact ⟨hused, hfor, hphys, hcore, arraySpare_repair_recorded hn h hu⟩

end Sys2Proof.Machine
end

section
/-! PROOF. The course of the Curator's local commands, ROUTE and SUM (06 R160, R178): what they do before their work, and how they end. -/

namespace Sys2Proof.Machine

theorem length_leBytes (n v : Nat) : (leBytes n v).length = n := by
  induction n generalizing v with
  | zero => rfl
  | succ n ih => rw [leBytes, List.length_cons, ih]

/-- The layer record a Curator command names. -/
def State.recLayer (s : State) (d : Block64) : Layer := s.layer (daddr d 8 9 12)

/-- What a Curator's local command does before its work: START, its layer record read, its stream's registers, and `es` read. -/
def curatorLead (sid : Nat) (c : Cmd) (a op : Nat) (es : List (Nat × Nat)) : Prog :=
  seqs [startCmd sid c, touch false (requesterOf sid) a 128, showCurator sid a op 0 0, touchAll (requesterOf sid) es]

theorem within_curatorLead (sid : Nat) (c : Cmd) (a op : Nat) (es : List (Nat × Nat)) : Within cmdKinds (curatorLead sid c a op es) :=
  within_seqs_cons (within_start sid c) (within_seqs_cons (within_touch (by decide) _ _ _ _)
    (within_seqs_cons (within_showCurator (by decide) _ _ _ _ _) (within_seqs_cons (within_touchAll (by decide) _ _) (within_seqs_nil _))))

theorem run_whenReady {exts : List Ext} {s : State} (h : s.ready exts = true) (k : Prog) : run (whenReady exts k) s = run k s := by
  unfold whenReady
  rw [run_withS, if_pos h]

theorem orders_keep {ks : List Kind} {p : Prog} (hp : Within ks p) (s : State) (hk : Kind.order ∉ ks := by decide)
    (hr : Kind.restart ∉ ks := by decide) : (run p s).orders = s.orders := changesOnly_of_within hp hr s .order hk

/-- An end leaves memory and the stage orders as they are. -/
theorem endCmd_frame {sid acc : Nat} {c : Cmd} (ha : c.acc = acc) (s : State) (st : Status) :
    EndedNow (run (endCmd sid c st) s) (.stream sid) acc st ∧ (run (endCmd sid c st) s).mem = s.mem ∧
    (run (endCmd sid c st) s).orders = s.orders :=
  ⟨ha ▸ endedNow_endCmd .., mem_keep (within_end _ _ _ _) _, orders_keep (within_end _ _ _ _) _⟩

end Sys2Proof.Machine
end

section
/-! PROOF. ROUTE (06 R160–R162, R167–R169, R181): which checks end it, and what its slots, its send lists and its header leave in memory. -/

namespace Sys2Proof.Machine

/-! What ROUTE reads of the state. -/

/-- The slots of a token follow memory alone. -/
theorem tokenSlots_mem {s t : State} (h : t.mem = s.mem) (l : Layer) (m rank : Nat) (counts : List Nat) (k : Nat) :
    t.tokenSlots l m rank counts k = s.tokenSlots l m rank counts k := by
  have hreplicas : ∀ e, t.replicas l e = s.replicas l e := fun e => by unfold State.replicas State.replicaWord; rw [h]
  have hrow : t.logitRow l m k = s.logitRow l m k := by unfold State.logitRow State.matElem State.bitsAt; rw [h]
  have hscores : ∀ row, t.scores l row = s.scores l row := fun row => by unfold State.scores; rw [h]
  unfold State.tokenSlots
  simp only [hrow, hscores, hreplicas]

/-- The damage, the armed errors and the stage orders are the same. -/
structure Quiet (s t : State) : Prop where
  hurt   : t.hurt = s.hurt
  cons   : t.cons = s.cons
  orders : t.orders = s.orders

theorem Quiet.trans {s t u : State} (h : Quiet s t) (h' : Quiet t u) : Quiet s u :=
  ⟨h'.hurt.trans h.hurt, h'.cons.trans h.cons, h'.orders.trans h.orders⟩

theorem Quiet.of_within {ks : List Kind} {p : Prog} (h : Within ks p) (s : State) (hurt : Kind.hurt ∉ ks := by decide)
    (hc : Kind.cons ∉ ks := by decide) (ho : Kind.order ∉ ks := by decide) (hr : Kind.restart ∉ ks := by decide) : Quiet s (run p s) :=
  have hp := changesOnly_of_within h hr s
  ⟨hp .hurt hurt, hp .cons hc, hp .order ho⟩

theorem writeHurt_congr {s t : State} (h : t.hurt = s.hurt) (a n : Nat) : t.writeHurt a n = s.writeHurt a n := by
  unfold State.writeHurt
  rw [h]

/-! Slots written. -/

theorem Slot.length_bytes (x : Slot) : x.bytes.length = 16 := by
  unfold Slot.bytes
  simp only [List.length_append, length_leBytes]

/-- A write that is shorter than a line or bank word covers none, and clears no damage. -/
theorem run_clearHurt_short {a len : Nat} (h : len < 64) (s : State) : run (clearHurt a len) s = s := by
  have hnone : ((hurtKeys a len).filter fun k => a ≤ k && k + hurtSize a ≤ a + len && (nget s.hurt k).isSome) = [] := by
    refine List.filter_eq_nil_iff.mpr fun k _ hk => ?_
    simp only [Bool.and_eq_true, decide_eq_true_eq] at hk
    have hsize : 64 ≤ hurtSize a := by unfold hurtSize; split <;> decide
    omega
  unfold clearHurt
  rw [run_withS, hnone]
  rfl

theorem run_injectWrite_disarmed {s : State} (h : s.cons.armed = []) (a len : Nat) : run (injectWrite a len) s = s := by
  unfold injectWrite
  rw [run_withS, h]
  rfl

/-- Bytes stored one after another. -/
theorem mem_applyAll_bytes (a : Nat) (bs : List (Byte × Nat)) (s : State) :
    (applyAll (bs.map fun p => Eff.memB (a + p.2) p.1) s).mem = bs.foldl (fun m b => setByte m (a + b.2) b.1) s.mem := by
  induction bs generalizing s with
  | nil => rfl
  | cons b bs ih => exact ih _

theorem mem_writeBytes (who : Requester) (a : Nat) (bs : List Byte) (s : State) :
    (run (writeBytes who a bs) s).mem = setPieces s.mem [(a, bs)] := by
  unfold writeBytes
  rw [run_seqs_cons, run_seqs_cons, run_seqs_cons, run_seqs_cons, run_seqs_nil, mem_keep (within_injectWrite (List.Subset.refl _) _ _),
    mem_keep (within_clearHurt (List.Subset.refl _) _ _), run_emit, mem_applyAll_bytes, mem_keep (within_touch (List.Subset.refl _) _ _ _ _)]
  rfl

/-- A short write with no error armed leaves the damage, the armed errors and the stage orders. -/
theorem quiet_writeBytes {s : State} (harm : s.cons.armed = []) {bs : List Byte} (h : bs.length < 64) (who : Requester) (a : Nat) :
    Quiet s (run (writeBytes who a bs) s) := by
  have htouch := Quiet.of_within (within_touch (List.Subset.refl _) true who a bs.length) s
  have hemit := Quiet.of_within (ks := [.mem]) (p := emit (bs.zipIdx.map fun p => Eff.memB (a + p.2) p.1))
    (within_emit_map fun _ => List.mem_cons_self ..) (run (touch true who a bs.length) s)
  unfold writeBytes
  rw [run_seqs_cons, run_seqs_cons, run_seqs_cons, run_seqs_cons, run_seqs_nil, run_clearHurt_short h,
    run_injectWrite_disarmed (by rw [(htouch.trans hemit).cons, harm])]
  exact htouch.trans hemit

/-- The pieces of some slots of token `k`. -/
def routePieces (l : Layer) (k : Nat) (xs : List (Slot × Nat)) : List (Nat × List Byte) := xs.map fun y => (slotAddr l k y.2, y.1.bytes)

/-- The slots of a token are written one by one. -/
theorem run_slots (who : Requester) (l : Layer) (k : Nat) (xs : List (Slot × Nat)) {s : State} (harm : s.cons.armed = []) :
    (run (forEach xs fun x => writeBytes who (slotAddr l k x.2) x.1.bytes) s).mem = setPieces s.mem (routePieces l k xs) ∧
    Quiet s (run (forEach xs fun x => writeBytes who (slotAddr l k x.2) x.1.bytes) s) := by
  induction xs generalizing s with
  | nil => exact ⟨rfl, rfl, rfl, rfl⟩
  | cons x xs ih =>
    have hquiet := quiet_writeBytes harm (by rw [Slot.length_bytes]; decide : x.1.bytes.length < 64) who (slotAddr l k x.2)
    obtain ⟨hmem, hrest⟩ := ih (s := run (writeBytes who (slotAddr l k x.2) x.1.bytes) s) (by rw [hquiet.cons, harm])
    rw [run_forEach_cons]
    refine ⟨?_, hquiet.trans hrest⟩
    rw [hmem, mem_writeBytes]
    rfl

/-- ROUTE's tokens: it goes on, with the tokens written and the one that stops it, from a state that holds the memory `routeOn` tells. -/
theorem run_routeRows (who : Requester) (l : Layer) (m : Nat) (k : List (Nat × List Slot) → Option Nat → Prog) (s : State) (ts : List Nat)
    (counts : List Nat) (done : List (Nat × List Slot)) {u : State} (harm : u.cons.armed = []) :
    let res := routeOn l m counts ts u.mem s
    ∃ v, run (routeRows who l m k ts counts done) u = run (k (res.2.1.reverse ++ done) res.2.2) v ∧ v.mem = res.1 ∧ Quiet u v := by
  induction ts generalizing counts done u with
  | nil => exact ⟨u, rfl, rfl, rfl, rfl, rfl⟩
  | cons t ts ih =>
    have hslots : u.tokenSlots l m l.rank counts t = { s with mem := u.mem }.tokenSlots l m l.rank counts t := tokenSlots_mem rfl ..
    unfold routeRows routeOn
    rw [run_withS, hslots]
    cases { s with mem := u.mem }.tokenSlots l m l.rank counts t with
    | none => exact ⟨u, rfl, rfl, rfl, rfl, rfl⟩
    | some slots =>
      obtain ⟨hmem, hquiet⟩ := run_slots who l t slots.zipIdx harm
      obtain ⟨v, hv, hvmem, hvquiet⟩ := ih (countRoutes counts slots) ((t, slots) :: done) (by rw [hquiet.cons, harm])
      rw [hmem] at hv hvmem
      refine ⟨v, ?_, hvmem, hquiet.trans hvquiet⟩
      dsimp only
      rw [run_seq, hv, List.reverse_cons, List.append_assoc]
      rfl

theorem wf_setPieces {m : List Host.Cell} (h : Memory.wf m) (ps : List (Nat × List Byte)) : Memory.wf (setPieces m ps) :=
  wf_foldl _ (fun _ _ hm => wf_foldl _ (fun _ _ hm => wf_setByte hm _ _) _ hm) ps h

theorem wf_routeOn (l : Layer) (m : Nat) (s : State) (ts counts : List Nat) {mem : List Host.Cell} (h : Memory.wf mem) :
    Memory.wf (routeOn l m counts ts mem s).1 := by
  induction ts generalizing counts mem with
  | nil => exact h
  | cons t ts ih =>
    unfold routeOn
    split
    · exact h
    · exact ih _ (wf_setPieces h _)

/-! How ROUTE ends. -/

/-- An end of ROUTE leaves memory, and the stage order of its record is fresh or gone. -/
theorem routeEnd_frame {sid acc : Nat} {c : Cmd} (ha : c.acc = acc) (l : Layer) (st : Status) (s : State) :
    EndedNow (run (routeEnd sid c l st) s) (.stream sid) acc st ∧ (run (routeEnd sid c l st) s).mem = s.mem ∧
    (run (routeEnd sid c l st) s).orders = nput s.orders l.routeAddr (if st = .ok then some (RouteOrder.fresh sid c.acc) else none) := by
  unfold routeEnd
  rw [run_seq, run_emit_one]
  obtain ⟨hend, hmem, horders⟩ := endCmd_frame ha
    ((Eff.order l.routeAddr (if st = .ok then some (RouteOrder.fresh sid c.acc) else none)).apply s) st
  exact ⟨hend, hmem, horders.trans (apply_orders _ _)⟩

/-- A ROUTE that completes begins a fresh stage order. -/
theorem routeEnd_fresh {sid acc : Nat} {c : Cmd} (ha : c.acc = acc) (l : Layer) (s : State) :
    nget (run (routeEnd sid c l .ok) s).orders l.routeAddr = some (RouteOrder.fresh sid acc) := by
  obtain ⟨-, -, horders⟩ := routeEnd_frame ha l .ok s
  rw [horders, if_pos rfl, ha]
  exact nget_nset_self _ _ _

/-- A ROUTE that fails leaves no stage order. -/
theorem routeEnd_none {sid acc : Nat} {c : Cmd} (ha : c.acc = acc) (l : Layer) {st : Status} (hst : st ≠ .ok) {s : State}
    (h : NMap.Rising s.orders) : nget (run (routeEnd sid c l st) s).orders l.routeAddr = none := by
  obtain ⟨-, -, horders⟩ := routeEnd_frame ha l st s
  rw [horders, if_neg hst]
  exact nget_ndel_self h _

/-! ROUTE's work. -/

/-- The routes counted and the progress marks, once the slots of `ts` are written. -/
def routeTally (sid : Nat) (c : Cmd) (ts : List (Nat × List Slot)) : Prog :=
  seq (incF Reg.curRoutes ((ts.map fun t => t.2.length).foldl (· + ·) 0)) (routeMarks sid c ts.length)

theorem within_routeTally (sid : Nat) (c : Cmd) (ts : List (Nat × List Slot)) : Within cmdKinds (routeTally sid c ts) :=
  within_seq (within_incF (by decide) _ _) (within_routeMarks (by decide) _ _ _)

/-- The count and the event of a row that ends ROUTE. -/
def routeNonfinite (sid : Nat) (c : Cmd) (l : Layer) (t : Nat) : Prog :=
  seq (incF Reg.curNonfinite) (logEv (.stream sid) c.acc .numericFail (dTag c.desc) false (.numeric t 0 l.logitFmt 0 0))

theorem within_routeNonfinite (sid : Nat) (c : Cmd) (l : Layer) (t : Nat) : Within cmdKinds (routeNonfinite sid c l t) :=
  within_seq (within_incF (by decide) _ _) (within_logEv (by decide) _ _ _ _ _ _)

/-- The send lists and the header of a record of `m` tokens, in the order ROUTE writes them. -/
def routeTail (c : Cmd) (l : Layer) (m : Nat) (ts : List (Nat × List Slot)) : List (Nat × List Byte) :=
  [(l.sendAddr, sendBytes (sendLists l.members ts)), (l.routeAddr, headerBytes m l.k 0 false l.placeGen (dTag c.desc) 0)]

theorem run_routeTail (who : Requester) (c : Cmd) (l : Layer) (m : Nat) (ts : List (Nat × List Slot)) (s : State) :
    run (writePieces who (routeTail c l m ts)) s =
      run (writeBytes who l.routeAddr (headerBytes m l.k 0 false l.placeGen (dTag c.desc) 0))
        (run (writeBytes who l.sendAddr (sendBytes (sendLists l.members ts))) s) := by
  unfold writePieces routeTail
  rw [run_forEach_cons, run_forEach_cons, run_forEach_nil]

section
variable {l : Layer} {m : Nat} {s u : State} (hmem : u.mem = s.mem) (harm : u.cons.armed = [])
include hmem harm

/-- ROUTE stops at a token whose row is bad, with the slots of the tokens before it written. -/
theorem run_routeWork_bad (sid : Nat) (c : Cmd) {t : Nat} (h : (routeOn l m (List.replicate l.experts 0) (List.range m) s.mem s).2.2 = some t) :
    ∃ w, run (routeWork sid c l m) u = run (routeEnd sid c l .numericFail) w ∧
      w.mem = (routeOn l m (List.replicate l.experts 0) (List.range m) s.mem s).1 ∧ w.orders = u.orders := by
  have hrows := fun k => run_routeRows (requesterOf sid) l m k s (List.range m) (List.replicate l.experts 0) [] harm
  rw [hmem] at hrows
  generalize routeOn l m (List.replicate l.experts 0) (List.range m) s.mem s = res at h hrows ⊢
  unfold routeWork
  dsimp only
  obtain ⟨v, hv, hvmem, hquiet⟩ := hrows _
  have hkinds := within_seq (within_routeTally sid c res.2.1) (within_routeNonfinite sid c l t)
  refine ⟨run (seq (routeTally sid c res.2.1) (routeNonfinite sid c l t)) v, ?_, (mem_keep hkinds v).trans hvmem,
    (orders_keep hkinds v).trans hquiet.orders⟩
  rw [hv, h, List.append_nil, List.reverse_reverse]
  simp only [run_seqs_cons, run_seqs_nil, run_seq, routeTally, routeNonfinite]

/-- ROUTE over tokens with good rows goes on to the send lists, the header, the histogram and its end. -/
theorem run_routeWork_ok (sid : Nat) (c : Cmd) (h : (routeOn l m (List.replicate l.experts 0) (List.range m) s.mem s).2.2 = none)
    (hw : u.writeHurt l.sendAddr (sendBytes (sendLists l.members
      (routeOn l m (List.replicate l.experts 0) (List.range m) s.mem s).2.1)).length = none) :
    let res := routeOn l m (List.replicate l.experts 0) (List.range m) s.mem s
    ∃ w, run (routeWork sid c l m) u = run (routeEnd sid c l .ok) (run (addChosen (requesterOf sid) l res.2.1)
      (run (writePieces (requesterOf sid) (routeTail c l m res.2.1)) w)) ∧ w.mem = res.1 := by
  have hrows := fun k => run_routeRows (requesterOf sid) l m k s (List.range m) (List.replicate l.experts 0) [] harm
  rw [hmem] at hrows
  generalize routeOn l m (List.replicate l.experts 0) (List.range m) s.mem s = res at h hrows hw ⊢
  unfold routeWork
  dsimp only
  obtain ⟨v, hv, hvmem, hquiet⟩ := hrows _
  have htally := Quiet.of_within (within_routeTally sid c res.2.1) v
  have hw' : (run (routeTally sid c res.2.1) v).writeHurt l.sendAddr (sendBytes (sendLists l.members res.2.1)).length = none := by
    rw [writeHurt_congr (hquiet.trans htally).hurt, hw]
  refine ⟨run (routeTally sid c res.2.1) v, ?_, (mem_keep (within_routeTally sid c res.2.1) v).trans hvmem⟩
  rw [hv, h, List.append_nil, List.reverse_reverse]
  rw [routeTally, run_seq] at hw' ⊢
  rw [run_seqs_cons, run_seqs_cons, run_seqs_cons, run_seqs_nil, run_withS, hw']
  dsimp only
  rw [run_seqs_cons, run_seqs_cons, run_seqs_cons, run_seqs_cons, run_seqs_nil, run_routeTail]
end

/-- Without a histogram ROUTE counts no routes in memory. -/
theorem run_addChosen_none {l : Layer} (h : l.histEn = false) (who : Requester) (ts : List (Nat × List Slot)) (s : State) :
    run (addChosen who l ts) s = s := by
  unfold addChosen
  dsimp only
  rw [h, run_onlyIf_false]

/-! The course of ROUTE. -/

/-- Tokens a ROUTE is given. -/
def State.routeTokens (s : State) (sid : Nat) (d : Block64) : Nat := s.countOf sid d 0 (dword d 10)

/-- A layer's record and send lists hold `m` tokens. -/
def Layer.holds (l : Layer) (m : Nat) : Prop := 64 + 16 * m * l.k ≤ lfld l 14 0 32 ∧ 2048 + 8 * m * min l.k l.members ≤ lfld l 15 0 32

/-- The accesses of a ROUTE of `m` tokens. -/
def routeExts (l : Layer) (m : Nat) : List Ext :=
  [(true, l.routeAddr, 64 + 16 * m * l.k), (true, l.sendAddr, 2048 + 8 * m * min l.k l.members)] ++ l.histExts ++ readExts (routeReads l m)

/-- A ROUTE with a bad layer record or shape word ends with that status. -/
theorem routeProg_fault {s : State} {sid acc : Nat} {c : Cmd} (ha : c.acc = acc) {st : Status}
    (h : (s.layerFault (daddr c.desc 8 9 12)).or (s.shapeFault sid c.desc) = some st) :
    EndedNow (run (routeProg sid c) s) (.stream sid) acc st ∧ (run (routeProg sid c) s).mem = s.mem := by
  have hroute : ∀ l, EndedNow (run (routeEnd sid c l st) s) (.stream sid) acc st ∧ (run (routeEnd sid c l st) s).mem = s.mem := fun l =>
    have hend := routeEnd_frame ha l st s
    ⟨hend.1, hend.2.1⟩
  unfold routeProg
  rw [run_withS]
  dsimp only
  cases hl : s.layerFault (daddr c.desc 8 9 12) with
  | some x =>
    rw [hl] at h
    obtain rfl : x = st := Option.some.inj h
    dsimp only
    split
    · exact hroute _
    · have hend := endCmd_frame (sid := sid) ha s x
      exact ⟨hend.1, hend.2.1⟩
  | none =>
    rw [hl] at h
    have hs : s.shapeFault sid c.desc = some st := h
    dsimp only
    rw [hs]
    exact hroute _

section
variable {s : State} {sid : Nat} {c : Cmd} (hl : s.layerFault (daddr c.desc 8 9 12) = none) (hs : s.shapeFault sid c.desc = none)
include hl hs

/-- A ROUTE of more than 262,144 tokens ends with DESCRIPTOR_FAULT. -/
theorem run_routeProg_many (hm : 262144 < s.routeTokens sid c.desc) :
    run (routeProg sid c) s = run (routeEnd sid c (s.recLayer c.desc) .descriptorFault) s := by
  unfold State.routeTokens at hm
  unfold routeProg
  rw [run_withS]
  dsimp only
  rw [hl]
  dsimp only
  rw [hs]
  dsimp only
  rw [if_pos hm, State.recLayer]

/-- A ROUTE of no tokens completes. -/
theorem run_routeProg_empty (hm : s.routeTokens sid c.desc = 0) : run (routeProg sid c) s = run (routeEnd sid c (s.recLayer c.desc) .ok) s := by
  unfold State.routeTokens at hm
  unfold routeProg
  rw [run_withS]
  dsimp only
  rw [hl]
  dsimp only
  rw [hs]
  dsimp only
  rw [if_neg (by omega), if_pos hm, State.recLayer]

variable {m : Nat} (hm : s.routeTokens sid c.desc = m) (hpos : 0 < m) (hmax : m ≤ 262144)
include hm hpos hmax

/-- A ROUTE over a capacity ends with SIZE_FAULT. -/
theorem run_routeProg_full (h : ¬ (s.recLayer c.desc).holds m) :
    run (routeProg sid c) s = run (routeEnd sid c (s.recLayer c.desc) .sizeFault) s := by
  have hfull : (decide (lfld (s.recLayer c.desc) 14 0 32 < 64 + 16 * m * (s.recLayer c.desc).k) ||
      decide (lfld (s.recLayer c.desc) 15 0 32 < 2048 + 8 * m * min (s.recLayer c.desc).k (s.recLayer c.desc).members)) = true := by
    unfold Layer.holds at h
    rw [Bool.or_eq_true, decide_eq_true_iff, decide_eq_true_iff]
    omega
  unfold State.routeTokens at hm
  unfold State.recLayer at hfull ⊢
  unfold routeProg
  rw [run_withS]
  dsimp only
  rw [hl]
  dsimp only
  rw [hs]
  dsimp only
  rw [hm, if_neg (by omega), if_neg (by omega)]
  dsimp only [firstFault]
  rw [if_pos hfull]

/-- A ROUTE that passes every check and that nothing holds up leads and does its work. -/
theorem run_routeProg {l : Layer} (hlayer : s.recLayer c.desc = l) (h : l.holds m)
    (hexts : s.routeExtentsOk (requesterOf sid) l m = true) (hplace : s.placeOk l = true) (hready : s.ready (routeExts l m) = true)
    (hread : s.anyHurt (routeReads l m ++ [(l.routeAddr, 64 + 16 * m * l.k)]) = none) (hhist : s.histFault (requesterOf sid) l = none) :
    run (routeProg sid c) s = run (routeWork sid c l m) (run (curatorLead sid c (daddr c.desc 8 9 12) 0 (routeReads l m)) s) := by
  obtain ⟨hrec, hsend⟩ := h
  have hroom : (decide (lfld l 14 0 32 < 64 + 16 * m * l.k) || decide (lfld l 15 0 32 < 2048 + 8 * m * min l.k l.members)) = false := by
    rw [decide_eq_false (Nat.not_lt.mpr hrec), decide_eq_false (Nat.not_lt.mpr hsend)]
    rfl
  have htable : s.readHurt l.placeAddr (64 + 64 * l.experts) = none :=
    List.findSome?_eq_none_iff.mp hread (l.placeAddr, 64 + 64 * l.experts)
      (List.mem_append_left _ (List.mem_cons_of_mem _ (List.mem_cons_self ..)))
  unfold State.routeTokens at hm
  unfold State.recLayer at hlayer
  unfold routeProg
  rw [run_withS]
  dsimp only
  rw [hl]
  dsimp only
  rw [hs]
  dsimp only
  rw [hm, hlayer, if_neg (by omega), if_neg (by omega), hroom, hexts]
  dsimp only [firstFault]
  rw [if_neg Bool.false_ne_true, if_neg (by decide)]
  dsimp only
  rw [htable, hplace]
  dsimp only
  rw [if_neg (by decide), ← routeExts, run_whenReady hready, hread, hhist]
  simp only [run_seqs_cons, run_seqs_nil, curatorLead, Option.or, run_seq]
end

/-! The statement. -/

/-- Settles O23: a ROUTE ends at its first failing check, or is its lead and its work; the lead leaves memory, damage, armed errors and orders,
and the work writes the slots `routeOn` tells, then, unless a row stops it, the send lists and the header. -/
theorem routeWritesItsRecordAndLists : Obligations.RouteWritesItsRecordAndLists := by
  unfold Obligations.RouteWritesItsRecordAndLists
  intro sid acc s c hwf horders _ _ hc l m res lists tail fits
  have hacc : c.acc = acc := (issuedCmd_acc hc).1
  have hrun : run (onIssued sid acc 0x10 0 (routeProg sid)) s = run (routeProg sid c) s := run_onIssued hc _
  refine ⟨fun st hst => ⟨_, rfl, ?fault⟩, fun hl hs => ⟨fun h0 => ⟨_, rfl, ?empty⟩, fun hmany => ⟨_, rfl, ?many⟩,
    fun hpos hmax hfull => ⟨_, rfl, ?full⟩,
    fun hpos hmax hfits hexts hplace hready hread hhist hwrite harm => ?work⟩⟩
  case fault => exact hrun ▸ routeProg_fault hacc hst
  case empty =>
    rw [hrun, run_routeProg_empty hl hs h0]
    obtain ⟨hend, hmem, -⟩ := routeEnd_frame hacc l .ok s
    exact ⟨hend, routeEnd_fresh hacc l s, hmem⟩
  case many =>
    rw [hrun, run_routeProg_many hl hs hmany]
    obtain ⟨hend, hmem, -⟩ := routeEnd_frame hacc l .descriptorFault s
    exact ⟨hend, hmem⟩
  case full =>
    rw [hrun, run_routeProg_full hl hs rfl hpos hmax hfull]
    obtain ⟨hend, hmem, -⟩ := routeEnd_frame hacc l .sizeFault s
    exact ⟨hend, hmem⟩
  case work =>
    have hm : s.routeTokens sid c.desc = m := rfl
    have hcourse := run_routeProg hl hs hm hpos hmax (l := l) rfl hfits hexts hplace hready hread hhist
    have hlead := within_curatorLead sid c (daddr c.desc 8 9 12) 0 (routeReads l m)
    generalize hu : run (curatorLead sid c (daddr c.desc 8 9 12) 0 (routeReads l m)) s = u at hcourse
    have hmem : u.mem = s.mem := hu ▸ mem_keep hlead s
    have hquiet : Quiet s u := hu ▸ Quiet.of_within hlead s
    have hdisarmed : u.cons.armed = [] := by rw [hquiet.cons, harm]
    refine ⟨fun hok => ⟨_, rfl, ?ok⟩, fun t ht => ⟨_, rfl, ?bad⟩⟩
    case ok =>
      have hroom : u.writeHurt l.sendAddr (sendBytes (sendLists l.members res.2.1)).length = none := by
        rw [writeHurt_congr hquiet.hurt]
        exact hwrite
      obtain ⟨w, hwork, hwmem⟩ := run_routeWork_ok hmem hdisarmed sid c hok hroom
      rw [hrun, hcourse, hwork]
      obtain ⟨hend, hbytes, -⟩ := routeEnd_frame hacc l .ok
        (run (addChosen (requesterOf sid) l res.2.1) (run (writePieces (requesterOf sid) (routeTail c l m res.2.1)) w))
      refine ⟨hend, routeEnd_fresh hacc l _, fun hhist a => ?_⟩
      have hwf' : Memory.wf w.mem := hwmem ▸ wf_routeOn l m s _ _ hwf
      rw [hbytes, run_addChosen_none hhist, (byte_pieces _ _ w hwf'.1 a).1, hwmem]
      rfl
    case bad =>
      obtain ⟨w, hwork, hwmem, hworders⟩ := run_routeWork_bad hmem hdisarmed sid c ht
      rw [hrun, hcourse, hwork]
      obtain ⟨hend, hbytes, -⟩ := routeEnd_frame hacc l .numericFail w
      refine ⟨hend, routeEnd_none hacc l (by decide) (by rw [hworders, hquiet.orders]; exact horders), fun a => ?_⟩
      rw [hbytes, hwmem]

end Sys2Proof.Machine
end

section
/-! PROOF. SUM (06 R178, R180, R181) and the Curator's counters (06 R187): which checks end a SUM, and what its rows leave in memory. -/

namespace Sys2Proof.Machine

/-! Bytes that two states share. -/

/-- Two states hold the same `len` bytes from `a`. -/
def SameBytes (s t : State) (a len : Nat) : Prop := ∀ x, a ≤ x → x < a + len → byteAt t.mem x = byteAt s.mem x

theorem SameBytes.of_mem {s t : State} (h : t.mem = s.mem) (a len : Nat) : SameBytes s t a len := fun _ _ _ => by rw [h]

theorem SameBytes.trans {s t u : State} {a len : Nat} (h : SameBytes s t a len) (h' : SameBytes t u a len) : SameBytes s u a len :=
  fun x hlo hhi => (h' x hlo hhi).trans (h x hlo hhi)

/-- What is written apart from an extent leaves its bytes. -/
theorem SameBytes.of_stores {P : Nat → Prop} {p : Prog} (h : WritesBytes P p) {a len : Nat}
    (hP : ∀ x, a ≤ x → x < a + len → ¬ P x) (s : State) :
    SameBytes s (run p s) a len := fun x hlo hhi => byte_of_writes h s (hP x hlo hhi)

section
variable {s t : State} {a len : Nat} (h : SameBytes s t a len)
include h

theorem bytesAt_same {b n : Nat} (hlo : a ≤ b) (hhi : b + n ≤ a + len) : bytesAt t.mem b n = bytesAt s.mem b n :=
  List.map_congr_left fun i hi => by
    have := List.mem_range.mp hi
    exact h _ (by omega) (by omega)

/-- A code of `w` bits at bit `b` lies in the whole bytes that hold its bits. -/
theorem bitsAt_same {b w : Nat} (hb : b + w ≤ 8 * len) : t.bitsAt a b w = s.bitsAt a b w := by
  unfold State.bitsAt
  dsimp only
  rw [bytesAt_same h (by omega) (by omega)]
end

/-! Matrices. -/

theorem lt_cdiv {i n : Nat} (hi : i < n) : i / 16 < cdiv n 16 := by unfold cdiv; omega

/-- The row of tiles and the tile of a row, counted together, stay within the tiles of a matrix. -/
theorem tile_lt (m : Mat) {r k : Nat} (hr : r < m.rows) (hk : k < cdiv m.cols 16) : r / 16 * cdiv m.cols 16 + k < m.tiles :=
  calc r / 16 * cdiv m.cols 16 + k < r / 16 * cdiv m.cols 16 + cdiv m.cols 16 := by omega
    _ = (r / 16 + 1) * cdiv m.cols 16 := by rw [Nat.add_mul, Nat.one_mul]
    _ ≤ m.tiles := Nat.mul_le_mul_right _ (lt_cdiv hr)

theorem index_lt (m : Mat) {r c : Nat} (hr : r < m.rows) (hc : c < m.cols) : m.index r c < 256 * m.tiles := by
  have := tile_lt m hr (lt_cdiv hc)
  unfold Mat.index
  omega

/-- The bits of `n` groups of `c * w` bytes. -/
theorem bits_of_groups (n c w : Nat) : 8 * (n * (c * w)) = 8 * c * n * w := by
  rw [Nat.mul_left_comm n, ← Nat.mul_assoc 8, ← Nat.mul_assoc (8 * c)]

/-- An element of a matrix that is not block-scaled is read from its element tiles. -/
theorem matElem_same {s t : State} {m : Mat} (h : SameBytes s t m.base m.tileBytes) (hf : fmtScaled m.fmt = false) {r c : Nat} (hr : r < m.rows)
    (hc : c < m.cols) : t.matElem m r c = s.matElem m r c := by
  have hbits : m.index r c * fmtBits m.fmt + fmtBits m.fmt ≤ 8 * m.tileBytes :=
    calc m.index r c * fmtBits m.fmt + fmtBits m.fmt = (m.index r c + 1) * fmtBits m.fmt := (Nat.succ_mul _ _).symm
      _ ≤ 256 * m.tiles * fmtBits m.fmt := Nat.mul_le_mul_right _ (index_lt m hr hc)
      _ = 8 * m.tileBytes := (bits_of_groups m.tiles 32 (fmtBits m.fmt)).symm
  unfold State.matElem
  dsimp only
  rw [hf, bitsAt_same h hbits]
  rfl

/-- The pieces of a row lie within the element tiles of their matrix. -/
theorem rowPieces_inside {m : Mat} {r : Nat} (hr : r < m.rows) (codes : List Nat) {p : Nat × List Byte} (hp : p ∈ rowPieces m r codes) :
    m.base ≤ p.1 ∧ p.1 + p.2.length ≤ m.base + m.tileBytes := by
  obtain ⟨k, hk, rfl⟩ := List.mem_map.mp hp
  have htile := tile_lt m hr (List.mem_range.mp hk)
  generalize hw : fmtBits m.fmt = w
  have hlen : (packCodes w ((codes.drop (16 * k)).take 16)).length ≤ 2 * w := by
    have h16 : ((codes.drop (16 * k)).take 16).length * w ≤ 16 * w := Nat.mul_le_mul_right _ (List.length_take_le _ _)
    unfold packCodes cdiv
    rw [length_leBytes]
    omega
  have hindex : m.index r (16 * k) = 16 * ((r / 16 * cdiv m.cols 16 + k) * 16 + r % 16) := by unfold Mat.index; omega
  have hoff : m.index r (16 * k) * w / 8 = ((r / 16 * cdiv m.cols 16 + k) * 16 + r % 16) * (2 * w) := by
    rw [hindex, ← bits_of_groups _ 2 w, Nat.mul_div_cancel_left _ (by decide)]
  have hend : ((r / 16 * cdiv m.cols 16 + k) * 16 + r % 16) * (2 * w) + 2 * w ≤ m.tileBytes :=
    calc ((r / 16 * cdiv m.cols 16 + k) * 16 + r % 16) * (2 * w) + 2 * w
        = ((r / 16 * cdiv m.cols 16 + k) * 16 + r % 16 + 1) * (2 * w) := (Nat.succ_mul _ _).symm
      _ ≤ 16 * m.tiles * (2 * w) := Nat.mul_le_mul_right _ (by omega)
      _ = m.tileBytes := by unfold Mat.tileBytes; rw [hw, Nat.mul_comm 16, Nat.mul_assoc, ← Nat.mul_assoc 16]
  refine ⟨Nat.le_add_right _ _, ?_⟩
  show m.base + m.index r (16 * k) * w / 8 + (packCodes w ((codes.drop (16 * k)).take 16)).length ≤ m.base + m.tileBytes
  rw [hoff]
  omega

/-! Pieces written in order. -/

theorem run_writePieces_append (who : Requester) (ps qs : List (Nat × List Byte)) (s : State) :
    run (writePieces who (ps ++ qs)) s = run (writePieces who qs) (run (writePieces who ps) s) := by
  induction ps generalizing s with
  | nil => rfl
  | cons p ps ih =>
    have hcons : ∀ (l : List (Nat × List Byte)), run (writePieces who (p :: l)) s = run (writePieces who l) (run (writeBytes who p.1 p.2) s) :=
      fun l => run_forEach_cons _ _ _ _
    rw [List.cons_append, hcons, hcons, ih]

/-! Elements of SUM. -/

/-- Slot `i` of token `k` of a record of `m` tokens is read from the record. -/
theorem slotAt_same {s t : State} {l : Layer} {m : Nat} (h : SameBytes s t l.routeAddr (64 + 16 * m * l.k)) {k i : Nat} (hk : k < m) (hi : i < l.k) :
    t.slotAt l k i = s.slotAt l k i := by
  have hroute : (k + 1) * l.k ≤ m * l.k := Nat.mul_le_mul_right _ hk
  rw [Nat.succ_mul] at hroute
  unfold State.slotAt
  rw [bytesAt_same h (by unfold slotAddr; omega) (by unfold slotAddr; rw [Nat.mul_assoc]; omega)]

theorem unscaled_of_le {fmt : Nat} (h : fmt ≤ 3) : fmtScaled fmt = false := by
  unfold fmtScaled
  rw [decide_eq_false (by omega), Bool.false_and]

/-- An element of SUM is made of the slots of its token and of their rows of the route buffer. -/
theorem sumElem_same {s t : State} {l : Layer} {m base fmt : Nat} (hf : fmtScaled fmt = false)
    (hsrc : SameBytes s t base (routeBuffer l base fmt m).tileBytes) (hrec : SameBytes s t l.routeAddr (64 + 16 * m * l.k)) (weighted : Bool)
    {k i : Nat} (hk : k < m) (hi : i < l.h) :
    t.sumElem l (routeBuffer l base fmt m) weighted k i = s.sumElem l (routeBuffer l base fmt m) weighted k i := by
  unfold State.sumElem
  refine List.foldl_rel (r := Eq) rfl fun r hr a b hab => ?_
  subst hab
  have hr := List.mem_range.mp hr
  have hrow : k * l.k + r < m * l.k :=
    calc k * l.k + r < (k + 1) * l.k := by rw [Nat.succ_mul]; omega
      _ ≤ m * l.k := Nat.mul_le_mul_right _ hk
  rw [slotAt_same hrec hk hr, matElem_same (m := routeBuffer l base fmt m) hsrc hf hrow hi]

/-- The codes of token `k`'s row of SUM (06 R178). -/
def State.sumRow (s : State) (l : Layer) (src : Mat) (weighted : Bool) (fmt k : Nat) : List Nat :=
  (List.range l.h).map fun i => enc (elemFmt fmt) (fp32.decode (s.sumElem l src weighted k i))

/-- The rows of some tokens are computed and written, each from the memory that the rows before it leave. -/
def sumRows (who : Requester) (l : Layer) (src out : Mat) (weighted : Bool) (ks : List Nat) : Prog :=
  forEach ks fun k => withS fun u => writePieces who (rowPieces out k (u.sumRow l src weighted out.fmt k))

section
variable {s : State} {l : Layer} {m base fmt : Nat} {out : Mat} (hf : fmtScaled fmt = false) (hout : out.rows = m)
  (hsrc : out.base + out.tileBytes ≤ base ∨ base + (routeBuffer l base fmt m).tileBytes ≤ out.base)
  (hrec : out.base + out.tileBytes ≤ l.routeAddr ∨ l.routeAddr + (64 + 16 * m * l.k) ≤ out.base)
include hf hout hsrc hrec

/-- Where the output lies apart from the source and the record, every row is computed from the bytes SUM started with. -/
theorem run_sumRows (who : Requester) (weighted : Bool) (ks : List Nat) (hks : ∀ k ∈ ks, k < m) (u : State)
    (husrc : SameBytes s u base (routeBuffer l base fmt m).tileBytes) (hurec : SameBytes s u l.routeAddr (64 + 16 * m * l.k)) :
    run (sumRows who l (routeBuffer l base fmt m) out weighted ks) u =
      run (writePieces who (ks.flatMap fun k => rowPieces out k (s.sumRow l (routeBuffer l base fmt m) weighted out.fmt k))) u := by
  induction ks generalizing u with
  | nil => rfl
  | cons k ks ih =>
    have hk : k < m := hks k (List.mem_cons_self ..)
    have hrow : u.sumRow l (routeBuffer l base fmt m) weighted out.fmt k = s.sumRow l (routeBuffer l base fmt m) weighted out.fmt k :=
      List.map_congr_left fun i hi => by rw [sumElem_same hf husrc hurec weighted hk (List.mem_range.mp hi)]
    have hkeep : ∀ {a len : Nat}, out.base + out.tileBytes ≤ a ∨ a + len ≤ out.base → SameBytes u
        (run (writePieces who (rowPieces out k (s.sumRow l (routeBuffer l base fmt m) weighted out.fmt k))) u) a len := by
      intro a len hapart
      refine .of_stores (stores_writePieces who _) (fun x hlo hhi ⟨p, hp, hx⟩ => ?_) u
      have := rowPieces_inside (hout ▸ hk) _ hp
      omega
    unfold sumRows at ih ⊢
    rw [run_forEach_cons, run_withS, hrow, List.flatMap_cons, run_writePieces_append]
    exact ih (fun j hj => hks j (List.mem_cons_of_mem _ hj)) _ (husrc.trans (hkeep hsrc)) (hurec.trans (hkeep hrec))
end

/-! The course of SUM. -/

/-- The fault of SUM's own fields and of its layer record. -/
def State.sumFault (s : State) (d : Block64) : Option Status :=
  (if 3 < dfld d 11 20 4 ∨ ¬ (dfld d 11 24 4 = 0 ∨ dfld d 11 24 4 = 1 ∨ dfld d 11 24 4 = 0xF) then some Status.descriptorFault else none).or
    (s.layerFault (daddr d 8 9 12))

/-- Tokens of SUM's route record. -/
def State.sumTokens (s : State) (d : Block64) : Nat := s.recordTokens (s.recLayer d) (dfld d 11 0 8)

/-- SUM's per-route buffer. -/
def State.sumSrc (s : State) (d : Block64) : Mat := routeBuffer (s.recLayer d) (daddr d 12 13 12) (dfld d 11 20 4) (s.sumTokens d)

/-- SUM's output. -/
def State.sumOut (s : State) (d : Block64) : Mat := ⟨daddr d 14 15 12, dfld d 11 24 4, 16, false, false, s.sumTokens d, (s.recLayer d).h⟩

/-- What SUM reads: its per-route buffer and its record. -/
def State.sumReads (s : State) (d : Block64) : List (Nat × Nat) :=
  [(daddr d 12 13 12, (s.sumSrc d).tileBytes), ((s.recLayer d).routeAddr, 64 + 16 * s.sumTokens d * (s.recLayer d).k)]

theorem sumFault_test (s : State) (d : Block64) :
    (if decide (3 < dfld d 11 20 4) || !(dfld d 11 24 4 == 0 || dfld d 11 24 4 == 1 || dfld d 11 24 4 == 0xF) then some Status.descriptorFault
      else none).or (s.layerFault (daddr d 8 9 12)) = s.sumFault d := by
  have htest : (decide (3 < dfld d 11 20 4) || !(dfld d 11 24 4 == 0 || dfld d 11 24 4 == 1 || dfld d 11 24 4 == 0xF)) = true ↔
      3 < dfld d 11 20 4 ∨ ¬ (dfld d 11 24 4 = 0 ∨ dfld d 11 24 4 = 1 ∨ dfld d 11 24 4 = 0xF) := by
    simp only [Bool.or_eq_true, decide_eq_true_eq, Bool.not_eq_true', Bool.or_eq_false_iff, beq_eq_false_iff_ne, ne_eq, not_or, and_assoc]
  unfold State.sumFault
  simp only [htest]

theorem sumFault_none {s : State} {d : Block64} (h : s.sumFault d = none) : dfld d 11 20 4 ≤ 3 := by
  refine Nat.le_of_not_lt fun hlt => ?_
  unfold State.sumFault at h
  rw [if_pos (.inl hlt)] at h
  cases h

/-- A SUM with a bad field or layer record ends with that status. -/
theorem run_sumProg_fault {s : State} {c : Cmd} {st : Status} (h : s.sumFault c.desc = some st) (sid : Nat) :
    run (sumProg sid c) s = run (endCmd sid c st) s := by
  unfold sumProg
  rw [run_withS]
  dsimp only
  rw [sumFault_test, h]

section
variable {s : State} {c : Cmd} (h : s.sumFault c.desc = none)
include h

/-- A SUM out of its record's stage order ends with SEQUENCE_FAULT. -/
theorem run_sumProg_late (ho : s.outOfOrder (s.recLayer c.desc) 4 0 false = true) (sid : Nat) :
    run (sumProg sid c) s = run (endCmd sid c .sequenceFault) s := by
  unfold sumProg
  rw [run_withS]
  dsimp only
  rw [sumFault_test, h]
  dsimp only
  rw [← State.recLayer, if_pos ho]

variable (ho : s.outOfOrder (s.recLayer c.desc) 4 0 false = false)
include ho

/-- A SUM of an empty record completes. -/
theorem run_sumProg_empty (hm : s.sumTokens c.desc = 0) (sid : Nat) :
    run (sumProg sid c) s = run (sumEnd sid c (s.recLayer c.desc)) s := by
  unfold sumProg
  rw [run_withS]
  dsimp only
  rw [sumFault_test, h]
  dsimp only
  rw [← State.recLayer, ho, if_neg Bool.false_ne_true, ← State.sumTokens, if_pos hm]

/-- A SUM that passes every check and that nothing holds up leads, writes its rows and completes. -/
theorem run_sumProg {sid : Nat} (hm : s.sumTokens c.desc ≠ 0) (hroom : (s.sumOut c.desc).tileBytes ≤ 4096 * dfld c.desc 15 12 20)
    (hsrc : s.reach (requesterOf sid) .read (daddr c.desc 12 13 12) (s.sumSrc c.desc).tileBytes = true)
    (hout : s.reach (requesterOf sid) .write (daddr c.desc 14 15 12) (s.sumOut c.desc).tileBytes = true)
    (hrec : s.reach (requesterOf sid) .read (s.recLayer c.desc).routeAddr (64 + 16 * s.sumTokens c.desc * (s.recLayer c.desc).k) = true)
    (hready : s.ready ((true, daddr c.desc 14 15 12, (s.sumOut c.desc).tileBytes) :: readExts (s.sumReads c.desc)) = true)
    (hread : s.anyHurt (s.sumReads c.desc) = none)
    (hwrite : s.piecesHurt ((List.range (s.sumTokens c.desc)).flatMap fun t =>
      rowPieces (s.sumOut c.desc) t (List.replicate (s.recLayer c.desc).h 0)) = none) :
    run (sumProg sid c) s = run (sumEnd sid c (s.recLayer c.desc))
      (run (sumRows (requesterOf sid) (s.recLayer c.desc) (s.sumSrc c.desc) (s.sumOut c.desc) (dfld c.desc 11 16 1 == 1)
          (List.range (s.sumTokens c.desc)))
        (run (curatorLead sid c (daddr c.desc 8 9 12) 4 (s.sumReads c.desc)) s)) := by
  have hroom' : decide (4096 * dfld c.desc 15 12 20 < (s.sumOut c.desc).tileBytes) = false := decide_eq_false (Nat.not_lt.mpr hroom)
  unfold sumProg
  rw [run_withS]
  dsimp only
  rw [sumFault_test, h]
  dsimp only
  rw [← State.recLayer, ho, if_neg Bool.false_ne_true, ← State.sumTokens, if_neg hm, ← State.sumSrc, ← State.sumOut]
  rw [hroom', hsrc, hout, hrec, ← State.sumReads]
  dsimp only [firstFault]
  rw [if_neg Bool.false_ne_true, if_neg (by decide)]
  dsimp only
  rw [run_whenReady hready, hread, hwrite]
  dsimp only [Option.or]
  simp only [run_seqs_cons, run_seqs_nil, curatorLead]
  rfl
end

/-- What is left of SUM's stage order and of memory once it completes. -/
theorem sumEnd_frame {sid acc : Nat} {c : Cmd} (ha : c.acc = acc) (l : Layer) {s : State} {o : RouteOrder} (ho : nget s.orders l.routeAddr = some o) :
    EndedNow (run (sumEnd sid c l) s) (.stream sid) acc .ok ∧ (run (sumEnd sid c l) s).mem = s.mem ∧
    nget (run (sumEnd sid c l) s).orders l.routeAddr = some { o with sums := o.sums + 1 } := by
  unfold sumEnd
  rw [run_withS, run_seq, ho, run_given_some, run_emit_one]
  obtain ⟨hend, hmem, horders⟩ := endCmd_frame ha ((Eff.order l.routeAddr (some { o with sums := o.sums + 1 })).apply s) .ok
  refine ⟨hend, hmem, ?_⟩
  rw [horders, apply_orders]
  exact nget_nset_self _ _ _

theorem within_sumRows (who : Requester) (l : Layer) (src out : Mat) (weighted : Bool) (ks : List Nat) :
    Within [.reg, .mem, .core, .line, .hurt, .cons, .pow, .log, .send, .draw] (sumRows who l src out weighted ks) :=
  within_forEach fun _ _ => within_withS fun _ => within_forEach fun _ _ => within_writeBytes (List.Subset.refl _) _ _ _

/-! CUR_CNT_CLEAR. -/

theorem writes_curClear : WritesWords (fun o => 0x20008 ≤ o ∧ o < 0x20028) curClearProg :=
  writes_seqs_cons (writes_setF64 0 rfl (by decide) (by decide)) (writes_seqs_cons (writes_setF64 0 rfl (by decide) (by decide))
    (writes_seqs_cons (writes_setF64 0 rfl (by decide) (by decide)) (writes_seqs_cons (writes_setF64 0 rfl (by decide) (by decide)) writes_seqs_nil)))

/-- After CUR_CNT_CLEAR the Curator's four counters read 0. -/
theorem curClear_zero (s : State) :
    (run curClearProg s).fld Reg.curRoutes = 0 ∧ (run curClearProg s).fld Reg.curRowsSent = 0 ∧ (run curClearProg s).fld Reg.curCopies = 0 ∧
    (run curClearProg s).fld Reg.curDropped = 0 := by
  unfold curClearProg
  rw [run_seqs_cons, run_seqs_cons, run_seqs_cons, run_seqs_cons, run_seqs_nil]
  refine ⟨?_, ?_, ?_, fld_clear64 rfl _⟩
  · rw [fld_setF64_apart rfl (by decide), fld_setF64_apart rfl (by decide), fld_setF64_apart rfl (by decide)]
    exact fld_clear64 rfl _
  · rw [fld_setF64_apart rfl (by decide), fld_setF64_apart rfl (by decide)]
    exact fld_clear64 rfl _
  · rw [fld_setF64_apart rfl (by decide)]
    exact fld_clear64 rfl _

/-! The statement. -/

/-- Settles O24: a SUM ends at its first failing check, completes on an empty record, or is its lead and its rows, each computed from the bytes
SUM started with since the output lies apart from what it reads. -/
theorem sumAddsTheRoutesOfEachToken : Obligations.SumAddsTheRoutesOfEachToken := by
  unfold Obligations.SumAddsTheRoutesOfEachToken
  refine ⟨fun sid acc s c hwf _ _ hc => ?sum, fun s => ?clear⟩
  case clear =>
    obtain ⟨hroutes, hrows, hcopies, hdropped⟩ := curClear_zero s
    exact ⟨_, rfl, hroutes, hrows, hcopies, hdropped, keepsOutside_of_writes writes_curClear s,
      changesOnly_of_within (within_curClearProg (List.Subset.refl _)) (by decide) s⟩
  case sum =>
    intro l m fmt sm om row fault
    have hacc : c.acc = acc := (issuedCmd_acc hc).1
    have hrun : run (onIssued sid acc 0x10 4 (sumProg sid)) s = run (sumProg sid c) s := run_onIssued hc _
    refine ⟨fun st hst => ⟨_, rfl, ?fault⟩, fun hok hlate => ⟨_, rfl, ?late⟩,
      fun hok horder o ho => ⟨fun h0 => ⟨_, rfl, ?empty⟩, ?rows⟩⟩
    case fault =>
      rw [hrun, run_sumProg_fault hst]
      exact endCmd_frame hacc s st
    case late =>
      rw [hrun, run_sumProg_late hok hlate]
      exact endCmd_frame hacc s .sequenceFault
    case empty =>
      rw [hrun, run_sumProg_empty hok horder h0]
      exact sumEnd_frame hacc l ho
    case rows =>
      intro hm hroom hsrc hout hrec hready hread hwrite hsm hl
      refine ⟨_, rfl, ?_⟩
      rw [hrun, run_sumProg hok horder hm hroom hsrc hout hrec hready hread hwrite]
      generalize hu : run (curatorLead sid c (daddr c.desc 8 9 12) 4 (s.sumReads c.desc)) s = u
      have hmem : u.mem = s.mem := hu ▸ mem_keep (within_curatorLead _ _ _ _ _) s
      have horders : u.orders = s.orders := hu ▸ orders_keep (within_curatorLead _ _ _ _ _) s
      have hrows := run_sumRows (s := s) (base := sm.base) (out := om) (unscaled_of_le (sumFault_none hok)) rfl hsm hl (requesterOf sid)
        (dfld c.desc 11 16 1 == 1) (List.range m) (fun k hk => List.mem_range.mp hk) u (.of_mem hmem _ _) (.of_mem hmem _ _)
      have hkeep := orders_keep (within_sumRows (requesterOf sid) l sm om (dfld c.desc 11 16 1 == 1) (List.range m)) u
      obtain ⟨hend, hbytes, hdone⟩ := sumEnd_frame hacc l (hkeep.trans horders ▸ ho)
      refine ⟨hend, hdone, fun a => ?_⟩
      have hrising : NMap.Rising u.mem := hmem ▸ hwf.1
      have hpieces := (byte_pieces (requesterOf sid) ((List.range m).flatMap fun k => rowPieces om k (row k)) u hrising a).1
      rw [hmem] at hpieces
      exact (congrArg (byteAt · a) (hbytes.trans (congrArg State.mem hrows))).trans hpieces

end Sys2Proof.Machine
end

section
/-! PROOF. The Curator's exchange rows (06 R162, R176, R181). The model looks a stage's command up by its accession number alone, so a state
in which two issued commands of one stream share a number refutes that every exchange row shows its opcode. -/

namespace Sys2Proof.Machine

/-- An issued command of accession number 1 with these words. -/
def issuedOne (words : Nat) : Cmd := ⟨1, BitVec.ofNat 512 words, 0, none, 1, none, .none, false, 0, 0, none, 0, []⟩

/-- A GRANT of the layer record at 0x1000, with SEQ 0. -/
def twinGrant : Cmd := issuedOne (0x110 + 0x1000 * 2 ^ 256)

/-- A command of the collectives' class, a BARRIER, with the same accession number as `twinGrant`. -/
def twinBarrier : Cmd := issuedOne 0x511

/-- A layer of two experts and one member, group 0; its record lies at 0x1000 and its route record at 0x4000. -/
def twinLayer : List Host.Cell :=
  [(0x1005, 0xF0), (0x1019, 0x40), (0x1040, 2), (0x1041, 0x20), (0x1044, 16), (0x104D, 1), (0x104E, 1), (0x1051, 1)]

/-- Group 0 is formed of this package alone, a ROUTE has begun the stage order of the route record, and stream 1024 has issued a BARRIER and a
GRANT that share accession number 1. -/
def twinState : State :=
  { State.reset with
    ctl := [((Reg.colGrpState 0).off, 2 * 2 ^ 1), ((Reg.grpExtX 0).off, 2 ^ 12 + 2 ^ 17 + 2 ^ 22), ((Reg.grpStrideX 0).off, 0x111)]
    mem := twinLayer
    strms := [(1024, { Strm.reset with issued := [twinBarrier, twinGrant] })]
    orders := [(0x4000, RouteOrder.fresh 1024 0)] }

theorem exec_grant (sid acc : Nat) (s : State) :
    exec (.grant sid acc) s = .next (run (onIssued sid acc 0x10 1 (exchangeProg sid)) s) := rfl

theorem twinGrant_issued : twinState.issuedCmd 1024 1 0x10 1 = some twinGrant := by decide +kernel

/-- The GRANT passes its checks: its layer record is sound, it is in its stage order, its SEQ is its group's next number, and no stage is in
flight. -/
theorem twinGrant_passes :
    let a := daddr twinGrant.desc 8 9 12
    let l := twinState.layer a
    (if 1 = 3 ∧ 3 < dfld twinGrant.desc 11 20 4 then some Status.descriptorFault else none).or (twinState.layerFault a) = none ∧
    twinState.outOfOrder l 1 (dfld twinGrant.desc 11 8 6) (dfld twinGrant.desc 11 16 1 == 1) = false ∧
    dword twinGrant.desc 10 = twinState.fld (Reg.colGrpNextSeq l.group) ∧ twinState.fld (Reg.colGrpInflight l.group) < 4 := by decide +kernel

/-- The stage of the GRANT runs as the BARRIER it finds under accession number 1: it completes at once, and the part of a collective that it
then shows, 0, overwrites the low bits of the opcode. -/
theorem twinGrant_shows_no_op :
    (run (onIssued 1024 1 0x10 1 (exchangeProg 1024)) twinState).fld (Reg.curStrmOp 1024) = 0 := by decide +kernel

/-- Refutes O25: the statement does not ask that an accession number name one issued command of its stream. In `twinState` two commands share
one; the GRANT joins its group, but its stream's opcode then reads 0 and not 1. -/
theorem not_exchangeStagesJoinInOrder : ¬ Obligations.ExchangeStagesJoinInOrder := by
  unfold Obligations.ExchangeStagesJoinInOrder
  intro h
  obtain ⟨hfault, horder, hseq, hfree⟩ := twinGrant_passes
  obtain ⟨-, -, -, hjoins⟩ := h (1, Instr.grant) (List.mem_cons_self ..) 1024 1 twinState twinGrant (by decide) (by decide) twinGrant_issued rfl
  have hlate := not_or.mpr ⟨ne_true_of_eq_false horder, not_not_intro hseq⟩
  obtain ⟨t, hexec, -, -, -, hop, -⟩ := hjoins hfault hlate hfree
  have ht : run (onIssued 1024 1 0x10 1 (exchangeProg 1024)) twinState = t := Host.Outcome.next.inj ((exec_grant 1024 1 twinState).symm.trans hexec)
  rw [← ht, twinGrant_shows_no_op] at hop
  exact Nat.zero_ne_one hop

end Sys2Proof.Machine
end
